-- ==== Sys2Proof/Word.lean ====
section
/-! DEFINITION. The word types of the Kilelm K3 (R2, R3, R60). -/
namespace Sys2Proof

/-- A byte of memory. -/
abbrev Byte := BitVec 8

/-- A word: 32 bits. -/
abbrev Word := BitVec 32

/-- A dword: 64 bits. -/
abbrev Dword := BitVec 64

/-- An instruction word: 96 bits (R60). -/
abbrev IWord := BitVec 96

/-- An operand code (R78). -/
abbrev Code := BitVec 10

end Sys2Proof
end

