-- ==== Sys2Proof/Syntax.lean ====
section
/-! DEFINITION. The instruction words of Chimen-3 (R60 to R77, R99) and the events of the opcode table: one constructor
of `Instr` for each row of spec/opcode_table.json. An instruction carries the fields of its form, bit for bit; an event is a
step of an agent other than the issuing pod and has no encoding. -/
namespace Sys2Proof

/-- The fields every instruction word has (R64). -/
structure Head where
  neg  : Bool
  pred : BitVec 4
  wait : BitVec 12
  seta : BitVec 4
  setb : BitVec 4
deriving DecidableEq, Repr

/-- Form R (R68). -/
structure FormR where
  dst   : Code
  a     : Code
  b     : Code
  c     : Code
  smod  : BitVec 12
  mtgt  : BitVec 2
  flags : BitVec 7
deriving DecidableEq, Repr

/-- Form I (R71). -/
structure FormI where
  dst    : Code
  a      : Code
  imm    : Word
  interp : BitVec 2
  flags  : BitVec 7
deriving DecidableEq, Repr

/-- An R/I opcode: form flag [26] selects the form (R67). -/
inductive FormRI
  | r (f : FormR)
  | i (f : FormI)
deriving DecidableEq, Repr

/-- Form M (R73). -/
structure FormM where
  data   : Code
  base   : Code
  index  : Code
  offset : BitVec 14
  scope  : BitVec 3
  order  : BitVec 2
  atom   : BitVec 2
  size   : BitVec 3
  hint   : BitVec 2
  nf     : Bool
  typed  : Bool
  rsv    : BitVec 3
deriving DecidableEq, Repr

/-- Form Q (R76). -/
structure FormQ where
  dst   : Code
  a     : Code
  b     : Code
  c     : Code
  desc  : BitVec 12
  flags : BitVec 9
deriving DecidableEq, Repr

/-- Form B (R77). -/
structure FormB where
  link  : Code
  a     : Code
  boff  : Word
  flags : BitVec 9
deriving DecidableEq, Repr

/-- The two slices of a kernel (R30); %slice reads 0 and 1 (R29). -/
inductive Slice
  | execute | access
deriving DecidableEq, Repr

/-- A team: its grid, its linear number L (R116), and which copy of a shadow phase it is (R471; 0 otherwise). -/
structure TeamId where
  grid : Nat
  l    : Nat
  copy : Nat
deriving DecidableEq, Repr

/-- A pod: its team, its slice and %pod (R29). -/
structure PodId where
  team  : TeamId
  slice : Slice
  idx   : Nat
deriving DecidableEq, Repr

/-- A region of an access table (R501). -/
structure Region where
  base  : Dword
  limit : Dword
  rmask : BitVec 128
  wmask : BitVec 128
deriving DecidableEq, Repr

/-- A Hazel flit as a port receives it (R490): the trailer fields, whether its CRC holds, and whether it carries payload. -/
structure Flit where
  lseq    : BitVec 11
  lack    : BitVec 11
  vc      : BitVec 3
  cvc     : BitVec 3
  cred    : BitVec 4
  crcOk   : Bool
  payload : Bool
deriving DecidableEq, Repr

/-- The requests that a message between packages can make (R491). -/
inductive ReqKind
  | load (n : Nat)
  | store (bytes : List Byte) (mask : List Bool)
  /-- The operands B and C of the threads that name the location, ascending: one atomic step, which answers each old value (R333, R355). -/
  | atomic (op : BitVec 4) (ty : BitVec 3) (ops : List (Dword × Dword))
  | reduce (op : BitVec 4) (ty : BitVec 3) (b : Dword)
  /-- The bytes of a payload by pages, and the queue word's address (R371). -/
  | wrq (parts : List (Nat × List Byte)) (queueWord : Nat)
  /-- Asks whether `n` bytes may be written, with no effect: the payload and its increment take effect together or not at all, when
  they have different homes (R371). -/
  | probe (n : Nat)
deriving DecidableEq, Repr

/-- A request message of the fabric (R490, R493, R495). -/
structure Message where
  src     : Nat
  dst     : Nat
  seq     : Word
  vc      : BitVec 3
  relay   : Option Nat
  bounced : Bool
  pa      : Nat
  kind    : ReqKind
deriving DecidableEq, Repr

/-- A response to an outstanding request (R488, R493): the DGEN its request had, the value or the refusal it carries. -/
structure Response where
  src     : Nat
  seq     : Word
  dgen    : Word
  refused : Bool
  data    : List Byte
  /-- The data comes with an uncorrectable error (R311). -/
  uncorr  : Bool := false
deriving DecidableEq, Repr

/-- What the checks of R311 find: a corrected error in memory or in a memory of a core, or an uncorrectable one in a byte at home, in a
byte of a team's stash or plain shared region, or in a register. -/
inductive Upset
  | corrected (pa : Nat) | correctedIn (core : Nat)
  | home (pa : Nat)
  | stash (t : TeamId) (pa : Nat)
  | shared (t : TeamId) (offset : Nat)
  | vreg (p : PodId) (thread reg : Nat)
  | kreg (p : PodId) (reg : Nat)
deriving DecidableEq, Repr

/-- A pass of the scrubber over a line, and what the checks of R311 have found since the last one (R312; log 15). -/
structure Scrub where
  line  : Nat
  found : List Upset
deriving DecidableEq, Repr

/-- An Ultra Ethernet packet that arrives (R498, R500). -/
structure UePacket where
  flow   : BitVec 4
  crcOk  : Bool
  pa     : Nat
  write  : Option (List Byte)
  len    : Nat
deriving DecidableEq, Repr

/-- The instructions of the opcode map (R99), and after them the events of the opcode table. -/
inductive Instr where
  /-- NOP (R233). -/
  | nop (h : Head) (f : FormR)
  /-- BRA (R236). -/
  | bra (h : Head) (f : FormB)
  /-- BRX (R236). -/
  | brx (h : Head) (f : FormB)
  /-- CALL (R236). -/
  | call (h : Head) (f : FormB)
  /-- CALLX (R236). -/
  | callx (h : Head) (f : FormB)
  /-- RET (R236). -/
  | ret (h : Head) (f : FormB)
  /-- EXIT (R243). -/
  | exitT (h : Head) (f : FormR)
  /-- LOOP (R239). -/
  | loop (h : Head) (f : FormB)
  /-- LOOPC (R239). -/
  | loopc (h : Head) (f : FormB)
  /-- LEAVE (R241). -/
  | leave (h : Head) (f : FormB)
  /-- PHASE (R244). -/
  | phase (h : Head) (f : FormR)
  /-- SYNC (R244). -/
  | sync (h : Head) (f : FormR)
  /-- WAITF (R245). -/
  | waitf (h : Head) (f : FormRI)
  /-- YIELD (R245). -/
  | yield (h : Head) (f : FormR)
  /-- SLEEP (R245). -/
  | sleep (h : Head) (f : FormI)
  /-- HOLDT (R245). -/
  | holdt (h : Head) (f : FormI)
  /-- TRAP (R247). -/
  | trap (h : Head) (f : FormI)
  /-- BRK (R247). -/
  | brk (h : Head) (f : FormI)
  /-- RTT (R248). -/
  | rtt (h : Head) (f : FormR)
  /-- CLRC (R249). -/
  | clrc (h : Head) (f : FormRI)
  /-- SETC (R249). -/
  | setc (h : Head) (f : FormRI)
  /-- RDSR (R250). -/
  | rdsr (h : Head) (f : FormR)
  /-- WRSR (R251). -/
  | wrsr (h : Head) (f : FormRI)
  /-- LAUNCH (R254). -/
  | launch (h : Head) (f : FormQ)
  /-- WAITCH (R255). -/
  | waitch (h : Head) (f : FormR)
  /-- FETCHW (R256). -/
  | fetchw (h : Head) (f : FormR)
  /-- TIME (R252). -/
  | time (h : Head) (f : FormR)
  /-- ICINV (R257). -/
  | icinv (h : Head) (f : FormM)
  /-- PRIO (R253). -/
  | prio (h : Head) (f : FormRI)
  /-- HALT (R258). -/
  | halt (h : Head) (f : FormR)
  /-- RESUME (R258). -/
  | resume (h : Head) (f : FormR)
  /-- ABORTP (R258). -/
  | abortp (h : Head) (f : FormR)
  /-- ACORN (R259). -/
  | acorn (h : Head) (f : FormRI)
  /-- IADD (R159). -/
  | iadd (h : Head) (f : FormRI)
  /-- ISUB (R159). -/
  | isub (h : Head) (f : FormRI)
  /-- IADDC (R160). -/
  | iaddc (h : Head) (f : FormRI)
  /-- ISUBB (R160). -/
  | isubb (h : Head) (f : FormRI)
  /-- IMUL (R159). -/
  | imul (h : Head) (f : FormRI)
  /-- IMULH (R159). -/
  | imulh (h : Head) (f : FormRI)
  /-- IMAD (R159). -/
  | imad (h : Head) (f : FormRI)
  /-- IDIV (R161). -/
  | idiv (h : Head) (f : FormRI)
  /-- IREM (R161). -/
  | irem (h : Head) (f : FormRI)
  /-- INEG (R159). -/
  | ineg (h : Head) (f : FormR)
  /-- IABS (R159). -/
  | iabs (h : Head) (f : FormR)
  /-- IMIN (R159). -/
  | imin (h : Head) (f : FormRI)
  /-- IMAX (R159). -/
  | imax (h : Head) (f : FormRI)
  /-- ICLAMP (R159). -/
  | iclamp (h : Head) (f : FormRI)
  /-- ISAD (R159). -/
  | isad (h : Head) (f : FormRI)
  /-- SHL (R162). -/
  | shl (h : Head) (f : FormRI)
  /-- SHR (R162). -/
  | shr (h : Head) (f : FormRI)
  /-- SHRA (R162). -/
  | shra (h : Head) (f : FormRI)
  /-- ROTL (R162). -/
  | rotl (h : Head) (f : FormRI)
  /-- SHFD (R162). -/
  | shfd (h : Head) (f : FormRI)
  /-- AND (R163). -/
  | andB (h : Head) (f : FormRI)
  /-- OR (R163). -/
  | orB (h : Head) (f : FormRI)
  /-- XOR (R163). -/
  | xorB (h : Head) (f : FormRI)
  /-- ANDN (R163). -/
  | andn (h : Head) (f : FormRI)
  /-- NOT (R163). -/
  | notB (h : Head) (f : FormR)
  /-- LOP3 (R163). -/
  | lop3 (h : Head) (f : FormQ)
  /-- BFE (R164). -/
  | bfe (h : Head) (f : FormRI)
  /-- BFI (R164). -/
  | bfi (h : Head) (f : FormRI)
  /-- BREV (R165). -/
  | brev (h : Head) (f : FormR)
  /-- POPC (R165). -/
  | popc (h : Head) (f : FormR)
  /-- CLZ (R165). -/
  | clz (h : Head) (f : FormR)
  /-- CTZ (R165). -/
  | ctz (h : Head) (f : FormR)
  /-- BYTEP (R166). -/
  | bytep (h : Head) (f : FormRI)
  /-- ISETP (R167). -/
  | isetp (h : Head) (f : FormRI)
  /-- ISEL (R168). -/
  | isel (h : Head) (f : FormR)
  /-- PLOP (R169). -/
  | plop (h : Head) (f : FormR)
  /-- PTOV (R170). -/
  | ptov (h : Head) (f : FormR)
  /-- VTOP (R170). -/
  | vtop (h : Head) (f : FormR)
  /-- MOV (R171). -/
  | mov (h : Head) (f : FormR)
  /-- MOVI (R172). -/
  | movi (h : Head) (f : FormI)
  /-- KGET (R173). -/
  | kget (h : Head) (f : FormR)
  /-- LEA (R174). -/
  | lea (h : Head) (f : FormRI)
  /-- TAG (R175). -/
  | tagOp (h : Head) (f : FormRI)
  /-- FADD (R183). -/
  | fadd (h : Head) (f : FormRI)
  /-- FSUB (R183). -/
  | fsub (h : Head) (f : FormRI)
  /-- FMUL (R183). -/
  | fmul (h : Head) (f : FormRI)
  /-- FFMA (R183). -/
  | ffma (h : Head) (f : FormRI)
  /-- FMIN (R185). -/
  | fmin (h : Head) (f : FormRI)
  /-- FMAX (R185). -/
  | fmax (h : Head) (f : FormRI)
  /-- FMINN (R185). -/
  | fminn (h : Head) (f : FormRI)
  /-- FMAXN (R185). -/
  | fmaxn (h : Head) (f : FormRI)
  /-- FABS (R187). -/
  | fabs (h : Head) (f : FormR)
  /-- FNEG (R187). -/
  | fneg (h : Head) (f : FormR)
  /-- FSGN (R187). -/
  | fsgn (h : Head) (f : FormR)
  /-- FSETP (R186). -/
  | fsetp (h : Head) (f : FormRI)
  /-- FCLASS (R188). -/
  | fclass (h : Head) (f : FormR)
  /-- FRCP (R189). -/
  | frcp (h : Head) (f : FormR)
  /-- FRSQ (R189). -/
  | frsq (h : Head) (f : FormR)
  /-- FSQRT (R189). -/
  | fsqrt (h : Head) (f : FormR)
  /-- FDIV (R183). -/
  | fdiv (h : Head) (f : FormRI)
  /-- FEXP2 (R189). -/
  | fexp2 (h : Head) (f : FormR)
  /-- FLOG2 (R189). -/
  | flog2 (h : Head) (f : FormR)
  /-- FSIN (R189). -/
  | fsin (h : Head) (f : FormR)
  /-- FCOS (R189). -/
  | fcos (h : Head) (f : FormR)
  /-- FTANH (R189). -/
  | ftanh (h : Head) (f : FormR)
  /-- FRND (R184). -/
  | frnd (h : Head) (f : FormR)
  /-- FFRC (R184). -/
  | ffrc (h : Head) (f : FormR)
  /-- FSCALE (R183). -/
  | fscale (h : Head) (f : FormRI)
  /-- FGETX (R184). -/
  | fgetx (h : Head) (f : FormR)
  /-- HADD2 (R191). -/
  | hadd2 (h : Head) (f : FormRI)
  /-- HMUL2 (R191). -/
  | hmul2 (h : Head) (f : FormRI)
  /-- HFMA2 (R191). -/
  | hfma2 (h : Head) (f : FormRI)
  /-- HMIN2 (R191). -/
  | hmin2 (h : Head) (f : FormRI)
  /-- HMAX2 (R191). -/
  | hmax2 (h : Head) (f : FormRI)
  /-- CVT (R195). -/
  | cvt (h : Head) (f : FormQ)
  /-- CVTI (R195). -/
  | cvti (h : Head) (f : FormQ)
  /-- CVTF (R195). -/
  | cvtf (h : Head) (f : FormQ)
  /-- PACK (R197). -/
  | pack (h : Head) (f : FormQ)
  /-- UNPK (R198). -/
  | unpk (h : Head) (f : FormQ)
  /-- PK6 (R199). -/
  | pk6 (h : Head) (f : FormQ)
  /-- UPK6 (R199). -/
  | upk6 (h : Head) (f : FormQ)
  /-- DOT2 (R203). -/
  | dot2 (h : Head) (f : FormR)
  /-- DOT4 (R203). -/
  | dot4 (h : Head) (f : FormR)
  /-- DOT8 (R203). -/
  | dot8 (h : Head) (f : FormR)
  /-- DOTT (R203). -/
  | dott (h : Head) (f : FormR)
  /-- RDFL (R204). -/
  | rdfl (h : Head) (f : FormR)
  /-- CLFL (R205). -/
  | clfl (h : Head) (f : FormRI)
  /-- SHFL (R215). -/
  | shfl (h : Head) (f : FormRI)
  /-- PERM (R216). -/
  | perm (h : Head) (f : FormR)
  /-- VOTEA (R218). -/
  | votea (h : Head) (f : FormR)
  /-- VOTEN (R218). -/
  | voten (h : Head) (f : FormR)
  /-- BALLOT (R219). -/
  | ballot (h : Head) (f : FormR)
  /-- MATCH (R220). -/
  | matchOp (h : Head) (f : FormR)
  /-- ELECT (R221). -/
  | elect (h : Head) (f : FormR)
  /-- PART (R222). -/
  | part (h : Head) (f : FormR)
  /-- GMASK (R223). -/
  | gmask (h : Head) (f : FormRI)
  /-- AMASK (R224). -/
  | amask (h : Head) (f : FormR)
  /-- GRED (R227). -/
  | gred (h : Head) (f : FormQ)
  /-- GSCAN (R227). -/
  | gscan (h : Head) (f : FormQ)
  /-- GBCAST (R217). -/
  | gbcast (h : Head) (f : FormR)
  /-- GSORT (R228). -/
  | gsort (h : Head) (f : FormQ)
  /-- TRED (R229). -/
  | tred (h : Head) (f : FormQ)
  /-- TSCAN (R229). -/
  | tscan (h : Head) (f : FormQ)
  /-- LD (R347). -/
  | ld (h : Head) (f : FormM)
  /-- ST (R347). -/
  | st (h : Head) (f : FormM)
  /-- LDS (R347). -/
  | lds (h : Head) (f : FormM)
  /-- STS (R347). -/
  | sts (h : Head) (f : FormM)
  /-- LDC (R348). -/
  | ldc (h : Head) (f : FormM)
  /-- PRF (R351). -/
  | prf (h : Head) (f : FormM)
  /-- ATOM (R355). -/
  | atom (h : Head) (f : FormQ)
  /-- RED (R356). -/
  | red (h : Head) (f : FormQ)
  /-- ATOMS (R357). -/
  | atoms (h : Head) (f : FormQ)
  /-- REDS (R357). -/
  | reds (h : Head) (f : FormQ)
  /-- TXB (R359). -/
  | txb (h : Head) (f : FormR)
  /-- TXE (R361). -/
  | txe (h : Head) (f : FormR)
  /-- TXA (R362). -/
  | txa (h : Head) (f : FormR)
  /-- TXST (R362). -/
  | txst (h : Head) (f : FormR)
  /-- FENCE (R364). -/
  | fence (h : Head) (f : FormM)
  /-- OFENCE (R365). -/
  | ofence (h : Head) (f : FormR)
  /-- CPY (R367). -/
  | cpy (h : Head) (f : FormQ)
  /-- TAGWA (R368). -/
  | tagwa (h : Head) (f : FormRI)
  /-- TAGWN (R368). -/
  | tagwn (h : Head) (f : FormRI)
  /-- TAGFF (R368). -/
  | tagff (h : Head) (f : FormR)
  /-- WRQ (R371). -/
  | wrq (h : Head) (f : FormQ)
  /-- SMAP (R372). -/
  | smap (h : Head) (f : FormM)
  /-- SDROP (R373). -/
  | sdrop (h : Head) (f : FormM)
  /-- SPUB (R374). -/
  | spub (h : Head) (f : FormM)
  /-- CCTL (R375). -/
  | cctl (h : Head) (f : FormM)
  /-- TIERCP (R369). -/
  | tiercp (h : Head) (f : FormQ)
  /-- QBIND (R388). -/
  | qbind (h : Head) (f : FormQ)
  /-- QFREE (R388). -/
  | qfree (h : Head) (f : FormQ)
  /-- QPUSH (R391). -/
  | qpush (h : Head) (f : FormR)
  /-- QPOP (R391). -/
  | qpop (h : Head) (f : FormR)
  /-- QPEEK (R391). -/
  | qpeek (h : Head) (f : FormR)
  /-- QSTAT (R393). -/
  | qstat (h : Head) (f : FormR)
  /-- QRES (R392). -/
  | qres (h : Head) (f : FormQ)
  /-- QPUB (R392). -/
  | qpub (h : Head) (f : FormQ)
  /-- QWAIT (R394). -/
  | qwait (h : Head) (f : FormRI)
  /-- LDQ (R395). -/
  | ldq (h : Head) (f : FormM)
  /-- STQ (R395). -/
  | stq (h : Head) (f : FormM)
  /-- RRDQ (R396). -/
  | rrdq (h : Head) (f : FormQ)
  /-- SUBS (R397). -/
  | subs (h : Head) (f : FormQ)
  /-- DRAINQ (R398). -/
  | drainq (h : Head) (f : FormQ)
  /-- LCBR (R399). -/
  | lcbr (h : Head) (f : FormB)
  /-- QFLUSH (R388). -/
  | qflush (h : Head) (f : FormQ)
  /-- MMA (R417). -/
  | mma (h : Head) (f : FormQ)
  /-- MMAT (R418). -/
  | mmat (h : Head) (f : FormQ)
  /-- MMAS (R417). -/
  | mmas (h : Head) (f : FormQ)
  /-- TDEF (R411). -/
  | tdef (h : Head) (f : FormQ)
  /-- TDROP (R411). -/
  | tdrop (h : Head) (f : FormQ)
  /-- MVS (R422). -/
  | mvs (h : Head) (f : FormQ)
  /-- SVS (R424). -/
  | svs (h : Head) (f : FormQ)
  /-- COLL (R428). -/
  | coll (h : Head) (f : FormQ)
  /-- GBAR (R425). -/
  | gbar (h : Head) (f : FormQ)
  /-- HWAIT (R406). -/
  | hwait (h : Head) (f : FormR)
  /-- HTEST (R406). -/
  | htest (h : Head) (f : FormR)
  /-- HCAN (R406). -/
  | hcan (h : Head) (f : FormR)
  /-- HPASS (R406). -/
  | hpass (h : Head) (f : FormR)
  /-- HTAKE (R406). -/
  | htake (h : Head) (f : FormR)
  /-- CNTSEL (R513). -/
  | cntsel (h : Head) (f : FormRI)
  /-- CNTRD (R513). -/
  | cntrd (h : Head) (f : FormR)
  /-- CNTSNAP (R513). -/
  | cntsnap (h : Head) (f : FormR)
  /-- RCINC (R514). -/
  | rcinc (h : Head) (f : FormRI)
  /-- RCSNAP (R515). -/
  | rcsnap (h : Head) (f : FormQ)
  /-- WPSET (R516). -/
  | wpset (h : Head) (f : FormM)
  /-- BPSET (R517). -/
  | bpset (h : Head) (f : FormB)
  /-- DMBOX (R518). -/
  | dmbox (h : Head) (f : FormRI)
  /-- DSTEP (R519). -/
  | dstep (h : Head) (f : FormR)
  /-- UNASSIGNED_OPCODE (R84). -/
  | unassignedOpcode (w : IWord)
  /-- TRAP_ENTRY (R266). -/
  | trapEntry (p : PodId)
  /-- CLASS_T_RESULT_WRITE (R35). -/
  | classTResultWrite (p : PodId) (n : Nat)
  /-- LOAD_DATA_RETURN (R345). -/
  | loadDataReturn (p : PodId) (n : Nat)
  /-- LDQ_SLOT_FILL (R395). -/
  | ldqSlotFill (p : PodId) (n : Nat)
  /-- COPY_PIECE (R367). -/
  | copyPiece (h : Nat)
  /-- COPY_COMPLETE (R339). -/
  | copyComplete (h : Nat)
  /-- TIERCP_PAGE (R369). -/
  | tiercpPage (h : Nat)
  /-- MATRIX_OP_FIRE (R414). -/
  | matrixOpFire (h : Nat)
  /-- MATRIX_GROUP (R417). -/
  | matrixGroup (h : Nat)
  /-- MATRIX_OP_COMPLETE (R417). -/
  | matrixOpComplete (h : Nat)
  /-- MVS_FIRE (R422). -/
  | mvsFire (h : Nat)
  /-- STACK_ENGINE_OUTPUT_RUN (R422). -/
  | stackEngineOutputRun (h : Nat)
  /-- SUBS_TILE_PUSH (R397). -/
  | subsTilePush (h : Nat)
  /-- DRAINQ_ELEMENT_WRITE (R398). -/
  | drainqElementWrite (h : Nat)
  /-- RRDQ_ELEMENT_ARRIVAL (R396). -/
  | rrdqElementArrival (h : Nat) (data : Option (BitVec 128))
  /-- COLL_INSTANCE_COMPLETE (R428). -/
  | collInstanceComplete (n : Nat)
  /-- GBAR_COMPLETE (R432). -/
  | gbarComplete (n : Nat)
  /-- TRED_INSTANCE_DELIVERY (R230). -/
  | tredInstanceDelivery (t : TeamId) (sl : Slice)
  /-- HANDLE_WAIT_PARK (R426). -/
  | handleWaitPark (p : PodId)
  /-- WAITF_TIMEOUT (R245). -/
  | waitfTimeout (p : PodId)
  /-- SLEEP_EXPIRY (R245). -/
  | sleepExpiry (p : PodId)
  /-- HOLDT_TIME_REACHED (R245). -/
  | holdtTimeReached (p : PodId)
  /-- LOOP_COUNT_POLL (R239). -/
  | loopCountPoll (p : PodId)
  /-- POD_SWAP (R55). -/
  | podSwap (p : PodId)
  /-- POD_PROMOTION (R55). -/
  | podPromotion (p : PodId)
  /-- SPIN_DEMOTION_END (R55). -/
  | spinDemotionEnd (p : PodId)
  /-- QUEUE_DEADLOCK (R383). -/
  | queueDeadlock (t : TeamId)
  /-- POD_EXIT (R243). -/
  | podExit (p : PodId)
  /-- PHASE_END (R48). -/
  | phaseEnd (t : TeamId)
  /-- PLACEMENT_TIMEOUT (R48). -/
  | placementTimeout (t : TeamId)
  /-- SHADOW_COMPARISON (R473). -/
  | shadowComparison (t : TeamId)
  /-- TEAM_EXIT (R330). -/
  | teamExit (t : TeamId)
  /-- GRID_RETIREMENT (R446). -/
  | gridRetirement (grid : Nat)
  /-- PACKET_TAKE (R442). -/
  | packetTake (q : Nat)
  /-- TEAM_PLACEMENT (R444). -/
  | teamPlacement (t : TeamId) (core : Nat)
  /-- START_TIME_REACHED (R447). -/
  | startTimeReached (t : TeamId)
  /-- FETCHW_MAILBOX_FILL (R449). -/
  | fetchwMailboxFill (t : TeamId)
  /-- SAVE_PREEMPTION (R274). -/
  | savePreemption (t : TeamId)
  /-- CONTEXT_RECORD_WRITE (R277). -/
  | contextRecordWrite (t : TeamId)
  /-- PHASE_ABORT (R51). -/
  | phaseAbort (t : TeamId)
  /-- CLUSTER_TOKEN_PASS (R455). -/
  | clusterTokenPass (c : Nat)
  /-- ESCALATION_NOTIFY (R508). -/
  | escalationNotify
  /-- PEER_REFUSAL_ARRIVAL (R350). -/
  | peerRefusalArrival (p : PodId) (n : Nat)
  /-- PEER_ACKNOWLEDGEMENT (R320). -/
  | peerAcknowledgement (core line : Nat)
  /-- MC_ISSUE_HOLD (R12). -/
  | mcIssueHold (cycles : Nat)
  /-- QUEUE_MAPPING_QUANTUM (R443). -/
  | queueMappingQuantum
  /-- CONTEXT_RESTORE (R284). -/
  | contextRestore (addr core : Nat)
  /-- PAGE_WALK (R298). -/
  | pageWalk (root : Nat) (asn : BitVec 12) (va : Dword)
  /-- L2_EVICTION (R337). -/
  | l2Eviction (line : Nat)
  /-- MEMORY_SCRUB (R312). -/
  | memoryScrub (scrub : Scrub)
  /-- DIE_TOKEN_PASS (R456). -/
  | dieTokenPass
  /-- WQ_ENABLE (R436). -/
  | wqEnable
  /-- WQ_DISABLE (R436). -/
  | wqDisable
  /-- SAVE_TEAM (R436). -/
  | saveTeam
  /-- ABORT_TEAM (R436). -/
  | abortTeam
  /-- RESUME_CONTEXT (R436). -/
  | resumeContext
  /-- DISCARD_CONTEXT (R436). -/
  | discardContext
  /-- WQCMD_RESERVED (R436). -/
  | wqcmdReserved (op : BitVec 3)
  /-- DOORBELL_WRITE (R437). -/
  | doorbellWrite (q : Nat) (tail : Word)
  /-- ACORNST_TERM_CLEAR (R456). -/
  | acornstTermClear
  /-- XLINV_PAGE (R300). -/
  | xlinvPage (asn : BitVec 12) (va : BitVec 44)
  /-- XLINV_ASN (R300). -/
  | xlinvAsn (asn : BitVec 12)
  /-- XLINV_ALL (R300). -/
  | xlinvAll
  /-- XLINV_RESERVED (R300). -/
  | xlinvReserved
  /-- XLINV_COMPLETE (R300). -/
  | xlinvComplete
  /-- CAPM_WRITE (R466). -/
  | capmWrite (mc : Bool) (core dword : Nat) (value : Dword)
  /-- ACCESS_TABLE_WRITE (R502). -/
  | accessTableWrite (target index : Nat) (region : Region)
  /-- ACCESS_TABLE_UPDATE_DONE (R502). -/
  | accessTableUpdateDone
  /-- ESCTAIL_WRITE (R508). -/
  | esctailWrite (tail : Word)
  /-- DBGOUT_POP (R518). -/
  | dbgoutPop
  /-- MC_MAILBOX_REQUEST (R482). -/
  | mcMailboxRequest (part : BitVec 6) (cstate : BitVec 2)
  /-- REGISTER_WRITE (R5). -/
  | registerWrite (master addr size : Nat) (value : Dword)
  /-- HUSK_TO_H1 (R480). -/
  | huskToH1
  /-- HUSK_TO_H0 (R480). -/
  | huskToH0
  /-- HUSK_H0_TO_H1 (R480). -/
  | huskH0ToH1
  /-- HUSK_TO_H2 (R480). -/
  | huskToH2
  /-- HUSK_TO_H3 (R480). -/
  | huskToH3
  /-- HUSK_RESET (R485). -/
  | huskReset
  /-- HUSK_POWER_APPLIED (R503). -/
  | huskPowerApplied
  /-- HUSK_POWER_LOST (R480). -/
  | huskPowerLost
  /-- PACKAGE_RESET (R486). -/
  | packageReset
  /-- FIRMWARE_VERIFY (R504). -/
  | firmwareVerify (image pubkey : List Byte)
  /-- ATTESTATION_REQUEST (R505). -/
  | attestationRequest (nonce : BitVec 256)
  /-- DIE_POWER_ON (R482). -/
  | diePowerOn
  /-- COMPUTE_DIE_RESET (R484). -/
  | computeDieReset
  /-- DIE_RESET_RELEASE (R484). -/
  | dieResetRelease
  /-- DIE_POWER_OFF (R482). -/
  | diePowerOff
  /-- AGENT_HEARTBEAT (R482). -/
  | agentHeartbeat (c : Nat)
  /-- WATCHDOG_EXPIRY (R482). -/
  | watchdogExpiry
  /-- DIE_HOLD_EXPIRY (R482). -/
  | dieHoldExpiry
  /-- WINNOW_ENQUEUE (R469). -/
  | winnowEnqueue (core q : Nat) (packet : List Byte)
  /-- WINNOW_PLACEMENT_TIMEOUT (R470). -/
  | winnowPlacementTimeout (core grid : Nat)
  /-- WINNOW_RESULT_PROCESS (R470). -/
  | winnowResultProcess (core : Nat) (failing : BitVec 256)
  /-- TIME_BASE_SYNC (R497). -/
  | timeBaseSync (reference : Nat)
  /-- FLIT_RECEIVE (R490). -/
  | flitReceive (port : Nat) (flit : Flit)
  /-- STARVATION_GRANT (R492). -/
  | starvationGrant (port : Nat) (tier : BitVec 2)
  /-- LINK_RETRY_LIMIT (R494). -/
  | linkRetryLimit (port : Nat)
  /-- LINK_NO_PROGRESS_TIMEOUT (R494). -/
  | linkNoProgressTimeout (port : Nat)
  /-- LINK_TRAINING_COMPLETE (R494). -/
  | linkTrainingComplete (port : Nat)
  /-- LSTATE_BROADCAST_RECEIVE (R494). -/
  | lstateBroadcastReceive (src : Nat) (row : BitVec 16)
  /-- UE_PORTS_UP (R480). -/
  | uePortsUp
  /-- MESSAGE_ARRIVAL (R493). -/
  | messageArrival (m : Message)
  /-- DETOUR_RELAY (R495). -/
  | detourRelay (m : Message)
  /-- BOUNCED_MESSAGE_RETURN (R495). -/
  | bouncedMessageReturn (m : Message)
  /-- RESPONSE_ARRIVAL (R488). -/
  | responseArrival (r : Response)
  /-- E2E_RESEND_TIMEOUT (R493). -/
  | e2eResendTimeout (dst : Nat) (seq : Word)
  /-- UE_PACKET_RECEIVE (R498). -/
  | uePacketReceive (u : UePacket)
  /-- WRITE_REACHES_HOME (R317). -/
  | writeReachesHome (pa : Nat) (bytes : List Byte)
  /-- HOST_COMPLEX_ACCESS (R20). -/
  | hostComplexAccess (part : BitVec 6) (pa : Nat) (wr : Option (List Byte))
  /-- FLIT_SLOT_GRANT (R492). -/
  | flitSlotGrant (port : Nat) (ready : BitVec 8)
  /-- COUNTER_MMIO_CLEAR (R510). -/
  | counterMmioClear (addr : Nat)
deriving DecidableEq, Repr

end Sys2Proof
end

