-- ==== Sys2Proof/WellFormed.lean ====
section
/-! DEFINITION. Well-formed instructions: the rules of the forms that hold for every opcode (R64, R67, R69, R73, R83), and
the ranges of the numbers an event names (R13, R15, R21, R433). The reserved values of one opcode are in `Decode.lean`. -/
namespace Sys2Proof

/-- Hints: seta and setb name f0 to f11 or nothing (R64, R84). -/
def Head.wf (h : Head) : Bool :=
  (h.seta.toNat < 12 || h.seta.toNat == 15) && (h.setb.toNat < 12 || h.setb.toNat == 15)

/-- The source modifier agrees with its target (R69) and is none or whole (R83). -/
def FormR.wf (f : FormR) : Bool :=
  if f.mtgt == 0 then f.smod == 0 else f.smod.extractLsb' 10 2 != 0 && f.smod.extractLsb' 7 3 != 0

/-- Form flag [26] is 0 in form R and 1 in form I for an R/I opcode (R67). -/
def FormRI.wf : FormRI → Bool
  | .r f => f.wf && !f.flags.getLsbD 6
  | .i f => f.flags.getLsbD 6

/-- Scope, atom and size are no reserved code and [22:20] is zero (R73, R75). -/
def FormM.wf (f : FormM) : Bool :=
  f.scope.toNat < 6 && f.atom.toNat < 3 && f.size.toNat < 6 && f.rsv == 0

/-- A well-formed instruction or event. -/
def WellFormed : Instr → Bool
  | .nop h f => h.wf && f.wf
  | .bra h _ => h.wf
  | .brx h _ => h.wf
  | .call h _ => h.wf
  | .callx h _ => h.wf
  | .ret h _ => h.wf
  | .exitT h f => h.wf && f.wf
  | .loop h _ => h.wf
  | .loopc h _ => h.wf
  | .leave h _ => h.wf
  | .phase h f => h.wf && f.wf
  | .sync h f => h.wf && f.wf
  | .waitf h f => h.wf && f.wf
  | .yield h f => h.wf && f.wf
  | .sleep h _ => h.wf
  | .holdt h _ => h.wf
  | .trap h _ => h.wf
  | .brk h _ => h.wf
  | .rtt h f => h.wf && f.wf
  | .clrc h f => h.wf && f.wf
  | .setc h f => h.wf && f.wf
  | .rdsr h f => h.wf && f.wf
  | .wrsr h f => h.wf && f.wf
  | .launch h _ => h.wf
  | .waitch h f => h.wf && f.wf
  | .fetchw h f => h.wf && f.wf
  | .time h f => h.wf && f.wf
  | .icinv h f => h.wf && f.wf
  | .prio h f => h.wf && f.wf
  | .halt h f => h.wf && f.wf
  | .resume h f => h.wf && f.wf
  | .abortp h f => h.wf && f.wf
  | .acorn h f => h.wf && f.wf
  | .iadd h f => h.wf && f.wf
  | .isub h f => h.wf && f.wf
  | .iaddc h f => h.wf && f.wf
  | .isubb h f => h.wf && f.wf
  | .imul h f => h.wf && f.wf
  | .imulh h f => h.wf && f.wf
  | .imad h f => h.wf && f.wf
  | .idiv h f => h.wf && f.wf
  | .irem h f => h.wf && f.wf
  | .ineg h f => h.wf && f.wf
  | .iabs h f => h.wf && f.wf
  | .imin h f => h.wf && f.wf
  | .imax h f => h.wf && f.wf
  | .iclamp h f => h.wf && f.wf
  | .isad h f => h.wf && f.wf
  | .shl h f => h.wf && f.wf
  | .shr h f => h.wf && f.wf
  | .shra h f => h.wf && f.wf
  | .rotl h f => h.wf && f.wf
  | .shfd h f => h.wf && f.wf
  | .andB h f => h.wf && f.wf
  | .orB h f => h.wf && f.wf
  | .xorB h f => h.wf && f.wf
  | .andn h f => h.wf && f.wf
  | .notB h f => h.wf && f.wf
  | .lop3 h _ => h.wf
  | .bfe h f => h.wf && f.wf
  | .bfi h f => h.wf && f.wf
  | .brev h f => h.wf && f.wf
  | .popc h f => h.wf && f.wf
  | .clz h f => h.wf && f.wf
  | .ctz h f => h.wf && f.wf
  | .bytep h f => h.wf && f.wf
  | .isetp h f => h.wf && f.wf
  | .isel h f => h.wf && f.wf
  | .plop h f => h.wf && f.wf
  | .ptov h f => h.wf && f.wf
  | .vtop h f => h.wf && f.wf
  | .mov h f => h.wf && f.wf
  | .movi h _ => h.wf
  | .kget h f => h.wf && f.wf
  | .lea h f => h.wf && f.wf
  | .tagOp h f => h.wf && f.wf
  | .fadd h f => h.wf && f.wf
  | .fsub h f => h.wf && f.wf
  | .fmul h f => h.wf && f.wf
  | .ffma h f => h.wf && f.wf
  | .fmin h f => h.wf && f.wf
  | .fmax h f => h.wf && f.wf
  | .fminn h f => h.wf && f.wf
  | .fmaxn h f => h.wf && f.wf
  | .fabs h f => h.wf && f.wf
  | .fneg h f => h.wf && f.wf
  | .fsgn h f => h.wf && f.wf
  | .fsetp h f => h.wf && f.wf
  | .fclass h f => h.wf && f.wf
  | .frcp h f => h.wf && f.wf
  | .frsq h f => h.wf && f.wf
  | .fsqrt h f => h.wf && f.wf
  | .fdiv h f => h.wf && f.wf
  | .fexp2 h f => h.wf && f.wf
  | .flog2 h f => h.wf && f.wf
  | .fsin h f => h.wf && f.wf
  | .fcos h f => h.wf && f.wf
  | .ftanh h f => h.wf && f.wf
  | .frnd h f => h.wf && f.wf
  | .ffrc h f => h.wf && f.wf
  | .fscale h f => h.wf && f.wf
  | .fgetx h f => h.wf && f.wf
  | .hadd2 h f => h.wf && f.wf
  | .hmul2 h f => h.wf && f.wf
  | .hfma2 h f => h.wf && f.wf
  | .hmin2 h f => h.wf && f.wf
  | .hmax2 h f => h.wf && f.wf
  | .cvt h _ => h.wf
  | .cvti h _ => h.wf
  | .cvtf h _ => h.wf
  | .pack h _ => h.wf
  | .unpk h _ => h.wf
  | .pk6 h _ => h.wf
  | .upk6 h _ => h.wf
  | .dot2 h f => h.wf && f.wf
  | .dot4 h f => h.wf && f.wf
  | .dot8 h f => h.wf && f.wf
  | .dott h f => h.wf && f.wf
  | .rdfl h f => h.wf && f.wf
  | .clfl h f => h.wf && f.wf
  | .shfl h f => h.wf && f.wf
  | .perm h f => h.wf && f.wf
  | .votea h f => h.wf && f.wf
  | .voten h f => h.wf && f.wf
  | .ballot h f => h.wf && f.wf
  | .matchOp h f => h.wf && f.wf
  | .elect h f => h.wf && f.wf
  | .part h f => h.wf && f.wf
  | .gmask h f => h.wf && f.wf
  | .amask h f => h.wf && f.wf
  | .gred h _ => h.wf
  | .gscan h _ => h.wf
  | .gbcast h f => h.wf && f.wf
  | .gsort h _ => h.wf
  | .tred h _ => h.wf
  | .tscan h _ => h.wf
  | .ld h f => h.wf && f.wf
  | .st h f => h.wf && f.wf
  | .lds h f => h.wf && f.wf
  | .sts h f => h.wf && f.wf
  | .ldc h f => h.wf && f.wf
  | .prf h f => h.wf && f.wf
  | .atom h _ => h.wf
  | .red h _ => h.wf
  | .atoms h _ => h.wf
  | .reds h _ => h.wf
  | .txb h f => h.wf && f.wf
  | .txe h f => h.wf && f.wf
  | .txa h f => h.wf && f.wf
  | .txst h f => h.wf && f.wf
  | .fence h f => h.wf && f.wf
  | .ofence h f => h.wf && f.wf
  | .cpy h _ => h.wf
  | .tagwa h f => h.wf && f.wf
  | .tagwn h f => h.wf && f.wf
  | .tagff h f => h.wf && f.wf
  | .wrq h _ => h.wf
  | .smap h f => h.wf && f.wf
  | .sdrop h f => h.wf && f.wf
  | .spub h f => h.wf && f.wf
  | .cctl h f => h.wf && f.wf
  | .tiercp h _ => h.wf
  | .qbind h _ => h.wf
  | .qfree h _ => h.wf
  | .qpush h f => h.wf && f.wf
  | .qpop h f => h.wf && f.wf
  | .qpeek h f => h.wf && f.wf
  | .qstat h f => h.wf && f.wf
  | .qres h _ => h.wf
  | .qpub h _ => h.wf
  | .qwait h f => h.wf && f.wf
  | .ldq h f => h.wf && f.wf
  | .stq h f => h.wf && f.wf
  | .rrdq h _ => h.wf
  | .subs h _ => h.wf
  | .drainq h _ => h.wf
  | .lcbr h _ => h.wf
  | .qflush h _ => h.wf
  | .mma h _ => h.wf
  | .mmat h _ => h.wf
  | .mmas h _ => h.wf
  | .tdef h _ => h.wf
  | .tdrop h _ => h.wf
  | .mvs h _ => h.wf
  | .svs h _ => h.wf
  | .coll h _ => h.wf
  | .gbar h _ => h.wf
  | .hwait h f => h.wf && f.wf
  | .htest h f => h.wf && f.wf
  | .hcan h f => h.wf && f.wf
  | .hpass h f => h.wf && f.wf
  | .htake h f => h.wf && f.wf
  | .cntsel h f => h.wf && f.wf
  | .cntrd h f => h.wf && f.wf
  | .cntsnap h f => h.wf && f.wf
  | .rcinc h f => h.wf && f.wf
  | .rcsnap h _ => h.wf
  | .wpset h f => h.wf && f.wf
  | .bpset h _ => h.wf
  | .dmbox h f => h.wf && f.wf
  | .dstep h f => h.wf && f.wf
  | .unassignedOpcode _ => true
  | .trapEntry _ => true
  | .classTResultWrite _ _ => true
  | .loadDataReturn _ _ => true
  | .ldqSlotFill _ _ => true
  | .copyPiece _ => true
  | .copyComplete _ => true
  | .tiercpPage _ => true
  | .matrixOpFire _ => true
  | .matrixGroup _ => true
  | .matrixOpComplete _ => true
  | .mvsFire _ => true
  | .stackEngineOutputRun _ => true
  | .subsTilePush _ => true
  | .drainqElementWrite _ => true
  | .rrdqElementArrival _ _ => true
  | .collInstanceComplete _ => true
  | .gbarComplete _ => true
  | .tredInstanceDelivery _ _ => true
  | .handleWaitPark _ => true
  | .waitfTimeout _ => true
  | .sleepExpiry _ => true
  | .holdtTimeReached _ => true
  | .loopCountPoll _ => true
  | .podSwap _ => true
  | .podPromotion _ => true
  | .spinDemotionEnd _ => true
  | .queueDeadlock _ => true
  | .podExit _ => true
  | .phaseEnd _ => true
  | .placementTimeout _ => true
  | .shadowComparison _ => true
  | .teamExit _ => true
  | .gridRetirement grid => decide (grid < 2 ^ 32)
  | .packetTake q => decide (q < 16384)
  | .teamPlacement _ core => decide (core < 2048)
  | .startTimeReached _ => true
  | .fetchwMailboxFill _ => true
  | .savePreemption _ => true
  | .contextRecordWrite _ => true
  | .phaseAbort _ => true
  | .clusterTokenPass c => decide (c < 64)
  | .escalationNotify => true
  | .peerRefusalArrival _ _ => true
  | .peerAcknowledgement core _ => decide (core < 2048)
  | .mcIssueHold _ => true
  | .queueMappingQuantum => true
  | .contextRestore _ core => decide (core < 2048)
  | .pageWalk _ _ _ => true
  | .l2Eviction _ => true
  | .memoryScrub _ => true
  | .dieTokenPass => true
  | .wqEnable => true
  | .wqDisable => true
  | .saveTeam => true
  | .abortTeam => true
  | .resumeContext => true
  | .discardContext => true
  | .wqcmdReserved _ => true
  | .doorbellWrite q _ => decide (q < 16384)
  | .acornstTermClear => true
  | .xlinvPage _ _ => true
  | .xlinvAsn _ => true
  | .xlinvAll => true
  | .xlinvReserved => true
  | .xlinvComplete => true
  | .capmWrite _ core dword _ => decide (core < 2048) && decide (dword < 4)
  | .accessTableWrite _ _ _ => true
  | .accessTableUpdateDone => true
  | .esctailWrite _ => true
  | .dbgoutPop => true
  | .mcMailboxRequest _ _ => true
  | .registerWrite _ _ _ _ => true
  | .huskToH1 => true
  | .huskToH0 => true
  | .huskH0ToH1 => true
  | .huskToH2 => true
  | .huskToH3 => true
  | .huskReset => true
  | .huskPowerApplied => true
  | .huskPowerLost => true
  | .packageReset => true
  | .firmwareVerify _ _ => true
  | .attestationRequest _ => true
  | .diePowerOn => true
  | .computeDieReset => true
  | .dieResetRelease => true
  | .diePowerOff => true
  | .agentHeartbeat c => decide (c < 64)
  | .watchdogExpiry => true
  | .dieHoldExpiry => true
  | .winnowEnqueue core q _ => decide (core < 2048) && decide (q < 16384)
  | .winnowPlacementTimeout core grid => decide (core < 2048) && decide (grid < 2 ^ 32)
  | .winnowResultProcess core _ => decide (core < 2048)
  | .timeBaseSync _ => true
  | .flitReceive port _ => decide (port < 16)
  | .starvationGrant port _ => decide (port < 16)
  | .linkRetryLimit port => decide (port < 16)
  | .linkNoProgressTimeout port => decide (port < 16)
  | .linkTrainingComplete port => decide (port < 16)
  | .lstateBroadcastReceive src _ => decide (src < 16)
  | .uePortsUp => true
  | .messageArrival _ => true
  | .detourRelay _ => true
  | .bouncedMessageReturn _ => true
  | .responseArrival _ => true
  | .e2eResendTimeout _ _ => true
  | .uePacketReceive _ => true
  | .writeReachesHome _ _ => true
  | .hostComplexAccess _ _ _ => true
  | .flitSlotGrant port _ => decide (port < 16)
  | .counterMmioClear _ => true

/-- Whether a constructor is an event: a step that has no encoding. -/
def Instr.isEvent : Instr → Bool
  | .nop _ _ => false
  | .bra _ _ => false
  | .brx _ _ => false
  | .call _ _ => false
  | .callx _ _ => false
  | .ret _ _ => false
  | .exitT _ _ => false
  | .loop _ _ => false
  | .loopc _ _ => false
  | .leave _ _ => false
  | .phase _ _ => false
  | .sync _ _ => false
  | .waitf _ _ => false
  | .yield _ _ => false
  | .sleep _ _ => false
  | .holdt _ _ => false
  | .trap _ _ => false
  | .brk _ _ => false
  | .rtt _ _ => false
  | .clrc _ _ => false
  | .setc _ _ => false
  | .rdsr _ _ => false
  | .wrsr _ _ => false
  | .launch _ _ => false
  | .waitch _ _ => false
  | .fetchw _ _ => false
  | .time _ _ => false
  | .icinv _ _ => false
  | .prio _ _ => false
  | .halt _ _ => false
  | .resume _ _ => false
  | .abortp _ _ => false
  | .acorn _ _ => false
  | .iadd _ _ => false
  | .isub _ _ => false
  | .iaddc _ _ => false
  | .isubb _ _ => false
  | .imul _ _ => false
  | .imulh _ _ => false
  | .imad _ _ => false
  | .idiv _ _ => false
  | .irem _ _ => false
  | .ineg _ _ => false
  | .iabs _ _ => false
  | .imin _ _ => false
  | .imax _ _ => false
  | .iclamp _ _ => false
  | .isad _ _ => false
  | .shl _ _ => false
  | .shr _ _ => false
  | .shra _ _ => false
  | .rotl _ _ => false
  | .shfd _ _ => false
  | .andB _ _ => false
  | .orB _ _ => false
  | .xorB _ _ => false
  | .andn _ _ => false
  | .notB _ _ => false
  | .lop3 _ _ => false
  | .bfe _ _ => false
  | .bfi _ _ => false
  | .brev _ _ => false
  | .popc _ _ => false
  | .clz _ _ => false
  | .ctz _ _ => false
  | .bytep _ _ => false
  | .isetp _ _ => false
  | .isel _ _ => false
  | .plop _ _ => false
  | .ptov _ _ => false
  | .vtop _ _ => false
  | .mov _ _ => false
  | .movi _ _ => false
  | .kget _ _ => false
  | .lea _ _ => false
  | .tagOp _ _ => false
  | .fadd _ _ => false
  | .fsub _ _ => false
  | .fmul _ _ => false
  | .ffma _ _ => false
  | .fmin _ _ => false
  | .fmax _ _ => false
  | .fminn _ _ => false
  | .fmaxn _ _ => false
  | .fabs _ _ => false
  | .fneg _ _ => false
  | .fsgn _ _ => false
  | .fsetp _ _ => false
  | .fclass _ _ => false
  | .frcp _ _ => false
  | .frsq _ _ => false
  | .fsqrt _ _ => false
  | .fdiv _ _ => false
  | .fexp2 _ _ => false
  | .flog2 _ _ => false
  | .fsin _ _ => false
  | .fcos _ _ => false
  | .ftanh _ _ => false
  | .frnd _ _ => false
  | .ffrc _ _ => false
  | .fscale _ _ => false
  | .fgetx _ _ => false
  | .hadd2 _ _ => false
  | .hmul2 _ _ => false
  | .hfma2 _ _ => false
  | .hmin2 _ _ => false
  | .hmax2 _ _ => false
  | .cvt _ _ => false
  | .cvti _ _ => false
  | .cvtf _ _ => false
  | .pack _ _ => false
  | .unpk _ _ => false
  | .pk6 _ _ => false
  | .upk6 _ _ => false
  | .dot2 _ _ => false
  | .dot4 _ _ => false
  | .dot8 _ _ => false
  | .dott _ _ => false
  | .rdfl _ _ => false
  | .clfl _ _ => false
  | .shfl _ _ => false
  | .perm _ _ => false
  | .votea _ _ => false
  | .voten _ _ => false
  | .ballot _ _ => false
  | .matchOp _ _ => false
  | .elect _ _ => false
  | .part _ _ => false
  | .gmask _ _ => false
  | .amask _ _ => false
  | .gred _ _ => false
  | .gscan _ _ => false
  | .gbcast _ _ => false
  | .gsort _ _ => false
  | .tred _ _ => false
  | .tscan _ _ => false
  | .ld _ _ => false
  | .st _ _ => false
  | .lds _ _ => false
  | .sts _ _ => false
  | .ldc _ _ => false
  | .prf _ _ => false
  | .atom _ _ => false
  | .red _ _ => false
  | .atoms _ _ => false
  | .reds _ _ => false
  | .txb _ _ => false
  | .txe _ _ => false
  | .txa _ _ => false
  | .txst _ _ => false
  | .fence _ _ => false
  | .ofence _ _ => false
  | .cpy _ _ => false
  | .tagwa _ _ => false
  | .tagwn _ _ => false
  | .tagff _ _ => false
  | .wrq _ _ => false
  | .smap _ _ => false
  | .sdrop _ _ => false
  | .spub _ _ => false
  | .cctl _ _ => false
  | .tiercp _ _ => false
  | .qbind _ _ => false
  | .qfree _ _ => false
  | .qpush _ _ => false
  | .qpop _ _ => false
  | .qpeek _ _ => false
  | .qstat _ _ => false
  | .qres _ _ => false
  | .qpub _ _ => false
  | .qwait _ _ => false
  | .ldq _ _ => false
  | .stq _ _ => false
  | .rrdq _ _ => false
  | .subs _ _ => false
  | .drainq _ _ => false
  | .lcbr _ _ => false
  | .qflush _ _ => false
  | .mma _ _ => false
  | .mmat _ _ => false
  | .mmas _ _ => false
  | .tdef _ _ => false
  | .tdrop _ _ => false
  | .mvs _ _ => false
  | .svs _ _ => false
  | .coll _ _ => false
  | .gbar _ _ => false
  | .hwait _ _ => false
  | .htest _ _ => false
  | .hcan _ _ => false
  | .hpass _ _ => false
  | .htake _ _ => false
  | .cntsel _ _ => false
  | .cntrd _ _ => false
  | .cntsnap _ _ => false
  | .rcinc _ _ => false
  | .rcsnap _ _ => false
  | .wpset _ _ => false
  | .bpset _ _ => false
  | .dmbox _ _ => false
  | .dstep _ _ => false
  | .unassignedOpcode _ => true
  | .trapEntry _ => true
  | .classTResultWrite _ _ => true
  | .loadDataReturn _ _ => true
  | .ldqSlotFill _ _ => true
  | .copyPiece _ => true
  | .copyComplete _ => true
  | .tiercpPage _ => true
  | .matrixOpFire _ => true
  | .matrixGroup _ => true
  | .matrixOpComplete _ => true
  | .mvsFire _ => true
  | .stackEngineOutputRun _ => true
  | .subsTilePush _ => true
  | .drainqElementWrite _ => true
  | .rrdqElementArrival _ _ => true
  | .collInstanceComplete _ => true
  | .gbarComplete _ => true
  | .tredInstanceDelivery _ _ => true
  | .handleWaitPark _ => true
  | .waitfTimeout _ => true
  | .sleepExpiry _ => true
  | .holdtTimeReached _ => true
  | .loopCountPoll _ => true
  | .podSwap _ => true
  | .podPromotion _ => true
  | .spinDemotionEnd _ => true
  | .queueDeadlock _ => true
  | .podExit _ => true
  | .phaseEnd _ => true
  | .placementTimeout _ => true
  | .shadowComparison _ => true
  | .teamExit _ => true
  | .gridRetirement _ => true
  | .packetTake _ => true
  | .teamPlacement _ _ => true
  | .startTimeReached _ => true
  | .fetchwMailboxFill _ => true
  | .savePreemption _ => true
  | .contextRecordWrite _ => true
  | .phaseAbort _ => true
  | .clusterTokenPass _ => true
  | .escalationNotify => true
  | .peerRefusalArrival _ _ => true
  | .peerAcknowledgement _ _ => true
  | .mcIssueHold _ => true
  | .queueMappingQuantum => true
  | .contextRestore _ _ => true
  | .pageWalk _ _ _ => true
  | .l2Eviction _ => true
  | .memoryScrub _ => true
  | .dieTokenPass => true
  | .wqEnable => true
  | .wqDisable => true
  | .saveTeam => true
  | .abortTeam => true
  | .resumeContext => true
  | .discardContext => true
  | .wqcmdReserved _ => true
  | .doorbellWrite _ _ => true
  | .acornstTermClear => true
  | .xlinvPage _ _ => true
  | .xlinvAsn _ => true
  | .xlinvAll => true
  | .xlinvReserved => true
  | .xlinvComplete => true
  | .capmWrite _ _ _ _ => true
  | .accessTableWrite _ _ _ => true
  | .accessTableUpdateDone => true
  | .esctailWrite _ => true
  | .dbgoutPop => true
  | .mcMailboxRequest _ _ => true
  | .registerWrite _ _ _ _ => true
  | .huskToH1 => true
  | .huskToH0 => true
  | .huskH0ToH1 => true
  | .huskToH2 => true
  | .huskToH3 => true
  | .huskReset => true
  | .huskPowerApplied => true
  | .huskPowerLost => true
  | .packageReset => true
  | .firmwareVerify _ _ => true
  | .attestationRequest _ => true
  | .diePowerOn => true
  | .computeDieReset => true
  | .dieResetRelease => true
  | .diePowerOff => true
  | .agentHeartbeat _ => true
  | .watchdogExpiry => true
  | .dieHoldExpiry => true
  | .winnowEnqueue _ _ _ => true
  | .winnowPlacementTimeout _ _ => true
  | .winnowResultProcess _ _ => true
  | .timeBaseSync _ => true
  | .flitReceive _ _ => true
  | .starvationGrant _ _ => true
  | .linkRetryLimit _ => true
  | .linkNoProgressTimeout _ => true
  | .linkTrainingComplete _ => true
  | .lstateBroadcastReceive _ _ => true
  | .uePortsUp => true
  | .messageArrival _ => true
  | .detourRelay _ => true
  | .bouncedMessageReturn _ => true
  | .responseArrival _ => true
  | .e2eResendTimeout _ _ => true
  | .uePacketReceive _ => true
  | .writeReachesHome _ _ => true
  | .hostComplexAccess _ _ _ => true
  | .flitSlotGrant _ _ => true
  | .counterMmioClear _ => true

end Sys2Proof
end

