-- ==== Sys2Proof/Decode.lean ====
section
/-! DEFINITION. Decoding (R60 to R101, R475 to R478) and encoding of instruction words. Total on any 96 bits: a word that is
no instruction is refused by name. -/
namespace Sys2Proof

/-- Why a word is no instruction. Each raises ILLEGAL_OP at the pod (R84, R475). -/
inductive DecodeError
  /-- The opcode map does not assign the opcode (R84). -/
  | unassigned
  /-- seta or setb holds 12 to 14 (R64, R84). -/
  | reservedHint
  /-- A rule of the form is broken: modifier, form flag, scope, atom, size (R67, R69, R73, R83). -/
  | reservedForm
  /-- A field of the opcode holds a reserved value or a non-zero must-be-zero bit (R84). -/
  | reservedField
  /-- A legacy word with no mapping (R475). -/
  | noMapping
deriving DecidableEq, Repr

/-! ## Fields of a word -/


/-- Opcode (R64). -/
def IWord.op (w : IWord) : BitVec 10 := w.extractLsb' 86 10

/-- Guard and hints (R64). -/
def IWord.head (w : IWord) : Head where
  neg  := w.getLsbD 85
  pred := w.extractLsb' 81 4
  wait := w.extractLsb' 8 12
  seta := w.extractLsb' 4 4
  setb := w.extractLsb' 0 4

/-- Form R (R68). -/
def IWord.formR (w : IWord) : FormR where
  dst   := w.extractLsb' 71 10
  a     := w.extractLsb' 61 10
  b     := w.extractLsb' 51 10
  c     := w.extractLsb' 41 10
  smod  := w.extractLsb' 29 12
  mtgt  := w.extractLsb' 27 2
  flags := w.extractLsb' 20 7

/-- Form I (R71). -/
def IWord.formI (w : IWord) : FormI where
  dst    := w.extractLsb' 71 10
  a      := w.extractLsb' 61 10
  imm    := w.extractLsb' 29 32
  interp := w.extractLsb' 27 2
  flags  := w.extractLsb' 20 7

/-- The form that flag [26] selects (R67). -/
def IWord.formRI (w : IWord) : FormRI := if w.getLsbD 26 then .i (IWord.formI w) else .r (IWord.formR w)

/-- Form M (R73). -/
def IWord.formM (w : IWord) : FormM where
  data   := w.extractLsb' 71 10
  base   := w.extractLsb' 61 10
  index  := w.extractLsb' 51 10
  offset := w.extractLsb' 37 14
  scope  := w.extractLsb' 34 3
  order  := w.extractLsb' 32 2
  atom   := w.extractLsb' 30 2
  size   := w.extractLsb' 27 3
  hint   := w.extractLsb' 25 2
  nf     := w.getLsbD 24
  typed  := w.getLsbD 23
  rsv    := w.extractLsb' 20 3

/-- Form Q (R76). -/
def IWord.formQ (w : IWord) : FormQ where
  dst   := w.extractLsb' 71 10
  a     := w.extractLsb' 61 10
  b     := w.extractLsb' 51 10
  c     := w.extractLsb' 41 10
  desc  := w.extractLsb' 29 12
  flags := w.extractLsb' 20 9

/-- Form B (R77). -/
def IWord.formB (w : IWord) : FormB where
  link  := w.extractLsb' 71 10
  a     := w.extractLsb' 61 10
  boff  := w.extractLsb' 29 32
  flags := w.extractLsb' 20 9

/-! ## Assembling a word -/

/-- Places the opcode, the guard and the hints around the 61 bits of a form (R64). -/
def encWord (op : BitVec 10) (h : Head) (body : BitVec 61) : IWord :=
  op ++ BitVec.ofBool h.neg ++ h.pred ++ body ++ h.wait ++ h.seta ++ h.setb

/-- A word of form R. -/
def encR (op : BitVec 10) (h : Head) (f : FormR) : IWord :=
  encWord op h (f.dst ++ f.a ++ f.b ++ f.c ++ f.smod ++ f.mtgt ++ f.flags)

/-- A word of form I. -/
def encI (op : BitVec 10) (h : Head) (f : FormI) : IWord :=
  encWord op h (f.dst ++ f.a ++ f.imm ++ f.interp ++ f.flags)

/-- A word of an R/I opcode. -/
def encRI (op : BitVec 10) (h : Head) : FormRI → IWord
  | .r f => encR op h f
  | .i f => encI op h f

/-- A word of form M. -/
def encM (op : BitVec 10) (h : Head) (f : FormM) : IWord :=
  encWord op h (f.data ++ f.base ++ f.index ++ f.offset ++ f.scope ++ f.order ++ f.atom ++ f.size ++ f.hint ++
    BitVec.ofBool f.nf ++ BitVec.ofBool f.typed ++ f.rsv)

/-- A word of form Q. -/
def encQ (op : BitVec 10) (h : Head) (f : FormQ) : IWord :=
  encWord op h (f.dst ++ f.a ++ f.b ++ f.c ++ f.desc ++ f.flags)

/-- A word of form B. -/
def encB (op : BitVec 10) (h : Head) (f : FormB) : IWord :=
  encWord op h (f.link ++ f.a ++ f.boff ++ f.flags)

/-! ## Reserved values of the opcodes -/

/-- Whether an operand code names a k register (R78). -/
def codeIsK (c : Code) : Bool := 640 ≤ c.toNat && c.toNat < 704

/-- Unused fields of form R are 0 and flags lie inside the mask (R69). -/
def FormR.uses (f : FormR) (d a b c : Bool) (m : BitVec 7) : Bool :=
  (d || f.dst == 0) && (a || f.a == 0) && (b || f.b == 0) && (c || f.c == 0) && f.flags &&& ~~~m == 0

/-- Unused fields of form I are 0, flags lie inside the mask, the interpretation is permitted (R69, R71). -/
def FormI.uses (f : FormI) (d a : Bool) (m : BitVec 7) (interps : List (BitVec 2)) : Bool :=
  (d || f.dst == 0) && (a || f.a == 0) && f.flags &&& ~~~m == 0 && interps.contains f.interp

/-- The same for an R/I opcode; the immediate stands in place of B (R71). -/
def FormRI.uses (f : FormRI) (d a b c : Bool) (m : BitVec 7) (interps : List (BitVec 2)) : Bool :=
  match f with
  | .r f => f.uses d a b c m
  | .i f => f.uses d a (m ||| 0x40) interps

/-- Unused fields of form Q are 0, descriptor and flags lie inside their masks (R69, R76). -/
def FormQ.uses (f : FormQ) (d a b c : Bool) (dm : BitVec 12) (fm : BitVec 9) : Bool :=
  (d || f.dst == 0) && (a || f.a == 0) && (b || f.b == 0) && (c || f.c == 0) && f.desc &&& ~~~dm == 0 &&
    f.flags &&& ~~~fm == 0

/-- Unused fields of form B are 0 and flags lie inside the mask (R69, R77). -/
def FormB.uses (f : FormB) (l a o : Bool) (m : BitVec 9) : Bool :=
  (l || f.link == 0) && (a || f.a == 0) && (o || f.boff == 0) && f.flags &&& ~~~m == 0

/-- The seven form flags of an R/I instruction (R68). -/
def FormRI.flags : FormRI → BitVec 7
  | .r f => f.flags
  | .i f => f.flags

/-- Flags [25:23], the type field of groups B (R70), and the segment field of SHFL (R211). -/
def FormR.ty (f : FormR) : BitVec 3 := f.flags.extractLsb' 3 3
/-- Flags [25:23] of form I. -/
def FormI.ty (f : FormI) : BitVec 3 := f.flags.extractLsb' 3 3
/-- Flags [25:23] of an R/I instruction. -/
def FormRI.ty (f : FormRI) : BitVec 3 := f.flags.extractLsb' 3 3
/-- Flags [22:20]. -/
def FormR.low (f : FormR) : BitVec 3 := f.flags.extractLsb' 0 3
/-- Flags [22:20] of an R/I instruction. -/
def FormRI.low (f : FormRI) : BitVec 3 := f.flags.extractLsb' 0 3
/-- Rounding [24:22] is no reserved code (R135, R177). -/
def FormR.rndOk (f : FormR) : Bool := (f.flags.extractLsb' 2 3).toNat < 6
/-- Saturation [21:20] is no reserved code (R135, R177). -/
def FormR.satOk (f : FormR) : Bool := f.flags.extractLsb' 0 2 != 3
/-- Rounding of an R/I instruction is no reserved code. -/
def FormRI.rndOk (f : FormRI) : Bool := (f.flags.extractLsb' 2 3).toNat < 6
/-- Saturation of an R/I instruction is no reserved code. -/
def FormRI.satOk (f : FormRI) : Bool := f.flags.extractLsb' 0 2 != 3
/-- Interpretations of a group B immediate that stands for a typed operand: 0b11 for 64 bits only (R71, R155). -/
def FormRI.intImm (f : FormRI) : List (BitVec 2) := if f.ty == 2 || f.ty == 3 then [0, 1, 3] else [0, 1]
/-- The same for MOVI (R172). -/
def FormI.intImm (f : FormI) : List (BitVec 2) := if f.ty == 2 || f.ty == 3 then [0, 1, 3] else [0, 1]
/-- Interpretations of the immediate of a bitwise instruction: 0b11 for .b64 only (R71, R155). -/
def FormRI.wideImm (f : FormRI) : List (BitVec 2) := if f.low == 1 then [0, 1, 3] else [0, 1]
/-- Interpretations of a float immediate: 0b11 for .f64 only (R179). -/
def FormRI.fltImm (f : FormRI) : List (BitVec 2) := if f.flags.getLsbD 5 then [0, 1, 2, 3] else [0, 1, 2]
/-- In form I the immediate gives the index of LEA its sign, and [22] is zero (R174). -/
def FormRI.leaLow : FormRI → Bool
  | .r _ => true
  | .i f => !f.flags.getLsbD 2
/-- CLFL: the mask stands in A in form R, where B is 0, and in the immediate in form I, where A is 0 (R205). -/
def FormRI.clflOk : FormRI → Bool
  | .r f => f.b == 0
  | .i f => f.a == 0
/-- Layout DT: rounding [22:20] and saturation [24:23] are no reserved codes (R177). -/
def FormR.dotRndOk (f : FormR) : Bool := f.low.toNat < 6 && f.flags.extractLsb' 3 2 != 3
/-- Layout DT: the family field [26:25] (R202). -/
def FormR.fam (f : FormR) : BitVec 2 := f.flags.extractLsb' 5 2
/-- Base and index of a form-M word hold the zero code (R344). -/
def FormM.noAddr (f : FormM) : Bool := f.base == 1023 && f.index == 1023

/-! ### Conversions (R177, R178, R193, R200) -/

/-- Destination tag of a conversion, desc [40:36] (R192). -/
def FormQ.dtag (f : FormQ) : Nat := (f.desc.extractLsb' 7 5).toNat
/-- Source tag of a conversion, desc [35:31] (R192). -/
def FormQ.stag (f : FormQ) : Nat := (f.desc.extractLsb' 2 5).toNat
/-- Sub-code of a conversion, desc [30:29] (R192). -/
def FormQ.sub (f : FormQ) : Nat := (f.desc.extractLsb' 0 2).toNat
/-- Rounding field [28:26] of layout CQ and of the reductions. -/
def FormQ.rnd (f : FormQ) : Nat := (f.flags.extractLsb' 6 3).toNat
/-- Saturation field [25:24] of layout CQ and of the reductions. -/
def FormQ.sat (f : FormQ) : Nat := (f.flags.extractLsb' 4 2).toNat
/-- `.ftz` [23] of layout CQ. -/
def FormQ.ftz (f : FormQ) : Bool := f.flags.getLsbD 3
/-- `.scl` [22] of layout CQ. -/
def FormQ.scl (f : FormQ) : Bool := f.flags.getLsbD 2
/-- `.o6` [21] of layout CQ. -/
def FormQ.o6 (f : FormQ) : Bool := f.flags.getLsbD 1
/-- Rounding and saturation are no reserved codes, and B is 0 without .scl (R177, R192). -/
def FormQ.cvtOk (f : FormQ) : Bool := f.rnd < 6 && f.sat < 3 && (f.scl || f.b == 0)

/-- The float and logarithmic tags F of R193. -/
def cvtF : List Nat := [3, 4, 7, 8, 9, 10, 11, 14, 20, 21]
/-- The integer tags I of R193. -/
def cvtI : List Nat := [1, 2, 5, 6, 12, 13, 15, 16, 19]

/-- CVT: tag pairs of R193, or the OCP layout of R200 with .o6. -/
def cvtLegal (f : FormQ) : Bool :=
  if f.o6 then
    f.sub < 2 && (f.dtag == 8 && f.stag == 0 && f.rnd == 0 && f.sat == 0 && !f.scl && !f.ftz || f.dtag == 0 && f.stag == 8)
  else f.sub == 0 && cvtF.contains f.stag && cvtF.contains f.dtag
/-- CVTI: tag pairs of R193. -/
def cvtiLegal (f : FormQ) : Bool :=
  !f.o6 && f.sub == 0 && cvtF.contains f.stag && f.stag != 21 && cvtI.contains f.dtag
/-- CVTF: tag pairs of R193. -/
def cvtfLegal (f : FormQ) : Bool :=
  !f.o6 && f.sub == 0 && cvtI.contains f.stag && cvtF.contains f.dtag && f.dtag != 21
/-- PACK: only saturation may be non-zero (R178); tag pairs of R193. -/
def packLegal (f : FormQ) : Bool :=
  f.sub == 0 && f.rnd == 0 && !f.ftz && !f.scl && !f.o6 && (f.stag == 1 || f.stag == 2) &&
    [12, 13, 15, 16, 19, 0].contains f.dtag
/-- UNPK: every flag zero (R178); tag pairs of R193 and R198. -/
def unpkLegal (f : FormQ) : Bool :=
  f.sub == 0 && f.flags == 0 &&
    (([12, 15, 19].contains f.stag && f.dtag == 1) || ([13, 16, 0].contains f.stag && (f.dtag == 1 || f.dtag == 2)))
/-- PK6: .ftz and .o6 zero (R178); tag pairs of R193. -/
def pk6Legal (f : FormQ) : Bool :=
  f.sub == 0 && !f.ftz && !f.o6 && f.stag == 8 && (f.dtag == 17 || f.dtag == 18)
/-- UPK6: every flag zero (R178); tag pairs of R193. -/
def upk6Legal (f : FormQ) : Bool := f.sub == 0 && f.flags == 0 && f.dtag == 8 && (f.stag == 17 || f.stag == 18)

/-! ### Reductions, atomics, collectives (R225, R352, R427, R431) -/

/-- Operation of a group reduction, desc [40:38] (R225). -/
def FormQ.redOp (f : FormQ) : Nat := (f.desc.extractLsb' 9 3).toNat
/-- Type of a group reduction, desc [37:35] (R225). -/
def FormQ.redTy (f : FormQ) : Nat := (f.desc.extractLsb' 6 3).toNat
/-- The combinations of R225 that are not reserved. -/
def FormQ.redOk (f : FormQ) : Bool :=
  f.redOp < 6 && f.redTy < 6 && f.rnd < 6 && f.sat < 3 && (f.redTy < 4 || f.redOp < 3) &&
    (f.rnd == 0 || f.redOp == 0 && 4 ≤ f.redTy) && (f.sat == 0 || f.redOp == 0)
/-- Operation of an atomic, desc [40:37] (R352). -/
def FormQ.atomOp (f : FormQ) : Nat := (f.desc.extractLsb' 8 4).toNat
/-- Type of an atomic, desc [36:34] (R352). -/
def FormQ.atomTy (f : FormQ) : Nat := (f.desc.extractLsb' 5 3).toNat
/-- Scope of an atomic, desc [33:31] (R352). -/
def FormQ.atomScope (f : FormQ) : Nat := (f.desc.extractLsb' 2 3).toNat
/-- Order of an atomic, desc [30:29] (R352). -/
def FormQ.atomOrder (f : FormQ) : Nat := (f.desc.extractLsb' 0 2).toNat
/-- The operations, types and scopes of R352 that are not reserved. -/
def FormQ.atomOk (f : FormQ) : Bool :=
  f.atomOp < 9 && f.atomScope < 6 && (f.atomTy < 4 || f.atomOp < 3) && (f.atomOp != 8 || f.atomTy == 1 || f.atomTy == 3)
/-- Operation of COLL, desc [40:38] (R427). -/
def FormQ.collOp (f : FormQ) : Nat := (f.desc.extractLsb' 9 3).toNat
/-- Kind of COLL, desc [37:36] (R427). -/
def FormQ.collKind (f : FormQ) : Nat := (f.desc.extractLsb' 7 2).toNat
/-- Span of COLL and GBAR, desc [35:34] (R425). -/
def FormQ.span (f : FormQ) : Nat := (f.desc.extractLsb' 5 2).toNat
/-- Channel of COLL and GBAR, desc [33:30] (R425). -/
def FormQ.channel (f : FormQ) : Nat := (f.desc.extractLsb' 1 4).toNat
/-- Type of COLL, flags [27:24] (R427). -/
def FormQ.collTy (f : FormQ) : Nat := (f.flags.extractLsb' 4 4).toNat
/-- `.exact` of COLL, flag [28] (R427). -/
def FormQ.exact (f : FormQ) : Bool := f.flags.getLsbD 8
/-- `.sc` of COLL, flag [23] (R427). -/
def FormQ.collSc (f : FormQ) : Bool := f.flags.getLsbD 3
/-- The fields of R427 that are not reserved, and the combinations that R431 does not exclude. -/
def FormQ.collOk (f : FormQ) : Bool :=
  f.collOp < 3 && f.collKind < 3 && f.span < 3 && f.collTy < 14 &&
    !(f.exact && (1 ≤ f.collTy && f.collTy ≤ 5 || f.collOp != 0)) && !((8 ≤ f.collTy || f.collSc) && !f.exact) &&
    !(f.collKind == 2 && (f.collOp != 0 || f.exact)) && !(f.collSc && f.collTy < 8)


/-- Step 2 of R85 for one opcode: no reserved value, no must-be-zero bit, as the tables R149, R177, R178, R193, R211, R225,
R233, R344, R352, R386, R404, R431 and R512 give. An event has no encoding. -/
def Instr.legal : Instr → Bool
  | .nop _ f => f.uses false false false false 0
  | .bra _ f => f.uses false false true 0
  | .brx _ f => f.uses false true false 0
  | .call _ f => f.uses true false true 0
  | .callx _ f => f.uses true true false 0
  | .ret _ f => f.uses false true false 0
  | .exitT _ f => f.uses false false false false 0
  | .loop _ f => f.uses true true true 1 && 0 < f.boff.toInt && (if f.flags.getLsbD 0 then f.link == 0 else f.a == 0)
  | .loopc _ f => f.uses true true true 0 && 0 < f.boff.toInt
  | .leave _ f => f.uses false false false 0
  | .phase _ f => f.uses false false false false 0
  | .sync _ f => f.uses false false false false 0
  | .waitf _ f => f.uses true true true false 3 [1]
  | .yield _ f => f.uses false false false false 0
  | .sleep _ f => f.uses false false 0 [1]
  | .holdt _ f => f.uses false true 0 [0]
  | .trap _ f => f.uses false false 1 [1]
  | .brk _ f => f.uses false false 0 [1]
  | .rtt _ f => f.uses false false false false 1
  | .clrc _ f => f.uses false false true false 0 [0, 1, 3]
  | .setc _ f => f.uses false false true false 0 [0, 1, 3]
  | .rdsr _ f => f.uses true true false false 1
  | .wrsr _ f => f.uses true false true false 0 [0, 1]
  | .launch _ f => f.uses true true true false 0 1
  | .waitch _ f => f.uses true false false false 1
  | .fetchw _ f => f.uses false true false false 0
  | .time _ f => f.uses true false false false 1
  | .icinv _ f => f.data == 1023 && f.size == 0 && f.atom == 0 && f.hint == 0
  | .prio _ f => f.uses true false true false 0 [0, 1]
  | .halt _ f => f.uses true true true false 0
  | .resume _ f => f.uses true true true false 0
  | .abortp _ f => f.uses true true true false 0
  | .acorn _ f => f.uses true false true false 3 [1]
  | .iadd _ f => f.uses true true true false 0x39 f.intImm
  | .isub _ f => f.uses true true true false 0x39 f.intImm
  | .iaddc _ f => f.uses true true true false 0x3F f.intImm && (f.ty == 1 || f.ty == 3) && f.low != 0
  | .isubb _ f => f.uses true true true false 0x3F f.intImm && (f.ty == 1 || f.ty == 3) && f.low != 0
  | .imul _ f => f.uses true true true false 0x39 f.intImm
  | .imulh _ f => f.uses true true true false 0x38 f.intImm
  | .imad _ f => f.uses true true true true 0x39 f.intImm
  | .idiv _ f => f.uses true true true false 0x38 f.intImm
  | .irem _ f => f.uses true true true false 0x38 f.intImm
  | .ineg _ f => f.uses true true false false 0x39 && f.ty.toNat % 2 == 0
  | .iabs _ f => f.uses true true false false 0x39 && f.ty.toNat % 2 == 0
  | .imin _ f => f.uses true true true false 0x38 f.intImm
  | .imax _ f => f.uses true true true false 0x38 f.intImm
  | .iclamp _ f => f.uses true true true true 0x38 f.intImm
  | .isad _ f => f.uses true true true true 0x39 f.intImm
  | .shl _ f => f.uses true true true false 0x38 [0, 1] && f.ty.toNat < 4
  | .shr _ f => f.uses true true true false 0x38 [0, 1] && f.ty.toNat < 4
  | .shra _ f => f.uses true true true false 0x38 [0, 1] && f.ty.toNat < 4
  | .rotl _ f => f.uses true true true false 0x38 [0, 1] && f.ty.toNat < 4
  | .shfd _ f => f.uses true true true true 0x3C [0, 1] && f.ty.toNat < 4
  | .andB _ f => f.uses true true true false 1 f.wideImm
  | .orB _ f => f.uses true true true false 1 f.wideImm
  | .xorB _ f => f.uses true true true false 1 f.wideImm
  | .andn _ f => f.uses true true true false 1 f.wideImm
  | .notB _ f => f.uses true true false false 1
  | .lop3 _ f => f.uses true true true true 0x0FF 1
  | .bfe _ f => f.uses true true true false 0x38 [0, 1] && f.ty.toNat < 4
  | .bfi _ f => f.uses true true true true 0x38 [0, 1] && f.ty.toNat < 4
  | .brev _ f => f.uses true true false false 1
  | .popc _ f => f.uses true true false false 1
  | .clz _ f => f.uses true true false false 1
  | .ctz _ f => f.uses true true false false 1
  | .bytep _ f => f.uses true true true true 0 [0, 1]
  | .isetp _ f => f.uses true true true false 0x3F f.intImm && f.low.toNat < 6
  | .isel _ f => f.uses true true true true 1
  | .plop _ f => f.uses true true true false 7
  | .ptov _ f => f.uses true true false false 4
  | .vtop _ f => f.uses true true false false 4
  | .mov _ f => f.uses true true false false 3 && f.low.toNat < 3
  | .movi _ f => f.uses true false 0x3C f.intImm
  | .kget _ f => f.uses true true true false 5
  | .lea _ f => f.uses true true true false 7 [0, 1] && f.leaLow
  | .tagOp _ f => f.uses true true true false 0 [0, 1]
  | .fadd _ f => f.uses true true true false 0x3F f.fltImm && f.rndOk && f.satOk
  | .fsub _ f => f.uses true true true false 0x3F f.fltImm && f.rndOk && f.satOk
  | .fmul _ f => f.uses true true true false 0x3F f.fltImm && f.rndOk && f.satOk
  | .ffma _ f => f.uses true true true true 0x3F f.fltImm && f.rndOk && f.satOk
  | .fmin _ f => f.uses true true true false 0x20 f.fltImm
  | .fmax _ f => f.uses true true true false 0x20 f.fltImm
  | .fminn _ f => f.uses true true true false 0x20 f.fltImm
  | .fmaxn _ f => f.uses true true true false 0x20 f.fltImm
  | .fabs _ f => f.uses true true false false 0x20
  | .fneg _ f => f.uses true true false false 0x20
  | .fsgn _ f => f.uses true true true false 0x30
  | .fsetp _ f => f.uses true true true false 0x3E f.fltImm && (f.flags >>> 1 &&& 15).toNat < 14
  | .fclass _ f => f.uses true true false false 0x20
  | .frcp _ f => f.uses true true false false 0x63 && f.satOk
  | .frsq _ f => f.uses true true false false 0x63 && f.satOk
  | .fsqrt _ f => f.uses true true false false 0x7F && f.rndOk && f.satOk
  | .fdiv _ f => f.uses true true true false 0x3F f.fltImm && f.rndOk && f.satOk
  | .fexp2 _ f => f.uses true true false false 0x63 && f.satOk
  | .flog2 _ f => f.uses true true false false 0x63 && f.satOk
  | .fsin _ f => f.uses true true false false 0x63 && f.satOk
  | .fcos _ f => f.uses true true false false 0x63 && f.satOk
  | .ftanh _ f => f.uses true true false false 0x63 && f.satOk
  | .frnd _ f => f.uses true true false false 0x7C && f.rndOk
  | .ffrc _ f => f.uses true true false false 0x60
  | .fscale _ f => f.uses true true true false 0x3F [0, 1] && f.rndOk && f.satOk
  | .fgetx _ f => f.uses true true false false 0x60
  | .hadd2 _ f => f.uses true true true false 0x3F [0, 1, 2] && f.rndOk && f.satOk
  | .hmul2 _ f => f.uses true true true false 0x3F [0, 1, 2] && f.rndOk && f.satOk
  | .hfma2 _ f => f.uses true true true true 0x3F [0, 1, 2] && f.rndOk && f.satOk
  | .hmin2 _ f => f.uses true true true false 0x30 [0, 1, 2]
  | .hmax2 _ f => f.uses true true true false 0x30 [0, 1, 2]
  | .cvt _ f => f.uses true true true false 0xFFF 0x1FE && f.cvtOk && cvtLegal f
  | .cvti _ f => f.uses true true true false 0xFFF 0x1FE && f.cvtOk && cvtiLegal f
  | .cvtf _ f => f.uses true true true false 0xFFF 0x1FE && f.cvtOk && cvtfLegal f
  | .pack _ f => f.uses true true true false 0xFFF 0x1FE && f.cvtOk && packLegal f
  | .unpk _ f => f.uses true true true false 0xFFF 0x1FE && f.cvtOk && unpkLegal f
  | .pk6 _ f => f.uses true true true false 0xFFF 0x1FE && f.cvtOk && pk6Legal f
  | .upk6 _ f => f.uses true true true false 0xFFF 0x1FE && f.cvtOk && upk6Legal f
  | .dot2 _ f => f.uses true true true true 0x7F && f.dotRndOk
  | .dot4 _ f => f.uses true true true true 0x7F && f.dotRndOk && (f.fam != 1 || f.flags &&& 7 == 0)
  | .dot8 _ f => f.uses true true true true 0x7F && f.dotRndOk && (!f.flags.getLsbD 5 || f.flags.getLsbD 6 || f.flags &&& 7 == 0)
  | .dott _ f => f.uses true true true true 0x5F && f.dotRndOk && (f.flags.getLsbD 6 || f.flags &&& 7 == 0)
  | .rdfl _ f => f.uses true false false false 0
  | .clfl _ f => f.uses false true true false 0 [0, 1] && f.clflOk
  | .shfl _ f => f.uses true true true false 0x3F [0, 1] && f.ty != 0
  | .perm _ f => f.uses true true true false 1
  | .votea _ f => f.uses true true false true 0
  | .voten _ f => f.uses true true false true 0
  | .ballot _ f => f.uses true true false false 3
  | .matchOp _ f => f.uses true true false false 5
  | .elect _ f => f.uses true true false false 0
  | .part _ f => f.uses true true false false 1
  | .gmask _ f => f.uses true true true false 7 [0, 1] && f.low.toNat < 6
  | .amask _ f => f.uses true false false false 0
  | .gred _ f => f.uses true true true false 0xFC0 0x1F0 && f.redOk
  | .gscan _ f => f.uses true true true false 0xFE0 0x1F0 && f.redOk
  | .gbcast _ f => f.uses true true true true 1
  | .gsort _ f => f.uses true true true true 0xF00 0 && (f.desc >>> 9).toNat < 3
  | .tred _ f => f.uses true true false false 0xFC0 0x1F0 && f.redOk
  | .tscan _ f => f.uses true true false false 0xFE0 0x1F0 && f.redOk
  | .ld _ _ => true
  | .st _ _ => true
  | .lds _ f => f.atom == 0 && f.hint == 0
  | .sts _ f => f.atom == 0 && f.hint == 0
  | .ldc _ f => f.atom == 0
  | .prf _ f => f.data == 1023 && f.size == 0 && f.atom == 0 && f.hint != 3
  | .atom _ f => f.uses true true true true 0xFFF 0 && f.atomOk && (f.atomOp == 7 || f.c == 0)
  | .red _ f => f.uses false true true false 0xFFF 0 && f.atomOk && f.atomOp < 6
  | .atoms _ f => f.uses true true true true 0xFFF 0x100 && f.atomOk && (f.atomOp == 7 || f.c == 0)
  | .reds _ f => f.uses false true true false 0xFFF 0 && f.atomOk && f.atomOp < 6
  | .txb _ f => f.uses true false false false 0
  | .txe _ f => f.uses true false false false 0
  | .txa _ f => f.uses false true false false 0
  | .txst _ f => f.uses true false false false 0
  | .fence _ f => f.data == 1023 && f.noAddr && f.offset == 0 && f.size == 0 && f.atom == 0 && f.hint == 0
  | .ofence _ f => f.uses false false false false 0
  | .cpy _ f => f.uses false true true true 0xFF8 0x180 && (f.desc >>> 3 &&& 7).toNat < 6
  | .tagwa _ f => f.uses true false true false 0 [1, 3]
  | .tagwn _ f => f.uses true false true false 0 [1, 3]
  | .tagff _ f => f.uses true false true false 0
  | .wrq _ f => f.uses true true true true 0xFF0 0 && 0 < (f.desc >>> 4 &&& 7).toNat && (f.desc >>> 4 &&& 7).toNat < 6
  | .smap _ f => f.size == 0 && f.atom == 0 && f.hint == 0
  | .sdrop _ f => f.noAddr && f.offset == 0 && f.size == 0 && f.atom == 0 && f.hint.toNat < 2
  | .spub _ f => f.noAddr && f.size == 0 && f.atom == 0 && f.hint == 0
  | .cctl _ f => f.data == 1023 && f.size == 0 && f.atom == 0 && (f.hint != 3 || f.noAddr && f.offset == 0)
  | .tiercp _ f => f.uses true true true true 0xFFE 0 && (f.desc >>> 3 &&& 7).toNat < 6 && f.desc >>> 1 &&& 3 != 3
  | .qbind _ f => f.uses true false false false 0xF80 0
  | .qfree _ f => f.uses true false false false 0 0
  | .qpush _ f => f.uses true true true false 1
  | .qpop _ f => f.uses true true false true 1
  | .qpeek _ f => f.uses true true true true 1
  | .qstat _ f => f.uses true true false false 0xF && f.low.toNat < 6 && (!f.flags.getLsbD 3 || f.low == 2 && codeIsK f.dst)
  | .qres _ f => f.uses true true true false 0 0
  | .qpub _ f => f.uses false true true true 0 0
  | .qwait _ f => f.uses true true true false 2 [1]
  | .ldq _ _ => true
  | .stq _ _ => true
  | .rrdq _ f => f.uses true true true true 0xF80 0
  | .subs _ f => f.uses true true false false 0xF00 0
  | .drainq _ f => f.uses true true true false 0xF00 0
  | .lcbr _ f => f.uses true true true 0
  | .qflush _ f => f.uses false true false false 0 0
  | .mma _ f => f.uses true true true false 0xFFF 0x100 && f.desc &&& 3 != 3
  | .mmat _ f => f.uses true true true false 0xFFF 0x100 && f.desc &&& 3 != 3
  | .mmas _ f => f.uses true true true false 0xFFF 0x100 && f.desc &&& 3 != 3
  | .tdef _ f => f.uses false true false false 0xF80 0
  | .tdrop _ f => f.uses false false false false 0xF80 0
  | .mvs _ f => f.uses true true true false 0xF80 3 && (f.flags &&& 3).toNat < 2
  | .svs _ f => f.uses true false true false 0xF80 3 && (f.flags &&& 3).toNat < 2
  | .coll _ f => f.uses true true true true 0xFFE 0x1F8 && f.collOk
  | .gbar _ f => f.uses true false false false 0x07E 0 && f.desc >>> 5 &&& 3 != 3 && (f.desc >>> 5 &&& 3 != 0 || f.desc == 0)
  | .hwait _ f => f.uses false true false false 0
  | .htest _ f => f.uses true true false false 0
  | .hcan _ f => f.uses false true false false 0
  | .hpass _ f => f.uses false true true false 0
  | .htake _ f => f.uses true false true false 0
  | .cntsel _ f => f.uses false true true false 0 [1]
  | .cntrd _ f => f.uses true true false false 1
  | .cntsnap _ f => f.uses false false false false 0
  | .rcinc _ f => f.uses false true true false 0 [0, 1]
  | .rcsnap _ f => f.uses true true false false 0xC00 0
  | .wpset _ f => f.atom == 0 && f.scope == 0
  | .bpset _ f => f.uses true true true 7
  | .dmbox _ f => f.uses true false true false 0 [1]
  | .dstep _ f => f.uses true true true false 0
  | .unassignedOpcode _ => false
  | .trapEntry _ => false
  | .classTResultWrite _ _ => false
  | .loadDataReturn _ _ => false
  | .ldqSlotFill _ _ => false
  | .copyPiece _ => false
  | .copyComplete _ => false
  | .tiercpPage _ => false
  | .matrixOpFire _ => false
  | .matrixGroup _ => false
  | .matrixOpComplete _ => false
  | .mvsFire _ => false
  | .stackEngineOutputRun _ => false
  | .subsTilePush _ => false
  | .drainqElementWrite _ => false
  | .rrdqElementArrival _ _ => false
  | .collInstanceComplete _ => false
  | .gbarComplete _ => false
  | .tredInstanceDelivery _ _ => false
  | .handleWaitPark _ => false
  | .waitfTimeout _ => false
  | .sleepExpiry _ => false
  | .holdtTimeReached _ => false
  | .loopCountPoll _ => false
  | .podSwap _ => false
  | .podPromotion _ => false
  | .spinDemotionEnd _ => false
  | .queueDeadlock _ => false
  | .podExit _ => false
  | .phaseEnd _ => false
  | .placementTimeout _ => false
  | .shadowComparison _ => false
  | .teamExit _ => false
  | .gridRetirement _ => false
  | .packetTake _ => false
  | .teamPlacement _ _ => false
  | .startTimeReached _ => false
  | .fetchwMailboxFill _ => false
  | .savePreemption _ => false
  | .contextRecordWrite _ => false
  | .phaseAbort _ => false
  | .clusterTokenPass _ => false
  | .escalationNotify => false
  | .peerRefusalArrival _ _ => false
  | .peerAcknowledgement _ _ => false
  | .mcIssueHold _ => false
  | .queueMappingQuantum => false
  | .contextRestore _ _ => false
  | .pageWalk _ _ _ => false
  | .l2Eviction _ => false
  | .memoryScrub _ => false
  | .dieTokenPass => false
  | .wqEnable => false
  | .wqDisable => false
  | .saveTeam => false
  | .abortTeam => false
  | .resumeContext => false
  | .discardContext => false
  | .wqcmdReserved _ => false
  | .doorbellWrite _ _ => false
  | .acornstTermClear => false
  | .xlinvPage _ _ => false
  | .xlinvAsn _ => false
  | .xlinvAll => false
  | .xlinvReserved => false
  | .xlinvComplete => false
  | .capmWrite _ _ _ _ => false
  | .accessTableWrite _ _ _ => false
  | .accessTableUpdateDone => false
  | .esctailWrite _ => false
  | .dbgoutPop => false
  | .mcMailboxRequest _ _ => false
  | .registerWrite _ _ _ _ => false
  | .huskToH1 => false
  | .huskToH0 => false
  | .huskH0ToH1 => false
  | .huskToH2 => false
  | .huskToH3 => false
  | .huskReset => false
  | .huskPowerApplied => false
  | .huskPowerLost => false
  | .packageReset => false
  | .firmwareVerify _ _ => false
  | .attestationRequest _ => false
  | .diePowerOn => false
  | .computeDieReset => false
  | .dieResetRelease => false
  | .diePowerOff => false
  | .agentHeartbeat _ => false
  | .watchdogExpiry => false
  | .dieHoldExpiry => false
  | .winnowEnqueue _ _ _ => false
  | .winnowPlacementTimeout _ _ => false
  | .winnowResultProcess _ _ => false
  | .timeBaseSync _ => false
  | .flitReceive _ _ => false
  | .starvationGrant _ _ => false
  | .linkRetryLimit _ => false
  | .linkNoProgressTimeout _ => false
  | .linkTrainingComplete _ => false
  | .lstateBroadcastReceive _ _ => false
  | .uePortsUp => false
  | .messageArrival _ => false
  | .detourRelay _ => false
  | .bouncedMessageReturn _ => false
  | .responseArrival _ => false
  | .e2eResendTimeout _ _ => false
  | .uePacketReceive _ => false
  | .writeReachesHome _ _ => false
  | .hostComplexAccess _ _ _ => false
  | .flitSlotGrant _ _ => false
  | .counterMmioClear _ => false

/-- Group A of the opcode map (R99), the index counted from 0x0. -/
def decodeGroupA (w : IWord) (h : Head) : Nat → Option Instr
  | 0 => some (.nop h (w.formR))
  | 1 => some (.bra h (w.formB))
  | 2 => some (.brx h (w.formB))
  | 3 => some (.call h (w.formB))
  | 4 => some (.callx h (w.formB))
  | 5 => some (.ret h (w.formB))
  | 6 => some (.exitT h (w.formR))
  | 7 => some (.loop h (w.formB))
  | 8 => some (.loopc h (w.formB))
  | 9 => some (.leave h (w.formB))
  | 10 => some (.phase h (w.formR))
  | 11 => some (.sync h (w.formR))
  | 12 => some (.waitf h (w.formRI))
  | 13 => some (.yield h (w.formR))
  | 14 => some (.sleep h (w.formI))
  | 15 => some (.holdt h (w.formI))
  | 16 => some (.trap h (w.formI))
  | 17 => some (.brk h (w.formI))
  | 18 => some (.rtt h (w.formR))
  | 19 => some (.clrc h (w.formRI))
  | 20 => some (.setc h (w.formRI))
  | 21 => some (.rdsr h (w.formR))
  | 22 => some (.wrsr h (w.formRI))
  | 23 => some (.launch h (w.formQ))
  | 24 => some (.waitch h (w.formR))
  | 25 => some (.fetchw h (w.formR))
  | 26 => some (.time h (w.formR))
  | 27 => some (.icinv h (w.formM))
  | 28 => some (.prio h (w.formRI))
  | 29 => some (.halt h (w.formR))
  | 30 => some (.resume h (w.formR))
  | 31 => some (.abortp h (w.formR))
  | 32 => some (.acorn h (w.formRI))
  | _ => none

/-- Group B of the opcode map (R99), the index counted from 0x40. -/
def decodeGroupB (w : IWord) (h : Head) : Nat → Option Instr
  | 0 => some (.iadd h (w.formRI))
  | 1 => some (.isub h (w.formRI))
  | 2 => some (.iaddc h (w.formRI))
  | 3 => some (.isubb h (w.formRI))
  | 4 => some (.imul h (w.formRI))
  | 5 => some (.imulh h (w.formRI))
  | 6 => some (.imad h (w.formRI))
  | 7 => some (.idiv h (w.formRI))
  | 8 => some (.irem h (w.formRI))
  | 9 => some (.ineg h (w.formR))
  | 10 => some (.iabs h (w.formR))
  | 11 => some (.imin h (w.formRI))
  | 12 => some (.imax h (w.formRI))
  | 13 => some (.iclamp h (w.formRI))
  | 14 => some (.isad h (w.formRI))
  | 15 => some (.shl h (w.formRI))
  | 16 => some (.shr h (w.formRI))
  | 17 => some (.shra h (w.formRI))
  | 18 => some (.rotl h (w.formRI))
  | 19 => some (.shfd h (w.formRI))
  | 20 => some (.andB h (w.formRI))
  | 21 => some (.orB h (w.formRI))
  | 22 => some (.xorB h (w.formRI))
  | 23 => some (.andn h (w.formRI))
  | 24 => some (.notB h (w.formR))
  | 25 => some (.lop3 h (w.formQ))
  | 26 => some (.bfe h (w.formRI))
  | 27 => some (.bfi h (w.formRI))
  | 28 => some (.brev h (w.formR))
  | 29 => some (.popc h (w.formR))
  | 30 => some (.clz h (w.formR))
  | 31 => some (.ctz h (w.formR))
  | 32 => some (.bytep h (w.formRI))
  | 33 => some (.isetp h (w.formRI))
  | 34 => some (.isel h (w.formR))
  | 35 => some (.plop h (w.formR))
  | 36 => some (.ptov h (w.formR))
  | 37 => some (.vtop h (w.formR))
  | 38 => some (.mov h (w.formR))
  | 39 => some (.movi h (w.formI))
  | 40 => some (.kget h (w.formR))
  | 41 => some (.lea h (w.formRI))
  | 42 => some (.tagOp h (w.formRI))
  | _ => none

/-- Group C of the opcode map (R99), the index counted from 0xc0. -/
def decodeGroupC (w : IWord) (h : Head) : Nat → Option Instr
  | 0 => some (.fadd h (w.formRI))
  | 1 => some (.fsub h (w.formRI))
  | 2 => some (.fmul h (w.formRI))
  | 3 => some (.ffma h (w.formRI))
  | 4 => some (.fmin h (w.formRI))
  | 5 => some (.fmax h (w.formRI))
  | 6 => some (.fminn h (w.formRI))
  | 7 => some (.fmaxn h (w.formRI))
  | 8 => some (.fabs h (w.formR))
  | 9 => some (.fneg h (w.formR))
  | 10 => some (.fsgn h (w.formR))
  | 11 => some (.fsetp h (w.formRI))
  | 12 => some (.fclass h (w.formR))
  | 13 => some (.frcp h (w.formR))
  | 14 => some (.frsq h (w.formR))
  | 15 => some (.fsqrt h (w.formR))
  | 16 => some (.fdiv h (w.formRI))
  | 17 => some (.fexp2 h (w.formR))
  | 18 => some (.flog2 h (w.formR))
  | 19 => some (.fsin h (w.formR))
  | 20 => some (.fcos h (w.formR))
  | 21 => some (.ftanh h (w.formR))
  | 22 => some (.frnd h (w.formR))
  | 23 => some (.ffrc h (w.formR))
  | 24 => some (.fscale h (w.formRI))
  | 25 => some (.fgetx h (w.formR))
  | 26 => some (.hadd2 h (w.formRI))
  | 27 => some (.hmul2 h (w.formRI))
  | 28 => some (.hfma2 h (w.formRI))
  | 29 => some (.hmin2 h (w.formRI))
  | 30 => some (.hmax2 h (w.formRI))
  | 31 => some (.cvt h (w.formQ))
  | 32 => some (.cvti h (w.formQ))
  | 33 => some (.cvtf h (w.formQ))
  | 34 => some (.pack h (w.formQ))
  | 35 => some (.unpk h (w.formQ))
  | 36 => some (.pk6 h (w.formQ))
  | 37 => some (.upk6 h (w.formQ))
  | 38 => some (.dot2 h (w.formR))
  | 39 => some (.dot4 h (w.formR))
  | 40 => some (.dot8 h (w.formR))
  | 41 => some (.dott h (w.formR))
  | 42 => some (.rdfl h (w.formR))
  | 43 => some (.clfl h (w.formRI))
  | _ => none

/-- Group D of the opcode map (R99), the index counted from 0x180. -/
def decodeGroupD (w : IWord) (h : Head) : Nat → Option Instr
  | 0 => some (.shfl h (w.formRI))
  | 1 => some (.perm h (w.formR))
  | 2 => some (.votea h (w.formR))
  | 3 => some (.voten h (w.formR))
  | 4 => some (.ballot h (w.formR))
  | 5 => some (.matchOp h (w.formR))
  | 6 => some (.elect h (w.formR))
  | 7 => some (.part h (w.formR))
  | 8 => some (.gmask h (w.formRI))
  | 9 => some (.amask h (w.formR))
  | 10 => some (.gred h (w.formQ))
  | 11 => some (.gscan h (w.formQ))
  | 12 => some (.gbcast h (w.formR))
  | 13 => some (.gsort h (w.formQ))
  | 14 => some (.tred h (w.formQ))
  | 15 => some (.tscan h (w.formQ))
  | _ => none

/-- Group E of the opcode map (R99), the index counted from 0x1c0. -/
def decodeGroupE (w : IWord) (h : Head) : Nat → Option Instr
  | 0 => some (.ld h (w.formM))
  | 1 => some (.st h (w.formM))
  | 2 => some (.lds h (w.formM))
  | 3 => some (.sts h (w.formM))
  | 4 => some (.ldc h (w.formM))
  | 5 => some (.prf h (w.formM))
  | 6 => some (.atom h (w.formQ))
  | 7 => some (.red h (w.formQ))
  | 8 => some (.atoms h (w.formQ))
  | 9 => some (.reds h (w.formQ))
  | 10 => some (.txb h (w.formR))
  | 11 => some (.txe h (w.formR))
  | 12 => some (.txa h (w.formR))
  | 13 => some (.txst h (w.formR))
  | 14 => some (.fence h (w.formM))
  | 15 => some (.ofence h (w.formR))
  | 16 => some (.cpy h (w.formQ))
  | 17 => some (.tagwa h (w.formRI))
  | 18 => some (.tagwn h (w.formRI))
  | 19 => some (.tagff h (w.formR))
  | 20 => some (.wrq h (w.formQ))
  | 21 => some (.smap h (w.formM))
  | 22 => some (.sdrop h (w.formM))
  | 23 => some (.spub h (w.formM))
  | 24 => some (.cctl h (w.formM))
  | 25 => some (.tiercp h (w.formQ))
  | _ => none

/-- Group F of the opcode map (R99), the index counted from 0x240. -/
def decodeGroupF (w : IWord) (h : Head) : Nat → Option Instr
  | 0 => some (.qbind h (w.formQ))
  | 1 => some (.qfree h (w.formQ))
  | 2 => some (.qpush h (w.formR))
  | 3 => some (.qpop h (w.formR))
  | 4 => some (.qpeek h (w.formR))
  | 5 => some (.qstat h (w.formR))
  | 6 => some (.qres h (w.formQ))
  | 7 => some (.qpub h (w.formQ))
  | 8 => some (.qwait h (w.formRI))
  | 9 => some (.ldq h (w.formM))
  | 10 => some (.stq h (w.formM))
  | 11 => some (.rrdq h (w.formQ))
  | 12 => some (.subs h (w.formQ))
  | 13 => some (.drainq h (w.formQ))
  | 14 => some (.lcbr h (w.formB))
  | 15 => some (.qflush h (w.formQ))
  | _ => none

/-- Group G of the opcode map (R99), the index counted from 0x280. -/
def decodeGroupG (w : IWord) (h : Head) : Nat → Option Instr
  | 0 => some (.mma h (w.formQ))
  | 1 => some (.mmat h (w.formQ))
  | 2 => some (.mmas h (w.formQ))
  | 3 => some (.tdef h (w.formQ))
  | 4 => some (.tdrop h (w.formQ))
  | 5 => some (.mvs h (w.formQ))
  | 6 => some (.svs h (w.formQ))
  | 7 => some (.coll h (w.formQ))
  | 8 => some (.gbar h (w.formQ))
  | 9 => some (.hwait h (w.formR))
  | 10 => some (.htest h (w.formR))
  | 11 => some (.hcan h (w.formR))
  | 12 => some (.hpass h (w.formR))
  | 13 => some (.htake h (w.formR))
  | _ => none

/-- Group H of the opcode map (R99), the index counted from 0x2c0. -/
def decodeGroupH (w : IWord) (h : Head) : Nat → Option Instr
  | 0 => some (.cntsel h (w.formRI))
  | 1 => some (.cntrd h (w.formR))
  | 2 => some (.cntsnap h (w.formR))
  | 3 => some (.rcinc h (w.formRI))
  | 4 => some (.rcsnap h (w.formQ))
  | 5 => some (.wpset h (w.formM))
  | 6 => some (.bpset h (w.formB))
  | 7 => some (.dmbox h (w.formRI))
  | 8 => some (.dstep h (w.formR))
  | _ => none

/-- The instruction an opcode and its form's fields give, if the opcode map assigns the opcode (R84, R99). -/
def decodeOp (w : IWord) : Option Instr :=
  let op := w.op.toNat
  if op < 0x040 then decodeGroupA w w.head op
  else if op < 0x0C0 then decodeGroupB w w.head (op - 0x040)
  else if op < 0x180 then decodeGroupC w w.head (op - 0x0C0)
  else if op < 0x1C0 then decodeGroupD w w.head (op - 0x180)
  else if op < 0x240 then decodeGroupE w w.head (op - 0x1C0)
  else if op < 0x280 then decodeGroupF w w.head (op - 0x240)
  else if op < 0x2C0 then decodeGroupG w w.head (op - 0x280)
  else if op < 0x2E0 then decodeGroupH w w.head (op - 0x2C0)
  else none

/-- Decodes a Chimen-3 word, or says why it is no instruction; every refusal raises ILLEGAL_OP (R84, R85 step 2). -/
def decode (w : IWord) : Except DecodeError Instr :=
  match decodeOp w with
  | none => .error .unassigned
  | some i =>
    if !w.head.wf then .error .reservedHint
    else if !WellFormed i then .error .reservedForm
    else if !i.legal then .error .reservedField
    else .ok i

/-- The word of an instruction (R60 to R77, R99); an event has none and gives the all-zero word. -/
def encode : Instr → IWord
  | .nop h f => encR 0x000 h f
  | .bra h f => encB 0x001 h f
  | .brx h f => encB 0x002 h f
  | .call h f => encB 0x003 h f
  | .callx h f => encB 0x004 h f
  | .ret h f => encB 0x005 h f
  | .exitT h f => encR 0x006 h f
  | .loop h f => encB 0x007 h f
  | .loopc h f => encB 0x008 h f
  | .leave h f => encB 0x009 h f
  | .phase h f => encR 0x00A h f
  | .sync h f => encR 0x00B h f
  | .waitf h f => encRI 0x00C h f
  | .yield h f => encR 0x00D h f
  | .sleep h f => encI 0x00E h f
  | .holdt h f => encI 0x00F h f
  | .trap h f => encI 0x010 h f
  | .brk h f => encI 0x011 h f
  | .rtt h f => encR 0x012 h f
  | .clrc h f => encRI 0x013 h f
  | .setc h f => encRI 0x014 h f
  | .rdsr h f => encR 0x015 h f
  | .wrsr h f => encRI 0x016 h f
  | .launch h f => encQ 0x017 h f
  | .waitch h f => encR 0x018 h f
  | .fetchw h f => encR 0x019 h f
  | .time h f => encR 0x01A h f
  | .icinv h f => encM 0x01B h f
  | .prio h f => encRI 0x01C h f
  | .halt h f => encR 0x01D h f
  | .resume h f => encR 0x01E h f
  | .abortp h f => encR 0x01F h f
  | .acorn h f => encRI 0x020 h f
  | .iadd h f => encRI 0x040 h f
  | .isub h f => encRI 0x041 h f
  | .iaddc h f => encRI 0x042 h f
  | .isubb h f => encRI 0x043 h f
  | .imul h f => encRI 0x044 h f
  | .imulh h f => encRI 0x045 h f
  | .imad h f => encRI 0x046 h f
  | .idiv h f => encRI 0x047 h f
  | .irem h f => encRI 0x048 h f
  | .ineg h f => encR 0x049 h f
  | .iabs h f => encR 0x04A h f
  | .imin h f => encRI 0x04B h f
  | .imax h f => encRI 0x04C h f
  | .iclamp h f => encRI 0x04D h f
  | .isad h f => encRI 0x04E h f
  | .shl h f => encRI 0x04F h f
  | .shr h f => encRI 0x050 h f
  | .shra h f => encRI 0x051 h f
  | .rotl h f => encRI 0x052 h f
  | .shfd h f => encRI 0x053 h f
  | .andB h f => encRI 0x054 h f
  | .orB h f => encRI 0x055 h f
  | .xorB h f => encRI 0x056 h f
  | .andn h f => encRI 0x057 h f
  | .notB h f => encR 0x058 h f
  | .lop3 h f => encQ 0x059 h f
  | .bfe h f => encRI 0x05A h f
  | .bfi h f => encRI 0x05B h f
  | .brev h f => encR 0x05C h f
  | .popc h f => encR 0x05D h f
  | .clz h f => encR 0x05E h f
  | .ctz h f => encR 0x05F h f
  | .bytep h f => encRI 0x060 h f
  | .isetp h f => encRI 0x061 h f
  | .isel h f => encR 0x062 h f
  | .plop h f => encR 0x063 h f
  | .ptov h f => encR 0x064 h f
  | .vtop h f => encR 0x065 h f
  | .mov h f => encR 0x066 h f
  | .movi h f => encI 0x067 h f
  | .kget h f => encR 0x068 h f
  | .lea h f => encRI 0x069 h f
  | .tagOp h f => encRI 0x06A h f
  | .fadd h f => encRI 0x0C0 h f
  | .fsub h f => encRI 0x0C1 h f
  | .fmul h f => encRI 0x0C2 h f
  | .ffma h f => encRI 0x0C3 h f
  | .fmin h f => encRI 0x0C4 h f
  | .fmax h f => encRI 0x0C5 h f
  | .fminn h f => encRI 0x0C6 h f
  | .fmaxn h f => encRI 0x0C7 h f
  | .fabs h f => encR 0x0C8 h f
  | .fneg h f => encR 0x0C9 h f
  | .fsgn h f => encR 0x0CA h f
  | .fsetp h f => encRI 0x0CB h f
  | .fclass h f => encR 0x0CC h f
  | .frcp h f => encR 0x0CD h f
  | .frsq h f => encR 0x0CE h f
  | .fsqrt h f => encR 0x0CF h f
  | .fdiv h f => encRI 0x0D0 h f
  | .fexp2 h f => encR 0x0D1 h f
  | .flog2 h f => encR 0x0D2 h f
  | .fsin h f => encR 0x0D3 h f
  | .fcos h f => encR 0x0D4 h f
  | .ftanh h f => encR 0x0D5 h f
  | .frnd h f => encR 0x0D6 h f
  | .ffrc h f => encR 0x0D7 h f
  | .fscale h f => encRI 0x0D8 h f
  | .fgetx h f => encR 0x0D9 h f
  | .hadd2 h f => encRI 0x0DA h f
  | .hmul2 h f => encRI 0x0DB h f
  | .hfma2 h f => encRI 0x0DC h f
  | .hmin2 h f => encRI 0x0DD h f
  | .hmax2 h f => encRI 0x0DE h f
  | .cvt h f => encQ 0x0DF h f
  | .cvti h f => encQ 0x0E0 h f
  | .cvtf h f => encQ 0x0E1 h f
  | .pack h f => encQ 0x0E2 h f
  | .unpk h f => encQ 0x0E3 h f
  | .pk6 h f => encQ 0x0E4 h f
  | .upk6 h f => encQ 0x0E5 h f
  | .dot2 h f => encR 0x0E6 h f
  | .dot4 h f => encR 0x0E7 h f
  | .dot8 h f => encR 0x0E8 h f
  | .dott h f => encR 0x0E9 h f
  | .rdfl h f => encR 0x0EA h f
  | .clfl h f => encRI 0x0EB h f
  | .shfl h f => encRI 0x180 h f
  | .perm h f => encR 0x181 h f
  | .votea h f => encR 0x182 h f
  | .voten h f => encR 0x183 h f
  | .ballot h f => encR 0x184 h f
  | .matchOp h f => encR 0x185 h f
  | .elect h f => encR 0x186 h f
  | .part h f => encR 0x187 h f
  | .gmask h f => encRI 0x188 h f
  | .amask h f => encR 0x189 h f
  | .gred h f => encQ 0x18A h f
  | .gscan h f => encQ 0x18B h f
  | .gbcast h f => encR 0x18C h f
  | .gsort h f => encQ 0x18D h f
  | .tred h f => encQ 0x18E h f
  | .tscan h f => encQ 0x18F h f
  | .ld h f => encM 0x1C0 h f
  | .st h f => encM 0x1C1 h f
  | .lds h f => encM 0x1C2 h f
  | .sts h f => encM 0x1C3 h f
  | .ldc h f => encM 0x1C4 h f
  | .prf h f => encM 0x1C5 h f
  | .atom h f => encQ 0x1C6 h f
  | .red h f => encQ 0x1C7 h f
  | .atoms h f => encQ 0x1C8 h f
  | .reds h f => encQ 0x1C9 h f
  | .txb h f => encR 0x1CA h f
  | .txe h f => encR 0x1CB h f
  | .txa h f => encR 0x1CC h f
  | .txst h f => encR 0x1CD h f
  | .fence h f => encM 0x1CE h f
  | .ofence h f => encR 0x1CF h f
  | .cpy h f => encQ 0x1D0 h f
  | .tagwa h f => encRI 0x1D1 h f
  | .tagwn h f => encRI 0x1D2 h f
  | .tagff h f => encR 0x1D3 h f
  | .wrq h f => encQ 0x1D4 h f
  | .smap h f => encM 0x1D5 h f
  | .sdrop h f => encM 0x1D6 h f
  | .spub h f => encM 0x1D7 h f
  | .cctl h f => encM 0x1D8 h f
  | .tiercp h f => encQ 0x1D9 h f
  | .qbind h f => encQ 0x240 h f
  | .qfree h f => encQ 0x241 h f
  | .qpush h f => encR 0x242 h f
  | .qpop h f => encR 0x243 h f
  | .qpeek h f => encR 0x244 h f
  | .qstat h f => encR 0x245 h f
  | .qres h f => encQ 0x246 h f
  | .qpub h f => encQ 0x247 h f
  | .qwait h f => encRI 0x248 h f
  | .ldq h f => encM 0x249 h f
  | .stq h f => encM 0x24A h f
  | .rrdq h f => encQ 0x24B h f
  | .subs h f => encQ 0x24C h f
  | .drainq h f => encQ 0x24D h f
  | .lcbr h f => encB 0x24E h f
  | .qflush h f => encQ 0x24F h f
  | .mma h f => encQ 0x280 h f
  | .mmat h f => encQ 0x281 h f
  | .mmas h f => encQ 0x282 h f
  | .tdef h f => encQ 0x283 h f
  | .tdrop h f => encQ 0x284 h f
  | .mvs h f => encQ 0x285 h f
  | .svs h f => encQ 0x286 h f
  | .coll h f => encQ 0x287 h f
  | .gbar h f => encQ 0x288 h f
  | .hwait h f => encR 0x289 h f
  | .htest h f => encR 0x28A h f
  | .hcan h f => encR 0x28B h f
  | .hpass h f => encR 0x28C h f
  | .htake h f => encR 0x28D h f
  | .cntsel h f => encRI 0x2C0 h f
  | .cntrd h f => encR 0x2C1 h f
  | .cntsnap h f => encR 0x2C2 h f
  | .rcinc h f => encRI 0x2C3 h f
  | .rcsnap h f => encQ 0x2C4 h f
  | .wpset h f => encM 0x2C5 h f
  | .bpset h f => encB 0x2C6 h f
  | .dmbox h f => encRI 0x2C7 h f
  | .dstep h f => encR 0x2C8 h f
  | .unassignedOpcode _ => 0
  | .trapEntry _ => 0
  | .classTResultWrite _ _ => 0
  | .loadDataReturn _ _ => 0
  | .ldqSlotFill _ _ => 0
  | .copyPiece _ => 0
  | .copyComplete _ => 0
  | .tiercpPage _ => 0
  | .matrixOpFire _ => 0
  | .matrixGroup _ => 0
  | .matrixOpComplete _ => 0
  | .mvsFire _ => 0
  | .stackEngineOutputRun _ => 0
  | .subsTilePush _ => 0
  | .drainqElementWrite _ => 0
  | .rrdqElementArrival _ _ => 0
  | .collInstanceComplete _ => 0
  | .gbarComplete _ => 0
  | .tredInstanceDelivery _ _ => 0
  | .handleWaitPark _ => 0
  | .waitfTimeout _ => 0
  | .sleepExpiry _ => 0
  | .holdtTimeReached _ => 0
  | .loopCountPoll _ => 0
  | .podSwap _ => 0
  | .podPromotion _ => 0
  | .spinDemotionEnd _ => 0
  | .queueDeadlock _ => 0
  | .podExit _ => 0
  | .phaseEnd _ => 0
  | .placementTimeout _ => 0
  | .shadowComparison _ => 0
  | .teamExit _ => 0
  | .gridRetirement _ => 0
  | .packetTake _ => 0
  | .teamPlacement _ _ => 0
  | .startTimeReached _ => 0
  | .fetchwMailboxFill _ => 0
  | .savePreemption _ => 0
  | .contextRecordWrite _ => 0
  | .phaseAbort _ => 0
  | .clusterTokenPass _ => 0
  | .escalationNotify => 0
  | .peerRefusalArrival _ _ => 0
  | .peerAcknowledgement _ _ => 0
  | .mcIssueHold _ => 0
  | .queueMappingQuantum => 0
  | .contextRestore _ _ => 0
  | .pageWalk _ _ _ => 0
  | .l2Eviction _ => 0
  | .memoryScrub _ => 0
  | .dieTokenPass => 0
  | .wqEnable => 0
  | .wqDisable => 0
  | .saveTeam => 0
  | .abortTeam => 0
  | .resumeContext => 0
  | .discardContext => 0
  | .wqcmdReserved _ => 0
  | .doorbellWrite _ _ => 0
  | .acornstTermClear => 0
  | .xlinvPage _ _ => 0
  | .xlinvAsn _ => 0
  | .xlinvAll => 0
  | .xlinvReserved => 0
  | .xlinvComplete => 0
  | .capmWrite _ _ _ _ => 0
  | .accessTableWrite _ _ _ => 0
  | .accessTableUpdateDone => 0
  | .esctailWrite _ => 0
  | .dbgoutPop => 0
  | .mcMailboxRequest _ _ => 0
  | .registerWrite _ _ _ _ => 0
  | .huskToH1 => 0
  | .huskToH0 => 0
  | .huskH0ToH1 => 0
  | .huskToH2 => 0
  | .huskToH3 => 0
  | .huskReset => 0
  | .huskPowerApplied => 0
  | .huskPowerLost => 0
  | .packageReset => 0
  | .firmwareVerify _ _ => 0
  | .attestationRequest _ => 0
  | .diePowerOn => 0
  | .computeDieReset => 0
  | .dieResetRelease => 0
  | .diePowerOff => 0
  | .agentHeartbeat _ => 0
  | .watchdogExpiry => 0
  | .dieHoldExpiry => 0
  | .winnowEnqueue _ _ _ => 0
  | .winnowPlacementTimeout _ _ => 0
  | .winnowResultProcess _ _ => 0
  | .timeBaseSync _ => 0
  | .flitReceive _ _ => 0
  | .starvationGrant _ _ => 0
  | .linkRetryLimit _ => 0
  | .linkNoProgressTimeout _ => 0
  | .linkTrainingComplete _ => 0
  | .lstateBroadcastReceive _ _ => 0
  | .uePortsUp => 0
  | .messageArrival _ => 0
  | .detourRelay _ => 0
  | .bouncedMessageReturn _ => 0
  | .responseArrival _ => 0
  | .e2eResendTimeout _ _ => 0
  | .uePacketReceive _ => 0
  | .writeReachesHome _ _ => 0
  | .hostComplexAccess _ _ _ => 0
  | .flitSlotGrant _ _ => 0
  | .counterMmioClear _ => 0

/-! ## Illegal modifiers (R75, R323, R344), step 3 of R85 -/

/-- Acquire or acq_rel order. -/
def ordAcq (o : BitVec 2) : Bool := o.getLsbD 0
/-- Release or acq_rel order. -/
def ordRel (o : BitVec 2) : Bool := o.getLsbD 1

/-- The rules of R75 that hold on every form-M opcode: an order needs a scope, atomicity is no wider than the access. -/
def FormM.modBad (f : FormM) : Bool :=
  (f.order != 0 && f.scope == 0) || (f.atom == 1 && f.size.toNat < 3) || (f.atom == 2 && f.size.toNat < 4)

/-- nf or typed on an opcode that takes neither (R75). -/
def FormM.nfTyped (f : FormM) : Bool := f.nf || f.typed

/-- Whether an instruction raises ILLEGAL_MODIFIER. -/
def Instr.badModifier : Instr → Bool
  | .ld _ f => f.modBad || ordRel f.order
  | .st _ f => f.modBad || ordAcq f.order || f.nfTyped
  | .lds _ f => f.modBad || ordRel f.order || f.nfTyped
  | .sts _ f => f.modBad || ordAcq f.order || f.nfTyped
  | .ldc _ f => f.modBad || f.order != 0 || f.scope != 0
  | .ldq _ f => f.modBad || ordRel f.order
  | .stq _ f => f.modBad || ordAcq f.order || f.nfTyped
  | .prf _ f => f.order != 0 || f.scope != 0 || f.nfTyped
  | .fence _ f => f.order == 0 || f.scope == 0 || f.nfTyped
  | .smap _ f => f.order != 0 || f.scope != 0 || f.nfTyped
  | .sdrop _ f => f.order != 0 || f.scope != 0 || f.nfTyped
  | .spub _ f => f.order != 2 || f.scope.toNat < 3 || f.nfTyped
  | .cctl _ f => f.order != 0 || f.scope != 0 || f.nfTyped
  | .icinv _ f => f.order != 0 || f.nfTyped
  | .wpset _ f => f.order != 0 || f.nfTyped
  | .atom _ f => f.atomOrder != 0 && f.atomScope == 0
  | .atoms _ f => f.atomOrder != 0 && f.atomScope == 0
  | .red _ f => f.atomOrder == 1 || f.atomOrder == 3 || (f.atomOrder != 0 && f.atomScope == 0)
  | .reds _ f => f.atomOrder == 1 || f.atomOrder == 3 || (f.atomOrder != 0 && f.atomScope == 0)
  | _ => false

/-! ## Modifier targets (R83) -/

/-- Whether the modifier is aimed at an operand (R68). -/
def FormR.aims (f : FormR) : Bool := f.mtgt != 0
/-- The same of an R/I opcode: form I has no modifier (R71). -/
def FormRI.aims : FormRI → Bool
  | .r f => f.aims
  | .i _ => false

/-- Whether an instruction none of whose fields can hold a v register aims a modifier all the same (R83). -/
def Instr.badTarget : Instr → Bool
  | .nop _ f => f.aims
  | .exitT _ f => f.aims
  | .phase _ f => f.aims
  | .sync _ f => f.aims
  | .waitf _ f => f.aims
  | .yield _ f => f.aims
  | .rtt _ f => f.aims
  | .clrc _ f => f.aims
  | .setc _ f => f.aims
  | .rdsr _ f => f.aims
  | .waitch _ f => f.aims
  | .fetchw _ f => f.aims
  | .time _ f => f.aims
  | .prio _ f => f.aims
  | .halt _ f => f.aims
  | .resume _ f => f.aims
  | .abortp _ f => f.aims
  | .acorn _ f => f.aims
  | .clfl _ f => f.aims
  | .txb _ f => f.aims
  | .txe _ f => f.aims
  | .txst _ f => f.aims
  | .ofence _ f => f.aims
  | .tagwa _ f => f.aims
  | .tagwn _ f => f.aims
  | .tagff _ f => f.aims
  | .hwait _ f => f.aims
  | .htest _ f => f.aims
  | .hcan _ f => f.aims
  | .hpass _ f => f.aims
  | .htake _ f => f.aims
  | .cntsel _ f => f.aims
  | .cntrd _ f => f.aims
  | .cntsnap _ f => f.aims
  | .dmbox _ f => f.aims
  | .dstep _ f => f.aims
  | _ => false

/-! ## Legacy words (R101, R475 to R478) -/

/-- A legacy opcode's Chimen-3 opcode: base of its group plus its index, when the index is in the group's set (R478). -/
def legacyOpcode (mode : Nat) (o : Nat) : Option Nat :=
  let g := if mode == 2 then o / 64 else o / 32
  let i := if mode == 2 then o % 64 else o % 32
  let base := [0x000, 0x040, 0x0C0, 0x180, 0x1C0, 0x240, 0x280, 0x2C0].getD g 0
  let ok :=
    if mode == 2 then
      match g with
      | 0 => decide (i ≤ 27)
      | 1 => decide (i ≤ 42)
      | 2 => decide (i ≤ 35)
      | 3 => decide (i ≤ 15)
      | 4 => decide (i ≤ 19)
      | 5 => decide (i ≤ 10)
      | 6 => decide (i ≤ 4) || (decide (7 ≤ i) && decide (i ≤ 13))
      | 7 => decide (i ≤ 2) || (decide (5 ≤ i) && decide (i ≤ 8))
      | _ => false
    else
      match g with
      | 0 => decide (i ≤ 22)
      | 1 => true
      | 2 => decide (i ≤ 25)
      | 3 => decide (i ≤ 9)
      | 4 => decide (i ≤ 9)
      | 5 => decide (i ≤ 5)
      | 6 => [0, 3, 4, 9, 10, 11].contains i
      | 7 => decide (i ≤ 2)
      | _ => false
  if ok then some (base + i) else none

/-- A legacy operand code's Chimen-3 code (R477). -/
def legacyCode (mode : Nat) (c : Nat) : Option Code :=
  let r := fun (n : Nat) => some (BitVec.ofNat 10 n)
  if mode == 2 then
    if c < 160 then r c
    else if c < 192 then r (640 + (c - 160))
    else if c < 200 then r (704 + (c - 192))
    else if c < 208 then r (720 + (c - 200))
    else if c < 236 then r (736 + (c - 208))
    else if c < 252 then r (768 + (c - 236))
    else if c < 255 then r (784 + (c - 252))
    else r 1023
  else
    if c < 64 then r c
    else if c < 80 then r (640 + (c - 64))
    else if c < 84 then r (704 + (c - 80))
    else if c < 88 then r (720 + (c - 84))
    else if c < 116 then r (736 + (c - 88))
    else if c < 124 then r (768 + (c - 116))
    else if c < 127 then none
    else r 1023

/-- The forms of the opcodes, as far as the legacy field maps distinguish them (R476). -/
inductive LegacyForm
  | rq | ib | m
deriving DecidableEq, Repr

/-- R/I opcodes: the copied form flag [26] selects form R or I (R67). -/
def opcodesRI : List Nat := [0x00C, 0x013, 0x014, 0x016, 0x01C, 0x020, 0x040, 0x041, 0x042, 0x043, 0x044, 0x045, 0x046, 0x047, 0x048, 0x04B] ++
  [0x04C, 0x04D, 0x04E, 0x04F, 0x050, 0x051, 0x052, 0x053, 0x054, 0x055, 0x056, 0x057, 0x05A, 0x05B, 0x060, 0x061] ++
  [0x069, 0x06A, 0x0C0, 0x0C1, 0x0C2, 0x0C3, 0x0C4, 0x0C5, 0x0C6, 0x0C7, 0x0CB, 0x0D0, 0x0D8, 0x0DA, 0x0DB, 0x0DC] ++
  [0x0DD, 0x0DE, 0x0EB, 0x180, 0x188, 0x1D1, 0x1D2, 0x248, 0x2C0, 0x2C3, 0x2C7]
/-- Opcodes of forms I and B. -/
def opcodesIB : List Nat := [0x001, 0x002, 0x003, 0x004, 0x005, 0x007, 0x008, 0x009, 0x00E, 0x00F, 0x010, 0x011, 0x067, 0x24E, 0x2C6]
/-- Opcodes of form M. -/
def opcodesM : List Nat := [0x01B, 0x1C0, 0x1C1, 0x1C2, 0x1C3, 0x1C4, 0x1C5, 0x1CE, 0x1D5, 0x1D6, 0x1D7, 0x1D8, 0x249, 0x24A, 0x2C5]

/-- The form of a Chimen-3 opcode for R476; an R/I opcode takes its form from the copied flag [26]. -/
def legacyForm (op : Nat) (flag26 : Bool) : LegacyForm :=
  if opcodesIB.contains op || flag26 && opcodesRI.contains op then .ib
  else if opcodesM.contains op then .m
  else .rq

/-- The Chimen-3 word of a legacy word (R475 to R478): mode 2 for Chimen-2, 1 for Chimen-1. -/
def legacyWord (mode : Nat) (w : IWord) : Option IWord :=
  let v := w.toNat
  let field := fun (lo len : Nat) => v / 2 ^ lo % 2 ^ len
  let two := mode == 2
  let o := if two then field 87 9 else field 88 8
  let neg := if two then field 86 1 else field 87 1
  let pred := if two then field 82 4 else field 84 3
  let d := if two then field 74 8 else field 77 7
  let a := if two then field 66 8 else field 70 7
  let b := if two then field 58 8 else field 63 7
  let c := if two then field 50 8 else field 56 7
  match legacyOpcode mode o, legacyCode mode d, legacyCode mode a with
  | some op, some d', some a' =>
    let top := op * 2 ^ 86 + neg * 2 ^ 85 + pred * 2 ^ 81 + d'.toNat * 2 ^ 71 + a'.toNat * 2 ^ 61
    match legacyForm op (w.getLsbD 26) with
    | .rq =>
      match legacyCode mode b, legacyCode mode c with
      | some b', some c' =>
        if (if two then field 41 9 else field 41 15) == 0 then
          some (BitVec.ofNat 96 (top + b'.toNat * 2 ^ 51 + c'.toNat * 2 ^ 41 + field 0 41))
        else none
      | _, _ => none
    | .ib =>
      if (if two then field 61 5 else field 61 9) == 0 then some (BitVec.ofNat 96 (top + field 0 61)) else none
    | .m =>
      match legacyCode mode b with
      | some b' =>
        if (if two then field 51 7 else field 51 12) == 0 then
          some (BitVec.ofNat 96 (top + b'.toNat * 2 ^ 51 + field 0 51))
        else none
      | none => none
  | _, _, _ => none

/-- Decodes a word under the DECODE field of its context (R101, R475): 3 for Chimen-3, 2 and 1 for the legacy sets. -/
def decodeMode (mode : Nat) (w : IWord) : Except DecodeError Instr :=
  if mode == 1 || mode == 2 then
    match legacyWord mode w with
    | some w' => decode w'
    | none => .error .noMapping
  else decode w

/-- The instruction the decoder reads from the bits `w` of a table row (an event has no encoding). -/
def decodeTableWord (_nbits w : Nat) : Option Instr := (decode (BitVec.ofNat 96 w)).toOption

end Sys2Proof
end

