-- ==== Sys2Proof/Config.lean ====
section
/-! DEFINITION. What one package is fixed with (fuses, straps) and the values the manual leaves open.
An `opaque` constant here has no body: no proof can learn its value. -/
namespace Sys2Proof.Config

/-- A free natural number for each index: the model takes the index from `State.free` and steps it, so that two
choices never share one (log 7; the manual's "unpredictable among"). -/
opaque free : Nat → Nat

/-- Nanoseconds of the time base that pass in the model's step `n` (R497; log 5). -/
opaque elapsedNs : Nat → Nat

/-- The approximate functions of R189 whose returned value is open within a bound. -/
inductive Approx
  | rcp | rsq | exp2 | log2 | sin | cos | tanh
deriving DecidableEq, Repr

/-- The bits a device returns for an approximate function of an input (R190): function, f64 (else f32), `.ftz`,
input bits. A returned value outside the bound of R189 is not used (see `Flags.lean`; log 10). -/
opaque approx : Approx → Bool → Bool → Nat → Nat

/-- The capability mask the fence fuses of a core give at compute-die reset (R466; log 4). -/
opaque fenceFuses : Nat → BitVec 256

/-- SHA-256 of a byte string (R503 to R505), taken as an uninterpreted function (log 11). -/
opaque sha256 : List Byte → BitVec 256

/-- Whether an SLH-DSA-SHA2-128s signature verifies: public key, message, signature (R504; log 11). -/
opaque slhVerify : List Byte → List Byte → List Byte → Bool

/-- The SLH-DSA-SHA2-128s signature of a message under the device identity key (R505; log 11). -/
opaque slhSign : List Byte → List Byte

/-- The public key of the device identity (R505), 32 bytes. -/
opaque identityKey : List Byte

/-- The package serial number, from fuses (R505). -/
opaque serial : BitVec 128

/-- The SHA-256 digest of the public key that the fuses hold in a key slot (R504). -/
opaque keyDigest : Nat → BitVec 256

/-- The package number strap, DEVCFG.PKG (R23; log 4). -/
opaque pkg : BitVec 4

/-- The second-tier strap, DEVCFG.TIER (R23): 0 none, 1 LPDDR-6, 2 CXL (log 4). -/
opaque tierKind : BitVec 2

/-- The installed second-tier capacity in GiB before the limits of R19 (log 4). -/
opaque tierStrap : BitVec 16

/-- DEVCFG.TIERGIB (R19, R23): 0 with no tier fitted, at most 3,072 for LPDDR-6 and 4,096 for CXL. -/
def tierGib : Nat :=
  match tierKind.toNat with
  | 1 => min tierStrap.toNat 3072
  | 2 => min tierStrap.toNat 4096
  | _ => 0

/-- DEVID (R22). DESIGN CHOICE (log 4): STEP reads 0x00, that of the first silicon stepping; which stepping this die is, is open. -/
def devid : Dword := 0x4A4D_0B32_0300_0000

/-- DEVCFG (R23). -/
def devcfg : Dword :=
  BitVec.ofNat 64 (tierGib <<< 32 ||| 0x40 <<< 24 ||| 0x08 <<< 16 ||| pkg.toNat <<< 12 ||| tierKind.toNat)

/-- Cells that memory holds after the `n`th loss of its contents: a package reset leaves them open (R8, R483; log 18). -/
opaque lostMemory : Nat → List (Nat × Byte)

/-- The set, below 128, of a cluster TLB that holds the leaf of an address space and a page (R299 gives the ways, not the index; log 22). -/
opaque clusterTlbSet : BitVec 12 → Nat → Nat

/-- The set of its home L2 slice that holds a line (R294 gives 1,024 sets, not the index; log 22). -/
opaque l2Set : Nat → Nat

/-- The byte that memory nothing has written reads as (R8 leaves it open; log 2). -/
def unwritten : Byte := 0

end Sys2Proof.Config
end

