-- ==== Sys2Proof/Machine/State.lean ====
section
/-! DEFINITION. The state of one package: pods, teams, cores, the dispatcher, memory, the fabric and the Husk, as plain
data, the faults and refusals of a step, and the state after reset. -/
namespace Sys2Proof.Machine

/-- Why a step has no next state. -/
inductive Fault
  /-- An access to a physical address that R290 does not populate reached memory after translation. Raised by nothing
  that Translate has checked; kept for agents that name physical addresses directly. Safe: the model stops. -/
  | unpopulated (pa : Nat)
deriving DecidableEq, Repr

/-- Why the model refuses a step. -/
inductive Refusal
  /-- The instruction has no meaning in the model yet. Raised by `exec` only. Safe: the model stops. -/
  | notModelled (mnemonic : String)
deriving DecidableEq, Repr

/-- Sparse words by index: strictly rising indices, no entry that holds zero; an absent index reads zero. -/
abbrev Cells (w : Nat) := List (Nat × BitVec w)

/-- A set of threads of a pod: bit t is thread t (R110). -/
abbrev Mask := BitVec 128

/-- The causes of R260. -/
inductive Cause
  | illegalOp | illegalOperand | formatMismatch | undeclaredOp | fencedOp | sliceViolation | misaligned | xlateFault
  | protection | stashBounds | tierMiss | memUncorrectable | queueDeadlock | handleInvalid | engineFault | remoteFault
  | nestDepth | breakpoint | watchpoint | singleStep | trapInstr | linkStub | preempt | phaseOverflow
  | irrevocableAbort | timeout | illegalModifier | illegalScope | privilege | debugHalt | pcMisalign
  /-- Bits 48 to 63, software-defined (R249). -/
  | software (n : Nat)
deriving DecidableEq, Repr

/-- One entry of a loop stack (R232). -/
structure LoopEntry where
  start : Dword
  last  : Dword
  count : Word
  depth : Nat
deriving DecidableEq, Repr

/-- The control state of one thread at one level (R232). -/
structure ThreadCtl where
  pc    : Dword
  depth : Nat
deriving DecidableEq, Repr

/-- A raised cause on its way to trap entry (R266): the causes (the first is the primary one), the stopping point, the
failing mask when the cause stops at a thread, and what the bank receives (R264). -/
structure TrapReq where
  causes : List Cause
  pc     : Dword
  tix    : Nat
  mask   : Mask
  atK    : Bool
  field  : Nat
  arg    : Word
  addr   : Dword
  /-- The step at which it was raised (R270). -/
  when_  : Nat := 0
deriving DecidableEq, Repr

/-- A fault of an operation that has passed its checks, kept until an instruction waits on the operation (R40). -/
structure Deferred where
  cause : Cause
  /-- The flags (set-A) that wait on it, as a mask of f0 to f11. -/
  flags : BitVec 12
  /-- The copy tag that waits on it. -/
  ctag  : Option Nat
  /-- Raised at the next instruction the pod issues (R384, R395). -/
  next  : Bool
  /-- The faulted operation with a handle that it belongs to (R401). -/
  op    : Option Nat
  arg   : Word
  addr  : Dword
deriving DecidableEq, Repr

/-- Where an outstanding result goes (R35, R36). -/
inductive Dest
  /-- `count` registers of one thread from `reg`. -/
  | vregs (thread reg count : Nat)
  /-- `count` uniform registers from `reg`. -/
  | kregs (reg count : Nat)
  /-- The slot with count `c` of a ring. -/
  | slot (ring c : Nat)
  | none
deriving DecidableEq, Repr

/-- The kinds of outstanding results. -/
inductive PendKind
  | classT | load | ldq
  /-- An LDQ with .nf (R395). -/
  | ldqNf
  /-- The old queue word of a WRQ (R371). -/
  | wrq
  /-- A polling read of a peer by LOOPC or LCBR; the instruction takes it when it looks again (R239). -/
  | poll
  /-- A load from a peer whose data the check of R131 awaits; the instruction takes it when it looks again. -/
  | check
deriving DecidableEq, Repr

/-- A WRQ whose parts have different homes (R371): its payload by pages, its queue word, and whether the payload has been written. -/
structure WrqTodo where
  parts : List (Nat × List Byte)
  queue : Nat
  sent  : Bool
deriving DecidableEq, Repr

/-- One outstanding result of one thread (R35, R36, R345). -/
structure Pend where
  kind   : PendKind
  /-- The issue it belongs to (`Pod.serial` at issue). -/
  serial : Nat
  dest   : Dest
  tag    : BitVec 5
  value  : BitVec 256
  /-- The requests to peers that bring bytes of the value: peer, end-to-end sequence, and each byte of the answer with its place
  in the value. -/
  reqs   : List (Nat × Word × List (Nat × Nat))
  size   : Nat
  seta   : BitVec 4
  setb   : BitVec 4
  thread : Nat
  addr   : Dword
  /-- The data came with an uncorrectable error (R311). -/
  uncorr : Bool
  /-- The peer has refused it (R350); and no later access is made before it has come (R323). -/
  refused : Bool := false
  acq    : Bool := false
  /-- Conditions that reach %fl with the result (R206). -/
  fl     : BitVec 6
  /-- The destination at issue, with its tag, and the level of the issue: whether the pod has written the destination since (R36). -/
  was    : BitVec 256 := 0
  wasTag : BitVec 5 := 0
  trap   : Bool := false
  todo   : Option WrqTodo := none
deriving DecidableEq, Repr

/-- What a pod waits on (R54, R246, R383). -/
inductive WaitKind
  | flag | ring (r : Nat) | handle | tag | time | sync | phase | coll | exit
  /-- WAITF, SLEEP, HOLDT, and the polls of LOOPC and LCBR (R239, R245). -/
  | waitf | sleep | holdt | poll
  /-- A publication or a write that waits for room in the remote combining buffer, or for a lock (R320, R363). -/
  | release
  /-- A release at sys scope that waits for acknowledgements (R320). -/
  | ack
deriving DecidableEq, Repr

/-- A wait: its kind, when it began, when it ends if that is known (0 once the event of its end has come), and the progress
count at which it last looked. -/
structure Wait where
  kind  : WaitKind
  since : Nat
  until_ : Option Nat
  seen  : Nat
deriving DecidableEq, Repr

/-- Transaction state of one thread (R358): whether it is open, serial mode, aborts in a row, those of them by status 1 or 2,
whether serial mode is due (R363), the status of the last abort, the address after TXB and its destination register. -/
structure TxThread where
  thread : Nat
  inTx   : Bool
  serial : Bool
  due    : Bool
  count  : Nat
  clashes : Nat
  status : Word
  resume : Dword
  dst    : Nat
  /-- TXB ran at trap level. -/
  trap   : Bool := false
  /-- It has aborted in the instruction that the pod has not completed yet: it goes to `resume` when that completes (R262, R359). -/
  leaving : Bool := false
  /-- Lines read: the bytes read and their mask (R358). -/
  reads  : List (Nat × BitVec 1024 × BitVec 128)
  /-- Lines written: bytes and byte mask. -/
  writes : List (Nat × BitVec 1024 × BitVec 128)
deriving DecidableEq, Repr

/-- Scheduling data of a pod (R54, R55). -/
structure Sched where
  active    : Bool
  entered   : Nat
  last      : Nat
  demoted   : Option Nat
  spinAddr  : Dword
  spinCount : Nat
  pending   : Nat
deriving DecidableEq, Repr

/-- A pod (R26, R102 to R119, R232, R263). -/
structure Pod where
  id       : PodId
  width    : Nat
  /-- v registers, index thread * 1024 + register (R102). -/
  v        : Cells 32
  /-- Format tags by register (R105). -/
  tags     : Cells 5
  /-- k0 to k63 (R110). -/
  k        : Cells 32
  /-- p1 to p15, a thread mask each (R110). -/
  p        : Cells 128
  /-- g0 to g7 (R110). -/
  g        : Cells 128
  /-- h0 to h15: the token of a valid handle; 0 is invalid (R111). -/
  h        : Cells 32
  /-- Bound ports: port and ring (R111). -/
  q        : List (Nat × Nat)
  /-- f0 to f11 as the number of outstanding namings; a flag is clear when it is 0 (R36, R111). -/
  flags    : Cells 16
  fl       : BitVec 6
  cause    : Dword
  tix      : Nat
  tpc      : Dword
  /-- %seed of each thread (R116). -/
  seed     : Cells 32
  prio     : BitVec 2
  prioMax  : BitVec 2
  user     : List ThreadCtl
  loops    : List LoopEntry
  trap     : List ThreadCtl
  trapLoops : List LoopEntry
  exited   : Mask
  /-- Handler threads (R266). -/
  handlers : Mask
  trapLevel : Bool
  /-- TDET, TARG and TADDR (R264), indices 0 to 3. -/
  bank     : Cells 32
  tx       : List TxThread
  pend     : List Pend
  deferred : List Deferred
  /-- Issue counter that names the outstanding results of one instruction. -/
  serial   : Nat
  wait     : Option Wait
  /-- A cause raised and waiting for the effects of lower threads (R38, R266), with the issue it waits for. -/
  raised   : Option (TrapReq × Nat)
  /-- What the last entry of each cause recorded, for a second entry with the cause still set (R264, R268). -/
  reasons  : List TrapReq
  /-- The thread at or above which a resumed instruction runs (R38, R262), with its address. -/
  resumeAt : Option (Dword × Nat)
  /-- It waits part-way through an instruction, some threads having acted: it stops at the next boundary only (R273). -/
  inside   : Bool
  /-- SYNC instances it has passed, and whether it has arrived at the next one (R244). -/
  syncDone : Nat
  arrived  : Bool
  /-- TRED and TSCAN instances it has passed (R230). -/
  collDone : Nat
  /-- COLL and GBAR instances it has joined, by channel: COLL 0 to 15, GBAR 16 + channel, grid GBAR 32 (R425). -/
  joined   : Cells 32
  /-- The same counts, and the control state, with which the phase began (R51). -/
  joinedAt : Cells 32
  startCtl : List ThreadCtl
  /-- A save found it waiting (R246, R278). -/
  waited   : Bool
  /-- The pod has executed PHASE (R44). -/
  phased   : Bool
  /-- The pod has exited (R53, R243). -/
  done     : Bool
  /-- DEBUG_HALT holds it (R258). -/
  halted   : Bool
  /-- It stops at the boundary after its next instruction (R519). -/
  stepping : Bool
  /-- A planted breakpoint that is passed once after a resume (R517). -/
  bpPass   : Option Dword
  /-- The step of its last OFENCE (R341, R365). -/
  ofence   : Nat
  /-- Registers that hold uncorrectable data (R311): thread * 1024 + register for v, 2^20 + register for k. -/
  bad      : List Nat
  sched    : Sched
deriving DecidableEq, Repr

/-- One line of a stash region (R305, R307). -/
structure Line where
  roff     : Nat
  half     : Nat
  va       : Nat
  pa       : Nat
  explicit : Bool
  filled   : Bool
  dirty    : BitVec 128
  bytes    : BitVec 1024
  /-- Bytes that hold uncorrectable data (R311). -/
  bad      : BitVec 128 := 0
  /-- Its place in the order of the last writes of the team's lines (R305). -/
  written  : Nat
deriving DecidableEq, Repr

/-- One entry of the reduction combining buffer (R356). -/
structure Combine where
  pa    : Nat
  op    : Nat
  ty    : Nat
  value : Dword
deriving DecidableEq, Repr

/-- A ring and its descriptor (R376 to R378). -/
structure Ring where
  ldepth : Nat
  tag    : BitVec 5
  prd    : Word
  pub    : Word
  con    : Word
  void   : Word
  /-- PAR, FLT, DRN, ATT (R378). -/
  par    : Bool
  flt    : Bool
  drn    : Bool
  att    : Bool
  map    : BitVec 64
  /-- Elements by slot (count mod depth). -/
  slots  : Cells 128
  /-- Slots whose element fails its parity check (R384). -/
  bad    : List Nat
deriving DecidableEq, Repr

/-- The kernel header of a team (R460 to R462), with its trap vectors. -/
structure Kernel where
  khdr     : Dword
  decode   : Nat
  width    : Nat
  restart  : Bool
  shadow   : Bool
  twin     : Bool
  super    : Bool
  winnow   : Bool
  pinned   : Bool
  pin      : Nat
  xpods    : Nat
  apods    : Nat
  xregs    : Nat
  aregs    : Nat
  xkregs   : Nat
  akregs   : Nat
  xentry   : Dword
  aentry   : Dword
  codeLo   : Dword
  codeLen  : Nat
  oum      : BitVec 256
  xcarryv  : List Nat
  acarryv  : List Nat
  xcarryk  : BitVec 64
  acarryk  : BitVec 64
  shared   : Nat
  stash    : Nat
  tiles    : Nat
  /-- Tag code and log2 of the depth of each declared ring. -/
  rings    : List (Nat × Nat)
  /-- Handler addresses: 64 causes and the default; 0 is no entry (R462). -/
  vectors  : List Dword
deriving DecidableEq, Repr

/-- Where a team is (R48, R274, R444). -/
inductive Place
  | resident
  /-- Its phase has ended; the next one waits for a core since the cycle given (R48). -/
  | nextPhase (since : Nat)
  /-- Its phase was aborted and waits for a core to run again (R51). -/
  | rerun
  /-- Saved in the context record at a physical address (R277). -/
  | parked (rec : Nat)
  /-- Returned to placement by WQCMD OP 4 (R436). -/
  | resumed (rec : Nat)
  /-- Its pods have exited; the commit is not complete (R330). -/
  | exiting
  /-- A shadow copy at its phase end, with its checksum (R472, R473). -/
  | compared (sum : Dword)
  | exited
deriving DecidableEq, Repr

/-- What one pod has brought to an instance of TRED or TSCAN (R229): its destination, effective threads and their A. -/
structure CollPart where
  pod  : Nat
  dst  : Code
  eff  : Mask
  vals : List (Nat × Nat)
deriving DecidableEq, Repr

/-- The instance of TRED or TSCAN at which the pods of a slice arrive (R229, R230): its slice, opcode, descriptor, flags and
destination class, and each arrived pod's part; `dead` once a mismatch has dissolved it. -/
structure CollInst where
  slice : Slice
  scan  : Bool
  desc  : BitVec 12
  flags : BitVec 9
  toK   : Bool
  parts : List CollPart
  dead  : Bool
deriving DecidableEq, Repr

/-- The reasons for which a team is being taken off its core (R270, R274). -/
inductive Saving
  | preempt
  /-- A park for a collective, which returns to placement by itself (R426, R444). -/
  | park
  /-- An escalation, with its kind (R272). -/
  | escalate (kind : Nat)
  /-- An abort of the phase (R51, R276). -/
  | abort
deriving DecidableEq, Repr

/-- A team (R26, R47 to R52, R302). -/
structure Team where
  id       : TeamId
  kernel   : Kernel
  /-- Coordinates, team count and depth of its grid (R29). -/
  x        : Nat
  y        : Nat
  z        : Nat
  nteam    : Nat
  depth    : Nat
  queue    : Nat
  asn      : BitVec 12
  ptroot   : Nat
  args     : Dword
  prec     : Dword
  /-- The core of half 0 (R27). -/
  core     : Nat
  place    : Place
  /-- %time before which its first phase issues nothing (R447). -/
  start    : Dword
  phase    : Word
  irrev    : Bool
  ctag     : Dword
  shared   : Cells 8
  /-- Offsets of the plain shared region that hold uncorrectable data (R311). -/
  badShared : List Nat
  stash    : List Line
  rcb      : List Combine
  rings    : List Ring
  /-- Tile-slot descriptors (R409, R410). -/
  tiles    : Cells 256
  /-- The step at which each tile slot was defined, and earlier values of 4-byte pieces of plain shared memory with the step of
  the write that replaced them, kept while a slot is defined (R341). -/
  tileAt   : Cells 64
  oldShared : List (Nat × Nat × Word)
  /-- Handle exchange: slot, token and passing pod (R400). -/
  xchg     : List (Nat × Word × PodId)
  insts    : List CollInst
  syncN    : Nat
  trxN     : Nat
  tranN    : Nat
  /-- Unretired child grids (R445). -/
  children : Nat
  /-- Mailboxes with an open FETCHW request, oldest first (R256), and whether one was answered in this phase (R450). -/
  mailboxes : List Nat
  fetched  : Bool
  /-- Teams handed over and not yet counted as exited (R449): grid and L. -/
  handed   : List (Nat × Nat)
  /-- Watchpoint: read, write, base, size (R516). -/
  watch    : Option (Bool × Bool × Dword × Nat)
  /-- Planted breakpoints: number and address (R517). -/
  bps      : List (Nat × Dword)
  halted   : Bool
  saving   : Option Saving
  /-- Its pods have stopped for the save (R274). -/
  stopped  : Bool
  /-- Cycle since which every pod has waited on rings and no count of a ring has changed (R383). -/
  stuck    : Option Nat
  /-- A store or reduction to a peer was lost (R320). -/
  lost     : Bool
  /-- Checksums of the earlier runs of a shadow phase (R473) and whether it runs as a single copy now. -/
  sums     : List Dword
  single   : Bool
  /-- The checksum of the phase has matched, so that it ends under R48 (R473). -/
  matched : Bool
  /-- Cores that a re-run must avoid (R473). -/
  avoid    : List Nat
  /-- The dirty lines that the phase began with, which an abort leaves (R48, R51). -/
  kept   : List Line
  /-- Placement order among teams (R54). -/
  placed   : Nat
  /-- Operations that still write into its context record (R277). -/
  outstanding : Nat
  /-- The phase record has been written, so a re-run starts from it (R453). -/
  recorded : Bool
deriving DecidableEq, Repr

/-- The states of R401. -/
inductive OpState
  | running | held | complete | faulted
deriving DecidableEq, Repr

/-- One thread's part of a CPY (R367): destination, source, length, bytes done, and the fault that ended it. -/
structure CopyPart where
  thread : Nat
  dst    : Dword
  src    : Dword
  len    : Nat
  done   : Nat
  fault  : Option (Cause × Dword)
deriving DecidableEq, Repr

/-- A request of an engine to a peer (R493): whether it writes, the place its answer takes in what the engine gathers, and
the answer once it is there: whether it is a refusal, and its bytes. -/
structure Ask where
  peer   : Nat
  seq    : Word
  wr     : Bool
  off    : Nat
  answer : Option (Bool × List Byte)
deriving DecidableEq, Repr

/-- A matrix operation (R412 to R418): MMA 0, MMAT 1 or MMAS 2, accumulator register, slots and descriptors of A and B, chunk,
saturation, `.z`, and the last OFENCE of its pod before it issued (R341); once fired, the operand bytes (data and scales of A,
then of B), the accumulator elements as the array holds them and as it last showed them in the registers (R342), and the
conditions raised. -/
structure Matrix where
  variant : Nat
  acc     : Nat
  slotA   : Nat
  slotB   : Nat
  descA   : BitVec 256
  descB   : BitVec 256
  chunk   : Nat
  sat     : Nat
  z       : Bool
  fence   : Nat
  fired   : Bool
  dataA   : List Byte
  scaleA  : List Byte
  dataB   : List Byte
  scaleB  : List Byte
  held    : List Nat
  shown   : List Nat
  /-- Registers of an accumulator element, and the elements before the first group and after each group added (R342). -/
  regs    : Nat := 1
  past    : List (List Nat) := []
  cond    : BitVec 6
deriving DecidableEq, Repr

/-- What an engine operation does, and how far it has come. -/
inductive OpKind
  /-- MMA, MMAT, MMAS (R412 to R418). -/
  | matrix (m : Matrix)
  /-- MVS: descriptor, input and output rings, saturation, the vector x once fired, conditions (R422). -/
  | mvs (slot : Nat) (desc : BitVec 256) (inR outR sat : Nat) (fired : Bool) (x : List Word) (cond : BitVec 6)
  /-- SVS: descriptor, output ring, saturation, conditions (R424). -/
  | svs (slot : Nat) (desc : BitVec 256) (outR sat : Nat) (cond : BitVec 6)
  /-- COLL and GBAR: the instance (R427, R428). -/
  | coll (inst : Nat)
  | gbar (inst : Nat)
  /-- RRDQ: ring, address or endpoint and address, elements (R396). -/
  | rrdq (ring : Nat) (addr : Dword) (count : Nat) (ue : Option Nat)
  /-- SUBS: ring and stream (R397). -/
  | subs (ring : Nat) (tbase tstride : Dword) (tbytes tcount : Nat)
  /-- DRAINQ: ring, address, elements (R398). -/
  | drainq (ring : Nat) (addr : Dword) (count : Nat)
  /-- TIERCP: destination, source, pages, page bytes, copy tag, scope (R369). -/
  | tiercp (dst src : Dword) (count size ctag scope : Nat)
  /-- CPY (R367). -/
  | cpy (ctag scope : Nat) (sd ss : Bool) (parts : List CopyPart)
  /-- RCSNAP: address and the 256 counters read (R515). -/
  | rcsnap (addr : Dword) (snap : List Word)
deriving DecidableEq, Repr

/-- An engine operation (R400). -/
structure Op where
  token    : Nat
  kind     : OpKind
  /-- The pod that issued it. -/
  pod      : PodId
  state    : OpState
  progress : Nat
  fault    : Option (Cause × Dword)
  /-- K position of the faulting word, which TARG holds (R131). -/
  kpos     : Nat
  seta     : BitVec 4
  setb     : BitVec 4
  /-- The core whose array or engine runs it, and the order of issue. -/
  core     : Nat
  /-- HCAN waits for it to stop (R407). -/
  cancel   : Bool
  /-- When a pod began to read it (R426). -/
  readAt   : Option Nat
  /-- Its first completed read has acquired (R401). -/
  seen     : Bool
  /-- Requests to peers that it waits for. -/
  asks     : List Ask
  /-- Bytes done of the page that a TIERCP copies. -/
  part     : Nat
  /-- The issue that made it (`Pod.serial`). -/
  serial   : Nat := 0
  /-- RESULT of its handle slot (R279). -/
  result   : List Byte := []
deriving DecidableEq, Repr

/-- What one participant has brought to a collective: its pod, its token, its descriptor and flags, its result register, its active
threads, and its elements by thread * 32 + element, a scale in bits [39:32] of a narrow one (R428). -/
structure CollJoin where
  pod    : PodId
  token  : Nat
  desc   : BitVec 12
  flags  : BitVec 9
  /-- It receives a result. -/
  gets   : Bool
  reg    : Option Nat
  active : Mask
  vals   : List (Nat × BitVec 64)
deriving DecidableEq, Repr

/-- An instance of COLL or GBAR (R425, R428): its span, its channel with the grid or the kernel header and topology entries that it
joins, its number in the sequence, the slice of a COLL, and the participants that have joined. -/
structure Collective where
  id     : Nat
  gbar   : Bool
  span   : Nat
  chan   : Nat
  key    : List Nat
  index  : Nat
  slice  : Slice
  joins  : List CollJoin
deriving DecidableEq, Repr

/-- A launch packet (R439). -/
structure Packet where
  khdr  : Dword
  nx    : Nat
  ny    : Nat
  nz    : Nat
  args  : Dword
  start : Dword
  compl : Dword
  prec  : Dword
  iters : Nat
  itpt  : Nat
  barrier : Bool
  intr  : Bool
  fetch : Bool
  prio  : Nat
  depth : Nat
deriving DecidableEq, Repr

/-- A nesting-table entry and its grid (R445). -/
structure Grid where
  id       : Nat
  parent   : Option (Nat × Nat)
  depth    : Nat
  queue    : Nat
  prio     : Nat
  /-- Of its queue when its packet was taken: address space, page tables and CTL.ACORN. -/
  asn      : BitVec 12
  ptroot   : Nat
  acorn    : Bool
  /-- When its packet was taken. -/
  taken    : Nat
  packet   : Packet
  kernel   : Kernel
  /-- Teams not yet placed, ascending. -/
  unplaced : List Nat
  unexited : Nat
  children : Nat
  status   : Nat
  /-- Launched from a core: the core and the launching position (R455). -/
  source   : Option Nat
deriving DecidableEq, Repr

/-- A work-queue descriptor as the distributor holds it (R433, R434), and the queue's position. -/
structure Queue where
  q       : Nat
  /-- Physical address of its descriptor (R433). -/
  desc    : Nat
  enabled : Bool
  ring    : Nat
  lsize   : Nat
  pri     : Nat
  mode    : Nat
  devfeed : Bool
  acorn   : Bool
  super   : Bool
  asn     : BitVec 12
  ctxn    : Nat
  ptroot  : Nat
  topo    : Nat
  /-- Topology descriptors: entry i of channel c at 16 * c + i (R525). -/
  entries : Cells 64
  ctxpool : Nat
  ctxsz   : Nat
  head    : Word
  tail    : Word
  /-- Cycle since which it holds a dispatch slot (R443), or waits for one. -/
  mapped  : Option Nat
  waiting : Nat
  /-- Parent grid and team of packets written by LAUNCH, by packet number (R445). -/
  parents : List (Nat × Nat × Nat × Nat)
deriving DecidableEq, Repr

/-- An escalation record waiting for its place in the ring (R270, R272): its 64 bytes, and whether the driver has been told that it
waits for room (R508). -/
structure EscRecord where
  team   : TeamId
  bytes  : List Byte
  /-- The step at which its cause was raised. -/
  when_  : Nat := 0
  waited : Bool := false
deriving DecidableEq, Repr

/-- A cached leaf of a Sheller TLB, whose `core` is a core, or of a cluster TLB, whose `core` is a cluster (R299): the address space,
the number VA[63:12] of the page it was filled for, and the leaf with its level. -/
structure TlbEntry where
  core  : Nat
  asn   : BitVec 12
  page  : Nat
  level : Nat
  pte   : Dword
deriving DecidableEq, Repr

/-- A table entry in the walk cache (R299): the address space, the level from 3 to 1, the virtual address above the entry's reach, and
the entry. -/
structure WalkEntry where
  asn    : BitVec 12
  level  : Nat
  reach  : Nat
  entry  : Dword
deriving DecidableEq, Repr

/-- A fetch line in the instruction cache of a core (R61, R238): the address space, the virtual address of the line, and its 4-byte
pieces by physical address. -/
structure FetchLine where
  core   : Nat
  asn    : BitVec 12
  va     : Nat
  pieces : List (Nat × Word)
deriving DecidableEq, Repr

/-- An entry of a remote combining buffer (R319). -/
structure Remote where
  core  : Nat
  line  : Nat
  mask  : BitVec 128
  bytes : BitVec 1024
  team  : TeamId
  /-- The .sys stores that it carries: pod, set-A flag, thread and address, for a deferred REMOTE_FAULT (R350). -/
  stores : List (PodId × BitVec 4 × Nat × Dword) := []
deriving DecidableEq, Repr

/-- A request to a peer that is not answered yet (R493). -/
structure OutReq where
  dst    : Nat
  seq    : Word
  dgen   : Word
  resent : Nat
  pa     : Nat
  vc     : BitVec 3
  relay  : Option Nat
  pod    : Option PodId
  /-- A write from a combining buffer or a reduction at phase end: the team that loses it (R320). -/
  team   : Option TeamId
  kind   : ReqKind
deriving DecidableEq, Repr

/-- How a request of a peer is answered (R311, R487, R493, R502). -/
inductive Answer
  | done (data : List Byte) | uncorrectable | refused | targetDown
deriving DecidableEq, Repr

/-- A response of this package to a request of a peer, on its way to the fabric (R487, R491, R493). -/
structure Reply where
  dst    : Nat
  seq    : Word
  answer : Answer
deriving DecidableEq, Repr

/-- The state of one Hazel port (R490, R492, R494). -/
structure Link where
  port    : Nat
  up      : Bool
  sent    : BitVec 11
  acked   : BitVec 11
  expect  : BitVec 11
  credits : Cells 16
  retries : Nat
  s1      : Nat
  s2      : Nat
  /-- Whether the last grant of each class went to the detour VC (R491, R492). -/
  alt     : BitVec 4
deriving DecidableEq, Repr

/-- The Husk: its states and management registers (R479 to R482, R494, R503, R506 to R508). -/
structure Husk where
  h       : BitVec 2
  htgt    : BitVec 2
  c       : BitVec 2
  dgen    : Word
  ueUp    : Bool
  hold    : BitVec 16
  tbctl   : Dword
  mcmbox  : Cells 64
  lstate  : Cells 16
  /-- Cycle at which C1 was entered (R482). -/
  hungAt  : Nat
  /-- Last heartbeat of each cluster's agent, in cycles (R482). -/
  beat    : Cells 64
  /-- Measured images: type, version, digest (R503, R505). -/
  meas    : List (Nat × Word × BitVec 256)
  /-- MC firmware has been accepted. -/
  mcOk    : Bool
  /-- Types of die firmware accepted (R503 step 4). -/
  dieOk   : List Nat
  rollback : Cells 32
  revoked : BitVec 4
  /-- The last attestation report (R505). -/
  report  : List Byte
deriving DecidableEq, Repr

/-- Entries of the logs that hardware and the MC keep, and interrupts to the driver (log 8). -/
inductive LogEntry
  | driverInterrupt (grid : Nat)
  | escalationInterrupt
  | terminationInterrupt
  | lostWrite (peer pa : Nat) (mask : BitVec 128)
  | uncorrectable (pa : Nat)
  | completionFailed (grid : Nat)
  | refusedGrid (grid : Nat)
  | privilegeGrid (grid : Nat)
  | exitRecordFailed (grid l : Nat)
  | fenced (core cls : Nat)
  | winnow (core : Nat)
  | crcDiscard
deriving DecidableEq, Repr

/-- The state of the package. -/
structure State where
  /-- The pod that issues, and its team; the id of a grid 0 means that there is none. -/
  pod   : Pod
  team  : Team
  /-- Every other pod and team. -/
  pods  : List Pod
  teams : List Team
  /-- Physical memory: HBM4E and the second tier (R290, R302). -/
  mem   : List Host.Cell
  /-- Bytes whose memory still holds an earlier value because L2 holds the write (R337, R484). -/
  stale : List Host.Cell
  /-- Physical addresses that return uncorrectable data (R311). -/
  poison : List Nat
  /-- Sheller TLBs, cluster TLBs and the walk cache (R299). -/
  tlb    : List TlbEntry
  ctlb   : List TlbEntry
  wcache : List WalkEntry
  /-- The fetch lines of the instruction caches (R61, R238). -/
  icache : List FetchLine
  /-- The lines that L1 data caches hold: core and line address. What they hold is what home holds (R301, R317). -/
  l1     : List (Nat × Nat)
  /-- Constant-cache lines: cluster * 2^52 + line address, and the bytes (R309). -/
  ccache : List (Nat × BitVec 1024)
  rcbuf  : List Remote
  /-- CAPM of the cores whose value is no longer the fuses' (R466). -/
  capm   : List (Nat × BitVec 256)
  /-- Core event counters and selectors, index core * 8 + n; the snapshot set (R510, R513). -/
  ecnt   : Cells 48
  esel   : Cells 8
  esnap  : Cells 48
  /-- Counters of L2 slices (slice * 8 + n) and of the Husk (1024 + n) (R510). -/
  fcnt   : Cells 48
  fsel   : Cells 8
  rcnt   : Cells 32
  /-- Acorn (R454): black flags of cores, colours at the last pass, cluster tokens and flags, positions, the die token. -/
  acornBlack  : BitVec 2048
  acornPass   : BitVec 2048
  acornToken  : BitVec 64
  acornCBlack : BitVec 64
  acornQuiet  : BitVec 64
  acornTerm   : BitVec 64
  acornPos    : Cells 8
  dieToken    : Bool
  diePos      : Nat
  diePass     : BitVec 64
  dieTerm     : Bool
  acornst     : Bool
  /-- The pod that holds the serial token (R358). -/
  serial : Option PodId
  ops    : List Op
  nextToken : Nat
  colls  : List Collective
  nextColl : Nat
  grids  : List Grid
  nextGrid : Nat
  queues : List Queue
  wqbase : Dword
  wqarg  : Dword
  wqstatus : BitVec 3
  xlinv  : Dword
  xlbusy : Bool
  escPending : List EscRecord
  escbase : Dword
  escsize : Nat
  eschead : Word
  esctail : Word
  dbgFifo : List Word
  dbgIn   : Option Word
  /-- Mapping quanta that have begun (R443). -/
  quantum : Nat
  /-- Cycle until which issue is held (R12). -/
  hold   : Nat
  husk   : Husk
  links  : List Link
  /-- STV1 and STV2 by port (R510). -/
  stv1   : Cells 32
  stv2   : Cells 32
  orph   : Word
  outReq : List OutReq
  nextSeq : Cells 32
  /-- Messages of other packages in the crossbar that wait for an output port (R485, R495): the port and the message. -/
  xbar   : List (Nat × Message)
  /-- Completed sequences by source, with the kept response and the cycle (R493). -/
  e2eDone : List (Nat × Word × List Byte × Nat)
  /-- Responses to requests of peers that have not left yet (R487, R491). -/
  replies : List Reply
  /-- Requests whose resends have ended in REMOTE_FAULT, by destination and sequence (R488). -/
  spent   : List (Nat × Word)
  /-- Requests of peers that the die has accepted and not answered: they wait for a locked line (R363, R489). -/
  accepted : List Message
  /-- Access-table regions: target * 64 + index (R501). -/
  acc    : List (Nat × Region)
  /-- Regions written while ACCCTL.BUSY reads 1 (R502). -/
  accNew : List (Nat × Region)
  accBusy : Bool
  wqpart : Cells 8
  ueep   : Cells 256
  uefg   : Cells 16
  log    : List LogEntry
  cycle  : Nat
  /-- Steps taken, and %time (R497). -/
  tick   : Nat
  time   : Dword
  /-- The next index of `Config.free` (log 7). -/
  free   : Nat
  /-- Counts changes that can end a wait. -/
  progress : Nat
  /-- Events of other agents and of the outside that are still to come (log 6). -/
  inputs : List Instr
deriving DecidableEq, Repr

/-- No scheduling history. -/
def Sched.init : Sched :=
  { active := false, entered := 0, last := 0, demoted := none, spinAddr := 0, spinCount := 0, pending := 0 }

/-- A team identity that names no team: no grid has identifier 0 (R446). -/
def noTeam : TeamId := ⟨0, 0, 0⟩

/-- A pod at the values of placement (R102 to R119), with no thread. -/
def Pod.blank (id : PodId) (width : Nat) : Pod where
  id := id
  width := width
  v := []
  tags := []
  k := []
  p := []
  g := []
  h := []
  q := []
  flags := []
  fl := 0
  cause := 0
  tix := 0
  tpc := 0
  seed := []
  prio := 0
  prioMax := 0
  user := []
  loops := []
  trap := []
  trapLoops := []
  exited := 0
  handlers := 0
  trapLevel := false
  bank := []
  tx := []
  pend := []
  deferred := []
  serial := 0
  wait := none
  raised := none
  reasons := []
  resumeAt := none
  inside := false
  syncDone := 0
  arrived := false
  collDone := 0
  joined := []
  joinedAt := []
  startCtl := []
  waited := false
  phased := false
  done := false
  halted := false
  stepping := false
  bpPass := none
  ofence := 0
  bad := []
  sched := Sched.init

/-- A kernel header with nothing declared. -/
def Kernel.blank : Kernel where
  khdr := 0
  decode := 3
  width := 16
  restart := false
  shadow := false
  twin := false
  super := false
  winnow := false
  pinned := false
  pin := 0
  xpods := 0
  apods := 0
  xregs := 0
  aregs := 0
  xkregs := 0
  akregs := 0
  xentry := 0
  aentry := 0
  codeLo := 0
  codeLen := 0
  oum := 0
  xcarryv := []
  acarryv := []
  xcarryk := 0
  acarryk := 0
  shared := 0
  stash := 0
  tiles := 0
  rings := []
  vectors := []

/-- A team at the values of placement, with no kernel. -/
def Team.blank (id : TeamId) (k : Kernel) : Team where
  id := id
  kernel := k
  x := 0
  y := 0
  z := 0
  nteam := 0
  depth := 1
  queue := 0
  asn := 0
  ptroot := 0
  args := 0
  prec := 0
  core := 0
  place := .exited
  start := 0
  phase := 0
  irrev := false
  ctag := 0
  shared := []
  badShared := []
  stash := []
  rcb := []
  rings := []
  tiles := []
  tileAt := []
  oldShared := []
  xchg := []
  insts := []
  syncN := 0
  trxN := 0
  tranN := 0
  children := 0
  mailboxes := []
  fetched := false
  handed := []
  watch := none
  bps := []
  halted := false
  saving := none
  stopped := false
  stuck := none
  lost := false
  sums := []
  single := false
  matched := false
  avoid := []
  kept := []
  placed := 0
  outstanding := 0
  recorded := false

/-- The Husk after package reset (R480, R494, R507): H2 and C2 at rest. -/
def Husk.reset : Husk where
  h := 2
  htgt := 2
  c := 2
  dgen := 0
  ueUp := false
  hold := 0
  tbctl := 0
  mcmbox := []
  lstate := []
  hungAt := 0
  beat := []
  meas := []
  mcOk := false
  dieOk := []
  rollback := []
  revoked := 0
  report := []

/-- The package right after package reset (R483, R486): no team, every queue disabled, every table empty. -/
def State.reset : State where
  pod := Pod.blank ⟨noTeam, .execute, 0⟩ 16
  team := Team.blank noTeam Kernel.blank
  pods := []
  teams := []
  mem := []
  stale := []
  poison := []
  tlb := []
  ctlb := []
  wcache := []
  icache := []
  l1 := []
  ccache := []
  rcbuf := []
  capm := []
  ecnt := []
  esel := []
  esnap := []
  fcnt := []
  fsel := []
  rcnt := []
  acornBlack := 0
  acornPass := 0
  acornToken := 0
  acornCBlack := 0
  acornQuiet := 0
  acornTerm := 0
  acornPos := []
  dieToken := false
  diePos := 0
  diePass := 0
  dieTerm := false
  acornst := false
  serial := none
  ops := []
  nextToken := 1
  colls := []
  nextColl := 1
  grids := []
  nextGrid := 1
  queues := []
  wqbase := 0
  wqarg := 0
  wqstatus := 0
  xlinv := 0
  xlbusy := false
  escPending := []
  escbase := 0
  escsize := 4
  eschead := 0
  esctail := 0
  dbgFifo := []
  dbgIn := none
  quantum := 0
  hold := 0
  husk := Husk.reset
  links := []
  stv1 := []
  stv2 := []
  orph := 0
  outReq := []
  nextSeq := []
  xbar := []
  e2eDone := []
  replies := []
  spent := []
  accepted := []
  acc := []
  accNew := []
  accBusy := false
  wqpart := []
  ueep := []
  uefg := []
  log := []
  cycle := 0
  tick := 0
  time := 0
  free := 0
  progress := 0
  inputs := []

end Sys2Proof.Machine
end

