-- ==== Sys2Proof/Machine/Ops.lean ====
section
/-! DEFINITION. The named operations over sparse cells, registers, thread control, flags and loops; taking an exception
(R264 to R272) and returning from it (R248, R268). -/
namespace Sys2Proof.Machine

/-! ## Sparse maps -/

/-- Reads a sparse map with default `d`. -/
def look {α : Type} (d : α) : List (Nat × α) → Nat → α
  | [], _ => d
  | (j, x) :: c, i => if i = j then x else look d c i

/-- Removes index `i` from a sparse map. -/
def erase {α : Type} (i : Nat) : List (Nat × α) → List (Nat × α)
  | [] => []
  | (j, x) :: c => if i = j then erase i c else (j, x) :: erase i c

/-- Writes a sparse map with default `d`; indices stay strictly rising and no entry holds `d`. -/
def store {α : Type} [DecidableEq α] (d : α) : List (Nat × α) → Nat → α → List (Nat × α)
  | [], i, y => if y = d then [] else [(i, y)]
  | (j, x) :: c, i, y =>
    if y = d then erase i ((j, x) :: c)
    else if i < j then (i, y) :: (j, x) :: c
    else if i = j then (i, y) :: c
    else (j, x) :: store d c i y

/-- The canonical form: indices above `lo` strictly rising, no entry equal to the default. -/
def sortedFrom {α : Type} [DecidableEq α] (d : α) : Nat → List (Nat × α) → Bool
  | _, [] => true
  | lo, (j, x) :: c => decide (lo ≤ j) && decide (x ≠ d) && sortedFrom d (j + 1) c

/-- Reads a cell; an absent one is zero. -/
def Cells.get {w : Nat} (c : Cells w) (i : Nat) : BitVec w := look 0 c i

/-- Writes a cell. -/
def Cells.set {w : Nat} (c : Cells w) (i : Nat) (x : BitVec w) : Cells w := store 0 c i x

/-- Puts an element into a sorted list, before its equals. -/
def insertBy {α : Type} (le : α → α → Bool) (x : α) : List α → List α
  | [] => [x]
  | y :: ys => if le x y then x :: y :: ys else y :: insertBy le x ys

/-- A stable sort. -/
def sortBy {α : Type} (le : α → α → Bool) : List α → List α
  | [] => []
  | x :: xs => insertBy le x (sortBy le xs)

/-! ## Bytes -/

/-- The `n` low bytes of a number, little-endian (R3). -/
def toBytes : Nat → Nat → List Byte
  | 0, _ => []
  | n + 1, v => BitVec.ofNat 8 v :: toBytes n (v / 256)

/-- The number that little-endian bytes hold (R3). -/
def ofBytes : List Byte → Nat
  | [] => 0
  | b :: bs => b.toNat + 256 * ofBytes bs

/-- Bytes `off` to `off + n - 1` of a record as a number. -/
def field (bs : List Byte) (off n : Nat) : Nat := ofBytes ((bs.drop off).take n)

/-- Bit `i` of a number. -/
def bit (v i : Nat) : Bool := v.testBit i

/-- Bits `lo` to `lo + n - 1` of a number. -/
def bits (v lo n : Nat) : Nat := v / 2 ^ lo % 2 ^ n

/-- Two's-complement reading of the `w` low bits. -/
def signed (w v : Nat) : Int :=
  let m := v % 2 ^ w
  if 2 * m < 2 ^ w then (m : Int) else (m : Int) - (2 ^ w : Nat)

/-- The `w` low bits of an integer. -/
def wrap (w : Nat) (x : Int) : Nat := (x % (2 ^ w : Nat)).toNat

/-! ## Thread sets -/

/-- The set of one thread. -/
def one (t : Nat) : Mask := BitVec.ofNat 128 (2 ^ t)

/-- The set of a list of threads. -/
def maskOf (l : List Nat) : Mask := l.foldl (fun m t => m ||| one t) 0

/-- The threads of a set below the width, ascending. -/
def threadsOf (w : Nat) (m : Mask) : List Nat := (List.range w).filter fun t => m.getLsbD t

/-- All threads of a width. -/
def full (w : Nat) : Mask := BitVec.ofNat 128 (2 ^ w - 1)

/-! ## Pods and teams of the state -/

/-- Every pod, the issuing one first. -/
def State.allPods (s : State) : List Pod := s.pod :: s.pods

/-- Every team, that of the issuing pod first. -/
def State.allTeams (s : State) : List Team := s.team :: s.teams

/-- A pod by identity. -/
def State.findPod (s : State) (p : PodId) : Option Pod := s.allPods.find? fun x => x.id = p

/-- A team by identity; grid 0 names none. -/
def State.findTeam (s : State) (t : TeamId) : Option Team :=
  if t.grid = 0 then none else s.allTeams.find? fun x => x.id = t

/-- The pods of a team. -/
def State.podsOf (s : State) (t : TeamId) : List Pod := s.allPods.filter fun x => x.id.team = t

/-- Changes every pod. -/
def State.mapPods (s : State) (f : Pod → Pod) : State := { s with pod := f s.pod, pods := s.pods.map f }

/-- Changes every team. -/
def State.mapTeams (s : State) (f : Team → Team) : State := { s with team := f s.team, teams := s.teams.map f }

/-- Changes one pod. -/
def State.onPod (s : State) (p : PodId) (f : Pod → Pod) : State := s.mapPods fun x => if x.id = p then f x else x

/-- Changes one team. -/
def State.onTeam (s : State) (t : TeamId) (f : Team → Team) : State := s.mapTeams fun x => if x.id = t then f x else x

/-- Changes the issuing pod. -/
def State.setPod (s : State) (p : Pod) : State := { s with pod := p }

/-- Changes the team of the issuing pod. -/
def State.setTeam (s : State) (t : Team) : State := { s with team := t }

/-- Makes a pod and its team the issuing ones; an absent pod changes nothing. -/
def State.switchTo (s : State) (p : PodId) : State :=
  match s.findPod p with
  | none => s
  | some x =>
    let s' := { s with pod := x, pods := s.allPods.filter fun y => y.id ≠ p }
    match s.allTeams.find? fun y => y.id = p.team with
    | none => s'
    | some t => { s' with team := t, teams := s.allTeams.filter fun y => y.id ≠ p.team }

/-- No pod and no team issues: both go back among the others. -/
def State.park (s : State) : State :=
  { s with pod := State.reset.pod, team := State.reset.team, pods := s.allPods.filter fun y => y.id.team.grid ≠ 0,
           teams := s.allTeams.filter fun y => y.id.grid ≠ 0 }

/-- A choice among `n` that the manual leaves open (log 7), and the state whose next choice is another. -/
def State.choose (s : State) (n : Nat) : Nat × State := (Config.free s.free % n, { s with free := s.free + 1 })

/-- Records a log entry or an interrupt (log 8). -/
def State.note (s : State) (e : LogEntry) : State := { s with log := s.log ++ [e] }

/-- Something changed that can end a wait. -/
def State.tickle (s : State) : State := { s with progress := s.progress + 1 }

/-- Cluster of a core (R13). -/
def clusterOf (core : Nat) : Nat := core / 32

/-- Twin half of a pod (R27). -/
def Team.halfOf (t : Team) (p : PodId) : Nat := if t.kernel.twin then p.idx % 2 else 0

/-- Core of a pod (R27): the half of the twin on which it lies. -/
def Team.coreOf (t : Team) (p : PodId) : Nat := t.core + t.halfOf p

/-- Lane of a pod (R27). -/
def Team.laneOf (t : Team) (p : PodId) : Nat :=
  let i := if t.kernel.twin then p.idx / 2 else p.idx
  match p.slice with
  | .execute => i % 8
  | .access => i % 4

/-- Cores that a team occupies. -/
def Team.cores (t : Team) : List Nat := if t.kernel.twin then [t.core, t.core + 1] else [t.core]

/-- The .regs count of a slice (R103). -/
def Kernel.regs (k : Kernel) : Slice → Nat
  | .execute => k.xregs
  | .access => k.aregs

/-- The .kregs count of a slice. -/
def Kernel.kregs (k : Kernel) : Slice → Nat
  | .execute => k.xkregs
  | .access => k.akregs

/-- The pods of a slice (%npod). -/
def Kernel.npods (k : Kernel) : Slice → Nat
  | .execute => k.xpods
  | .access => k.apods

/-- %slice (R29). -/
def sliceNo : Slice → Nat
  | .execute => 0
  | .access => 1

/-! ## Capability masks (R464, R466) -/

/-- CAPM of a core: the fuses until the MC writes it (R466). -/
def State.capmOf (s : State) (core : Nat) : BitVec 256 :=
  match s.capm.find? fun x => x.1 = core with
  | some x => x.2
  | none => Config.fenceFuses core

/-! ## Event counters (R511) -/

/-- Adds one event to the counters of a core that select it (R511). -/
def State.countEvent (s : State) (core code : Nat) : State :=
  (List.range 8).foldl (fun s i =>
    if (s.esel.get (core * 8 + i)).toNat = code then
      { s with ecnt := s.ecnt.set (core * 8 + i) (s.ecnt.get (core * 8 + i) + 1) } else s) s

/-! ## Registers -/

/-- v register `r` of thread `t` (R102). -/
def Pod.rdV (p : Pod) (t r : Nat) : Word := p.v.get (t * 1024 + r)

/-- Writes v register `r` of thread `t`, leaving its tag. -/
def Pod.wrV (p : Pod) (t r : Nat) (x : Word) : Pod :=
  { p with v := p.v.set (t * 1024 + r) x, bad := p.bad.filter (· != t * 1024 + r) }

/-- The tag of a register (R105). -/
def Pod.tagOf (p : Pod) (r : Nat) : BitVec 5 := p.tags.get r

/-- Sets the tag of `n` registers from `r` (R107). -/
def Pod.wrTags (p : Pod) (tag : BitVec 5) (r : Nat) : Nat → Pod
  | 0 => p
  | n + 1 => { p.wrTags tag r n with tags := (p.wrTags tag r n).tags.set (r + n) tag }

/-- `n` registers from `r` of thread `t` as one number, the lowest register in the low bits (R104). -/
def Pod.rdRun (p : Pod) (t r : Nat) : Nat → Nat
  | 0 => 0
  | n + 1 => (p.rdV t r).toNat + 2 ^ 32 * p.rdRun t (r + 1) n

/-- Writes `n` registers from `r` of thread `t` from one number (R104). -/
def Pod.wrRun (p : Pod) (t r : Nat) : Nat → Nat → Pod
  | 0, _ => p
  | n + 1, x => (p.wrV t r (BitVec.ofNat 32 x)).wrRun t (r + 1) n (x / 2 ^ 32)

/-- k register `r`: the trap bank in place of k60 to k63 at trap level (R264). -/
def Pod.rdK (p : Pod) (r : Nat) : Word := if p.trapLevel && decide (60 ≤ r) then p.bank.get (r - 60) else p.k.get r

/-- Writes a k register (R110, R264). -/
def Pod.wrK (p : Pod) (r : Nat) (x : Word) : Pod :=
  if p.trapLevel && decide (60 ≤ r) then { p with bank := p.bank.set (r - 60) x }
  else { p with k := p.k.set r x, bad := p.bad.filter (· != 2 ^ 20 + r) }

/-- `n` k registers from `r` as one number. -/
def Pod.rdKRun (p : Pod) (r : Nat) : Nat → Nat
  | 0 => 0
  | n + 1 => (p.rdK r).toNat + 2 ^ 32 * p.rdKRun (r + 1) n

/-- Writes `n` k registers from `r` from one number. -/
def Pod.wrKRun (p : Pod) (r : Nat) : Nat → Nat → Pod
  | 0, _ => p
  | n + 1, x => (p.wrK r (BitVec.ofNat 32 x)).wrKRun (r + 1) n (x / 2 ^ 32)

/-- Predicate `n` of every thread; p0 is true (R110). -/
def Pod.predMask (p : Pod) (n : Nat) : Mask := if n = 0 then full p.width else p.p.get n

/-- Writes predicate `n` in the threads of `m` from `x`; p0 cannot be written (R110). -/
def Pod.wrPred (p : Pod) (n : Nat) (m x : Mask) : Pod :=
  if n = 0 then p else { p with p := p.p.set n ((p.p.get n &&& ~~~m) ||| (x &&& m)) }

/-- Group mask `n`; in narrow-pod mode the bits above bit 7 read as zero (R110). -/
def Pod.rdG (p : Pod) (n : Nat) : Mask := p.g.get n &&& full p.width

/-- Writes a group mask (R110). -/
def Pod.wrG (p : Pod) (n : Nat) (x : Mask) : Pod := { p with g := p.g.set n (x &&& full p.width) }

/-- Raises sticky conditions in %fl (R115). -/
def Pod.raiseFl (p : Pod) (c : BitVec 6) : Pod := { p with fl := p.fl ||| c }

/-- The ring that a port is bound to (R111). -/
def Pod.ringOf (p : Pod) (port : Nat) : Option Nat := (p.q.find? fun x => x.1 = port).map (·.2)

/-- A ring of a team. -/
def Team.ring (t : Team) (r : Nat) : Option Ring := t.rings[r]?

/-- Replaces a ring; a change of its counts restarts the count of QUEUE_DEADLOCK (R383). -/
def Team.setRing (t : Team) (r : Nat) (x : Ring) : Team :=
  let same := match t.ring r with
    | some y => y.prd == x.prd && y.pub == x.pub && y.con == x.con
    | none => true
  { t with rings := t.rings.set r x, stuck := if same then t.stuck else none }

/-! ## Completion flags (R36, R66) -/

/-- `n` outstanding operations name flag `f`; 15 names none. -/
def Pod.nameFlag (p : Pod) (f : BitVec 4) (n : Nat) : Pod :=
  if f.toNat < 12 then { p with flags := p.flags.set f.toNat (p.flags.get f.toNat + BitVec.ofNat 16 n) } else p

/-- One outstanding naming of flag `f` ends. -/
def Pod.dropFlag (p : Pod) (f : BitVec 4) : Pod :=
  if f.toNat < 12 then { p with flags := p.flags.set f.toNat (p.flags.get f.toNat - 1) } else p

/-- The flags that are set, as a mask of f0 to f11. -/
def Pod.flagMask (p : Pod) : BitVec 12 :=
  (List.range 12).foldl (fun m i => if p.flags.get i = 0 then m else m ||| BitVec.ofNat 12 (2 ^ i)) 0

/-- The flag named by a hint, as a mask. -/
def flagBit (f : BitVec 4) : BitVec 12 := if f.toNat < 12 then BitVec.ofNat 12 (2 ^ f.toNat) else 0

/-! ## Thread control and the frontier (R41, R232) -/

/-- The control state of the level at which the pod runs (R263). -/
def Pod.ctl (p : Pod) : List ThreadCtl := if p.trapLevel then p.trap else p.user

/-- Replaces the control state of the current level. -/
def Pod.setCtl (p : Pod) (c : List ThreadCtl) : Pod := if p.trapLevel then { p with trap := c } else { p with user := c }

/-- The loop stack of the current level, top first. -/
def Pod.loopStack (p : Pod) : List LoopEntry := if p.trapLevel then p.trapLoops else p.loops

/-- Replaces the loop stack of the current level. -/
def Pod.setLoops (p : Pod) (l : List LoopEntry) : Pod :=
  if p.trapLevel then { p with trapLoops := l } else { p with loops := l }

/-- The threads that can run at the current level: not exited, and handler threads at trap level (R266). -/
def Pod.live (p : Pod) : Mask :=
  let m := full p.width &&& ~~~p.exited
  if p.trapLevel then m &&& p.handlers else m

/-- Whether the second thread goes before the first: greater depth, then lower PC (R41). -/
def ThreadCtl.before (a b : ThreadCtl) : Bool :=
  decide (a.depth < b.depth) || (decide (a.depth = b.depth) && decide (b.pc.toNat < a.pc.toNat))

/-- The frontier of a list of threads numbered from `t` (R41). -/
def frontierFrom (live : Mask) : Nat → List ThreadCtl → Option ThreadCtl
  | _, [] => none
  | t, c :: cs =>
    match frontierFrom live (t + 1) cs with
    | none => if live.getLsbD t then some c else none
    | some d => if live.getLsbD t && !c.before d then some c else some d

/-- The frontier: greatest call depth, then lowest PC, among the live threads (R41). -/
def Pod.frontier (p : Pod) : Option ThreadCtl := frontierFrom p.live 0 p.ctl

/-- The threads numbered from `t` that stand at `f`. -/
def standingAt (live : Mask) (f : ThreadCtl) : Nat → List ThreadCtl → Mask
  | _, [] => 0
  | t, c :: cs => (if live.getLsbD t && decide (c = f) then one t else 0) ||| standingAt live f (t + 1) cs

/-- The active threads (R41). -/
def Pod.active (p : Pod) : Mask :=
  match p.frontier with
  | none => 0
  | some f => standingAt p.live f 0 p.ctl

/-- The frontier's PC; 0 for a pod with no live thread. -/
def Pod.pc (p : Pod) : Dword :=
  match p.frontier with
  | none => 0
  | some f => f.pc

/-- The frontier's call depth. -/
def Pod.depth (p : Pod) : Nat :=
  match p.frontier with
  | none => 0
  | some f => f.depth

/-- Changes the control state of the threads of a set, numbered from `t`. -/
def mapCtl (m : Mask) (f : Nat → ThreadCtl → ThreadCtl) : Nat → List ThreadCtl → List ThreadCtl
  | _, [] => []
  | t, c :: cs => (if m.getLsbD t then f t c else c) :: mapCtl m f (t + 1) cs

/-- Changes the control state of the threads of a set. -/
def Pod.onCtl (p : Pod) (m : Mask) (f : Nat → ThreadCtl → ThreadCtl) : Pod := p.setCtl (mapCtl m f 0 p.ctl)

/-- Moves the threads of a set to an address. -/
def Pod.goto (p : Pod) (m : Mask) (pc : Dword) : Pod := p.onCtl m fun _ c => { c with pc := pc }

/-- The threads at or above `t`. -/
def fromThread (t : Nat) : Mask := BitVec.ofNat 128 (2 ^ 128 - 2 ^ t)

/-- Threads whose guard is true: predicate `pred`, negated or not (R65). -/
def Pod.guardMask (p : Pod) (h : Head) : Mask :=
  let m := p.predMask h.pred.toNat
  if h.neg then full p.width &&& ~~~m else m

/-- The threads that have left their transactions in the instruction that the pod has not completed (R262, R359). -/
def Pod.leavers (p : Pod) : Mask := maskOf ((p.tx.filter fun x => x.leaving && x.trap == p.trapLevel).map (·.thread))

/-- The effective threads of an instruction at `pc` (R32), at or above the resumption thread (R38, R262). -/
def Pod.effective (p : Pod) (h : Head) : Mask :=
  let m := p.active &&& p.guardMask h &&& ~~~p.leavers
  match p.resumeAt with
  | some (a, t) => if a = p.pc then m &&& fromThread t else m
  | none => m

/-! ## Hardware loops (R240, R242) -/

/-- Whether an address lies in a loop body. -/
def LoopEntry.covers (e : LoopEntry) (a : Dword) : Bool :=
  decide (e.start.toNat ≤ a.toNat) && decide (a.toNat ≤ e.last.toNat)

/-- Pops the lowest entry that satisfies `bad`, together with every entry above it; the list has the top first. -/
def popBelow (bad : LoopEntry → Bool) : List LoopEntry → List LoopEntry
  | [] => []
  | e :: l =>
    let l' := popBelow bad l
    if l'.length < l.length then l' else if bad e then l else e :: l

/-- The departure rule for a branch from `this` to `tgt` at depth `d` (R242). -/
def departs (this tgt : Dword) (d : Nat) (e : LoopEntry) : Bool :=
  decide (e.depth = d) && e.covers this && !e.covers tgt

/-- Whether no thread numbered from `t` is in the body of an entry or at a greater depth (R242). -/
def noneInside (live : Mask) (e : LoopEntry) : Nat → List ThreadCtl → Bool
  | _, [] => true
  | t, c :: cs =>
    !(live.getLsbD t && ((decide (c.depth = e.depth) && e.covers c.pc) || decide (e.depth < c.depth))) &&
      noneInside live e (t + 1) cs

/-- The emptying rule, applied after any instruction (R242). -/
def Pod.popEmpty (p : Pod) : Pod := p.setLoops (popBelow (fun e => noneInside p.live e 0 p.ctl) p.loopStack)

/-- Whether the top of a loop stack has its end at `this` and depth `d`. -/
def topEnds (this : Dword) (d : Nat) : List LoopEntry → Bool
  | [] => false
  | e :: _ => decide (e.last = this) && decide (e.depth = d)

/-- The back-edge rule at `this` and depth `d` for the set F (R240): it applies to the top entry that matches, and once that is popped,
to the new top one; the new stack, and where F goes if it goes back. An entry that is popped takes those above it with it. -/
def backEdge (this : Dword) (d : Nat) : List LoopEntry → List LoopEntry × Option Dword
  | [] => ([], none)
  | e :: l =>
    if e.last = this ∧ e.depth = d then
      if e.count = 1 then (if topEnds this d l then backEdge this d l else (l, none)) else ({ e with count := e.count - 1 } :: l, some e.start)
    else
      let (l', a) := backEdge this d l
      if l'.length < l.length then (l', a) else (e :: l', a)

/-- Completes an instruction (R41, R240, R242): the active threads outside `moved` advance or take the back-edge, and emptied
loops are popped. -/
def Pod.retire (p : Pod) (this : Dword) (d : Nat) (act moved : Mask) : Pod :=
  let stay := act &&& ~~~moved &&& ~~~p.exited
  let p' :=
    if stay = 0 then p
    else
      match backEdge this d p.loopStack with
      | (l, some a) => (p.setLoops l).goto stay a
      | (l, none) => (p.setLoops l).goto stay (this + 12)
  p'.popEmpty

/-- Looks at or changes a pod at the level of an issue: at trap level k60 to k63 are the bank (R264). -/
def Pod.atLevel (p : Pod) (trap : Bool) (f : Pod → Pod) : Pod := { f { p with trapLevel := trap } with trapLevel := p.trapLevel }

/-- The threads whose transactions aborted in the instruction that completes go back to the instruction after their TXB (R262, R359). -/
def Pod.leaveTx (p : Pod) : Pod :=
  match p.tx.filter fun x => x.leaving && x.trap == p.trapLevel with
  | [] => p
  | gone =>
    let p := gone.foldl (fun (p : Pod) x => p.goto (one x.thread) x.resume) p
    { p with tx := p.tx.map fun x => if x.trap = p.trapLevel then { x with leaving := false } else x }

/-- The transaction state of a thread. -/
def Pod.txOf (p : Pod) (t : Nat) : Option TxThread := p.tx.find? fun x => x.thread = t

/-- Whether a thread is in a transaction. -/
def Pod.inTx (p : Pod) (t : Nat) : Bool :=
  match p.txOf t with
  | some x => x.inTx
  | none => false

/-- The state of a thread that has made no transaction. -/
def TxThread.blank (t : Nat) : TxThread :=
  { thread := t, inTx := false, serial := false, due := false, count := 0, clashes := 0, status := 0, resume := 0, dst := 0,
    reads := [], writes := [] }

/-- Replaces the transaction state of a thread. -/
def Pod.setTx (p : Pod) (x : TxThread) : Pod :=
  { p with tx := (p.tx.filter fun y => y.thread < x.thread) ++ [x] ++ (p.tx.filter fun y => x.thread < y.thread) }

/-- Whether a pod has a serial transaction open. -/
def Pod.serialOpen (p : Pod) : Bool := p.tx.any fun x => x.inTx && x.serial

/-- Releases the serial token when no serial thread of its holder, the issuing pod, is left (R363). -/
def State.freeToken (s : State) : State :=
  if s.serial = some s.pod.id ∧ ¬s.pod.serialOpen then ({ s with serial := none } : State).tickle else s

/-- Releases the serial token when no serial thread of its holder is left (R363). -/
def State.dropToken (s : State) : State :=
  match s.serial.bind s.findPod with
  | none => s
  | some q => if q.serialOpen then s else ({ s with serial := none } : State).tickle

/-- Aborts the transaction of a thread with a status code and its code or cause number (R359). The thread goes back when the
instruction under way completes (R262). -/
def Pod.abortTx (p : Pod) (t code extra : Nat) : Pod :=
  match p.txOf t with
  | none => p
  | some x =>
    let n := min 255 (x.count + 1)
    let k := if code = 1 ∨ code = 2 then x.clashes + 1 else x.clashes
    let due := x.due || decide (16 ≤ k)
    let st : Word := BitVec.ofNat 32 (code + 2 ^ 8 * (extra % 256) + (if due then 2 ^ 16 else 0) + 2 ^ 24 * n)
    let p := p.setTx { x with inTx := false, serial := false, due := due, count := n, clashes := k, status := st,
                              leaving := true, reads := [], writes := [] }
    p.atLevel x.trap fun p => (p.wrV t x.dst st).wrTags 2 x.dst 1

/-- The same in the issuing pod, which may hold the serial token. -/
def State.abortTx (s : State) (t code extra : Nat) : State :=
  if (s.pod.txOf t).isSome then (s.setPod (s.pod.abortTx t code extra)).freeToken else s

/-! ## Causes (R260) -/

/-- The bit of a cause (R260). -/
def Cause.bit : Cause → Nat
  | .illegalOp => 0
  | .illegalOperand => 1
  | .formatMismatch => 2
  | .undeclaredOp => 3
  | .fencedOp => 4
  | .sliceViolation => 5
  | .misaligned => 6
  | .xlateFault => 7
  | .protection => 8
  | .stashBounds => 9
  | .tierMiss => 10
  | .memUncorrectable => 11
  | .queueDeadlock => 12
  | .handleInvalid => 13
  | .engineFault => 14
  | .remoteFault => 15
  | .nestDepth => 16
  | .breakpoint => 17
  | .watchpoint => 18
  | .singleStep => 19
  | .trapInstr => 20
  | .linkStub => 21
  | .preempt => 22
  | .phaseOverflow => 23
  | .irrevocableAbort => 24
  | .timeout => 25
  | .illegalModifier => 26
  | .illegalScope => 27
  | .privilege => 28
  | .debugHalt => 29
  | .pcMisalign => 30
  | .software n => 48 + n % 16

/-- The cause of a bit; a reserved bit reads as a software cause of the same bit. -/
def causeOfBit : Nat → Cause
  | 0 => .illegalOp
  | 1 => .illegalOperand
  | 2 => .formatMismatch
  | 3 => .undeclaredOp
  | 4 => .fencedOp
  | 5 => .sliceViolation
  | 6 => .misaligned
  | 7 => .xlateFault
  | 8 => .protection
  | 9 => .stashBounds
  | 10 => .tierMiss
  | 11 => .memUncorrectable
  | 12 => .queueDeadlock
  | 13 => .handleInvalid
  | 14 => .engineFault
  | 15 => .remoteFault
  | 16 => .nestDepth
  | 17 => .breakpoint
  | 18 => .watchpoint
  | 19 => .singleStep
  | 20 => .trapInstr
  | 21 => .linkStub
  | 22 => .preempt
  | 23 => .phaseOverflow
  | 24 => .irrevocableAbort
  | 25 => .timeout
  | 26 => .illegalModifier
  | 27 => .illegalScope
  | 28 => .privilege
  | 29 => .debugHalt
  | 30 => .pcMisalign
  | n => .software n

/-- The classes of R260. -/
inductive CauseClass
  | u | s | d | h
deriving DecidableEq, Repr

/-- The class of a cause; LINK_STUB is U for access pods and S for execute pods (R260). -/
def Cause.cls (sl : Slice) : Cause → CauseClass
  | .fencedOp | .preempt | .debugHalt => .h
  | .breakpoint | .watchpoint | .singleStep => .d
  | .xlateFault | .protection | .memUncorrectable | .phaseOverflow | .irrevocableAbort | .privilege => .s
  | .linkStub =>
    match sl with
    | .access => .u
    | .execute => .s
  | _ => .u

/-- The %cause mask of some causes. -/
def causeMask (cs : List Cause) : Dword := cs.foldl (fun m c => m ||| BitVec.ofNat 64 (2 ^ c.bit)) 0

/-- The handler address of a cause: its vector, else the default; 0 when neither is given (R265, R462). -/
def Kernel.vector (k : Kernel) (c : Cause) : Dword :=
  let v := (k.vectors[c.bit]?).getD 0
  if v = 0 then (k.vectors[64]?).getD 0 else v

/-- Whether the kernel's handler claims a cause raised in a slice (R265). -/
def Kernel.claims (k : Kernel) (sl : Slice) (c : Cause) : Bool :=
  k.vector c != 0 &&
    match c.cls sl with
    | .u => true
    | .s => k.super
    | .d | .h => false

/-! ## Taking an exception -/

/-- TDET of a trap (R264). -/
def TrapReq.det (r : TrapReq) : Word :=
  let lo := r.tix / 16 * 16
  let cause := match r.causes with
    | [] => 0
    | c :: _ => c.bit
  BitVec.ofNat 32 (bits r.mask.toNat lo 16 * 2 ^ 16 + r.field % 16 * 2 ^ 12 + cause)

/-- The 64 bytes of an escalation record, CTX still 0 (R272). At trap level the stop address and %tix are those of the first entry
(R270). -/
def escBytes (s : State) (p : Pod) (r : TrapReq) (kind : Nat) : List Byte :=
  let (pc, tix) := if p.trapLevel then (p.tpc, p.tix) else (r.pc, r.tix)
  toBytes 8 0 ++ toBytes 4 p.id.team.grid ++ toBytes 4 p.id.team.l ++ toBytes 8 p.cause.toNat ++ toBytes 8 (pc.toNat % 2 ^ 56) ++
    toBytes 1 (sliceNo p.id.slice) ++ toBytes 1 p.id.idx ++ toBytes 1 tix ++
    toBytes 1 (match r.causes with | [] => 0 | c :: _ => c.bit) ++ toBytes 4 kind ++ toBytes 4 r.det.toNat ++
    toBytes 4 r.arg.toNat ++ toBytes 8 r.addr.toNat ++ toBytes 8 s.time.toNat

/-- The bits of %cause that an escalation leaves: PREEMPT and DEBUG_HALT (R270). -/
def keptCauses : Dword := BitVec.ofNat 64 (2 ^ 22 + 2 ^ 29)

/-- The pods of a team: execute pods, then access pods, each in %pod order. -/
def State.orderedPods (s : State) (tid : TeamId) : List Pod :=
  let key := fun (p : Pod) => 64 * sliceNo p.id.slice + p.id.idx
  sortBy (fun a b => decide (key a ≤ key b)) (s.podsOf tid)

/-- A pod stops waiting, and withdraws an arrival and a poll (R231, R246, R383). -/
def Pod.unwait (p : Pod) : Pod :=
  { p with wait := none, arrived := false, phased := false, pend := p.pend.filter fun x => x.kind ≠ .poll && x.kind ≠ .check }

/-- The stopping point to which a pod resumes: an address and a thread (R38). -/
def Pod.stopAt (p : Pod) (pc : Dword) (tix : Nat) : Pod := { p with resumeAt := if tix = 0 then none else some (pc, tix) }

/-- The stop address and %tix that the record gives a pod (R38, R278). -/
def Pod.stopPoint (p : Pod) : Dword × Nat :=
  if p.done || p.trapLevel then (p.tpc, p.tix)
  else
    match p.resumeAt with
    | some x => x
    | none => (p.pc, 0)

/-- PREEMPT and DEBUG_HALT in %cause (R260). -/
def preemptBit : Dword := BitVec.ofNat 64 (2 ^ 22)
def debugBit : Dword := BitVec.ofNat 64 (2 ^ 29)

/-- A pod stops at an instruction boundary for PREEMPT or DEBUG_HALT (R246, R260, R274, R359): open transactions abort with status 6, a
wait is withdrawn, and at user level %tpc and %tix name the next instruction it would issue. -/
def Pod.stopHere (p : Pod) (bit : Dword) : Pod :=
  let p := (p.tx.filter fun x => x.inTx).foldl (fun (p : Pod) x => p.abortTx x.thread 6 0) p
  let p := if p.resumeAt.isSome && !p.trapLevel then p else p.leaveTx
  let (a, t) := p.stopPoint
  { p.unwait with cause := p.cause ||| bit, tpc := a, tix := t }

/-- Whether a pod waits at its team collective. -/
def Pod.atColl (p : Pod) : Bool := p.arrived && match p.wait with
  | some w => w.kind == .coll
  | none => false

/-- Whether every non-exited pod of the slice has arrived at the open instance (R230). -/
def State.collFull (s : State) (t : TeamId) (sl : Slice) : Bool :=
  (s.podsOf t).all fun p => !(p.id.slice == sl) || p.done || p.atColl

/-- Whether a pod is inside an instruction that it completes before it stops (R231, R273): some of its threads have acted, or every
non-exited pod of its slice has joined its TRED or TSCAN. -/
def State.midway (s : State) (p : Pod) : Bool := p.inside || p.atColl && s.collFull p.id.team p.id.slice

/-- Whether every pod of a team is at an instruction boundary, its trap entries complete (R273, R286). -/
def State.atBoundary (s : State) (t : TeamId) : Bool := (s.podsOf t).all fun p => !s.midway p && p.raised.isNone

/-- DEBUG_HALT in every pod of a team, as HALT sets it (R258, R271): one that is inside an instruction stops at the boundary, one whose
trap entry is under way after it (R286), and one that DSTEP lets issue at its own stop (R519). -/
def State.haltTeam (s : State) (t : TeamId) : State :=
  ((s.onTeam t fun x => { x with halted := true }).mapPods fun p =>
    if p.id.team = t ∧ ¬p.done ∧ ¬p.stepping then
      let q := if s.midway p then p else if p.raised.isSome then { p with cause := p.cause ||| debugBit } else p.stopHere debugBit
      { q with halted := true }
    else p).dropToken

/-- Places a record among those not yet written, in the order of raising (R270). -/
def insertEsc (e : EscRecord) (l : List EscRecord) : List EscRecord :=
  let key := fun (e : EscRecord) => (e.when_ * 2 + field e.bytes 0x20 1) * 256 + field e.bytes 0x21 1
  (l.filter fun x => key x ≤ key e) ++ e :: l.filter fun x => key e < key x

/-- Escalation of a trap of the issuing pod (R270, R271, R288). -/
def State.escalate (s : State) (r : TrapReq) (kind : Nat) : State :=
  let p := s.pod
  let cls := match r.causes with
    | [] => CauseClass.u
    | c :: _ => c.cls p.id.slice
  let debug := decide (cls = .d)
  let kind := if debug then 1 else if p.trapLevel && kind != 3 then 2 else kind
  let e : EscRecord := { team := p.id.team, bytes := escBytes s p r kind, when_ := r.when_ }
  let first := p.trapLevel
  let p := { p.unwait with
    cause := p.cause &&& keptCauses, trapLevel := false, handlers := 0, trap := [], trapLoops := [], stepping := false }
  let p := if first then p.stopAt p.tpc p.tix else p.stopAt r.pc r.tix
  let p := if debug then { p with bpPass := if r.causes = [.breakpoint] then some r.pc else p.bpPass } else p
  let s := { s.setPod p with escPending := insertEsc e s.escPending }
  if debug then s.haltTeam p.id.team
  else
    s.onTeam p.id.team fun t => { t with saving := match t.saving with
      | some (.escalate k) => some (.escalate k)
      | _ => some (.escalate kind) }

/-- A misaligned vector: PC_MISALIGN in place of the entry (R61; log 12). -/
def TrapReq.misvector (r : TrapReq) : TrapReq := { r with causes := .pcMisalign :: r.causes }

/-- Handler threads start at the vector (R266). -/
def Pod.enterHandler (p : Pod) (r : TrapReq) (vec : Dword) : Pod :=
  { p.unwait with
    trapLevel := true
    handlers := r.mask
    trap := (List.range p.width).map fun _ => ⟨vec, 0⟩
    trapLoops := []
    bank := (((Cells.set [] 0 r.det).set 1 r.arg).set 2 (r.addr.setWidth 32)).set 3 ((r.addr >>> 32).setWidth 32) }

/-- Trap entry, once the effects of lower threads are complete (R266). %cause, %tpc and %tix are already written. -/
def State.enterTrap (s : State) (r : TrapReq) : State :=
  let c := r.causes.headD .illegalOp
  let s := s.tickle
  match c.cls s.pod.id.slice with
  | .h =>
    let s := s.setPod s.pod.unwait
    match c with
    | .fencedOp => if s.team.irrev then s.escalate r 3 else s.setTeam { s.team with saving := some .abort }
    | .debugHalt => s.haltTeam s.pod.id.team
    | _ => s.setTeam { s.team with saving := s.team.saving <|> some .preempt }
  | _ =>
    if s.pod.trapLevel || !s.team.kernel.claims s.pod.id.slice c then s.escalate r 0
    else
      let vec := s.team.kernel.vector c
      if vec.toNat % 12 = 0 then s.setPod (s.pod.enterHandler r vec)
      else
        let p := s.pod
        (s.setPod { p with cause := p.cause ||| causeMask [.pcMisalign] }).escalate r.misvector 0

/-- Keeps what the entry of a cause records, for a second entry with the cause still set (R264, R268). -/
def Pod.remember (p : Pod) (r : TrapReq) : Pod :=
  { p with reasons := p.reasons.filter (fun (x : TrapReq) => !x.causes.any r.causes.contains) ++ r.causes.map fun c => { r with causes := [c] } }

/-- Raises a cause in the issuing pod (R266): %cause, %tpc and %tix, then trap entry, at once or when the outstanding
results of the stopped instruction (issue `serial`) are complete. At trap level %tpc and %tix keep the values of the first
entry (R270). -/
def State.raise (s : State) (r : TrapReq) : State :=
  let r := { r with when_ := s.tick }
  let p := s.pod.remember r
  let fence := r.causes.any fun c => c == .fencedOp || c == .undeclaredOp
  let s := if fence then s.countEvent (s.team.coreOf p.id) 11 else s
  let p := { p with cause := p.cause ||| causeMask r.causes ||| (if p.halted then debugBit else 0), wait := none, inside := false }
  let p := if p.trapLevel then p else { p with tix := r.tix, tpc := r.pc }
  let p := if p.trapLevel then p else p.stopAt r.pc r.tix
  let busy := (p.pend.any fun x => x.serial == p.serial) || s.ops.any fun o => o.pod == p.id && o.serial == p.serial && o.state == .running
  if busy then s.setPod { p with raised := some (r, p.serial) }
  else (s.setPod p).enterTrap r

/-- A cause that stops before the instruction at the frontier (R38, R40): every active thread, %tix 0. -/
def Pod.before (p : Pod) (c : Cause) (field : Nat) (arg : Word) (addr : Dword) : TrapReq :=
  { causes := [c], pc := p.pc, tix := 0, mask := p.active, atK := false, field := field, arg := arg, addr := addr }

/-- A cause that stops at thread `k` with a failing mask (R38). -/
def Pod.atThread (p : Pod) (c : Cause) (k : Nat) (m : Mask) (arg : Word) (addr : Dword) : TrapReq :=
  { causes := [c], pc := p.pc, tix := k, mask := m, atK := true, field := 0, arg := arg, addr := addr }

/-- The causes whose bits are set, in ascending order (R268). -/
def pendingCauses (c : Dword) : List Cause := ((List.range 64).filter fun i => c.getLsbD i).map causeOfBit

/-- The entry that a cause left set makes (R264, R266, R268): with what its first entry recorded; one that no entry recorded stops at a
boundary. -/
def Pod.reenter (p : Pod) (cs : List Cause) (tick : Nat) : TrapReq :=
  let blank : TrapReq := { causes := cs, pc := p.tpc, tix := p.tix, mask := p.active, atK := false, field := 0, arg := 0, addr := 0 }
  let r := match cs with
    | [] => blank
    | c :: _ => (p.reasons.find? fun (x : TrapReq) => x.causes = [c]).getD blank
  let m := (if r.atK then r.mask else p.active) &&& ~~~p.exited
  { r with causes := cs, pc := p.tpc, tix := p.tix, mask := if m = 0 then p.active else m, when_ := tick }

/-- Return from trap level (R248, R268): leaves trap level, and enters again while a cause is left, or skips or resumes. -/
def State.returnFromTrap (s : State) (skip : Bool) : State :=
  let p := s.pod
  let p := { p with trapLevel := false, handlers := 0, trap := [], trapLoops := [], bank := [], inside := false }
  match pendingCauses p.cause with
  | [] =>
    let act := p.active
    let p := if skip then { p.goto act (p.tpc + 12) with resumeAt := none }
             else (p.goto act p.tpc).stopAt p.tpc p.tix
    (s.setPod (if skip then p.popEmpty.leaveTx else p)).tickle
  | cs => (s.setPod p).enterTrap (p.reenter cs s.tick)

end Sys2Proof.Machine
end

