-- ==== Sys2Proof/Machine/Operands.lean ====
section
/-! DEFINITION. Operand classes and values (R78 to R83, R113), the whole-pod checks in their order (R85), port pops and pushes
(R80, R379), and the course of one instruction from its flags to its retirement. -/
namespace Sys2Proof

/-! ## Immediates (R71) -/

/-- What stands in a source field: an operand code, or an immediate already at its operand's width (R71). -/
inductive Arg
  | code (c : Code)
  | imm (x : Nat)
deriving DecidableEq, Repr

/-- An immediate at a width under interpretation 0b00 (signed), 0b01 (natural) or 0b11 (high). -/
def immValue (w : Nat) (interp : BitVec 2) (imm : Word) : Nat :=
  match interp.toNat with
  | 0 => Machine.wrap w (Machine.signed 32 imm.toNat)
  | 3 => imm.toNat * 2 ^ 32 % 2 ^ w
  | _ => imm.toNat % 2 ^ w

/-- What stands in place of source B of an R/I instruction: its code, or its immediate at width `w`. -/
def FormRI.argB (f : FormRI) (w : Nat) : Arg :=
  match f with
  | .r f => .code f.b
  | .i f => .imm (immValue w f.interp f.imm)

/-- dst of an R/I instruction. -/
def FormRI.dst : FormRI → Code
  | .r f => f.dst
  | .i f => f.dst

/-- Source A of an R/I instruction. -/
def FormRI.a : FormRI → Code
  | .r f => f.a
  | .i f => f.a

/-- Source C of an R/I instruction: in form I the register that dst names (R72). -/
def FormRI.c : FormRI → Code
  | .r f => f.c
  | .i f => f.dst

/-- The source modifier. -/
def FormRI.smod : FormRI → BitVec 12
  | .r f => f.smod
  | .i _ => 0

/-- The modifier's target. -/
def FormRI.mtgt : FormRI → BitVec 2
  | .r f => f.mtgt
  | .i _ => 0

end Sys2Proof

namespace Sys2Proof.Machine

/-- The operand classes of R78. -/
inductive OpClass
  | v | k | q | h | special | p | g | zero | bad
deriving DecidableEq, Repr

/-- The class of an operand code and its number within the class (R78). -/
def classOf (c : Code) : OpClass × Nat :=
  let n := c.toNat
  if n < 640 then (.v, n)
  else if n < 704 then (.k, n - 640)
  else if n < 720 then (.q, n - 704)
  else if n < 736 then (.h, n - 720)
  else if n < 764 then (.special, n - 736)
  else if n < 768 then (.bad, 0)
  else if n < 784 then (.p, n - 768)
  else if n < 792 then (.g, n - 784)
  else if n = 1023 then (.zero, 0)
  else (.bad, 0)

/-- %tid and %seed are per thread; every other special register is uniform (R29, R113). -/
def perThreadSpecial (n : Nat) : Bool := n == 0 || n == 26

/-- The low 32 bits of %amask: active threads 0 to 31 (R115). -/
def Pod.amask (p : Pod) : Word := p.active.setWidth 32

/-- Special register 736 + `n` as thread `t` of the issuing pod reads it (R29, R113, R115). -/
def State.special (s : State) (t n : Nat) : Word :=
  let p := s.pod
  let tm := s.team
  let core := tm.coreOf p.id
  let w := fun (x : Nat) => BitVec.ofNat 32 x
  match n with
  | 0 => w t
  | 1 => w p.id.idx
  | 2 => w tm.x
  | 3 => w tm.y
  | 4 => w tm.z
  | 5 => w tm.id.grid
  | 6 => w core
  | 7 => w (core / 2)
  | 8 => w (core / 32)
  | 9 => w (tm.laneOf p.id)
  | 10 => w p.width
  | 11 => w (sliceNo p.id.slice)
  | 12 => tm.phase
  | 13 => w tm.depth
  | 14 => s.time.setWidth 32
  | 15 => (s.time >>> 32).setWidth 32
  | 16 => p.amask
  | 17 => p.fl.setWidth 32
  | 18 => tm.ctag.setWidth 32
  | 19 => (tm.ctag >>> 32).setWidth 32
  | 20 => p.cause.setWidth 32
  | 21 => (p.cause >>> 32).setWidth 32
  | 22 => w p.tix
  | 23 => p.tpc.setWidth 32
  | 24 => w (tm.kernel.npods p.id.slice)
  | 25 => w tm.nteam
  | 26 => p.seed.get t
  | 27 => p.prio.setWidth 32
  | _ => 0

/-! ## Operands of an instruction -/

/-- A source operand: its field (1 A, 2 B, 3 C, 4 data), the classes its entry accepts, its width in registers, the tags of
which a checked register must carry one (none: no check), and whether only uniform values are accepted. -/
structure Src where
  field : Nat
  arg   : Arg
  acc   : List OpClass
  regs  : Nat := 1
  tags  : List (BitVec 5) := []
  uni   : Bool := false
  /-- The entry checks the spare bits of a word-packed quad whatever its tag (R199). -/
  packed : Bool := false
deriving DecidableEq, Repr

/-- A destination: the classes accepted, its width in registers, the tag written, and the units of a run (R194), each of which
is aligned by itself and is one element of a port. -/
structure Dst where
  code : Code
  acc  : List OpClass
  regs : Nat := 1
  tag  : BitVec 5 := 0
  units : Nat := 1
deriving DecidableEq, Repr

/-- What the whole-pod checks of one instruction need (R85). -/
structure Spec where
  srcs : List Src := []
  dst  : Option Dst := none
  smod : BitVec 12 := 0
  mtgt : BitVec 2 := 0
  /-- Pod-level: runs once and needs the guard p0 (R33). -/
  pod  : Bool := false
  /-- A condition on the machine under which the entry makes the instruction an ILLEGAL_OP. -/
  illegal : Bool := false
  /-- A further condition of the entry that raises ILLEGAL_OPERAND. -/
  bad  : Bool := false
  /-- The condition of PRIVILEGE (R100). -/
  priv : Bool := false
  /-- Whether execute pods and access pods may issue it (R30). -/
  exec : Bool := true
  access : Bool := true
  /-- Its capability class (R464). -/
  cls  : Option Nat := none
  /-- A second core whose capability mask must hold the class (R418). -/
  other : Option Nat := none
  /-- It moves bits without the lane check of R131 (MOV, TAG, stores, pushes). -/
  carries : Bool := false
  /-- A lane instruction that writes one k or g destination at its end from all its threads (R212). -/
  gather : Bool := false
  /-- An instruction with a port-name field that always acts per effective thread (R78, R386). -/
  lanewise : Bool := false
  /-- It arrives even with no effective thread (R229). -/
  arrives : Bool := false
  /-- A cause of its own entry that depends on the pod alone, so that it is raised whatever the guard, after every other check (R33, R85):
  with its failing field and address. -/
  late : Option (Cause × Nat × Dword) := none
deriving DecidableEq, Repr

/-- v, k, q, special, zero: the classes of int, bits, count and index operands (R151). -/
def anyVal : List OpClass := [.v, .k, .q, .special, .zero]
/-- The destinations of R152. -/
def anyDst : List OpClass := [.v, .k, .q, .zero]
/-- uni (R234): k, uniform special or zero. -/
def uniAcc : List OpClass := [.k, .special, .zero]
/-- val (R234): v, k, special or zero. -/
def valAcc : List OpClass := [.v, .k, .special, .zero]

/-- Log2 of the element size of a ring in registers: elements of 4, 8 or 16 bytes (R75, R376). -/
def tagRegs (tag : BitVec 5) : Nat :=
  let n := tag.toNat
  if n = 4 ∨ n = 5 ∨ n = 6 then 2 else if n = 17 ∨ n = 18 then 4 else 1

/-- The depth of a ring. -/
def Ring.depth (r : Ring) : Nat := 2 ^ r.ldepth

/-- Poppable elements (R377). -/
def Ring.occ (r : Ring) : Nat := (r.pub - r.con).toNat

/-- Free slots (R377). -/
def Ring.room (r : Ring) : Nat := r.depth - (r.prd - r.con).toNat

/-- Reserved and unpublished slots (R377). -/
def Ring.open_ (r : Ring) : Nat := (r.prd - r.pub).toNat

/-- The element of slot `c`. -/
def Ring.elem (r : Ring) (c : Word) : Nat := (r.slots.get (c.toNat % r.depth)).toNat

/-- Advances PUB past every filled slot at its head (R377): `fuel` slots at most. -/
def Ring.advance (r : Ring) : Nat → Ring
  | 0 => r
  | n + 1 => if r.map.getLsbD 0 then ({ r with pub := r.pub + 1, map := r.map >>> 1 } : Ring).advance n else r

/-- Fills slot `c` (R377): the element, and PUB past every slot now filled. -/
def Ring.fill (r : Ring) (c : Word) (x : Nat) : Ring :=
  let i := (c - r.pub).toNat
  ({ r with slots := r.slots.set (c.toNat % r.depth) (BitVec.ofNat 128 x),
            map := r.map ||| BitVec.ofNat 64 (2 ^ i) } : Ring).advance 64

/-- Reserves `n` slots. -/
def Ring.reserve (r : Ring) (n : Nat) : Ring := { r with prd := r.prd + BitVec.ofNat 32 n }

/-- Claims the `n` head elements. -/
def Ring.pop (r : Ring) (n : Nat) : Ring := { r with con := r.con + BitVec.ofNat 32 n }

/-- The ring behind a port of the issuing pod, with its number. -/
def State.portRing (s : State) (port : Nat) : Option (Nat × Ring) :=
  match s.pod.ringOf port with
  | none => none
  | some r => (s.team.ring r).map fun x => (r, x)

/-- Whether registers `r` to `r + n - 1` are allocated and aligned (R79, R103, R264). -/
def State.vOk (s : State) (r n : Nat) : Bool :=
  decide (r % n = 0) && decide (r + n ≤ s.team.kernel.regs s.pod.id.slice)

/-- The same for k registers; at trap level k60 to k63 are accepted whatever .kregs holds (R264). -/
def State.kOk (s : State) (r n : Nat) : Bool :=
  decide (r % n = 0) &&
    (decide (r + n ≤ s.team.kernel.kregs s.pod.id.slice) || s.pod.trapLevel && decide (60 ≤ r) && decide (r + n ≤ 64))

/-- Whether a special register may stand for `n` registers: pairs start at %time.lo, %ctag.lo or %cause.lo (R113). -/
def specialOk (r n : Nat) : Bool := n == 1 || n == 2 && (r == 14 || r == 18 || r == 20)

/-- Whether a source operand is legal (R79, R151). -/
def State.srcOk (s : State) (o : Src) : Bool :=
  match o.arg with
  | .imm _ => true
  | .code c =>
    let (cl, r) := classOf c
    o.acc.contains cl &&
      match cl with
      | .v => s.vOk r o.regs
      | .k => s.kOk r o.regs
      | .special => specialOk r o.regs && !(o.uni && perThreadSpecial r)
      | .q =>
        match s.portRing r with
        | some (_, x) => tagRegs x.tag == o.regs && !x.drn
        | none => false
      | .bad => false
      | _ => true

/-- Whether a destination is legal (R79, R152); p0 is not. -/
def State.dstOk (s : State) (o : Dst) : Bool :=
  let (cl, r) := classOf o.code
  o.acc.contains cl &&
    match cl with
    | .v => (List.range o.units).all fun i => s.vOk (r + i * (o.regs / o.units)) (o.regs / o.units)
    | .k => (List.range o.units).all fun i => s.kOk (r + i * (o.regs / o.units)) (o.regs / o.units)
    | .q =>
      match s.portRing r with
      | some (_, x) => tagRegs x.tag == o.regs / o.units && !x.att
      | none => false
    | .p => r != 0
    | .bad => false
    | _ => true

/-- Whether a source is uniform (R33). -/
def Src.uniform (o : Src) : Bool :=
  match o.arg with
  | .imm _ => true
  | .code c =>
    match classOf c with
    | (.k, _) | (.h, _) | (.g, _) | (.zero, _) => true
    | (.special, r) => !perThreadSpecial r
    | _ => false

/-- Whether a destination is uniform (R33). -/
def Dst.uniform (o : Dst) : Bool :=
  match classOf o.code with
  | (.k, _) | (.h, _) | (.g, _) | (.zero, _) => true
  | (.special, r) => !perThreadSpecial r
  | _ => false

/-- Whether a destination is written once, and so admits only uniform sources and the guard p0 (R153, R234). -/
def Dst.once (o : Dst) : Bool :=
  match classOf o.code with
  | (.k, _) => true
  | _ => false

/-- The unnegated guard p0 (R65). -/
def always (h : Head) : Bool := h.pred == 0 && !h.neg

/-- The guard ?!p0 (R33). -/
def never (h : Head) : Bool := h.pred == 0 && h.neg

/-- Whether the operands and the guard make an instruction uniform (R33). -/
def Spec.uniform (sp : Spec) (h : Head) : Bool :=
  always h && !sp.gather && !sp.lanewise && (sp.pod || sp.srcs.all Src.uniform && (match sp.dst with | none => true | some d => d.uniform))

/-- The rule of R153 and of pod-level instructions: their sources and guard. A gathering instruction is under R212. -/
def Spec.onceOk (sp : Spec) (h : Head) : Bool :=
  sp.gather || (always h || never h || !(sp.pod || (match sp.dst with | none => false | some d => d.once))) &&
    ((match sp.dst with | none => true | some d => !d.once) || sp.pod || sp.srcs.all Src.uniform)

/-- The segment size of a source modifier, confined to the width (R82). -/
def modSegment (smod : BitVec 12) (width : Nat) : Nat := min (2 ^ bits smod.toNat 7 3) width

/-- The source modifier names a v register and stays in its segment (R83). -/
def State.modOk (s : State) (sp : Spec) : Bool :=
  if sp.mtgt = 0 then true
  else
    let kind := bits sp.smod.toNat 10 2
    let dist := bits sp.smod.toNat 0 7
    let seg := modSegment sp.smod s.pod.width
    (match sp.srcs.find? fun o => o.field == sp.mtgt.toNat with
      | some o =>
        match o.arg with
        | .code c => (classOf c).1 == .v
        | .imm _ => false
      | none => false) &&
      (match kind with
        | 2 => decide (2 ^ dist < seg)
        | 3 => decide (dist < seg)
        | _ => true)

/-- The source thread of a modified operand (R82). -/
def modThread (smod : BitVec 12) (width t : Nat) : Nat :=
  let kind := bits smod.toNat 10 2
  let dist := bits smod.toNat 0 7
  let seg := modSegment smod width
  let lo := t - t % seg
  match kind with
  | 1 => lo + (t - lo + seg * 128 - dist) % seg
  | 2 => t ^^^ 2 ^ dist
  | 3 => lo + dist
  | _ => t

/-- Whether a run of registers holds register 4n + 3 of a group tagged e3m2w or e2m3w (R131, R156). -/
def Pod.wordPacked (p : Pod) (r n : Nat) : Bool :=
  (List.range n).any fun i => (r + i) % 4 == 3 && (p.tagOf (r + i) == 17 || p.tagOf (r + i) == 18)

/-- Whether an instruction checks each effective thread: it reads a word-packed source, or pops (R37, R131, R379). -/
def State.laneChecked (s : State) (sp : Spec) : Bool :=
  !sp.carries && sp.srcs.any fun o =>
    match o.arg with
    | .code c =>
      match classOf c with
      | (.v, r) => s.pod.wordPacked r o.regs
      | (.q, _) => true
      | (.k, _) => o.packed
      | _ => false
    | .imm _ => false

/-- A per-thread checked instruction whose destination overlaps the modified source (R39). -/
def State.overlap (s : State) (sp : Spec) : Bool :=
  if sp.mtgt = 0 then false
  else
    match sp.dst with
    | none => false
    | some d =>
      s.laneChecked sp && (sp.srcs.filter fun o => o.field == sp.mtgt.toNat).any fun o =>
        match classOf d.code, o.arg with
        | (.v, r), .code c =>
          match classOf c with
          | (.v, q) => decide (r < q + o.regs) && decide (q < r + d.regs)
          | _ => false
        | _, _ => false

/-- The tag check of one source (R109): every register of the group, or the ring, carries a required tag. -/
def State.tagOk (s : State) (o : Src) : Bool :=
  if o.tags.isEmpty then true
  else
    match o.arg with
    | .imm _ => true
    | .code c =>
      match classOf c with
      | (.v, r) => (List.range o.regs).all fun i => o.tags.contains (s.pod.tagOf (r + i))
      | (.q, r) =>
        match s.portRing r with
        | some (_, x) => o.tags.contains x.tag
        | none => true
      | _ => true

/-- The tag check of a push: the ring's tag or raw (R108). -/
def State.pushTagOk (s : State) (sp : Spec) : Bool :=
  match sp.dst with
  | none => true
  | some d =>
    match classOf d.code with
    | (.q, r) =>
      match s.portRing r with
      | some (_, x) => d.tag == 0 || d.tag == x.tag
      | none => true
    | _ => true

/-- The first field whose tag check fails, in the order A, B, C, data, destination (R109). -/
def State.tagFail (s : State) (sp : Spec) : Option Nat :=
  match sp.srcs.find? fun o => !s.tagOk o with
  | some o => some o.field
  | none => if s.pushTagOk sp then none else some 5

/-! ## Port operands (R379) -/

/-- The ring a source pops from. -/
def State.popRing (s : State) (o : Src) : Option Nat :=
  match o.arg with
  | .code c =>
    match classOf c with
    | (.q, r) => s.pod.ringOf r
    | _ => none
  | .imm _ => none

/-- The ring a destination pushes to. -/
def State.pushRing (s : State) (sp : Spec) : Option Nat :=
  match sp.dst with
  | none => none
  | some d =>
    match classOf d.code with
    | (.q, r) => s.pod.ringOf r
    | _ => none

/-- Elements one thread pops from ring `r`. -/
def State.popsOf (s : State) (sp : Spec) (r : Nat) : Nat := (sp.srcs.filter fun o => s.popRing o == some r).length

/-- Elements one thread pushes to ring `r`. -/
def State.pushesOf (s : State) (sp : Spec) (r : Nat) : Nat :=
  match sp.dst with
  | none => 0
  | some d => if s.pushRing sp == some r then d.units else 0

/-- The rings an instruction names. -/
def State.ringsOf (s : State) (sp : Spec) : List Nat :=
  (List.range s.team.rings.length).filter fun r => decide (0 < s.popsOf sp r) || s.pushRing sp == some r

/-- Whether `n` threads could ever pop and push: neither count exceeds the depth (R379). -/
def State.portsFit (s : State) (sp : Spec) (n : Nat) : Bool :=
  (s.ringsOf sp).all fun r =>
    match s.team.ring r with
    | none => false
    | some x => decide (s.popsOf sp r * n ≤ x.depth) && decide (s.pushesOf sp r * n ≤ x.depth)

/-- The ring whose elements or room `n` threads must wait for (R379). -/
def State.portsWait (s : State) (sp : Spec) (n : Nat) : Option Nat :=
  (s.ringsOf sp).find? fun r =>
    match s.team.ring r with
    | none => false
    | some x =>
      let pops := s.popsOf sp r * n
      let pushes := s.pushesOf sp r * n
      !(decide (pops ≤ x.occ) && decide (pushes ≤ x.room + pops) && decide (x.open_ + pushes ≤ 64))

/-- Whether a code names a k register. -/
def isK (c : Code) : Bool := (classOf c).1 == .k

/-- A k or zero destination (R233). -/
def kDst (c : Code) : Dst := { code := c, acc := [.k, .zero] }

/-- A uniform source (R234). -/
def uniSrc (field : Nat) (a : Arg) (regs : Nat := 1) : Src :=
  { field := field, arg := a, acc := uniAcc, regs := regs, uni := true }

/-- The guard that a k or special destination requires (R234). -/
def guardBad (once : Bool) (h : Head) : Bool := once && !always h && !never h

/-- ILLEGAL_OP where a pod-complete instruction does not find every non-exited thread active, at user level (R42, R244, R267). -/
def Pod.lateUnless (p : Pod) (more : Bool) : Option (Cause × Nat × Dword) :=
  if !p.trapLevel && p.active == full p.width &&& ~~~p.exited && more then none else some (.illegalOp, 0, 0)

/-! ## The whole-pod checks -/

/-- Steps 2 to 9 of R85, but for what the decoder refuses: the first check that fails gives a cause, the failing field, and detail. -/
def State.podCheck (s : State) (i : Instr) (h : Head) (sp : Spec) : Option (Cause × Nat) :=
  let sl := s.pod.id.slice
  let allowed := match sl with
    | .execute => sp.exec
    | .access => sp.access
  let undeclared := match sp.cls with
    | none => false
    | some c => !s.team.kernel.oum.getLsbD c
  let fenced := match sp.cls with
    | none => false
    | some c => !s.team.kernel.winnow && (!(s.capmOf (s.team.coreOf s.pod.id)).getLsbD c ||
        (match sp.other with | none => false | some k => !(s.capmOf k).getLsbD c))
  if sp.illegal then some (.illegalOp, 0)
  else if i.badModifier then some (.illegalModifier, 0)
  else if !(sp.srcs.all s.srcOk) || (match sp.dst with | none => false | some d => !s.dstOk d) || !sp.onceOk h ||
      !s.modOk sp || i.badTarget || s.overlap sp || sp.bad then some (.illegalOperand, 0)
  else if sp.priv then some (.privilege, 0)
  else if !allowed then some (.sliceViolation, 0)
  else if undeclared then some (.undeclaredOp, 0)
  else if fenced then some (.fencedOp, 0)
  else
    match s.tagFail sp with
    | some f => some (.formatMismatch, f)
    | none => none

/-- The value of a uniform operand of `regs` registers (R234). -/
def State.argVal (s : State) (a : Arg) (regs : Nat := 1) : Nat :=
  match a with
  | .imm x => x
  | .code c =>
    match classOf c with
    | (.k, r) => s.pod.rdKRun r regs
    | (.special, r) => (s.special 0 r).toNat + (if regs = 2 then 2 ^ 32 * (s.special 0 (r + 1)).toNat else 0)
    | (.g, r) => (s.pod.rdG r).toNat
    | _ => 0

/-! ## Accumulators of matrix operations (R342) -/

/-- The matrix operations whose accumulators lie in a pod and that the pod has not waited for. -/
def State.accOps (s : State) (p : PodId) : List (Op × Matrix) :=
  s.ops.filterMap fun o => match o.kind with
    | .matrix m =>
      let mine := o.pod == p || m.variant == 1 && decide (o.pod.team = p.team ∧ o.pod.slice = p.slice ∧ o.pod.idx + 1 = p.idx)
      if mine && (o.state == .running || o.state == .complete && !o.seen) then some (o, m) else none
    | _ => none

/-- Whether some of `n` v registers from `r` are accumulators of such an operation. -/
def State.accHolds (s : State) (p : PodId) (r n : Nat) : Bool :=
  (s.accOps p).any fun x => decide (r < x.2.acc + 8 * x.2.regs) && decide (x.2.acc < r + n)

/-- Whether a register that an instruction reads or writes is such an accumulator. -/
def State.accTouched (s : State) (sp : Spec) : Bool :=
  (sp.srcs.any fun o => match o.arg with
    | .code c => (match classOf c with
      | (.v, r) => s.accHolds s.pod.id r o.regs
      | _ => false)
    | .imm _ => false) ||
  match sp.dst with
  | none => false
  | some d => match classOf d.code with
    | (.v, r) => s.accHolds s.pod.id r d.regs
    | _ => false

/-- Element `n` of an operation as one instruction reads it: its value after some of the groups added so far (R342); a register that the
pod has written meanwhile reads as written. -/
def State.readAcc (s : State) (m : Matrix) (n now : Nat) : Nat × State :=
  let past := m.past.filterMap fun l => l[n]?
  if past.isEmpty || now ≠ m.shown.getD n now then (now, s)
  else
    let (k, s) := s.choose past.length
    (past.getD k now, s)

/-- The pod's registers as one instruction reads them, the accumulators of the operation being read (R342). -/
def State.viewOp (s : State) (m : Matrix) (second : Bool) (rows : Nat) (q : Pod) : Pod × State :=
  (List.range rows).foldl (fun (x : Pod × State) i => (List.range 8).foldl (fun (x : Pod × State) j =>
    let r := m.acc + m.regs * j
    let n := i * (if m.variant = 1 then 16 else 8) + (if second then 8 + j else j)
    let (v, s) := x.2.readAcc m n (x.1.rdRun i r m.regs)
    (x.1.wrRun i r m.regs v, s)) x) (q, s)

/-- The pod as an instruction reads it, and the state in which the open choices have been made. -/
def State.accView (s : State) (sp : Spec) : Pod × State :=
  if !s.accTouched sp then (s.pod, s)
  else
    (s.accOps s.pod.id).foldl (fun (x : Pod × State) y =>
      x.2.viewOp y.2 (y.1.pod != s.pod.id) (min 16 s.pod.width) x.1) (s.pod, s)

/-- Whether an instruction reads a register that holds uncorrectable data (R311). -/
def State.readsBad (s : State) (h : Head) (sp : Spec) : Bool :=
  let p := s.pod
  if p.bad.isEmpty then false
  else
    let ts := threadsOf p.width (p.effective h)
    sp.srcs.any fun o => match o.arg with
      | .imm _ => false
      | .code c =>
        match classOf c with
        | (.v, r) => ts.any fun t => (List.range o.regs).any fun i => p.bad.contains (t * 1024 + r + i)
        | (.k, r) => (List.range o.regs).any fun i => !(p.trapLevel && decide (60 ≤ r + i)) && p.bad.contains (2 ^ 20 + r + i)
        | _ => false

/-! ## The course of an instruction -/

/-- What an instruction that has passed its whole-pod checks reads from: the state at its start, its operands, address,
effective threads, active set, and whether it is uniform (R32 to R34). -/
structure Ctx where
  s    : State
  sp   : Spec
  head : Head
  this : Dword
  eff  : List Nat
  act  : Mask
  uni  : Bool
  /-- The pod whose v registers it reads (R342). -/
  view : Pod
deriving DecidableEq, Repr

/-- The effective set. -/
def Ctx.mask (c : Ctx) : Mask := maskOf c.eff

/-- The effect of an instruction: it completes with some threads already moved, raises a cause, or waits; it completes and
then raises causes at the boundary (R249); or it has set the control state itself (R248). -/
inductive Eff
  | done (s : State) (moved : Mask)
  | raise (r : TrapReq) (s : State)
  | hold (k : WaitKind) (s : State)
  | after (cs : List Cause) (s : State)
  | stay (s : State)
deriving DecidableEq, Repr

/-- The rank of a thread among the effective ones. -/
def Ctx.rank (c : Ctx) (t : Nat) : Nat := (c.eff.filter fun u => u < t).length

/-- Position of source `i` among the sources that pop from ring `r` (R80). -/
def Ctx.popPos (c : Ctx) (i r : Nat) : Nat := ((c.sp.srcs.take i).filter fun o => c.s.popRing o == some r).length

/-- The slot that source `i` of thread `t` pops (R379). -/
def Ctx.popSlot (c : Ctx) (x : Ring) (i t r : Nat) : Word :=
  x.con + BitVec.ofNat 32 (c.rank t * c.s.popsOf c.sp r + c.popPos i r)

/-- The source thread of operand field `f` (R82). -/
def Ctx.thread (c : Ctx) (f t : Nat) : Nat :=
  if c.sp.mtgt ≠ 0 ∧ c.sp.mtgt.toNat = f then modThread c.sp.smod c.s.pod.width t else t

/-- Source `i` in thread `t`, as of instruction start (R34, R78). -/
def Ctx.val (c : Ctx) (i t : Nat) : Nat :=
  match c.sp.srcs[i]? with
  | none => 0
  | some o =>
    match o.arg with
    | .imm x => x
    | .code cd =>
      match classOf cd with
      | (.v, r) => c.view.rdRun (c.thread o.field t) r o.regs
      | (.k, r) => c.s.pod.rdKRun r o.regs
      | (.special, r) =>
        (c.s.special t r).toNat + (if o.regs = 2 then 2 ^ 32 * (c.s.special t (r + 1)).toNat else 0)
      | (.p, r) => if (c.s.pod.predMask r).getLsbD t then 1 else 0
      | (.g, r) => (c.s.pod.rdG r).toNat
      | (.q, r) =>
        match c.s.portRing r with
        | some (n, x) => x.elem (c.popSlot x i t n)
        | none => 0
      | _ => 0

/-- Whether source `i` of thread `t` fails the word-packed check (R131, R156). -/
def Ctx.bad131 (c : Ctx) (i t : Nat) : Bool :=
  if c.sp.carries then false
  else
    match c.sp.srcs[i]? with
    | none => false
    | some o =>
      match o.arg with
      | .imm _ => false
      | .code cd =>
        match classOf cd with
        | (.v, r) =>
          (List.range o.regs).any fun j =>
            (r + j) % 4 == 3 && (c.s.pod.tagOf (r + j) == 17 || c.s.pod.tagOf (r + j) == 18) &&
              bits (c.view.rdV (c.thread o.field t) (r + j)).toNat 30 2 != 0
        | (.q, r) =>
          match c.s.portRing r with
          | some (n, x) => (x.tag == 17 || x.tag == 18) && bits (x.elem (c.popSlot x i t n)) 126 2 != 0
          | none => false
        | (.k, r) => o.packed && bits (c.s.pod.rdK (r + 3)).toNat 30 2 != 0
        | _ => false

/-- Whether source `i` of thread `t` pops an element that fails parity (R384). -/
def Ctx.badParity (c : Ctx) (i t : Nat) : Bool :=
  match c.sp.srcs[i]? with
  | none => false
  | some o =>
    match o.arg with
    | .code cd =>
      match classOf cd with
      | (.q, r) =>
        match c.s.portRing r with
        | some (n, x) => x.bad.contains ((c.popSlot x i t n).toNat % x.depth)
        | none => false
      | _ => false
    | .imm _ => false

/-- Marks PAR in the rings whose element for thread `t` fails its parity check (R378, R384). -/
def Ctx.markPar (c : Ctx) (t : Nat) (s : State) : State :=
  (List.range c.sp.srcs.length).foldl (fun s i =>
    if !c.badParity i t then s
    else
      match (c.sp.srcs[i]?).bind c.s.popRing with
      | none => s
      | some r => match s.team.ring r with
        | none => s
        | some x => s.setTeam (s.team.setRing r { x with par := true })) s

/-- The fault that reading the sources of thread `t` raises (R131, R384). -/
def Ctx.readFault (c : Ctx) (t : Nat) : Option Cause :=
  let is := List.range c.sp.srcs.length
  if is.any fun i => c.badParity i t then some .memUncorrectable
  else if is.any fun i => c.bad131 i t then some .formatMismatch
  else none

/-- The first field of thread `t` that fails the word-packed check (R109, R131, R264; log 21); 0 where none does. -/
def Ctx.failField (c : Ctx) (t : Nat) : Nat :=
  ((List.range c.sp.srcs.length).find? fun i => c.bad131 i t).elim 0 fun i => (c.sp.srcs[i]?).elim 0 Src.field

/-- What one thread of a lane instruction produces: its result, the conditions it raises, a predicate, a new %seed. -/
structure LaneRes where
  val  : Nat := 0
  fl   : BitVec 6 := 0
  pred : Bool := false
  seed : Option Word := none
deriving DecidableEq, Repr

/-- Writes the tag of `n` v registers from `r`; an accumulator that a matrix operation holds keeps its tag (R342). -/
def State.tagRun (s : State) (p : Pod) (tag : BitVec 5) (r n : Nat) : Pod :=
  if s.accHolds p.id r n then
    (List.range n).foldl (fun (p : Pod) i => if s.accHolds p.id (r + i) 1 then p else p.wrTags tag (r + i) 1) p
  else p.wrTags tag r n

/-- Writes the results of some threads to the destination: registers and tags, uniform registers once, a push per thread, or
predicates (R78, R107). -/
def Ctx.write (c : Ctx) (rs : List (Nat × LaneRes)) (s : State) : State :=
  match c.sp.dst with
  | none => s
  | some d =>
    match classOf d.code with
    | (.v, r) =>
      if rs.isEmpty then s
      else s.setPod (s.tagRun (rs.foldl (fun p x => p.wrRun x.1 r d.regs x.2.val) s.pod) d.tag r d.regs)
    | (.k, r) =>
      match rs with
      | [] => s
      | x :: _ => s.setPod (s.pod.wrKRun r d.regs x.2.val)
    | (.p, r) =>
      s.setPod (s.pod.wrPred r (maskOf (rs.map (·.1))) (maskOf ((rs.filter (·.2.pred)).map (·.1))))
    | (.g, r) =>
      match rs with
      | [] => s
      | x :: _ => s.setPod (s.pod.wrG r (BitVec.ofNat 128 x.2.val))
    | (.q, r) =>
      match s.portRing r with
      | none => s
      | some (n, x) =>
        s.setTeam (s.team.setRing n
          (rs.foldl (fun y e => (List.range d.units).foldl (fun y j =>
            (y.reserve 1).fill y.prd (e.2.val / 2 ^ (32 * (d.regs / d.units) * j) % 2 ^ (32 * (d.regs / d.units)))) y) x))
    | _ => s

/-- Claims the elements that `n` threads pop (R379). -/
def Ctx.claim (c : Ctx) (n : Nat) (s : State) : State :=
  (c.s.ringsOf c.sp).foldl (fun s r =>
    match s.team.ring r with
    | none => s
    | some x => s.setTeam (s.team.setRing r (x.pop (c.s.popsOf c.sp r * n)))) s

/-- Conditions and %seed of the threads (R117, R141). -/
def conditions (rs : List (Nat × LaneRes)) (p : Pod) : Pod :=
  rs.foldl (fun p x =>
    let p := p.raiseFl x.2.fl
    match x.2.seed with
    | none => p
    | some w => { p with seed := p.seed.set x.1 w }) p


/-- The threads a lane instruction acts in: one for a uniform one (R32, R33). -/
def Ctx.lanes (c : Ctx) : List Nat := if c.uni then c.eff.take 1 else c.eff

/-- Writes one value to the destination (a uniform register; R33, R153). -/
def Ctx.put (c : Ctx) (x : Nat) (s : State) : State := c.write [(c.lanes.headD 0, { val := x })] s

/-- A cause that stops before this instruction. -/
def Ctx.stop (c : Ctx) (x : Cause) : Eff := .raise (c.s.pod.before x 0 0 0) c.s

/-- Waits for the rings of an instruction, or says that it never fits (R379); otherwise goes on. -/
def Ctx.ports (c : Ctx) (go : Eff) : Eff :=
  let n := c.lanes.length
  if !c.s.portsFit c.sp n then .raise (c.s.pod.before .illegalOperand 0 0 0) c.s
  else
    match c.s.portsWait c.sp n with
    | some r => .hold (.ring r) c.s
    | none => go

/-- The course of a lane instruction over the threads `ts`: the first thread whose sources fail a check stops it there, with
the threads below it complete (R38), and a uniform one before it; `put` writes the results of the threads that completed. DESIGN CHOICE
(log 33): a stop at thread k leaves the tag of dst as it was when no effective thread lies below k, for then nothing is written (R107). -/
def Ctx.laneWith (c : Ctx) (put : List (Nat × LaneRes) → State → State) (f : Nat → LaneRes) : Eff :=
  c.ports <|
    let complete := fun (ts : List Nat) =>
      put (ts.map fun t => (t, f t)) (c.claim ts.length c.s)
    match c.lanes.filter fun t => (c.readFault t).isSome with
    | [] => .done (complete c.lanes) 0
    | k :: ks =>
      let s := complete (c.lanes.filter fun t => t < k)
      let cause := (c.readFault k).getD .formatMismatch
      let s := if cause = .memUncorrectable then c.markPar k s else s
      let field := if cause = .formatMismatch then c.failField k else 0
      .raise (if c.uni then s.pod.before cause field 0 0
              else { s.pod.atThread cause k (maskOf (k :: ks)) 0 0 with field := field }) s

/-- A lane instruction of class S (R32, R35): every effective thread reads, computes and writes. `more` adds effects that no
field of the result carries. -/
def Ctx.lane (c : Ctx) (f : Nat → LaneRes) (more : List (Nat × LaneRes) → State → State) : Eff :=
  c.laneWith (fun rs s => let s := more rs (c.write rs s); s.setPod (conditions rs s.pod)) f

/-- What a destination holds: its registers and the tag of the first (R36). -/
def Pod.destNow (p : Pod) (d : Dest) : BitVec 256 × BitVec 5 :=
  match d with
  | .vregs t r n => (BitVec.ofNat 256 (p.rdRun t r n), p.tagOf r)
  | .kregs r n => (BitVec.ofNat 256 (p.rdKRun r n), 0)
  | _ => (0, 0)

/-- Leaves the results of some threads outstanding under the set-A flag (R35, R36). -/
def Ctx.outstanding (c : Ctx) (kind : PendKind) (rs : List (Nat × LaneRes)) (s : State) : State :=
  let pend := fun (d : Dst) (dest : Nat → Dest) => rs.map fun x =>
    ({ kind := kind, serial := s.pod.serial, dest := dest x.1, tag := d.tag, value := BitVec.ofNat 256 x.2.val,
       reqs := [], size := 4 * d.regs, seta := c.head.seta, setb := 15, thread := x.1, addr := 0, uncorr := false,
       fl := x.2.fl, was := (s.pod.destNow (dest x.1)).1, wasTag := (s.pod.destNow (dest x.1)).2, trap := s.pod.trapLevel } : Pend)
  let at_once := fun (s : State) => (c.write rs s).setPod (conditions rs (c.write rs s).pod)
  -- the conditions come with the results; %seed is drawn now
  let drawn := conditions (rs.map fun x => (x.1, { x.2 with fl := 0 })) s.pod
  match c.sp.dst with
  | none => at_once s
  | some d =>
    match classOf d.code with
    | (.v, r) =>
      s.setPod { drawn.nameFlag c.head.seta rs.length with pend := drawn.pend ++ pend d fun t => .vregs t r d.regs }
    | (.k, r) =>
      s.setPod { drawn.nameFlag c.head.seta rs.length with pend := drawn.pend ++ pend d fun _ => .kregs r d.regs }
    | _ => at_once s

/-- Class T results (R35). -/
def Ctx.writeLater (c : Ctx) (rs : List (Nat × LaneRes)) (s : State) : State := c.outstanding .classT rs s

/-- A lane instruction of class T (R35): asynchronous when set-A names a flag, as class S otherwise. -/
def Ctx.laneT (c : Ctx) (f : Nat → LaneRes) : Eff :=
  if c.head.seta.toNat < 12 then c.laneWith c.writeLater f else c.lane f fun _ s => s

/-- Whether class L results of the pod are outstanding (R345, R364). -/
def Pod.loading (p : Pod) : Bool := p.pend.any fun x => x.kind == .load || x.kind == .wrq || x.kind == .ldq || x.kind == .ldqNf

/-- Whether the wait field names a flag that is set (R64), or an acquire has not returned (R323). -/
def Pod.waitsOn (p : Pod) (h : Head) : Bool :=
  p.flagMask &&& h.wait != 0 || p.pend.any fun x => x.acq && !x.reqs.isEmpty

/-- Takes the deferred faults that an instruction meets: those of the next issue, and those of the flags in `m` (R40). -/
def Pod.dueFaults (p : Pod) (m : BitVec 12) : List Deferred :=
  p.deferred.filter fun d => d.next || d.flags &&& m != 0

/-- Raises deferred faults together (R40, R261): the lowest cause is the primary one and gives the detail. -/
def State.raiseDeferred (s : State) (ds : List Deferred) : State :=
  let low := ds.foldl (fun m d => if d.cause.bit < m then d.cause.bit else m) 64
  let first := ds.find? fun d => d.cause.bit = low
  let p := s.pod
  let causes := match first with
    | none => ds.map (·.cause)
    | some d => d.cause :: ds.map (·.cause)
  let r : TrapReq := { (p.before .illegalOp 0 (match first with | none => 0 | some d => d.arg)
      (match first with | none => 0 | some d => d.addr)) with causes := causes }
  -- the fault of an operation with a handle is raised once: the operation is then held (R401)
  let held := ds.filterMap (·.op)
  let s := { s with ops := s.ops.map fun (o : Op) => if held.contains o.token then { o with state := .held } else o }
  let t := (s.setPod { p with deferred := p.deferred.filter fun d => !ds.contains d }).raise r
  -- each of them left set is entered later with its own detail
  let t := ds.foldl (fun (t : State) d => t.setPod (t.pod.remember { r with causes := [d.cause], arg := d.arg, addr := d.addr })) t
  match first with
  | none => t
  | some d => t.setPod (t.pod.remember { r with causes := [d.cause] })

/-- The pod waits (R54, R246). -/
def State.holdPod (s : State) (k : WaitKind) : State :=
  let w : Wait := match s.pod.wait with
    | some w => if w.kind = k then { w with seen := s.progress } else ⟨k, s.cycle, none, s.progress⟩
    | none => ⟨k, s.cycle, none, s.progress⟩
  s.setPod { s.pod with wait := some w }

/-- The boundary after a completed instruction (R260): a stepped pod stops there with SINGLE_STEP (R519), one whose team has been halted
meanwhile with DEBUG_HALT (R258). -/
def State.boundary (s : State) : State :=
  if s.pod.stepping then
    (s.setPod { s.pod with stepping := false }).raise (s.pod.before .singleStep 0 0 0)
  else if s.pod.halted then (s.setPod (s.pod.stopHere debugBit)).dropToken
  else s

/-- Completes an instruction: the threads advance, loops follow, the wait is over (R41, R240 to R242, R262). -/
def State.complete (s : State) (this : Dword) (d : Nat) (act moved : Mask) : State :=
  let p := (s.pod.retire this d act moved).leaveTx
  (({ s with pod := { p with sched := { p.sched with last := s.cycle }, resumeAt := none, bpPass := none, wait := none, inside := false } }).tickle).boundary

/-- Turns an effect into the next state. -/
def State.finish (s : State) (c : Ctx) : Eff → State
  | .done s' moved => s'.complete c.this s.pod.depth c.act moved
  | .raise r s' => s'.raise r
  | .hold k s' =>
    -- a stepped pod whose instruction waits stops before it again (R519)
    let held := s'.holdPod k
    if s'.pod.stepping && k != .flag && k != .release && k != .ack && !held.midway held.pod then
      s'.setPod { s'.pod.stopHere 0 with stepping := false, halted := true }
    else held
  | .after cs s' =>
    let t := (s'.setPod { s'.pod with stepping := false }).complete c.this s.pod.depth c.act 0
    match (if s'.pod.stepping then [Cause.singleStep] else []) ++ cs with
    | [] => t
    | cs => t.raise { (t.pod.before .illegalOp 0 0 0) with causes := cs }
  | .stay s' => s'.boundary

/-- Adds an open number to the counters of a core that select code `code` (R511; log 16). -/
def State.countOpen (s : State) (core code : Nat) : State :=
  (List.range 8).foldl (fun s i =>
    if (s.esel.get (core * 8 + i)).toNat = code then
      { s with ecnt := s.ecnt.set (core * 8 + i) (s.ecnt.get (core * 8 + i) + BitVec.ofNat 48 (Config.free s.free)), free := s.free + 1 }
    else s) s

/-- Adds the lane cycles that an instruction used to the counters of a core that select them; an open number where the spec does not
state how many (R511; log 16). -/
def State.countLanes (s : State) (core : Nat) (use : Option Nat) : State :=
  match use with
  | none => s.countOpen core 4
  | some n =>
    (List.range 8).foldl (fun s i =>
      if (s.esel.get (core * 8 + i)).toNat = 4 then
        { s with ecnt := s.ecnt.set (core * 8 + i) (s.ecnt.get (core * 8 + i) + BitVec.ofNat 48 n) } else s) s

/-- Counts the issue of an instruction (R511): lane or uniform, and the lane cycles that it used; the L1 and TLB misses that it met
are open. -/
def State.countIssue (s : State) (core : Nat) (uni : Bool) (use : Option Nat) : State :=
  if s.esel.isEmpty then s
  else ((((s.countEvent core (if uni then 3 else 2)).countLanes core use).countOpen core 5).countOpen core 10)

/-- Lane cycles per effective thread of a completed lane instruction (R32, R208); none where an instance delivers later (R230). -/
def laneCost (i : Instr) : Option Nat :=
  match i with
  | .votea .. | .voten .. | .matchOp .. | .gred .. => some 2
  | .ballot _ f => some (if isK f.dst then 1 else 2)
  | .gsort .. => some 3
  | _ => some 1

/-- The instructions of group D that act in each thread: R208 gives their lane cycles in either slice. -/
def groupD (i : Instr) : Bool :=
  match i with
  | .shfl .. | .perm .. | .votea .. | .voten .. | .ballot .. | .matchOp .. | .elect .. | .part .. | .gred .. | .gscan .. | .gbcast ..
  | .gsort .. => true
  | _ => false

/-- Lane cycles that an instruction used: open where it stopped or ran on, and, but for group D, on the address lanes of access pods
(log 16). -/
def Ctx.laneUse (c : Ctx) (i : Instr) (e : Eff) : Option Nat :=
  if c.uni then some 0
  else if c.s.pod.id.slice == .access && !groupD i then none
  else
    match e with
    | .done .. => (laneCost i).map (· * c.eff.length)
    | _ => none

/-- Whether an effect is a wait. -/
def Eff.holds : Eff → Bool
  | .hold _ _ => true
  | _ => false

/-- The pod begins an issue: the count that names its outstanding results steps (R38). -/
def State.begin (s : State) : State := s.setPod { s.pod with serial := s.pod.serial + 1 }

/-- What an instruction reads from that passes its checks in a state. -/
def State.ctx (s : State) (h : Head) (sp : Spec) : Ctx :=
  ⟨s, sp, h, s.pod.pc, threadsOf s.pod.width (s.pod.effective h), s.pod.active, sp.uniform h, s.pod⟩

/-- The core on which the issuing pod runs. -/
def State.core (s : State) : Nat := s.team.coreOf s.pod.id

/-- One issue of an instruction (R36, R40, R85, R32): it waits for its flags, meets deferred faults, passes the whole-pod
checks, and takes its effect; with an empty effective set it retires. -/
def issue (i : Instr) (h : Head) (sp : Spec) (body : Ctx → Eff) (s : State) : Host.Outcome State Fault Refusal :=
  let s := s.begin
  if s.pod.waitsOn h then .next (s.holdPod .flag)
  else
    match s.pod.dueFaults h.wait with
    | d :: ds => .next (s.raiseDeferred (d :: ds))
    | [] =>
      match s.podCheck i h sp with
      | some (c, f) => .next (s.raise (s.pod.before c f 0 0))
      | none =>
        match sp.late with
        | some (c, f, a) => .next (s.raise (s.pod.before c f 0 a))
        | none =>
          if s.readsBad h sp then .next (s.raise (s.pod.before .memUncorrectable 0 0 0))
          else
            let (q, s) := s.accView sp
            let c := { s.ctx h sp with view := q }
            if c.eff.isEmpty && !sp.arrives then .next ((s.complete c.this s.pod.depth c.act 0).countIssue s.core c.uni (some 0))
            else
              let e := body c
              .next (if e.holds then s.finish c e else (s.finish c e).countIssue s.core c.uni (c.laneUse i e))

end Sys2Proof.Machine
end

