-- ==== Sys2Proof/Machine/Flags.lean ====
section
/-! DEFINITION. Number formats and their exact values (R121 to R128), Round with its modes, saturation and conditions (R135 to
R141), exact arithmetic, and the functions of R189. -/
namespace Sys2Proof.Machine

/-! ## Exact values -/

/-- An exact value: NaN, an infinity, or (-1)^neg × m × 2^e. With `low` the magnitude exceeds m × 2^e by a positive amount
below 2^e, and m has many bits (a quotient, a root, a function of R189). -/
inductive Num
  | nan
  | inf (neg : Bool)
  | fin (neg : Bool) (m : Nat) (e : Int) (low : Bool)
deriving DecidableEq, Repr

/-- A zero. -/
def Num.zero (neg : Bool) : Num := .fin neg 0 0 false

/-- Whether a value is a zero. -/
def Num.isZero : Num → Bool
  | .fin _ 0 _ low => !low
  | _ => false

/-- The sign. -/
def Num.neg : Num → Bool
  | .nan => false
  | .inf s => s
  | .fin s _ _ _ => s

/-- The value of the other sign. -/
def Num.flip : Num → Num
  | .nan => .nan
  | .inf s => .inf !s
  | .fin s m e l => .fin (!s) m e l

/-- An integer. -/
def Num.ofInt (x : Int) : Num := .fin (decide (x < 0)) x.natAbs 0 false

/-- Multiplies by a power of two. -/
def Num.scale (x : Num) (n : Int) : Num :=
  match x with
  | .fin s m e l => .fin s m (e + n) l
  | x => x

/-! ## Formats (R121, R122) -/

/-- What the largest codes of a format mean. -/
inductive FmtKind
  /-- Infinities and NaNs at the largest exponent. -/
  | ieee
  /-- One NaN per sign and no infinity. -/
  | e4m3
  /-- Every code is a number. -/
  | plain
deriving DecidableEq, Repr

/-- A binary floating-point format: exponent and mantissa bits. -/
structure Fmt where
  ex   : Nat
  mn   : Nat
  kind : FmtKind
deriving DecidableEq, Repr

def Fmt.f64 : Fmt := ⟨11, 52, .ieee⟩
def Fmt.f32 : Fmt := ⟨8, 23, .ieee⟩
def Fmt.f16 : Fmt := ⟨5, 10, .ieee⟩
def Fmt.bf16 : Fmt := ⟨8, 7, .ieee⟩
def Fmt.e5m2 : Fmt := ⟨5, 2, .ieee⟩
def Fmt.e4m3 : Fmt := ⟨4, 3, .e4m3⟩
def Fmt.e3m4 : Fmt := ⟨3, 4, .ieee⟩
def Fmt.e3m2 : Fmt := ⟨3, 2, .plain⟩
def Fmt.e2m3 : Fmt := ⟨2, 3, .plain⟩
def Fmt.e2m1 : Fmt := ⟨2, 1, .plain⟩

/-- The bias. -/
def Fmt.bias (f : Fmt) : Int := (2 ^ (f.ex - 1) : Nat) - 1

/-- Width in bits. -/
def Fmt.width (f : Fmt) : Nat := 1 + f.ex + f.mn

/-- The sign bit of a code. -/
def Fmt.sign (f : Fmt) (x : Nat) : Bool := bit x (f.width - 1)

/-- The code of a magnitude with a sign. -/
def Fmt.signed (f : Fmt) (s : Bool) (mag : Nat) : Nat := (if s then 2 ^ (f.width - 1) else 0) + mag

/-- Exponent field. -/
def Fmt.expOf (f : Fmt) (x : Nat) : Nat := bits x f.mn f.ex

/-- Mantissa field. -/
def Fmt.manOf (f : Fmt) (x : Nat) : Nat := bits x 0 f.mn

/-- The exact value of a code (R121, R122). -/
def Fmt.decode (f : Fmt) (x : Nat) : Num :=
  let s := f.sign x
  let E := f.expOf x
  let M := f.manOf x
  let top := E == 2 ^ f.ex - 1
  let number := if E = 0 then Num.fin s M (1 - f.bias - f.mn) false
                else Num.fin s (2 ^ f.mn + M) (E - f.bias - f.mn) false
  match f.kind with
  | .ieee => if top then (if M = 0 then .inf s else .nan) else number
  | .e4m3 => if top && M == 2 ^ f.mn - 1 then .nan else number
  | .plain => number

/-- Whether a code is a signalling NaN (R123). -/
def Fmt.signalling (f : Fmt) (x : Nat) : Bool :=
  f.kind = .ieee && f.expOf x == 2 ^ f.ex - 1 && f.manOf x != 0 && !bit x (f.mn - 1)

/-- The canonical NaN (R123); 0 where the format has none. -/
def Fmt.canon (f : Fmt) : Nat :=
  match f.kind with
  | .ieee => (2 ^ f.ex - 1) * 2 ^ f.mn + 2 ^ (f.mn - 1)
  | .e4m3 => 2 ^ (f.ex + f.mn) - 1
  | .plain => 0

/-- The magnitude of the largest finite value. -/
def Fmt.largest (f : Fmt) : Nat :=
  match f.kind with
  | .ieee => (2 ^ f.ex - 1) * 2 ^ f.mn - 1
  | .e4m3 => 2 ^ (f.ex + f.mn) - 2
  | .plain => 2 ^ (f.ex + f.mn) - 1

/-- The magnitude of an infinity of an `ieee` format. -/
def Fmt.infinity (f : Fmt) : Nat := (2 ^ f.ex - 1) * 2 ^ f.mn

/-- Whether a code is a non-zero subnormal. -/
def Fmt.subnormal (f : Fmt) (x : Nat) : Bool := f.expOf x == 0 && f.manOf x != 0

/-! ## Conditions (R115, R141) -/

/-- Invalid operation. -/
def cINV : BitVec 6 := 1
/-- Divide by zero. -/
def cDZ : BitVec 6 := 2
/-- Overflow. -/
def cOVF : BitVec 6 := 4
/-- Underflow. -/
def cUNF : BitVec 6 := 8
/-- Inexact. -/
def cINX : BitVec 6 := 16
/-- Saturated. -/
def cSAT : BitVec 6 := 32

/-- A condition when it holds. -/
def when_ (b : Bool) (c : BitVec 6) : BitVec 6 := if b then c else 0

/-! ## Round (R135 to R140) -/

/-- The LFSR of %seed (R137). -/
def lfsr (s : Word) : Word :=
  let t := s >>> 1
  if s.getLsbD 0 then t ^^^ 0x8020_0003 else t

/-- %seed after one rounding: only mode SR advances it (R117). -/
def seedAfter (mode : Nat) (s : Word) : Word := if mode = 5 then lfsr s else s

/-- Whether a magnitude between two neighbours goes to the upper one: mode, sign, oddness of the lower one, the part
`rem` / 2^k above it, whether more lies below, and the drawn %seed (R135, R137). -/
def roundsUp (mode : Nat) (neg odd : Bool) (rem k : Nat) (low : Bool) (s : Word) : Bool :=
  match mode with
  | 0 => decide (2 ^ k < 2 * rem) || decide (2 ^ k = 2 * rem) && (low || odd)
  | 1 => false
  | 2 => !neg && (rem != 0 || low)
  | 3 => neg && (rem != 0 || low)
  | 4 => decide (2 ^ k ≤ 2 * rem)
  | _ => decide (s.toNat < rem * 2 ^ 32 / 2 ^ k)

/-- Splits m × 2^e at the quantum 2^q: the whole quanta, and the rest over 2^k. Far below the quantum a remnant stands for
the value. -/
def splitAt (q : Int) (m : Nat) (e : Int) : Nat × Nat × Nat :=
  if q ≤ e then (m * 2 ^ (e - q).toNat, 0, 0)
  else
    let k := (q - e).toNat
    if Nat.log2 m + 80 < k then (0, if m = 0 then 0 else 1, 80) else (m / 2 ^ k, m % 2 ^ k, k)

/-- Rounds a magnitude at the quantum 2^q: the number of quanta, and whether it is inexact. -/
def roundAt (q : Int) (m : Nat) (e : Int) (mode : Nat) (neg low : Bool) (s : Word) : Nat × Bool :=
  let (lo, rem, k) := splitAt q m e
  (if roundsUp mode neg (lo % 2 == 1) rem k low s then lo + 1 else lo, rem != 0 || low)

/-- What Round gives: the code, its conditions and the new %seed. -/
structure Rounded where
  code : Nat
  fl   : BitVec 6
  seed : Word
deriving DecidableEq, Repr

/-- Whether a positive value exceeds one. -/
def aboveOne (m : Nat) (e : Int) (low : Bool) : Bool :=
  let E : Int := Nat.log2 m + e
  decide (0 < E) || decide (E = 0) && (m != 2 ^ Nat.log2 m || low)

/-- The limits of CLAMP (R136 step 2): the value, and whether it changed. -/
def clampOne (x : Num) : Num × Bool :=
  match x with
  | .nan => (.zero false, true)
  | .inf s => (if s then .zero false else .ofInt 1, true)
  | .fin s m e l =>
    if m = 0 then (x, false)
    else if s then (.zero false, true)
    else if aboveOne m e l then (.ofInt 1, true)
    else (x, false)

/-- The result beyond the largest finite value (R138): a code with its conditions, for a finite value or an infinity. The NaN that an
infinity gives in e4m3 is the canonical one (R123). -/
def Fmt.beyond (f : Fmt) (neg finite : Bool) (mode sat : Nat) : Nat × BitVec 6 :=
  let big := f.signed neg f.largest
  let ovf := when_ finite (cOVF ||| cINX)
  if sat ≠ 0 ∨ f.kind = .plain then (big, ovf ||| cSAT)
  else if f.kind = .e4m3 then if finite then (f.signed neg f.canon, ovf) else (f.canon, cINV)
  else
    let toLargest := finite && (mode == 1 || mode == 2 && neg || mode == 3 && !neg)
    (if toLargest then big else f.signed neg f.infinity, ovf)

/-- The magnitude code of `r` quanta of 2^q. -/
def Fmt.magCode (f : Fmt) (r : Nat) (q : Int) : Nat :=
  let (r, q) := if r = 2 ^ (f.mn + 1) then (2 ^ f.mn, q + 1) else (r, q)
  if r < 2 ^ f.mn then r else (q + f.mn + f.bias).toNat * 2 ^ f.mn + (r - 2 ^ f.mn)

/-- Steps 3 and 4 of R136 for a finite value, and the flush of R140: a result below the smallest normal value is tiny. -/
def Fmt.roundFin (f : Fmt) (neg : Bool) (m : Nat) (e : Int) (low : Bool) (mode sat : Nat) (ftz : Bool) (s : Word) :
    Nat × BitVec 6 :=
  if m = 0 then (f.signed neg 0, 0)
  else
    let E : Int := Nat.log2 m + e
    let emin : Int := 1 - f.bias
    let q := max E emin - f.mn
    let (r, inexact) := roundAt q m e mode neg low s
    let mag := f.magCode r q
    if f.largest < mag then f.beyond neg true mode sat
    else if ftz && mag != 0 && decide (mag < 2 ^ f.mn) then (f.signed neg 0, cUNF ||| cINX)
    else (f.signed neg mag, when_ inexact cINX ||| when_ (inexact && decide (mag < 2 ^ f.mn)) cUNF)

/-- Round (R136) into a floating-point format. A signalling input and an operation that makes a NaN add INV themselves. -/
def Fmt.round (f : Fmt) (x : Num) (mode sat : Nat) (ftz : Bool) (s : Word) : Rounded :=
  let s := seedAfter mode s
  if x = .nan && (f.kind = .plain || sat != 2) then ⟨f.canon, when_ (f.kind = .plain) cINV, s⟩
  else
    let (x, changed) := if sat = 2 then clampOne x else (x, false)
    let (code, fl) := match x with
      | .nan => (f.canon, 0)
      | .inf n => f.beyond n false mode sat
      | .fin n m e l => f.roundFin n m e l mode sat ftz s
    ⟨code, fl ||| when_ changed cSAT, s⟩

/-- Rounds a value to an integer: it and whether it is inexact. -/
def roundInt (neg : Bool) (m : Nat) (e : Int) (low : Bool) (mode : Nat) (s : Word) : Int × Bool :=
  let (r, inexact) := roundAt 0 m e mode neg low s
  (if neg then -(r : Int) else r, inexact)

/-- Round into an integer format with the range `lo` to `hi` (R139). -/
def roundToInt (lo hi : Int) (x : Num) (mode sat : Nat) (s : Word) : Int × BitVec 6 × Word :=
  let s := seedAfter mode s
  let clamp := sat = 2
  let above := if clamp then (hi, cSAT) else (hi, cINV)
  let below := if clamp then ((0 : Int), cSAT) else (lo, cINV)
  match x with
  | .nan => (0, cINV, s)
  | .inf n => let (y, c) := if n then below else above; (y, c, s)
  | .fin n m e l =>
    -- a magnitude of 2^80 or more is out of every range
    let (y, inexact) := if m = 0 then ((0 : Int), false)
                        else if 80 < (Nat.log2 m : Int) + e then ((if n then -(2 ^ 80 : Nat) else (2 ^ 80 : Nat) : Int), false)
                        else roundInt n m e l mode s
    let (z, c) := if hi < y then above else if y < lo then below
                  else if clamp && decide (y < 0) then (0, cSAT) else (y, 0)
    (z, c ||| when_ inexact cINX, s)

/-! ## lg8 and e8m0 (R124, R125, R196) -/

/-- m(j) of R125. -/
def lg8Table : List Nat := [256, 267, 279, 292, 304, 318, 332, 347, 362, 378, 395, 412, 431, 450, 470, 490]

/-- 2^(T div 16) × m(T mod 16) / 256 as an exact value (R125, R126). -/
def lg8Value (neg : Bool) (T : Int) : Num :=
  .fin neg ((lg8Table[(T % 16).toNat]?).getD 0) (Int.fdiv T 16 - 8) false

/-- L of a code, -64 to 63. -/
def lg8L (x : Nat) : Int := signed 7 x

/-- The value of an lg8 code (R125). -/
def lg8Decode (x : Nat) : Num := if x % 128 = 64 then .zero (bit x 7) else lg8Value (bit x 7) (lg8L x)

/-- The magnitude of lg8 index i = L + 64, in units of 2^-12; index 128 is the value above the largest. -/
def lg8Mag (i : Nat) : Nat := if i = 0 then 0 else (lg8Table[i % 16]?).getD 0 * 2 ^ (i / 16)

/-- Round into lg8 (R196). -/
def lg8Round (x : Num) (mode sat : Nat) (s : Word) : Rounded :=
  let s := seedAfter mode s
  let code := fun (neg : Bool) (i : Nat) => (if neg then 128 else 0) + (i + 64) % 128
  if x = .nan then ⟨0x40, cINV, s⟩
  else
    let (x, changed) := if sat = 2 then clampOne x else (x, false)
    let (y, fl) := match x with
      | .nan => (0x40, cINV)
      | .inf n => (code n 127, cSAT)
      | .fin n m e _ =>
        if m = 0 then (code n 0, 0)
        else if 4 < (Nat.log2 m : Int) + e then (code n 127, cOVF ||| cINX ||| cSAT)
        else if (Nat.log2 m : Int) + e < -120 then
          -- far below the smallest magnitude
          let i := if roundsUp mode n false 1 80 true s then 1 else 0
          (code n i, if i = 0 then cUNF ||| cINX else cINX)
        else
          -- in units of 2^-12, over 2^k
          let k := (-(e + 12)).toNat
          let v := m * 2 ^ (e + 12).toNat
          let lo := ((List.range 129).filter fun i => lg8Mag i * 2 ^ k ≤ v).length - 1
          let a := lg8Mag lo * 2 ^ k
          let gap := (lg8Mag (min (lo + 1) 128) - lg8Mag lo) * 2 ^ k
          let rem := v - a
          let up := lo < 128 && rem != 0 && match mode with
            | 0 => decide (gap < 2 * rem) || decide (gap = 2 * rem) && lo % 2 == 1
            | 1 => false
            | 2 => !n
            | 3 => n
            | 4 => decide (gap ≤ 2 * rem)
            | _ => decide (s.toNat < rem * 2 ^ 32 / gap)
          let i := if up then lo + 1 else lo
          if 127 < i then (code n 127, cOVF ||| cINX ||| cSAT)
          else (code n i, when_ (rem != 0) cINX ||| when_ (i = 0 && rem != 0) cUNF)
    ⟨y, fl ||| when_ changed cSAT, s⟩

/-- The value of an e8m0 code (R124). -/
def e8m0Decode (x : Nat) : Num := if x = 255 then .nan else .fin false 1 ((x : Int) - 127) false

/-- Round into e8m0 (R196). -/
def e8m0Round (x : Num) (mode sat : Nat) (s : Word) : Rounded :=
  let s := seedAfter mode s
  if x = .nan && sat != 2 then ⟨255, 0, s⟩
  else
    let (x, changed) := if sat = 2 && x.neg && (match x with | .inf _ => true | _ => false) then (x, false)
                        else if sat = 2 then clampOne x else (x, false)
    let (y, fl) := match x with
      | .nan => (255, 0)
      | .inf n => if n then (255, cINV) else (254, cSAT)
      | .fin n m e _ =>
        if m = 0 || n then (255, cINV)
        else
          let E : Int := Nat.log2 m + e
          if E < -127 then (0, cUNF ||| cINX)
          else
            let rem := m - 2 ^ Nat.log2 m
            let up := roundsUp mode false ((E + 127) % 2 == 1) rem (Nat.log2 m) false s
            let c := E + 127 + (if up then 1 else 0)
            if 254 < c then (254, cOVF ||| cINX ||| cSAT) else (c.toNat, when_ (rem != 0) cINX)
    ⟨y, fl ||| when_ changed cSAT, s⟩

/-! ## Exact arithmetic (R183) -/

/-- An exact sum of two finite values. -/
def addFin (s : Bool) (m : Nat) (e : Int) (t : Bool) (n : Nat) (g : Int) (down : Bool) : Num :=
  if m = 0 ∧ n = 0 then (if s = t then .zero s else .zero down)
  else
    let q := if m = 0 then g else if n = 0 then e else min e g
    let a : Int := (m * 2 ^ (e - q).toNat : Nat)
    let b : Int := (n * 2 ^ (g - q).toNat : Nat)
    let x := (if s then -a else a) + (if t then -b else b)
    if x = 0 then .zero down else .fin (decide (x < 0)) x.natAbs q false

/-- a + b, with INV for opposite infinities; `down` is mode RDN, under which an exact zero sum is -0. -/
def Num.add (a b : Num) (down : Bool) : Num × BitVec 6 :=
  match a, b with
  | .nan, _ => (.nan, 0)
  | _, .nan => (.nan, 0)
  | .inf s, .inf t => if s = t then (.inf s, 0) else (.nan, cINV)
  | .inf s, _ => (.inf s, 0)
  | _, .inf t => (.inf t, 0)
  | .fin s m e _, .fin t n g _ => (addFin s m e t n g down, 0)

/-- a × b, with INV for 0 × ∞. -/
def Num.mul (a b : Num) : Num × BitVec 6 :=
  match a, b with
  | .nan, _ => (.nan, 0)
  | _, .nan => (.nan, 0)
  | .inf s, .inf t => (.inf (s != t), 0)
  | .inf s, .fin t n _ _ => if n = 0 then (.nan, cINV) else (.inf (s != t), 0)
  | .fin s m _ _, .inf t => if m = 0 then (.nan, cINV) else (.inf (s != t), 0)
  | .fin s m e _, .fin t n g _ => (.fin (s != t) (m * n) (if m * n = 0 then 0 else e + g) false, 0)

/-- a ÷ b, with DZ for a finite non-zero value over zero, and INV for 0 ÷ 0 and ∞ ÷ ∞. -/
def Num.div (a b : Num) : Num × BitVec 6 :=
  match a, b with
  | .nan, _ => (.nan, 0)
  | _, .nan => (.nan, 0)
  | .inf _, .inf _ => (.nan, cINV)
  | .inf s, .fin t _ _ _ => (.inf (s != t), 0)
  | .fin s _ _ _, .inf t => (.zero (s != t), 0)
  | .fin s m e _, .fin t n g _ =>
    if n = 0 then (if m = 0 then (.nan, cINV) else (.inf (s != t), cDZ))
    else if m = 0 then (.zero (s != t), 0)
    else
      let k := 200 + Nat.log2 n
      let x := m * 2 ^ k
      (.fin (s != t) (x / n) (e - g - k) (x % n != 0), 0)

/-- Integer square root by its bits, from bit `i - 1` down. -/
def isqrtFrom (n : Nat) : Nat → Nat → Nat
  | 0, r => r
  | i + 1, r => isqrtFrom n i (if (r + 2 ^ i) * (r + 2 ^ i) ≤ n then r + 2 ^ i else r)

/-- The integer square root. -/
def isqrt (n : Nat) : Nat := isqrtFrom n (Nat.log2 n / 2 + 1) 0

/-- √x, with INV below zero. -/
def Num.sqrt (x : Num) : Num × BitVec 6 :=
  match x with
  | .nan => (.nan, 0)
  | .inf s => if s then (.nan, cINV) else (.inf false, 0)
  | .fin s m e _ =>
    if m = 0 then (.zero s, 0)
    else if s then (.nan, cINV)
    else
      let k : Nat := if e % 2 = 0 then 400 else 401
      let n := m * 2 ^ k
      let r := isqrt n
      (.fin false r ((e - k) / 2) (r * r != n), 0)

/-- 1 ÷ √x of a positive value. -/
def rsqrtPos (m : Nat) (e : Int) : Num :=
  let (m, e) := if e % 2 == 0 then (m, e) else (2 * m, e - 1)
  let k := 200 + Nat.log2 m
  let r := isqrt (2 ^ (2 * k) / m)
  .fin false r (-(k : Int) - e / 2) (r * r * m != 2 ^ (2 * k))

/-- Compares two values that are no NaN: whether a < b, with -0 equal to +0. -/
def Num.lt (a b : Num) : Bool :=
  match a, b with
  | .inf s, .inf t => s && !t
  | .inf s, .fin .. => s
  | .fin .., .inf t => !t
  | .fin s m e _, .fin t n g _ =>
    match addFin s m e (!t) n g false with
    | .fin u x _ _ => u && x != 0
    | _ => false
  | _, _ => false

/-- Whether two values that are no NaN are equal. -/
def Num.eq (a b : Num) : Bool := a != .nan && b != .nan && !a.lt b && !b.lt a

/-! ## The functions of R189, to more than 190 bits (log 10) -/

/-- π with 1,280 fraction bits. -/
def piBits : Nat :=
  (((0x3243f6a8885a308d313198a2e03707344) * 2 ^ 384 +
    0xa4093822299f31d0082efa98ec4e6c89452821e638d01377be5466cf34e90c6cc0ac29b7c97c50dd3f84d5b5b5470917) * 2 ^ 384 +
    0x9216d5d98979fb1bd1310ba698dfb5ac2ffd72dbd01adfb7b8e1afed6a267e96ba7c9045f12c7f9924a19947b3916cf7) * 2 ^ 384 +
    0x0801f2e2858efc16636920d871574e69a458fea3f4933d7e0d95748f728eb658718bcd5882154aee7b54a41dc25a59b5

/-- ln 2 with 320 fraction bits. -/
def ln2Bits : Nat := 0xb17217f7d1cf79abc9e3b39803f2f6af40f343267298b62d8a0d175b8baafa2be7b876206debac98

/-- r + r²/2! + r³/3! + … from term n, with p fraction bits. -/
def expTerms (p r : Nat) : Nat → Nat → Nat → Nat
  | 0, _, _ => 0
  | fuel + 1, n, term => term + expTerms p r fuel (n + 1) (term * r / 2 ^ p / n)

/-- z + z³/3 + z⁵/5 + … with p fraction bits. -/
def atanhTerms (p zz : Nat) : Nat → Nat → Nat → Nat
  | 0, _, _ => 0
  | fuel + 1, n, t => t / n + atanhTerms p zz fuel (n + 2) (t * zz / 2 ^ p)

/-- The alternating terms of sine (from r, n = 2) and cosine (from 1, n = 1), with p fraction bits. -/
def trigTerms (p rr : Nat) : Nat → Nat → Int → Int
  | 0, _, _ => 0
  | fuel + 1, n, t => t + trigTerms p rr fuel (n + 2) (-(t * rr / (2 ^ p : Nat) / ((n * (n + 1) : Nat) : Int)))

/-- 2^x for an x that is no integer. -/
def exp2Of (neg : Bool) (m : Nat) (e : Int) : Num :=
  let k := (-e).toNat
  let x : Int := if neg then -(m : Int) else m
  let n := Int.fdiv x (2 ^ k : Nat)
  let f := (x - n * (2 ^ k : Nat)).toNat
  let r := f * (ln2Bits / 2 ^ 80) / 2 ^ k
  .fin false (2 ^ 240 + expTerms 240 r 80 2 r) (n - 240) true

/-- log2 x for a positive x that is no power of two. -/
def log2Of (m : Nat) (e : Int) : Num :=
  let l := Nat.log2 m
  let z := (m - 2 ^ l) * 2 ^ 240 / (m + 2 ^ l)
  let ln := 2 * atanhTerms 240 (z * z / 2 ^ 240) 90 1 z
  let v : Int := (l + e) * (2 ^ 240 : Nat) + (ln * 2 ^ 240 / (ln2Bits / 2 ^ 80) : Nat)
  .fin (decide (v < 0)) v.natAbs (-240) true

/-- Sine and cosine of a positive finite x: quadrant reduction, then the series. -/
def trigOf (cosine neg : Bool) (m : Nat) (e : Int) : Num :=
  let E : Int := Nat.log2 m + e
  let p := 256 + E.natAbs
  let x := m * 2 ^ (e + p).toNat
  let half := piBits / 2 ^ (1281 - p)
  let k := if E < 0 then 0 else x / half
  let r := if E < 0 then x else x % half
  -- after a reduction 256 fraction bits are kept
  let (r, p) := if E < 0 then (r, p) else (r / 2 ^ (p - 256), 256)
  let rr := r * r / 2 ^ p
  let sinV := min (trigTerms p rr 60 2 r).toNat (r - 1)
  let cosV := min (trigTerms p rr 60 1 (2 ^ p : Nat)).toNat (2 ^ p - 1)
  let q := (if cosine then k + 1 else k) % 4
  .fin ((decide (2 ≤ q)) != (neg && !cosine)) (if q % 2 = 0 then sinV else cosV) (-(p : Int)) true

/-- tanh of a positive finite x. -/
def tanhOf (neg : Bool) (m : Nat) (e : Int) : Num :=
  let E : Int := Nat.log2 m + e
  if 5 ≤ E then .fin neg (2 ^ 240 - 1) (-240) true
  else
    let p := 260 + E.natAbs
    let y := m * 2 ^ (e + 1 + p).toNat
    let x := expTerms p y 400 2 y
    .fin neg (x * 2 ^ p / (x + 2 * 2 ^ p)) (-(p : Int)) true

/-- What a function of R189 gives: an exact value with its conditions, or an exact value of which only a bound holds: `ulps`
units in the last place, or 2^-`abs` where that is given. -/
structure FuncRes where
  x    : Num
  fl   : BitVec 6 := 0
  /-- Whether the value returned is open within the bound. -/
  open_ : Bool := false
  ulps : Nat := 0
  abs  : Option Nat := none
deriving DecidableEq, Repr

/-- The functions of R189 (special inputs, exact cases, and the bound). `wide` is f64. -/
def funcOf (fn : Config.Approx) (wide : Bool) (x : Num) : FuncRes :=
  let fine : Nat := if wide then 50 else 22
  match fn, x with
  | _, .nan => { x := .nan }
  | .rcp, .inf s => { x := .zero s }
  | .rcp, .fin s m e l =>
    if m = 0 then { x := .inf s, fl := cDZ }
    else { x := (Num.div (.ofInt 1) (.fin s m e l)).1, open_ := true, ulps := 1 }
  | .rsq, .inf s => if s then { x := .nan, fl := cINV } else { x := .zero false }
  | .rsq, .fin s m e _ =>
    if m = 0 then { x := .inf s, fl := cDZ }
    else if s then { x := .nan, fl := cINV }
    else { x := rsqrtPos m e, open_ := true, ulps := 2 }
  | .exp2, .inf s => { x := if s then .zero false else .inf false }
  | .exp2, .fin s m e _ =>
    if m = 0 then { x := .ofInt 1 }
    else if 20 ≤ (Nat.log2 m : Int) + e then { x := .fin false 1 (if s then -1048576 else 1048576) false }
    else if 0 ≤ e ∨ m % 2 ^ (-e).toNat = 0 then
      let n : Int := if 0 ≤ e then m * 2 ^ e.toNat else m / 2 ^ (-e).toNat
      { x := .fin false 1 (if s then -n else n) false }
    else { x := exp2Of s m e, open_ := true, ulps := 2 }
  | .log2, .inf s => if s then { x := .nan, fl := cINV } else { x := .inf false }
  | .log2, .fin s m e _ =>
    if m = 0 then { x := .inf true, fl := cDZ }
    else if s then { x := .nan, fl := cINV }
    else if m = 2 ^ Nat.log2 m then { x := .ofInt (Nat.log2 m + e) }
    else
      let E : Int := Nat.log2 m + e
      { x := log2Of m e, open_ := true, ulps := 2, abs := if E = -1 ∨ E = 0 then some fine else none }
  | .sin, .inf _ => { x := .nan, fl := cINV }
  | .sin, .fin s m e _ =>
    if m = 0 then { x := .zero s } else { x := trigOf false s m e, open_ := true, abs := some fine }
  | .cos, .inf _ => { x := .nan, fl := cINV }
  | .cos, .fin s m e _ =>
    if m = 0 then { x := .ofInt 1 } else { x := trigOf true s m e, open_ := true, abs := some fine }
  | .tanh, .inf s => { x := .ofInt (if s then -1 else 1) }
  | .tanh, .fin s m e _ =>
    if m = 0 then { x := .zero s } else { x := tanhOf s m e, open_ := true, ulps := 2 }

/-- Whether a finite value lies within the bound of an exact one (R189). -/
def Fmt.within (f : Fmt) (v : Num) (r : FuncRes) : Bool :=
  match v, r.x with
  | .fin s m e _, .fin t n g low =>
    let unit : Int := match r.abs with
      | some a => -(a : Int)
      | none => max ((Nat.log2 n : Int) + g) (1 - f.bias) - f.mn
    let count := match r.abs with
      | some _ => 1
      | none => r.ulps
    match addFin s m e (!t) n g false with
    | .fin _ d q _ =>
      let far := (count : Int) * (2 ^ (unit - q).toNat : Nat)
      let near := (d : Int) * (2 ^ (q - unit).toNat : Nat)
      if r.ulps = 1 ∧ r.abs = none then decide (near < far) else if low then decide (near < far) else decide (near ≤ far)
    | _ => false
  | _, _ => false

/-- An approximate function of a code (R189, R190): the device's value where it lies within the bound, else the nearest one
(log 10). INX, UNF and OVF are those of Round of the exact result under the saturation mode; the value returned saturates. -/
def Fmt.function (f : Fmt) (fn : Config.Approx) (wide ftz : Bool) (code sat : Nat) (s : Word) : Rounded :=
  let x := if ftz && f.subnormal code then Num.zero (f.sign code) else f.decode code
  let r := funcOf fn wide x
  let sig := when_ (f.signalling code) cINV
  if !r.open_ then
    let y := f.round r.x 0 sat ftz s
    { y with fl := y.fl ||| r.fl ||| sig }
  else
    let near := f.round r.x 0 sat ftz s
    let plain := (f.round r.x 0 0 false s).code
    let dev := Config.approx fn wide ftz code % 2 ^ f.width
    let pick := match f.decode plain, f.decode dev with
      | .fin .., .fin n m e l => if f.within (.fin n m e l) r then dev else plain
      | _, _ => plain
    let pick := if ftz && f.subnormal pick then f.signed (f.sign pick) 0 else pick
    let y := f.round (f.decode pick) 0 sat false s
    { y with fl := y.fl ||| (near.fl &&& ~~~cSAT) ||| r.fl ||| sig }

end Sys2Proof.Machine
end

