-- ==== Sys2Proof/Machine/Integer.lean ====
section
/-! DEFINITION. Integer, logic, bit-field, predicate, select and move instructions (R149 to R175). -/
namespace Sys2Proof.Machine

/-! ## Types and operands (R70, R151, R154) -/

/-- Width in bits of a type code. -/
def tyWidth (ty : BitVec 3) : Nat :=
  match ty.toNat with
  | 0 | 1 => 32
  | 2 | 3 => 64
  | 4 | 5 => 16
  | _ => 8

/-- Whether a type is signed (.i). -/
def tySigned (ty : BitVec 3) : Bool := !ty.getLsbD 0

/-- Registers of an operand of a type. -/
def tyRegs (ty : BitVec 3) : Nat := if tyWidth ty = 64 then 2 else 1

/-- The tag that a type requires and writes (R108). -/
def tyTag (ty : BitVec 3) : BitVec 5 :=
  match tyWidth ty, tySigned ty with
  | 64, true => 5
  | 64, false => 6
  | _, true => 1
  | _, false => 2

/-- Get (R154): the low bits of a value, read as the type says. -/
def getInt (ty : BitVec 3) (x : Nat) : Int :=
  if tySigned ty then signed (tyWidth ty) x else ((x % 2 ^ tyWidth ty : Nat) : Int)

/-- Put (R154): the register's value for a result of the type's width. -/
def putInt (ty : BitVec 3) (y : Nat) : Nat :=
  if tyWidth ty < 32 && tySigned ty then wrap 32 (signed (tyWidth ty) y) else y % 2 ^ tyWidth ty

/-- The SAT condition (R115). -/
def condSat : BitVec 6 := 0x20
/-- The DZ condition. -/
def condDz : BitVec 6 := 0x02

/-- Least and greatest value of a type. -/
def tyRange (ty : BitVec 3) : Int × Int :=
  let w := tyWidth ty
  if tySigned ty then (-(2 ^ (w - 1) : Nat), (2 ^ (w - 1) : Nat) - 1) else (0, (2 ^ w : Nat) - 1)

/-- Fit and Put (R154): wraps, or with .sat clamps and raises SAT. -/
def fitInt (ty : BitVec 3) (sat : Bool) (x : Int) : LaneRes :=
  let (lo, hi) := tyRange ty
  let y := if sat then max lo (min hi x) else x
  { val := putInt ty (wrap (tyWidth ty) y), fl := if y = x then 0 else condSat }

/-- An int operand (R151). -/
def intSrc (field : Nat) (a : Arg) (ty : BitVec 3) : Src :=
  { field := field, arg := a, acc := anyVal, regs := tyRegs ty, tags := [tyTag ty] }

/-- A count operand: 32 bits, tagged i32 or n32. -/
def countSrc (field : Nat) (a : Arg) : Src := { field := field, arg := a, acc := anyVal, tags := [1, 2] }

/-- A bits operand of `n` registers. -/
def bitsSrc (field : Nat) (a : Arg) (n : Nat) : Src := { field := field, arg := a, acc := anyVal, regs := n }

/-- A pred operand; zero reads false. -/
def predSrc (field : Nat) (c : Code) : Src := { field := field, arg := .code c, acc := [.p, .zero] }

/-- A p destination (R152). -/
def predDst (c : Code) : Dst := { code := c, acc := [.p] }

/-- The destination of a typed instruction (R152). -/
def intDst (c : Code) (ty : BitVec 3) : Dst := { code := c, acc := anyDst, regs := tyRegs ty, tag := tyTag ty }

/-- The immediate or register B at a type's width. -/
def FormRI.argTy (f : FormRI) (ty : BitVec 3) : Arg := f.argB (tyWidth ty)

/-- The spec of an instruction in form R, I over some sources. -/
def specRI (f : FormRI) (srcs : List Src) (d : Dst) (cls : Option Nat := none) : Spec :=
  { srcs := srcs, dst := some d, smod := f.smod, mtgt := f.mtgt, cls := cls }

/-- The same for form R. -/
def specR (f : FormR) (srcs : List Src) (d : Dst) (cls : Option Nat := none) : Spec :=
  { srcs := srcs, dst := some d, smod := f.smod, mtgt := f.mtgt, cls := cls }

/-- Nothing beyond the results. -/
def noMore (_rs : List (Nat × LaneRes)) (s : State) : State := s

/-- A typed instruction of A and B (R159): the exact operation and its fit. -/
def int2 (i : Instr) (h : Head) (f : FormRI) (sat : Bool) (cls : Option Nat) (op : Int → Int → Int) (s : State) :
    Host.Outcome State Fault Refusal :=
  issue i h (specRI f [intSrc 1 (.code f.a) f.ty, intSrc 2 (FormRI.argTy f f.ty) f.ty] (intDst f.dst f.ty) cls) (fun c =>
    c.lane (fun t => fitInt f.ty sat (op (getInt f.ty (c.val 0 t)) (getInt f.ty (c.val 1 t)))) noMore) s

/-- A typed instruction of A, B and C (R159). -/
def int3 (i : Instr) (h : Head) (f : FormRI) (sat : Bool) (cls : Option Nat) (op : Int → Int → Int → Int) (s : State) :
    Host.Outcome State Fault Refusal :=
  issue i h (specRI f [intSrc 1 (.code f.a) f.ty, intSrc 2 (FormRI.argTy f f.ty) f.ty, intSrc 3 (.code f.c) f.ty]
      (intDst f.dst f.ty) cls) (fun c =>
    c.lane (fun t => fitInt f.ty sat
      (op (getInt f.ty (c.val 0 t)) (getInt f.ty (c.val 1 t)) (getInt f.ty (c.val 2 t)))) noMore) s

/-- A typed instruction of A (R159). -/
def int1 (i : Instr) (h : Head) (f : FormR) (sat : Bool) (op : Int → Int) (s : State) : Host.Outcome State Fault Refusal :=
  issue i h (specR f [intSrc 1 (.code f.a) f.ty] (intDst f.dst f.ty)) (fun c =>
    c.lane (fun t => fitInt f.ty sat (op (getInt f.ty (c.val 0 t)))) noMore) s

/-- Capability class of the multiply family (R157, R464). -/
def mulCls (ty : BitVec 3) : Option Nat := some (if tyWidth ty = 64 then 1 else 0)
/-- Capability class of the divide family. -/
def divCls (ty : BitVec 3) : Option Nat := some (if tyWidth ty = 64 then 3 else 2)

/-! ## Arithmetic (R159) -/

/-- IADD. -/
def execIadd (h : Head) (f : FormRI) (s : State) : Host.Outcome State Fault Refusal :=
  int2 (.iadd h f) h f (f.low.getLsbD 0) none (fun a b => a + b) s

/-- ISUB. -/
def execIsub (h : Head) (f : FormRI) (s : State) : Host.Outcome State Fault Refusal :=
  int2 (.isub h f) h f (f.low.getLsbD 0) none (fun a b => a - b) s

/-- IMUL. -/
def execImul (h : Head) (f : FormRI) (s : State) : Host.Outcome State Fault Refusal :=
  int2 (.imul h f) h f (f.low.getLsbD 0) (mulCls f.ty) (fun a b => a * b) s

/-- IMULH: the high half of the product, rounded down. -/
def execImulh (h : Head) (f : FormRI) (s : State) : Host.Outcome State Fault Refusal :=
  int2 (.imulh h f) h f false (mulCls f.ty) (fun a b => Int.fdiv (a * b) (2 ^ tyWidth f.ty : Nat)) s

/-- IMAD. -/
def execImad (h : Head) (f : FormRI) (s : State) : Host.Outcome State Fault Refusal :=
  int3 (.imad h f) h f (f.low.getLsbD 0) (mulCls f.ty) (fun a b c => a * b + c) s

/-- IMIN. -/
def execImin (h : Head) (f : FormRI) (s : State) : Host.Outcome State Fault Refusal :=
  int2 (.imin h f) h f false none (fun a b => min a b) s

/-- IMAX. -/
def execImax (h : Head) (f : FormRI) (s : State) : Host.Outcome State Fault Refusal :=
  int2 (.imax h f) h f false none (fun a b => max a b) s

/-- ICLAMP: with b above c, the result is c. -/
def execIclamp (h : Head) (f : FormRI) (s : State) : Host.Outcome State Fault Refusal :=
  int3 (.iclamp h f) h f false none (fun a b c => min (max a b) c) s

/-- ISAD. -/
def execIsad (h : Head) (f : FormRI) (s : State) : Host.Outcome State Fault Refusal :=
  int3 (.isad h f) h f (f.low.getLsbD 0) none (fun a b c => ((a - b).natAbs : Int) + c) s

/-- INEG. -/
def execIneg (h : Head) (f : FormR) (s : State) : Host.Outcome State Fault Refusal :=
  int1 (.ineg h f) h f (f.low.getLsbD 0) (fun a => -a) s

/-- IABS. -/
def execIabs (h : Head) (f : FormR) (s : State) : Host.Outcome State Fault Refusal :=
  int1 (.iabs h f) h f (f.low.getLsbD 0) (fun a => (a.natAbs : Int)) s

/-! ## Carries (R160) -/

/-- The carry predicate that [22:20] names, as a source. -/
def carrySrc (n : BitVec 3) : Src := predSrc 5 (768 + n.setWidth 10)

/-- IADDC and ISUBB: the sum or difference with the carry or borrow, which also receives the one that comes out. -/
def intCarry (i : Instr) (h : Head) (f : FormRI) (op : Int → Int → Int → Int) (s : State) :
    Host.Outcome State Fault Refusal :=
  issue i h (specRI f [intSrc 1 (.code f.a) f.ty, intSrc 2 (FormRI.argTy f f.ty) f.ty, carrySrc f.low]
      (intDst f.dst f.ty)) (fun c =>
    c.lane (fun t =>
        let x := op (getInt f.ty (c.val 0 t)) (getInt f.ty (c.val 1 t)) (c.val 2 t)
        { val := wrap (tyWidth f.ty) x, pred := decide (x < 0) || decide ((2 ^ tyWidth f.ty : Nat) ≤ x) })
      fun rs s => s.setPod (s.pod.wrPred f.low.toNat (maskOf (rs.map (·.1)))
        (maskOf ((rs.filter (·.2.pred)).map (·.1))))) s

/-- IADDC. -/
def execIaddc (h : Head) (f : FormRI) (s : State) : Host.Outcome State Fault Refusal :=
  intCarry (.iaddc h f) h f (fun a b c => a + b + c) s

/-- ISUBB. -/
def execIsubb (h : Head) (f : FormRI) (s : State) : Host.Outcome State Fault Refusal :=
  intCarry (.isubb h f) h f (fun a b c => a - b - c) s

/-! ## Division (R161) -/

/-- A division of one thread: the result for a divisor that is not zero, and the one for zero. -/
def intDivRem (i : Instr) (h : Head) (f : FormRI) (op zero : Int → Int → Int) (s : State) :
    Host.Outcome State Fault Refusal :=
  issue i h (specRI f [intSrc 1 (.code f.a) f.ty, intSrc 2 (FormRI.argTy f f.ty) f.ty] (intDst f.dst f.ty)
      (divCls f.ty)) (fun c =>
    c.laneT fun t =>
      let a := getInt f.ty (c.val 0 t)
      let b := getInt f.ty (c.val 1 t)
      if b = 0 then { fitInt f.ty false (zero a b) with fl := condDz } else fitInt f.ty false (op a b)) s

/-- IDIV: truncates towards zero; by zero, the greatest value, or the least for a negative dividend. -/
def execIdiv (h : Head) (f : FormRI) (s : State) : Host.Outcome State Fault Refusal :=
  intDivRem (.idiv h f) h f Int.tdiv (fun a _ => if a < 0 then (tyRange f.ty).1 else (tyRange f.ty).2) s

/-- IREM: the remainder takes the sign of the dividend; by zero it is the dividend. -/
def execIrem (h : Head) (f : FormRI) (s : State) : Host.Outcome State Fault Refusal :=
  intDivRem (.irem h f) h f Int.tmod (fun a _ => a) s

/-! ## Shifts (R162) -/

/-- A shift of A's pattern of `w` bits by the count B. -/
def intShift (i : Instr) (h : Head) (f : FormRI) (op : Nat → Nat → Nat → Nat) (s : State) :
    Host.Outcome State Fault Refusal :=
  let w := tyWidth f.ty
  issue i h (specRI f [intSrc 1 (.code f.a) f.ty, countSrc 2 (f.argB 32)] (intDst f.dst f.ty)) (fun c =>
    c.lane (fun t => { val := putInt f.ty (op w (c.val 0 t % 2 ^ w) (c.val 1 t)) }) noMore) s

/-- Shift left; 0 at a count of the width or more. -/
def shlBits (w a n : Nat) : Nat := if w ≤ n then 0 else a * 2 ^ n % 2 ^ w
/-- Logical shift right. -/
def shrBits (w a n : Nat) : Nat := if w ≤ n then 0 else a / 2 ^ n
/-- Arithmetic shift right; all sign bits at a count of the width or more. -/
def shraBits (w a n : Nat) : Nat := wrap w (Int.fdiv (signed w a) (2 ^ min n w : Nat))
/-- Rotation left by the count mod the width. -/
def rotlBits (w a n : Nat) : Nat := let r := n % w; (a * 2 ^ r + a / 2 ^ (w - r)) % 2 ^ w

/-- SHL. -/
def execShl (h : Head) (f : FormRI) (s : State) : Host.Outcome State Fault Refusal :=
  intShift (.shl h f) h f shlBits s

/-- SHR. -/
def execShr (h : Head) (f : FormRI) (s : State) : Host.Outcome State Fault Refusal :=
  intShift (.shr h f) h f shrBits s

/-- SHRA. -/
def execShra (h : Head) (f : FormRI) (s : State) : Host.Outcome State Fault Refusal :=
  intShift (.shra h f) h f shraBits s

/-- ROTL. -/
def execRotl (h : Head) (f : FormRI) (s : State) : Host.Outcome State Fault Refusal :=
  intShift (.rotl h f) h f rotlBits s

/-- The funnel shift of a high and a low part (R162). -/
def funnel (w : Nat) (left : Bool) (a l n : Nat) : Nat :=
  let u := min n w
  let x := a * 2 ^ w + l
  if left then x * 2 ^ u / 2 ^ w % 2 ^ w else x / 2 ^ u % 2 ^ w

/-- SHFD. -/
def execShfd (h : Head) (f : FormRI) (s : State) : Host.Outcome State Fault Refusal :=
  let w := tyWidth f.ty
  issue (.shfd h f) h (specRI f [intSrc 1 (.code f.a) f.ty, countSrc 2 (f.argB 32), intSrc 3 (.code f.c) f.ty]
      (intDst f.dst f.ty)) (fun c =>
    c.lane (fun t =>
      { val := putInt f.ty (funnel w (f.low.getLsbD 2) (c.val 0 t % 2 ^ w) (c.val 2 t % 2 ^ w) (c.val 1 t)) }) noMore) s

/-! ## Logic (R163) -/

/-- The tags of a source's registers or ring; untagged sources have none (R108). DEDUCED (log 34): a port's ring tag counts among them for
AND, OR, XOR, ANDN, NOT and BREV, as R156 has it for LOP3 and BYTEP. -/
def State.srcTags (s : State) (o : Src) : List (BitVec 5) :=
  match o.arg with
  | .imm _ => []
  | .code c =>
    match classOf c with
    | (.v, r) => (List.range o.regs).map fun i => s.pod.tagOf (r + i)
    | (.q, r) =>
      match s.portRing r with
      | some (_, x) => [x.tag]
      | none => []
    | _ => []

/-- The common tag of some sources, else raw (R108, R156); ports among them (log 34). -/
def State.commonTag (s : State) (os : List Src) : BitVec 5 :=
  match os.flatMap s.srcTags with
  | [] => 0
  | t :: ts => if ts.all (· == t) then t else 0

/-- Registers of the width field W (R150). -/
def wRegs (low : BitVec 3) : Nat :=
  match bits low.toNat 0 2 with
  | 0 => 1
  | 1 => 2
  | _ => 4

/-- A bitwise instruction of A and B. -/
def logic2 (i : Instr) (h : Head) (f : FormRI) (op : Nat → Nat → Nat) (s : State) : Host.Outcome State Fault Refusal :=
  let n := wRegs f.low
  let a := bitsSrc 1 (.code f.a) n
  let b := bitsSrc 2 (f.argB (32 * n)) n
  issue i h (specRI f [a, b] { code := f.dst, acc := anyDst, regs := n, tag := s.commonTag [a, b] }) (fun c =>
    c.lane (fun t => { val := op (c.val 0 t) (c.val 1 t) % 2 ^ (32 * n) }) noMore) s

/-- AND. -/
def execAndB (h : Head) (f : FormRI) (s : State) : Host.Outcome State Fault Refusal :=
  logic2 (.andB h f) h f (fun a b => a &&& b) s

/-- OR. -/
def execOrB (h : Head) (f : FormRI) (s : State) : Host.Outcome State Fault Refusal :=
  logic2 (.orB h f) h f (fun a b => a ||| b) s

/-- XOR. -/
def execXorB (h : Head) (f : FormRI) (s : State) : Host.Outcome State Fault Refusal :=
  logic2 (.xorB h f) h f (fun a b => a ^^^ b) s

/-- ANDN. -/
def execAndn (h : Head) (f : FormRI) (s : State) : Host.Outcome State Fault Refusal :=
  logic2 (.andn h f) h f (fun a b => a - (a &&& b)) s

/-- A bitwise instruction of A of W bits, with the registers and tag of its result. -/
def logic1 (i : Instr) (h : Head) (f : FormR) (small : Bool) (op : Nat → Nat → Nat) (s : State) :
    Host.Outcome State Fault Refusal :=
  let n := wRegs f.low
  let a := bitsSrc 1 (.code f.a) n
  issue i h (specR f [a] { code := f.dst, acc := anyDst, regs := if small then 1 else n,
                           tag := if small then 2 else s.commonTag [a] }) (fun c =>
    c.lane (fun t => { val := op (32 * n) (c.val 0 t) }) noMore) s

/-- NOT. -/
def execNotB (h : Head) (f : FormR) (s : State) : Host.Outcome State Fault Refusal :=
  logic1 (.notB h f) h f false (fun w a => 2 ^ w - 1 - a % 2 ^ w) s

/-- The result of a truth table over `w` bits (R163). -/
def lop3Bits (tt : Nat) (a b c : Nat) : Nat → Nat
  | 0 => 0
  | w + 1 =>
    let i := (if bit a w then 4 else 0) + (if bit b w then 2 else 0) + (if bit c w then 1 else 0)
    lop3Bits tt a b c w + (if bit tt i then 2 ^ w else 0)

/-- LOP3. -/
def execLop3 (h : Head) (f : FormQ) (s : State) : Host.Outcome State Fault Refusal :=
  let n := wRegs (f.flags.setWidth 3)
  let os := [bitsSrc 1 (.code f.a) n, bitsSrc 2 (.code f.b) n, bitsSrc 3 (.code f.c) n]
  issue (.lop3 h f) h
    { srcs := os, dst := some { code := f.dst, acc := anyDst, regs := n, tag := s.commonTag os } } (fun c =>
    c.lane (fun t => { val := lop3Bits (bits f.desc.toNat 0 8) (c.val 0 t) (c.val 1 t) (c.val 2 t) (32 * n) }) noMore) s

/-! ## Bit fields (R164 to R166) -/

/-- BFE of one value: its exact reading, position and length. -/
def bfeBits (ty : BitVec 3) (x : Int) (b : Nat) : Nat :=
  let w := tyWidth ty
  let pos := bits b 0 8
  let len := min (bits b 8 8) w
  let f := wrap len (Int.fdiv x (2 ^ pos : Nat))
  if tySigned ty && decide (0 < len) then wrap w (signed len f) else f % 2 ^ w

/-- BFE. -/
def execBfe (h : Head) (f : FormRI) (s : State) : Host.Outcome State Fault Refusal :=
  issue (.bfe h f) h (specRI f [intSrc 1 (.code f.a) f.ty, countSrc 2 (f.argB 32)] (intDst f.dst f.ty)) (fun c =>
    c.lane (fun t => { val := putInt f.ty (bfeBits f.ty (getInt f.ty (c.val 0 t)) (c.val 1 t)) }) noMore) s

/-- BFI of a value into a base. -/
def bfiBits (w a b base : Nat) : Nat :=
  let pos := bits b 0 8
  let len := min (bits b 8 8) w
  let n := if pos < w then min len (w - pos) else 0
  let keep := base - (base &&& ((2 ^ n - 1) * 2 ^ pos))
  keep + a % 2 ^ n * 2 ^ pos

/-- BFI. -/
def execBfi (h : Head) (f : FormRI) (s : State) : Host.Outcome State Fault Refusal :=
  let w := tyWidth f.ty
  issue (.bfi h f) h (specRI f [intSrc 1 (.code f.a) f.ty, countSrc 2 (f.argB 32), intSrc 3 (.code f.c) f.ty]
      (intDst f.dst f.ty)) (fun c =>
    c.lane (fun t => { val := putInt f.ty (bfiBits w (c.val 0 t) (c.val 1 t) (c.val 2 t % 2 ^ w)) }) noMore) s

/-- The reverse of `w` bits. -/
def revBits (w a : Nat) : Nat :=
  (List.range w).foldl (fun y i => if bit a i then y + 2 ^ (w - 1 - i) else y) 0

/-- The number of one bits among the `w` low ones. -/
def popBits (w a : Nat) : Nat := ((List.range w).filter fun i => bit a i).length

/-- Zero bits above the highest one bit. -/
def clzBits (w a : Nat) : Nat := if a % 2 ^ w = 0 then w else w - 1 - Nat.log2 (a % 2 ^ w)

/-- Zero bits below the lowest one bit. -/
def ctzBits (w a : Nat) : Nat := ((List.range w).find? fun i => bit a i).getD w

/-- BREV. -/
def execBrev (h : Head) (f : FormR) (s : State) : Host.Outcome State Fault Refusal :=
  logic1 (.brev h f) h f false revBits s

/-- POPC. -/
def execPopc (h : Head) (f : FormR) (s : State) : Host.Outcome State Fault Refusal :=
  logic1 (.popc h f) h f true popBits s

/-- CLZ. -/
def execClz (h : Head) (f : FormR) (s : State) : Host.Outcome State Fault Refusal :=
  logic1 (.clz h f) h f true clzBits s

/-- CTZ. -/
def execCtz (h : Head) (f : FormR) (s : State) : Host.Outcome State Fault Refusal :=
  logic1 (.ctz h f) h f true ctzBits s

/-- One byte of BYTEP (R166). -/
def bytepByte (x sel i : Nat) : Nat :=
  let n := bits sel (4 * i) 4
  let b := bits x (8 * (n % 8)) 8
  if n < 8 then b else if bit b 7 then 255 else 0

/-- BYTEP. -/
def execBytep (h : Head) (f : FormRI) (s : State) : Host.Outcome State Fault Refusal :=
  let os := [bitsSrc 1 (.code f.a) 1, countSrc 2 (f.argB 32), bitsSrc 3 (.code f.c) 1]
  issue (.bytep h f) h (specRI f os { code := f.dst, acc := anyDst, tag := s.commonTag os }) (fun c =>
    c.lane (fun t =>
      let x := c.val 0 t + 2 ^ 32 * c.val 2 t
      let b := fun i => bytepByte x (c.val 1 t) i
      { val := b 0 + 2 ^ 8 * b 1 + 2 ^ 16 * b 2 + 2 ^ 24 * b 3 }) noMore) s

/-! ## Predicates and selects (R167 to R170) -/

/-- The comparison of a condition code (R167). -/
def condHolds (cond : Nat) (a b : Int) : Bool :=
  match cond with
  | 0 => a == b
  | 1 => a != b
  | 2 => decide (a < b)
  | 3 => decide (a ≤ b)
  | 4 => decide (b < a)
  | _ => decide (b ≤ a)

/-- ISETP. -/
def execIsetp (h : Head) (f : FormRI) (s : State) : Host.Outcome State Fault Refusal :=
  issue (.isetp h f) h (specRI f [intSrc 1 (.code f.a) f.ty, intSrc 2 (FormRI.argTy f f.ty) f.ty] (predDst f.dst)) (fun c =>
    c.lane (fun t =>
      { pred := condHolds f.low.toNat (getInt f.ty (c.val 0 t)) (getInt f.ty (c.val 1 t)) }) noMore) s

/-- ISEL. -/
def execIsel (h : Head) (f : FormR) (s : State) : Host.Outcome State Fault Refusal :=
  let n := wRegs f.low
  let a := bitsSrc 1 (.code f.a) n
  let b := bitsSrc 2 (.code f.b) n
  issue (.isel h f) h (specR f [a, b, predSrc 3 f.c]
      { code := f.dst, acc := anyDst, regs := n, tag := s.commonTag [a, b] }) (fun c =>
    c.lane (fun t => { val := if c.val 2 t = 1 then c.val 0 t else c.val 1 t }) noMore) s

/-- The operations of PLOP (R169). -/
def plopOp (op : Nat) (a b : Bool) : Bool :=
  match op with
  | 0 => a && b
  | 1 => a || b
  | 2 => a != b
  | 3 => a && !b
  | 4 => a || !b
  | 5 => !(a && b)
  | 6 => !(a || b)
  | _ => a == b

/-- PLOP. -/
def execPlop (h : Head) (f : FormR) (s : State) : Host.Outcome State Fault Refusal :=
  issue (.plop h f) h (specR f [predSrc 1 f.a, predSrc 2 f.b] (predDst f.dst)) (fun c =>
    c.lane (fun t => { pred := plopOp f.low.toNat (c.val 0 t == 1) (c.val 1 t == 1) }) noMore) s

/-- The predicates p0 to p15 of a thread as a mask (R170). -/
def Pod.predBits (p : Pod) (t : Nat) : Nat :=
  (List.range 16).foldl (fun y j => if (p.predMask j).getLsbD t then y + 2 ^ j else y) 0

/-- PTOV; with .all into a k register, the mask of the lowest effective thread. DEDUCED (log 36): dst is of the classes that R152 gives typed
instructions. -/
def execPtov (h : Head) (f : FormR) (s : State) : Host.Outcome State Fault Refusal :=
  let all := f.low.getLsbD 2
  issue (.ptov h f) h
    { specR f [predSrc 1 f.a] { code := f.dst, acc := anyDst, tag := 2 } with
      bad := all && f.a != 1023 } (fun c =>
    c.lane (fun t => { val := if all then c.s.pod.predBits t else c.val 0 t }) noMore) s

/-- VTOP: one predicate, or with .all p1 to p15 of each thread. -/
def execVtop (h : Head) (f : FormR) (s : State) : Host.Outcome State Fault Refusal :=
  let all := f.low.getLsbD 2
  issue (.vtop h f) h
    (specR f [bitsSrc 1 (.code f.a) 1] { code := f.dst, acc := if all then [.zero] else [.p] }) (fun c =>
    let c := { c with uni := false }
    c.lane (fun t => { val := c.val 0 t, pred := c.val 0 t != 0 }) fun rs s =>
      if all then
        s.setPod ((List.range 16).foldl (fun p j =>
          p.wrPred j (maskOf (rs.map (·.1))) (maskOf ((rs.filter fun x => bit x.2.val j).map (·.1)))) s.pod)
      else s) s

/-! ## Moves (R171 to R175) -/

/-- The source classes of MOV for a destination (R171). -/
def movAcc (d : Code) (w : Nat) : List OpClass :=
  match (classOf d).1 with
  | .k => [.k, .special, .zero]
  | .g => [.g, .zero]
  | .zero => if w = 4 then [.v, .q, .zero] else if w = 1 then [.v, .k, .q, .special, .zero, .g] else [.v, .k, .q, .special, .zero]
  | _ => if w = 4 then [.v, .q, .zero] else [.v, .k, .q, .special, .zero]

/-- MOV. -/
def execMov (h : Head) (f : FormR) (s : State) : Host.Outcome State Fault Refusal :=
  let n := wRegs f.low
  let a : Src := { field := 1, arg := .code f.a, acc := movAcc f.dst n, regs := n }
  let wide := match (classOf f.dst).1 with
    | .k => n == 4
    | .g => n != 1
    | _ => false
  issue (.mov h f) h
    { specR f [a] { code := f.dst, acc := [.v, .k, .q, .g, .zero], regs := n, tag := s.commonTag [a] } with
      bad := wide, carries := true } (fun c =>
    c.lane (fun t => { val := c.val 0 t }) noMore) s

/-- MOVI. -/
def execMovi (h : Head) (f : FormI) (s : State) : Host.Outcome State Fault Refusal :=
  issue (.movi h f) h
    { dst := some { code := f.dst, acc := [.v, .k], regs := tyRegs f.ty,
                    tag := if f.flags.getLsbD 2 then 0 else tyTag f.ty } } (fun c =>
    c.lane (fun _ => { val := putInt f.ty (immValue (tyWidth f.ty) f.interp f.imm) }) noMore) s

/-- KGET: one thread's register, as of instruction start. -/
def execKget (h : Head) (f : FormR) (s : State) : Host.Outcome State Fault Refusal :=
  let n := wRegs f.low
  let first := f.low.getLsbD 2
  issue (.kget h f) h
    { srcs := [{ field := 1, arg := .code f.a, acc := [.v], regs := n },
               { field := 2, arg := .code f.b, acc := if first then [.zero] else uniAcc, uni := true }]
      dst := some { code := f.dst, acc := [.k], regs := n }, smod := f.smod, mtgt := f.mtgt, pod := true } (fun c =>
    let t := if first then ((List.range c.s.pod.width).find? fun t => c.act.getLsbD t).getD 0 else c.val 1 0 % c.s.pod.width
    if c.bad131 0 t then .raise (c.s.pod.before .formatMismatch 1 0 0) c.s
    else .done (c.put (c.val 0 t) c.s) 0) s

/-- LEA. DEDUCED (log 36): dst is of the classes that R152 gives typed instructions; R152 and R174 name none. -/
def execLea (h : Head) (f : FormRI) (s : State) : Host.Outcome State Fault Refusal :=
  let imm := match f with
    | .r _ => false
    | .i _ => true
  issue (.lea h f) h
    (specRI f [{ field := 1, arg := .code f.a, acc := [.v, .k, .zero], regs := 2 }, bitsSrc 2 (f.argB 64) 1]
      { code := f.dst, acc := anyDst, regs := 2, tag := 6 }) (fun c =>
    c.lane (fun t =>
      let x := c.val 1 t
      let i : Int := if imm then signed 64 x else if f.low.getLsbD 2 then (x : Int) else signed 32 x
      { val := wrap 64 ((c.val 0 t : Int) + i * (2 ^ bits f.low.toNat 0 2 : Nat)) }) noMore) s

/-- Registers of a tag's group (R106). -/
def groupRegs (n : Nat) : Nat := if n = 4 ∨ n = 5 ∨ n = 6 then 2 else if n = 17 ∨ n = 18 then 4 else 1

/-- TAG: the bits of A under the tag code of B. DEDUCED (log 35): the whole 32-bit value is compared with 21, as R175 writes it, though R151
says that 5 bits are used; dst is a v register, which R175 writes, and not the zero code. -/
def execTagOp (h : Head) (f : FormRI) (s : State) : Host.Outcome State Fault Refusal :=
  let n := match f.argB 32 with
    | .imm x => x
    | .code c => if (classOf c).1 = .k then (s.pod.rdK (classOf c).2).toNat else 0
  let g := groupRegs n
  issue (.tagOp h f) h
    { specRI f [{ field := 1, arg := .code f.a, acc := [.v, .zero], regs := g },
                { field := 2, arg := f.argB 32, acc := [.k, .zero] }]
        { code := f.dst, acc := [.v], regs := g, tag := BitVec.ofNat 5 n } with
      bad := decide (21 < n), carries := true } (fun c =>
    c.lane (fun t => { val := c.val 0 t }) noMore) s

end Sys2Proof.Machine
end

