-- ==== Sys2Proof/Machine/Float.lean ====
section
/-! DEFINITION. Floating-point, packed-half, conversion and dot instructions, and %fl (R176 to R206). -/
namespace Sys2Proof.Machine

/-! ## Operands (R177, R179) -/

/-- The format of a scalar type bit. -/
def scalarFmt (wide : Bool) : Fmt := if wide then .f64 else .f32
/-- Its tag. -/
def scalarTag (wide : Bool) : BitVec 5 := if wide then 4 else 3
/-- Its registers. -/
def scalarRegs (wide : Bool) : Nat := if wide then 2 else 1
/-- The format of a packed-half type bit. -/
def halfFmt (b : Bool) : Fmt := if b then .bf16 else .f16
/-- Its tag. -/
def halfTag (b : Bool) : BitVec 5 := if b then 8 else 7

/-- A float immediate at a format (R71): no condition is raised. -/
def floatImm (f : Fmt) (imm : Word) : Nat :=
  if f = .f32 then imm.toNat else (f.round (Fmt.f32.decode imm.toNat) 0 0 false 0).code

/-- B of a scalar float instruction. -/
def argFlt (f : FormRI) (wide : Bool) : Arg :=
  match f with
  | .r f => .code f.b
  | .i f => .imm (if f.interp = 2 then floatImm (scalarFmt wide) f.imm else immValue (if wide then 64 else 32) f.interp f.imm)

/-- B of a packed-half instruction; a float immediate fills both elements. -/
def argPk (f : FormRI) (b : Bool) : Arg :=
  match f with
  | .r f => .code f.b
  | .i f => .imm (if f.interp = 2 then let x := floatImm (halfFmt b) f.imm; x + 2 ^ 16 * x else immValue 32 f.interp f.imm)

/-- A scalar float operand. -/
def fltSrc (field : Nat) (a : Arg) (wide : Bool) : Src :=
  { field := field, arg := a, acc := anyVal, regs := scalarRegs wide, tags := [scalarTag wide] }

/-- A scalar float destination. -/
def fltDst (c : Code) (wide : Bool) : Dst := { code := c, acc := anyDst, regs := scalarRegs wide, tag := scalarTag wide }

/-- A packed operand with its tags. -/
def pkSrc (field : Nat) (a : Arg) (tags : List (BitVec 5)) : Src := { field := field, arg := a, acc := anyVal, tags := tags }

/-- The result of one thread from a rounded value; mode SR stores %seed. -/
def Rounded.res (r : Rounded) (mode : Nat) : LaneRes :=
  { val := r.code, fl := r.fl, seed := if mode = 5 then some r.seed else none }

/-- %seed of a thread at instruction start. -/
def Ctx.seed (c : Ctx) (t : Nat) : Word := c.s.pod.seed.get t

/-- INV for a signalling input (R141). -/
def sigInv (f : Fmt) (xs : List Nat) : BitVec 6 := when_ (xs.any f.signalling) cINV

/-- An instruction of execute pods only (R30). -/
def execOnly (sp : Spec) : Spec := { sp with access := false }

/-! ## Scalar arithmetic (R183) -/

/-- The type bit [25]. -/
def faWide (fl : BitVec 7) : Bool := fl.getLsbD 5
/-- The rounding field [24:22]. -/
def faRnd (fl : BitVec 7) : Nat := (fl.extractLsb' 2 3).toNat
/-- The saturation field [21:20]. -/
def faSat (fl : BitVec 7) : Nat := (fl.extractLsb' 0 2).toNat

/-- One thread of a scalar operation: the exact value with its conditions, rounded once. -/
def scalarRes (wide : Bool) (fl : BitVec 7) (x : Num × BitVec 6) (sig : BitVec 6) (seed : Word) : LaneRes :=
  let r := (scalarFmt wide).round x.1 (faRnd fl) (faSat fl) false seed
  { r.res (faRnd fl) with fl := r.fl ||| x.2 ||| sig }

/-- A scalar operation of A and B; `late` for class T. -/
def flt2 (i : Instr) (h : Head) (f : FormRI) (cls : Option Nat) (late : Bool)
    (op : Num → Num → Num × BitVec 6) (s : State) : Host.Outcome State Fault Refusal :=
  let wide := faWide f.flags
  let F := scalarFmt wide
  issue i h (execOnly (specRI f [fltSrc 1 (.code f.a) wide, fltSrc 2 (argFlt f wide) wide] (fltDst f.dst wide) cls)) (fun c =>
    let one := fun t => scalarRes wide f.flags (op (F.decode (c.val 0 t)) (F.decode (c.val 1 t)))
      (sigInv F [c.val 0 t, c.val 1 t]) (c.seed t)
    if late then c.laneT one else c.lane one noMore) s

/-- Class FFMA of a type (R181, R464). -/
def fmaCls (wide : Bool) : Option Nat := some (if wide then 5 else 4)
/-- Class FDIV of a type. -/
def fdivCls (wide : Bool) : Option Nat := some (if wide then 7 else 6)
/-- Class FEXP2 of a type. -/
def fexpCls (wide : Bool) : Option Nat := some (if wide then 9 else 8)
/-- Class HFMA2 of a type. -/
def hfmaCls (b : Bool) : Option Nat := some (if b then 11 else 10)

/-- Mode RDN. -/
def isDown (fl : BitVec 7) : Bool := faRnd fl == 3

/-- FADD. -/
def execFadd (h : Head) (f : FormRI) (s : State) : Host.Outcome State Fault Refusal :=
  flt2 (.fadd h f) h f (fmaCls (faWide f.flags)) false (fun a b => a.add b (isDown f.flags)) s

/-- FSUB: the addends are a and -b. -/
def execFsub (h : Head) (f : FormRI) (s : State) : Host.Outcome State Fault Refusal :=
  flt2 (.fsub h f) h f (fmaCls (faWide f.flags)) false (fun a b => a.add b.flip (isDown f.flags)) s

/-- FMUL. -/
def execFmul (h : Head) (f : FormRI) (s : State) : Host.Outcome State Fault Refusal :=
  flt2 (.fmul h f) h f (fmaCls (faWide f.flags)) false Num.mul s

/-- FDIV. -/
def execFdiv (h : Head) (f : FormRI) (s : State) : Host.Outcome State Fault Refusal :=
  flt2 (.fdiv h f) h f (fdivCls (faWide f.flags)) true Num.div s

/-- The fused a × b + c (R183). -/
def fma (a b c : Num) (down : Bool) : Num × BitVec 6 :=
  let (p, x) := a.mul b
  let (r, y) := p.add c down
  (r, x ||| y)

/-- FFMA. -/
def execFfma (h : Head) (f : FormRI) (s : State) : Host.Outcome State Fault Refusal :=
  let wide := faWide f.flags
  let F := scalarFmt wide
  issue (.ffma h f) h
    (execOnly (specRI f [fltSrc 1 (.code f.a) wide, fltSrc 2 (argFlt f wide) wide, fltSrc 3 (.code f.c) wide]
      (fltDst f.dst wide) (fmaCls wide))) (fun c =>
    c.lane (fun t => scalarRes wide f.flags
      (fma (F.decode (c.val 0 t)) (F.decode (c.val 1 t)) (F.decode (c.val 2 t)) (isDown f.flags))
      (sigInv F [c.val 0 t, c.val 1 t, c.val 2 t]) (c.seed t)) noMore) s

/-- FSCALE. -/
def execFscale (h : Head) (f : FormRI) (s : State) : Host.Outcome State Fault Refusal :=
  let wide := faWide f.flags
  let F := scalarFmt wide
  issue (.fscale h f) h
    (execOnly (specRI f [fltSrc 1 (.code f.a) wide, countSrc 2 (f.argB 32)] (fltDst f.dst wide) (fmaCls wide))) (fun c =>
    c.lane (fun t => scalarRes wide f.flags ((F.decode (c.val 0 t)).scale (signed 32 (c.val 1 t)), 0)
      (sigInv F [c.val 0 t]) (c.seed t)) noMore) s

/-! ## One operand (R184, R189) -/

/-- `.ftz` [26] of layout FU. -/
def fuFtz (fl : BitVec 7) : Bool := fl.getLsbD 6

/-- An operand under .ftz (R140). -/
def Fmt.read (f : Fmt) (ftz : Bool) (x : Nat) : Num := if ftz && f.subnormal x then .zero (f.sign x) else f.decode x

/-- FRND of one code. -/
def rndOne (F : Fmt) (ftz : Bool) (mode : Nat) (x : Nat) (seed : Word) : Rounded :=
  let seed := seedAfter mode seed
  match F.read ftz x with
  | .fin s m e l =>
    if 0 ≤ e then ⟨(F.round (.fin s m e l) 0 0 false 0).code, 0, seed⟩
    else
      let (y, inexact) := roundInt s m e l mode seed
      ⟨(F.round (.fin s y.natAbs 0 false) 0 0 false 0).code, when_ inexact cINX, seed⟩
  | y => ⟨(F.round y 0 0 false 0).code, when_ (F.signalling x) cINV, seed⟩

/-- FRND. -/
def execFrnd (h : Head) (f : FormR) (s : State) : Host.Outcome State Fault Refusal :=
  let wide := faWide f.flags
  issue (.frnd h f) h (execOnly (specR f [fltSrc 1 (.code f.a) wide] (fltDst f.dst wide))) (fun c =>
    c.lane (fun t => (rndOne (scalarFmt wide) (fuFtz f.flags) (faRnd f.flags) (c.val 0 t) (c.seed t)).res (faRnd f.flags))
      noMore) s

/-- FFRC of one code: x - trunc(x), which is exact. -/
def frcOne (F : Fmt) (ftz : Bool) (x : Nat) : Rounded :=
  match F.read ftz x with
  | .fin s m e _ =>
    let m' := if 0 ≤ e then 0 else m % 2 ^ (-e).toNat
    F.round (.fin s m' e false) 0 0 ftz 0
  | .inf _ => ⟨F.canon, cINV, 0⟩
  | .nan => ⟨F.canon, when_ (F.signalling x) cINV, 0⟩

/-- FFRC. -/
def execFfrc (h : Head) (f : FormR) (s : State) : Host.Outcome State Fault Refusal :=
  let wide := faWide f.flags
  issue (.ffrc h f) h (execOnly (specR f [fltSrc 1 (.code f.a) wide] (fltDst f.dst wide))) (fun c =>
    c.lane (fun t => (frcOne (scalarFmt wide) (fuFtz f.flags) (c.val 0 t)).res 0) noMore) s

/-- FGETX of one code. -/
def getxOne (F : Fmt) (ftz : Bool) (x : Nat) : LaneRes :=
  match F.read ftz x with
  | .fin _ m e _ =>
    if m = 0 then { val := 0x8000_0000, fl := cDZ } else { val := wrap 32 ((Nat.log2 m : Int) + e) }
  | _ => { val := 0x7FFF_FFFF, fl := cINV }

/-- FGETX. -/
def execFgetx (h : Head) (f : FormR) (s : State) : Host.Outcome State Fault Refusal :=
  let wide := faWide f.flags
  issue (.fgetx h f) h
    (execOnly (specR f [fltSrc 1 (.code f.a) wide] { code := f.dst, acc := anyDst, tag := 1 })) (fun c =>
    c.lane (fun t => getxOne (scalarFmt wide) (fuFtz f.flags) (c.val 0 t)) noMore) s

/-- An approximate function (R189, R190). -/
def fltFunc (i : Instr) (h : Head) (f : FormR) (fn : Config.Approx) (cls : Bool → Option Nat) (s : State) :
    Host.Outcome State Fault Refusal :=
  let wide := faWide f.flags
  issue i h (execOnly (specR f [fltSrc 1 (.code f.a) wide] (fltDst f.dst wide) (cls wide))) (fun c =>
    c.laneT fun t =>
      ((scalarFmt wide).function fn wide (fuFtz f.flags) (c.val 0 t) (faSat f.flags) (c.seed t)).res 0) s

/-- FRCP. -/
def execFrcp (h : Head) (f : FormR) (s : State) : Host.Outcome State Fault Refusal := fltFunc (.frcp h f) h f .rcp fdivCls s

/-- FRSQ. -/
def execFrsq (h : Head) (f : FormR) (s : State) : Host.Outcome State Fault Refusal := fltFunc (.frsq h f) h f .rsq fdivCls s

/-- FEXP2. -/
def execFexp2 (h : Head) (f : FormR) (s : State) : Host.Outcome State Fault Refusal := fltFunc (.fexp2 h f) h f .exp2 fexpCls s

/-- FLOG2. -/
def execFlog2 (h : Head) (f : FormR) (s : State) : Host.Outcome State Fault Refusal := fltFunc (.flog2 h f) h f .log2 fexpCls s

/-- FSIN. -/
def execFsin (h : Head) (f : FormR) (s : State) : Host.Outcome State Fault Refusal := fltFunc (.fsin h f) h f .sin fexpCls s

/-- FCOS. -/
def execFcos (h : Head) (f : FormR) (s : State) : Host.Outcome State Fault Refusal := fltFunc (.fcos h f) h f .cos fexpCls s

/-- FTANH. -/
def execFtanh (h : Head) (f : FormR) (s : State) : Host.Outcome State Fault Refusal := fltFunc (.ftanh h f) h f .tanh fexpCls s

/-- FSQRT: correctly rounded. -/
def execFsqrt (h : Head) (f : FormR) (s : State) : Host.Outcome State Fault Refusal :=
  let wide := faWide f.flags
  let F := scalarFmt wide
  issue (.fsqrt h f) h (execOnly (specR f [fltSrc 1 (.code f.a) wide] (fltDst f.dst wide) (fdivCls wide))) (fun c =>
    c.laneT fun t =>
      let x := (F.read (fuFtz f.flags) (c.val 0 t)).sqrt
      let r := F.round x.1 (faRnd f.flags) (faSat f.flags) (fuFtz f.flags) (c.seed t)
      { r.res (faRnd f.flags) with fl := r.fl ||| x.2 ||| sigInv F [c.val 0 t] }) s

/-! ## Comparison, classification and sign (R185 to R188) -/

/-- Whether the first of two numbers is the lesser; -0 counts as below +0 (R185). -/
def lesser (a b : Num) : Bool := a.lt b || a.isZero && b.isZero && a.neg && !b.neg

/-- Minimum or maximum of two codes (R185): `number` for the Number variants. -/
def minMax (F : Fmt) (max number : Bool) (x y : Nat) : Nat × BitVec 6 :=
  let a := F.decode x
  let b := F.decode y
  let r := if a = .nan then (if number && b != .nan then y else F.canon)
           else if b = .nan then (if number then x else F.canon)
           else if max then (if lesser a b then y else x)
           else (if lesser b a then y else x)
  (r, sigInv F [x, y])

/-- FMIN, FMAX, FMINN and FMAXN. -/
def fltMinMax (i : Instr) (h : Head) (f : FormRI) (max number : Bool) (s : State) : Host.Outcome State Fault Refusal :=
  let wide := faWide f.flags
  issue i h (execOnly (specRI f [fltSrc 1 (.code f.a) wide, fltSrc 2 (argFlt f wide) wide] (fltDst f.dst wide))) (fun c =>
    c.lane (fun t =>
      let r := minMax (scalarFmt wide) max number (c.val 0 t) (c.val 1 t)
      { val := r.1, fl := r.2 }) noMore) s

/-- FMIN. -/
def execFmin (h : Head) (f : FormRI) (s : State) : Host.Outcome State Fault Refusal := fltMinMax (.fmin h f) h f false false s

/-- FMAX. -/
def execFmax (h : Head) (f : FormRI) (s : State) : Host.Outcome State Fault Refusal := fltMinMax (.fmax h f) h f true false s

/-- FMINN. -/
def execFminn (h : Head) (f : FormRI) (s : State) : Host.Outcome State Fault Refusal := fltMinMax (.fminn h f) h f false true s

/-- FMAXN. -/
def execFmaxn (h : Head) (f : FormRI) (s : State) : Host.Outcome State Fault Refusal := fltMinMax (.fmaxn h f) h f true true s

/-- The conditions of FSETP (R186): whether it holds and whether a NaN raises INV. -/
def fltCond (cond : Nat) (a b : Num) : Bool × Bool :=
  let un := a = .nan || b = .nan
  let lt := a.lt b
  let gt := b.lt a
  let eq := !un && !lt && !gt
  match cond with
  | 0 => (eq, false)
  | 1 => (!un && !eq, false)
  | 2 => (!un && lt, true)
  | 3 => (!un && (lt || eq), true)
  | 4 => (!un && gt, true)
  | 5 => (!un && (gt || eq), true)
  | 6 => (!un, false)
  | 7 => (un || eq, false)
  | 8 => (un || !eq, false)
  | 9 => (un || lt, false)
  | 10 => (un || lt || eq, false)
  | 11 => (un || gt, false)
  | 12 => (un || gt || eq, false)
  | _ => (un, false)

/-- FSETP. -/
def execFsetp (h : Head) (f : FormRI) (s : State) : Host.Outcome State Fault Refusal :=
  let wide := faWide f.flags
  let F := scalarFmt wide
  issue (.fsetp h f) h
    (execOnly (specRI f [fltSrc 1 (.code f.a) wide, fltSrc 2 (argFlt f wide) wide] (predDst f.dst))) (fun c =>
    c.lane (fun t =>
      let a := F.decode (c.val 0 t)
      let b := F.decode (c.val 1 t)
      let r := fltCond (bits f.flags.toNat 1 4) a b
      { pred := r.1, fl := sigInv F [c.val 0 t, c.val 1 t] ||| when_ (r.2 && (a = .nan || b = .nan)) cINV }) noMore) s

/-- The code with the sign bit given. -/
def Fmt.withSign (f : Fmt) (s : Bool) (x : Nat) : Nat := f.signed s (x % 2 ^ (f.width - 1))

/-- FABS. -/
def execFabs (h : Head) (f : FormR) (s : State) : Host.Outcome State Fault Refusal :=
  let wide := faWide f.flags
  issue (.fabs h f) h (execOnly (specR f [fltSrc 1 (.code f.a) wide] (fltDst f.dst wide))) (fun c =>
    c.lane (fun t => { val := (scalarFmt wide).withSign false (c.val 0 t) }) noMore) s

/-- FNEG. -/
def execFneg (h : Head) (f : FormR) (s : State) : Host.Outcome State Fault Refusal :=
  let wide := faWide f.flags
  let F := scalarFmt wide
  issue (.fneg h f) h (execOnly (specR f [fltSrc 1 (.code f.a) wide] (fltDst f.dst wide))) (fun c =>
    c.lane (fun t => { val := F.withSign (!F.sign (c.val 0 t)) (c.val 0 t) }) noMore) s

/-- FSGN: the sign of B, or with .x of A and B combined. -/
def execFsgn (h : Head) (f : FormR) (s : State) : Host.Outcome State Fault Refusal :=
  let wide := faWide f.flags
  let F := scalarFmt wide
  issue (.fsgn h f) h
    (execOnly (specR f [fltSrc 1 (.code f.a) wide, fltSrc 2 (.code f.b) wide] (fltDst f.dst wide))) (fun c =>
    c.lane (fun t =>
      let b := F.sign (c.val 1 t)
      { val := F.withSign (if f.flags.getLsbD 4 then F.sign (c.val 0 t) != b else b) (c.val 0 t) }) noMore) s

/-- The class bit of a code (R188). -/
def classBit (F : Fmt) (x : Nat) : Nat :=
  match F.decode x with
  | .nan => if F.signalling x then 8 else 9
  | .inf s => if s then 0 else 7
  | .fin s m _ _ =>
    if m = 0 then (if s then 3 else 4)
    else if F.subnormal x then (if s then 2 else 5)
    else if s then 1 else 6

/-- FCLASS. -/
def execFclass (h : Head) (f : FormR) (s : State) : Host.Outcome State Fault Refusal :=
  let wide := faWide f.flags
  issue (.fclass h f) h
    (execOnly (specR f [fltSrc 1 (.code f.a) wide] { code := f.dst, acc := anyDst, tag := 2 })) (fun c =>
    c.lane (fun t => { val := 2 ^ classBit (scalarFmt wide) (c.val 0 t) }) noMore) s

/-! ## Packed halves (R191) -/

/-- Both elements of a packed operation, element 0 first; mode SR draws once per element. -/
def halves (mode : Nat) (seed : Word) (op : Nat → Word → Rounded) : LaneRes :=
  let a := op 0 seed
  let b := op 1 a.seed
  { val := a.code + 2 ^ 16 * b.code, fl := a.fl ||| b.fl, seed := if mode = 5 then some b.seed else none }

/-- Element `e` of a packed half. -/
def half (x e : Nat) : Nat := bits x (16 * e) 16

/-- A packed-half operation of two or three operands. -/
def half3 (i : Instr) (h : Head) (f : FormRI) (three : Bool) (op : Num → Num → Num → Num × BitVec 6) (s : State) :
    Host.Outcome State Fault Refusal :=
  let b := f.flags.getLsbD 5
  let F := halfFmt b
  let mode := faRnd f.flags
  let srcs := [pkSrc 1 (.code f.a) [halfTag b], pkSrc 2 (argPk f b) [halfTag b]] ++
    if three then [pkSrc 3 (.code f.c) [halfTag b]] else []
  issue i h (execOnly (specRI f srcs { code := f.dst, acc := anyDst, tag := halfTag b } (hfmaCls b))) (fun c =>
    c.lane (fun t => halves mode (c.seed t) fun e seed =>
      let x := half (c.val 0 t) e
      let y := half (c.val 1 t) e
      let z := if three then half (c.val 2 t) e else 0
      let v := op (F.decode x) (F.decode y) (F.decode z)
      let r := F.round v.1 mode (faSat f.flags) false seed
      { r with fl := r.fl ||| v.2 ||| sigInv F [x, y, z] }) noMore) s

/-- HADD2. -/
def execHadd2 (h : Head) (f : FormRI) (s : State) : Host.Outcome State Fault Refusal :=
  half3 (.hadd2 h f) h f false (fun a b _ => a.add b (isDown f.flags)) s

/-- HMUL2. -/
def execHmul2 (h : Head) (f : FormRI) (s : State) : Host.Outcome State Fault Refusal :=
  half3 (.hmul2 h f) h f false (fun a b _ => a.mul b) s

/-- HFMA2. -/
def execHfma2 (h : Head) (f : FormRI) (s : State) : Host.Outcome State Fault Refusal :=
  half3 (.hfma2 h f) h f true (fun a b c => fma a b c (isDown f.flags)) s

/-- HMIN2 and HMAX2. -/
def halfMinMax (i : Instr) (h : Head) (f : FormRI) (max : Bool) (s : State) : Host.Outcome State Fault Refusal :=
  let b := f.flags.getLsbD 5
  let number := f.flags.getLsbD 4
  issue i h (execOnly (specRI f [pkSrc 1 (.code f.a) [halfTag b], pkSrc 2 (argPk f b) [halfTag b]]
      { code := f.dst, acc := anyDst, tag := halfTag b })) (fun c =>
    c.lane (fun t => halves 0 0 fun e seed =>
      let r := minMax (halfFmt b) max number (half (c.val 0 t) e) (half (c.val 1 t) e)
      ⟨r.1, r.2, seed⟩) noMore) s

/-- HMIN2. -/
def execHmin2 (h : Head) (f : FormRI) (s : State) : Host.Outcome State Fault Refusal := halfMinMax (.hmin2 h f) h f false s

/-- HMAX2. -/
def execHmax2 (h : Head) (f : FormRI) (s : State) : Host.Outcome State Fault Refusal := halfMinMax (.hmax2 h f) h f true s

/-! ## Elements by tag (R106, R129, R194) -/

/-- What the elements of a tag are. -/
inductive Elem
  | flt (f : Fmt)
  | int (signed : Bool) (w : Nat)
  | t2 | lg8 | e8m0
deriving DecidableEq, Repr

/-- Element kind of a tag code; raw stands for 16-bit halves of the signedness given by its entry. -/
def elemOf (tag : Nat) : Elem :=
  match tag with
  | 1 => .int true 32
  | 2 => .int false 32
  | 3 => .flt .f32
  | 4 => .flt .f64
  | 5 => .int true 64
  | 6 => .int false 64
  | 7 => .flt .f16
  | 8 => .flt .bf16
  | 9 => .flt .e4m3
  | 10 => .flt .e5m2
  | 11 => .flt .e3m4
  | 12 => .int true 8
  | 13 => .int false 8
  | 14 => .flt .e2m1
  | 15 => .int true 4
  | 16 => .int false 4
  | 17 => .flt .e3m2
  | 18 => .flt .e2m3
  | 19 => .t2
  | 20 => .lg8
  | 21 => .e8m0
  | _ => .int false 16

/-- Bits of an element. -/
def Elem.width : Elem → Nat
  | .flt f => f.width
  | .int _ w => w
  | .t2 => 2
  | _ => 8

/-- Whether an element is narrower than 16 bits (CVT.narrow, R181). -/
def Elem.narrow (e : Elem) : Bool := decide (e.width < 16)

/-- Registers of a unit (R194). -/
def unitRegs (tag : Nat) : Nat := if tag = 4 ∨ tag = 5 ∨ tag = 6 then 2 else 1

/-- Elements of a unit. -/
def Elem.perUnit (e : Elem) (tag : Nat) : Nat := 32 * unitRegs tag / e.width

/-- The exact value of an element and the conditions of reading it (R128, R141). -/
def Elem.value (k : Elem) (x : Nat) : Num × BitVec 6 :=
  match k with
  | .flt f => (f.decode x, when_ (f.signalling x) cINV)
  | .int s w => (.ofInt (if s then signed w x else ((x % 2 ^ w : Nat) : Int)), 0)
  | .t2 => match x % 4 with
    | 0 => (.ofInt 0, 0)
    | 1 => (.ofInt 1, 0)
    | 2 => (.ofInt (-1), 0)
    | _ => (.ofInt 0, cINV)
  | .lg8 => (lg8Decode x, 0)
  | .e8m0 => (e8m0Decode x, 0)

/-- The range of an integer element. -/
def Elem.range : Elem → Int × Int
  | .int s w => if s then (-(2 ^ (w - 1) : Nat), (2 ^ (w - 1) : Nat) - 1) else (0, (2 ^ w : Nat) - 1)
  | _ => (-1, 1)

/-- The code of an integer in an integer element; t2 writes -1 as 0b10 (R128). -/
def Elem.ofInt (k : Elem) (x : Int) : Nat :=
  match k with
  | .t2 => if x = 0 then 0 else if x = 1 then 1 else 2
  | k => wrap k.width x

/-- Whether .ftz applies to an element (R140). -/
def Elem.ftz : Elem → Bool
  | .flt f => decide (16 ≤ f.width)
  | _ => false

/-- Round into an element (R136, R139, R196). -/
def Elem.round (k : Elem) (x : Num) (mode sat : Nat) (ftz : Bool) (s : Word) : Rounded :=
  match k with
  | .flt f => f.round x mode sat (ftz && decide (16 ≤ f.width)) s
  | .lg8 => lg8Round x mode sat s
  | .e8m0 => e8m0Round x mode sat s
  | k =>
    let (lo, hi) := k.range
    let r := roundToInt lo hi x mode sat s
    ⟨k.ofInt r.1, r.2.1, r.2.2⟩

/-- Rounds elements in ascending order, threading %seed, into one number of `w`-bit elements. -/
def packElems (k : Elem) (w : Nat) (mode sat : Nat) (ftz : Bool) : List (Num × BitVec 6) → Word → Nat × BitVec 6 × Word
  | [], s => (0, 0, s)
  | x :: xs, s =>
    let r := k.round x.1 mode sat ftz s
    let (v, fl, s) := packElems k w mode sat ftz xs r.seed
    (r.code + 2 ^ w * v, r.fl ||| x.2 ||| fl, s)

/-! ## Conversions (R192 to R200) -/

/-- The classes of a run (R179). -/
def runAcc : List OpClass := [.v, .k, .q, .zero]

/-- The sources of a run of `n` units of `u` registers, all of one field: consecutive registers, or one port or the zero
code for each unit (R194). -/
def runSrcs (c : Code) (n u : Nat) (tag : Nat) : List Src :=
  let step := match (classOf c).1 with
    | .v | .k => u
    | _ => 0
  (List.range n).map fun j =>
    { field := 1, arg := .code (c + BitVec.ofNat 10 (j * step)), acc := runAcc, regs := u, tags := [BitVec.ofNat 5 tag]
      packed := u = 4 }

/-- Whether a run of registers leaves its class. -/
def runBad (c : Code) (regs : Nat) : Bool :=
  match classOf c with
  | (.v, r) => decide (640 < r + regs)
  | (.k, r) => decide (64 < r + regs)
  | _ => false

/-- The bits of a run in a thread: sources `0` to `n - 1`, `w` bits each. -/
def Ctx.runVal (c : Ctx) (w t : Nat) : Nat → Nat
  | 0 => 0
  | n + 1 => c.runVal w t n + c.val n t * 2 ^ (w * n)

/-- The spec of a conversion: source run, optional count, destination run. -/
def convSpec (f : FormQ) (su sn st du dn dt : Nat) (scl narrow access : Bool) : Spec :=
  { srcs := runSrcs f.a sn su st ++ if scl then [countSrc 2 (.code f.b)] else []
    dst := some { code := f.dst, acc := runAcc, regs := du * dn, tag := BitVec.ofNat 5 dt, units := dn }
    bad := runBad f.a (su * sn) || runBad f.dst (du * dn)
    access := access
    cls := if narrow then some 12 else none }

/-- The conversion of `n` elements of one thread: source bits, kinds, scale, modes, %seed. -/
def convert (src dst : Elem) (n : Nat) (zero : Bool) (x : Nat) (scale : Int) (mode sat : Nat) (ftz : Bool) (seed : Word) :
    LaneRes :=
  let es := (List.range n).map fun i =>
    let code := bits x (src.width * i) src.width
    let (v, fl) := if zero then (Num.zero false, 0) else src.value code
    let v := match src with
      | .flt f => if ftz && src.ftz && !zero && f.subnormal code then Num.zero (f.sign code) else v
      | _ => v
    (v.scale scale, fl)
  let (y, fl, s) := packElems dst dst.width mode sat ftz es seed
  { val := y, fl := fl, seed := if mode = 5 then some s else none }

/-- Whether the source of a conversion is the zero code. -/
def isZeroCode (c : Code) : Bool := (classOf c).1 == .zero

/-- CVT, CVTI and CVTF of tagged formats (R195). -/
def conv (i : Instr) (h : Head) (f : FormQ) (s : State) : Host.Outcome State Fault Refusal :=
  let a := elemOf f.stag
  let d := elemOf f.dtag
  let n := max (a.perUnit f.stag) (d.perUnit f.dtag)
  let sn := n / a.perUnit f.stag
  issue i h (convSpec f (unitRegs f.stag) sn f.stag (unitRegs f.dtag) (n / d.perUnit f.dtag) f.dtag f.scl
      (a.narrow || d.narrow) true) (fun c =>
    c.lane (fun t => convert a d n (isZeroCode f.a) (c.runVal (32 * unitRegs f.stag) t sn)
      (if f.scl then signed 32 (c.val sn t) else 0) f.rnd f.sat f.ftz (c.seed t)) noMore) s

/-- CVT with .o6 (R200): between 32 six-bit elements in 6 registers and 16 registers of bf16x2. -/
def convO6 (h : Head) (f : FormQ) (s : State) : Host.Outcome State Fault Refusal :=
  let six : Elem := .flt (if f.sub = 0 then .e3m2 else .e2m3)
  let half : Elem := .flt .bf16
  let unpack := f.dtag == 8
  let sn := if unpack then 6 else 16
  let dn := if unpack then 16 else 6
  issue (.cvt h f) h (convSpec f 1 sn f.stag 1 dn f.dtag f.scl true true) (fun c =>
    c.lane (fun t => convert (if unpack then six else half) (if unpack then half else six) 32 (isZeroCode f.a)
      (c.runVal 32 t sn) (if f.scl then signed 32 (c.val sn t) else 0) f.rnd f.sat f.ftz (c.seed t)) noMore) s

/-- CVT. -/
def execCvt (h : Head) (f : FormQ) (s : State) : Host.Outcome State Fault Refusal :=
  if f.o6 then convO6 h f s else conv (.cvt h f) h f s

/-- CVTI. -/
def execCvti (h : Head) (f : FormQ) (s : State) : Host.Outcome State Fault Refusal := conv (.cvti h f) h f s

/-- CVTF. -/
def execCvtf (h : Head) (f : FormQ) (s : State) : Host.Outcome State Fault Refusal := conv (.cvtf h f) h f s

/-- One element of PACK (R197). -/
def packInt (k : Elem) (sat : Nat) (x : Int) : Nat × BitVec 6 :=
  let sat := if k = .t2 ∧ sat = 0 then 1 else sat
  let (lo, hi) := k.range
  match sat with
  | 0 => (wrap k.width x, 0)
  | n =>
    let y := max (if n = 2 then 0 else lo) (min hi x)
    (k.ofInt y, when_ (y ≠ x) cSAT)

/-- The integer that a source register of PACK holds. -/
def packSrc (k : Elem) (x : Nat) : Int :=
  match k with
  | .int true _ => signed 32 x
  | _ => (x : Int)

/-- PACK. -/
def execPack (h : Head) (f : FormQ) (s : State) : Host.Outcome State Fault Refusal :=
  let a := elemOf f.stag
  let d := if f.dtag = 0 then Elem.int (f.stag == 1) 16 else elemOf f.dtag
  let n := 32 / d.width
  issue (.pack h f) h (convSpec f 1 n f.stag 1 1 f.dtag false d.narrow false) (fun c =>
    c.lane (fun t => (List.range n).foldl (fun (r : LaneRes) i =>
      let y := packInt d f.sat (packSrc a (c.val i t))
      { r with val := r.val + y.1 * 2 ^ (d.width * i), fl := r.fl ||| y.2 }) {}) noMore) s

/-- The integer that an element of UNPK holds. -/
def unpkInt (v : Num) : Int :=
  match v with
  | .fin s m _ _ => if s then -(m : Int) else m
  | _ => 0

/-- UNPK. -/
def execUnpk (h : Head) (f : FormQ) (s : State) : Host.Outcome State Fault Refusal :=
  let a := if f.stag = 0 then Elem.int (f.dtag == 1) 16 else elemOf f.stag
  let n := 32 / a.width
  issue (.unpk h f) h (convSpec f 1 1 f.stag 1 n f.dtag false a.narrow false) (fun c =>
    c.lane (fun t => (List.range n).foldl (fun (r : LaneRes) i =>
      let v := a.value (bits (c.val 0 t) (a.width * i) a.width)
      { r with val := r.val + wrap 32 (unpkInt v.1) * 2 ^ (32 * i), fl := r.fl ||| v.2 }) {}) noMore) s

/-- PK6: 21 elements of 11 registers of bf16x2 into one quad. -/
def execPk6 (h : Head) (f : FormQ) (s : State) : Host.Outcome State Fault Refusal :=
  issue (.pk6 h f) h (convSpec f 1 11 f.stag 4 1 f.dtag f.scl true false) (fun c =>
    c.lane (fun t => convert (.flt .bf16) (elemOf f.dtag) 21 (isZeroCode f.a) (c.runVal 32 t 11)
      (if f.scl then signed 32 (c.val 11 t) else 0) f.rnd f.sat false (c.seed t)) noMore) s

/-- UPK6: a quad into 11 registers of bf16x2; the last half is +0. -/
def execUpk6 (h : Head) (f : FormQ) (s : State) : Host.Outcome State Fault Refusal :=
  issue (.upk6 h f) h (convSpec f 4 1 f.stag 1 11 f.dtag false true false) (fun c =>
    c.lane (fun t => convert (elemOf f.stag) (.flt .bf16) 21 (isZeroCode f.a) (c.val 0 t) 0 0 0 false 0) noMore) s

/-! ## Dot products (R201 to R203) -/

/-- Saturation [24:23] of layout DT. -/
def dtSat (fl : BitVec 7) : Nat := (fl.extractLsb' 3 2).toNat
/-- Rounding [22:20] of layout DT. -/
def dtRnd (fl : BitVec 7) : Nat := (fl.extractLsb' 0 3).toNat

/-- The tag of an operand of a family, as its elements are read (R202): its own, the other operand's, or the default. -/
def dotTag (s : State) (a b : Code) (default : BitVec 5) : BitVec 5 :=
  match s.srcTags { field := 1, arg := .code a, acc := anyVal } with
  | t :: _ => t
  | [] =>
    match s.srcTags { field := 2, arg := .code b, acc := anyVal } with
    | t :: _ => t
    | [] => default

/-- Exact product of two elements (R126, R145). -/
def elemMul (ka kb : Elem) (x y : Nat) : Num × BitVec 6 :=
  match ka, kb with
  | .lg8, .lg8 =>
    if x % 128 = 64 ∨ y % 128 = 64 then (.zero (bit x 7 != bit y 7), 0)
    else (lg8Value (bit x 7 != bit y 7) (lg8L x + lg8L y), 0)
  | _, _ =>
    let (a, i) := ka.value x
    let (b, j) := kb.value y
    let (p, k) := a.mul b
    (p, i ||| j ||| k)

/-- The exact sum of some products (R144, R145): an exact zero sum is +0. -/
def sumNums (ps : List Num) : Num × BitVec 6 :=
  let plus := ps.any (· == .inf false)
  let minus := ps.any (· == .inf true)
  let inv := when_ (plus && minus) cINV
  if ps.any (· == .nan) || plus && minus then (.nan, inv)
  else if plus then (.inf false, 0)
  else if minus then (.inf true, 0)
  else
    let r := ps.foldl (fun a b => (a.add b false).1) (.zero false)
    (if r.isZero then .zero false else r, 0)

/-- The value of an accumulator and a group sum (R145): as IEEE 754 addition; a zero sum is +0. -/
def accAdd (a g : Num) : Num × BitVec 6 :=
  let (x, fl) := a.add g false
  (if x.isZero then .zero false else x, fl)

/-- IntAcc (R146). -/
def intAcc (sat : Nat) (x : Int) : Nat × BitVec 6 :=
  match sat with
  | 0 => (wrap 32 x, 0)
  | n =>
    let lo : Int := if n = 2 then 0 else -(2 ^ 31 : Nat)
    let y := max lo (min ((2 ^ 31 : Nat) - 1) x)
    (wrap 32 y, when_ (y ≠ x) cSAT)

/-- The integer an exact value holds. -/
def Num.toInt (x : Num) : Int :=
  match x with
  | .fin s m e _ => let v : Int := (m * 2 ^ e.toNat : Nat); if s then -v else v
  | _ => 0

/-- One dot product (R203): elements, accumulator, scales if scaled, accumulator kind. -/
def dotOne (ka kb : Elem) (za zb : Bool) (n x y acc : Nat) (scales : Option (Nat × Nat)) (intDst : Bool)
    (mode sat : Nat) (seed : Word) : LaneRes :=
  let ps := (List.range n).map fun i =>
    if za || zb then
      -- elements of the zero code are zeros, whatever the format
      let other := if za then kb.value (bits y (kb.width * i) kb.width) else ka.value (bits x (ka.width * i) ka.width)
      let other := if za && zb then (Num.zero false, (0 : BitVec 6)) else other
      let (p, fl) := other.1.mul (.zero false)
      (p, fl ||| other.2)
    else elemMul ka kb (bits x (ka.width * i) ka.width) (bits y (kb.width * i) kb.width)
  let fp := ps.foldl (fun fl p => fl ||| p.2) 0
  let (g, fs) := sumNums (ps.map (·.1))
  if intDst then
    let r := intAcc sat (signed 32 acc + g.toInt)
    { val := r.1, fl := fp ||| r.2 }
  else
    let g := match scales with
      | none => g
      | some (a, b) => ((g.mul (e8m0Decode a)).1.mul (e8m0Decode b)).1
    let (v, fa) := accAdd (Fmt.f32.decode acc) g
    let r := Fmt.f32.round v mode sat false seed
    { r.res mode with fl := r.fl ||| fp ||| fs ||| fa ||| sigInv .f32 [acc] }

/-- What a dot instruction checks: the tags of its operands, whether it is scaled, whether it accumulates in i32, and its class. -/
def dotSpec (f : FormR) (tags : List (BitVec 5)) (scaled intDst : Bool) (cls : Nat) : Spec :=
  let accTag : BitVec 5 := if intDst then 1 else 3
  let accSrcs : List Src :=
    if scaled then [{ field := 3, arg := .code f.c, acc := [.v, .k], tags := [3] },
                    { field := 3, arg := .code (f.c + 1), acc := [.v, .k], tags := [21] }]
    else [{ field := 3, arg := .code f.c, acc := runAcc, tags := [accTag] }]
  { execOnly (specR f ([pkSrc 1 (.code f.a) tags, pkSrc 2 (.code f.b) tags] ++ accSrcs)
      { code := f.dst, acc := anyDst, tag := accTag } (some cls)) with bad := scaled && f.c.getLsbD 0 }

/-- What a dot instruction computes in a thread, where `default` is the tag of operands that carry none. -/
def dotRes (f : FormR) (default : BitVec 5) (scaled intDst : Bool) (c : Ctx) (t : Nat) : LaneRes :=
  let ka := elemOf (dotTag c.s f.a f.b default).toNat
  let kb := elemOf (dotTag c.s f.b f.a default).toNat
  dotOne ka kb (isZeroCode f.a) (isZeroCode f.b) (32 / ka.width) (c.val 0 t) (c.val 1 t) (c.val 2 t)
    (if scaled then some (bits (c.val 3 t) 0 8, bits (c.val 3 t) 8 8) else none) intDst (dtRnd f.flags) (dtSat f.flags)
    (c.seed t)

/-- A dot instruction: the tags of its operands, the default tag, whether it is scaled, whether it accumulates in i32, and its
class. -/
def dot (i : Instr) (h : Head) (f : FormR) (tags : List (BitVec 5)) (default : BitVec 5) (scaled intDst : Bool)
    (cls : Nat) (s : State) : Host.Outcome State Fault Refusal :=
  issue i h (dotSpec f tags scaled intDst cls) (fun c => c.lane (dotRes f default scaled intDst c) noMore) s

/-- DOT2. -/
def execDot2 (h : Head) (f : FormR) (s : State) : Host.Outcome State Fault Refusal :=
  let b := f.flags.getLsbD 5
  dot (.dot2 h f) h f [halfTag b] (halfTag b) (f.flags.getLsbD 6) false (if b then 14 else 13) s

/-- DOT4. -/
def execDot4 (h : Head) (f : FormR) (s : State) : Host.Outcome State Fault Refusal :=
  match f.fam.toNat with
  | 0 => dot (.dot4 h f) h f [9, 10, 11] 9 false false 15 s
  | 1 => dot (.dot4 h f) h f [12, 13] 12 false true 16 s
  | 2 => dot (.dot4 h f) h f [20] 20 false false 17 s
  | _ => dot (.dot4 h f) h f [9, 10, 11] 9 true false 15 s

/-- DOT8. -/
def execDot8 (h : Head) (f : FormR) (s : State) : Host.Outcome State Fault Refusal :=
  let sc := f.flags.getLsbD 6
  if f.flags.getLsbD 5 then dot (.dot8 h f) h f [15, 16] 15 sc (!sc) 19 s
  else dot (.dot8 h f) h f [14] 14 sc false 18 s

/-- DOTT. -/
def execDott (h : Head) (f : FormR) (s : State) : Host.Outcome State Fault Refusal :=
  let sc := f.flags.getLsbD 6
  dot (.dott h f) h f [19] 19 sc (!sc) 20 s

/-! ## %fl (R204, R205) -/

/-- RDFL. -/
def execRdfl (h : Head) (f : FormR) (s : State) : Host.Outcome State Fault Refusal :=
  issue (.rdfl h f) h (execOnly (specR f [] { code := f.dst, acc := anyDst, tag := 2 })) (fun c =>
    c.lane (fun _ => { val := c.s.pod.fl.toNat }) noMore) s

/-- CLFL. -/
def execClfl (h : Head) (f : FormRI) (s : State) : Host.Outcome State Fault Refusal :=
  let a : Arg := match f with
    | .r f => .code f.a
    | .i f => .imm (immValue 32 f.interp f.imm)
  issue (.clfl h f) h
    { srcs := [{ field := 1, arg := a, acc := uniAcc, uni := true }], pod := true, access := false } (fun c =>
    .done (c.s.setPod { c.s.pod with fl := c.s.pod.fl &&& ~~~(BitVec.ofNat 6 (c.val 0 0)) }) 0) s

end Sys2Proof.Machine
end

