-- ==== Sys2Proof/Machine/Translate.lean ====
section
/-! DEFINITION. Physical memory and its map (R290 to R294), the access tables (R500 to R502), and Translate (R295 to R300). -/
namespace Sys2Proof.Machine

/-! ## The physical map -/

/-- Where a physical address lies (R290): HBM4E, the second tier, a peer window with the offset in it, MMIO, or nowhere. -/
inductive Area
  | hbm | tier | peer (p off : Nat) | mmio | nowhere
deriving DecidableEq, Repr

/-- Base of the second tier (R290). -/
def tierBase : Nat := 0x1_0000_0000_0000
/-- Base of the peer windows (R290). -/
def peerBase : Nat := 0x4_0000_0000_0000
/-- Size of a peer window (R290). -/
def peerSize : Nat := 0x0800_0000_0000
/-- Base of MMIO (R290). -/
def mmioBase : Nat := 0xF_0000_0000_0000

/-- The area of a physical address (R290, R292). -/
def areaOf (pa : Nat) : Area :=
  if pa < 0x80_0000_0000 then .hbm
  else if pa < tierBase then .nowhere
  else if pa < peerBase then (if pa - tierBase < Config.tierGib * 2 ^ 30 then .tier else .nowhere)
  else if pa < peerBase + 16 * peerSize then .peer ((pa - peerBase) / peerSize) ((pa - peerBase) % peerSize)
  else if mmioBase ≤ pa ∧ pa < mmioBase + 2 ^ 32 then .mmio
  else .nowhere

/-- HBM4E or the second tier. -/
def Area.isMem : Area → Bool
  | .hbm | .tier => true
  | _ => false

/-- A peer window. -/
def Area.isPeer : Area → Bool
  | .peer _ _ => true
  | _ => false

/-- The stack-local region of HBM4E (R291). -/
def stackLocal (pa : Nat) : Bool := decide (0x40_0000_0000 ≤ pa) && decide (pa < 0x80_0000_0000)

/-- The stack that holds an HBM4E address (R291). -/
def stackOf (pa : Nat) : Nat := if stackLocal pa then bits pa 35 3 else bits pa 12 3

/-- The home L2 slice of a line (R294). -/
def homeSlice (pa : Nat) : Nat :=
  bits pa 7 7 ^^^ bits pa 14 7 ^^^ bits pa 21 7 ^^^ bits pa 28 7 ^^^ bits pa 35 7 ^^^ bits pa 42 7 ^^^ bits pa 49 3

/-- The address of the line that holds an address (R15). -/
def lineOf (pa : Nat) : Nat := pa / 128 * 128

/-! ## Memory at home -/

/-- A byte of physical memory at its home; a byte that nothing has written reads as `Config.unwritten` (log 2). -/
def State.rdByte (s : State) (pa : Nat) : Byte := look Config.unwritten s.mem pa

/-- `n` bytes from `pa`. -/
def State.rdBytes (s : State) (pa n : Nat) : List Byte := (List.range n).map fun i => s.rdByte (pa + i)

/-- Bytes at a list of addresses. -/
def State.rdAll (s : State) (pas : List Nat) : List Byte := pas.map s.rdByte

/-- `n` bytes from `pa` as a number. -/
def State.rdNat (s : State) (pa n : Nat) : Nat := ofBytes (s.rdBytes pa n)

/-- Keeps the first value listed for an address. -/
def keepOld : List Host.Cell → Nat → Byte → List Host.Cell
  | [], i, y => [(i, y)]
  | (j, x) :: c, i, y =>
    if i < j then (i, y) :: (j, x) :: c else if i = j then (j, x) :: c else (j, x) :: keepOld c i y

/-- Writes one byte at its home. A write outside the stack-local region is held in L2, and the memory behind it keeps its
byte until L2 writes it back (R337, R484). What is written is free of error (R311). -/
def State.wrByte (s : State) (pa : Nat) (b : Byte) : State :=
  { s with mem := store Config.unwritten s.mem pa b, poison := s.poison.filter (· ≠ pa),
           stale := if stackLocal pa then s.stale else keepOld s.stale pa (s.rdByte pa) }

/-- Writes bytes at a list of addresses. -/
def State.wrAll (s : State) : List Nat → List Byte → State
  | pa :: pas, b :: bs => (s.wrByte pa b).wrAll pas bs
  | _, _ => s

/-- Consecutive addresses. -/
def run (pa n : Nat) : List Nat := (List.range n).map fun i => pa + i

/-- A stash line that a party outside its team has written over at home: a clean implicit one is dropped, and what an explicit or a dirty
one holds besides its dirty bytes fills again (R308, R316, R317; log 24). -/
def Team.invalidate (t : Team) (line : Nat) : Team :=
  { t with stash := (t.stash.filter fun l => !(l.pa == line && l.dirty == 0 && !l.explicit)).map fun l =>
      if l.pa = line then { l with filled := false, bad := l.bad &&& l.dirty } else l }

/-- Writes bytes at home on behalf of team `by_`, and invalidates the L1 lines and the other teams' clean stash lines (R317). -/
def State.writeHome (s : State) (by_ : TeamId) (pas : List Nat) (bs : List Byte) : State :=
  let lines := (pas.map lineOf).eraseDups
  ({ s.wrAll pas bs with l1 := s.l1.filter fun x => !lines.contains x.2 } : State).mapTeams fun t =>
    if t.id = by_ then t else lines.foldl Team.invalidate t

/-- The same on behalf of a party that has no team. -/
def State.writeOut (s : State) (pa : Nat) (bs : List Byte) : State := s.writeHome noTeam (run pa bs.length) bs

/-- Whether reading some addresses meets an uncorrectable error (R311). -/
def State.poisoned (s : State) (pas : List Nat) : Bool := pas.any fun pa => s.poison.contains pa

/-! ## Access tables (R500 to R502) -/

/-- The table common to all L2 slices. -/
def targetL2 : Nat := 0
/-- The table of the MMIO blocks (log 13: the manual does not list the blocks, the model has one). -/
def targetMmio : Nat := 10
/-- The table of the HBM4E controller of a stack. -/
def targetStack (n : Nat) : Nat := 1 + n
/-- The table of the second-tier controllers. -/
def targetTier : Nat := 9

/-- Whether a region contains every byte of an access (R501, R502). -/
def regionHas (r : Region) (pa n : Nat) : Bool :=
  decide (bits r.base.toNat 12 40 ≤ pa / 4096) && decide ((pa + n - 1) / 4096 ≤ bits r.limit.toNat 12 40)

/-- The check of one table (R502). -/
def tableOk (tab : List (Nat × Region)) (target m pa n : Nat) (rd wr : Bool) : Bool :=
  match tab.find? fun x => x.1 / 64 = target && regionHas x.2 pa n with
  | none => false
  | some x => (!rd || x.2.rmask.getLsbD m) && (!wr || x.2.wmask.getLsbD m)

/-- The tables with the regions that are being written. -/
def State.accAfter (s : State) : List (Nat × Region) :=
  s.accNew.foldl (fun tab x => (tab.filter fun y => y.1 < x.1) ++ [x] ++ (tab.filter fun y => x.1 < y.1)) s.acc

/-- The access check of master `m` (R502). While ACCCTL.BUSY reads 1 it uses the old or the new region. -/
def State.accOk (s : State) (target m pa n : Nat) (rd wr : Bool) : Bool × State :=
  let old := tableOk s.acc target m pa n rd wr
  if s.accBusy then
    let new := tableOk s.accAfter target m pa n rd wr
    if old = new then (old, s)
    else
      let (k, s') := s.choose 2
      (if k = 0 then old else new, s')
  else (old, s)

/-- The master number of a team's work: the partition of its queue (R500). -/
def State.master (s : State) (t : Team) : Nat := (s.wqpart.get t.queue).toNat % 64

/-! ## Page tables (R295 to R298) -/

/-- The kinds of access that Translate distinguishes (R297). -/
inductive Access
  | rd | wr | rw | fetch
deriving DecidableEq, Repr

/-- Whether an access reads. -/
def Access.reads : Access → Bool
  | .rd | .rw => true
  | _ => false

/-- Whether an access writes. -/
def Access.writes : Access → Bool
  | .wr | .rw => true
  | _ => false

/-- A virtual address is canonical when bits [63:56] equal bit 55 (R295). -/
def canonical (va : Dword) : Bool := bits va.toNat 55 9 == 0 || bits va.toNat 55 9 == 511

/-- Index of a level (R295). -/
def levelIndex (va : Dword) : Nat → Nat
  | 3 => bits va.toNat 39 17
  | 2 => bits va.toNat 30 9
  | 1 => bits va.toNat 21 9
  | _ => bits va.toNat 12 9

/-- A leaf that a walk reached: level, entry, and the physical address of the entry. -/
structure Leaf where
  level : Nat
  pte   : Nat
  at_   : Nat
deriving DecidableEq, Repr

/-- Log2 of the page that a leaf maps (R295, R296). -/
def pageBits (level pte : Nat) : Nat :=
  match level with
  | 2 => 30
  | 1 => 21
  | _ => if bit pte 53 then 16 else 12

/-- What a walk answers. -/
abbrev WalkResult := Except (Nat × Nat) Leaf

/-- The checks of a leaf (R296, R297): the reason that fails, if any. An address of the second tier beyond the installed capacity is
left to the region check (R19, R23; log 23). -/
def leafReason (level pte : Nat) : Option Nat :=
  let ppn := bits pte 12 40 * 4096
  if level ≠ 0 ∧ bit pte 53 then some 0x03
  else if ppn % 2 ^ pageBits level pte ≠ 0 then some 0x03
  else if bit pte 55 ∧ ¬bit pte 54 then some 0x03
  else if bit pte 54 ∧ ¬(tierBase ≤ ppn ∧ ppn < tierBase + 2 ^ 42) ∨ ¬bit pte 54 ∧ areaOf ppn = .tier then some 0x06
  else none

/-- Walks the tables from a level (R295 to R297): the leaf, or the reason and level at which the walk fails. -/
def State.walk (s : State) (va : Dword) : Nat → Nat → WalkResult
  | level, table =>
    let at_ := table + 8 * levelIndex va level
    let e := s.rdNat at_ 8
    if s.poisoned (run at_ 8) then .error (0x05, level)
    else if !bit e 0 then .error (0x02, level)
    else if bits e 56 8 ≠ 0 ∨ bit e 52 ∨ bits e 10 2 ≠ 0 ∨ bits e 2 2 ≠ 0 then .error (0x03, level)
    else if bit e 1 then
      if level = 3 then .error (0x03, level)
      else
        match leafReason level e with
        | some r => .error (r, level)
        | none => .ok ⟨level, e, at_⟩
    else
      match level with
      | 0 => .error (0x03, 0)
      | l + 1 =>
        if bits e 53 3 ≠ 0 ∨ bits e 4 6 ≠ 0 then .error (0x03, level)
        else
          let next := bits e 12 40 * 4096
          if !(areaOf next).isMem then .error (0x04, level) else s.walk va l next

/-- The physical address of a virtual address under a leaf (R296). -/
def leafPa (level pte : Nat) (va : Dword) : Nat :=
  let b := pageBits level pte
  bits pte 12 40 * 4096 / 2 ^ b * 2 ^ b + va.toNat % 2 ^ b

/-- TARG of a translation cause (R297). -/
def xlateArg (level reason : Nat) : Word := BitVec.ofNat 32 (level * 256 + reason)

/-- The outcome of Translate: a physical address, or a cause and TARG; and the state with its walkers' updates. -/
abbrev Translated := Except (Cause × Word) Nat × State

/-- Steps 3 to 5 of R297 for a leaf: permissions, region and tables, tier. `tierOk` lifts TIER_MISS (R369). -/
def State.leafCheck (s : State) (t : Team) (va : Dword) (a : Access) (tierOk : Bool) (level pte : Nat) : Translated :=
  let pa := leafPa level pte va
  let no := fun (c : Cause) (r : Nat) => (Except.error (c, xlateArg level r) : Except (Cause × Word) Nat)
  if a.reads ∧ ¬bit pte 4 then (no .protection 0x10, s)
  else if a.writes ∧ ¬bit pte 5 then (no .protection 0x11, s)
  else if a = .fetch ∧ ¬bit pte 6 then (no .protection 0x12, s)
  else if bit pte 7 ∧ ¬t.kernel.super then (no .protection 0x13, s)
  else
    let m := s.master t
    match areaOf pa with
    | .nowhere => (no .protection 0x14, s)
    | .peer p _ => if p = Config.pkg.toNat then (no .protection 0x14, s) else (.ok pa, s)
    | .mmio =>
      match s.accOk targetMmio m pa 1 a.reads a.writes with
      | (false, s) => (no .protection 0x15, s)
      | (true, s) => if t.kernel.super && a != .fetch then (.ok pa, s) else (no .protection 0x16, s)
    | _ =>
      match s.accOk targetL2 m pa 1 (a.reads || a == .fetch) a.writes with
      | (false, s) => (no .protection 0x15, s)
      | (true, s) =>
        if bit pte 54 ∧ bit pte 55 ∧ ¬tierOk then (no .tierMiss 0x20, s) else (.ok pa, s)

/-- Accessed and dirty bits (R296, R298). -/
def withAD (pte : Nat) (w : Bool) : Nat :=
  let p := if bit pte 8 then pte else pte + 2 ^ 8
  if w && !bit p 9 then p + 2 ^ 9 else p

/-- A leaf without its A and D bits. -/
def sansAD (pte : Nat) : Nat := pte - (if bit pte 8 then 2 ^ 8 else 0) - (if bit pte 9 then 2 ^ 9 else 0)

/-- A list with one more entry at its head: where `n` of the entries that share its place are there already, one of them is dropped.
Which one is open (R299, R301 give no replacement rule; log 22). -/
def State.cached {α : Type} [DecidableEq α] (s : State) (n : Nat) (same : α → Bool) (l : List α) (x : α) : List α × State :=
  let others := l.filter same
  if others.length < n then (x :: l, s)
  else
    let (k, s) := s.choose n
    (x :: (match others[k]? with | some y => l.erase y | none => l), s)

/-- Whether a cached leaf maps a virtual address of an address space (R299). -/
def TlbEntry.covers (e : TlbEntry) (core : Nat) (asn : BitVec 12) (va : Dword) : Bool :=
  let b := 2 ^ (pageBits e.level e.pte.toNat - 12)
  e.core == core && e.asn == asn && e.page / b == va.toNat / 4096 / b

/-- Remembers a leaf in the Sheller TLB of a core, 64 entries, and in its cluster's TLB, 8 ways (R299). -/
def State.fillTlb (s : State) (core : Nat) (asn : BitVec 12) (va : Dword) (level pte : Nat) : State :=
  let page := va.toNat / 4096
  let leaf : Dword := BitVec.ofNat 64 pte
  let cl := clusterOf core
  let (l, s) := s.cached 64 (fun e => e.core == core) (s.tlb.filter fun e => !e.covers core asn va) ⟨core, asn, page, level, leaf⟩
  let old := s.ctlb.filter fun e => !e.covers cl asn va
  let (g, s) := s.cached 8 (fun e => e.core == cl && (decide (old.length < 8) ||
    Config.clusterTlbSet e.asn e.page % 128 == Config.clusterTlbSet asn page % 128)) old ⟨cl, asn, page, level, leaf⟩
  { s with tlb := l, ctlb := g }

/-- The virtual address above what an entry of a level reaches (R295). -/
def reachOf (va : Dword) (level : Nat) : Nat := va.toNat / 2 ^ (12 + 9 * level)

/-- Remembers the table entries of a walk down to a leaf, 256 over the die (R299). -/
def State.fillWalks (s : State) (asn : BitVec 12) (va : Dword) : Nat → Nat → State
  | level, table =>
    let e := s.rdNat (table + 8 * levelIndex va level) 8
    if bit e 1 then s
    else
      match level with
      | 0 => s
      | l + 1 =>
        let x : WalkEntry := ⟨asn, level, reachOf va level, BitVec.ofNat 64 e⟩
        let (w, s) := s.cached 256 (fun _ => true)
          (s.wcache.filter fun y => !(y.asn == asn && y.level == level && y.reach == x.reach)) x
        ({ s with wcache := w } : State).fillWalks asn va l (bits e 12 40 * 4096)

/-- Uses a leaf just walked: its checks, then the walker's A and D updates at the entry's home (R298). -/
def State.useLeaf (s : State) (t : Team) (core : Nat) (va : Dword) (a : Access) (tierOk : Bool) (l : Leaf) : Translated :=
  match s.leafCheck t va a tierOk l.level l.pte with
  | (.error e, s) => (.error e, s)
  | (.ok pa, s) =>
    let pte := withAD l.pte a.writes
    let s := if pte = l.pte then s else s.writeOut l.at_ (toBytes 8 pte)
    (.ok pa, (s.fillWalks t.asn va 3 t.ptroot).fillTlb core t.asn va l.level pte)

/-- The leaves that a walk may answer: the entries of a C group that are not equal but for A and D are all open (R298). -/
def State.leavesOf (s : State) : WalkResult → List WalkResult
  | .error e => [.error e]
  | .ok l =>
    let all := (List.range 16).map fun i =>
      let at_ := l.at_ / 128 * 128 + 8 * i
      (⟨l.level, s.rdNat at_ 8, at_⟩ : Leaf)
    if l.level = 0 ∧ bit l.pte 53 ∧ all.any fun x => sansAD x.pte != sansAD l.pte then
      .ok l :: (all.filter fun x => bit x.pte 0 && bit x.pte 53 && (leafReason 0 x.pte).isNone && sansAD x.pte != sansAD l.pte).map .ok
    else [.ok l]

/-- Whether two walks translate alike: the same failure, or leaves that differ in A and D alone. -/
def alike : WalkResult → WalkResult → Bool
  | .error a, .error b => a == b
  | .ok a, .ok b => a.level == b.level && sansAD a.pte == sansAD b.pte
  | _, _ => false

/-- Every answer that a walk now may give: of the tables as they stand first, then others that C groups and cached table entries allow
(R298 to R300). -/
def State.walks (s : State) (asn : BitVec 12) (va : Dword) (root : Nat) : List WalkResult :=
  let now := s.walk va 3 root
  let old := (s.wcache.filter fun w => w.asn == asn && w.reach == reachOf va w.level && decide (1 ≤ w.level)).map fun w =>
    s.walk va (w.level - 1) (bits w.entry.toNat 12 40 * 4096)
  now :: ((now :: old).flatMap s.leavesOf).filter fun r => !alike r now

/-- The cached leaves that differ from the tables and can serve an access: a write needs D (R298 to R300). -/
def State.oldLeaves (s : State) (asn : BitVec 12) (core : Nat) (va : Dword) (a : Access) (now : WalkResult) : List TlbEntry :=
  ((s.tlb.filter fun e => e.covers core asn va) ++ s.ctlb.filter fun e => e.covers (clusterOf core) asn va).filter fun e =>
    !alike now (.ok ⟨e.level, e.pte.toNat, 0⟩) && !(a.writes && !bit e.pte.toNat 9)

/-- Translate (R297) for team `t` on a core: the canonical form, the walk, the permissions, the region, the tier. A check made
while a cached entry differs from the tables uses either (R300); but a check that fails is never cached, so a cached leaf
that the check refuses gives way to the tables (R299). -/
def State.translateX (s : State) (t : Team) (core : Nat) (va : Dword) (a : Access) (tierOk : Bool) : Translated :=
  if !canonical va then (.error (.xlateFault, xlateArg 0xFF 0x01), s)
  else
    let use := fun (s : State) (r : WalkResult) => ((match r with
      | .error (r, l) => (.error (.xlateFault, xlateArg l r), s)
      | .ok l => s.useLeaf t core va a tierOk l) : Translated)
    let now := s.walk va 3 t.ptroot
    let news := s.walks t.asn va t.ptroot
    let olds := s.oldLeaves t.asn core va a now
    match news ++ olds.map fun e => .ok ⟨e.level, e.pte.toNat, 0⟩ with
    | [_] => use s now
    | all =>
      let (k, s) := s.choose all.length
      match news[k]? with
      | some r => use s r
      | none =>
        match olds[k - news.length]? with
        | none => use s now
        | some e =>
          match s.leafCheck t va a tierOk e.level e.pte.toNat with
          | (.ok pa, s) => (.ok pa, s.fillTlb core t.asn va e.level e.pte.toNat)
          | (.error _, _) => use s now

/-- Translate with the tier check (R297). -/
def State.translate (s : State) (t : Team) (core : Nat) (va : Dword) (a : Access) : Translated :=
  s.translateX t core va a false

/-- The order of the causes found at one thread (R261). -/
def rank261 : Cause → Nat
  | .misaligned => 0
  | .illegalScope => 1
  | .stashBounds => 2
  | .xlateFault => 3
  | .protection => 4
  | .tierMiss => 5
  | .watchpoint => 6
  | _ => 7

/-- Translates every byte of a range of at most 4,096 bytes: both pages that it may touch are checked before any effect (R310), and
the first cause in the order of R261 is the one that counts. A failure also gives the failing virtual address. -/
def State.translateRangeX (s : State) (t : Team) (core : Nat) (va : Dword) (n : Nat) (a : Access) (tierOk : Bool) :
    Except (Cause × Word × Dword) (List Nat) × State :=
  let left := 4096 - va.toNat % 4096
  let va2 := va + BitVec.ofNat 64 left
  match s.translateX t core va a tierOk with
  | (.error (c, g), s) =>
    if n ≤ left then (.error (c, g, va), s)
    else
      match s.translateX t core va2 a tierOk with
      | (.error (d, h), s) => (.error (if rank261 d < rank261 c then (d, h, va2) else (c, g, va)), s)
      | (.ok _, s) => (.error (c, g, va), s)
  | (.ok pa, s) =>
    if n ≤ left then (.ok (run pa n), s)
    else
      match s.translateX t core va2 a tierOk with
      | (.error (c, g), s) => (.error (c, g, va2), s)
      | (.ok pa2, s) => (.ok (run pa left ++ run pa2 (n - left)), s)

/-- The same with the tier check. -/
def State.translateRange (s : State) (t : Team) (core : Nat) (va : Dword) (n : Nat) (a : Access) :
    Except (Cause × Word × Dword) (List Nat) × State := s.translateRangeX t core va n a false

/-- The generic shared window (R303). -/
def windowBase : Nat := 0xFFFF_FFFF_FFE0_0000

/-- Whether a virtual address lies on the shared window. -/
def onWindow (va : Dword) : Bool := decide (windowBase ≤ va.toNat)

end Sys2Proof.Machine
end

