-- ==== Sys2Proof/Machine/Stash.lean ====
section
/-! DEFINITION. The stash, irrevocable acts, publication and the remote combining buffer (R48 to R52, R305 to R308, R317 to
R320, R328), the phase record's place (R452), and requests to peers (R493). -/
namespace Sys2Proof.Machine

/-! ## Byte masks over a line -/

/-- Byte `i` of a line's 128 bytes. -/
def lineByte (x : BitVec 1024) (i : Nat) : Byte := x.extractLsb' (8 * i) 8

/-- Sets byte `i` of a line. -/
def setLineByte (x : BitVec 1024) (i : Nat) (b : Byte) : BitVec 1024 :=
  (x &&& ~~~(BitVec.ofNat 1024 (255 * 2 ^ (8 * i)))) ||| BitVec.ofNat 1024 (b.toNat * 2 ^ (8 * i))

/-- The 128 bytes of a line at home. -/
def State.homeLine (s : State) (line : Nat) : BitVec 1024 := BitVec.ofNat 1024 (ofBytes (s.rdBytes line 128))

/-- The bytes of a mask, ascending. -/
def maskBytes (m : BitVec 128) : List Nat := (List.range 128).filter fun i => m.getLsbD i

/-! ## Phase records (R452) -/

/-- Carry v registers of a slice. -/
def Kernel.carryV (k : Kernel) : Slice → List Nat
  | .execute => k.xcarryv
  | .access => k.acarryv

/-- Carry k registers of a slice, as a mask. -/
def Kernel.carryK (k : Kernel) : Slice → BitVec 64
  | .execute => k.xcarryk
  | .access => k.acarryk

/-- Bytes of a pod's section in the phase record (R452). -/
def Kernel.podSection (k : Kernel) (sl : Slice) : Nat :=
  (0x80 + 4 * k.width * (1 + (k.carryV sl).length) + 127) / 128 * 128

/-- RS: bytes of a team's phase record (R452). -/
def Kernel.recordSize (k : Kernel) : Nat := 128 + k.xpods * k.podSection .execute + k.apods * k.podSection .access

/-- Virtual address of the team's phase record (R452). -/
def Team.recordAt (t : Team) : Dword := t.prec + BitVec.ofNat 64 (t.id.l * t.kernel.recordSize)

/-! ## Irrevocable acts (R49, R50, R52, R453) -/

/-- What an attempted act answers: the state, a cause that stops the attempt, or a wait. -/
inductive Try
  | ok (s : State)
  | fail (c : Cause) (s : State)
  | wait (k : WaitKind) (s : State)
deriving DecidableEq, Repr

/-- Continues an attempt. -/
def Try.then_ (x : Try) (f : State → Try) : Try :=
  match x with
  | .ok s => f s
  | .fail c s => .fail c s
  | .wait k s => .wait k s

/-- An attempt that stops or waits leaves the state as it was. -/
def Try.whole (x : Try) (s : State) : Try :=
  match x with
  | .ok s => .ok s
  | .fail c _ => .fail c s
  | .wait k _ => .wait k s

/-- Sets the irrevocable bit of a team before an act has any effect outside the core, and writes IRREV (R50, R52, R453). -/
def State.irrevocable (s : State) (tid : TeamId) : Try :=
  match s.findTeam tid with
  | none => .ok s
  | some t =>
    if t.irrev then .ok s
    else if t.kernel.shadow then .fail .irrevocableAbort s
    else
      let done := fun (s : State) => Try.ok (s.onTeam tid fun t => { t with irrev := true })
      if t.prec = 0 then done s
      else
        match s.translateRange t t.core (t.recordAt + 4) 4 .wr with
        | (.error _, s) => .fail .phaseOverflow s
        | (.ok pas, s) =>
          if s.poisoned pas then .fail .phaseOverflow s
          else done (s.writeHome tid pas (toBytes 4 (ofBytes (s.rdAll pas) ||| 1)))

/-! ## Writes of engines and atomics -/

/-- Writes bytes home and invalidates the writer's own clean lines too (R333, R338). -/
def State.writeHomeAll (s : State) (tid : TeamId) (pas : List Nat) (bs : List Byte) : State :=
  let lines := (pas.map lineOf).eraseDups
  (s.writeHome tid pas bs).onTeam tid fun t => lines.foldl Team.invalidate t

/-! ## Peers (R292, R493) -/

/-- The peer of an address in a window. -/
def peerOf (pa : Nat) : Nat := (pa - peerBase) / peerSize

/-- Whether link a–b is up in this package's link-state table (R494). -/
def State.linkUp (s : State) (a b : Nat) : Bool := (s.husk.lstate.get a).getLsbD b

/-- The relay of a message to a package: none when the link is up, or when no relay is there (R495). -/
def State.relayTo (s : State) (dst : Nat) : Option Nat :=
  let me := Config.pkg.toNat
  if s.linkUp me dst then none
  else (List.range 16).find? fun c => c != me && c != dst && s.linkUp me c && s.linkUp c dst

/-- The channel of a message of a class, with or without a relay (R491). -/
def vcVia (vc : BitVec 3) (relay : Option Nat) : BitVec 3 := if relay.isSome then (vc &&& 3) + 4 else vc &&& 3

/-- Sends a request to a peer: it is outstanding under a new end-to-end sequence until it is answered (R493). -/
def State.send (s : State) (pa : Nat) (vc : BitVec 3) (pod : Option PodId) (team : Option TeamId) (k : ReqKind) :
    Word × State :=
  let dst := peerOf pa
  let seq := s.nextSeq.get dst
  let via := s.relayTo dst
  (seq, { s with nextSeq := s.nextSeq.set dst (seq + 1),
                 outReq := s.outReq ++ [{ dst := dst, seq := seq, dgen := s.husk.dgen, resent := 0, pa := pa, vc := vcVia vc via,
                                          relay := via, pod := pod, team := team, kind := k }] })

/-- Bytes of a peer line enter the remote combining buffer of a core, merging with an entry of the team for the line (R319);
none when the buffer is full (R320). -/
def State.toRemote (s : State) (core : Nat) (tid : TeamId) (line : Nat) (m : BitVec 128) (x : BitVec 1024) : Option State :=
  let mine := fun (r : Remote) => r.core == core && r.line == line && r.team == tid
  let merge := fun (old : BitVec 1024) => (maskBytes m).foldl (fun o i => setLineByte o i (lineByte x i)) old
  let bs := (List.range 128).map fun i => lineByte x i
  let msk := (List.range 128).map fun i => m.getLsbD i
  if s.rcbuf.any mine then
    let s := { s with rcbuf := s.rcbuf.map fun r => if mine r then { r with mask := r.mask ||| m, bytes := merge r.bytes } else r }
    some (s.send line 2 none (some tid) (.store bs msk)).2
  else if 64 ≤ (s.rcbuf.filter fun r => r.core = core).length then none
  else
    let s := { s with rcbuf := s.rcbuf ++ [({ core := core, line := line, mask := m, bytes := merge 0, team := tid } : Remote)] }
    some (s.send line 2 none (some tid) (.store bs msk)).2

/-- A byte that a core's remote combining buffer holds for a team (R320). -/
def State.remoteByte (s : State) (core : Nat) (tid : TeamId) (pa : Nat) : Option Byte :=
  match s.rcbuf.find? fun r => r.core == core && r.team == tid && r.line == lineOf pa && r.mask.getLsbD (pa % 128) with
  | some r => some (lineByte r.bytes (pa % 128))
  | none => none

/-- Whether a team has entries in a remote combining buffer. -/
def State.hasRemote (s : State) (tid : TeamId) : Bool := s.rcbuf.any fun r => r.team = tid

/-! ## Lines locked by a serial transaction (R363) -/

/-- The lines that serial threads lock at home (R363). -/
def State.lockedLine (s : State) (line : Nat) : Bool :=
  match s.serial with
  | none => false
  | some p =>
    match s.findPod p with
    | none => false
    | some q => q.tx.any fun x => x.inTx && x.serial && (x.reads.any (·.1 = line) || x.writes.any (·.1 = line))

/-! ## Stash lines (R305 to R307) -/

/-- The twin half that holds a line (R307). -/
def Team.lineHalf (t : Team) (va : Nat) : Nat := if t.kernel.twin then bits va 7 1 else 0

/-- The stash line of a physical line. -/
def Team.lineAt (t : Team) (pa : Nat) : Option Line := t.stash.find? fun l => l.pa = lineOf pa

/-- Replaces a line, found by its half and region offset. -/
def Team.setLine (t : Team) (l : Line) : Team :=
  { t with stash := t.stash.map fun x => if x.roff = l.roff ∧ x.half = l.half then l else x }

/-- Removes a line. -/
def Team.dropLine (t : Team) (l : Line) : Team :=
  { t with stash := t.stash.filter fun x => !(x.roff == l.roff && x.half == l.half) }

/-- Adds a line. -/
def Team.addLine (t : Team) (l : Line) : Team := { t with stash := t.stash ++ [l] }

/-- Lines that hold combining entries, 8 each (R356), taken from half 0. -/
def Team.combLines (t : Team) : Nat := (t.rcb.length + 7) / 8

/-- Region offsets of free lines of a half, ascending: those with no line and not taken by combining entries, which use the
highest offsets (log 14). -/
def Team.freeLines (t : Team) (half : Nat) : List Nat :=
  let n := t.kernel.stash / 128
  let used := (t.stash.filter fun l => l.half = half).map (·.roff)
  let free := ((List.range n).map (· * 128)).filter fun r => !used.contains r
  if half = 0 then free.take (free.length - t.combLines) else free

/-- Writes a line's dirty bytes to its home, or into the remote combining buffer for a peer line; none when that buffer is
full (R320) or the line is locked (R363). The line stays, clean. Bytes that are uncorrectable are not written, and their loss is logged
(R312). -/
def State.lineHome (s : State) (tid : TeamId) (core : Nat) (l : Line) : Option State :=
  let clean := fun (s : State) => s.onTeam tid fun t => t.setLine { l with dirty := 0, bad := 0, filled := l.bad == 0 && (l.filled || l.dirty == ~~~0) }
  let good := l.dirty &&& ~~~l.bad
  let s' := if l.dirty &&& l.bad = 0 then s else s.note (.uncorrectable l.pa)
  if l.dirty = 0 then some s
  else if s.lockedLine l.pa then none
  else if (areaOf l.pa).isPeer then (s'.toRemote core tid l.pa good l.bytes).map clean
  else
    let is := maskBytes good
    some (clean (s'.writeHome tid (is.map fun i => l.pa + i) (is.map fun i => lineByte l.bytes i)))

/-- The implicit lines of a half, clean ones first and then the least recently written (R305). -/
def Team.victim (t : Team) (half : Nat) : Option Line :=
  let ls := t.stash.filter fun l => l.half = half && !l.explicit
  match ls.find? fun l => l.dirty = 0 with
  | some l => some l
  | none => ls.foldl (fun b l => match b with
    | none => some l
    | some m => if l.written < m.written then some l else some m) none

/-- Frees a line of a half (R305): a free one, or a victim's; a dirty victim goes home as an overflow (R49). None when every
line is explicit. -/
def State.freeLine (s : State) (tid : TeamId) (half : Nat) : Option Nat × Try :=
  match s.findTeam tid with
  | none => (none, .ok s)
  | some t =>
    match t.freeLines half with
    | r :: _ => (some r, .ok s)
    | [] =>
      match t.victim half with
      | none => (none, .ok s)
      | some l =>
        if l.dirty = 0 then (some l.roff, .ok (s.onTeam tid fun t => t.dropLine l))
        else
          (some l.roff, (s.irrevocable tid).then_ fun s =>
            match s.lineHome tid (t.core + half) l with
            | none => .wait .release s
            | some s => .ok ((s.onTeam tid fun t => t.dropLine l).countEvent (t.core + half) 6))

/-- Fills the bytes of a line that are not dirty from home, once, errors with them (R305, R311). A peer line stays unfilled. -/
def State.fillLine (s : State) (l : Line) : Line :=
  if l.filled || (areaOf l.pa).isPeer then l
  else
    let home := s.homeLine l.pa
    let errs := (s.poison.filter fun pa => lineOf pa = l.pa).foldl (fun m pa => m ||| BitVec.ofNat 128 (2 ^ (pa % 128))) (0 : BitVec 128)
    { l with filled := true, bytes := (maskBytes l.dirty).foldl (fun x i => setLineByte x i (lineByte l.bytes i)) home
             bad := l.bad &&& l.dirty ||| errs &&& ~~~l.dirty }

/-- Writes the bytes of one line through to home as a stash dirty-line overflow (R305, R306, R511). -/
def State.writeThrough (s : State) (tid : TeamId) (core : Nat) (pas : List Nat) (bs : List Byte) : Try :=
  let count := fun (s : State) => Try.ok (s.countEvent core 6)
  ((s.irrevocable tid).then_ fun s =>
    match pas with
    | [] => .ok s
    | pa :: _ =>
      if (areaOf pa).isPeer then
        let lines := (pas.map lineOf).eraseDups
        lines.foldl (fun (x : Try) line => x.then_ fun s =>
          let own := (pas.zip bs).filter fun y => lineOf y.1 = line
          let m := own.foldl (fun m y => m ||| BitVec.ofNat 128 (2 ^ (y.1 % 128))) (0 : BitVec 128)
          let v := own.foldl (fun v y => setLineByte v (y.1 % 128) y.2) (0 : BitVec 1024)
          match s.toRemote core tid line m v with
          | none => .wait .release s
          | some s => .ok s) (.ok s)
      else if pas.any fun pa => s.lockedLine (lineOf pa) then .wait .release s
      else .ok (s.writeHome tid pas bs)).then_ count

/-- The place of the next write in the order of a team's writes (R305). -/
def Team.nextWrite (t : Team) : Nat := t.stash.foldl (fun m l => max m l.written) 0 + 1

/-- Asks a peer for a line of the stash that has not been filled; the answer fills it (R305). -/
def State.askFill (s : State) (l : Line) : State :=
  if (areaOf l.pa).isPeer && !l.filled && !s.outReq.any fun o => o.pod == some s.pod.id && o.pa == l.pa && o.kind == .load 128 then
    (s.send l.pa 1 (some s.pod.id) none (.load 128)).2
  else s

/-- Stores bytes that lie in one line into the team's stash (R305, R306): into the line's stash line, or a line taken as
implicit, or through to home. -/
def State.stashLine (s : State) (tid : TeamId) (va : Nat) (pas : List Nat) (bs : List Byte) : Try :=
  match s.findTeam tid, pas with
  | some t, pa :: _ =>
    let put := fun (l : Line) =>
      (pas.zip bs).foldl (fun (l : Line) y =>
        { l with bytes := setLineByte l.bytes (y.1 % 128) y.2, dirty := l.dirty ||| BitVec.ofNat 128 (2 ^ (y.1 % 128))
                 bad := l.bad &&& ~~~BitVec.ofNat 128 (2 ^ (y.1 % 128)) })
        { l with written := t.nextWrite }
    match t.lineAt pa with
    | some l =>
      let s := if l.explicit then s.askFill l else s
      let l := if l.explicit then s.fillLine l else l
      .ok (s.onTeam tid fun t => t.setLine (put l))
    | none =>
      let half := t.lineHalf va
      if t.kernel.stash = 0 then s.writeThrough tid (t.core + half) pas bs
      else
        match s.freeLine tid half with
        | (none, x) => x.then_ fun s => s.writeThrough tid (t.core + half) pas bs
        | (some r, x) => x.then_ fun s =>
          let l : Line := { roff := r, half := half, va := va / 128 * 128, pa := lineOf pa, explicit := false,
                            filled := false, dirty := 0, bytes := 0, written := 0 }
          .ok (s.onTeam tid fun t => t.addLine (put l))
  | _, _ => .ok s

/-- Splits an access into its lines: virtual address, physical addresses and bytes of each. -/
def byLine (va : Nat) (pas : List Nat) (bs : List Byte) : List (Nat × List Nat × List Byte) :=
  let lines := (pas.map lineOf).eraseDups
  lines.map fun line =>
    let own := ((List.range pas.length).zip (pas.zip bs)).filter fun y => lineOf y.2.1 = line
    (va + (match own with | [] => 0 | y :: _ => y.1), own.map (·.2.1), own.map (·.2.2))

/-- Stores bytes into the stash, line by line (R305); a store that cannot be made whole is not made (R52). -/
def State.stashStore (s : State) (tid : TeamId) (va : Nat) (pas : List Nat) (bs : List Byte) : Try :=
  Try.whole ((byLine va pas bs).foldl (fun (x : Try) y => x.then_ fun s => s.stashLine tid y.1 y.2.1 y.2.2) (.ok s)) s

/-- A store with .sys, or with .rel at cluster scope or wider (R324, R328): it takes an implicit line if its line has none,
writes the line's dirty bytes and its own home, and leaves the line clean. The team sees it when it reaches home, so that nothing is
done while it waits (R318). -/
def State.homeStore (s : State) (tid : TeamId) (va : Nat) (pas : List Nat) (bs : List Byte) : Try :=
  ((s.irrevocable tid).then_ fun s =>
    (s.stashStore tid va pas bs).then_ fun s =>
      ((pas.map lineOf).eraseDups).foldl (fun (x : Try) line => x.then_ fun s =>
        match s.findTeam tid with
        | none => .ok s
        | some t =>
          match t.lineAt line with
          | none => .ok s
          | some l =>
            match s.lineHome tid (t.core + l.half) l with
            | none => .wait .release s
            | some s => .ok s) (.ok s)).whole s

/-- One byte as the team loads it (R305, R320): from its stash line, its remote combining buffer, or home. -/
def State.loadByte (s : State) (t : Team) (pa : Nat) : Byte :=
  match t.lineAt pa with
  | some l => if l.filled || l.dirty.getLsbD (pa % 128) then lineByte l.bytes (pa % 128)
              else (s.remoteByte (t.core + l.half) t.id pa).getD (s.rdByte pa)
  | none =>
    match (t.cores.filterMap fun c => s.remoteByte c t.id pa) with
    | b :: _ => b
    | [] => s.rdByte pa

/-- The touch of a load (R305): stash lines that it reads fill once. -/
def State.touch (s : State) (tid : TeamId) (pas : List Nat) : State :=
  ((pas.map lineOf).eraseDups).foldl (fun s line =>
    match s.findTeam tid with
    | none => s
    | some t =>
      match t.lineAt line with
      | none => s
      | some l => s.onTeam tid fun t => t.setLine (s.fillLine l)) s

/-- Whether the value of a byte must come from a peer: it lies in a peer window and neither the stash nor the remote
combining buffer holds it (R292, R320). -/
def State.needsPeer (s : State) (t : Team) (pa : Nat) : Bool :=
  (areaOf pa).isPeer &&
    (match t.lineAt pa with
      | some l => !(l.filled || l.dirty.getLsbD (pa % 128))
      | none => true) &&
    t.cores.all fun c => (s.remoteByte c t.id pa).isNone

/-! ## Publication (R328) -/

/-- Publishes the dirty lines of a team that satisfy `sel`: the irrevocable bit first, then every line home (R328). -/
def State.publish (s : State) (tid : TeamId) (sel : Line → Bool) : Try :=
  match s.findTeam tid with
  | none => .ok s
  | some t =>
    let ls := t.stash.filter fun l => l.dirty ≠ 0 && sel l
    if ls.isEmpty then .ok s
    else
      (s.irrevocable tid).then_ fun s =>
        ls.foldl (fun x l => x.then_ fun s =>
          match s.lineHome tid (t.core + l.half) l with
          | none => .wait .release s
          | some s => .ok s) (.ok s)

/-- A release at cluster scope or wider publishes every dirty line; at sys scope it completes only when the peers have
acknowledged the team's entries (R320, R328). -/
def State.release (s : State) (tid : TeamId) (scope : Nat) : Try :=
  if scope < 3 then .ok s
  else
    (s.publish tid fun _ => true).then_ fun s =>
      if scope = 5 ∧ s.hasRemote tid then .wait .ack s else .ok s

end Sys2Proof.Machine
end

