-- ==== Sys2Proof/Machine/Fetch.lean ====
section
/-! DEFINITION. Instruction fetch through the team's stash and the core's instruction cache (R62, R238), planted breakpoints
(R517), and the choice of the pod that issues (R54, R55). -/
namespace Sys2Proof.Machine

/-! ## Fetch -/

/-- The virtual address of the fetch line that holds an address (R61). -/
def fetchLineOf (va : Dword) : Nat := va.toNat / 48 * 48

/-- Whether the team's stash holds a piece of four bytes (R238). -/
def Team.holdsPiece (t : Team) (pa : Nat) : Bool :=
  match t.lineAt pa with
  | some l => l.filled || (List.range 4).all fun i => l.dirty.getLsbD ((pa + i) % 128)
  | none => false

/-- A piece of code as home holds it. -/
def State.codePiece (s : State) (pa : Nat) : Word := BitVec.ofNat 32 (ofBytes (s.rdBytes pa 4))

/-- The fetch line of a core and address space that an instruction cache holds. -/
def State.fetchLine (s : State) (core : Nat) (asn : BitVec 12) (va : Nat) : Option FetchLine :=
  s.icache.find? fun x => x.core == core && x.asn == asn && x.va == va

/-- An instruction cache takes a fetch line, or more pieces of one that it holds; it has room for 682 lines (R16, R61). -/
def State.fillCode (s : State) (core : Nat) (asn : BitVec 12) (va : Nat) (ps : List (Nat × Word)) : State :=
  match s.fetchLine core asn va with
  | some x =>
    { s with icache := s.icache.map fun y =>
        if y = x then { y with pieces := y.pieces ++ ps.filter fun p => !y.pieces.any fun q => q.1 == p.1 } else y }
  | none =>
    let (l, s) := s.cached 682 (fun x => x.core == core) s.icache ⟨core, asn, va, ps⟩
    { s with icache := l }

/-- The pieces of the fetch line of a word whose bytes lie at `pas`: those on the pages that the word touches (R62), that memory here
holds without error (R311). -/
def State.linePieces (s : State) (pc : Dword) (pas : List Nat) : List (Nat × Word) :=
  let base := fetchLineOf pc
  let spots := (List.range 12).filterMap fun i =>
    let va := base + 4 * i
    ((List.range 3).find? fun j => (pc.toNat + 4 * j) / 4096 = va / 4096).map fun j =>
      pas.getD (4 * j) 0 / 4096 * 4096 + va % 4096
  (spots.filter fun pa => (areaOf pa).isMem && !s.poisoned (run pa 4)).map fun pa => (pa, s.codePiece pa)

/-- One aligned piece of a code word (R238): from the team's stash, or as its fetch line holds it. A piece stored over since the line was
cached reads as either. A piece of a peer's memory that is not cached is absent. -/
def State.fetchPiece (s : State) (core : Nat) (pc : Dword) (pa : Nat) : Option Word × State :=
  if s.team.holdsPiece pa then (some (BitVec.ofNat 32 (ofBytes ((run pa 4).map (s.loadByte s.team)))), s)
  else
    let held := (s.fetchLine core s.team.asn (fetchLineOf pc)).bind fun x => x.pieces.find? fun y => y.1 == pa
    match held with
    | none => if s.needsPeer s.team pa then (none, s) else (some (BitVec.ofNat 32 (ofBytes ((run pa 4).map (s.loadByte s.team)))), s)
    | some (_, old) =>
      if (areaOf pa).isPeer || old = s.codePiece pa then (some old, s)
      else
        let (k, s) := s.choose 2
        (some (if k = 0 then old else s.codePiece pa), s)

/-- What a fetch answers: the word, a cause with TARG and TADDR, or a wait for a peer. -/
inductive Fetched
  | word (w : IWord)
  | fault (c : Cause) (arg : Word) (addr : Dword)
  | wait
deriving DecidableEq, Repr

/-- Fetches the word at the frontier of the issuing pod, with its fetch line (R60 to R62, R238). -/
def State.fetch (s : State) : Fetched × State :=
  let core := s.team.coreOf s.pod.id
  let pc := s.pod.pc
  match s.translateRange s.team core pc 12 .fetch with
  | (.error (c, g, va), s) => (.fault c g va, s)
  | (.ok pas, s) =>
    if s.poisoned pas then (.fault .memUncorrectable 0 pc, s)
    else
      let a := pas.headD 0
      let b := pas.getD 4 0
      let c := pas.getD 8 0
      let s := if [a, b, c].all s.team.holdsPiece then s else s.fillCode core s.team.asn (fetchLineOf pc) (s.linePieces pc pas)
      let (x, s) := s.fetchPiece core pc a
      let (y, s) := s.fetchPiece core pc b
      let (z, s) := s.fetchPiece core pc c
      match x, y, z with
      | some x, some y, some z => (.word (z ++ y ++ x), s)
      | _, _, _ =>
        if s.outReq.any fun r => r.pod = some s.pod.id ∧ r.kind = .load 4 then (.wait, s)
        else
          let ask := fun (v : Option Word) (pa : Nat) (s : State) =>
            if v.isSome then s else (s.send pa 1 (some s.pod.id) none (.load 4)).2
          (.wait, ask z c (ask y b (ask x a s)))

/-- Whether a planted breakpoint of the team stops the issuing pod (R517). -/
def State.planted (s : State) : Bool :=
  (s.team.bps.any fun b => b.2 = s.pod.pc) && s.pod.bpPass != some s.pod.pc && s.pod.resumeAt.isNone

/-! ## Selection (R54) -/

/-- Whether a pod can issue (R54, R269, R273, R447): its team is resident and started, and nothing holds it. A pod inside an instruction
goes on to its boundary; one with a cause set issues nothing at user level. -/
def State.canIssue (s : State) (t : Team) (p : Pod) : Bool :=
  t.place = .resident && (p.inside || t.saving.isNone && !p.halted) && decide (t.start.toNat ≤ s.time.toNat) && !p.done && !p.phased &&
    (p.trapLevel || p.cause == 0) &&
    p.raised.isNone && p.frontier.isSome && p.sched.demoted.isNone && s.husk.c = 0 && decide (s.hold ≤ s.cycle) &&
    (match p.wait with
      | none => true
      | some w => w.seen != s.progress || w.until_ == some 0)

/-- The pods of one scheduler: teams by the order in which they were placed, pods of one team by their index (R54). -/
def State.served (s : State) (core : Nat) (sl : Slice) : List Pod :=
  let placed := fun (p : Pod) => ((s.findTeam p.id.team).map Team.placed).getD 0
  sortBy (fun a b => decide (placed a < placed b) || placed a == placed b && decide (a.id.idx ≤ b.id.idx))
    (s.allPods.filter fun p => p.id.slice = sl &&
      match s.findTeam p.id.team with
      | none => false
      | some t => t.place = .resident && t.coreOf p.id = core && !p.done)

/-- The active set: 8 execute pods or 4 access pods (R54). DESIGN CHOICE (log 7): free places go to the pods that have been pending
longest, demoted ones aside. -/
def State.activeSet (s : State) (core : Nat) (sl : Slice) : List Pod :=
  let all := s.served core sl
  let n := match sl with
    | .execute => 8
    | .access => 4
  ((all.filter fun p => p.sched.active) ++
    sortBy (fun a b => decide (a.sched.pending ≤ b.sched.pending)) (all.filter fun p => !p.sched.active && p.sched.demoted.isNone)).take n

/-- When a pod issued last; one that has not issued yet counts from its entry into the active set (R54). -/
def Sched.since (d : Sched) : Nat := if d.last = 0 then d.entered else d.last

/-- The least recently issued of some pods; the first of those with the same cycle (R54). -/
def leastRecent : List Pod → Option Pod
  | [] => none
  | p :: ps =>
    match leastRecent ps with
    | none => some p
    | some q => if q.sched.since < p.sched.since then some q else some p

/-- The pod that one scheduler selects (R54). -/
def State.select (s : State) (core : Nat) (sl : Slice) : Option PodId :=
  (leastRecent ((s.activeSet core sl).filter fun p =>
    match s.findTeam p.id.team with
    | none => false
    | some t => s.canIssue t p)).map (·.id)

/-- The cores that hold resident teams. -/
def State.busyCores (s : State) : List Nat :=
  ((s.allTeams.filter fun t => t.id.grid ≠ 0 && t.place = .resident).flatMap Team.cores).eraseDups

/-- Pods that take free places of the active sets enter them (R54). -/
def State.fillActive (s : State) : State :=
  let new := s.busyCores.flatMap fun c =>
    ((s.activeSet c .execute ++ s.activeSet c .access).filter fun p => !p.sched.active).map (·.id)
  if new.isEmpty then s
  else s.mapPods fun p => if new.contains p.id then { p with sched := { p.sched with active := true, entered := s.cycle } } else p

/-- The pods that the schedulers of all cores select. -/
def State.selected (s : State) : List PodId :=
  s.busyCores.flatMap fun c => (s.select c .execute).toList ++ (s.select c .access).toList

end Sys2Proof.Machine
end

