-- ==== Sys2Proof/Machine/Mmio.lean ====
section
/-! DEFINITION. The memory-mapped registers (R22, R23, R293, R300, R435, R466, R506 to R508, R510, R518): where they lie, who reaches
them, what a read returns, and the writes that only set a field. -/
namespace Sys2Proof.Machine

/-- The register, or dword of a register array, at an 8-byte slot. -/
inductive Reg
  | devid | devcfg | xlinv | wqbase | wqcmd | wqarg | acornst
  | door (q : Nat)
  /-- Selector and count of a counter: 8 of each L2 slice, then the Husk's 16 from 1024 (R510). -/
  | counterSel (n : Nat) | counterVal (n : Nat)
  | capm (core i : Nat)
  | pkgst | huskcmd | diecmd | diepol
  | escbase | escctl | eschead | esctail
  | lstate (i : Nat)
  | tbctl | dbgout | dbgin
  | stv (p : Nat) | orph
  | mcmbox (i : Nat)
  /-- The window onto the access tables and its control; the manual gives no layout but BUSY (log 13). -/
  | accwin | accctl
  | wqpart (i : Nat) | ueep (i : Nat) | uefg (i : Nat)
deriving DecidableEq, Repr

/-- The register at an offset in MMIO. -/
def regAt (off : Nat) : Option Reg :=
  let o := off / 8 * 8
  if o = 0x0 then some .devid
  else if o = 0x8 then some .devcfg
  else if o = 0x100 then some .xlinv
  else if o = 0x200 then some .wqbase
  else if o = 0x208 then some .wqcmd
  else if o = 0x210 then some .wqarg
  else if o = 0x218 then some .acornst
  else if 0x1_0000 ≤ o ∧ o < 0x3_0000 then some (.door ((o - 0x1_0000) / 8))
  else if 0x3_0000 ≤ o ∧ o < 0x3_4000 then
    let n := (o - 0x3_0000) / 16
    some (if o % 16 = 0 then .counterSel n else .counterVal n)
  else if 0x4_0000 ≤ o ∧ o < 0x5_0000 then some (.capm ((o - 0x4_0000) / 32) ((o - 0x4_0000) % 32 / 8))
  else if o = 0x10_0000 then some .pkgst
  else if o = 0x10_0008 then some .huskcmd
  else if o = 0x10_0010 then some .diecmd
  else if o = 0x10_0018 then some .diepol
  else if o = 0x10_0040 then some .escbase
  else if o = 0x10_0048 then some .escctl
  else if o = 0x10_0050 then some .eschead
  else if o = 0x10_0058 then some .esctail
  else if 0x10_0080 ≤ o ∧ o < 0x10_00A0 then some (.lstate ((o - 0x10_0080) / 8))
  else if o = 0x10_0100 then some .tbctl
  else if o = 0x10_0200 then some .dbgout
  else if o = 0x10_0208 then some .dbgin
  else if 0x10_0300 ≤ o ∧ o < 0x10_0400 then
    let n := 1024 + (o - 0x10_0300) / 16
    some (if o % 16 = 0 then .counterSel n else .counterVal n)
  else if 0x10_0400 ≤ o ∧ o < 0x10_0480 then some (.stv ((o - 0x10_0400) / 8))
  else if o = 0x10_0480 then some .orph
  else if 0x10_0C00 ≤ o ∧ o < 0x10_0C40 then some (.mcmbox ((o - 0x10_0C00) / 8))
  else if o = 0x10_1000 then some .accwin
  else if o = 0x10_1008 then some .accctl
  else if 0x10_4000 ≤ o ∧ o < 0x10_8000 then some (.wqpart ((o - 0x10_4000) / 8))
  else if 0x10_8000 ≤ o ∧ o < 0x10_A000 then some (.ueep ((o - 0x10_8000) / 8))
  else if 0x10_A000 ≤ o ∧ o < 0x10_A080 then some (.uefg ((o - 0x10_A000) / 8))
  else none

/-- The masters that a register's definition can name (R293). -/
inductive Who
  | pod | host | mc | debug
deriving DecidableEq, Repr

/-- Whether a master reaches a register (R293, R300, R435, R466, R506, R518). -/
def Reg.reach (r : Reg) (w : Who) : Bool :=
  match r with
  | .devid | .devcfg | .counterSel _ | .counterVal _ | .stv _ | .orph => w != .debug
  | .xlinv | .wqbase | .wqcmd | .wqarg | .acornst | .door _ | .capm _ _ | .pkgst | .escbase | .escctl | .eschead
  | .esctail | .lstate _ | .mcmbox _ => w == .host || w == .mc
  | .dbgout | .dbgin => w == .debug || w == .mc
  | .huskcmd | .diecmd | .diepol | .tbctl | .accwin | .accctl | .wqpart _ | .ueep _ | .uefg _ => w == .mc

/-- Whether only the MC reaches a register; its access is then never refused (R502). -/
def Reg.mcOnly (r : Reg) : Bool := !(r.reach .pod || r.reach .host || r.reach .debug)

/-- The queue record of queue `q`, enabled or not. -/
def State.findQueue (s : State) (q : Nat) : Option Queue := s.queues.find? fun x => x.q = q

/-- HEAD and TAIL of queue `q`; a queue never enabled holds zeros. -/
def State.headTail (s : State) (q : Nat) : Word × Word :=
  match s.findQueue q with
  | some x => (x.head, x.tail)
  | none => (0, 0)

/-- Dword `i` of a byte array by 8 bytes. -/
def cells8 (c : Cells 8) (i : Nat) : Nat := ofBytes ((List.range 8).map fun j => c.get (8 * i + j))

/-- What a read of a register returns; WO fields read as zero (R5, R6). DBGOUT is in `State.popDebug`. -/
def State.readReg (s : State) (r : Reg) : Dword :=
  match r with
  | .devid => Config.devid
  | .devcfg => Config.devcfg
  | .xlinv => (s.xlinv &&& 0x60FF_FFFF_FFFF_FFFF) ||| (if s.xlbusy then 0x8000_0000_0000_0000 else 0)
  | .wqbase => s.wqbase &&& 0x000F_FFFF_FFF0_0000
  | .wqcmd => BitVec.ofNat 64 (s.wqstatus.toNat * 2 ^ 60)
  | .wqarg => s.wqarg
  | .acornst => if s.acornst then 1 else 0
  | .door q => BitVec.ofNat 64 ((s.headTail q).1.toNat * 2 ^ 32 + (s.headTail q).2.toNat)
  | .counterSel n => (s.fsel.get n).setWidth 64
  | .counterVal n => (s.fcnt.get n).setWidth 64
  | .capm core i => ((s.capmOf core) >>> (64 * i)).setWidth 64
  | .pkgst => BitVec.ofNat 64 (s.husk.dgen.toNat * 2 ^ 32 + s.husk.htgt.toNat * 2 ^ 10 + s.husk.h.toNat * 2 ^ 8 +
      s.husk.c.toNat * 2 ^ 4)
  | .huskcmd | .diecmd => 0
  | .diepol => s.husk.hold.setWidth 64
  | .escbase => s.escbase &&& 0x000F_FFFF_FFFF_F000
  | .escctl => BitVec.ofNat 64 s.escsize
  | .eschead => s.eschead.setWidth 64
  | .esctail => s.esctail.setWidth 64
  | .lstate i => BitVec.ofNat 64 ((s.husk.lstate.get (4 * i)).toNat + 2 ^ 16 * (s.husk.lstate.get (4 * i + 1)).toNat +
      2 ^ 32 * (s.husk.lstate.get (4 * i + 2)).toNat + 2 ^ 48 * (s.husk.lstate.get (4 * i + 3)).toNat)
  | .tbctl => s.husk.tbctl
  | .dbgout | .dbgin | .accwin => 0
  | .accctl => if s.accBusy then 0x8000_0000_0000_0000 else 0
  | .stv p => BitVec.ofNat 64 ((s.stv2.get p).toNat * 2 ^ 32 + (s.stv1.get p).toNat)
  | .orph => s.orph.setWidth 64
  | .mcmbox i => s.husk.mcmbox.get i
  | .wqpart i => BitVec.ofNat 64 (cells8 s.wqpart i)
  | .ueep i => ((s.ueep.get (i / 4)) >>> (64 * (i % 4))).setWidth 64
  | .uefg i => BitVec.ofNat 64 ((s.uefg.get (4 * i)).toNat + 2 ^ 16 * (s.uefg.get (4 * i + 1)).toNat +
      2 ^ 32 * (s.uefg.get (4 * i + 2)).toNat + 2 ^ 48 * (s.uefg.get (4 * i + 3)).toNat)

/-- Pops the outbound debug FIFO by an 8-byte read of DBGOUT (R518). -/
def State.popDebug (s : State) : Nat × State :=
  match s.dbgFifo with
  | [] => (0, s)
  | w :: ws => (2 ^ 32 + w.toNat, ({ s with dbgFifo := ws } : State).tickle)

/-- A read of 4 or 8 bytes at an address of a register (R5, R518). -/
def State.mmioRead (s : State) (r : Reg) (off size : Nat) : Nat × State :=
  match r with
  | .dbgout => if size = 8 then s.popDebug else (0, s)
  | r => (bits (s.readReg r).toNat (8 * (off % 8)) (8 * size), s)

/-- The dword that a write of `size` bytes forms: the bytes written over `old`. -/
def mergeDword (old : Dword) (off size : Nat) (x : Nat) : Dword :=
  let lo := 8 * (off % 8)
  let m := (2 ^ (8 * size) - 1) * 2 ^ lo
  BitVec.ofNat 64 ((old.toNat &&& (2 ^ 64 - 1 - m % 2 ^ 64)) ||| (x % 2 ^ (8 * size) * 2 ^ lo))

/-- Writes dword `i` of an array of bytes. -/
def setCells8 (c : Cells 8) (i : Nat) (x : Dword) : Cells 8 :=
  (List.range 8).foldl (fun c j => c.set (8 * i + j) (x.extractLsb' (8 * j) 8)) c

/-- Writes dword `i` of an array of 16-bit words. -/
def setCells16 (c : Cells 16) (i : Nat) (x : Dword) : Cells 16 :=
  (List.range 4).foldl (fun c j => c.set (4 * i + j) (x.extractLsb' (16 * j) 16)) c

/-- A write that any master which reaches the register can make and that only sets or clears fields: counters (R510), WQBASE and
WQARG (R435), ACORNST (R456), ESCBASE, ESCCTL and ESCTAIL (R508), DIEPOL, MCMBOX, WQPART, UEEP and UEFG (R506), DBGIN (R518).
Read-only registers ignore it (R5). The commands are in `Registers.lean`. -/
def State.setReg (s : State) (r : Reg) (off size x : Nat) : State :=
  let v := mergeDword (s.readReg r) off size x
  match r with
  | .counterSel n => { s with fsel := s.fsel.set n (v.setWidth 8) }
  | .counterVal n => { s with fcnt := s.fcnt.set n (v.setWidth 48) }
  | .wqbase => { s with wqbase := v &&& 0x000F_FFFF_FFF0_0000 }
  | .wqarg => { s with wqarg := v }
  | .acornst => { s with acornst := s.acornst && !(mergeDword 0 off size x).getLsbD 0 }
  | .diepol => { s with husk := { s.husk with hold := v.setWidth 16 } }
  | .escbase => { s with escbase := v &&& 0x000F_FFFF_FFFF_F000 }
  | .escctl =>
    let n := bits v.toNat 0 5
    { s with escsize := if 4 ≤ n ∧ n ≤ 16 then n else 4 }
  | .esctail =>
    let t : Word := v.setWidth 32
    -- beyond HEAD: further from TAIL than HEAD is
    if (t - s.esctail).toNat ≤ (s.eschead - s.esctail).toNat then ({ s with esctail := t } : State).tickle else s
  | .tbctl => { s with husk := { s.husk with tbctl := v } }
  | .mcmbox i => { s with husk := { s.husk with mcmbox := s.husk.mcmbox.set i v } }
  | .wqpart i => { s with wqpart := setCells8 s.wqpart i (v &&& 0x3F3F_3F3F_3F3F_3F3F) }
  | .ueep i =>
    let e := s.ueep.get (i / 4)
    let keep : Dword := if i % 4 = 2 then 0x0000_010F_00FF_FFFF else if i % 4 = 3 then 0xFFFF_FFFF else -1
    let ones : BitVec 256 := 0xFFFF_FFFF_FFFF_FFFF
    let x : BitVec 256 := (v &&& keep).setWidth 256
    { s with ueep := s.ueep.set (i / 4) ((e &&& ~~~(ones <<< (64 * (i % 4)))) ||| (x <<< (64 * (i % 4)))) }
  | .uefg i => { s with uefg := setCells16 s.uefg i v }
  | .dbgin => { s with dbgIn := some ((mergeDword 0 off size x).setWidth 32) }
  | .stv p => { s with stv1 := s.stv1.set p 0, stv2 := s.stv2.set p 0 }
  | .orph => { s with orph := 0 }
  | _ => s

end Sys2Proof.Machine
end

