-- ==== Sys2Proof/Machine/Access.lean ====
section
/-! DEFINITION. Memory accesses of threads: effective addresses (R74), the checks of every thread before any effect (R38, R261),
loads and stores of each space, requests to peers, and transactional accesses (R303, R304, R324, R347, R358 to R360). -/
namespace Sys2Proof.Machine

/-! ## Form M (R73 to R75) -/

/-- Bytes of a size code. -/
def sizeBytes (c : BitVec 3) : Nat := 2 ^ c.toNat

/-- Registers of a data run. -/
def sizeRegs (c : BitVec 3) : Nat := if c.toNat < 3 then 1 else sizeBytes c / 4

/-- Bytes of an atomicity code. -/
def atomBytes (c : BitVec 2) : Nat := if c = 1 then 8 else if c = 2 then 16 else 1

/-- Bytes of a tag (R75); a raw load has the size of its field. -/
def tagBytes (tag : BitVec 5) : Option Nat :=
  let n := tag.toNat
  if n = 0 then none
  else if n = 4 ∨ n = 5 ∨ n = 6 then some 8
  else if n = 17 ∨ n = 18 then some 16
  else some 4

end Sys2Proof.Machine

namespace Sys2Proof

open Machine

/-- The tag that a typed load names, or raw. -/
def FormM.tag (f : FormM) : BitVec 5 := if f.typed then f.offset.extractLsb' 9 5 else 0

/-- Whether the tag of a typed load is no tag or has another size (R75). -/
def FormM.tagBad (f : FormM) : Bool :=
  f.typed && (decide (21 < f.tag.toNat) || match tagBytes f.tag with
    | some n => n != sizeBytes f.size
    | none => false)

/-- The signed offset (R73). -/
def FormM.off (f : FormM) : Int := if f.typed then signed 9 f.offset.toNat else signed 14 f.offset.toNat

/-- Base and index of an effective address (R73). -/
def FormM.eaSrcs (f : FormM) : List Src :=
  [{ field := 1, arg := .code f.base, acc := [.v, .k, .zero], regs := 2 },
   { field := 2, arg := .code f.index, acc := valAcc }]

/-- The effective address from base and index at size `S` (R74). -/
def FormM.eaOf (f : FormM) (b i : Nat) : Dword :=
  BitVec.ofInt 64 ((b : Int) + (signed 32 i + f.off) * (sizeBytes f.size : Nat))

end Sys2Proof

namespace Sys2Proof.Machine

/-- The effective address of thread `t`, base and index being sources `n` and `n + 1`. -/
def Ctx.ea (c : Ctx) (f : FormM) (n t : Nat) : Dword := f.eaOf (c.val n t) (c.val (n + 1) t)

/-! ## Plain shared memory (R303, R304) -/

/-- Bytes of the plain shared region from offset `o`. -/
def Team.rdShared (t : Team) (o n : Nat) : List Byte := (List.range n).map fun i => t.shared.get (o + i)

/-- Writes bytes of the plain shared region. -/
def Team.wrShared (t : Team) (o : Nat) (bs : List Byte) : Team :=
  { t with shared := ((List.range bs.length).zip bs).foldl (fun m x => m.set (o + x.1) x.2) t.shared
           badShared := t.badShared.filter fun a => !(decide (o ≤ a) && decide (a < o + bs.length)) }

/-- Whether some of `n` bytes of the plain shared region from offset `o` are uncorrectable (R311). -/
def Team.sharedBad (t : Team) (o n : Nat) : Bool := t.badShared.any fun a => decide (o ≤ a) && decide (a < o + n)

/-- A write of the plain shared region at a step; while a tile slot is defined, the values that it replaces stay readable by matrix
operations that no OFENCE orders after it (R341). -/
def Team.putShared (t : Team) (tick o : Nat) (bs : List Byte) : Team :=
  let old := if t.tiles.isEmpty then [] else
    (List.range ((o % 4 + bs.length + 3) / 4)).map fun i =>
      let a := o / 4 * 4 + 4 * i
      (a, tick, BitVec.ofNat 32 (ofBytes (t.rdShared a 4)))
  { t.wrShared o bs with oldShared := t.oldShared ++ old }

/-- The issuing pod's team writes its plain shared region. -/
def State.wrShared (s : State) (o : Nat) (bs : List Byte) : State := s.setTeam (s.team.putShared s.tick o bs)

/-- Whether `n` bytes from offset `o` lie in the declared plain region (R304). -/
def Team.sharedOk (t : Team) (o n : Nat) : Bool :=
  decide (o < 2 ^ 21) && (t.kernel.twin || decide (o < 2 ^ 20)) && decide (o % 2 ^ 20 + n ≤ t.kernel.shared)

/-! ## Checks of one thread (R261, R297, R303, R304, R310, R314, R324, R516) -/

/-- What an instruction asks of an address. -/
structure AccReq where
  size   : Nat
  align  : Nat := 1
  access : Access
  scope  : Nat := 0
  /-- The address is a plain shared offset. -/
  shared : Bool := false
  /-- The shared window is reached as shared memory; otherwise it is refused. -/
  window : Bool := true
  /-- MMIO is reached; otherwise it is refused (R293). -/
  mmio   : Bool := false
  /-- It counts as an access for the watchpoint. -/
  watch  : Bool := true
deriving DecidableEq, Repr

/-- Where an access that passed its checks goes. -/
inductive Spot
  | shared (o : Nat)
  | mem (pas : List Nat)
  | mmio (pa : Nat)
  /-- Its first bytes are memory and the others the first of the shared window (R303, R310). -/
  | mixed (pas : List Nat)
deriving DecidableEq, Repr

/-- A check's answer: the place, or the cause with TARG and TADDR. -/
abbrev Checked := Except (Cause × Word × Dword) Spot

/-- PROTECTION with a reason and no level (R297). -/
def protection (reason : Nat) (ea : Dword) : Cause × Word × Dword := (.protection, xlateArg 0xFF reason, ea)

/-- Whether an armed watchpoint of the team meets an access (R516); shared offsets count on the window. -/
def Team.watched (t : Team) (a : Access) (va n : Nat) : Bool :=
  match t.watch with
  | none => false
  | some (r, w, base, size) =>
    (a.reads && r || a.writes && w) && decide (va < base.toNat + size) && decide (base.toNat < va + n)

/-- The level of the leaf that maps an address, which TARG holds (R297). -/
def State.leafLevel (s : State) (t : Team) (va : Dword) : Nat :=
  match s.walk va 3 t.ptroot with
  | .ok l => l.level
  | .error (_, l) => l

/-- The check of an MMIO access (R293): 4 or 8 aligned bytes of a register that supervisor kernels reach; byte `i` of the access is the
first that lies there. -/
def State.checkMmio (s : State) (t : Team) (r : AccReq) (ea : Dword) (i pa : Nat) : Checked :=
  let va := ea + BitVec.ofNat 64 i
  let no := fun (reason : Nat) => (Except.error (.protection, xlateArg (s.leafLevel t va) reason, va) : Checked)
  if !r.mmio || !(r.size == 4 || r.size == 8) || ea.toNat % r.size != 0 then no 0x16
  else
    match regAt (pa - mmioBase) with
    | none => no 0x16
    | some g => if g.reach .pod then .ok (.mmio pa) else no 0x15

/-- The place of a translated access, `n` of whose bytes are translated. -/
def State.spotOf (s : State) (t : Team) (r : AccReq) (ea : Dword) (n : Nat) (pas : List Nat) : Checked :=
  match pas.findIdx? fun pa => areaOf pa == .mmio with
  | some i => s.checkMmio t r ea i (pas.getD i 0)
  | none => .ok (if n < r.size then .mixed pas else .mem pas)

/-- The check of one address by team `t` on a core, in the order of R261. The bytes of an access that runs onto the shared window are
bytes of the shared region (R303, R310). -/
def State.checkAcc (s : State) (t : Team) (core : Nat) (r : AccReq) (ea : Dword) : Checked × State :=
  let below := windowBase - ea.toNat
  let onto := !r.shared && !onWindow ea && decide (below < r.size)
  if ea.toNat % r.align ≠ 0 then (.error (.misaligned, 0, ea), s)
  else if r.shared || onWindow ea then
    let o := if r.shared then ea.toNat else ea.toNat - windowBase
    if !r.shared && !r.window then (.error (protection 0x16 ea), s)
    else if r.scope = 5 then (.error (.illegalScope, 0, BitVec.ofNat 64 o), s)
    else if !t.sharedOk o r.size then (.error (.stashBounds, 0, BitVec.ofNat 64 o), s)
    else if r.watch && t.watched r.access (windowBase + o) r.size then (.error (.watchpoint, 0, ea), s)
    else (.ok (.shared o), s)
  else if onto && r.window && r.scope = 5 then (.error (.illegalScope, 0, 0), s)
  else if onto && r.window && !t.sharedOk 0 (r.size - below) then (.error (.stashBounds, 0, 0), s)
  else
    let n := if onto then below else r.size
    match s.translateRange t core ea n r.access with
    | (.error e, s) => (.error e, s)
    | (.ok pas, s) =>
      match s.spotOf t r ea n pas with
      | .error e => (.error e, s)
      | .ok p =>
        if onto && !r.window then (.error (protection 0x16 (BitVec.ofNat 64 windowBase)), s)
        else if r.watch && t.watched r.access ea.toNat r.size then (.error (.watchpoint, 0, ea), s)
        else (.ok p, s)

/-- The checks of some threads, before any effect (R38). -/
def State.checkAll (s : State) (t : Team) (core : Nat) (r : AccReq) :
    List (Nat × Dword) → List (Nat × Dword × Checked) × State
  | [] => ([], s)
  | (i, ea) :: l =>
    let (x, s) := s.checkAcc t core r ea
    let (xs, s) := s.checkAll t core r l
    ((i, ea, x) :: xs, s)

/-- The checks of the threads of an instruction. -/
def Ctx.check (c : Ctx) (r : AccReq) (ea : Nat → Dword) : List (Nat × Dword × Checked) × State :=
  c.s.checkAll c.s.team c.s.core r (c.lanes.map fun t => (t, ea t))

/-- The check of a thread. -/
def checkedOf (chk : List (Nat × Dword × Checked)) (t : Nat) : Dword × Checked :=
  match chk.find? fun x => x.1 = t with
  | some x => x.2
  | none => (0, .ok (.mem []))

/-! ## Threads in order -/

/-- What one thread's turn answers: done; done and moved elsewhere; a cause with TARG and TADDR; a wait with nothing done; or done,
and waiting for peers to acknowledge (R320). -/
inductive Act
  | ok (s : State)
  | moved (s : State)
  | fault (c : Cause) (arg : Word) (addr : Dword) (s : State)
  | wait (k : WaitKind) (s : State)
  | linger (s : State)
deriving DecidableEq, Repr

/-- An attempt as a turn: a cause it meets has no detail. -/
def Try.act (x : Try) : Act :=
  match x with
  | .ok s => .ok s
  | .fail c s => .fault c 0 0 s
  | .wait k s => .wait k s

/-- Goes on after an attempt. -/
def Try.andAct (x : Try) (f : State → Act) : Act :=
  match x with
  | .ok s => f s
  | .fail c s => .fault c 0 0 s
  | .wait k s => .wait k s

/-- The pod waits in thread `t`, threads below it being done (R38). A wait for a release records the thread, and whether only the
acknowledgement of the thread's own write is awaited. -/
def Ctx.holdAt (c : Ctx) (t : Nat) (k : WaitKind) (own : Bool) (s : State) : Eff :=
  let s := if c.eff.headD 0 = t then s else s.setPod { s.pod with resumeAt := some (c.this, t), inside := true }
  let s := if own then s.setPod { s.pod with inside := true } else s
  let s := if k ≠ .release ∧ k ≠ .ack then s
    else s.setPod { s.pod with wait := some ⟨k, s.cycle, some ((if own then 1 else 201) + t), s.progress⟩ }
  .hold k s

/-- Whether the first thread's own write is done and only its acknowledgement is awaited. -/
def Pod.lingers (p : Pod) : Bool :=
  match p.wait with
  | some w => w.kind == .ack && (match w.until_ with
      | some u => decide (1 ≤ u) && decide (u ≤ 200)
      | none => false)
  | none => false

/-- Runs the threads in ascending order (R32, R38); those that have left their transactions are moved when all have run. A cause stops at
its thread, with every failing thread above it in the mask. The one FORMAT_MISMATCH is that of loaded data (R131): its field is the data field (log 21). -/
def Ctx.runThreads (c : Ctx) (perform : Nat → State → Act) : List Nat → Mask → State → Eff
  | [], m, s => .done s (m ||| s.pod.leavers)
  | t :: ts, m, s =>
    match perform t s with
    | .ok s => c.runThreads perform ts m s
    | .moved s => c.runThreads perform ts (m ||| one t) s
    | .wait k s => c.holdAt t k false s
    | .linger s => c.holdAt t .ack true s
    | .fault x arg addr s' =>
      let field := if x = .formatMismatch then 4 else 0
      if c.uni then .raise (c.s.pod.before x field arg addr) s'
      else
        let fails := ts.filter fun u => match perform u s with
          | .fault .. => true
          | _ => false
        .raise { c.s.pod.atThread x t (maskOf (t :: fails)) arg addr with field := field } s'

/-- Runs the threads of an instruction; a thread whose own write is done waits for acknowledgements only. -/
def Ctx.turns (c : Ctx) (s : State) (perform : Nat → State → Act) : Eff :=
  if c.s.pod.lingers then
    if s.hasRemote s.pod.id.team then .hold .ack s
    else c.runThreads perform (c.lanes.drop 1) 0 (s.setPod { s.pod with wait := none })
  else c.runThreads perform c.lanes 0 s

/-! ## Loads (R305, R320, R347) -/

/-- The bytes of some addresses that a peer must bring: index and address. -/
def State.missing (s : State) (t : Team) (pas : List Nat) : List (Nat × Nat) :=
  ((List.range pas.length).zip pas).filter fun x => s.needsPeer t x.2

/-- Requests the missing bytes, line by line; a line that the stash holds is requested whole (R292, R305). -/
def State.askPeers (s : State) (t : Team) (pod : PodId) (need : List (Nat × Nat)) :
    List (Nat × Word × List (Nat × Nat)) × State :=
  ((need.map fun x => lineOf x.2).eraseDups).foldl (fun (acc : List (Nat × Word × List (Nat × Nat)) × State) line =>
    let own := need.filter fun x => lineOf x.2 = line
    let lo := own.foldl (fun m x => min m x.2) (line + 128)
    let hi := own.foldl (fun m x => max m x.2) line
    let (from_, n) := if (t.lineAt line).isSome then (line, 128) else (lo, hi + 1 - lo)
    let (seq, s) := acc.2.send from_ 1 (some pod) none (.load n)
    (acc.1 ++ [(peerOf line, seq, own.map fun x => (x.2 - from_, x.1))], s)) ([], s)

/-- What a load of memory finds: its value, the requests it waits for, and whether the data is uncorrectable. -/
structure Loaded where
  value  : Nat
  reqs   : List (Nat × Word × List (Nat × Nat)) := []
  uncorr : Bool := false
  refused : Bool := false
  todo   : Option WrqTodo := none
deriving DecidableEq, Repr

/-- The lines that a load reads through the L1 data cache of a core, 256 lines of it, are then there (R16, R301, R305). -/
def State.fillL1 (s : State) (core : Nat) (lines : List Nat) : State :=
  lines.foldl (fun s line =>
    if s.l1.contains (core, line) then s
    else
      let (l, s) := s.cached 256 (fun x => x.1 == core) s.l1 (core, line)
      { s with l1 := l }) s

/-- The lines of some bytes of memory here that the team's stash does not hold. -/
def Team.throughL1 (t : Team) (pas : List Nat) : List Nat :=
  ((pas.filter fun pa => (areaOf pa).isMem && (t.lineAt pa).isNone).map lineOf).eraseDups

/-- Whether a byte as the team loads it is uncorrectable (R311): in its stash line, or at home. -/
def State.badByte (s : State) (t : Team) (pa : Nat) : Bool :=
  match t.lineAt pa with
  | some l => if l.filled || l.dirty.getLsbD (pa % 128) then l.bad.getLsbD (pa % 128) else s.poison.contains pa
  | none => s.poison.contains pa

/-- A load of global memory by the issuing pod (R305): the stash lines that it touches fill once. -/
def State.loadMem (s : State) (pas : List Nat) : Loaded × State :=
  let tid := s.pod.id.team
  let s := s.touch tid pas
  let t := s.team
  let s := s.fillL1 s.core (t.throughL1 pas)
  let need := s.missing t pas
  let v := ofBytes (pas.map fun pa => if s.needsPeer t pa then 0 else s.loadByte t pa)
  let bad := pas.any (s.badByte t)
  let (reqs, s) := s.askPeers t s.pod.id need
  ({ value := v, reqs := reqs, uncorr := bad }, s)

/-- A byte that the remote combining buffers of a team's cores hold for it (R320). -/
def State.bufferedByte (s : State) (t : Team) (pa : Nat) : Option Byte := (t.cores.filterMap fun c => s.remoteByte c t.id pa).head?

/-- A load that reads home (R324): memory, or a peer but for the bytes on their way to it (R320). -/
def State.loadHome (s : State) (pas : List Nat) : Loaded × State :=
  let t := s.team
  let away := fun pa => (areaOf pa).isPeer && (s.bufferedByte t pa).isNone
  let v := ofBytes (pas.map fun pa => if away pa then 0 else (s.bufferedByte t pa).getD (s.rdByte pa))
  let (reqs, s') := s.askPeers { t with stash := [] } s.pod.id (((List.range pas.length).zip pas).filter fun x => away x.2)
  ({ value := v, reqs := reqs, uncorr := s.poisoned pas }, s')

/-- The `.sys` rule for the stash lines of an access: their dirty bytes go home first (R324). -/
def State.sysLines (s : State) (pas : List Nat) : Try :=
  ((pas.map lineOf).eraseDups).foldl (fun (x : Try) line => x.then_ fun s =>
    match s.team.lineAt line with
    | none => .ok s
    | some l => (s.irrevocable s.pod.id.team).then_ fun s =>
        match s.lineHome s.pod.id.team (s.team.core + l.half) l with
        | none => .wait .release s
        | some s => .ok s) (.ok s)

/-- Key of a constant-cache line of a cluster. -/
def constKey (cluster line : Nat) : Nat := cluster * 2 ^ 52 + line

/-- One line through the constant cache of a cluster (R309): a stale copy reads as the old or the new value. -/
def State.constLine (s : State) (cluster line : Nat) : BitVec 1024 × State :=
  let now := s.homeLine line
  match s.ccache.find? fun x => x.1 = constKey cluster line with
  | none => (now, { s with ccache := (constKey cluster line, now) :: s.ccache })
  | some x =>
    if x.2 = now then (now, s)
    else
      let (k, s) := s.choose 2
      (if k = 0 then x.2 else now, s)

/-- A load through the constant cache (R348); a peer's bytes are requested. -/
def State.loadConst (s : State) (pas : List Nat) : Loaded × State :=
  if pas.any fun pa => (areaOf pa).isPeer then
    let need := ((List.range pas.length).zip pas).filter fun x => (areaOf x.2).isPeer
    let lines := (need.map fun x => lineOf x.2).eraseDups
    let (reqs, s) := lines.foldl (fun (acc : List (Nat × Word × List (Nat × Nat)) × State) line =>
      let own := need.filter fun x => lineOf x.2 = line
      let (seq, s) := acc.2.send line 1 (some s.pod.id) none (.load 128)
      (acc.1 ++ [(peerOf line, seq, own.map fun x => (x.2 - line, x.1))], s)) ([], s)
    ({ value := ofBytes (pas.map fun pa => if (areaOf pa).isPeer then 0 else s.rdByte pa), reqs := reqs }, s)
  else
    let cluster := clusterOf s.core
    let (ls, s) := ((pas.map lineOf).eraseDups).foldl (fun (acc : List (Nat × BitVec 1024) × State) line =>
      let (x, s) := acc.2.constLine cluster line
      (acc.1 ++ [(line, x)], s)) (([] : List (Nat × BitVec 1024)), s)
    ({ value := ofBytes (pas.map fun pa => lineByte (look 0 ls (lineOf pa)) (pa % 128)), uncorr := s.poisoned pas }, s)

/-- Leaves one thread's loaded data outstanding under the set-A flag (R345). -/
def Ctx.loadLater (c : Ctx) (kind : PendKind) (d : Dest) (tag : BitVec 5) (size t : Nat) (addr : Dword) (x : Loaded)
    (s : State) (acq : Bool := false) : State :=
  let p := s.pod.nameFlag c.head.seta 1
  s.setPod { p with pend := p.pend ++
    [({ kind := kind, serial := p.serial, dest := d, tag := tag, value := BitVec.ofNat 256 x.value, reqs := x.reqs, size := size,
        seta := c.head.seta, setb := 15, thread := t, addr := addr, uncorr := x.uncorr, refused := x.refused, acq := acq, fl := 0, was := (p.destNow d).1,
        wasTag := (p.destNow d).2, trap := p.trapLevel, todo := x.todo } : Pend)] }

/-- The destination of a load's data run. -/
def loadDest (c : Code) (t n : Nat) : Dest :=
  match classOf c with
  | (.v, r) => .vregs t r n
  | (.k, r) => .kregs r n
  | _ => .none

/-- Whether the issuing pod's instruction has already begun: it waits inside it. -/
def Pod.begun (p : Pod) : Bool := p.resumeAt.isSome || match p.wait with
  | some w => w.kind == .time || w.kind == .release || w.kind == .ack
  | none => false

/-- Counts successive loads of one address for spin detection, each once: the eighth demotes the pod for 512 cycles (R55). -/
def State.noteLoad (s : State) (ea : Dword) : State :=
  let d := s.pod.sched
  if s.pod.begun then s else
  let n := if d.spinAddr = ea then d.spinCount + 1 else 1
  if 8 ≤ n then
    s.setPod { s.pod with sched := { d with spinAddr := ea, spinCount := 0, demoted := some (s.cycle + 512), active := false,
                                            pending := s.cycle } }
  else s.setPod { s.pod with sched := { d with spinAddr := ea, spinCount := n } }

/-- A store restarts the count (R55). -/
def State.noteStore (s : State) : State := s.setPod { s.pod with sched := { s.pod.sched with spinCount := 0 } }

/-! ## Stores (R324, R328, R347) -/

/-- A store to global memory: into the stash; home for .sys, and after a publication for .rel at cluster scope or wider. -/
def State.storeMem (s : State) (va : Nat) (pas : List Nat) (bs : List Byte) (scope : Nat) (rel : Bool) : Act :=
  let tid := s.pod.id.team
  if rel && decide (3 ≤ scope) then
    (s.irrevocable tid).andAct fun s => (s.release tid scope).andAct fun s => (s.homeStore tid va pas bs).andAct fun s =>
      if scope = 5 ∧ s.hasRemote tid then .linger s else .ok s
  else if scope = 5 then (s.homeStore tid va pas bs).act
  else (s.stashStore tid va pas bs).act

/-- A store to the plain shared region; a release at cluster scope or wider publishes first (R324, R328). -/
def State.storeShared (s : State) (o : Nat) (bs : List Byte) (scope : Nat) (rel : Bool) : Act :=
  let put := fun (s : State) => Act.ok (s.wrShared o bs).tickle
  if rel && decide (3 ≤ scope) then (s.release s.pod.id.team scope).andAct put else put s

/-- A store to a register (R293). -/
def State.storeMmio (s : State) (pa : Nat) (bs : List Byte) (scope : Nat) (rel : Bool) : Act :=
  let put := fun (s : State) =>
    match regAt (pa - mmioBase) with
    | none => Act.ok s
    | some r => .ok ((s.setReg r (pa - mmioBase) bs.length (ofBytes bs)).tickle)
  if rel && decide (3 ≤ scope) then (s.release s.pod.id.team scope).andAct put else put s

/-- Whether reductions of a team are on their way to peers (R350, R364). -/
def State.redsAway (s : State) (tid : TeamId) : Bool := s.outReq.any fun o => o.team == some tid && match o.kind with
  | .reduce .. => true
  | _ => false

/-- Whether loads and atomics of the pod, but for those of this issue, wait for a peer. -/
def Pod.asking (p : Pod) : Bool := p.pend.any fun x => x.serial != p.serial && !x.reqs.isEmpty

/-- A store to a checked place; a release is made when the pod's earlier loads have returned (R323). -/
def State.storeAt (s : State) (va : Nat) (p : Spot) (bs : List Byte) (scope : Nat) (rel : Bool) : Act :=
  if rel && s.pod.asking then .wait .time s
  else
    match p with
    | .shared o => s.storeShared o bs scope rel
    | .mem pas => s.storeMem va pas bs scope rel
    | .mmio pa => s.storeMmio pa bs scope rel
    | .mixed pas =>
      match s.storeMem va pas (bs.take pas.length) scope rel with
      | .ok s => .ok (s.wrShared 0 (bs.drop pas.length)).tickle
      | .linger s => .linger (s.wrShared 0 (bs.drop pas.length)).tickle
      | x => x

/-! ## Transactions (R358 to R360, R363) -/

/-- Whether a line is locked for a thread of the issuing pod: by another thread's serial transaction; of its own pod, only a lower
thread's locks stop a serial one, so that the lowest commits (R363). -/
def State.lockedFor (s : State) (t line : Nat) : Bool :=
  match s.serial with
  | none => false
  | some p =>
    match s.findPod p with
    | none => false
    | some q => q.tx.any fun x => x.inTx && x.serial &&
        !(p == s.pod.id && (x.thread == t || decide (t < x.thread) && (s.pod.txOf t).any fun y => y.inTx && y.serial)) &&
        (x.reads.any (·.1 = line) || x.writes.any (·.1 = line))

/-- Lines of the read sets, and of the write sets, of a pod (R358). -/
def Pod.readLines (p : Pod) : List Nat := (p.tx.flatMap fun x => if x.inTx then x.reads.map (·.1) else []).eraseDups
def Pod.writeLines (p : Pod) : List Nat := (p.tx.flatMap fun x => if x.inTx then x.writes.map (·.1) else []).eraseDups

/-- The reason for which a transactional access aborts (R360, R363): status and cause number. -/
def State.txRefuses (s : State) (t : Nat) (store : Bool) (k : Checked) : Option (Nat × Nat) :=
  match k with
  | .error (c, _, _) => some (7, c.bit)
  | .ok (.shared _) => some (8, 0)
  | .ok (.mixed _) => some (8, 0)
  | .ok (.mmio _) => some (8, 0)
  | .ok (.mem pas) =>
    let lines := (pas.map lineOf).eraseDups
    if lines.any fun l => !(areaOf l).isMem then some (8, 0)
    else if lines.any fun l => match s.team.lineAt l with
        | some x => x.dirty != 0
        | none => false then some (8, 0)
    else if lines.any fun l => s.lockedFor t l then some (2, 0)
    else
      let old := if store then s.pod.writeLines else s.pod.readLines
      let new := (lines.filter fun l => !old.contains l).length
      if old.length + new ≤ (if store then 32 else 64) then none else some (if store then 4 else 3, 0)

/-- One byte as a transaction sees it: its own write, the value it read before, or home (R360). -/
def TxThread.byte (x : TxThread) (s : State) (pa : Nat) : Byte :=
  let i := pa % 128
  match x.writes.find? fun y => y.1 = lineOf pa && y.2.2.getLsbD i with
  | some w => lineByte w.2.1 i
  | none =>
    match x.reads.find? fun y => y.1 = lineOf pa && y.2.2.getLsbD i with
    | some r => lineByte r.2.1 i
    | none => s.rdByte pa

/-- Sets one byte in a set of lines. -/
def setByteIn (l : List (Nat × BitVec 1024 × BitVec 128)) (pa : Nat) (b : Byte) : List (Nat × BitVec 1024 × BitVec 128) :=
  let i := pa % 128
  let m := BitVec.ofNat 128 (2 ^ i)
  if l.any (·.1 = lineOf pa) then
    l.map fun w => if w.1 = lineOf pa then (w.1, setLineByte w.2.1 i b, w.2.2 ||| m) else w
  else l ++ [(lineOf pa, setLineByte 0 i b, m)]

/-- A transactional load (R360): its lines enter the read set, with the bytes that it has not written. -/
def State.txLoad (s : State) (t : Nat) (pas : List Nat) : Nat × State :=
  match s.pod.txOf t with
  | none => (0, s)
  | some x =>
    let own := fun pa => x.writes.any fun y => y.1 = lineOf pa && y.2.2.getLsbD (pa % 128)
    let lines := ((pas.map lineOf).eraseDups.filter fun l => !x.reads.any fun r => r.1 == l).map fun l => (l, (0 : BitVec 1024), (0 : BitVec 128))
    let y := { x with reads := (pas.filter fun pa => !own pa).foldl (fun l pa => setByteIn l pa (x.byte s pa)) (x.reads ++ lines) }
    (ofBytes (pas.map (x.byte s)), s.setPod (s.pod.setTx y))

/-- A transactional store (R360). -/
def State.txStore (s : State) (t : Nat) (pas : List Nat) (bs : List Byte) : State :=
  match s.pod.txOf t with
  | none => s
  | some x =>
    s.setPod (s.pod.setTx { x with writes := (pas.zip bs).foldl (fun l y => setByteIn l y.1 y.2) x.writes })

/-- The effective threads in a transaction. -/
def Ctx.txThreads (c : Ctx) : List Nat := c.eff.filter c.s.pod.inTx

/-- An instruction not permitted inside a transaction aborts its threads there with status 8 (R360); they do nothing else, and
the other threads take it up when the frontier is theirs. -/
def Ctx.outsideTx (c : Ctx) (go : Eff) : Eff :=
  match c.txThreads with
  | [] => go
  | ts =>
    let s := ts.foldl (fun s t => s.abortTx t 8 0) c.s
    .stay ((s.setPod { s.pod.leaveTx with wait := none }).tickle)

end Sys2Proof.Machine
end

