-- ==== Sys2Proof/Machine/Engines.lean ====
section
/-! DEFINITION. Engines at memory: what they read, where their accesses go, and their requests to peers (R336 to R338, R493). -/
namespace Sys2Proof.Machine

/-! ## Engines at memory (R336, R338) -/

/-- Puts the answers of peers over the bytes read here. -/
def mergeAsks (bs : List Byte) (asks : List Ask) : List Byte :=
  asks.foldl (fun bs a => match a.answer with
    | some (_, xs) => bs.take a.off ++ xs ++ bs.drop (a.off + xs.length)
    | none => bs) bs

/-- A byte as an engine reads it, `home` being its value at home; one that the issuing team holds unpublished is open (R336). -/
def State.engineByte (s : State) (t : Team) (pa : Nat) (home : Byte) : Byte × State :=
  match t.lineAt pa with
  | none => (home, s)
  | some l =>
    let own := lineByte l.bytes (pa % 128)
    if !l.dirty.getLsbD (pa % 128) || own == home then (home, s)
    else
      let (k, s) := s.choose 2
      (if k = 0 then home else own, s)

/-- Bytes at some addresses, with their values at home, as an engine reads them. -/
def State.seenBytes (s : State) (t : Team) : List (Nat × Byte) → List Byte × State
  | [] => ([], s)
  | (pa, home) :: l =>
    let (b, s) := s.engineByte t pa home
    let (bs, s) := s.seenBytes t l
    (b :: bs, s)

/-- Bytes at some addresses, here and at the peers that have answered, as an engine reads them. -/
def State.engineBytes (s : State) (t : Team) (pas : List Nat) (asks : List Ask) : List Byte × State :=
  s.seenBytes t (pas.zip (mergeAsks (s.rdAll pas) asks))

/-- A line of a peer has been written: no clean copy of it stays in a stash (R292, R308, R317); its writer `keep` keeps its own. -/
def State.peerWritten (s : State) (keep : Option TeamId) (line : Nat) : State :=
  s.mapTeams fun t => if keep = some t.id then t else t.invalidate line

/-- Where an engine's access of at most 4,096 bytes goes (R293, R303): it reaches neither the shared window nor MMIO. A page
transfer (`tierOk`) also passes the table of the second-tier controllers (R501). -/
def State.enginePlace (s : State) (t : Team) (core : Nat) (va : Dword) (n : Nat) (a : Access) (tierOk : Bool) :
    Except (Cause × Dword) (List Nat) × State :=
  let below := windowBase - va.toNat
  if onWindow va then (.error (.protection, va), s)
  else
    match s.translateRangeX t core va (min n below) a tierOk with
    | (.error (c, _, va), s) => (.error (c, va), s)
    | (.ok pas, s) =>
      if below < n then (.error (.protection, BitVec.ofNat 64 windowBase), s)
      else if pas.any fun pa => areaOf pa == .mmio then (.error (.protection, va), s)
      else if tierOk && areaOf (pas.headD 0) == .tier then
        let (ok, s) := s.accOk targetTier (s.master t) (pas.headD 0) n a.reads a.writes
        (if ok then .ok pas else .error (.protection, va), s)
      else (.ok pas, s)

/-- The runs of consecutive addresses that lie at peers, line by line, each with its place. -/
def peerRunsFrom : Nat → List Nat → List (Nat × List Nat)
  | _, [] => []
  | i, pa :: pas =>
    let rest := peerRunsFrom (i + 1) pas
    if !(areaOf pa).isPeer then rest
    else
      match rest with
      | (j, q :: qs) :: l =>
        if j = i + 1 ∧ q = pa + 1 ∧ lineOf q = lineOf pa then (i, pa :: q :: qs) :: l else (i, [pa]) :: rest
      | _ => (i, [pa]) :: rest

/-- The runs of some addresses. -/
def peerRuns (pas : List Nat) : List (Nat × List Nat) := peerRunsFrom 0 pas

/-- Requests the bytes that lie at peers (R493), on a channel (R491). -/
def State.askRead (s : State) (vc : BitVec 3) (pas : List Nat) : List Ask × State :=
  (peerRuns pas).foldl (fun (acc : List Ask × State) x =>
    let pa := x.2.headD 0
    let (seq, s) := acc.2.send pa vc none none (.load x.2.length)
    (acc.1 ++ [{ peer := peerOf pa, seq := seq, wr := false, off := x.1, answer := none }], s)) ([], s)

/-- Sends the bytes that lie at peers, on a channel. -/
def State.askWrite (s : State) (vc : BitVec 3) (pas : List Nat) (bs : List Byte) : List Ask × State :=
  (peerRuns pas).foldl (fun (acc : List Ask × State) x =>
    let pa := x.2.headD 0
    let own := (bs.drop x.1).take x.2.length
    let (seq, s) := acc.2.send pa vc none none (.store own (own.map fun _ => true))
    (acc.1 ++ [{ peer := peerOf pa, seq := seq, wr := true, off := x.1, answer := none }], s)) ([], s)

/-- Whether every request of an operation is answered. -/
def Op.answered (o : Op) : Bool := o.asks.all fun a => a.answer.isSome

/-- Whether a peer refused a request of an operation. -/
def Op.refused (o : Op) : Bool := o.asks.any fun a => match a.answer with
  | some (r, _) => r
  | none => false

end Sys2Proof.Machine
end

