-- ==== Sys2Proof/Machine/Handles.lean ====
section
/-! DEFINITION. Reading handles (R400, R401, R408), and the operations of a pod that PHASE and EXIT wait for (R45, R243). -/
namespace Sys2Proof.Machine

/-- The operation behind a token; token 0 names none (R111). -/
def State.opOf (s : State) (tok : Word) : Option Op :=
  if tok = 0 then none else s.ops.find? fun o => o.token = tok.toNat

/-- The operation of a token, running or not. -/
def State.opTok (s : State) (tok : Nat) : Option Op := s.ops.find? fun o => o.token = tok

/-- Changes an operation. -/
def State.onOp (s : State) (tok : Nat) (f : Op → Op) : State :=
  { s with ops := s.ops.map fun o => if o.token = tok then f o else o }

/-- The ring that an operation is attached to as its only producer or consumer (R390). -/
def Op.attached (o : Op) : Option Nat :=
  match o.kind with
  | .rrdq r .. => some r
  | .subs r .. => some r
  | .drainq r .. => some r
  | _ => none

/-- Changes a ring of a team. -/
def Team.onRing (t : Team) (r : Nat) (f : Ring → Ring) : Team :=
  match t.ring r with
  | none => t
  | some x => t.setRing r (f x)

/-- Whether an attached operation of ring `r` of a team, but for `tok`, is stopped at a fault (R378). -/
def State.ringFlt (s : State) (t : TeamId) (r tok : Nat) : Bool :=
  s.ops.any fun o => o.pod.team = t && o.attached = some r && o.token ≠ tok && (o.state == .faulted || o.state == .held)

/-- FLT of the ring that an operation is attached to: it faults, or resumes (R378). -/
def State.setFlt (s : State) (o : Op) (x : Bool) : State :=
  match o.attached with
  | none => s
  | some r => s.onTeam o.pod.team fun t => t.onRing r fun y => { y with flt := x || s.ringFlt o.pod.team r o.token }

/-- The flags of an operation reach their events in the pod that issued it (R66, R111). -/
def State.dropFlags (s : State) (o : Op) : State :=
  s.onPod o.pod fun p => (p.dropFlag o.seta).dropFlag o.setb

/-- An operation leaves the ring it is attached to (R378, R390). -/
def State.detach (s : State) (o : Op) : State :=
  match o.attached with
  | none => s
  | some r =>
    let flt := s.ringFlt o.pod.team r o.token
    s.onTeam o.pod.team fun t => t.onRing r fun y =>
      match o.kind with
      | .drainq .. => { y with flt := flt, drn := false }
      | _ => { y with flt := flt, att := false }

/-- An operation completes (R340, R401). -/
def State.completeOp (s : State) (o : Op) : State :=
  ((s.detach o |>.dropFlags o).onOp o.token fun o => { o with state := .complete, seta := 15, setb := 15, asks := [] }).tickle

/-- The copy tag of an operation. -/
def Op.tagOf (o : Op) : Option Nat :=
  match o.kind with
  | .cpy n .. => some n
  | .tiercp _ _ _ _ n _ => some n
  | _ => none

/-- The h register of a pod that holds a token; 0 when none does. -/
def Pod.handleReg (p : Pod) (tok : Nat) : Nat :=
  ((List.range 16).find? fun r => (p.h.get r).toNat = tok).getD 0

/-- An operation stops at a fault, deferred to the first read of its handle, or the first wait on its flag or tag (R40, R401). -/
def State.failOp (s : State) (o : Op) (c : Cause) (k : Nat) (addr : Dword) : State :=
  let s := (s.dropFlags o).onOp o.token fun o =>
    { o with state := .faulted, fault := some (c, addr), kpos := k, seta := 15, setb := 15, asks := [] }
  let s := s.setFlt o true
  let flags := flagBit o.seta
  let s := if flags = 0 ∧ o.tagOf = none then s else
    s.onPod o.pod fun p => { p with deferred := p.deferred ++
      [({ cause := c, flags := flags, ctag := o.tagOf, next := false, op := some o.token,
          arg := BitVec.ofNat 32 (k * 2 ^ 16 + p.handleReg o.token), addr := addr } : Deferred)] }
  s.tickle

/-- The engine writes the snapshot of an RCSNAP that is under way (R515): its pages are checked first. -/
def State.rcWrite (s : State) (o : Op) : State :=
  match o.kind, s.findTeam o.pod.team with
  | .rcsnap addr snap, some t =>
    if o.state ≠ .running || !o.asks.isEmpty then s
    else
      match s.enginePlace t o.core addr 1024 .wr false with
      | (.error (c, a), s) => s.failOp o c 0 a
      | (.ok pas, s) =>
        if pas.any fun pa => s.lockedLine (lineOf pa) then s
        else
          let bs := snap.flatMap fun w => toBytes 4 w.toNat
          let here := (pas.zip bs).filter fun x => !(areaOf x.1).isPeer
          let s := s.writeHomeAll t.id (here.map (·.1)) (here.map (·.2))
          match s.askWrite 2 pas bs with
          | ([], s) => s.completeOp o
          | (asks, s) => s.onOp o.token fun o => { o with asks := asks }
  | _, _ => s

/-- Whether an operation is a GBAR: a wait on it completes as an acquire, after the pod's outstanding loads (R323, R335). -/
def Op.isGbar (o : Op) : Bool := match o.kind with
  | .gbar _ => true
  | _ => false

/-- What a read of a handle answers (R401). -/
inductive HandleRead
  | ok (s : State)
  | wait (s : State)
  | fault (c : Cause) (addr : Dword) (s : State)
  | invalid
deriving DecidableEq, Repr

/-- Reads the handle `tok` (R401): a fault is raised once and the operation is then held; a held one starts again. -/
def State.readHandle (s : State) (tok : Word) : HandleRead :=
  match s.opOf tok with
  | none => .invalid
  | some o =>
    match o.state with
    | .running =>
      let s := s.rcWrite o
      (s.opOf tok).elim .invalid fun o =>
        if o.state = .complete then .ok (s.onOp o.token fun o => { o with seen := true })
        else .wait (s.onOp o.token fun o => { o with readAt := some (o.readAt.getD s.cycle) })
    | .complete =>
      if o.isGbar && s.pod.loading then .wait s else .ok (s.onOp o.token fun o => { o with seen := true })
    | .faulted =>
      let (c, a) := o.fault.getD (.engineFault, 0)
      -- raised once: a wait on the operation's flag or tag meets it no more
      let s := s.mapPods fun p => { p with deferred := p.deferred.filter fun d => d.op ≠ some o.token }
      .fault c a (s.onOp o.token fun o => { o with state := .held })
    | .held => .wait ((s.setFlt o false).onOp o.token fun o => { o with state := .running, fault := none }).tickle

/-- The trap of a handle's fault: TARG holds the register (R264, R401). -/
def Pod.handleTrap (p : Pod) (c : Cause) (reg : Nat) (k : Nat) (addr : Dword) : TrapReq :=
  p.before c 0 (BitVec.ofNat 32 (k * 2 ^ 16 + reg)) addr

/-- Adds an operation of the issuing pod (R400): its token, its set-A flag, the set-B flag that its source registers hold, and its
handle register if it has one. -/
def Ctx.issueOp (c : Ctx) (reg : Option Nat) (setb : BitVec 4) (kind : OpKind) (s : State) : Op × State :=
  let tok := s.nextToken
  let o : Op := { token := tok, kind := kind, pod := s.pod.id, state := .running, progress := 0, fault := none, kpos := 0,
                  seta := c.head.seta, setb := setb, core := s.team.coreOf s.pod.id, cancel := false, readAt := none,
                  seen := false, asks := [], part := 0, serial := s.pod.serial }
  let p := (s.pod.nameFlag c.head.seta 1).nameFlag setb 1
  let p := match reg with
    | none => p
    | some r => { p with h := p.h.set r (BitVec.ofNat 32 tok) }
  (o, { (s.setPod p) with ops := s.ops ++ [o], nextToken := tok + 1 })

/-- The handle destination of an instruction. -/
def hDst (c : Code) : Dst := { code := c, acc := [.h] }

/-- An instruction that writes a new handle reads the old one first (R402). -/
def Ctx.afterOld (c : Ctx) (reg : Nat) (go : State → Eff) : Eff :=
  let tok := c.s.pod.h.get reg
  if tok = 0 then go c.s
  else
    let k := (c.s.opOf tok).elim 0 Op.kpos
    match c.s.readHandle tok with
    | .invalid => go c.s
    | .ok s => go s
    | .wait s => .hold .handle s
    | .fault x a s => .raise (s.pod.handleTrap x reg k a) s

/-- The handles that a pod's PHASE or EXIT reads: its h registers, and those it passed that nobody took (R408). -/
def State.ownHandles (s : State) : List (Nat × Word) :=
  ((List.range 16).filterMap fun r => let tok := s.pod.h.get r; if tok = 0 then none else some (r, tok)) ++
    (s.team.xchg.filter fun x => x.2.2 = s.pod.id).map fun x => (0, x.2.1)

/-- Whether copies of the pod are still running. -/
def State.copying (s : State) : Bool :=
  s.ops.any fun o => o.pod = s.pod.id && o.state = .running && match o.kind with
    | .cpy .. => true
    | .tiercp .. => true
    | _ => false

/-- What PHASE and EXIT find of the pod's asynchronous operations (R45, R243): all complete, some running, or a fault. -/
inductive Settled
  | clear (s : State)
  | busy (s : State)
  | fault (r : TrapReq) (s : State)
deriving DecidableEq, Repr

/-- Reads the pod's handles in order (R45, R401). -/
def State.readAll (s : State) : List (Nat × Word) → Settled
  | [] => if s.copying || !s.pod.pend.isEmpty then .busy s else .clear s
  | (r, tok) :: l =>
    let k := (s.opOf tok).elim 0 Op.kpos
    match s.readHandle tok with
    | .invalid => s.readAll l
    | .ok s => s.readAll l
    | .wait s =>
      match s.readAll l with
      | .clear s => .busy s
      | x => x
    | .fault c a s => .fault (s.pod.handleTrap c r k a) s

/-- Settles the pod's asynchronous operations (R45). -/
def State.settle (s : State) : Settled := s.readAll s.ownHandles

end Sys2Proof.Machine
end

