-- ==== Sys2Proof/Machine/Control.lean ====
section
/-! DEFINITION. The control and system instructions that touch neither memory nor other teams (R233 to R253). -/
namespace Sys2Proof.Machine

/-! ## Branches (R236) -/

/-- The target of an instruction offset (R63). -/
def target (this : Dword) (boff : Word) : Dword := this + BitVec.ofInt 64 (12 * boff.toInt)

/-- Moves threads to their targets by a branch, which may depart from loops (R236, R242). -/
def Pod.branch (p : Pod) (this : Dword) (d : Nat) (ts : List (Nat × Dword)) : Pod :=
  let p := p.onCtl (maskOf (ts.map (·.1))) fun t c => { c with pc := look c.pc ts t }
  p.setLoops (popBelow (fun e => ts.any fun x => departs this x.2 d e) p.loopStack)

/-- Enters a call (R236). -/
def Pod.callTo (p : Pod) (ts : List (Nat × Dword)) : Pod :=
  p.onCtl (maskOf (ts.map (·.1))) fun t c => { pc := look c.pc ts t, depth := c.depth + 1 }

/-- Returns from a call (R236). -/
def Pod.retTo (p : Pod) (ts : List (Nat × Dword)) : Pod :=
  p.onCtl (maskOf (ts.map (·.1))) fun t c => { pc := look c.pc ts t, depth := c.depth - 1 }

/-- Whether some target is not a multiple of 12 (R61). -/
def misaligned (ts : List (Nat × Dword)) : Bool := ts.any fun x => x.2.toNat % 12 != 0

/-- A target operand: an even v or k pair (R234). -/
def tgtSrc (c : Code) : Src := { field := 1, arg := .code c, acc := [.v, .k], regs := 2 }

/-- The targets that source 0 gives the effective threads. -/
def Ctx.targets (c : Ctx) : List (Nat × Dword) := c.eff.map fun t => (t, BitVec.ofNat 64 (c.val 0 t))

/-- The link register of a call (R234). -/
def linkDst (c : Code) : Dst := { code := c, acc := [.v, .k, .zero], regs := 2, tag := 6 }

/-- Writes the link (R236): every effective thread's, or a k pair once. -/
def State.link (s : State) (c : Ctx) (d : Dst) : State :=
  let x : LaneRes := { val := (c.this + 12).toNat }
  { c with sp := { c.sp with dst := some d } }.write (c.eff.map fun t => (t, x)) s

/-- NOP (R233). -/
def execNop (h : Head) (f : FormR) (s : State) : Host.Outcome State Fault Refusal :=
  issue (.nop h f) h {} (fun c => .done c.s 0) s

/-- BRA (R236). -/
def execBra (h : Head) (f : FormB) (s : State) : Host.Outcome State Fault Refusal :=
  issue (.bra h f) h {} (fun c =>
    .done (c.s.setPod (c.s.pod.branch c.this c.s.pod.depth (c.eff.map fun t => (t, target c.this f.boff)))) c.mask) s

/-- BRX (R236). -/
def execBrx (h : Head) (f : FormB) (s : State) : Host.Outcome State Fault Refusal :=
  issue (.brx h f) h { srcs := [tgtSrc f.a] } (fun c =>
    if misaligned c.targets then c.stop .pcMisalign
    else .done (c.s.setPod (c.s.pod.branch c.this c.s.pod.depth c.targets)) c.mask) s

/-- What CALL and CALLX check of the pod: the link, and the depth (R33, R236). -/
def State.callSpec (s : State) (h : Head) (f : FormB) : Spec :=
  { bad := !s.dstOk (linkDst f.link) || guardBad (isK f.link) h
    lanewise := (classOf f.link).1 == .v
    late := if s.pod.depth = 255 then some (.illegalOp, 0, 0) else none }

/-- CALL (R236). -/
def execCall (h : Head) (f : FormB) (s : State) : Host.Outcome State Fault Refusal :=
  issue (.call h f) h (s.callSpec h f) (fun c => c.outsideTx <|
    let s := c.s.link c (linkDst f.link)
    .done (s.setPod (s.pod.callTo (c.eff.map fun t => (t, target c.this f.boff)))) c.mask) s

/-- CALLX (R236); the targets are read before the link is written. -/
def execCallx (h : Head) (f : FormB) (s : State) : Host.Outcome State Fault Refusal :=
  issue (.callx h f) h { s.callSpec h f with srcs := [tgtSrc f.a] } (fun c => c.outsideTx <|
    if misaligned c.targets then c.stop .pcMisalign
    else
      let s := c.s.link c (linkDst f.link)
      .done (s.setPod (s.pod.callTo c.targets)) c.mask) s

/-- RET (R236). -/
def execRet (h : Head) (f : FormB) (s : State) : Host.Outcome State Fault Refusal :=
  issue (.ret h f) h
    { srcs := [tgtSrc f.a], late := if s.pod.depth = 0 then some (.illegalOp, 0, 0) else none } (fun c => c.outsideTx <|
    if misaligned c.targets then c.stop .pcMisalign
    else .done (c.s.setPod (c.s.pod.retTo c.targets)) c.mask) s

/-! ## Loops (R239 to R242) -/

/-- The top entry whose depth is that of the active threads. -/
def Pod.topLoop (p : Pod) : Option LoopEntry := p.loopStack.find? fun e => e.depth = p.depth

/-- Whether the address is the end of the top entry at its depth (R239). -/
def Pod.atOwnEnd (p : Pod) (this : Dword) : Bool := p.topLoop.any fun e => e.last == this

/-- Whether a loop cannot be opened at the frontier (R239). -/
def Pod.loopFull (p : Pod) : Bool := decide (4 ≤ p.loopStack.length) || p.atOwnEnd p.pc

/-- ILLEGAL_OP where a loop cannot be opened. -/
def Pod.loopLate (p : Pod) : Option (Cause × Nat × Dword) := if p.loopFull then some (.illegalOp, 0, 0) else none

/-- Opens a loop of `n` passes, or passes over it when `n` is 0 (R239). -/
def Ctx.openLoop (c : Ctx) (s : State) (boff : Word) (n : Word) : Eff :=
  let last := target c.this boff
  if n = 0 then .done (s.setPod (s.pod.goto c.act (last + 12))) c.act
  else
    let e : LoopEntry := { start := c.this + 12, last := last, count := n, depth := c.s.pod.depth }
    .done (s.setPod (s.pod.setLoops (e :: s.pod.loopStack))) 0

/-- LOOP (R239). -/
def execLoop (h : Head) (f : FormB) (s : State) : Host.Outcome State Fault Refusal :=
  let imm := f.flags.getLsbD 0
  issue (.loop h f) h
    { pod := true, late := s.pod.loopLate
      srcs := if imm then [] else [{ field := 5, arg := .code f.link, acc := uniAcc, uni := true }] } (fun c => c.outsideTx <|
    c.openLoop c.s f.boff (if imm then f.a.setWidth 32 else BitVec.ofNat 32 (c.val 0 0))) s

/-- LEAVE (R241). -/
def execLeave (h : Head) (f : FormB) (s : State) : Host.Outcome State Fault Refusal :=
  issue (.leave h f) h { late := if s.pod.topLoop.isNone then some (.illegalOp, 0, 0) else none } (fun c =>
    match c.s.pod.topLoop with
    | none => c.stop .illegalOp
    | some e => .done (c.s.setPod (c.s.pod.goto c.mask (e.last + 12))) c.mask) s

/-! ## Ending and barriers (R243, R244) -/

/-- Deferred faults of the whole pod, which PHASE and EXIT raise (R40, R45); those of handles come with the handles. -/
def Ctx.settled (c : Ctx) (k : WaitKind) (go : State → Eff) : Eff :=
  match c.s.pod.deferred.filter fun d => d.op.isNone with
  | d :: ds =>
    let s := c.s.raiseDeferred (d :: ds)
    .stay s
  | [] =>
    match c.s.settle with
    | .clear s => go s
    | .busy s => .hold k s
    | .fault r s => .raise r s

/-- EXIT (R243). -/
def execExitT (h : Head) (f : FormR) (s : State) : Host.Outcome State Fault Refusal :=
  issue (.exitT h f) h {} (fun c =>
    let leave := fun (s : State) => Eff.done (s.setPod { s.pod with exited := s.pod.exited ||| c.mask }) c.mask
    if full c.s.pod.width &&& ~~~(c.s.pod.exited ||| c.mask) = 0 then c.settled .exit leave else leave c.s) s

/-- PHASE (R44, R45). -/
def execPhase (h : Head) (f : FormR) (s : State) : Host.Outcome State Fault Refusal :=
  let p := s.pod
  let ready := p.depth == 0 && p.loops.isEmpty && !p.tx.any fun x => x.inTx
  issue (.phase h f) h { pod := true, late := p.lateUnless ready } (fun c =>
    c.settled .phase fun s => .hold .phase ((s.setPod { s.pod with phased := true }).tickle)) s

/-- SYNC (R244): its pod's earlier accesses are performed first, as by a FENCE at team scope (R335, R364); it waits until every non-exited
pod of the team has reached its instance. -/
def execSync (h : Head) (f : FormR) (s : State) : Host.Outcome State Fault Refusal :=
  issue (.sync h f) h { pod := true, late := s.pod.lateUnless true } (fun c =>
    let s := c.s
    let pass := fun (s : State) =>
      Eff.done (s.setPod { s.pod with syncDone := s.pod.syncDone + 1, arrived := false }) 0
    if !s.pod.arrived && (s.pod.loading || s.redsAway s.pod.id.team) then .hold .time s
    else if s.pod.syncDone < s.team.syncN then pass s
    else if (s.podsOf s.pod.id.team).all fun q => q.id = s.pod.id || q.done || (q.arrived && q.syncDone = s.pod.syncDone) then
      pass (s.setTeam { s.team with syncN := s.team.syncN + 1 })
    else .hold .sync (if s.pod.arrived then s else (s.setPod { s.pod with arrived := true }).tickle)) s

/-! ## Waiting (R245) -/

/-- The pod has begun a wait of kind `k` and its end has come. -/
def Pod.ended (p : Pod) (k : WaitKind) : Bool :=
  match p.wait with
  | some w => w.kind = k && w.until_ = some 0
  | none => false

/-- Begins or goes on with a wait that ends at `u`. -/
def State.waitUntil (s : State) (k : WaitKind) (u : Option Nat) : State :=
  match s.pod.wait with
  | some w => if w.kind = k then s else s.setPod { s.pod with wait := some ⟨k, s.cycle, u, s.progress⟩ }
  | none => s.setPod { s.pod with wait := some ⟨k, s.cycle, u, s.progress⟩ }

/-- WAITF (R245). -/
def execWaitf (h : Head) (f : FormRI) (s : State) : Host.Outcome State Fault Refusal :=
  issue (.waitf h f) h
    { pod := true, dst := some (kDst f.dst), srcs := [uniSrc 1 (.code f.a), uniSrc 2 (f.argB 32)] } (fun c =>
    let m := BitVec.ofNat 12 (c.val 1 0)
    let timeout := c.val 0 0
    match c.s.pod.dueFaults m with
    | d :: ds => .stay (c.s.raiseDeferred (d :: ds))
    | [] =>
      let clear := m &&& ~~~c.s.pod.flagMask
      let timeUp := c.s.pod.ended .waitf
      if m = 0 ∨ (if f.flags.getLsbD 0 then clear ≠ 0 else clear = m) then .done (c.put clear.toNat c.s) 0
      else if timeUp then
        if f.flags.getLsbD 1 then c.stop .timeout else .done (c.put clear.toNat c.s) 0
      else .hold .waitf (c.s.waitUntil .waitf (if timeout = 0 then none else some (c.s.cycle + timeout)))) s

/-- The pods of a scheduler outside its active set that can issue, oldest pending first (R55). -/
def State.readyPending (s : State) (core : Nat) (sl : Slice) : List Pod :=
  let act := (s.activeSet core sl).map (·.id)
  let ls := (s.served core sl).filter fun p => !act.contains p.id &&
    match s.findTeam p.id.team with
    | none => false
    | some t => s.canIssue t p
  sortBy (fun a b => a.sched.pending ≤ b.sched.pending) ls

/-- Exchanges pod `out` of the active set with pod `in_` of the pending set (R55). -/
def State.exchange (s : State) (core : Nat) (sl : Slice) (out in_ : PodId) : State :=
  let act := (s.activeSet core sl).map (·.id)
  s.mapPods fun p =>
    if p.id = out then { p with sched := { p.sched with active := false, pending := s.cycle } }
    else if p.id = in_ then
      { p with sched := { p.sched with active := true, entered := s.cycle } }
    else if act.contains p.id then { p with sched := { p.sched with active := true } }
    else p

/-- The swap of R55: the issuing pod gives way to the oldest ready pending pod, if there is one. -/
def State.swapOut (s : State) (p : PodId) (core : Nat) : State :=
  match s.readyPending core p.slice with
  | [] => s
  | q :: _ => s.exchange core p.slice p q.id

/-- YIELD (R245). -/
def execYield (h : Head) (f : FormR) (s : State) : Host.Outcome State Fault Refusal :=
  issue (.yield h f) h { pod := true } (fun c => .done (c.s.swapOut c.s.pod.id (c.s.team.coreOf c.s.pod.id)) 0) s

/-- SLEEP (R245). -/
def execSleep (h : Head) (f : FormI) (s : State) : Host.Outcome State Fault Refusal :=
  issue (.sleep h f) h { pod := true } (fun c =>
    if f.imm = 0 || c.s.pod.ended .sleep then .done c.s 0
    else .hold .sleep (c.s.waitUntil .sleep (some (c.s.cycle + f.imm.toNat)))) s

/-- HOLDT (R245). The sum is that of unbounded integers (R9). -/
def execHoldt (h : Head) (f : FormI) (s : State) : Host.Outcome State Fault Refusal :=
  issue (.holdt h f) h { pod := true, srcs := [{ field := 1, arg := .code f.a, acc := [.k], regs := 2 }] } (fun c =>
    let at_ : Int := (c.val 0 0 : Nat) + f.imm.toInt
    if at_ ≤ (c.s.time.toNat : Nat) ∨ c.s.pod.ended .holdt then .done c.s 0
    else .hold .holdt (c.s.waitUntil .holdt (some at_.toNat))) s

/-! ## Traps by instruction (R247 to R249) -/

/-- The trap of TRAP and BRK: at the lowest effective thread, for every effective thread (R247). -/
def Ctx.trapHere (c : Ctx) (x : Cause) (imm : Word) : Eff :=
  .raise (c.s.pod.atThread x (c.eff.headD 0) c.mask imm 0) c.s

/-- TRAP (R247). -/
def execTrap (h : Head) (f : FormI) (s : State) : Host.Outcome State Fault Refusal :=
  issue (.trap h f) h {} (fun c => c.trapHere (if f.flags.getLsbD 0 then .linkStub else .trapInstr) f.imm) s

/-- BRK (R247). -/
def execBrk (h : Head) (f : FormI) (s : State) : Host.Outcome State Fault Refusal :=
  issue (.brk h f) h {} (fun c => c.trapHere .breakpoint f.imm) s

/-- RTT (R248). -/
def execRtt (h : Head) (f : FormR) (s : State) : Host.Outcome State Fault Refusal :=
  let late : Option (Cause × Nat × Dword) := if !s.pod.trapLevel then some (.illegalOp, 0, 0)
    else if s.pod.tpc.toNat % 12 ≠ 0 then some (.pcMisalign, 0, 0) else none
  issue (.rtt h f) h { pod := true, late := late } (fun c => .stay (c.s.returnFromTrap (f.flags.getLsbD 0))) s

/-- The mask operand of CLRC and SETC: an even k pair, or an immediate (R249). -/
def maskSrc (f : FormRI) : Src := { field := 2, arg := f.argB 64, acc := [.k], regs := 2 }

/-- The value of the mask operand. -/
def State.maskVal (s : State) (f : FormRI) : Dword :=
  match f.argB 64 with
  | .imm x => BitVec.ofNat 64 x
  | .code c => BitVec.ofNat 64 (s.pod.rdKRun (classOf c).2 2)

/-- CLRC (R249): bits 31 to 47 of the mask are ignored. -/
def execClrc (h : Head) (f : FormRI) (s : State) : Host.Outcome State Fault Refusal :=
  issue (.clrc h f) h { pod := true, srcs := [maskSrc f] } (fun c =>
    let m := BitVec.ofNat 64 (c.val 0 0) &&& ~~~(0x0000_FFFF_8000_0000 : Dword)
    let p := c.s.pod
    .done (c.s.setPod { p with cause := p.cause &&& ~~~m, reasons := p.reasons.filter fun r => r.causes.any fun x => !m.getLsbD x.bit }) 0) s

/-- SETC (R249). -/
def execSetc (h : Head) (f : FormRI) (s : State) : Host.Outcome State Fault Refusal :=
  let m := s.maskVal f
  issue (.setc h f) h
    { pod := true, srcs := [maskSrc f], bad := m &&& 0x0000_FFFF_8000_0000 != 0
      priv := !s.pod.trapLevel && m &&& 0x7FFF_FFFF != 0 } (fun c =>
    let p := c.s.pod
    let new := m &&& ~~~p.cause
    let s := c.s.setPod { p with cause := p.cause ||| m }
    if p.trapLevel || new = 0 then .done s 0
    else .after (((List.range 64).filter fun i => new.getLsbD i).map causeOfBit) s) s

/-! ## Special registers and time (R250 to R253) -/

/-- RDSR (R250). -/
def execRdsr (h : Head) (f : FormR) (s : State) : Host.Outcome State Fault Refusal :=
  let n := if f.flags.getLsbD 0 then 2 else 1
  issue (.rdsr h f) h
    { srcs := [{ field := 1, arg := .code f.a, acc := [.special], regs := n }]
      dst := some { code := f.dst, acc := [.v, .k], regs := n, tag := if n = 2 then 6 else 2 } } (fun c =>
    c.lane (fun t => { val := c.val 0 t }) fun _ s => s) s

/-- Stores %prio (R114): at most the launch value. -/
def Pod.setPrio (p : Pod) (x : Nat) : Pod :=
  { p with prio := if p.prioMax.toNat < x then p.prioMax else BitVec.ofNat 2 x }

/-- Stores %seed of some threads (R114): 0 becomes 1. -/
def Pod.setSeeds (p : Pod) (ts : List (Nat × Nat)) : Pod :=
  ts.foldl (fun p x =>
    { p with seed := p.seed.set x.1 (if BitVec.ofNat 32 x.2 = 0 then 1 else BitVec.ofNat 32 x.2) }) p

/-- The address that a write of %tpc forms (R115). -/
def Pod.newTpc (p : Pod) (x : Nat) : Dword := (p.tpc &&& 0xFFFF_FFFF_0000_0000) ||| BitVec.ofNat 64 (x % 2 ^ 32)

/-- The source of WRSR: the val kind, or an immediate (R233). -/
def wrsrSrc (f : FormRI) : Src := { field := 2, arg := f.argB 32, acc := valAcc }

/-- WRSR (R114, R251). -/
def execWrsr (h : Head) (f : FormRI) (s : State) : Host.Outcome State Fault Refusal :=
  let (cl, r) := classOf f.dst
  let fromV := match f.argB 32 with
    | .code c => (classOf c).1 == .v
    | .imm _ => false
  issue (.wrsr h f) h
    { srcs := [wrsrSrc f], smod := f.smod, mtgt := f.mtgt
      bad := cl != .special || !([22, 23, 26, 27].contains r) || (fromV && r != 26) || guardBad true h
      priv := !s.pod.trapLevel && (r == 22 || r == 23) } (fun c =>
    let p := c.s.pod
    let x := c.val 0 (c.eff.getLastD 0)
    match r with
    | 22 => .done (c.s.setPod { p with tix := min (x % 2 ^ 32) (p.width - 1) }) 0
    | 23 =>
      if (p.newTpc x).toNat % 12 ≠ 0 then c.stop .pcMisalign
      else .done (c.s.setPod { p with tpc := p.newTpc x }) 0
    | 26 => .done (c.s.setPod (p.setSeeds (c.eff.map fun t => (t, c.val 0 t)))) 0
    | _ => .done (c.s.setPod (p.setPrio x)) 0) s

/-- TIME (R252): with .fence, every earlier result of the pod is written, and every earlier access complete, first: those of its
operations too. -/
def execTime (h : Head) (f : FormR) (s : State) : Host.Outcome State Fault Refusal :=
  issue (.time h f) h { dst := some { code := f.dst, acc := [.v, .k], regs := 2, tag := 6 } } (fun c =>
    let p := c.s.pod
    let busy := !p.pend.isEmpty || c.s.redsAway p.id.team || c.s.ops.any fun o => o.pod == p.id && o.state == .running
    if f.flags.getLsbD 0 && busy then .hold .flag c.s
    else c.lane (fun _ => { val := c.s.time.toNat }) fun _ s => s) s

/-- PRIO (R253). -/
def execPrio (h : Head) (f : FormRI) (s : State) : Host.Outcome State Fault Refusal :=
  issue (.prio h f) h { pod := true, dst := some (kDst f.dst), srcs := [uniSrc 2 (f.argB 32)] } (fun c =>
    let s := c.put c.s.pod.prio.toNat c.s
    .done (s.setPod (s.pod.setPrio (c.val 0 0))) 0) s

/-- A word with no instruction (R84, R101): ILLEGAL_OP, whatever its fields. DESIGN CHOICE (log 32): the word has no fields, so its wait bits
name no flag, and ILLEGAL_OP does not wait for one nor meet the deferred faults of one; R64 does not say. -/
def execUnassignedOpcode (_w : IWord) (s : State) : Host.Outcome State Fault Refusal :=
  .next (s.raise (s.pod.before .illegalOp 0 0 0))

end Sys2Proof.Machine
end

