-- ==== Sys2Proof/Machine/MemoryOps.lean ====
section
/-! DEFINITION. Loads, stores, prefetch, fences, stash mapping, publication and cache control (R343 to R351, R364, R365, R372 to
R375), and the control instructions that read memory (LOOPC, ICINV: R239, R257). -/
namespace Sys2Proof.Machine

/-! ## Loads and stores (R344, R347 to R350) -/

/-- An access-slice instruction. -/
def accessOnly (sp : Spec) : Spec := { sp with exec := false }

end Sys2Proof.Machine

namespace Sys2Proof

open Machine

/-- Whether a form-M instruction with a k data run breaks the rule of R344: only uniform operands and the guard p0. -/
def FormM.kDataBad (f : FormM) (h : Head) : Bool :=
  isK f.data && (!(f.eaSrcs.all Src.uniform) || guardBad true h)

/-- The data run of a load. -/
def FormM.runDst (f : FormM) : Dst := { code := f.data, acc := [.v, .k, .zero], regs := sizeRegs f.size, tag := f.tag }

/-- The data run of a store. -/
def FormM.runSrc (f : FormM) : Src := { field := 4, arg := .code f.data, acc := [.v, .k, .zero], regs := sizeRegs f.size }

/-- The region offset operand of SMAP, SDROP and SPUB. -/
def FormM.offSrc (f : FormM) (acc : List OpClass) : Src := { field := 4, arg := .code f.data, acc := acc }

/-- The demand of a form-M access. -/
def FormM.req (f : FormM) (a : Access) : AccReq :=
  { size := sizeBytes f.size, align := atomBytes f.atom, access := a, scope := f.scope.toNat }

end Sys2Proof

namespace Sys2Proof.Machine

/-- Whether a failure is suppressed by .nf (R349). -/
def nfCause (c : Cause) : Bool := c == .xlateFault || c == .protection || c == .tierMiss

/-- Whether loaded data of a word-packed tag fails the check of R131. -/
def packedBad (tag : BitVec 5) (x : Loaded) : Bool := (tag == 17 || tag == 18) && x.reqs.isEmpty && bits x.value 126 2 != 0

/-- Reads a checked place: the plain shared region, memory, or a register. A `.sys` load reads home, after the dirty bytes of its lines
have gone there (R324). -/
def State.loadAt (s : State) (p : Spot) (size : Nat) (sys konst : Bool) : Except Try Loaded × State :=
  match p with
  | .shared o => (.ok { value := ofBytes (s.team.rdShared o size), uncorr := s.team.sharedBad o size }, s)
  | .mmio pa =>
    match regAt (pa - mmioBase) with
    | none => (.ok { value := 0 }, s)
    | some r =>
      let (v, s) := s.mmioRead r (pa - mmioBase) size
      (.ok { value := v }, s)
  | .mem pas =>
    if konst then
      let (x, s) := s.loadConst pas
      (.ok x, s)
    else if sys then
      match s.sysLines pas with
      | .ok s => let (x, s) := s.loadHome pas; (.ok x, s)
      | y => (.error y, s)
    else
      let (x, s) := s.loadMem pas
      (.ok x, s)
  | .mixed pas =>
    let (x, s) := s.loadMem pas
    (.ok { x with value := x.value + 2 ^ (8 * pas.length) * ofBytes (s.team.rdShared 0 (size - pas.length)),
                  uncorr := x.uncorr || s.team.sharedBad 0 (size - pas.length) }, s)

/-- The load of a word-packed value from a peer waits for its data, which the check of R131 stops at the thread: the value that has come,
or none while it is awaited, with the state. -/
def State.awaitChecked (s : State) (t : Nat) (ea : Dword) (size : Nat) (ask : State → Except Try Loaded × State) :
    Except Act Loaded × State :=
  let mine := fun (x : Pend) => x.kind == .check && x.thread == t && x.addr == ea
  match s.pod.pend.find? mine with
  | some x =>
    if !x.reqs.isEmpty then (.error (.wait .time s), s)
    else (.ok { value := x.value.toNat, uncorr := x.uncorr, refused := x.refused },
      s.setPod { s.pod with pend := s.pod.pend.filter fun y => !mine y })
  | none =>
    match ask s with
    | (.error y, s) => (.error y.act, s)
    | (.ok x, s) =>
      if x.reqs.isEmpty then (.ok x, s)
      else
        let s := s.setPod { s.pod with pend := s.pod.pend ++
          [({ kind := .check, serial := s.pod.serial, dest := .none, tag := 0, value := BitVec.ofNat 256 x.value, reqs := x.reqs,
              size := size, seta := 15, setb := 15, thread := t, addr := ea, uncorr := x.uncorr, fl := 0 } : Pend)] }
        (.error (.wait .time s), s)

/-- One thread's load (R347, R349, R360). -/
def Ctx.loadTurn (c : Ctx) (f : FormM) (konst : Bool) (chk : List (Nat × Dword × Checked)) (t : Nat) (s : State) : Act :=
  let (ea, k) := checkedOf chk t
  let put := fun (x : Loaded) (s : State) =>
    Act.ok (c.loadLater .load (loadDest f.data t (sizeRegs f.size)) f.tag (sizeBytes f.size) t ea x s (f.order.getLsbD 0))
  let quiet := match k with
    | .error (x, _, _) => f.nf && nfCause x
    | .ok _ => false
  if quiet then put { value := 0 } s
  else if s.pod.inTx t then
    match s.txRefuses t false k, k with
    | none, .ok (.mem pas) =>
      let (v, s') := s.txLoad t pas
      if packedBad f.tag { value := v } then .moved (s.abortTx t 7 (Cause.bit .formatMismatch))
      else put { value := v, uncorr := s.poisoned pas } s'
    | some (st, n), _ => .moved (s.abortTx t st n)
    | none, _ => .ok s
  else
    match k with
    | .error (x, arg, a) => .fault x arg a s
    | .ok p =>
      let ask := fun (s : State) => s.loadAt p (sizeBytes f.size) (f.scope = 5) konst
      if f.tag = 17 ∨ f.tag = 18 then
        match s.awaitChecked t ea (sizeBytes f.size) ask with
        | (.error y, _) => y
        | (.ok x, s') => if !x.uncorr && !x.refused && packedBad f.tag x then .fault .formatMismatch 0 0 s else put x s'
      else
        match ask s with
        | (.error y, _) => y.act
        | (.ok x, s') => put x s'

/-- A load (R344, R347). -/
def load (i : Instr) (h : Head) (f : FormM) (r : AccReq) (konst tx : Bool) (s : State) : Host.Outcome State Fault Refusal :=
  issue i h (accessOnly
    { srcs := f.eaSrcs, dst := some f.runDst, bad := f.tagBad || f.kDataBad h }) (fun c =>
    let go :=
      let (chk, s) := c.check r (c.ea f 0)
      let ea := (checkedOf chk (c.lanes.headD 0)).1
      let s := s.noteLoad (if r.shared then BitVec.ofNat 64 (windowBase + ea.toNat) else ea)
      c.turns s (c.loadTurn f konst chk)
    if tx then go else c.outsideTx go) s

/-- LD. -/
def execLd (h : Head) (f : FormM) (s : State) : Host.Outcome State Fault Refusal :=
  load (.ld h f) h f { f.req .rd with mmio := true } false true s

/-- LDS. -/
def execLds (h : Head) (f : FormM) (s : State) : Host.Outcome State Fault Refusal :=
  load (.lds h f) h f { f.req .rd with shared := true } false false s

/-- LDC (R348). -/
def execLdc (h : Head) (f : FormM) (s : State) : Host.Outcome State Fault Refusal :=
  load (.ldc h f) h f { f.req .rd with window := false } true false s

/-- The remote combining buffer entries that hold a .sys store remember it: a refusal is deferred to its flag (R350). -/
def State.noteSys (s : State) (flag : BitVec 4) (t : Nat) (ea : Dword) (p : Spot) : State :=
  match p with
  | .mem pas =>
    let lines := (pas.filter fun pa => (areaOf pa).isPeer).map lineOf
    { s with rcbuf := s.rcbuf.map fun r =>
        if r.team = s.pod.id.team ∧ lines.contains r.line then { r with stores := r.stores ++ [(s.pod.id, flag, t, ea)] } else r }
  | _ => s

/-- One thread's store (R347, R360). -/
def storeTurn (f : FormM) (data : Nat → Nat) (flag : BitVec 4) (chk : List (Nat × Dword × Checked)) (t : Nat) (s : State) : Act :=
  let (ea, k) := checkedOf chk t
  let bs := toBytes (sizeBytes f.size) (data t)
  if s.pod.inTx t then
    match s.txRefuses t true k, k with
    | none, .ok (.mem pas) => .ok (s.txStore t pas bs)
    | some (st, n), _ => .moved (s.abortTx t st n)
    | none, _ => .ok s
  else
    match k with
    | .error (x, arg, a) => .fault x arg a s
    | .ok p =>
      match s.storeAt ea.toNat p bs f.scope.toNat (f.order.getLsbD 1) with
      | .ok s => .ok (if f.scope = 5 then s.noteSys flag t ea p else s)
      | x => x

/-- A store (R344, R347). DESIGN CHOICE (log 31): its sources are read at issue, so a source that is overwritten before the set-B flag clears
gives its old value; R36 allows the new one too. -/
def storeOp (i : Instr) (h : Head) (f : FormM) (r : AccReq) (tx : Bool) (s : State) : Host.Outcome State Fault Refusal :=
  issue i h (accessOnly { srcs := f.runSrc :: f.eaSrcs, bad := f.kDataBad h }) (fun c =>
    let go :=
      let (chk, s) := c.check r (c.ea f 1)
      c.turns s.noteStore (storeTurn f (c.val 0) h.seta chk)
    if tx then go else c.outsideTx go) s

/-- ST. -/
def execSt (h : Head) (f : FormM) (s : State) : Host.Outcome State Fault Refusal :=
  storeOp (.st h f) h f { f.req .wr with mmio := true } true s

/-- STS. -/
def execSts (h : Head) (f : FormM) (s : State) : Host.Outcome State Fault Refusal :=
  storeOp (.sts h f) h f { f.req .wr with shared := true } false s

/-- PRF (R351): a failed check is no effect; a line enters the L1 data cache, or fills its explicit stash line; L2 shows no clean line
(log 22), and MMIO and the window have no effect (R293, R303). -/
def execPrf (h : Head) (f : FormM) (s : State) : Host.Outcome State Fault Refusal :=
  issue (.prf h f) h (accessOnly { srcs := f.eaSrcs }) (fun c => c.outsideTx <|
    .done (c.lanes.foldl (fun s t =>
      let ea := c.ea f 0 t
      if onWindow ea then s
      else
        match s.translate s.team s.core ea .rd with
        | (.error _, s) => s
        | (.ok pa, s) =>
          match s.team.lineAt pa with
          | some l =>
            if f.hint = 2 && l.explicit then
              let s := s.touch s.pod.id.team [pa]
              if s.needsPeer s.team (lineOf pa) then (s.askPeers s.team s.pod.id [(0, lineOf pa)]).2 else s
            else s
          | none => if f.hint = 0 && (areaOf pa).isMem then s.fillL1 s.core [lineOf pa] else s) c.s) 0) s

/-! ## Fences (R364, R365) -/

/-- A pod-level attempt: a cause stops before, a wait is on acknowledgements. -/
def Ctx.tryPod (c : Ctx) (x : Try) (go : State → Eff) : Eff :=
  match x with
  | .ok s => go s
  | .fail k s => .raise (c.s.pod.before k 0 0 0) s
  | .wait k s => .hold k s

/-- FENCE. -/
def execFence (h : Head) (f : FormM) (s : State) : Host.Outcome State Fault Refusal :=
  issue (.fence h f) h { pod := true } (fun c => c.outsideTx <|
    if c.s.pod.loading || c.s.redsAway c.s.pod.id.team then .hold .time c.s
    else if f.order.getLsbD 1 then c.tryPod (c.s.release c.s.pod.id.team f.scope.toNat) fun s => .done s 0
    else .done c.s 0) s

/-- OFENCE: the team's remote combining entries are acknowledged; later matrix operations read no older values (R341). -/
def execOfence (h : Head) (f : FormR) (s : State) : Host.Outcome State Fault Refusal :=
  issue (.ofence h f) h { pod := true } (fun c => c.outsideTx <|
    if c.s.hasRemote c.s.pod.id.team then .hold .time c.s else .done (c.s.setPod { c.s.pod with ofence := c.s.tick }) 0) s

/-! ## Stash mapping and publication (R372 to R374) -/

/-- The check of a region offset (R304, R372). -/
def Team.offsetBad (t : Team) (r : Nat) : Option (Cause × Word × Dword) :=
  if r % 128 ≠ 0 then some (.misaligned, 0, BitVec.ofNat 64 r)
  else if t.kernel.stash ≤ r then some (.stashBounds, 0, BitVec.ofNat 64 r)
  else none

/-- Sends a line home as an overflow: irrevocable first (R49, R305). -/
def State.overflowLine (s : State) (tid : TeamId) (core : Nat) (l : Line) : Try :=
  (s.irrevocable tid).then_ fun s =>
    match s.lineHome tid core l with
    | none => .wait .release s
    | some s => .ok (s.countEvent core 6)

/-- Makes room for a displaced dirty line of a half: a free offset, or that of an evicted implicit line; none when every line is
explicit (R372). -/
def State.roomFor (s : State) (tid : TeamId) (t : Team) (core half : Nat) : Option Nat × Try :=
  match t.freeLines half with
  | r :: _ => (some r, .ok s)
  | [] =>
    match t.victim half with
    | none => (none, .ok s)
    | some v =>
      if v.dirty = 0 then (some v.roff, .ok (s.onTeam tid fun t => t.dropLine v))
      else (some v.roff, (s.overflowLine tid core v).then_ fun s => .ok (s.onTeam tid fun t => t.dropLine v))

/-- SMAP of one line: region offset `r` of a half becomes the explicit line of `pa` (R372). -/
def State.mapLine (s : State) (tid : TeamId) (r half va pa : Nat) : Try :=
  match s.findTeam tid with
  | none => .ok s
  | some t =>
    let core := t.core + half
    let old := t.lineAt pa
    let mine : Line := match old with
      | some l => { l with roff := r, explicit := true }
      | none => { roff := r, half := half, va := va / 128 * 128, pa := lineOf pa, explicit := true, filled := false, dirty := 0,
                  bytes := 0, written := 0 }
    let put := fun (s : State) => Try.ok (s.onTeam tid fun t => t.addLine mine)
    let takeOld := fun (t : Team) => match old with
      | some l => t.dropLine l
      | none => t
    match (takeOld t).stash.find? fun l => l.roff = r && l.half = half with
    | none => put (s.onTeam tid takeOld)
    | some o =>
      if o.dirty = 0 then put (s.onTeam tid fun t => (takeOld t).dropLine o)
      else
        -- the free lines once the mapped line has moved to r and the displaced one is taken out
        let after := ((takeOld t).dropLine o).addLine mine
        match s.roomFor tid after core half with
        | (some q, x) => x.then_ fun s =>
          put (s.onTeam tid fun t => ((takeOld t).dropLine o).addLine { o with roff := q, explicit := false })
        | (none, _) => (s.overflowLine tid core o).then_ fun s => put (s.onTeam tid fun t => (takeOld t).dropLine o)

/-- One thread's SMAP: the check of its offset comes before that of its address. -/
def Ctx.smapAct (c : Ctx) (chk : List (Nat × Dword × Checked)) (t : Nat) (s : State) : Act :=
  let (ea, k) := checkedOf chk t
  match c.s.team.offsetBad (c.val 0 t), k with
  | some (x, arg, a), _ => .fault x arg a s
  | none, .error (x, arg, a) => .fault x arg a s
  | none, .ok (.mem (pa :: _)) => (s.mapLine s.pod.id.team (c.val 0 t) (s.team.lineHalf ea.toNat) ea.toNat pa).act
  | none, .ok _ => .ok s

/-- SMAP. -/
def execSmap (h : Head) (f : FormM) (s : State) : Host.Outcome State Fault Refusal :=
  issue (.smap h f) h (accessOnly { srcs := f.offSrc [.v, .k, .zero] :: f.eaSrcs, bad := f.kDataBad h }) (fun c => c.outsideTx <|
    let (chk, s) := c.check { size := 1, access := .rd, window := false, watch := false } (c.ea f 1)
    c.turns s (c.smapAct chk)) s

/-- One thread's SDROP: a line of the pod's half. -/
def Ctx.sdropAct (c : Ctx) (f : FormM) (t : Nat) (s : State) : Act :=
  let r := c.val 0 t
  match s.team.offsetBad r with
  | some (x, arg, a) => .fault x arg a s
  | none =>
    let half := s.team.halfOf s.pod.id
    match s.team.stash.find? fun l => l.roff = r && l.half = half && l.explicit with
    | none => .ok s
    | some l => .ok (s.setTeam (if f.hint = 0 then s.team.setLine { l with explicit := false } else s.team.dropLine l))

/-- SDROP. -/
def execSdrop (h : Head) (f : FormM) (s : State) : Host.Outcome State Fault Refusal :=
  issue (.sdrop h f) h (accessOnly { srcs := [f.offSrc [.v, .k, .zero]], bad := f.kDataBad h }) (fun c => c.outsideTx <|
    c.turns c.s (c.sdropAct f)) s

/-- SPUB: the dirty lines of the range, on both halves. -/
def execSpub (h : Head) (f : FormM) (s : State) : Host.Outcome State Fault Refusal :=
  issue (.spub h f) h { srcs := [f.offSrc [.k, .zero]], pod := true } (fun c => c.outsideTx <|
    let r := c.val 0 0
    let n := f.offset.toNat
    if r % 128 ≠ 0 then .raise (c.s.pod.before .misaligned 0 0 (BitVec.ofNat 64 r)) c.s
    else if c.s.team.kernel.stash = 0 then .done c.s 0
    else if c.s.team.kernel.stash ≤ r then .raise (c.s.pod.before .stashBounds 0 0 (BitVec.ofNat 64 r)) c.s
    else
      let tid := c.s.pod.id.team
      c.tryPod (c.s.publish tid fun l => r ≤ l.roff && (n = 0 || l.roff < r + 128 * n)) fun s =>
        if f.scope = 5 ∧ s.hasRemote tid then .hold .ack s else .done s 0) s

/-- The bytes of a line whose memory holds an earlier value. -/
def State.staleIn (s : State) (line : Nat) : List Host.Cell := s.stale.filter fun x => lineOf x.1 = line

/-- L2 writes a line to its stack; a writeback of uncorrectable data is suppressed and logged, and memory keeps what it held (R312,
R337). -/
def State.l2WriteBack (s : State) (line : Nat) : State :=
  let old := s.staleIn line
  let s' := { s with stale := s.stale.filter fun x => lineOf x.1 ≠ line }
  if old.isEmpty then s
  else if !(s.poison.any fun pa => lineOf pa = line) then s'
  else
    ({ s' with
       mem := old.foldl (fun m (x : Host.Cell) => store Config.unwritten m x.1 x.2) s.mem
       poison := s.poison.filter fun pa => lineOf pa ≠ line } : State).note (.uncorrectable line)

/-- CCTL (R375). -/
def execCctl (h : Head) (f : FormM) (s : State) : Host.Outcome State Fault Refusal :=
  let all := f.hint = 3
  issue (.cctl h f) h { srcs := f.eaSrcs, exec := all, pod := all } (fun c => c.outsideTx <|
    let cluster := clusterOf c.s.core
    if all then .done { c.s with ccache := c.s.ccache.filter fun x => x.1 / 2 ^ 52 ≠ cluster } 0
    else
      .done (c.lanes.foldl (fun s t =>
        match s.translate s.team s.core (c.ea f 0 t) .rd with
        | (.error _, s) => s
        | (.ok pa, s) =>
          if f.hint = 0 then s.l2WriteBack (lineOf pa)
          else if f.hint = 1 then { s with l1 := s.l1.filter (· ≠ (s.core, lineOf pa)) }
          else if f.hint = 2 then { s with ccache := s.ccache.filter fun x => x.1 ≠ constKey cluster (lineOf pa) }
          else s) c.s) 0) s

/-! ## Control instructions that read memory (R239, R257, R385, R399) -/

/-- What a polling read finds: its bytes, a fault, or that a peer has not answered yet. -/
inductive Polled
  | got (v : Nat) (s : State)
  | fault (c : Cause) (arg : Word) (addr : Dword) (s : State)
  | asked (s : State)
deriving DecidableEq, Repr

/-- Reads `n` bytes, at most 32, for a pod that looks again while it waits: through the stash and L1, or from a peer (R239). -/
def Ctx.pollBytes (c : Ctx) (a : Dword) (n : Nat) : Polled :=
  match c.s.pod.pend.find? fun x => x.kind == .poll && x.addr == a with
  | some x =>
    if x.reqs.isEmpty then
      .got x.value.toNat (c.s.setPod { c.s.pod with pend := c.s.pod.pend.filter fun y => !(y.kind == .poll && y.addr == a) })
    else .asked c.s
  | none =>
    match c.s.checkAcc c.s.team c.s.core { size := n, access := .rd } a with
    | (.error (x, arg, addr), s) => .fault x arg addr s
    | (.ok p, s) =>
      match s.loadAt p n false false with
      | (.error _, s) => .asked s
      | (.ok x, s) =>
        if x.uncorr then .fault .memUncorrectable 0 a s
        else if x.reqs.isEmpty then .got x.value s
        else
          .asked (s.setPod { s.pod with pend := s.pod.pend ++
            [({ kind := .poll, serial := s.pod.serial, dest := .none, tag := 0, value := BitVec.ofNat 256 x.value, reqs := x.reqs,
                size := n, seta := 15, setb := 15, thread := 0, addr := a, uncorr := false, fl := 0 } : Pend)] })

/-- Waits for a loop-count block with a read every 128 cycles (R239, R399); `go` receives the 16 bytes. -/
def Ctx.awaitBlock (c : Ctx) (a : Dword) (want : Nat) (go : Nat → State → Eff) : Eff :=
  let resting : Bool := match c.s.pod.wait with
    | some w => w.kind == .poll && w.until_.isSome && w.until_ != some 0
    | none => false
  if resting then .hold .poll c.s
  else
    let rest := fun (u : Option Nat) (s : State) =>
      Eff.hold .poll (s.setPod { s.pod with wait := some ⟨.poll, s.cycle, u, s.progress⟩ })
    match c.pollBytes a 16 with
    | .fault x arg addr s => .raise (c.s.pod.before x 0 arg addr) s
    | .asked s => rest none s
    | .got v s => if bits v 0 32 = want then go v s else rest (some (c.s.cycle + 128)) s

/-- The block address of LOOPC and LCBR. -/
def blockSrc (c : Code) : Src := { field := 5, arg := .code c, acc := [.k], regs := 2 }

/-- LOOPC. -/
def execLoopc (h : Head) (f : FormB) (s : State) : Host.Outcome State Fault Refusal :=
  issue (.loopc h f) h { pod := true, late := s.pod.loopLate, srcs := [blockSrc f.link, uniSrc 1 (.code f.a)] } (fun c => c.outsideTx <|
    let a := BitVec.ofNat 64 (c.val 0 0)
    if a.toNat % 64 ≠ 0 then .raise (c.s.pod.before .misaligned 0 0 a) c.s
    else c.awaitBlock a (c.val 1 0) fun v s => c.openLoop s f.boff (BitVec.ofNat 32 (bits v 32 32))) s

/-- The cores whose instruction caches an ICINV of a scope reaches (R257). -/
def State.icScope (s : State) (scope core : Nat) : Bool :=
  if scope < 3 then s.team.cores.contains core
  else if scope = 3 then clusterOf core == clusterOf s.team.core
  else true

/-- Whether a cached fetch line overlaps a line of physical memory. -/
def FetchLine.overlaps (x : FetchLine) (line : Nat) : Bool := x.pieces.any fun p => lineOf p.1 == line

/-- One thread's ICINV: the fetch lines that overlap its line leave the caches of the scope. -/
def icinvAct (f : FormM) (chk : List (Nat × Dword × Checked)) (t : Nat) (s : State) : Act :=
  match (checkedOf chk t).2 with
  | .error (x, arg, a) => .fault x arg a s
  | .ok (.mem (pa :: _)) =>
    .ok { s with icache := s.icache.filter fun x =>
      !(s.icScope f.scope.toNat x.core && x.overlaps (lineOf pa)) }
  | .ok _ => .ok s

/-- ICINV. -/
def execIcinv (h : Head) (f : FormM) (s : State) : Host.Outcome State Fault Refusal :=
  issue (.icinv h f) h { srcs := f.eaSrcs } (fun c =>
    let (chk, s) := c.check { size := 1, access := .fetch, window := false, watch := false } (c.ea f 0)
    c.turns s (icinvAct f chk)) s

end Sys2Proof.Machine
end

