-- ==== Sys2Proof/Machine/Atomics.lean ====
section
/-! DEFINITION. Atomics, reductions, transactions and write with enqueue (R352 to R363, R370, R371). -/
namespace Sys2Proof.Machine

/-! ## The operations (R352, R354) -/

/-- Bytes of an atomic type. -/
def atomSize (ty : Nat) : Nat := if ty = 2 ∨ ty = 3 ∨ ty = 5 then 8 else 4

/-- The tag of an atomic type. -/
def atomTag (ty : Nat) : BitVec 5 :=
  match ty with
  | 0 => 1
  | 1 => 2
  | 2 => 5
  | 3 => 6
  | 4 => 3
  | 5 => 4
  | 6 => 7
  | _ => 8

/-- A float operation of an atomic: add, minimum or maximum. -/
def atomFlt (F : Fmt) (op m b : Nat) : Nat :=
  match op with
  | 0 => (F.round ((F.decode m).add (F.decode b) false).1 0 0 false 0).code
  | 1 => (minMax F false false m b).1
  | _ => (minMax F true false m b).1

/-- The new value of R354 from the value in memory, the operand and the new value of .cas. -/
def atomNew (op ty m b c : Nat) : Nat :=
  let w := 8 * atomSize ty
  if 6 ≤ ty then
    let F := halfFmt (ty = 7)
    atomFlt F op (bits m 0 16) (bits b 0 16) + 2 ^ 16 * atomFlt F op (bits m 16 16) (bits b 16 16)
  else if ty = 4 ∨ ty = 5 then atomFlt (scalarFmt (ty = 5)) op m b
  else
    let sg := ty = 0 ∨ ty = 2
    let less := fun (x y : Nat) => if sg then decide (signed w x < signed w y) else decide (x < y)
    match op with
    | 0 => (m + b) % 2 ^ w
    | 1 => if less b m then b else m
    | 2 => if less m b then b else m
    | 3 => m &&& b
    | 4 => m ||| b
    | 5 => m ^^^ b
    | 6 => b
    | 7 => if m = b then c else m
    | _ => if b ≤ m then 0 else m + 1

end Sys2Proof.Machine

namespace Sys2Proof

open Machine

/-- Registers of an operand. -/
def FormQ.atomRegs (f : FormQ) : Nat := atomSize f.atomTy / 4

/-- An operand of an atomic: v, k or zero (R353). -/
def FormQ.atomSrc (f : FormQ) (field : Nat) (c : Code) : Src :=
  { field := field, arg := .code c, acc := [.v, .k, .zero], regs := f.atomRegs }

/-- The destination of the old value. -/
def FormQ.atomDst (f : FormQ) : Dst := { code := f.dst, acc := [.v, .zero], regs := f.atomRegs, tag := atomTag f.atomTy }

/-- An operand C, present only for .cas. -/
def FormQ.casSrc (f : FormQ) : List Src := if f.atomOp = 7 then [f.atomSrc 3 f.c] else []

/-- The demand of an atomic access. -/
def FormQ.atomReq (f : FormQ) : AccReq :=
  { size := atomSize f.atomTy, align := atomSize f.atomTy, access := .rw, scope := f.atomScope }

/-- A release at cluster scope or wider. -/
def FormQ.publishes (f : FormQ) : Bool := bit f.atomOrder 1 && decide (3 ≤ f.atomScope)

end Sys2Proof

namespace Sys2Proof.Machine

/-- An address pair (R353). -/
def addrSrc (field : Nat) (c : Code) : Src := { field := field, arg := .code c, acc := [.v, .k], regs := 2 }

/-! ## ATOM and ATOMS (R333, R355, R357) -/

/-- The request of an atomic to a peer: the threads that name the location are one step. -/
def atomMsg (f : FormQ) (ops : List (Nat × Nat)) : ReqKind :=
  .atomic (BitVec.ofNat 4 f.atomOp) (BitVec.ofNat 3 f.atomTy) (ops.map fun x => (BitVec.ofNat 64 x.1, BitVec.ofNat 64 x.2))

/-- The operations of one step, in order: the old value of each, and the new value (R333, R355). -/
def atomFold (op ty m : Nat) (ops : List (Nat × Nat)) : List Nat × Nat :=
  ops.foldl (fun (x : List Nat × Nat) o => (x.1 ++ [x.2], atomNew op ty x.2 o.1 o.2)) ([], m)

/-- An atomic at home: the old values, and memory updated; uncorrectable data is not written over. -/
def State.atomHome (s : State) (tid : TeamId) (pas : List Nat) (op ty : Nat) (ops : List (Nat × Nat)) : List Loaded × State :=
  let x := atomFold op ty (ofBytes (s.rdAll pas)) ops
  if s.poisoned pas then (x.1.map fun m => { value := m, uncorr := true }, s)
  else (x.1.map fun m => { value := m }, (s.writeHomeAll tid pas (toBytes pas.length x.2)).tickle)

/-- An atomic at a peer's home: the old values come with the answer. -/
def State.atomPeer (s : State) (pa size : Nat) (f : FormQ) (ops : List (Nat × Nat)) : List Loaded × State :=
  let (seq, s) := s.send pa 1 (some s.pod.id) none (atomMsg f ops)
  ((List.range ops.length).map fun j =>
    { value := 0, reqs := [(peerOf pa, seq, (List.range size).map fun i => (size * j + i, i))] }, s)

/-- A line that an atomic holds: its dirty bytes go home, and the line is dropped, or kept for ATOMS.g (R333, R357). Bytes on their way
to a peer reach it before the atomic does. -/
def State.takeLine (s : State) (tid : TeamId) (drop : Bool) (line : Nat) : Try :=
  match s.findTeam tid with
  | none => .ok s
  | some t =>
    (match t.lineAt line with
      | none => Try.ok s
      | some l =>
        match s.lineHome tid (t.core + l.half) l with
        | none => .wait .time s
        | some s => .ok (if drop then s.onTeam tid fun t => t.dropLine l else s)).then_ fun s =>
      if s.rcbuf.any fun r => r.team == tid && r.line == line then .wait .time s else .ok s

/-- The lines of an atomic. -/
def State.takeLines (s : State) (tid : TeamId) (drop : Bool) (lines : List Nat) : Try :=
  lines.foldl (fun (x : Try) line => x.then_ fun s => s.takeLine tid drop line) (Try.ok s)

/-- An atomic on the plain shared region (R357). -/
def State.atomShared (s : State) (o size : Nat) (new : Nat → Nat) : Loaded × State :=
  let m := ofBytes (s.team.rdShared o size)
  if s.team.sharedBad o size then ({ value := m, uncorr := true }, s)
  else ({ value := m }, (s.wrShared o (toBytes size (new m))).tickle)

/-- One thread's atomic on the shared region. -/
def State.atomsTurn (s : State) (f : FormQ) (o b c : Nat) (put : Loaded → State → State) : Act :=
  let (x, s) := s.atomShared o (atomSize f.atomTy) fun m => atomNew f.atomOp f.atomTy m b c
  .ok (put x s)

/-- The threads whose checks pass and that lie below the first one whose checks fail, with the places of those that name memory (R38,
R355). -/
def Ctx.places (c : Ctx) (chk : List (Nat × Dword × Checked)) : List (Nat × List Nat) :=
  (c.lanes.takeWhile fun t => match (checkedOf chk t).2 with
    | .ok _ => true
    | .error _ => false).filterMap fun t => match (checkedOf chk t).2 with
      | .ok (.mem pas) => some (t, pas)
      | _ => none

/-- Leaves the old value of one thread outstanding (R345). -/
def Ctx.oldLater (c : Ctx) (f : FormQ) (t : Nat) (addr : Dword) (x : Loaded) (s : State) : State :=
  c.loadLater .load (loadDest f.dst t f.atomRegs) (atomTag f.atomTy) (atomSize f.atomTy) t addr x s (bit f.atomOrder 0)

/-- An atomic at memory in the turn of thread `t` (R333, R355, R357). In the first turn every line is taken; the first of the threads
that name a location makes the one step of all of them, and the others have nothing left to do. -/
def Ctx.atomTurn (c : Ctx) (f : FormQ) (g : Bool) (chk : List (Nat × Dword × Checked)) (t : Nat) (pas : List Nat) (s : State) : Act :=
  let tid := s.pod.id.team
  let ps := c.places chk
  let lines := (ps.map fun x => lineOf (x.2.headD 0)).eraseDups
  let own := ps.filter fun x => x.2 == pas
  let first := ps.head?.any fun x => x.1 == t
  (s.irrevocable tid).andAct fun s =>
    if first && lines.any fun l => s.lockedFor t l then .wait .time s
    else
      (if first then s.takeLines tid (!g) lines else Try.ok s).andAct fun s =>
        if !own.head?.any fun x => x.1 == t then .ok s
        else
          let pa := pas.headD 0
          let ops := own.map fun x => (c.val 1 x.1, c.val 2 x.1)
          let (olds, s) := if (areaOf pa).isPeer then s.atomPeer pa pas.length f ops else s.atomHome tid pas f.atomOp f.atomTy ops
          let s := (own.zip olds).foldl (fun s x => c.oldLater f x.1.1 (checkedOf chk x.1.1).1 x.2 s) s
          -- an explicit line then holds what its home holds
          .ok (if !g then s
            else if (areaOf pa).isPeer then s.onTeam tid fun u => u.invalidate (lineOf pa)
            else s.touch tid pas)

/-- One thread's ATOM or ATOMS, with .g where `g` holds. A release waits for the pod's earlier loads, and publishes at cluster scope or
wider before the first effect (R323, R328). -/
def Ctx.atomAct (c : Ctx) (f : FormQ) (g : Bool) (chk : List (Nat × Dword × Checked)) (t : Nat) (s : State) : Act :=
  let (ea, k) := checkedOf chk t
  let start := c.lanes.head? == some t
  match k with
  | .error (x, arg, addr) => .fault x arg addr s
  | .ok p =>
    if start && bit f.atomOrder 1 && s.pod.asking then .wait .time s
    else
      (if start && f.publishes then s.release s.pod.id.team f.atomScope else Try.ok s).andAct fun s =>
        match p with
        | .shared o => s.atomsTurn f o (c.val 1 t) (c.val 2 t) (c.oldLater f t ea)
        | .mem pas => c.atomTurn f g chk t pas s
        | _ => .ok s

/-- The check of ATOMS.g: a line that is not explicit in the team's stash has no other cause but MISALIGNED before it (R261, R357). -/
def Ctx.explicitOnly (c : Ctx) (x : Nat × Dword × Checked) : Nat × Dword × Checked :=
  let t := c.s.team
  let (i, ea, k) := x
  let mapped : Bool := match k with
    | .ok (.mem pas) => (t.lineAt (pas.headD 0)).any (·.explicit)
    | .error (.misaligned, _, _) => true
    | .ok _ => false
    | .error _ => t.stash.any fun l => l.explicit && l.va == ea.toNat / 128 * 128
  (i, ea, if mapped then k else .error (.stashBounds, 0, ea))

/-- An instruction that acts in every effective thread, whatever its operands (R33). -/
def Ctx.each (c : Ctx) : Ctx := { c with uni := false }

/-- What the operand A of an atomic or a reduction is: an address, or an offset in shared memory. -/
def FormQ.placeSrc (f : FormQ) (shared : Bool) : Src :=
  if shared then { field := 1, arg := .code f.a, acc := [.v, .k, .zero] } else addrSrc 1 f.a

/-- The address of a thread in source `i`. -/
def Ctx.addr (c : Ctx) (i t : Nat) : Dword := BitVec.ofNat 64 (c.val i t)

/-- ATOM and ATOMS: `shared` for an offset in A, `global` for ATOMS.g. -/
def atomOp (i : Instr) (h : Head) (f : FormQ) (shared g : Bool) (s : State) : Host.Outcome State Fault Refusal :=
  issue i h (accessOnly { srcs := [FormQ.placeSrc f shared, f.atomSrc 2 f.b] ++ f.casSrc, dst := some f.atomDst }) (fun c => c.outsideTx <|
    let (chk, s) := c.check { f.atomReq with shared := shared } (c.addr 0)
    c.turns s.noteStore (c.atomAct f g (if g then chk.map c.explicitOnly else chk))) s

/-- ATOM. -/
def execAtom (h : Head) (f : FormQ) (s : State) : Host.Outcome State Fault Refusal := atomOp (.atom h f) h f false false s

/-- ATOMS; with .g the address is global. -/
def execAtoms (h : Head) (f : FormQ) (s : State) : Host.Outcome State Fault Refusal :=
  let g := f.flags.getLsbD 8
  atomOp (.atoms h f) h f (!g) g s

/-! ## RED and REDS (R332, R356, R357) -/

/-- Applies one reduction at its home (R356). -/
def State.applyRed (s : State) (tid : TeamId) (e : Combine) : State :=
  if (areaOf e.pa).isPeer then
    (s.send e.pa 2 none (some tid) (.reduce (BitVec.ofNat 4 e.op) (BitVec.ofNat 3 e.ty) e.value)).2
  else
    let n := atomSize e.ty
    let pas := run e.pa n
    s.writeHomeAll tid pas (toBytes n (atomNew e.op e.ty (ofBytes (s.rdAll pas)) e.value.toNat 0))

/-- Merges a reduction into an entry of its location, operation and type; none when there is no such entry. -/
def mergeRed (e : Combine) : List Combine → Option (List Combine)
  | [] => none
  | x :: l =>
    if x.pa = e.pa ∧ x.op = e.op ∧ x.ty = e.ty then
      some ({ x with value := BitVec.ofNat 64 (atomNew e.op e.ty x.value.toNat e.value.toNat 0) } :: l)
    else (mergeRed e l).map (x :: ·)

/-- Sends a reduction to the combining buffer, or home at once as an overflow (R306, R356). -/
def State.combine (s : State) (tid : TeamId) (e : Combine) (home : State → Try) : Try :=
  match s.findTeam tid with
  | none => .ok s
  | some t =>
    match mergeRed e t.rcb with
    | some l => .ok (s.onTeam tid fun t => { t with rcb := l })
    | none =>
      let add := fun (s : State) => Try.ok (s.onTeam tid fun t => { t with rcb := t.rcb ++ [e] })
      if t.kernel.stash = 0 then home s
      else if t.rcb.length % 8 ≠ 0 then add s
      else
        match s.freeLine tid 0 with
        | (none, _) => home s
        | (some _, x) => x.then_ add

/-- A reduction that goes home while its instruction runs (R324, R356): at a peer the instruction's flag waits for the answer, and a
refusal is deferred to it (R346). -/
def Ctx.redHome (c : Ctx) (e : Combine) (t : Nat) (ea : Dword) (s : State) : Try :=
  (s.irrevocable s.pod.id.team).then_ fun s =>
    if s.lockedFor t (lineOf e.pa) then .wait .time s
    else if (areaOf e.pa).isPeer then
      let (seq, s) := s.send e.pa 2 (some s.pod.id) none (.reduce (BitVec.ofNat 4 e.op) (BitVec.ofNat 3 e.ty) e.value)
      .ok (c.loadLater .load .none 0 0 t ea { value := 0, reqs := [(peerOf e.pa, seq, [])] } s)
    else .ok (s.applyRed s.pod.id.team e).tickle

/-- One thread's RED at global memory: with .sys at home at once. -/
def Ctx.redTurn (c : Ctx) (f : FormQ) (t : Nat) (ea : Dword) (pa : Nat) (s : State) : Act :=
  let e : Combine := ⟨pa, f.atomOp, f.atomTy, BitVec.ofNat 64 (c.val 1 t)⟩
  let home := c.redHome e t ea
  if f.atomScope = 5 then (home s).act else (s.combine s.pod.id.team e home).act

/-- One thread's RED or REDS; a release waits for the pod's earlier loads, and publishes at cluster scope or wider (R323, R328). -/
def Ctx.redAct (c : Ctx) (f : FormQ) (chk : List (Nat × Dword × Checked)) (t : Nat) (s : State) : Act :=
  let (ea, k) := checkedOf chk t
  match k with
  | .error (x, arg, addr) => .fault x arg addr s
  | .ok p =>
    if bit f.atomOrder 1 && s.pod.asking then .wait .time s
    else
      (if f.publishes then s.release s.pod.id.team f.atomScope else Try.ok s).andAct fun s =>
        match p with
        | .shared o => s.atomsTurn f o (c.val 1 t) 0 fun _ s => s
        | .mem pas => c.redTurn f t ea (pas.headD 0) s
        | _ => .ok s

/-- RED and REDS. -/
def redOp (i : Instr) (h : Head) (f : FormQ) (shared : Bool) (s : State) : Host.Outcome State Fault Refusal :=
  issue i h (accessOnly { srcs := [FormQ.placeSrc f shared, f.atomSrc 2 f.b] }) (fun c => c.outsideTx <|
    let (chk, s) := c.check { f.atomReq with shared := shared } (c.addr 0)
    c.turns s.noteStore (c.redAct f chk)) s

/-- RED. -/
def execRed (h : Head) (f : FormQ) (s : State) : Host.Outcome State Fault Refusal := redOp (.red h f) h f false s

/-- REDS. -/
def execReds (h : Head) (f : FormQ) (s : State) : Host.Outcome State Fault Refusal := redOp (.reds h f) h f true s

/-! ## Transactions (R359, R361 to R363) -/

/-- One thread's TXB (R359): it starts at the instruction after it, and reads 0. -/
def Ctx.txbAct (c : Ctx) (r t : Nat) (s : State) : Act :=
  let x := (s.pod.txOf t).getD (TxThread.blank t)
  if x.inTx then .fault .illegalOp 0 0 s.freeToken
  else
    let x := { x with inTx := true, serial := x.due, due := false, trap := s.pod.trapLevel }
    let q := s.pod.setTx { x with resume := c.this + 12, dst := r, reads := [], writes := [] }
    .ok (s.setPod ((q.wrV t r 0).wrTags 2 r 1))

/-- Whether a thread of the context must run serially (R363). -/
def Ctx.txDue (c : Ctx) : Bool := c.eff.any fun t => match c.s.pod.txOf t with
  | some x => x.due && !x.inTx
  | none => false

/-- Whether another pod holds the serial token (R363). -/
def State.tokenHeld (s : State) : Bool := match s.serial with
  | some q => decide (q ≠ s.pod.id)
  | none => false

/-- TXB. -/
def execTxb (h : Head) (f : FormR) (s : State) : Host.Outcome State Fault Refusal :=
  issue (.txb h f) h (accessOnly { dst := some { code := f.dst, acc := [.v], tag := 2 } }) (fun c =>
    if c.txDue && c.s.tokenHeld then .hold .time c.s
    else
      c.each.runThreads (c.txbAct (classOf f.dst).2) c.eff 0 (if c.txDue then { c.s with serial := some c.s.pod.id } else c.s)) s

/-- Whether two transactions have a common line that one of them writes (R361). -/
def TxThread.conflicts (x y : TxThread) : Bool :=
  let w := fun (z : TxThread) (l : Nat) => z.writes.any (·.1 = l)
  let any := fun (z : TxThread) (l : Nat) => z.reads.any (·.1 = l) || w z l
  (x.writes.any fun a => any y a.1) || (y.writes.any fun a => any x a.1)

/-- Whether every value read is still the one at home (R361). -/
def State.txValid (s : State) (x : TxThread) : Bool :=
  x.reads.all fun y => (maskBytes y.2.2).all fun i => s.rdByte (y.1 + i) == lineByte y.2.1 i

/-- Commits one thread: its writes take effect at home as one step (R334, R361). -/
def State.txCommit (s : State) (t pd : Nat) (x : TxThread) : State :=
  let tid := s.pod.id.team
  let s := x.writes.foldl (fun s w =>
    let is := maskBytes w.2.2
    s.writeHomeAll tid (is.map fun i => w.1 + i) (is.map fun i => lineByte w.2.1 i)) s
  let p := s.pod.setTx { x with inTx := false, serial := false, due := false, count := 0, clashes := 0, reads := [], writes := [] }
  (s.setPod (p.wrPred pd (one t) (one t))).freeToken.tickle

/-- The predicate that TXE writes; 0 for none. -/
def txePred (c : Code) : Nat := match classOf c with
  | (.p, n) => n
  | _ => 0

/-- Whether a thread's transaction conflicts with that of a lower thread of the instruction (R361). -/
def Ctx.txClash (c : Ctx) (t : Nat) : Bool := match c.s.pod.txOf t with
  | none => false
  | some x => (c.txThreads.filter fun u => u < t).any fun u => match c.s.pod.txOf u with
    | none => false
    | some y => x.conflicts y

/-- One thread's TXE (R361); a commit is ordered as an acq_rel at die scope, so that the team's earlier stores are published first
(R328, R334). -/
def Ctx.txeAct (c : Ctx) (pd t : Nat) (s : State) : Act :=
  if !c.s.pod.inTx t then .ok (s.setPod (s.pod.wrPred pd (one t) 0))
  else if c.txClash t then .moved (s.abortTx t 1 0)
  else
    match s.pod.txOf t with
    | none => .ok s
    | some x =>
      (s.irrevocable s.pod.id.team).andAct fun s =>
        let lines := x.reads.map (·.1) ++ x.writes.map (·.1)
        if (lines.any fun l => s.lockedFor t l) || !s.txValid x then .moved (s.abortTx t 2 0)
        else if s.pod.asking then .wait .time s
        else (s.release s.pod.id.team 4).andAct fun s => .ok (s.txCommit t pd x)

/-- TXE. -/
def execTxe (h : Head) (f : FormR) (s : State) : Host.Outcome State Fault Refusal :=
  issue (.txe h f) h (accessOnly { dst := some { code := f.dst, acc := [.p, .zero] } }) (fun c =>
    c.each.runThreads (c.txeAct (txePred f.dst)) c.eff 0 c.s) s

/-- One thread's TXA (R359). -/
def Ctx.txaAct (c : Ctx) (t : Nat) (s : State) : Act := if s.pod.inTx t then .moved (s.abortTx t 5 (c.val 0 t)) else .ok s

/-- TXA. -/
def execTxa (h : Head) (f : FormR) (s : State) : Host.Outcome State Fault Refusal :=
  issue (.txa h f) h (accessOnly { srcs := [{ field := 1, arg := .code f.a, acc := [.v, .k] }], smod := f.smod, mtgt := f.mtgt }) (fun c =>
    c.each.runThreads c.txaAct c.eff 0 c.s) s

/-- What TXST reads of a thread (R362). -/
def Pod.txStatus (p : Pod) (t : Nat) : Nat :=
  match p.txOf t with
  | none => 0
  | some x => (if x.inTx then 1 else 0) + (if x.serial then 2 else 0) + 2 ^ 24 * x.count

/-- TXST. -/
def execTxst (h : Head) (f : FormR) (s : State) : Host.Outcome State Fault Refusal :=
  issue (.txst h f) h { dst := some { code := f.dst, acc := [.v], tag := 2 } } (fun c =>
    .done (c.outstanding .load (c.eff.map fun t =>
      (t, { val := if c.s.pod.id.slice = .execute then 0 else c.s.pod.txStatus t })) c.s) 0) s

/-! ## Write with enqueue (R370, R371) -/

/-- Words of a WRQ payload. -/
def wrqWords (f : FormQ) : Nat := bits f.desc.toNat 7 5 + 1

/-- Scope of a WRQ. -/
def wrqScope (f : FormQ) : Nat := bits f.desc.toNat 4 3

/-- The payload run: `n` registers from B, all v or all k. -/
def wrqRun (f : FormQ) : List Src :=
  let cl := (classOf f.b).1
  (List.range (wrqWords f)).map fun i =>
    { field := 2, arg := .code (f.b + BitVec.ofNat 10 i), acc := if cl == .v || cl == .k then [cl] else [] }

/-- The bytes of an access by pages. -/
def byPage (pas : List Nat) (bs : List Byte) : List (Nat × List Byte) :=
  ((pas.map fun pa => pa / 4096).eraseDups).map fun pg =>
    let own := (pas.zip bs).filter fun x => x.1 / 4096 = pg
    ((own.map (·.1)).headD 0, own.map (·.2))

/-- The peer that is the home of an address; none for a home here. -/
def homeOf (pa : Nat) : Option Nat := if (areaOf pa).isPeer then some (peerOf pa) else none

/-- Counts the queue word at home up: its old value. -/
def State.countQueueWord (s : State) (tid : TeamId) (q : Nat) : Nat × State :=
  let old := ofBytes (s.rdAll (run q 4))
  (old, (s.writeHomeAll tid (run q 4) (toBytes 4 (old + 1))).tickle)

/-- Sends requests to the peers of some addresses, each for no byte of a value: what they answer with is waited for. -/
def State.sendEach (s : State) (pod : PodId) (vc : BitVec 3) (l : List (Nat × ReqKind)) : List (Nat × Word × List (Nat × Nat)) × State :=
  l.foldl (fun (acc : List (Nat × Word × List (Nat × Nat)) × State) x =>
    let (seq, s) := acc.2.send x.1 vc (some pod) none x.2
    (acc.1 ++ [(peerOf x.1, seq, [])], s)) ([], s)

/-- Writes a payload at home and counts the queue word up, together (R371). A peer that is the home of all of it makes both; with several
homes each peer is first asked whether it accepts its part. -/
def State.writeEnqueue (s : State) (pay : List Nat) (words : List Word) (q : Nat) : Loaded × State :=
  let tid := s.pod.id.team
  let bs := words.flatMap fun w => toBytes 4 w.toNat
  let parts := byPage pay bs
  let homes := (homeOf q :: parts.map fun x => homeOf x.1).eraseDups
  match homes with
  | [none] =>
    let (old, s) := (s.writeHomeAll tid pay bs).countQueueWord tid q
    ({ value := old }, s)
  | [some p] =>
    let (seq, s) := s.send (pay.headD 0) 2 (some s.pod.id) none (.wrq parts q)
    ({ value := 0, reqs := [(p, seq, (List.range 4).map fun i => (i, i))] }, s)
  | _ =>
    let (reqs, s) := s.sendEach s.pod.id 2
      (((q, 4) :: parts.map fun x => (x.1, x.2.length)).filterMap fun x => if (areaOf x.1).isPeer then some (x.1, .probe x.2) else none)
    ({ value := 0, reqs := reqs, todo := some ⟨parts, q, false⟩ }, s)

/-- Of two checks of one thread, the cause that R261 raises. -/
def worse (x y : Checked) : Option (Cause × Word × Dword) :=
  match x, y with
  | .error a, .error b => some (if rank261 b.1 < rank261 a.1 then b else a)
  | .error a, _ => some a
  | _, .error b => some b
  | _, _ => none

/-- One thread's WRQ (R371): the checks of its payload and of its queue word, then both writes. -/
def Ctx.wrqAct (c : Ctx) (f : FormQ) (pay que : List (Nat × Dword × Checked)) (t : Nat) (s : State) : Act :=
  let (ea, k) := checkedOf pay t
  let (_, q) := checkedOf que t
  match worse k q, k, q with
  | some (x, arg, addr), _, _ => .fault x arg addr s
  | none, .ok (.mem a), .ok (.mem q) =>
    if s.pod.asking || (a ++ q).any fun pa => s.lockedFor t (lineOf pa) then .wait .time s
    else
      (s.irrevocable s.pod.id.team).andAct fun s =>
        (s.release s.pod.id.team (wrqScope f)).andAct fun s =>
          let words := (List.range (wrqWords f)).map fun i => BitVec.ofNat 32 (c.val (2 + i) t)
          let (x, s) := s.writeEnqueue a words (q.headD 0)
          .ok (c.loadLater .wrq (loadDest f.dst t 1) 2 4 t ea x s)
  | _, _, _ => .ok s

/-- The demand of WRQ on `n` bytes. -/
def wrqReq (n : Nat) : AccReq := { size := n, align := 4, access := .wr, window := false }

/-- WRQ. -/
def execWrq (h : Head) (f : FormQ) (s : State) : Host.Outcome State Fault Refusal :=
  issue (.wrq h f) h (accessOnly
    { srcs := [addrSrc 1 f.a, addrSrc 3 f.c] ++ wrqRun f, dst := some { code := f.dst, acc := [.v, .zero], tag := 2 } })
    (fun c => c.outsideTx <|
      let (pay, s) := c.check (wrqReq (4 * wrqWords f)) (c.addr 0)
      let (que, s) := ({ c with s := s } : Ctx).check (wrqReq 4) (c.addr 1)
      c.turns s.noteStore (c.wrqAct f pay que)) s

end Sys2Proof.Machine
end

