-- ==== Sys2Proof/Machine/CrossThread.lean ====
section
/-! DEFINITION. Cross-thread exchange, groups, and team reductions and scans (R207 to R231). -/
namespace Sys2Proof.Machine

/-! ## Operands and groups (R209, R212) -/

/-- An xv operand. -/
def xvSrc (field : Nat) (c : Code) (n : Nat) (tags : List (BitVec 5)) : Src :=
  { field := field, arg := .code c, acc := [.v, .zero], regs := n, tags := tags }

/-- A part operand. -/
def partSrc (field : Nat) (c : Code) : Src := { field := field, arg := .code c, acc := [.g, .zero] }

/-- A v destination. -/
def vDst (c : Code) (n : Nat) (tag : BitVec 5) : Dst := { code := c, acc := [.v], regs := n, tag := tag }

/-- A lane instruction over the snapshot of all threads (R207). -/
def gathers (srcs : List Src) (d : Dst) : Spec := { srcs := srcs, dst := some d, carries := true, gather := true }

/-- The same with the source modifier of form R. -/
def gathersR (f : FormR) (srcs : List Src) (d : Dst) : Spec := { gathers srcs d with smod := f.smod, mtgt := f.mtgt }

/-- Writes the results of some threads (R207): registers, conditions and %seed. -/
def Ctx.deliver (c : Ctx) (rs : List (Nat × LaneRes)) (s : State) : State :=
  let s := c.write rs s
  s.setPod (conditions rs s.pod)

/-- The lowest thread of the group of thread `t` under start mask `g` (R209): bit 0 reads as 1. -/
def groupLo (g : Mask) : Nat → Nat
  | 0 => 0
  | t + 1 => if g.getLsbD (t + 1) then t + 1 else groupLo g t

/-- The first thread at or after `t` that starts a group, at most `n` threads on (R209). -/
def groupEnd (g : Mask) : Nat → Nat → Nat
  | 0, t => t
  | n + 1, t => if g.getLsbD t then t else groupEnd g n (t + 1)

/-- The threads of a list in the group of thread `t`. -/
def sameGroup (g : Mask) (t : Nat) (l : List Nat) : List Nat := l.filter fun u => groupLo g u = groupLo g t

/-- The start mask of source `i`: the zero code is a single group. -/
def Ctx.part (c : Ctx) (i : Nat) : Mask := BitVec.ofNat 128 (c.val i 0)

/-! ## Shuffles and broadcasts (R215 to R217) -/

/-- The source thread of SHFL (R215). -/
def shflThread (mode seg t b : Nat) : Nat :=
  let lo := t - t % seg
  match mode with
  | 0 => lo + b % seg
  | 1 => if b ≤ t - lo then t - b else t
  | 2 => if t + b < lo + seg then t + b else t
  | _ => lo + ((t - lo) ^^^ (b % seg))

/-- SHFL. -/
def execShfl (h : Head) (f : FormRI) (s : State) : Host.Outcome State Fault Refusal :=
  let n := if f.flags.getLsbD 0 then 2 else 1
  let a := xvSrc 1 f.a n []
  issue (.shfl h f) h
    { gathers [a, { field := 2, arg := f.argB 32, acc := valAcc, tags := [1, 2] }] (vDst f.dst n (s.commonTag [a])) with
      smod := f.smod, mtgt := f.mtgt } (fun c =>
    let seg := min (2 ^ f.ty.toNat) c.s.pod.width
    .done (c.deliver (c.eff.map fun t =>
      (t, { val := c.val 0 (shflThread (bits f.flags.toNat 1 2) seg t (c.val 1 t)) })) c.s) 0) s

/-- PERM: the highest sender wins (R216). -/
def execPerm (h : Head) (f : FormR) (s : State) : Host.Outcome State Fault Refusal :=
  let n := if f.flags.getLsbD 0 then 2 else 1
  let a := xvSrc 1 f.a n []
  issue (.perm h f) h
    (gathersR f [a, { field := 2, arg := .code f.b, acc := valAcc, tags := [1, 2] }] (vDst f.dst n (s.commonTag [a]))) (fun c =>
    let dest := fun t => c.val 1 t % c.s.pod.width
    .done (c.deliver (c.eff.filterMap fun u =>
      match c.eff.reverse.find? fun t => dest t = u with
      | none => none
      | some t => some (u, { val := c.val 0 t })) c.s) 0) s

/-- GBCAST (R217). -/
def execGbcast (h : Head) (f : FormR) (s : State) : Host.Outcome State Fault Refusal :=
  let n := if f.flags.getLsbD 0 then 2 else 1
  let a := xvSrc 1 f.a n []
  issue (.gbcast h f) h
    (gathersR f [a, partSrc 2 f.b, { field := 3, arg := .code f.c, acc := uniAcc, uni := true }]
      (vDst f.dst n (s.commonTag [a]))) (fun c =>
    let g := c.part 1
    .done (c.deliver (c.eff.map fun t =>
      let lo := groupLo g t
      let len := groupEnd g (c.s.pod.width - (t + 1)) (t + 1) - lo
      (t, { val := c.val 0 (lo + c.val 2 0 % len) })) c.s) 0) s

/-! ## Votes, ballots and matches (R218 to R221) -/

/-- VOTEA and VOTEN. -/
def vote (i : Instr) (h : Head) (f : FormR) (all : Bool) (s : State) : Host.Outcome State Fault Refusal :=
  issue i h (gathersR f [predSrc 1 f.a, partSrc 3 f.c] (predDst f.dst)) (fun c =>
    let g := c.part 1
    let holds := fun t => c.val 0 t != 0
    .done (c.deliver (c.eff.map fun t =>
      let e := sameGroup g t c.eff
      (t, { pred := if all then e.all holds else e.any holds })) c.s) 0) s

/-- VOTEA. -/
def execVotea (h : Head) (f : FormR) (s : State) : Host.Outcome State Fault Refusal := vote (.votea h f) h f true s

/-- VOTEN. -/
def execVoten (h : Head) (f : FormR) (s : State) : Host.Outcome State Fault Refusal := vote (.voten h f) h f false s

/-- BALLOT. -/
def execBallot (h : Head) (f : FormR) (s : State) : Host.Outcome State Fault Refusal :=
  issue (.ballot h f) h (gathersR f [predSrc 1 f.a] { code := f.dst, acc := [.v, .k], tag := 2 }) (fun c =>
    let m := maskOf (c.eff.filter fun t => c.val 0 t != 0)
    .done (c.deliver (c.eff.map fun t => (t, { val := bits m.toNat (32 * bits f.flags.toNat 0 2) 32 })) c.s) 0) s

/-- MATCH. -/
def execMatchOp (h : Head) (f : FormR) (s : State) : Host.Outcome State Fault Refusal :=
  let n := if f.flags.getLsbD 0 then 2 else 1
  let all := f.flags.getLsbD 2
  issue (.matchOp h f) h (gathersR f [xvSrc 1 f.a n []] (if all then predDst f.dst else vDst f.dst 1 2)) (fun c =>
    let same := c.eff.all fun u => c.eff.all fun t => c.val 0 u = c.val 0 t
    .done (c.deliver (c.eff.map fun t =>
      (t, { pred := same
            val := (maskOf (c.eff.filter fun u => c.val 0 u = c.val 0 t)).toNat % 2 ^ 32 })) c.s) 0) s

/-- ELECT. -/
def execElect (h : Head) (f : FormR) (s : State) : Host.Outcome State Fault Refusal :=
  issue (.elect h f) h (gathersR f [partSrc 1 f.a] (predDst f.dst)) (fun c =>
    let g := c.part 0
    .done (c.deliver (c.eff.map fun t => (t, { pred := (sameGroup g t c.eff).headD t = t })) c.s) 0) s

/-! ## Building groups (R222 to R224) -/

/-- A g destination. -/
def gDst (c : Code) : Dst := { code := c, acc := [.g] }

/-- The threads of a list that start a run of equal keys. -/
def runStarts (key : Nat → Nat) : List Nat → Option Nat → List Nat
  | [], _ => []
  | t :: ts, prev => if prev = some (key t) then runStarts key ts prev else t :: runStarts key ts (some (key t))

/-- PART. -/
def execPart (h : Head) (f : FormR) (s : State) : Host.Outcome State Fault Refusal :=
  let n := if f.flags.getLsbD 0 then 2 else 1
  issue (.part h f) h (gathersR f [xvSrc 1 f.a n []] (gDst f.dst)) (fun c =>
    .done (c.put (maskOf (runStarts (c.val 0) c.eff none)).toNat c.s) 0) s

/-- The start mask of GMASK.seg: a bit at every multiple of `seg`. -/
def segMask (seg width : Nat) : Mask := maskOf ((List.range width).filter fun t => t % seg = 0)

/-- Whether a number is a power of two from 2 to 128. -/
def segOk (n : Nat) : Bool := [2, 4, 8, 16, 32, 64, 128].contains n

/-- GMASK (R223); a bad `.seg` value is a check of its operand (R85; log 29). -/
def execGmask (h : Head) (f : FormRI) (s : State) : Host.Outcome State Fault Refusal :=
  let op := f.low.toNat
  let uniform := op < 2
  let b : Src := if uniform then { field := 2, arg := f.argB 32, acc := uniAcc, uni := true }
                 else { field := 2, arg := f.argB 32, acc := [.g, .zero] }
  let immBad := match f with
    | .i _ => !uniform
    | .r _ => false
  issue (.gmask h f) h
    { srcs := [{ partSrc 1 f.a with acc := if uniform then [.zero] else [.g, .zero] }, b], dst := some (gDst f.dst)
      smod := f.smod, mtgt := f.mtgt, pod := true, bad := immBad || (op == 0 && !segOk (s.argVal (f.argB 32))) } (fun c =>
    let w := c.s.pod.width
    let y := c.val 1 0
    let a := c.val 0 0
    let r := match op with
      | 0 => (segMask y w).toNat
      | 1 => y % 2 ^ 32
      | 2 => a &&& y
      | 3 => a ||| y
      | 4 => a ^^^ y
      | _ => a &&& (2 ^ 128 - 1 - y % 2 ^ 128)
    .done (c.put r c.s) 0) s

/-- AMASK (R224). -/
def execAmask (h : Head) (f : FormR) (s : State) : Host.Outcome State Fault Refusal :=
  issue (.amask h f) h { dst := some (gDst f.dst), smod := f.smod, mtgt := f.mtgt, pod := true } (fun c =>
    .done (c.put c.act.toNat c.s) 0) s

/-! ## Reductions and scans (R225 to R227) -/

/-- Integer reduction (R226). -/
def redInt (op : Nat) (ty : BitVec 3) (sat : Nat) (xs : List Nat) : LaneRes :=
  let w := tyWidth ty
  let vs := xs.map (getInt ty)
  let (lo, hi) := tyRange ty
  match op with
  | 0 =>
    let x := vs.foldl (· + ·) 0
    let y := if sat = 0 then x else if sat = 1 then max lo (min hi x) else max 0 (min hi x)
    { val := wrap w y, fl := if y = x || sat = 0 then 0 else condSat }
  | 1 => { val := wrap w (vs.foldl min hi) }
  | 2 => { val := wrap w (vs.foldl max lo) }
  | 3 => { val := xs.foldl (fun a b => a &&& b) (2 ^ w - 1) }
  | 4 => { val := xs.foldl (fun a b => a ||| b) 0 }
  | _ => { val := xs.foldl (fun a b => a ^^^ b) 0 }

/-- The exact sum of R226: an exact zero sum is -0 only if every contribution is -0. -/
def redSum (F : Fmt) (xs : List Nat) : Num × BitVec 6 :=
  let ns := xs.map F.decode
  let (x, fl) := sumNums ns
  (if !ns.isEmpty && ns.all fun n => n.isZero && n.neg then .zero true else x, fl)

/-- Float reduction (R226). -/
def redFlt (op : Nat) (wide : Bool) (mode sat : Nat) (seed : Word) (xs : List Nat) : LaneRes :=
  let F := scalarFmt wide
  let sig := sigInv F xs
  let nan := xs.any fun x => F.decode x = .nan
  match op with
  | 0 =>
    let (x, fl) := redSum F xs
    let r := F.round x mode sat false seed
    { r.res mode with fl := r.fl ||| fl ||| sig }
  | n =>
    let empty := F.signed (n = 2) F.infinity
    { val := if nan then F.canon else xs.foldl (fun a b => (minMax F (n = 2) false a b).1) empty, fl := sig }

end Sys2Proof.Machine

namespace Sys2Proof

open Machine

/-- The reduction of R226 of a Q-form group D instruction. -/
def FormQ.reduce (f : FormQ) (seed : Word) (xs : List Nat) : LaneRes :=
  if 4 ≤ f.redTy then redFlt f.redOp (f.redTy = 5) f.rnd f.sat seed xs
  else redInt f.redOp (BitVec.ofNat 3 f.redTy) f.sat xs

/-- Registers of the type. -/
def FormQ.redRegs (f : FormQ) : Nat := if f.redTy = 2 ∨ f.redTy = 3 ∨ f.redTy = 5 then 2 else 1

/-- Tag of the type. -/
def FormQ.redTag (f : FormQ) : BitVec 5 :=
  if f.redTy = 4 then 3 else if f.redTy = 5 then 4 else tyTag (BitVec.ofNat 3 f.redTy)

/-- A float add belongs to class FFMA (R214). -/
def FormQ.redCls (f : FormQ) : Option Nat := if f.redOp = 0 ∧ 4 ≤ f.redTy then fmaCls (f.redTy = 5) else none

/-- `.excl`, desc [34]. -/
def FormQ.excl (f : FormQ) : Bool := f.desc.getLsbD 5

end Sys2Proof

namespace Sys2Proof.Machine

/-- GRED (R227). -/
def execGred (h : Head) (f : FormQ) (s : State) : Host.Outcome State Fault Refusal :=
  issue (.gred h f) h
    { gathers [xvSrc 1 f.a f.redRegs [f.redTag], partSrc 2 f.b]
        { code := f.dst, acc := [.v, .k], regs := f.redRegs, tag := f.redTag } with
      cls := f.redCls, bad := isK f.dst && f.b != 1023 } (fun c =>
    let g := c.part 1
    let ts := if isK f.dst then c.eff.take 1 else c.eff
    .done (c.deliver (ts.map fun t => (t, f.reduce (c.seed t) ((sameGroup g t c.eff).map (c.val 0)))) c.s) 0) s

/-- GSCAN (R227). -/
def execGscan (h : Head) (f : FormQ) (s : State) : Host.Outcome State Fault Refusal :=
  issue (.gscan h f) h
    { gathers [xvSrc 1 f.a f.redRegs [f.redTag], partSrc 2 f.b] (vDst f.dst f.redRegs f.redTag) with cls := f.redCls } (fun c =>
    let g := c.part 1
    .done (c.deliver (c.eff.map fun t =>
      let e := (sameGroup g t c.eff).filter fun u => if f.excl then u < t else u ≤ t
      (t, f.reduce (c.seed t) (e.map (c.val 0)))) c.s) 0) s

/-! ## Sorting (R228) -/

/-- The place of a key in the order of its type. -/
def sortKey (ty x : Nat) : Int :=
  match ty with
  | 0 => signed 32 x
  | 1 => (x % 2 ^ 32 : Nat)
  | _ =>
    if Fmt.f32.decode x = .nan then (2 ^ 33 : Nat)
    else if bit x 31 then -((x % 2 ^ 31 : Nat) : Int) - 1 else (x % 2 ^ 31 : Nat)

/-- GSORT. -/
def execGsort (h : Head) (f : FormQ) (s : State) : Host.Outcome State Fault Refusal :=
  let ty := bits f.desc.toNat 9 3
  let tag : BitVec 5 := if ty = 0 then 1 else if ty = 1 then 2 else 3
  let b := xvSrc 2 f.b 1 []
  let zeroB := (classOf f.b).1 == .zero
  let tagB : BitVec 5 := if zeroB then 2 else s.commonTag [b]
  issue (.gsort h f) h
    (gathers [xvSrc 1 f.a 1 [tag], b, partSrc 3 f.c] (vDst f.dst 2 tag)) (fun c =>
    let g := c.part 2
    let le := fun x y =>
      let i := sortKey ty (c.val 0 x)
      let j := sortKey ty (c.val 0 y)
      if bit f.desc.toNat 8 then decide (j ≤ i) else decide (i ≤ j)
    let los := (c.eff.map (groupLo g)).eraseDups
    let rs := los.flatMap fun lo =>
      let e := c.eff.filter fun t => groupLo g t = lo
      (e.zip (sortBy le e)).map fun x =>
        (x.1, ({ val := c.val 0 x.2 + 2 ^ 32 * (if zeroB then x.2 else c.val 1 x.2) } : LaneRes))
    let s := c.deliver rs c.s
    .done (s.setPod (s.pod.wrTags tagB ((classOf f.dst).2 + 1) 1)) 0) s

/-! ## Team reductions and scans (R229 to R231) -/

/-- Replaces the instance of a slice. -/
def Team.setInst (t : Team) (sl : Slice) (i : Option CollInst) : Team :=
  { t with insts := t.insts.filter (fun x => x.slice ≠ sl) ++ i.toList }

/-- Raises a cause, before its instruction, in one pod. -/
def State.raiseIn (s : State) (p : PodId) (c : Cause) : State :=
  let s := s.switchTo p
  if s.pod.id = p then s.raise (s.pod.before c 0 0 0) else s

/-- A mismatched arrival: ILLEGAL_OP in every pod that has arrived and in the issuing one; the instance is dissolved, and later
arrivals fault too (R230). -/
def State.dissolve (s : State) (inst : CollInst) : State :=
  let me := s.pod.id
  let others := (s.podsOf me.team).filter fun p => p.id ≠ me && p.id.slice == me.slice && p.atColl
  let n := inst.parts.length + 1
  let all := (s.podsOf me.team).filter fun p => p.id.slice == me.slice && !p.done
  let left := if inst.dead || n < all.length then
      some { inst with dead := true, parts := inst.parts ++ [⟨me.idx, 0, 0, []⟩] } else none
  let left := match left with
    | some i => if all.all fun p => i.parts.any fun x => x.pod = p.id.idx then none else some i
    | none => none
  let s := s.setTeam (s.team.setInst me.slice left)
  (((s.orderedPods me.team).filter fun p => p.id = me || others.any fun q => q.id = p.id).foldl
    (fun s p => s.raiseIn p.id .illegalOp) s).switchTo me

/-- TRED and TSCAN: a pod arrives with its contributions, which take a lane cycle each, and waits (R208, R229, R230). -/
def collArrive (i : Instr) (h : Head) (f : FormQ) (scan : Bool) (s : State) : Host.Outcome State Fault Refusal :=
  issue i h
    { gathers [xvSrc 1 f.a f.redRegs [f.redTag]]
        { code := f.dst, acc := if scan then [.v] else [.v, .k], regs := f.redRegs, tag := f.redTag } with
      cls := f.redCls, arrives := true, late := s.pod.lateUnless true } (fun c =>
    let s := c.s
    let sl := s.pod.id.slice
    if s.pod.atColl then .hold .coll s
    else
      let mine : CollPart := ⟨s.pod.id.idx, f.dst, c.mask, c.eff.map fun t => (t, c.val 0 t)⟩
      let new : CollInst := { slice := sl, scan := scan, desc := f.desc, flags := f.flags, toK := isK f.dst, parts := [],
                              dead := false }
      let here := (s.podsOf s.pod.id.team).filter fun p => p.id.slice == sl && p.atColl
      -- parts of pods that no longer wait here have been withdrawn (R231)
      let inst := match s.team.insts.find? fun x => x.slice = sl with
        | none => new
        | some x =>
          if x.dead then x
          else if here.isEmpty then new
          else { x with parts := x.parts.filter fun y => here.any fun p => p.id.idx = y.pod }
      let same := !inst.dead && inst.scan == scan && inst.desc == f.desc && inst.flags == f.flags && inst.toK == isK f.dst
      if !same then .stay (s.dissolve inst)
      else
        let s := s.setTeam (s.team.setInst sl (some { inst with parts := inst.parts ++ [mine] }))
        let s := s.countIssue s.core c.uni (if c.uni then some 0 else some c.eff.length)
        .hold .coll ((s.setPod { s.pod with arrived := true }).tickle)) s

/-- TRED. -/
def execTred (h : Head) (f : FormQ) (s : State) : Host.Outcome State Fault Refusal := collArrive (.tred h f) h f false s

/-- TSCAN. -/
def execTscan (h : Head) (f : FormQ) (s : State) : Host.Outcome State Fault Refusal := collArrive (.tscan h f) h f true s

/-- The instruction that the parts of an instance were brought by: the fields its delivery reads. -/
def CollInst.form (i : CollInst) (dst : Code) : FormQ :=
  { dst := dst, a := 1023, b := 0, c := 0, desc := i.desc, flags := i.flags }

/-- The contributions of an instance in order: ascending %pod, then ascending thread (R229). -/
def CollInst.contributions (i : CollInst) : List (Nat × Nat × Nat) :=
  (sortBy (fun a b => decide (a.pod ≤ b.pod)) i.parts).flatMap fun x => x.vals.map fun y => (x.pod, y.1, y.2)

/-- One pod receives its results in its delivering pass and passes its TRED or TSCAN (R208, R229, R230). -/
def State.deliverPart (s : State) (t : TeamId) (i : CollInst) (x : CollPart) : State :=
  let s := s.switchTo ⟨t, i.slice, x.pod⟩
  let f := i.form x.dst
  let all := i.contributions
  let eff := threadsOf s.pod.width x.eff
  let act := s.pod.active
  let c : Ctx := ⟨s, gathers [] { code := x.dst, acc := [], regs := f.redRegs, tag := f.redTag }, ⟨false, 0, 0, 15, 15⟩, s.pod.pc,
    eff, act, false, s.pod⟩
  let ts := if i.toK then eff.take 1 else eff
  let s := c.deliver (ts.map fun u =>
    let xs := if i.scan then all.filter fun y => y.1 < x.pod || y.1 = x.pod && (if f.excl then y.2.1 < u else y.2.1 ≤ u) else all
    (u, f.reduce (c.seed u) (xs.map (·.2.2)))) s
  let s := s.setPod { s.pod with arrived := false, collDone := s.pod.collDone + 1 }
  (s.countLanes s.core (some eff.length)).complete c.this s.pod.depth act 0

/-- Delivers the complete instance of a slice (R230). -/
def State.deliverColl (s : State) (t : TeamId) (i : CollInst) : State :=
  let s := i.parts.foldl (fun s x => s.deliverPart t i x) s
  s.onTeam t fun m => { m.setInst i.slice none with
    trxN := m.trxN + (if i.slice = .execute then 1 else 0), tranN := m.tranN + (if i.slice = .access then 1 else 0) }

/-- The open instance of a slice when every non-exited pod has arrived, with the parts of the pods that wait at it: one that has left its
wait and exited no longer counts (R230). -/
def State.collReady (s : State) (t : TeamId) (sl : Slice) : Option CollInst :=
  match s.findTeam t with
  | none => none
  | some m =>
    if !s.collFull t sl then none
    else
      let here := (s.podsOf t).filter fun p => p.id.slice == sl && p.atColl
      let inst := (m.insts.find? fun x => x.slice = sl && !x.dead).map fun i =>
        { i with parts := i.parts.filter fun x => here.any fun p => p.id.idx = x.pod }
      inst.filter fun i => !i.parts.isEmpty

/-- TRED_INSTANCE_DELIVERY: nothing while the instance is open. -/
def execTredInstanceDelivery (t : TeamId) (sl : Slice) (s : State) : Host.Outcome State Fault Refusal :=
  match s.collReady t sl with
  | none => .next s
  | some i => .next (s.deliverColl t i)

end Sys2Proof.Machine
end

