-- ==== Sys2Proof/Machine/Copies.lean ====
section
/-! DEFINITION. Copies: CPY, the waits on copy tags, TIERCP, and the work of the copy
engines (R366 to R369). -/
namespace Sys2Proof.Machine

/-! ## Pieces -/

/-- How a piece of a copy goes: moved, ended by a fault at an address, waiting for peers, or held back by a locked line. -/
inductive Piece
  | moved (s : State)
  | failed (c : Cause) (addr : Dword) (s : State)
  | asked (s : State)
  | blocked
deriving DecidableEq, Repr

/-- The bytes of a piece reach their destination: the plain shared region, home, or peers (R338, R367). -/
def State.putPiece (s : State) (o : Op) (t : Team) (dst : Dword) (sd : Bool) (ws : List Nat) (bs : List Byte) : Piece :=
  if sd then
    .moved ((s.onTeam t.id fun t => t.putShared s.tick dst.toNat bs).onOp o.token fun o => { o with asks := [] }).tickle
  else
    let here := (ws.zip bs).filter fun x => !(areaOf x.1).isPeer
    let s := s.writeHomeAll t.id (here.map (·.1)) (here.map (·.2))
    match s.askWrite 3 ws bs with
    | ([], s) => .moved (s.onOp o.token fun o => { o with asks := [] }).tickle
    | (asks, s) => .asked (s.onOp o.token fun o => { o with asks := asks })

/-- Moves `n` bytes, at most 4,096, from a source to a destination (R336, R338, R367): both places are checked first; an operation
that waits for peers goes on from their answers. -/
def State.copyBytes (s : State) (o : Op) (t : Team) (dst src : Dword) (sd ss : Bool) (n : Nat) (tierOk : Bool) : Piece :=
  let (rp, s) := if ss then (.ok [], s) else s.enginePlace t o.core src n .rd tierOk
  let (wp, s) := if sd then (.ok [], s) else s.enginePlace t o.core dst n .wr false
  match rp, wp with
  | .error (c, a), _ => .failed c a s
  | _, .error (c, a) => .failed c a s
  | .ok rs, .ok ws =>
    if ws.any fun pa => s.lockedLine (lineOf pa) then .blocked
    else if s.poisoned rs then .failed .memUncorrectable src s
    else if o.refused then .failed .remoteFault (if o.asks.any (·.wr) then dst else src) s
    else if o.asks.any (·.wr) then
      let lines := ((ws.filter fun pa => (areaOf pa).isPeer).map lineOf).eraseDups
      .moved ((lines.foldl (fun s line => s.peerWritten none line) s).onOp o.token fun o => { o with asks := [] }).tickle
    else if ss && t.sharedBad src.toNat n then .failed .memUncorrectable src s
    else
      if o.asks.isEmpty && rs.any fun pa => (areaOf pa).isPeer then
        let (asks, s) := s.askRead 3 rs
        .asked (s.onOp o.token fun o => { o with asks := asks })
      else
        let (bs, s) := if ss then (t.rdShared src.toNat n, s) else s.engineBytes t rs o.asks
        s.putPiece o t dst sd ws bs

/-! ## CPY (R366, R367) -/

/-- The copy tag and the scope of a copy. -/
def copyTag (f : FormQ) : Nat := bits f.desc.toNat 6 6
def copyScope (f : FormQ) : Nat := bits f.desc.toNat 3 3

/-- Whether a copy on a tag of the team is in flight. -/
def State.inFlight (s : State) (tid : TeamId) (n : Nat) : Bool :=
  s.ops.any fun o => o.pod.team = tid && o.state = .running && o.tagOf = some n

/-- A copy to global memory may issue only in an irrevocable phase (R366). -/
def State.copyBarred (s : State) : Bool := !s.team.irrev || s.team.kernel.shadow

/-- Sets or clears the bit of a copy tag (R339). -/
def Team.setCtag (t : Team) (n : Nat) (x : Bool) : Team :=
  let m : Dword := BitVec.ofNat 64 (2 ^ n)
  { t with ctag := if x then t.ctag ||| m else t.ctag &&& ~~~m }

/-- A place operand of CPY: an address pair, or a plain shared offset. -/
def copySrc (field : Nat) (c : Code) (shared : Bool) : Src :=
  if shared then { field := field, arg := .code c, acc := [.v, .k] } else addrSrc field c

/-- The part of a thread. -/
def Ctx.copyPart (c : Ctx) (t : Nat) : CopyPart :=
  { thread := t, dst := BitVec.ofNat 64 (c.val 0 t), src := BitVec.ofNat 64 (c.val 1 t), len := c.val 2 t % 2 ^ 24,
    done := 0, fault := none }

/-- The shared operand of a part that breaks R304. -/
def CopyPart.bounds (x : CopyPart) (t : Team) (sd ss : Bool) : Option Dword :=
  if sd && !t.sharedOk x.dst.toNat x.len then some x.dst
  else if ss && !t.sharedOk x.src.toNat x.len then some x.src
  else none

/-- CPY. -/
def execCpy (h : Head) (f : FormQ) (s : State) : Host.Outcome State Fault Refusal :=
  let sd := f.flags.getLsbD 8
  let ss := f.flags.getLsbD 7
  issue (.cpy h f) h (accessOnly
    { srcs := [copySrc 1 f.a sd, copySrc 2 f.b ss, { field := 3, arg := .code f.c, acc := [.v, .k, .zero], tags := [2] }] })
    (fun c => c.outsideTx <|
      let n := copyTag f
      let s := c.s
      let start := fun (parts : List CopyPart) =>
        let s := s.setTeam (s.team.setCtag n false)
        (c.issueOp none 15 (.cpy n (copyScope f) sd ss parts) s.noteStore).2
      if s.inFlight s.pod.id.team n then .hold .tag s
      else
        let bad := c.lanes.filterMap fun t => ((c.copyPart t).bounds s.team sd ss).map fun a => (t, a)
        match bad with
        | [] =>
          if !sd && s.copyBarred then c.stop .illegalOp else .done (start (c.lanes.map c.copyPart)) 0
        | (k, a) :: _ =>
          let low := c.lanes.filter fun t => t < k
          if low.isEmpty then
            if c.uni then .raise (s.pod.before .stashBounds 0 0 a) s
            else .raise (s.pod.atThread .stashBounds k (maskOf (bad.map (·.1))) 0 a) s
          else if !sd && s.copyBarred then c.stop .illegalOp
          else
            .raise (s.pod.atThread .stashBounds k (maskOf (bad.map (·.1))) 0 a) (start (low.map c.copyPart))) s

/-- Bytes of the next piece of a part: up to the end of the destination's 128-byte line (R367). -/
def CopyPart.pieceLen (x : CopyPart) : Nat := min (128 - (x.dst.toNat + x.done) % 128) (x.len - x.done)

/-- A part with bytes left. -/
def CopyPart.open_ (x : CopyPart) : Bool := x.fault.isNone && decide (x.done < x.len)

/-- Replaces the first open part. -/
def mapOpen (f : CopyPart → CopyPart) : List CopyPart → List CopyPart
  | [] => []
  | x :: l => if x.open_ then f x :: l else x :: mapOpen f l

/-- Changes the first open part of a CPY. -/
def Op.onOpen (o : Op) (f : CopyPart → CopyPart) : Op :=
  match o.kind with
  | .cpy n sc sd ss parts => { o with kind := .cpy n sc sd ss (mapOpen f parts) }
  | _ => o

/-- COPY_PIECE: the copy engine moves the next piece of a CPY, or ends the thread's copy at a fault (R367). -/
def execCopyPiece (h : Nat) (s : State) : Host.Outcome State Fault Refusal :=
  match s.opTok h with
  | none => .next s
  | some o =>
    match o.kind, s.findTeam o.pod.team with
    | .cpy _ _ sd ss parts, some t =>
      match parts.find? CopyPart.open_ with
      | none => .next s
      | some x =>
        if o.state ≠ .running || !o.answered then .next s
        else
          let off := BitVec.ofNat 64 x.done
          match s.copyBytes o t (x.dst + off) (x.src + off) sd ss x.pieceLen false with
          | .moved s => .next (s.onOp h fun o => o.onOpen fun x => { x with done := x.done + x.pieceLen })
          | .failed c a s =>
            .next (s.onOp h fun o => { o.onOpen (fun x => { x with fault := some (c, a) }) with asks := [] })
          | .asked s => .next s
          | .blocked => .next s
    | _, _ => .next s

/-- COPY_COMPLETE: every thread's copy has come to its end; the tag bit sets if all of them are whole, and the faults wait for an
instruction that covers the tag (R339, R367). -/
def execCopyComplete (h : Nat) (s : State) : Host.Outcome State Fault Refusal :=
  match s.opTok h with
  | none => .next s
  | some o =>
    match o.kind with
    | .cpy n _ _ _ parts =>
      if parts.any CopyPart.open_ then .next s
      else
        let bad := parts.filterMap fun x => x.fault.map fun e =>
          ({ cause := e.1, flags := flagBit o.seta, ctag := some n, next := false, op := none,
             arg := BitVec.ofNat 32 (n + x.thread * 256), addr := e.2 } : Deferred)
        let s := (s.dropFlags o).onPod o.pod fun p => { p with deferred := p.deferred ++ bad }
        let s := if bad.isEmpty then s.onTeam o.pod.team fun t => t.setCtag n true else s
        .next ({ s with ops := s.ops.filter fun x => x.token ≠ h } : State).tickle
    | _ => .next s

/-! ## Copy tags (R368) -/

/-- The mask of copy tags: an even k pair, or an immediate. -/
def tagMaskSrc (a : Arg) : Src := { field := 2, arg := a, acc := [.k], regs := 2 }

/-- The deferred faults of the pod's copies on the tags of `m` (R368). -/
def Pod.tagFaults (p : Pod) (m : Dword) : List Deferred :=
  p.deferred.filter fun d => match d.ctag with
    | some n => m.getLsbD n
    | none => false

/-- A wait on copy tags: faults first, then `ready` decides from the mask and the tags of it that are set. -/
def Ctx.awaitTags (c : Ctx) (ready : Dword → Dword → Bool) (value : Dword → Nat) : Eff :=
  let m := BitVec.ofNat 64 (c.val 0 0)
  match c.s.pod.tagFaults m with
  | d :: ds => .stay (c.s.raiseDeferred (d :: ds))
  | [] =>
    let x := m &&& c.s.team.ctag
    if m = 0 || ready m x then .done (c.outstanding .load [(c.lanes.headD 0, { val := value x })] c.s) 0
    else .hold .tag c.s

/-- The destination of a wait on copy tags. -/
def tagDst (c : Code) (n : Nat) : Dst := { code := c, acc := [.k, .zero], regs := n }

/-- TAGWA. -/
def execTagwa (h : Head) (f : FormRI) (s : State) : Host.Outcome State Fault Refusal :=
  issue (.tagwa h f) h { pod := true, srcs := [tagMaskSrc (f.argB 64)], dst := some (tagDst f.dst 2) } (fun c =>
    c.outsideTx (c.awaitTags (fun m x => x = m) fun x => x.toNat)) s

/-- TAGWN. -/
def execTagwn (h : Head) (f : FormRI) (s : State) : Host.Outcome State Fault Refusal :=
  issue (.tagwn h f) h { pod := true, srcs := [tagMaskSrc (f.argB 64)], dst := some (tagDst f.dst 2) } (fun c =>
    c.outsideTx (c.awaitTags (fun _ x => x ≠ 0) fun x => x.toNat)) s

/-- The lowest tag of a set, or 64. -/
def lowestTag (x : Dword) : Nat := ((List.range 64).find? fun i => x.getLsbD i).getD 64

/-- TAGFF. -/
def execTagff (h : Head) (f : FormR) (s : State) : Host.Outcome State Fault Refusal :=
  issue (.tagff h f) h { pod := true, srcs := [tagMaskSrc (.code f.b)], dst := some (tagDst f.dst 1) } (fun c =>
    c.outsideTx (c.awaitTags (fun _ _ => true) lowestTag)) s

/-! ## TIERCP (R369) -/

/-- Page size of a TIERCP. -/
def tierPageSize (f : FormQ) : Nat :=
  match bits f.desc.toNat 1 2 with
  | 0 => 4096
  | 1 => 65536
  | _ => 2 ^ 21

/-- TIERCP completes: its tag bit and its handle together (R369). -/
def State.finishTier (s : State) (o : Op) (n : Nat) : State :=
  (s.onTeam o.pod.team fun t => t.setCtag n true).completeOp o

/-- TIERCP. -/
def execTiercp (h : Head) (f : FormQ) (s : State) : Host.Outcome State Fault Refusal :=
  issue (.tiercp h f) h
    { pod := true, dst := some (hDst f.dst)
      srcs := [{ field := 1, arg := .code f.a, acc := [.k], regs := 2 }, { field := 2, arg := .code f.b, acc := [.k], regs := 2 },
               { field := 3, arg := .code f.c, acc := [.k, .zero], tags := [2] }] } (fun c => c.outsideTx <|
      let size := tierPageSize f
      let n := copyTag f
      let dst := BitVec.ofNat 64 (c.val 0 0)
      let src := BitVec.ofNat 64 (c.val 1 0)
      let reg := (classOf f.dst).2
      if dst.toNat % size ≠ 0 then .raise (c.s.pod.before .misaligned 0 0 dst) c.s
      else if src.toNat % size ≠ 0 then .raise (c.s.pod.before .misaligned 0 0 src) c.s
      else if c.s.copyBarred then c.stop .illegalOp
      else if c.s.inFlight c.s.pod.id.team n then .hold .tag c.s
      else
        c.afterOld reg fun s =>
          let s := s.setTeam (s.team.setCtag n false)
          let count := c.val 2 0
          let (o, s) := c.issueOp (some reg) 15 (.tiercp dst src count size n (copyScope f)) s.noteStore
          .done (if count = 0 then s.finishTier o n else s) 0) s

/-- Copies the rest of the current page of a TIERCP in pieces of 4 KiB. -/
def tierPage (h : Nat) : Nat → State → Piece
  | 0, s => .moved s
  | n + 1, s =>
    match s.opTok h with
    | none => .blocked
    | some o =>
      match o.kind, s.findTeam o.pod.team with
      | .tiercp dst src _ size _ _, some t =>
        let off := BitVec.ofNat 64 (o.progress * size + o.part)
        match s.copyBytes o t (dst + off) (src + off) false false 4096 true with
        | .moved s =>
          if o.part + 4096 < size then tierPage h n (s.onOp h fun o => { o with part := o.part + 4096 })
          else .moved (s.onOp h fun o => { o with progress := o.progress + 1, part := 0 })
        | x => x
      | _, _ => .blocked

/-- TIERCP_PAGE: the copy engine copies the next page, faults the handle there, or stops there for HCAN (R369, R407). -/
def execTiercpPage (h : Nat) (s : State) : Host.Outcome State Fault Refusal :=
  match s.opTok h with
  | none => .next s
  | some o =>
    match o.kind with
    | .tiercp _ _ count size n _ =>
      if o.state ≠ .running || !o.answered then .next s
      else if o.cancel && o.part = 0 && o.asks.isEmpty then .next (s.completeOp o)
      else
        match tierPage h (size / 4096) s with
        | .moved s =>
          match s.opTok h with
          | none => .next s
          | some o => .next (if o.progress < count then s else s.finishTier o n)
        | .failed c a s => .next ((s.failOp o c 0 a).onOp h fun o => { o with part := 0 })
        | .asked s => .next s
        | .blocked => .next s
    | _ => .next s

end Sys2Proof.Machine
end

