-- ==== Sys2Proof/Machine/Queues.lean ====
section
/-! DEFINITION. Rings: ports and control, pushes, pops, status, reservation, gather and scatter, attached operations, and the
loop-count branch (R376 to R399). -/
namespace Sys2Proof.Machine

/-! ## Port names (R386) -/

/-- The ring behind a port-name field, which neither pops nor pushes. -/
def State.portName (s : State) (c : Code) : Option (Nat × Ring) :=
  match classOf c with
  | (.q, r) => s.portRing r
  | _ => none

/-- The ring of a port-name field, or an empty one of no use where the field names none. -/
def portRingOf (x : Option (Nat × Ring)) : Ring :=
  match x with
  | some (_, r) => r
  | none => { ldepth := 4, tag := 0, prd := 0, pub := 0, con := 0, void := 0, par := false, flt := false, drn := false,
              att := false, map := 0, slots := [], bad := [] }

/-- Whether a port-name field names no bound port, or a ring with a flag that bars the use (R387). -/
def portBad (x : Option (Nat × Ring)) (bar : Ring → Bool) : Bool :=
  match x with
  | some (_, r) => bar r
  | none => true

/-- Room for `n` pushes (R379). -/
def Ring.takes (r : Ring) (n : Nat) : Bool := decide (n ≤ r.room) && decide (r.open_ + n ≤ 64)

/-- Changes a ring of the issuing pod's team, and says that a ring changed. -/
def State.onRing (s : State) (r : Nat) (f : Ring → Ring) : State := (s.setTeam (s.team.onRing r f)).tickle

/-- A void element of a ring's format (R381). -/
def voidOf (tag : BitVec 5) : Nat := if tag = 20 then 0x40404040 else 0

/-- One more void element. -/
def Ring.addVoid (r : Ring) : Ring := if r.void = 0xFFFFFFFF then r else { r with void := r.void + 1 }

/-- STATUS (R378). -/
def Ring.status (r : Ring) : Nat :=
  (if r.par then 1 else 0) + (if r.flt then 2 else 0) + (if r.drn then 4 else 0) + (if r.att then 8 else 0)

/-! ## Ring control (R388) -/

/-- QBIND: the ring must be declared. -/
def execQbind (h : Head) (f : FormQ) (s : State) : Host.Outcome State Fault Refusal :=
  let r := bits f.desc.toNat 7 5
  issue (.qbind h f) h { pod := true, bad := (classOf f.dst).1 != .q || decide (s.team.rings.length ≤ r) } (fun c =>
    let n := (classOf f.dst).2
    .done (c.s.setPod { c.s.pod with q := (n, r) :: c.s.pod.q.filter fun x => x.1 ≠ n }) 0) s

/-- QFREE. -/
def execQfree (h : Head) (f : FormQ) (s : State) : Host.Outcome State Fault Refusal :=
  issue (.qfree h f) h { pod := true, bad := (classOf f.dst).1 != .q } (fun c =>
    let n := (classOf f.dst).2
    .done (c.s.setPod { c.s.pod with q := c.s.pod.q.filter fun x => x.1 ≠ n }) 0) s

/-- The ring of a tile-slot descriptor of kind 2 (R410). -/
def descRing (d : BitVec 256) : List Nat := if bits d.toNat 0 8 = 2 then [bits d.toNat 16 8] else []

/-- The rings that an operation fills or drains. -/
def Op.rings (o : Op) : List Nat :=
  match o.kind with
  | .matrix m => if m.fired then [] else descRing m.descA ++ descRing m.descB
  | .mvs _ _ i out _ fired .. => (if fired then [] else [i]) ++ [out]
  | .svs _ _ out .. => [out]
  | _ => o.attached.toList

/-- Whether an LDQ load or an operation fills or drains a ring of a team (R383, R388). -/
def State.ringBusy (s : State) (tid : TeamId) (r : Nat) : Bool :=
  (s.podsOf tid).any (fun p => p.pend.any fun x => match x.dest with
    | .slot n _ => n == r
    | _ => false) ||
  s.ops.any fun o => o.pod.team = tid && o.state = .running && o.rings.contains r

/-- QFLUSH. -/
def execQflush (h : Head) (f : FormQ) (s : State) : Host.Outcome State Fault Refusal :=
  issue (.qflush h f) h { pod := true, bad := portBad (s.portName f.a) fun _ => false } (fun c =>
    match c.s.portName f.a with
    | none => c.stop .illegalOperand
    | some (r, x) =>
      if c.s.ringBusy c.s.pod.id.team r || x.att || x.drn then .hold (.ring r) c.s
      else .done (c.s.onRing r fun x => { x with con := x.prd, pub := x.prd, map := 0, void := 0, par := false, slots := [],
                                                 bad := [] }) 0) s

/-! ## Push, pop and peek (R391) -/

/-- Writes one outcome to the p register of every effective thread; the zero code discards it. -/
def Ctx.outcome (c : Ctx) (p : Code) (x : Bool) (s : State) : State :=
  match classOf p with
  | (.p, n) => s.setPod (s.pod.wrPred n c.mask (if x then c.mask else 0))
  | _ => s

/-- Whether a code can take an outcome: p1 to p15, or zero. -/
def outcomeOk (p : Code) : Bool :=
  match classOf p with
  | (.p, n) => n != 0
  | (.zero, _) => true
  | _ => false

/-- A value pushed to a ring: its width, and its tag or raw (R108, R151). -/
def pushSrc (c : Code) (x : Ring) : Src :=
  { field := 2, arg := .code c, acc := valAcc, regs := tagRegs x.tag, tags := [x.tag, 0] }

/-- QPUSH. -/
def execQpush (h : Head) (f : FormR) (s : State) : Host.Outcome State Fault Refusal :=
  let port := s.portName f.a
  issue (.qpush h f) h
    { srcs := [pushSrc f.b (portRingOf port)], dst := some { code := f.dst, acc := [.p, .zero] }, smod := f.smod, mtgt := f.mtgt
      bad := portBad port Ring.att || (!f.flags.getLsbD 0 && (classOf f.dst).1 != .zero), carries := true } (fun c =>
    match c.s.portName f.a with
    | none => c.stop .illegalOperand
    | some (r, x) =>
      let n := c.lanes.length
      if x.depth < n then c.stop .illegalOperand
      else if x.takes n then
        .done (c.outcome f.dst true (c.s.onRing r fun x =>
          c.lanes.foldl (fun y t => (y.reserve 1).fill y.prd (c.val 0 t)) x)) 0
      else if f.flags.getLsbD 0 then .done (c.outcome f.dst false c.s) 0
      else .hold (.ring r) c.s) s

/-- The destination of a pop or peek. -/
def popDst (c : Code) (x : Ring) : Dst := { code := c, acc := [.v, .k, .zero], regs := tagRegs x.tag, tag := x.tag }

/-- The conditions on the p register of a pop or peek, and on a k destination beside it (R386). -/
def popBad (f : FormR) : Bool :=
  !outcomeOk f.c || ((classOf f.c).1 != .zero && (!f.flags.getLsbD 0 || isK f.dst))

/-- Its p register makes a pop act per thread (R33, R386). -/
def popThreads (f : FormR) (c : Ctx) : Ctx := { c with uni := c.uni && (classOf f.c).1 == .zero }

/-- Whether the element at slot `c` fails its parity check. -/
def Ring.badAt (r : Ring) (c : Word) : Bool := r.bad.contains (c.toNat % r.depth)

/-- QPOP: a parity error stops at its thread (R384). -/
def execQpop (h : Head) (f : FormR) (s : State) : Host.Outcome State Fault Refusal :=
  let port := s.portName f.a
  issue (.qpop h f) h
    { dst := some (popDst f.dst (portRingOf port)), smod := f.smod, mtgt := f.mtgt, bad := portBad port Ring.drn || popBad f }
    (fun c =>
      let c := popThreads f c
      match c.s.portName f.a with
      | none => c.stop .illegalOperand
      | some (r, x) =>
        let n := c.lanes.length
        let take := fun (ts : List Nat) (s : State) =>
          let rs := ((List.range ts.length).zip ts).map fun y =>
            (y.2, ({ val := x.elem (x.con + BitVec.ofNat 32 y.1) } : LaneRes))
          (c.write rs s).onRing r fun x => x.pop ts.length
        if x.depth < n then c.stop .illegalOperand
        else if !(decide (n ≤ x.occ) && decide (x.open_ ≤ 64)) then
          if f.flags.getLsbD 0 then .done (c.outcome f.c false c.s) 0 else .hold (.ring r) c.s
        else
          match ((List.range n).zip c.lanes).find? fun y => x.badAt (x.con + BitVec.ofNat 32 y.1) with
          | none => .done (c.outcome f.c true (take c.lanes c.s)) 0
          | some (j, k) =>
            let s := (take (c.lanes.take j) c.s).onRing r fun x => { x with par := true }
            let fails := ((List.range n).zip c.lanes).filterMap fun y =>
              if x.badAt (x.con + BitVec.ofNat 32 y.1) then some y.2 else none
            .raise (if c.uni then c.s.pod.before .memUncorrectable 0 0 0 else c.s.pod.atThread .memUncorrectable k (maskOf fails) 0 0) s)
    s

/-- QPEEK. -/
def execQpeek (h : Head) (f : FormR) (s : State) : Host.Outcome State Fault Refusal :=
  let port := s.portName f.a
  issue (.qpeek h f) h
    { srcs := [uniSrc 2 (.code f.b)], dst := some (popDst f.dst (portRingOf port)), smod := f.smod, mtgt := f.mtgt
      bad := portBad port Ring.drn || popBad f } (fun c =>
      let c := popThreads f c
      match c.s.portName f.a with
      | none => c.stop .illegalOperand
      | some (r, x) =>
        let n := c.lanes.length
        let off := c.val 0 0
        if x.depth < off + n then c.stop .illegalOperand
        else if x.occ < off + n then
          if f.flags.getLsbD 0 then .done (c.outcome f.c false c.s) 0 else .hold (.ring r) c.s
        else
          let rs := ((List.range n).zip c.lanes).map fun y =>
            (y.2, ({ val := x.elem (x.con + BitVec.ofNat 32 (off + y.1)) } : LaneRes))
          .done (c.outcome f.c true (c.write rs c.s)) 0) s

/-! ## Status, reservation, publication and waits (R392 to R394) -/

/-- The value of a QSTAT selector (R393). -/
def Ring.stat (r : Ring) (sel : Nat) : Nat :=
  match sel with
  | 0 => r.occ
  | 1 => r.room
  | 2 => r.void.toNat
  | 3 => r.status
  | 4 => r.depth
  | _ => (r.prd - r.con).toNat

/-- QSTAT: pod-level with a k destination. -/
def execQstat (h : Head) (f : FormR) (s : State) : Host.Outcome State Fault Refusal :=
  let port := s.portName f.a
  issue (.qstat h f) h
    { pod := isK f.dst, dst := some { code := f.dst, acc := [.v, .k], tag := 2 }, smod := f.smod, mtgt := f.mtgt
      bad := portBad port fun _ => false } (fun c =>
    match c.s.portName f.a with
    | none => c.stop .illegalOperand
    | some (r, x) =>
      let v := x.stat (bits f.flags.toNat 0 3)
      let s := if f.flags.getLsbD 3 then c.s.onRing r fun x => { x with void := 0 } else c.s
      .done (c.write (c.lanes.map fun t => (t, { val := v })) s) 0) s

/-- QRES; its count is a check of an operand's value (R85; log 29). -/
def execQres (h : Head) (f : FormQ) (s : State) : Host.Outcome State Fault Refusal :=
  issue (.qres h f) h
    { pod := true, srcs := [uniSrc 2 (.code f.b)], dst := some { code := f.dst, acc := [.k] }
      bad := portBad (s.portName f.a) fun x =>
        let n := s.argVal (.code f.b)
        x.att || n == 0 || decide (64 < n) || decide (x.depth < n) } (fun c =>
    match c.s.portName f.a with
    | none => c.stop .illegalOperand
    | some (r, x) =>
      let n := c.val 0 0
      if x.takes n then .done (c.put x.prd.toNat (c.s.onRing r fun x => x.reserve n)) 0
      else .hold (.ring r) c.s) s

/-- Whether slot `c` is reserved and not filled. -/
def Ring.openSlot (r : Ring) (c : Word) : Bool :=
  let i := (c - r.pub).toNat
  decide (i < r.open_) && !r.map.getLsbD i

/-- QPUB: every slot is checked before any write. -/
def execQpub (h : Head) (f : FormQ) (s : State) : Host.Outcome State Fault Refusal :=
  let port := s.portName f.a
  issue (.qpub h f) h
    { srcs := [pushSrc f.b (portRingOf port), { field := 3, arg := .code f.c, acc := valAcc }], bad := portBad port Ring.att
      carries := true, lanewise := true } (fun c =>
    match c.s.portName f.a with
    | none => c.stop .illegalOperand
    | some (r, x) =>
      let cs := c.lanes.map fun t => (t, BitVec.ofNat 32 (c.val 1 t))
      let slots := cs.map (·.2)
      if slots.all (fun w => x.openSlot w && slots.count w = 1) then
        .done (c.s.onRing r fun x => cs.foldl (fun y e => y.fill e.2 (c.val 0 e.1)) x) 0
      else c.stop .illegalOperand) s

/-- QWAIT; its threshold is a check of an operand's value (R85; log 29). -/
def execQwait (h : Head) (f : FormRI) (s : State) : Host.Outcome State Fault Refusal :=
  let flags := match f with
    | .r f => f.flags
    | .i f => f.flags
  issue (.qwait h f) h
    { pod := true, srcs := [uniSrc 2 (f.argB 32)], dst := some (kDst f.dst), smod := f.smod, mtgt := f.mtgt
      bad := portBad (s.portName f.a) fun x => decide (x.depth < s.argVal (f.argB 32)) } (fun c =>
    match c.s.portName f.a with
    | none => c.stop .illegalOperand
    | some (r, x) =>
      let n := c.val 0 0
      let have_ := if flags.getLsbD 1 then x.room else x.occ
      if n ≤ have_ then .done (c.put have_ c.s) 0
      else .hold (.ring r) c.s) s

/-! ## Gather and scatter (R395) -/

/-- Whether a size, a tag or a ring breaks the rules of LDQ and STQ. -/
def FormM_ringBad (f : FormM) (port : Option (Nat × Ring)) : Bool :=
  portBad port fun x =>
    let e := 4 * tagRegs x.tag
    let n := sizeBytes f.size
    (if n < 4 then e != 4 else n != e) || (f.typed && (f.tagBad || f.tag != x.tag))

/-- One thread's LDQ: the next slot is reserved for it; a suppressed failure fills it with a void element at once (R381). -/
def Ctx.ldqTurn (c : Ctx) (f : FormM) (r : Nat) (chk : List (Nat × Dword × Checked)) (t : Nat) (s : State) : Act :=
  let (ea, k) := checkedOf chk t
  match s.team.ring r with
  | none => .ok s
  | some x =>
    let slot := x.prd
    match k with
    | .error (y, arg, a) =>
      if f.nf && nfCause y then .ok (s.onRing r fun x => ((x.reserve 1).fill slot (voidOf x.tag)).addVoid)
      else .fault y arg a s
    | .ok p =>
      let ask := fun (s : State) => s.loadAt p (sizeBytes f.size) (f.scope = 5) false
      let put := fun (v : Loaded) (s : State) => Act.ok
        (c.loadLater (if f.nf then .ldqNf else .ldq) (.slot r slot.toNat) f.tag (sizeBytes f.size) t ea v
          (s.onRing r fun x => x.reserve 1) (f.order.getLsbD 0))
      if f.tag = 17 ∨ f.tag = 18 then
        match s.awaitChecked t ea (sizeBytes f.size) ask with
        | (.error y, _) => y
        | (.ok v, s') => if !v.uncorr && !v.refused && packedBad f.tag v then .fault .formatMismatch 0 0 s else put v s'
      else
        match ask s with
        | (.error y, _) => y.act
        | (.ok v, s') => put v s'

/-- LDQ. -/
def execLdq (h : Head) (f : FormM) (s : State) : Host.Outcome State Fault Refusal :=
  let port := s.portName f.data
  issue (.ldq h f) h (accessOnly { srcs := f.eaSrcs, bad := FormM_ringBad f port || portBad port Ring.att, lanewise := true }) (fun c => c.outsideTx <|
    match c.s.portName f.data with
    | none => c.stop .illegalOperand
    | some (r, x) =>
      let n := c.lanes.length
      if x.depth < n then c.stop .illegalOperand
      else if !x.takes n then .hold (.ring r) c.s
      else
        let (chk, s) := c.check { f.req .rd with mmio := true } (c.ea f 0)
        c.turns s (c.ldqTurn f r chk)) s

/-- Goes on after a turn that has had its effect. -/
def Act.after (x : Act) (f : State → State) : Act :=
  match x with
  | .ok s => .ok (f s)
  | .moved s => .moved (f s)
  | .linger s => .linger (f s)
  | y => y

/-- One thread's STQ: it stores the low bytes of the head element, and pops it. -/
def stqTurn (f : FormM) (r : Nat) (chk : List (Nat × Dword × Checked)) (t : Nat) (s : State) : Act :=
  let (ea, k) := checkedOf chk t
  match k, s.team.ring r with
  | .error (x, arg, a), _ => .fault x arg a s
  | .ok _, none => .ok s
  | .ok p, some x =>
    if x.badAt x.con then .fault .memUncorrectable 0 0 (s.onRing r fun x => { x with par := true })
    else
      (s.storeAt ea.toNat p (toBytes (sizeBytes f.size) (x.elem x.con)) f.scope.toNat (f.order.getLsbD 1)).after fun s =>
        s.onRing r fun x => x.pop 1

/-- STQ. -/
def execStq (h : Head) (f : FormM) (s : State) : Host.Outcome State Fault Refusal :=
  let port := s.portName f.data
  issue (.stq h f) h (accessOnly { srcs := f.eaSrcs, bad := FormM_ringBad f port || portBad port Ring.drn, lanewise := true }) (fun c => c.outsideTx <|
    match c.s.portName f.data with
    | none => c.stop .illegalOperand
    | some (r, x) =>
      -- of threads that go on after an acknowledgement, the first has stored
      let ts := if c.s.pod.lingers then c.lanes.drop 1 else c.lanes
      if x.depth < ts.length then c.stop .illegalOperand
      else if x.occ < ts.length then
        if !c.s.pod.lingers then .hold (.ring r) c.s
        else if c.s.hasRemote c.s.pod.id.team then .hold .ack c.s
        else c.holdAt (ts.headD 0) (.ring r) false (c.s.setPod { c.s.pod with wait := none })
      else
        let (chk, s) := c.check { f.req .wr with mmio := true } (c.ea f 0)
        c.turns s.noteStore (stqTurn f r chk)) s

/-! ## Remote reads, subscriptions and drains (R390, R396 to R398) -/

/-- The port-name field in the descriptor of RRDQ, SUBS and DRAINQ. -/
def descPort (f : FormQ) : Code := BitVec.ofNat 10 (704 + bits f.desc.toNat 8 4)

/-- Bytes of a ring's element. -/
def Ring.esize (r : Ring) : Nat := 4 * tagRegs r.tag

/-- A k pair. -/
def kPair (field : Nat) (c : Code) : Src := { field := field, arg := .code c, acc := [.k], regs := 2 }

/-- Whether an Ultra Ethernet endpoint is valid and its flow group is permitted to the team's partition (R499, R506). -/
def State.endpointOk (s : State) (t : Team) (n : Nat) : Bool :=
  let e := (s.ueep.get n).toNat
  decide (n < 256) && bit e (8 * 0x15) && (s.uefg.get (s.master t)).getLsbD (bits e (8 * 0x14) 4)

/-- RRDQ: the source must translate into a peer window, or an endpoint is named. -/
def execRrdq (h : Head) (f : FormQ) (s : State) : Host.Outcome State Fault Refusal :=
  let port := s.portName (descPort f)
  let ue := f.desc.getLsbD 7
  issue (.rrdq h f) h (accessOnly
    { pod := true, dst := some (hDst f.dst), bad := portBad port fun _ => false
      srcs := [kPair 1 f.a, uniSrc 2 (.code f.b), { field := 3, arg := .code f.c, acc := [.k, .zero] }] }) (fun c =>
    match c.s.portName (descPort f) with
    | none => c.stop .illegalOperand
    | some (r, x) =>
      let a := BitVec.ofNat 64 (c.val 0 0)
      let count := c.val 1 0
      if a.toNat % x.esize ≠ 0 then .raise (c.s.pod.before .misaligned 0 0 a) c.s
      else
        let go := fun (s : State) =>
          if x.att then .hold (.ring r) s
          else
            { c with s := s }.afterOld (classOf f.dst).2 fun s =>
              c.tryPod (s.irrevocable s.pod.id.team) fun s =>
                let (o, s) := c.issueOp (some (classOf f.dst).2) 15 (.rrdq r a count (if ue then some (c.val 2 0) else none)) s
                let s := s.onRing r fun x => { x with att := true }
                let barred := ue && !s.endpointOk s.team (c.val 2 0)
                .done (if count = 0 then s.completeOp o else if barred then s.failOp o .remoteFault 0 a else s) 0
        if ue then go c.s
        else if onWindow a then .raise (c.s.pod.before .protection 0 (xlateArg 0xFF 0x16) a) c.s
        else
          match c.s.translate c.s.team c.s.core a .rd with
          | (.error (y, g), s) => .raise (s.pod.before y 0 g a) s
          | (.ok pa, s) =>
            if (areaOf pa).isPeer then go s
            else .raise (s.pod.before .protection 0 (xlateArg (s.leafLevel s.team a) 0x14) a) s) s

/-- Whether the next element of an RRDQ can be published: the ring has no slot that is not filled, and room (R390, R396). -/
def Ring.nextFits (x : Ring) : Bool := x.prd == x.pub && decide (0 < x.room)

/-- Publishes the next element of an RRDQ. -/
def State.rrdqPush (s : State) (o : Op) (r count v : Nat) : State :=
  let s := s.onTeam o.pod.team fun t => t.onRing r fun x => (x.reserve 1).fill x.prd (v % 2 ^ (8 * x.esize))
  let s := (s.onOp o.token fun o => { o with progress := o.progress + 1, asks := [] }).tickle
  if o.progress + 1 < count then s else s.completeOp o

/-- RRDQ_ELEMENT_ARRIVAL: the next element of a remote read arrives and is published, or its remote side refuses it (R396). Over Hazel it
is asked of the peer first, and its answer is what arrives; over Ultra Ethernet the event brings it (log 6). -/
def execRrdqElementArrival (h : Nat) (data : Option (BitVec 128)) (s : State) : Host.Outcome State Fault Refusal :=
  match s.opTok h with
  | none => .next s
  | some o =>
    match o.kind, s.findTeam o.pod.team with
    | .rrdq r a count ue, some t =>
      match o.state, t.ring r with
      | .running, some x =>
        let va := a + BitVec.ofNat 64 (o.progress * x.esize)
        let fail := fun (s : State) => Host.Outcome.next (s.failOp o .remoteFault 0 va)
        if !x.nextFits || !o.answered then .next s
        else if ue.isSome then data.elim (fail s) fun v => .next (s.rrdqPush o r count v.toNat)
        else if o.refused then fail s
        else if !o.asks.isEmpty then .next (s.rrdqPush o r count (ofBytes (mergeAsks (List.replicate x.esize 0) o.asks)))
        else
          match s.enginePlace t o.core va x.esize .rd false with
          | (.error _, s) => fail s
          | (.ok pas, s) =>
            if !(areaOf (pas.headD 0)).isPeer then fail s
            else
              let (asks, s) := s.askRead 1 pas
              .next (s.onOp h fun o => { o with asks := asks })
      | _, _ => .next s
    | _, _ => .next s

/-- The descriptor of a tile stream (R397): TBASE, TSTRIDE, TBYTES, TCOUNT, and whether it breaks a rule. -/
def streamBad (x : Ring) (lo hi : Nat) : Bool :=
  let tbytes := bits lo 128 32
  tbytes % 128 != 0 || tbytes % x.esize != 0 || decide (x.depth * x.esize < tbytes) || bits lo 192 64 != 0 || hi != 0

/-- SUBS. -/
def execSubs (h : Head) (f : FormQ) (s : State) : Host.Outcome State Fault Refusal :=
  let port := s.portName (descPort f)
  issue (.subs h f) h (accessOnly
    { pod := true, dst := some (hDst f.dst), bad := portBad port fun _ => false, srcs := [kPair 1 f.a] }) (fun c =>
    match c.s.portName (descPort f) with
    | none => c.stop .illegalOperand
    | some (r, x) =>
      let a := BitVec.ofNat 64 (c.val 0 0)
      let rest := fun (s : State) =>
        Eff.hold .poll (s.setPod { s.pod with wait := some ⟨.poll, s.cycle, none, s.progress⟩ })
      if a.toNat % 64 ≠ 0 then .raise (c.s.pod.before .misaligned 0 0 a) c.s
      else
        match c.pollBytes a 32 with
        | .fault y g addr s => .raise (s.pod.before y 0 g addr) s
        | .asked s => rest s
        | .got lo s =>
          match { c with s := s }.pollBytes (a + 32) 32 with
          | .fault y g addr s => .raise (s.pod.before y 0 g addr) s
          | .asked s => rest s
          | .got hi s =>
            if streamBad x lo hi then .raise (s.pod.before .illegalOperand 0 0 0) s
            else if x.att then .hold (.ring r) s
            else
              { c with s := s }.afterOld (classOf f.dst).2 fun s =>
                let base := BitVec.ofNat 64 lo
                let (peer, s) := match s.translate s.team s.core base .rd with
                  | (.ok pa, s) => ((areaOf pa).isPeer, s)
                  | (.error _, s) => (false, s)
                c.tryPod (if peer then s.irrevocable s.pod.id.team else .ok s) fun s =>
                  let (o, s) := c.issueOp (some (classOf f.dst).2) 15
                    (.subs r base (BitVec.ofNat 64 (bits lo 64 64)) (bits lo 128 32) (bits lo 160 32)) s
                  let s := s.onRing r fun x => { x with att := true }
                  .done (if bits lo 160 32 = 0 then s.completeOp o else s) 0) s

/-- The stack engine that reaches an address: the engine of its stack, of this package (0 to 7) or of peer p (8 * (p + 1) on); none
outside the stack-local regions (R291, R397). -/
def engineOf (pa : Nat) : Option Nat :=
  if (areaOf pa).isPeer then
    let o := (pa - peerBase) % peerSize
    if stackLocal o then some (8 * (peerOf pa + 1) + stackOf o) else none
  else if stackLocal pa then some (stackOf pa) else none

/-- Where a stack engine's access of a range goes, page by page (R291, R397, R420): `n` bytes at a virtual address, wholly in the
stack-local region of one stack; `want` fixes the engine. -/
def State.stackPlace (s : State) (t : Team) (core : Nat) (a : Access) (want : Option Nat) :
    Nat → Dword → Nat → Except (Cause × Dword) (List Nat) × State
  | 0, _, _ => (.ok [], s)
  | fuel + 1, va, n =>
    if n = 0 then (.ok [], s)
    else if onWindow va then (.error (.protection, va), s)
    else
      let m := min n (4096 - va.toNat % 4096)
      match s.translateRange t core va m a with
      | (.error (c, _, va), s) => (.error (c, va), s)
      | (.ok pas, s) =>
        let pa := pas.headD 0
        match engineOf pa with
        | none => (.error (.engineFault, va), s)
        | some e =>
          if want.any fun w => e != w then (.error (.engineFault, va), s)
          else
            let (ok, s) := if 8 ≤ e then (true, s) else s.accOk (targetStack e) (66 + e) pa m a.reads a.writes
            if !ok then (.error (.protection, va), s)
            else
              match s.stackPlace t core a (some e) fuel (va + BitVec.ofNat 64 m) (n - m) with
              | (.error e, s) => (.error e, s)
              | (.ok rest, s) => (.ok (pas ++ rest), s)

/-- The engine that serves a stream at a virtual address, if a stack holds it. -/
def State.stackAt (s : State) (t : Team) (core : Nat) (va : Dword) (a : Access) : Option Nat × State :=
  match s.translate t core va a with
  | (.ok pa, s) => (engineOf pa, s)
  | (.error _, s) => (none, s)

/-- SUBS_TILE_PUSH: the stack engine pushes the next tile whole (R397). -/
def execSubsTilePush (h : Nat) (s : State) : Host.Outcome State Fault Refusal :=
  match s.opTok h with
  | none => .next s
  | some o =>
    match o.kind, s.findTeam o.pod.team with
    | .subs r base stride bytes count, some t =>
      match o.state, t.ring r with
      | .running, some x =>
        let n := bytes / x.esize
        if !o.answered || x.prd ≠ x.pub && bytes ≠ 0 || x.room < n then .next s
        else
          let va := base + stride * BitVec.ofNat 64 o.progress
          let push := fun (bs : List Byte) (s : State) =>
            let s := s.onTeam o.pod.team fun t => t.onRing r fun x => (List.range n).foldl (fun y i =>
              (y.reserve 1).fill y.prd (field bs (i * x.esize) x.esize)) x
            let s := (s.onOp h fun o => { o with progress := o.progress + 1, asks := [] }).tickle
            if o.progress + 1 < count then s else s.completeOp o
          let (want, s) := s.stackAt t o.core base .rd
          match s.stackPlace t o.core .rd want (bytes / 4096 + 2) va bytes with
          | (.error (c, a), s) => .next (s.failOp o c 0 a)
          | (.ok pas, s) =>
            if s.poisoned pas then .next (s.failOp o .memUncorrectable 0 va)
            else if o.refused then .next (s.failOp o .remoteFault 0 va)
            else if o.asks.isEmpty && pas.any fun pa => (areaOf pa).isPeer then
              let (asks, s) := s.askRead 2 pas
              .next (s.onOp h fun o => { o with asks := asks })
            else
              let (bs, s) := s.engineBytes t pas o.asks
              .next (push bs s)
      | _, _ => .next s
    | _, _ => .next s

/-- DRAINQ. -/
def execDrainq (h : Head) (f : FormQ) (s : State) : Host.Outcome State Fault Refusal :=
  let port := s.portName (descPort f)
  issue (.drainq h f) h (accessOnly
    { pod := true, dst := some (hDst f.dst), bad := portBad port fun _ => false
      srcs := [kPair 1 f.a, uniSrc 2 (.code f.b)], late := if s.copyBarred then some (.illegalOp, 0, 0) else none }) (fun c =>
    match c.s.portName (descPort f) with
    | none => c.stop .illegalOperand
    | some (r, x) =>
      let a := BitVec.ofNat 64 (c.val 0 0)
      let count := c.val 1 0
      if a.toNat % x.esize ≠ 0 then .raise (c.s.pod.before .misaligned 0 0 a) c.s
      else if onWindow a then .raise (c.s.pod.before .protection 0 (xlateArg 0xFF 0x16) a) c.s
      else
        match c.s.translate c.s.team c.s.core a .wr with
        | (.error (y, g), s) => .raise (s.pod.before y 0 g a) s
        | (.ok _, s) =>
          if x.drn then .hold (.ring r) s
          else
            { c with s := s }.afterOld (classOf f.dst).2 fun s =>
              let (o, s) := c.issueOp (some (classOf f.dst).2) 15 (.drainq r a count) s
              let s := s.onRing r fun x => { x with drn := true }
              .done (if count = 0 then s.completeOp o else s) 0) s

/-- DRAINQ_ELEMENT_WRITE: the stack engine pops the next element and writes it (R398). -/
def execDrainqElementWrite (h : Nat) (s : State) : Host.Outcome State Fault Refusal :=
  match s.opTok h with
  | none => .next s
  | some o =>
    match o.kind, s.findTeam o.pod.team with
    | .drainq r a count, some t =>
      match o.state, t.ring r with
      | .running, some x =>
        let va := a + BitVec.ofNat 64 (o.progress * x.esize)
        if x.occ = 0 then .next s
        else
          let (want, s) := s.stackAt t o.core a .wr
          match s.stackPlace t o.core .wr want 2 va x.esize with
          | (.error (c, a), s) => .next (s.failOp o c 0 a)
          | (.ok pas, s) =>
            if pas.any fun pa => !stackLocal pa then .next (s.failOp o .engineFault 0 va)
            else if pas.any fun pa => s.lockedLine (lineOf pa) then .next s
            else if x.badAt x.con then
              .next ((s.onTeam t.id fun t => t.onRing r fun x => { x with par := true }).failOp o .memUncorrectable 0 0)
            else
              let s := s.writeHomeAll t.id pas (toBytes x.esize (x.elem x.con))
              let s := s.onTeam t.id fun t => t.onRing r fun x => x.pop 1
              let s := (s.onOp h fun o => { o with progress := o.progress + 1 }).tickle
              .next (if o.progress + 1 < count then s else s.completeOp o)
      | _, _ => .next s
    | _, _ => .next s

/-! ## Loop-count branch (R399) -/

/-- LCBR. -/
def execLcbr (h : Head) (f : FormB) (s : State) : Host.Outcome State Fault Refusal :=
  issue (.lcbr h f) h { pod := true, srcs := [blockSrc f.link, uniSrc 1 (.code f.a)] } (fun c =>
    let a := BitVec.ofNat 64 (c.val 0 0)
    if a.toNat % 64 ≠ 0 then .raise (c.s.pod.before .misaligned 0 0 a) c.s
    else
      c.awaitBlock a (c.val 1 0) fun v s =>
        let s := s.setPod (s.pod.wrKRun (classOf f.link).2 2 (bits v 32 64))
        if bits v 32 32 = 0 then
          let ts := (threadsOf s.pod.width c.act).map fun t => (t, target c.this f.boff)
          .done (s.setPod (s.pod.branch c.this s.pod.depth ts)) c.act
        else .done s 0) s

end Sys2Proof.Machine
end

