-- ==== Sys2Proof/Machine/Matrix.lean ====
section
/-! DEFINITION. Tile slots, matrix operations and the matrix arrays (R132 to R146, R409 to R419). -/
namespace Sys2Proof.Machine

/-! ## Matrix formats (R132, R144, R413) -/

/-- A matrix format: its elements, their bits, an exponent they are scaled by, elements in a scaled block (0: none) and what a
scale byte is, and the accumulator: 0 f32, 1 i32, 2 f64. -/
structure MFmt where
  elem  : Elem
  bits  : Nat
  shift : Int := 0
  block : Nat := 0
  scale : Elem := .e8m0
  acc   : Nat := 0
deriving DecidableEq, Repr

/-- The formats of R132. -/
def mfmt (code : Nat) : MFmt :=
  match code with
  | 0 => { elem := .flt .f64, bits := 64, acc := 2 }
  | 1 => { elem := .flt .f32, bits := 32 }
  | 2 => { elem := .flt .f16, bits := 16 }
  | 3 => { elem := .flt .bf16, bits := 16 }
  | 4 => { elem := .flt .e5m2, bits := 8 }
  | 5 => { elem := .flt .e4m3, bits := 8 }
  | 6 => { elem := .flt .e3m4, bits := 8 }
  | 7 => { elem := .flt .e3m2, bits := 6 }
  | 8 => { elem := .flt .e2m3, bits := 6 }
  | 9 => { elem := .flt .e2m1, bits := 4 }
  | 10 => { elem := .int true 16, bits := 16, acc := 1 }
  | 11 => { elem := .int true 8, bits := 8, acc := 1 }
  | 12 => { elem := .int false 8, bits := 8, acc := 1 }
  | 13 => { elem := .int true 4, bits := 4, acc := 1 }
  | 14 => { elem := .int false 4, bits := 4, acc := 1 }
  | 15 => { elem := .t2, bits := 2, acc := 1 }
  | 16 => { elem := .lg8, bits := 8 }
  | 17 => { elem := .flt .e5m2, bits := 8, block := 32 }
  | 18 => { elem := .flt .e4m3, bits := 8, block := 32 }
  | 19 => { elem := .flt .e3m2, bits := 6, block := 21 }
  | 20 => { elem := .flt .e2m3, bits := 6, block := 21 }
  | 21 => { elem := .flt .e2m1, bits := 4, block := 32 }
  | 22 => { elem := .int true 8, bits := 8, shift := -6, block := 32 }
  | _ => { elem := .flt .e2m1, bits := 4, block := 16, scale := .flt .e4m3 }

/-- Elements of a group of 64 bytes (R144). -/
def MFmt.perGroup (f : MFmt) : Nat := if f.bits = 6 then 84 else 512 / f.bits

/-- Scale bytes of a row for a chunk of eight groups (R413). -/
def MFmt.spc (f : MFmt) : Nat := if f.block = 0 then 0 else 8 * (f.perGroup / f.block)

/-- Element `e` of a group held as a number. -/
def MFmt.at_ (f : MFmt) (grp e : Nat) : Nat :=
  if f.bits = 6 then Sys2Proof.Machine.bits grp (128 * (e / 21) + 6 * (e % 21)) 6 else Sys2Proof.Machine.bits grp (f.bits * e) f.bits

/-- The pairs of R416. -/
def pairOk (a b : Nat) : Bool :=
  let both := fun (l : List Nat) => l.contains a && l.contains b
  both [4, 5, 6] || both [11, 12] || both [13, 14] || both [7, 8] || both [2, 3] || both [17, 18] || both [19, 20] || a == b

/-- The formats of A that MMAS accepts (R416). -/
def sparseOk (a : Nat) : Bool := [2, 3, 10, 4, 5, 6, 11, 12, 16, 9, 13, 14].contains a

/-- The format of an accumulator that is not i32. -/
def accFmt (acc : Nat) : Fmt := if acc = 2 then .f64 else .f32

/-- Registers of an accumulator element, and of the run (R415). -/
def accRegs (acc : Nat) : Nat := if acc = 2 then 2 else 1

/-- Tag of an accumulator. -/
def accTag (acc : Nat) : BitVec 5 := if acc = 2 then 4 else if acc = 1 then 1 else 3

/-! ## One group (R134, R144 to R146) -/

/-- The scale factors of an element: of its block in A and in B, and the operand scales of e2m1s16. -/
def scaleProduct (x : Num × BitVec 6) (scales : List (Num × BitVec 6)) : Num × BitVec 6 :=
  scales.foldl (fun p s =>
    let (y, fl) := p.1.mul s.1
    (y, p.2 ||| fl ||| s.2)) x

/-- The products of one group, dense: the group bytes of a row of A and of B, their scale bytes, and the operand scales. -/
def groupTerms (fa fb : MFmt) (ga gb : Nat) (sa sb : List Byte) (ops : List (Num × BitVec 6)) : List (Num × BitVec 6) :=
  (List.range fa.perGroup).map fun e =>
    let (p, fl) := elemMul fa.elem fb.elem (fa.at_ ga e) (fb.at_ gb e)
    let p := (p.scale (fa.shift + fb.shift), fl)
    if fa.block = 0 then p
    else
      let b := e / fa.block
      scaleProduct p ([fa.scale.value ((sa[b]?).getD 0).toNat, fb.scale.value ((sb[b]?).getD 0).toNat] ++ ops)

/-- The products of one group of MMAS: two kept elements of A in every four positions, chosen by metadata (R413). -/
def sparseTerms (fa fb : MFmt) (ga gb md : Nat) : List (Num × BitVec 6) :=
  (List.range (fa.perGroup / 4)).flatMap fun j =>
    [elemMul fa.elem fb.elem (fa.at_ ga (2 * j)) (fb.at_ gb (4 * j + bits md (4 * j) 2)),
     elemMul fa.elem fb.elem (fa.at_ ga (2 * j + 1)) (fb.at_ gb (4 * j + bits md (4 * j + 2) 2))]

/-- Adds one group to an accumulator (R144 to R146). -/
def accStep (acc sat old : Nat) (terms : List (Num × BitVec 6)) : Nat × BitVec 6 :=
  let fp := terms.foldl (fun fl p => fl ||| p.2) 0
  let (g, fs) := sumNums (terms.map (·.1))
  if acc = 1 then
    let r := intAcc sat (signed 32 old + g.toInt)
    (r.1, fp ||| r.2)
  else
    let F := accFmt acc
    let (v, fa) := accAdd (F.decode old) g
    let r := F.round v 0 sat false 0
    (r.code, r.fl ||| fp ||| fs ||| fa ||| sigInv F [old])

/-! ## Tile slots (R409 to R411) -/

/-- Fields of a descriptor (R410). -/
def dKind (d : BitVec 256) : Nat := bits d.toNat 0 8
def dFmt (d : BitVec 256) : Nat := bits d.toNat 8 5
def dAux (d : BitVec 256) : Nat := bits d.toNat 16 8
def dPitch (d : BitVec 256) : Nat := bits d.toNat 32 32
def dBase (d : BitVec 256) : Nat := bits d.toNat 64 64
def dScale (d : BitVec 256) : Nat := bits d.toNat 128 64
def dXtra (d : BitVec 256) : Nat := bits d.toNat 192 32
def dPstride (d : BitVec 256) : Nat := bits d.toNat 224 32

/-- Whether a descriptor keeps the rules of R410 for a team with `n` rings. -/
def descOk (n : Nat) (d : BitVec 256) : Bool :=
  let k := dKind d
  let tile := k == 1 || k == 3
  let stack := k == 4 || k == 5
  decide (k ≤ 5) && decide (dFmt d < 24) && bits d.toNat 13 3 == 0 && bits d.toNat 24 8 == 0 &&
    (if k = 2 then decide (dAux d < n) else if stack then dAux d != 0 else dAux d == 0) &&
    (if tile then dPitch d != 0 && dPitch d % 512 == 0
     else if k = 4 then decide (1 ≤ dPitch d) && decide (dPitch d ≤ 16384) else dPitch d == 0) &&
    (if k = 1 then true else if k = 3 || stack then dBase d % 128 == 0 else dBase d == 0) &&
    (if tile then dScale d % 16 == 0 else if k = 4 then dScale d % 128 == 0 else dScale d == 0) &&
    (if 1 ≤ k && k ≤ 3 then dFmt d == 23 || dXtra d == 0 else if k = 4 then dXtra d != 0 else dXtra d == 0) &&
    (stack || dPstride d == 0)

/-- The tile slots that an operation names (R411). -/
def Op.slots (o : Op) : List Nat :=
  match o.kind with
  | .matrix m => [m.slotA, m.slotB]
  | .mvs n .. => [n]
  | .svs n .. => [n]
  | _ => []

/-- Whether an outstanding operation of a team names a slot. -/
def State.slotBusy (s : State) (tid : TeamId) (n : Nat) : Bool :=
  s.ops.any fun o => o.pod.team = tid && o.state ≠ .complete && o.slots.contains n

/-- The slot of TDEF, TDROP, MVS and SVS, and of A of a matrix operation; the slot of B. -/
def slotA (f : FormQ) : Nat := bits f.desc.toNat 7 5
def slotB (f : FormQ) : Nat := bits f.desc.toNat 2 5

/-- The descriptor of a slot. -/
def Team.tile (t : Team) (n : Nat) : BitVec 256 := t.tiles.get n

/-- Redefines a slot. Earlier shared values are kept only while some slot is defined (R341). -/
def State.setTile (s : State) (n : Nat) (d : BitVec 256) : State :=
  let t := { s.team with tiles := s.team.tiles.set n (if dKind d = 0 then 0 else d),
                         tileAt := s.team.tileAt.set n (BitVec.ofNat 64 (if dKind d = 0 then 0 else s.tick)) }
  s.setTeam (if t.tiles.isEmpty then { t with oldShared := [] } else t)

/-- TDEF. -/
def execTdef (h : Head) (f : FormQ) (s : State) : Host.Outcome State Fault Refusal :=
  issue (.tdef h f) h
    { pod := true, exec := false, srcs := [{ field := 1, arg := .code f.a, acc := [.k], regs := 8 }]
      bad := !descOk s.team.rings.length (BitVec.ofNat 256 (s.argVal (.code f.a) 8)) } (fun c =>
      let d := BitVec.ofNat 256 (c.val 0 0)
      if c.s.slotBusy c.s.pod.id.team (slotA f) then .hold .handle c.s
      else .done (c.s.setTile (slotA f) d) 0) s

/-- TDROP. -/
def execTdrop (h : Head) (f : FormQ) (s : State) : Host.Outcome State Fault Refusal :=
  issue (.tdrop h f) h { pod := true } (fun c =>
    if c.s.slotBusy c.s.pod.id.team (slotA f) then .hold .handle c.s else .done (c.s.setTile (slotA f) 0) 0) s

/-! ## Operands of a matrix operation (R412, R413) -/

/-- Bytes of data of a row for a chunk: 512, and 256 in A of MMAS. -/
def rowData (sparse : Bool) : Nat := if sparse then 256 else 512

/-- Bytes of scales of a row for a chunk; metadata in A of MMAS. -/
def rowScale (fmt : Nat) (sparse : Bool) : Nat := if sparse then 512 / (mfmt fmt).bits else (mfmt fmt).spc

/-- Address of row `i` of chunk `c`: its data and its scales. -/
def rowAt (d : BitVec 256) (sparse : Bool) (c i : Nat) : Nat × Nat :=
  let dn := rowData sparse
  let sn := rowScale (dFmt d) sparse
  (dBase d + i * dPitch d + c * dn, dScale d + i * (dPitch d * sn / dn) + c * sn)

/-- The first offset of a shared tile that does not lie in the plain region (R304, R413). -/
def Team.tileBounds (t : Team) (d : BitVec 256) (sparse : Bool) (c rows : Nat) : Option Nat :=
  if dKind d ≠ 1 then none
  else
    (List.range rows).findSome? fun i =>
      let (a, b) := rowAt d sparse c i
      let sn := rowScale (dFmt d) sparse
      if !t.sharedOk a (rowData sparse) then some a else if sn ≠ 0 && !t.sharedOk b sn then some b else none

/-- One 4-byte piece of plain shared memory as an array reads it: its value now, or one that it has held since the slot was
defined and that no OFENCE has put out of reach (R341). -/
def State.arrayPiece (s : State) (t : Team) (since fence a : Nat) : List Byte × State :=
  let now := t.rdShared a 4
  match t.oldShared.filter fun x => x.1 = a && since ≤ x.2.1 && fence < x.2.1 with
  | [] => (now, s)
  | olds =>
    let (k, s) := s.choose (olds.length + 1)
    match olds[k]? with
    | some x => (toBytes 4 x.2.2.toNat, s)
    | none => (now, s)

/-- Some pieces from an aligned address. -/
def State.arrayPieces (s : State) (t : Team) (since fence a : Nat) : Nat → List Byte × State
  | 0 => ([], s)
  | n + 1 =>
    let (x, s) := s.arrayPiece t since fence a
    let (xs, s) := s.arrayPieces t since fence (a + 4) n
    (x ++ xs, s)

/-- Bytes of plain shared memory as an array reads them. -/
def State.arrayBytes (s : State) (t : Team) (since fence o n : Nat) : List Byte × State :=
  if t.oldShared.isEmpty then (t.rdShared o n, s)
  else
    let (bs, s) := s.arrayPieces t since fence (o / 4 * 4) ((o % 4 + n + 3) / 4)
    ((bs.drop (o % 4)).take n, s)

/-- Several stretches of plain shared memory. -/
def State.arrayRuns (s : State) (t : Team) (since fence : Nat) : List (Nat × Nat) → List Byte × State
  | [] => ([], s)
  | (o, n) :: l =>
    let (x, s) := s.arrayBytes t since fence o n
    let (xs, s) := s.arrayRuns t since fence l
    (x ++ xs, s)

/-- Rows of A that an operation reads (R412). -/
def rowsA (width : Nat) : Nat := min 16 width

/-- Rows of B. -/
def Matrix.rowsB (m : Matrix) : Nat := if m.variant = 1 then 16 else 8

/-- The operand is compressed A of MMAS. -/
def Matrix.sparse (m : Matrix) : Bool := decide (m.variant = 2)

/-- Elements that a ring operand pops: data and scales of every row (R413). -/
def ringCount (d : BitVec 256) (sparse : Bool) (rows : Nat) : Nat :=
  if dKind d = 2 then rows * (rowData sparse + rowScale (dFmt d) sparse) / 16 else 0

/-- The arrays that an operation occupies: its core's, and for MMAT the follower's (R418). -/
def Op.arrays (o : Op) : List Nat :=
  match o.kind with
  | .matrix m => if m.variant = 1 then [o.core, o.core + 1] else [o.core]
  | _ => []

/-- Whether the team of an operation is on its core: the unfired matrix operations of a parked team wait in no queue (R274). -/
def State.opPresent (s : State) (o : Op) : Bool :=
  match s.findTeam o.pod.team with
  | some t => t.place == .resident
  | none => false

/-- Operations in the queue of an array. -/
def State.queued (s : State) (core : Nat) : List Op :=
  s.ops.filter fun o => o.state = .running && o.arrays.contains core && s.opPresent o

/-! ## Issue (R404, R405, R415 to R418) -/

/-- The saturation of a matrix operation. -/
def matSat (f : FormQ) : Nat := bits f.desc.toNat 0 2

end Sys2Proof.Machine

namespace Sys2Proof

/-- The follower pod of an MMAT. -/
def PodId.follower (p : PodId) : PodId := { p with idx := p.idx + 1 }

end Sys2Proof

namespace Sys2Proof.Machine

/-- The operation that a matrix instruction starts. -/
def State.newMatrix (s : State) (f : FormQ) (variant : Nat) : Matrix :=
  { variant := variant, acc := (classOf f.a).2, slotA := slotA f, slotB := slotB f, descA := s.team.tile (slotA f)
    descB := s.team.tile (slotB f), chunk := s.argVal (.code f.b), sat := matSat f, z := f.flags.getLsbD 8, fence := s.pod.ofence
    fired := false, dataA := [], scaleA := [], dataB := [], scaleB := [], held := [], shown := []
    regs := accRegs (mfmt (dFmt (s.team.tile (slotA f)))).acc, cond := 0 }

/-- The arrays that a matrix instruction takes (R418). -/
def State.arraysOf (s : State) (variant : Nat) : List Nat := if variant = 1 then [s.core, s.core + 1] else [s.core]

/-- The first operand whose formats R415 and R416 do not allow. -/
def State.matrixTagFail (s : State) (m : Matrix) : Option Nat :=
  let fa := dFmt m.descA
  let acc := (mfmt fa).acc
  let bad := decide (m.variant = 1) && !m.z && (match s.findPod s.pod.id.follower with
    | some q => (List.range (8 * accRegs acc)).any fun j => q.tagOf (m.acc + j) != accTag acc
    | none => false)
  if bad then some 1
  else if !pairOk fa (dFmt m.descB) || (decide (m.variant = 2) && !sparseOk fa) then some 2
  else none

/-- What MMA (variant 0), MMAT (1) and MMAS (2) check before any effect (R109, R415, R416, R418). -/
def State.matrixSpec (s : State) (f : FormQ) (variant : Nat) : Spec :=
  let da := s.team.tile (slotA f)
  let db := s.team.tile (slotB f)
  let fa := dFmt da
  let acc := (mfmt fa).acc
  let twin := variant = 1
  let noTwin := twin && (!s.team.kernel.twin || s.team.halfOf s.pod.id != 0)
  let ringBad := fun (d : BitVec 256) => dKind d == 2 && (match s.team.ring (dAux d) with | some r => r.esize != 16 | none => true)
  { pod := true, access := false, dst := some (hDst f.dst)
    illegal := noTwin || (matSat f = 2 && dKind da != 0 && acc != 1)
    bad := !(dKind da == 1 || dKind da == 2) || !(dKind db == 1 || dKind db == 2 || dKind db == 3) || ringBad da || ringBad db ||
      (twin && decide (s.team.kernel.npods .execute ≤ s.pod.id.idx + 1))
    cls := some (32 + fa)
    other := if twin then some (s.team.core + 1) else none
    srcs := [{ field := 1, arg := .code f.a, acc := [.v], regs := 8 * accRegs acc
               tags := if f.flags.getLsbD 8 then [] else [accTag acc] },
             uniSrc 2 (.code f.b)]
    late := (s.matrixTagFail (s.newMatrix f variant)).map fun n => (.formatMismatch, n, 0) }

/-- The first offset of its shared tiles that is out of bounds (R413). -/
def Ctx.matrixBounds (c : Ctx) (m : Matrix) : Option Nat :=
  match c.s.team.tileBounds m.descA (decide (m.variant = 2)) m.chunk (rowsA c.s.pod.width),
    c.s.team.tileBounds m.descB false m.chunk (if m.variant = 1 then 16 else 8) with
  | some o, _ => some o
  | none, x => x

/-- MMA, MMAT and MMAS. -/
def matrixOp (i : Instr) (h : Head) (f : FormQ) (variant : Nat) (s : State) : Host.Outcome State Fault Refusal :=
  issue i h (s.matrixSpec f variant) (fun c =>
    let m := c.s.newMatrix f variant
    match c.matrixBounds m with
    | some o => .raise (c.s.pod.before .stashBounds 0 0 (BitVec.ofNat 64 o)) c.s
    | none =>
      if (c.s.arraysOf variant).any fun a => decide (8 ≤ (c.s.queued a).length) then .hold .handle c.s
      else
        c.afterOld (classOf f.dst).2 fun s =>
          .done (c.issueOp (some (classOf f.dst).2) c.head.setb (.matrix m) s).2 0) s

/-- MMA. -/
def execMma (h : Head) (f : FormQ) (s : State) : Host.Outcome State Fault Refusal := matrixOp (.mma h f) h f 0 s

/-- MMAT. -/
def execMmat (h : Head) (f : FormQ) (s : State) : Host.Outcome State Fault Refusal := matrixOp (.mmat h f) h f 1 s

/-- MMAS. -/
def execMmas (h : Head) (f : FormQ) (s : State) : Host.Outcome State Fault Refusal := matrixOp (.mmas h f) h f 2 s

/-! ## Firing (R413, R414) -/

/-- Earlier operations on the arrays of an operation. -/
def State.earlier (s : State) (o : Op) : List Op :=
  s.ops.filter fun u => u.state = .running && decide (u.token < o.token) && u.arrays.any o.arrays.contains && s.opPresent u

/-- Whether an operation has fired. -/
def Op.fired (o : Op) : Bool :=
  match o.kind with
  | .matrix m => m.fired
  | .mvs _ _ _ _ _ fired .. => fired
  | _ => true

/-- Changes the matrix part of an operation. -/
def Op.onMatrix (o : Op) (f : Matrix → Matrix) : Op :=
  match o.kind with
  | .matrix m => { o with kind := .matrix (f m) }
  | _ => o

/-- Claims `n` head elements of a ring for an engine: their bytes and the team; an element that fails its parity check bars the
claim and sets PAR (R384). -/
def Team.claimBytes (t : Team) (r n : Nat) : List Byte × Team × Bool :=
  match t.ring r with
  | none => ([], t, false)
  | some x =>
    let slots := (List.range n).map fun i => x.con + BitVec.ofNat 32 i
    if slots.any x.badAt then ([], t.setRing r { x with par := true }, true)
    else (slots.flatMap fun c => toBytes x.esize (x.elem c), t.setRing r (x.pop n), false)

/-- The data and scales of one operand at firing: a shared tile is read, a ring is claimed unless it has been, a remote tile
waits for its groups. -/
def State.readOperand (s : State) (tid : TeamId) (m : Matrix) (d : BitVec 256) (slot : Nat) (sparse : Bool) (rows : Nat)
    (have_ : List Byte × List Byte) : (List Byte × List Byte) × State × Bool :=
  match s.findTeam tid with
  | none => (have_, s, false)
  | some t =>
    match dKind d with
    | 1 =>
      let at_ := (List.range rows).map (rowAt d sparse m.chunk)
      let since := (t.tileAt.get slot).toNat
      let (x, s) := s.arrayRuns t since m.fence (at_.map fun p => (p.1, rowData sparse))
      let (y, s) := s.arrayRuns t since m.fence (at_.map fun p => (p.2, rowScale (dFmt d) sparse))
      ((x, y), s, false)
    | 2 =>
      if !have_.1.isEmpty then (have_, s, false)
      else
        let (bs, t, bad) := t.claimBytes (dAux d) (ringCount d sparse rows)
        let n := rows * rowData sparse
        ((bs.take n, bs.drop n), (s.onTeam tid fun _ => t).tickle, bad)
    | _ => (([], []), s, false)

/-- Whether the ring operands of an operation hold their counts. -/
def Team.ringsHold (t : Team) (m : Matrix) (width : Nat) : Bool :=
  let need := (if m.dataA.isEmpty then [(dAux m.descA, ringCount m.descA m.sparse (rowsA width))] else []) ++
    (if m.dataB.isEmpty then [(dAux m.descB, ringCount m.descB false m.rowsB)] else [])
  need.all fun x => decide (((need.filter fun y => y.1 = x.1 && y.2 ≠ 0).map (·.2)).sum ≤
    (match t.ring x.1 with | some r => r.occ | none => 0)) || x.2 == 0

/-- Whether a matrix operation can fire: it is first on its arrays among those that have not, and its ring operands are there. -/
def State.canFire (s : State) (o : Op) (m : Matrix) (t : Team) (width : Nat) : Bool :=
  o.state == .running && !m.fired && t.place == .resident && (s.earlier o).all Op.fired && t.ringsHold m width

/-- MATRIX_OP_FIRE: the operation starts on its array (R413, R414). -/
def execMatrixOpFire (h : Nat) (s : State) : Host.Outcome State Fault Refusal :=
  match s.opTok h with
  | none => .next s
  | some o =>
    match o.kind, s.findTeam o.pod.team, s.findPod o.pod with
    | .matrix m, some t, some p =>
      if !s.canFire o m t p.width then .next s
      else
        let tid := o.pod.team
        let (a, s, badA) := s.readOperand tid m m.descA m.slotA m.sparse (rowsA p.width) (m.dataA, m.scaleA)
        let (b, s, badB) := s.readOperand tid m m.descB m.slotB false m.rowsB (m.dataB, m.scaleB)
        let s := s.onOp h fun o => o.onMatrix fun m =>
          { m with fired := !(badA || badB), dataA := a.1, scaleA := a.2, dataB := b.1, scaleB := b.2, held := [], shown := [], past := [] }
        .next (if badA || badB then s.failOp o .memUncorrectable 0 0 else s)
    | _, _, _ => .next s

/-! ## Groups (R417, R342) -/

/-- The number that `n` bytes of row `i`, from byte `off`, make; rows of `w` bytes. -/
def rowNum (bs : List Byte) (w i off n : Nat) : Nat := field bs (i * w + off) n

/-- The pod, register and thread of accumulator element (i, j): columns from 8 lie in the follower pod (R415, R418). -/
def accPlace (o : Op) (m : Matrix) (w i j : Nat) : PodId × Nat × Nat :=
  (if j < 8 then o.pod else o.pod.follower, m.acc + w * (j % 8), i)

/-- Reads an accumulator register run of a pod. -/
def State.rdAcc (s : State) (p : PodId) (r t w : Nat) : Nat :=
  match s.findPod p with
  | none => 0
  | some q => q.rdRun t r w

/-- The places of every accumulator element, row by row. -/
def accPlaces (o : Op) (m : Matrix) (w rows : Nat) : List (PodId × Nat × Nat) :=
  (List.range rows).flatMap fun i => (List.range m.rowsB).map fun j => accPlace o m w i j

/-- An element as the array goes on from it: its own value, or, where the pod has written the register meanwhile, either (R342). -/
def State.heldOr (s : State) (own shown reg : Nat) : Nat × State :=
  if reg = shown then (own, s)
  else
    let (k, s) := s.choose 2
    (if k = 0 then own else reg, s)

/-- Every element as the array goes on from it. -/
def State.heldAll (s : State) : List (Nat × Nat × Nat) → List Nat × State
  | [] => ([], s)
  | (own, shown, reg) :: l =>
    let (x, s) := s.heldOr own shown reg
    let (xs, s) := s.heldAll l
    (x :: xs, s)

/-- The accumulators before a group: from the registers at the first group since firing, or zeros with `.z`. -/
def State.accBefore (s : State) (o : Op) (m : Matrix) (regs : List Nat) : List Nat × State :=
  if m.held.isEmpty then
    (if m.z && o.progress = 0 then regs.map fun _ => 0 else regs, s)
  else s.heldAll (m.held.zip (m.shown.zip regs))

/-- Writes some elements to their registers. -/
def State.wrAcc (s : State) (w : Nat) : List ((PodId × Nat × Nat) × Nat) → State
  | [] => s
  | ((p, r, t), x) :: l => (s.onPod p fun q => q.wrRun t r w x).wrAcc w l

/-- The words of a group of a word-packed row whose spare bits are set (R131). -/
def badWords (f : MFmt) (grp : Nat) : List Nat :=
  if f.bits = 6 then (List.range 4).filter fun q => bits grp (128 * q + 126) 2 ≠ 0 else []

/-- The first word-packed fault of group `g` in an operand: K position and the address of its word; 0 for a ring. Of several such words
the one reported is a DESIGN CHOICE (log 28; R131): the lowest K position, then the lowest row, A before B. -/
def wordFault (d : BitVec 256) (chunk g : Nat) (rows : List Nat) : Option (Nat × Nat) :=
  let f := mfmt (dFmt d)
  let all := ((List.range rows.length).zip rows).flatMap fun x =>
    (badWords f x.2).map fun q =>
      (84 * g + 21 * q, if dKind d = 2 then 0 else (rowAt d false chunk x.1).1 + 64 * g + 16 * q)
  match (all.map (·.1)).min? with
  | none => none
  | some k => all.find? fun x => x.1 = k

/-- The first metadata field of group `g` that is not strictly increasing (R413): the address of its byte; 0 for a ring. -/
def metaFault (d : BitVec 256) (chunk g : Nat) (n : Nat) (rows : List Nat) : Option Nat :=
  ((List.range rows.length).zip rows).findSome? fun x =>
    (List.range (2 * n)).findSome? fun j =>
      if bits x.2 (4 * j + 2) 2 ≤ bits x.2 (4 * j) 2 then
        some (if dKind d = 2 then 0 else (rowAt d true chunk x.1).2 + n * g + j / 2)
      else none

/-- The operand scale of e2m1s16 (R413). -/
def opScale (d : BitVec 256) : List (Num × BitVec 6) := if dFmt d = 23 then [(Elem.flt .f32).value (dXtra d)] else []

/-- The groups that an operation has added stand in its accumulator registers (R417), or the register as the pod has written it
meanwhile (R342). -/
def State.applyHeld (s : State) (o : Op) (m : Matrix) (rows : Nat) : State :=
  let w := accRegs (mfmt (dFmt m.descA)).acc
  let places := accPlaces o m w rows
  if m.held.isEmpty then s
  else
    let (x, s) := s.heldAll (m.held.zip (m.shown.zip (places.map fun x => s.rdAcc x.1 x.2.1 x.2.2 w)))
    s.wrAcc w (places.zip x)

/-- Stops a matrix operation at a fault in its next group: it restarts there on the accumulator as it then stands, and a shared
tile is read again (R417). -/
def State.failMatrix (s : State) (o : Op) (m : Matrix) (rows : Nat) (c : Cause) (k : Nat) (addr : Nat) : State :=
  let keep := fun (d : BitVec 256) (x : List Byte) => if dKind d = 2 then x else []
  ((s.applyHeld o m rows).failOp o c k (BitVec.ofNat 64 addr)).onOp o.token fun o => o.onMatrix fun m =>
    { m with fired := false, held := [], shown := [], past := [], dataA := keep m.descA m.dataA, scaleA := keep m.descA m.scaleA,
             dataB := keep m.descB m.dataB, scaleB := keep m.descB m.scaleB }

/-- One group of an operation whose operand bytes are at hand: rows of A and B of the group, with their scales or metadata. -/
def State.runGroup (s : State) (o : Op) (m : Matrix) (rows : Nat) (ga gb : List Nat) (sa sb : List (List Byte)) : State :=
  let fa := mfmt (dFmt m.descA)
  let fb := mfmt (dFmt m.descB)
  let w := accRegs fa.acc
  let places := accPlaces o m w rows
  let regs := places.map fun x => s.rdAcc x.1 x.2.1 x.2.2 w
  let (old, s) := s.accBefore o m regs
  let ops := opScale m.descA ++ opScale m.descB
  let new := (List.range rows).flatMap fun i => (List.range m.rowsB).map fun j =>
    let a := (ga[i]?).getD 0
    let b := (gb[j]?).getD 0
    let x := (sa[i]?).getD []
    let terms := if m.sparse then sparseTerms fa fb a b (ofBytes x) else groupTerms fa fb a b x ((sb[j]?).getD []) ops
    accStep fa.acc m.sat ((old[i * m.rowsB + j]?).getD 0) terms
  let vals := new.map (·.1)
  let s := s.wrAcc w (places.zip vals)
  let cond := new.foldl (fun c x => c ||| x.2) m.cond
  ((s.onOp o.token fun o =>
    { o.onMatrix (fun m => { m with held := vals, shown := vals, cond := cond,
                                    past := (if m.past.isEmpty then [old] else m.past) ++ [vals],
                                    dataB := if dKind m.descB = 3 then [] else m.dataB,
                                    scaleB := if dKind m.descB = 3 then [] else m.scaleB })
      with progress := o.progress + 1, asks := [] }).countEvent o.core 8).tickle

/-- Where the group bytes and scale bytes of a remote tile lie: every row's data, then every row's scales (R413). -/
def remoteRuns (m : Matrix) (g : Nat) : List (Nat × Nat) :=
  let n := rowScale (dFmt m.descB) false / 8
  let at_ := (List.range m.rowsB).map (rowAt m.descB false m.chunk)
  (at_.map fun p => (p.1 + 64 * g, 64)) ++ (if n = 0 then [] else at_.map fun p => (p.2 + n * g, n))

/-- The places of some stretches of virtual memory. -/
def State.enginePlaces (s : State) (t : Team) (core : Nat) : List (Nat × Nat) → Except (Cause × Dword) (List Nat) × State
  | [] => (.ok [], s)
  | (a, n) :: l =>
    match s.enginePlace t core (BitVec.ofNat 64 a) n .rd false with
    | (.error e, s) => (.error e, s)
    | (.ok pas, s) =>
      match s.enginePlaces t core l with
      | (.error e, s) => (.error e, s)
      | (.ok rest, s) => (.ok (pas ++ rest), s)

/-- What fetching a group of a remote tile finds: its bytes, a fault, or that peers have not answered yet. -/
inductive Fetch3
  | got (bs : List Byte) (s : State)
  | fault (c : Cause) (addr : Dword) (s : State)
  | asked (s : State)
deriving DecidableEq, Repr

/-- The bytes of a remote tile that no OFENCE covers: each 4-byte piece has its value now, or an earlier one, which is open (R341). -/
def State.earlierBytes (s : State) (bs : List Byte) : List Byte × State :=
  ((List.range ((bs.length + 3) / 4)).foldl (fun (x : List Byte × State) i =>
    let now := (bs.drop (4 * i)).take 4
    let (k, s) := x.2.choose 2
    let (w, s) := s.choose (2 ^ 32)
    (x.1 ++ (if k = 0 then now else (toBytes 4 w).take now.length), s)) ([], s))

/-- Fetches a group of a remote tile (R413, R417): after an OFENCE it has no value older than what the team has written (R341). -/
def State.fetchRemote (s : State) (o : Op) (t : Team) (m : Matrix) : Fetch3 :=
  match s.enginePlaces t o.core (remoteRuns m o.progress) with
  | (.error (c, a), s) => .fault c a s
  | (.ok pas, s) =>
    let base := BitVec.ofNat 64 (rowAt m.descB false m.chunk 0).1
    if s.poisoned pas then .fault .memUncorrectable base s
    else if o.refused then .fault .remoteFault base s
    else if o.asks.isEmpty && pas.any fun pa => (areaOf pa).isPeer then
      let (asks, s) := s.askRead 1 pas
      .asked (s.onOp o.token fun o => { o with asks := asks })
    else
      let own := (pas.zip (mergeAsks (s.rdAll pas) o.asks)).map fun x => match t.lineAt x.1 with
        | some l => if l.dirty.getLsbD (x.1 % 128) then lineByte l.bytes (x.1 % 128) else x.2
        | none => x.2
      let (bs, s) := if (t.tileAt.get m.slotB).toNat < m.fence then (own, s) else s.earlierBytes own
      .got bs s

/-- MATRIX_GROUP: the array adds the next group of an operation, or faults there (R417). -/
def execMatrixGroup (h : Nat) (s : State) : Host.Outcome State Fault Refusal :=
  match s.opTok h with
  | none => .next s
  | some o =>
    match o.kind, s.findTeam o.pod.team, s.findPod o.pod with
    | .matrix m, some t, some p =>
      let ready := (s.earlier o).all fun u =>
        decide (8 ≤ u.progress) && (match u.kind with | .matrix x => decide (x.variant ≠ 1) | _ => true)
      if o.state ≠ .running || !m.fired || decide (8 ≤ o.progress) || !ready || !o.answered then .next s
      else
        let g := o.progress
        let rows := rowsA p.width
        let da := rowData m.sparse / 8
        let na := rowScale (dFmt m.descA) m.sparse / 8
        let nb := rowScale (dFmt m.descB) false / 8
        let ga := (List.range rows).map fun i => rowNum m.dataA (8 * da) i (da * g) da
        let sa := (List.range rows).map fun i => (m.scaleA.drop (i * (8 * na) + na * g)).take na
        let go := fun (gb : List Nat) (sb : List (List Byte)) (s : State) =>
          let mf := if m.sparse then metaFault m.descA m.chunk g na (sa.map ofBytes) else none
          match wordFault m.descA m.chunk g (if m.sparse then [] else ga), wordFault m.descB m.chunk g gb, mf with
          | some (k, a), some (k', a'), _ => if k' < k then s.failMatrix o m rows .engineFault k' a' else s.failMatrix o m rows .engineFault k a
          | some (k, a), none, _ => s.failMatrix o m rows .engineFault k a
          | none, some (k, a), _ => s.failMatrix o m rows .engineFault k a
          | none, none, some a => s.failMatrix o m rows .engineFault 0 a
          | none, none, none => s.runGroup o m rows ga gb sa sb
        if dKind m.descB = 3 then
          match s.fetchRemote o t m with
          | .fault c a s => .next (s.failMatrix o m rows c 0 a.toNat)
          | .asked s => .next s
          | .got bs s =>
            let gb := (List.range m.rowsB).map fun j => rowNum bs 64 j 0 64
            let rest := bs.drop (64 * m.rowsB)
            .next (go gb ((List.range m.rowsB).map fun j => (rest.drop (j * nb)).take nb) s)
        else
          let gb := (List.range m.rowsB).map fun j => rowNum m.dataB 512 j (64 * g) 64
          let sb := (List.range m.rowsB).map fun j => (m.scaleB.drop (j * (8 * nb) + nb * g)).take nb
          .next (go gb sb s)
    | _, _, _ => .next s

/-- MATRIX_OP_COMPLETE: the accumulator tags are written, the conditions reach %fl of the issuing pod, and the handle completes
(R143, R415, R417). -/
def execMatrixOpComplete (h : Nat) (s : State) : Host.Outcome State Fault Refusal :=
  match s.opTok h with
  | none => .next s
  | some o =>
    match o.kind with
    | .matrix m =>
      if o.state ≠ .running || decide (o.progress < 8) then .next s
      else
        let acc := (mfmt (dFmt m.descA)).acc
        let pods := if m.variant = 1 then [o.pod, o.pod.follower] else [o.pod]
        let s := pods.foldl (fun s p => s.onPod p fun q => q.wrTags (accTag acc) m.acc (8 * accRegs acc)) s
        .next ((s.onPod o.pod fun q => q.raiseFl m.cond).completeOp o)
    | _ => .next s

end Sys2Proof.Machine
end

