-- ==== Sys2Proof/Machine/StackEngines.lean ====
section
/-! DEFINITION. Stack engines: dense and CSR matrices held in the stacks, MVS and SVS (R420 to R424). -/
namespace Sys2Proof.Machine

/-! ## Pieces (R420) -/

/-- The stacks of a slot's mask, in order. -/
def stacksOf (d : BitVec 256) : List Nat := (List.range 8).filter fun i => bit (dAux d) i

/-- The distance from piece 0 to piece `j`. -/
def pieceOff (d : BitVec 256) (j : Nat) : Dword := BitVec.ofNat 64 (j * dPstride d * 4096)

/-- Bytes of a piece, which lie in its own stack. -/
def State.pieceBytes (s : State) (o : Op) (t : Team) (stack : Nat) (va : Dword) (n : Nat) :
    Except (Cause × Dword) (List Byte) × State :=
  match s.stackPlace t o.core .rd (some stack) (n / 4096 + 2) va n with
  | (.error e, s) => (.error e, s)
  | (.ok pas, s) =>
    if pas.any fun pa => !stackLocal pa then (.error (.engineFault, va), s)
    else if s.poisoned pas then (.error (.memUncorrectable, va), s)
    else
      let (bs, s) := s.engineBytes t pas []
      (.ok bs, s)

/-- The sum of the terms of a row, group by group (R144): `n` terms, `g` of them in a group. -/
def rowSum (acc sat g : Nat) (term : Nat → Num × BitVec 6) (n : Nat) : Nat × BitVec 6 :=
  (List.range ((n + g - 1) / g)).foldl (fun a i =>
    let (x, fl) := accStep acc sat a.1 ((List.range (min g (n - i * g))).map fun e => term (i * g + e))
    (x, a.2 ||| fl)) (0, 0)

/-- What forming a row finds: its element and conditions, a fault at an address, or that the rows are at their end. -/
inductive Row
  | elem (x : Nat) (fl : BitVec 6)
  | fault (c : Cause) (addr : Dword)
  | ended
deriving DecidableEq, Repr

/-! ## Dense matrices (R421, R422) -/

/-- The formats of a dense matrix. -/
def denseFmts : List Nat := [1, 3, 2, 4, 5, 6, 9, 17, 18, 21]

/-- Bytes of a row of `k` columns, and of its scales. -/
def denseRow (f : MFmt) (k : Nat) : Nat := (k * f.bits + 1023) / 1024 * 128
def denseScales (f : MFmt) (k : Nat) : Nat := if f.block = 0 then 0 else ((k + 31) / 32 + 127) / 128 * 128

/-- Row `r` times x. -/
def State.denseElem (s : State) (o : Op) (t : Team) (d : BitVec 256) (x : List Word) (sat r : Nat) : Row × State :=
  let f := mfmt (dFmt d)
  let k := dPitch d
  let ss := stacksOf d
  let n := ss.length
  if dXtra d ≤ r then (.ended, s)
  else
    let j := r / 64 % n
    let lr := r / (64 * n) * 64 + r % 64
    let rb := denseRow f k
    let sb := denseScales f k
    let stack := (ss[j]?).getD 0
    match s.pieceBytes o t stack (BitVec.ofNat 64 (dBase d) + pieceOff d j + BitVec.ofNat 64 (lr * rb)) rb with
    | (.error (c, a), s) => (.fault c a, s)
    | (.ok bs, s) =>
      match s.pieceBytes o t stack (BitVec.ofNat 64 (dScale d) + pieceOff d j + BitVec.ofNat 64 (lr * sb)) sb with
      | (.error (c, a), s) => (.fault c a, s)
      | (.ok sc, s) =>
        let row := ofBytes bs
        let term := fun e =>
          let p := elemMul f.elem (.flt .f32) (bits row (e * f.bits) f.bits) ((x[e]?).getD 0).toNat
          if f.block = 0 then p else scaleProduct p [f.scale.value ((sc[e / 32]?).getD 0).toNat]
        let (y, fl) := rowSum 0 sat f.perGroup term k
        (.elem y fl, s)

/-! ## CSR matrices (R423, R424) -/

/-- The formats of a CSR matrix. -/
def csrFmts : List Nat := [0, 1, 3, 5]

/-- A piece header, with its stack and its first row. -/
structure Csr where
  stack  : Nat
  first  : Nat
  rowptr : Dword
  colidx : Dword
  vals   : Dword
  xrep   : Dword
  nrows  : Nat
  xlen   : Nat
deriving DecidableEq, Repr

/-- The first word of a header's reserved bytes that is not zero. -/
def reservedWord (bs : List Byte) : Option Nat := ((List.range 6).map fun i => 0x28 + 4 * i).find? fun o => field bs o 4 ≠ 0

/-- The piece that holds row `r`, among some stacks from piece `j` with first row `first`. -/
def State.csrPiece (s : State) (o : Op) (t : Team) (d : BitVec 256) (r : Nat) :
    List Nat → Nat → Nat → Except (Cause × Dword) (Option Csr) × State
  | [], _, _ => (.ok none, s)
  | k :: ks, j, first =>
    let at_ := BitVec.ofNat 64 (dBase d) + pieceOff d j
    match s.pieceBytes o t k at_ 64 with
    | (.error e, s) => (.error e, s)
    | (.ok bs, s) =>
      match reservedWord bs with
      | some w => (.error (.engineFault, at_ + BitVec.ofNat 64 w), s)
      | none =>
        let n := field bs 0x20 4
        if r < first + n then
          let w := fun (i : Nat) => BitVec.ofNat 64 (field bs (8 * i) 8)
          (.ok (some { stack := k, first := first, rowptr := w 0, colidx := w 1, vals := w 2, xrep := w 3, nrows := n,
                       xlen := field bs 0x24 4 }), s)
        else s.csrPiece o t d r ks (j + 1) (first + n)

/-- The elements of x that some columns select, `w` bytes each. -/
def State.csrX (s : State) (o : Op) (t : Team) (p : Csr) (w : Nat) :
    List Nat → Except (Cause × Dword) (List Nat) × State
  | [] => (.ok [], s)
  | c :: cs =>
    match s.pieceBytes o t p.stack (p.xrep + BitVec.ofNat 64 (w * c)) w with
    | (.error e, s) => (.error e, s)
    | (.ok bs, s) =>
      match s.csrX o t p w cs with
      | (.error e, s) => (.error e, s)
      | (.ok xs, s) => (.ok (ofBytes bs :: xs), s)

/-- Row `r` of a CSR matrix times x. -/
def State.csrElem (s : State) (o : Op) (t : Team) (d : BitVec 256) (sat r : Nat) : Row × State :=
  let f := mfmt (dFmt d)
  match s.csrPiece o t d r (stacksOf d) 0 0 with
  | (.error (c, a), s) => (.fault c a, s)
  | (.ok none, s) => (.ended, s)
  | (.ok (some p), s) =>
    let lr := r - p.first
    let at_ := p.rowptr + BitVec.ofNat 64 (4 * lr)
    match s.pieceBytes o t p.stack at_ 8 with
    | (.error (c, a), s) => (.fault c a, s)
    | (.ok bs, s) =>
      let lo := field bs 0 4
      let hi := field bs 4 4
      if hi < lo then (.fault .engineFault (at_ + 4), s)
      else
        let n := hi - lo
        let vb := f.bits / 8
        let xw := if dFmt d = 0 then 8 else 4
        let ca := p.colidx + BitVec.ofNat 64 (4 * lo)
        match s.pieceBytes o t p.stack ca (4 * n) with
        | (.error (c, a), s) => (.fault c a, s)
        | (.ok cb, s) =>
          match s.pieceBytes o t p.stack (p.vals + BitVec.ofNat 64 (vb * lo)) (vb * n) with
          | (.error (c, a), s) => (.fault c a, s)
          | (.ok vbs, s) =>
            let cols := (List.range n).map fun e => field cb (4 * e) 4
            match (List.range n).find? fun e => p.xlen ≤ (cols[e]?).getD 0 with
            | some e => (.fault .engineFault (ca + BitVec.ofNat 64 (4 * e)), s)
            | none =>
              match s.csrX o t p xw cols with
              | (.error (c, a), s) => (.fault c a, s)
              | (.ok xs, s) =>
                let term := fun e =>
                  elemMul f.elem (.flt (if xw = 8 then .f64 else .f32)) (field vbs (vb * e) vb) ((xs[e]?).getD 0)
                let (y, fl) := rowSum (if xw = 8 then 2 else 0) sat f.perGroup term n
                (.elem y fl, s)

/-! ## MVS and SVS -/

/-- The saturation of MVS and SVS, in the flags. -/
def stackSat (f : FormQ) : Nat := bits f.flags.toNat 0 2

/-- Ring elements that x of `k` columns takes. -/
def xUnits (x : Ring) (k : Nat) : Nat := if x.tag = 8 then (k + 1) / 2 else k

/-- MVS (R422). -/
def execMvs (h : Head) (f : FormQ) (s : State) : Host.Outcome State Fault Refusal :=
  let d := s.team.tile (slotA f)
  let inp := s.portName f.a
  let out := s.portName f.b
  issue (.mvs h f) h
    { pod := true, dst := some (hDst f.dst), illegal := decide (stackSat f = 2)
      bad := (portBad inp fun x => x.drn || x.esize != 4 || decide (x.depth < xUnits x (dPitch d))) ||
        (portBad out fun x => x.att || x.esize != 4) || dKind d != 4
      late := if (portRingOf inp).tag ≠ 3 ∧ (portRingOf inp).tag ≠ 8 then some (.formatMismatch, 1, 0)
        else if (portRingOf out).tag ≠ 3 then some (.formatMismatch, 2, 0)
        else if !denseFmts.contains (dFmt d) then some (.formatMismatch, 0, 0) else none } (fun c =>
    match inp, out with
    | some (i, _), some (r, _) =>
      let reg := (classOf f.dst).2
      c.afterOld reg fun s =>
        .done (c.issueOp (some reg) 15 (.mvs (slotA f) d i r (stackSat f) false [] 0) s).2 0
    | _, _ => c.stop .illegalOperand) s

/-- SVS (R424). -/
def execSvs (h : Head) (f : FormQ) (s : State) : Host.Outcome State Fault Refusal :=
  let d := s.team.tile (slotA f)
  let out := s.portName f.b
  issue (.svs h f) h
    { pod := true, dst := some (hDst f.dst), illegal := decide (stackSat f = 2)
      bad := (portBad out fun x => x.att || (csrFmts.contains (dFmt d) && x.esize != (if dFmt d = 0 then 8 else 4))) ||
        dKind d != 5
      late := if !csrFmts.contains (dFmt d) then some (.formatMismatch, 0, 0)
        else if (portRingOf out).tag ≠ (if dFmt d = 0 then 4 else 3) then some (.formatMismatch, 2, 0) else none } (fun c =>
    match out with
    | some (r, _) =>
      let reg := (classOf f.dst).2
      c.afterOld reg fun s =>
        .done (c.issueOp (some reg) 15 (.svs (slotA f) d r (stackSat f) 0) s).2 0
    | none => c.stop .illegalOperand) s

/-- The elements of x as f32 codes: a bf16x2 word holds two, the lower first. -/
def xElems (pairs : Bool) (ws : List Nat) : List Word :=
  ws.flatMap fun w =>
    if pairs then [BitVec.ofNat 32 (w % 2 ^ 16 * 2 ^ 16), BitVec.ofNat 32 (w / 2 ^ 16 * 2 ^ 16)] else [BitVec.ofNat 32 w]

/-- MVS_FIRE: x is claimed from the input ring once all of it is there (R422). -/
def execMvsFire (h : Nat) (s : State) : Host.Outcome State Fault Refusal :=
  match s.opTok h with
  | none => .next s
  | some o =>
    match o.kind, s.findTeam o.pod.team with
    | .mvs slot d i r sat false _ cond, some t =>
      match o.state, t.ring i with
      | .running, some x =>
        let n := xUnits x (dPitch d)
        if x.occ < n then .next s
        else
          let (bs, t, bad) := t.claimBytes i n
          let s := (s.onTeam t.id fun _ => t).tickle
          if bad then .next (s.failOp o .memUncorrectable 0 0)
          else
            let ws := (List.range n).map fun j => field bs (4 * j) 4
            let xs := (xElems (x.tag = 8) ws).take (dPitch d)
            .next (s.onOp h fun o => { o with kind := .mvs slot d i r sat true xs cond })
      | _, _ => .next s
    | _, _ => .next s

/-- Up to `n` rows from row `r`: their elements and conditions, and how they ended. -/
def rowsFrom (row : Nat → State → Row × State) : Nat → Nat → State → List Nat × BitVec 6 × Option Row × State
  | _, 0, s => ([], 0, none, s)
  | r, n + 1, s =>
    match row r s with
    | (.elem x fl, s) =>
      let (xs, fl', stop, s) := rowsFrom row (r + 1) n s
      (x :: xs, fl ||| fl', stop, s)
    | (stop, s) => ([], 0, some stop, s)

/-- More conditions of a stack operation. -/
def Op.moreCond (o : Op) (fl : BitVec 6) : Op :=
  match o.kind with
  | .mvs a b c d e f x cond => { o with kind := .mvs a b c d e f x (cond ||| fl) }
  | .svs a b c d cond => { o with kind := .svs a b c d (cond ||| fl) }
  | _ => o

/-- The conditions of a stack operation. -/
def Op.cond (o : Op) : BitVec 6 :=
  match o.kind with
  | .mvs _ _ _ _ _ _ _ c => c
  | .svs _ _ _ _ c => c
  | .matrix m => m.cond
  | _ => 0

/-- The next run of an operation's rows is pushed to ring `r` (R422). -/
def State.outputRun (s : State) (o : Op) (t : Team) (r : Nat) (row : Nat → State → Row × State) : State :=
  match t.ring r with
  | none => s
  | some x =>
    match rowsFrom row o.progress (min 64 x.depth) s with
    | (ys, fl, stop, s') =>
      if !x.takes ys.length then s
      else
        let push := fun (x : Ring) => ys.foldl (fun x y => (x.reserve 1).fill x.prd y) x
        let s := if ys.isEmpty then s' else
          ((s'.onTeam t.id fun t => t.onRing r push).onOp o.token fun o =>
            { o.moreCond fl with progress := o.progress + ys.length }).tickle
        match stop with
        | none => s
        | some (.fault c a) => s.failOp o c 0 a
        | some _ => (s.onPod o.pod fun p => p.raiseFl (o.moreCond fl).cond).completeOp o

/-- STACK_ENGINE_OUTPUT_RUN: a stack engine claims room for the next run of up to 64 elements of y and publishes them (R422,
R424). -/
def execStackEngineOutputRun (h : Nat) (s : State) : Host.Outcome State Fault Refusal :=
  match s.opTok h with
  | none => .next s
  | some o =>
    match o.state, o.kind, s.findTeam o.pod.team with
    | .running, .mvs _ d _ r sat true x _, some t => .next (s.outputRun o t r fun n s => s.denseElem o t d x sat n)
    | .running, .svs _ d r sat _, some t => .next (s.outputRun o t r fun n s => s.csrElem o t d sat n)
    | _, _, _ => .next s

end Sys2Proof.Machine
end

