-- ==== Sys2Proof/Machine/Collectives.lean ====
section
/-! DEFINITION. Collectives and the handle instructions (R401 to R408, R425 to R432). -/
namespace Sys2Proof.Machine

/-! ## Participants (R425, R525) -/

/-- Fields of a topology entry. -/
def entryPkg (e : Dword) : Nat := bits e.toNat 0 4
def entryValid (e : Dword) : Bool := e.getLsbD 4
def entryQueue (e : Dword) : Nat := bits e.toNat 8 14

/-- A stable order by package. -/
def byPkg (es : List Dword) : List Dword := sortBy (fun a b => entryPkg a ≤ entryPkg b) es

/-- The entries of a channel that a span uses, in the order of its participants; none where the queue has no descriptor. -/
def State.spanEntries (s : State) (q span ch : Nat) : List Dword :=
  match s.findQueue q with
  | none => []
  | some x =>
    if x.topo = 0 then []
    else
      let es := ((List.range 16).map fun i => x.entries.get (16 * ch + i)).filter entryValid
      if span = 1 then es.filter fun e => entryPkg e = Config.pkg.toNat else byPkg es

/-- The oldest of some grids. -/
def oldestGrid : List Grid → Option Grid
  | [] => none
  | g :: gs =>
    match oldestGrid gs with
    | none => some g
    | some h => if h.id < g.id then some h else some g

/-- The grid that an entry names for grids of a kernel header, if it is one of this package. -/
def State.namedGrid (s : State) (khdr e : Dword) : Option Grid :=
  if entryPkg e ≠ Config.pkg.toNat then none
  else oldestGrid (s.grids.filter fun g => g.queue = entryQueue e && g.kernel.khdr = khdr)

/-- The fields of an entry: its reserved bits are ignored (R6, R525). -/
def entryFields (e : Dword) : Nat := entryPkg e + (if entryValid e then 16 else 0) + 256 * entryQueue e

/-- Where an instance is found (R425): the grid, or the kernel header and the entries. -/
def State.collKey (s : State) (t : Team) (span ch : Nat) : List Nat :=
  if span = 0 then [t.id.grid] else t.kernel.khdr.toNat :: (s.spanEntries t.queue span ch).map entryFields

/-- Whether an entry lies on another package. -/
def isRemote (e : Nat) : Bool := e % 16 != Config.pkg.toNat

/-- The grids of an instance, in order: none for one that is not there yet, or lies on another package. -/
def State.collGrids (s : State) (c : Collective) : List (Option Grid) :=
  match c.span, c.key with
  | 0, g :: _ => [s.grids.find? fun x => x.id = g]
  | _, khdr :: es => es.map fun e => s.namedGrid (BitVec.ofNat 64 khdr) (BitVec.ofNat 64 e)
  | _, [] => []

/-- Whether an instance has participants on other packages. -/
def Collective.remote (c : Collective) : Bool := c.span != 0 && (c.key.drop 1).any isRemote

/-- Whether a channel of the span names the issuing team's grid (R405). -/
def State.namesOwn (s : State) (t : Team) (span ch : Nat) : Bool :=
  (s.spanEntries t.queue span ch).any fun e =>
    match s.namedGrid t.kernel.khdr e with
    | some g => g.id = t.id.grid
    | none => false

/-- Whether a team is the first participant of a span. -/
def State.firstOf (s : State) (t : Team) (span ch : Nat) : Bool :=
  t.id.l = 0 &&
    (if span = 0 then true
     else
      match s.spanEntries t.queue span ch with
      | e :: _ => (match s.namedGrid t.kernel.khdr e with
        | some g => g.id = t.id.grid
        | none => false)
      | [] => false)

/-- The joins of an instance in the order of its participants, if every local participant of a COLL has joined. -/
def State.collOrder (s : State) (c : Collective) : Option (List CollJoin) :=
  let es := if c.span = 0 then [0] else c.key.drop 1
  ((s.collGrids c).zip es).foldl (fun acc x =>
    match acc, x.1 with
    | none, _ => none
    | some js, none => if c.span ≠ 0 && isRemote x.2 then some js else none
    | some js, some g =>
      let own := (List.range (g.packet.nx * g.packet.ny * g.packet.nz)).map fun l =>
        c.joins.find? fun j => j.pod.team.grid = g.id && j.pod.team.l = l
      if own.all Option.isSome then some (js ++ own.filterMap id) else none) (some [])

/-- Whether every participant of a GBAR of this package has joined: every non-exited pod of every team. -/
def State.gbarFull (s : State) (c : Collective) : Bool :=
  let es := if c.span = 0 then [0] else c.key.drop 1
  ((s.collGrids c).zip es).all fun x =>
    match x.1 with
    | none => c.span != 0 && isRemote x.2
    | some g => g.unplaced.isEmpty && s.allPods.all fun p =>
        p.id.team.grid != g.id || p.done || c.joins.any fun j => j.pod = p.id

/-- Adds a participant to the instance that it joins, which it opens if it is the first. -/
def State.joinColl (s : State) (gbar : Bool) (span ch index : Nat) (sl : Slice) (j : CollJoin) : Nat × State :=
  let key := s.collKey s.team span ch
  let same := fun (c : Collective) => c.gbar == gbar && c.span == span && c.chan == ch && c.key == key && c.index == index &&
    (gbar || c.slice == sl)
  match s.colls.find? same with
  | some c => (c.id, { s with colls := s.colls.map fun x => if x.id = c.id then { x with joins := x.joins ++ [j] } else x })
  | none =>
    (s.nextColl,
      { s with nextColl := s.nextColl + 1
               colls := s.colls ++ [{ id := s.nextColl, gbar := gbar, span := span, chan := ch, key := key, index := index,
                                      slice := sl, joins := [j] }] })

/-- Counts one more instance of a pod under key `k` (R425). -/
def Pod.countJoin (p : Pod) (k : Nat) : Nat × Pod := ((p.joined.get k).toNat, { p with joined := p.joined.set k (p.joined.get k + 1) })

/-! ## Types (R427, R428) -/

/-- Tag of the contribution of a type. -/
def collTag (ty : Nat) : Nat := [3, 4, 1, 2, 5, 6, 7, 8, 9, 10, 11, 14, 17, 18].getD ty 0

/-- Registers of the contribution. -/
def collRegs (ty : Nat) : Nat := if ty = 12 ∨ ty = 13 then 4 else tagRegs (BitVec.ofNat 5 (collTag ty))

/-- Elements of one thread's contribution. -/
def collElems (ty : Nat) : Nat := if ty = 12 ∨ ty = 13 then 21 else 32 * collRegs ty / (elemOf (collTag ty)).width

/-- Whether the type is an integer one. -/
def collInt (ty : Nat) : Bool := decide (2 ≤ ty) && decide (ty ≤ 5)

/-- Registers of one element of the result, and the tag of the result. -/
def collUnit (ty : Nat) : Nat := if ty = 1 ∨ ty = 4 ∨ ty = 5 then 2 else 1
def collResTag (ty : Nat) : BitVec 5 := BitVec.ofNat 5 (if collInt ty || ty = 1 then collTag ty else 3)

/-- Registers of the result. -/
def collResRegs (ty : Nat) : Nat := collUnit ty * (if collInt ty then 1 else collElems ty)

/-- The exact value of a contributed element, with its scale. -/
def collValue (ty : Nat) (sc : Bool) (v : BitVec 64) : Num × BitVec 6 :=
  let e := elemOf (collTag ty)
  let x := e.value (v.toNat % 2 ^ e.width)
  if sc then scaleProduct x [Elem.e8m0.value (bits v.toNat 32 8)] else x

/-- One level of the tree of R429. -/
def treeLevel (F : Fmt) : List (Num × BitVec 6) → List (Num × BitVec 6)
  | a :: b :: l =>
    let (x, fl) := a.1.add b.1 false
    let r := F.round x 0 0 false 0
    (F.decode r.code, a.2 ||| b.2 ||| fl ||| r.fl) :: treeLevel F l
  | l => l

/-- The tree of R429; each level at least halves the list. -/
def treeSum (F : Fmt) : Nat → List (Num × BitVec 6) → Num × BitVec 6
  | 0, l => l.headD (.zero false, 0)
  | n + 1, l => if l.length ≤ 1 then l.headD (.zero false, 0) else treeSum F n (treeLevel F l)

/-- The result of one position: the contributions in order, none where a thread was inactive (R428, R429). -/
def collCombine (op kind ty : Nat) (exact sc : Bool) (vs : List (Option (BitVec 64))) : Nat × BitVec 6 :=
  if collInt ty then
    let e := elemOf (collTag ty)
    let (lo, hi) := e.range
    let w := e.width
    let num := fun (d : Int) (v : Option (BitVec 64)) => v.elim d fun v => (e.value (v.toNat % 2 ^ w)).1.toInt
    let r : Int :=
      if kind = 2 then num 0 (vs.headD none)
      else if op = 0 then (vs.map (num 0)).foldl (· + ·) 0
      else if op = 1 then (vs.map (num hi)).foldl min hi
      else (vs.map (num lo)).foldl max lo
    (wrap w r, 0)
  else
    let F : Fmt := if ty = 1 then .f64 else .f32
    let ident : Num := if op = 0 then .zero false else .inf (op = 2)
    let ns := vs.map fun v => v.elim (ident, 0) (collValue ty sc)
    let out := fun (x : Num) (fl : BitVec 6) =>
      let r := F.round x 0 0 false 0
      (r.code, fl ||| r.fl)
    if kind = 2 then out (ns.headD (ident, 0)).1 0
    else if op ≠ 0 then
      let codes := ns.map fun x => (F.round x.1 0 0 false 0).code
      let fl := ns.foldl (fun fl x => fl ||| x.2) 0
      ((codes.drop 1).foldl (fun a b => (minMax F (op = 2) false a b).1) (codes.headD 0), fl)
    else if exact then
      let (x, fl) := sumNums (ns.map (·.1))
      out x (ns.foldl (fun fl x => fl ||| x.2) fl)
    else
      let (x, fl) := treeSum F ns.length ns
      out x fl

/-! ## COLL (R425 to R431) -/

/-- The kind of a COLL, desc [37:36]. -/
def collKindOf (d : BitVec 12) : Nat := bits d.toNat 7 2
def collOpOf (d : BitVec 12) : Nat := bits d.toNat 9 3
/-- The type, `.exact` and `.sc`. -/
def collTyOf (f : BitVec 9) : Nat := bits f.toNat 4 4
def collExactOf (f : BitVec 9) : Bool := f.getLsbD 8
def collScOf (f : BitVec 9) : Bool := f.getLsbD 3

/-- Threads of a pod that contribute (R428). -/
def collThreads (w : Nat) (m : Mask) : List Nat := (threadsOf w m).filter fun t => t < 16

/-- The elements that a pod contributes. -/
def Pod.contribution (p : Pod) (ty a c : Nat) (sc : Bool) (m : Mask) : List (Nat × BitVec 64) :=
  let w := (elemOf (collTag ty)).width
  (collThreads p.width m).flatMap fun t =>
    let x := p.rdRun t a (collRegs ty)
    let s := if sc then (p.rdV t c).toNat % 256 else 0
    (List.range (collElems ty)).map fun e => (t * 32 + e, BitVec.ofNat 64 (bits x (w * e) w + s * 2 ^ 32))

/-- The first field of a COLL whose tags are wrong (R428). -/
def Pod.collTagBad (p : Pod) (ty a : Nat) (c : Option Nat) (b : Option Nat) : Option Nat :=
  let all := fun (r n : Nat) (tag : BitVec 5) => (List.range n).all fun i => p.tagOf (r + i) == tag
  if !all a (collRegs ty) (BitVec.ofNat 5 (collTag ty)) then some 1
  else if !(b.elim true fun r => all r (collResRegs ty) (collResTag ty)) then some 2
  else if !(c.elim true fun r => all r 1 21) then some 3
  else none

/-- The v register of a code, if it names one. -/
def vOf (c : Code) : Option Nat :=
  match classOf c with
  | (.v, r) => some r
  | _ => none

/-- Whether a COLL of the issuing pod receives a result (R427): a reduction to the first participant gives it to that one alone. -/
def State.collReceives (s : State) (f : FormQ) : Bool := collKindOf f.desc != 0 || s.firstOf s.team f.span f.channel

/-- What COLL asks before its own checks (R405, R427, R428). -/
def State.collSpec (s : State) (f : FormQ) : Spec :=
  let ty := f.collTy
  { pod := true, dst := some (hDst f.dst)
    illegal := s.pod.id.idx != 0 || (f.span != 0 && !s.namesOwn s.team f.span f.channel)
    srcs := [{ field := 1, arg := .code f.a, acc := [.v], regs := collRegs ty },
             { field := 3, arg := .code f.c, acc := if f.collSc then [.v] else [.v, .zero] }]
    bad := !s.dstOk { code := f.b, acc := [.v, .zero], regs := collResRegs ty, units := collResRegs ty / collUnit ty } ||
      (!s.collReceives f && (classOf f.b).1 != .zero)
    late := (s.pod.collTagBad ty (classOf f.a).2 (if f.collSc then vOf f.c else none) (vOf f.b)).map fun n => (.formatMismatch, n, 0) }

/-- What the issuing pod brings to a COLL: the join that its next token stands for (R428). -/
def State.collJoin (s : State) (f : FormQ) (m : Mask) : CollJoin :=
  { pod := s.pod.id, token := s.nextToken, desc := f.desc, flags := f.flags, gets := s.collReceives f, reg := vOf f.b, active := m
    vals := s.pod.contribution f.collTy (classOf f.a).2 ((vOf f.c).getD 0) f.collSc m }

/-- The issuing pod joins the next instance of a collective that it takes part in (R425): the instance, and the state. -/
def State.joinNext (s : State) (gbar : Bool) (f : FormQ) (j : CollJoin) : Nat × State :=
  let (m, p) := s.pod.countJoin (if !gbar then f.channel else if f.span = 0 then 32 else 16 + f.channel)
  (s.setPod p).joinColl gbar f.span f.channel m p.id.slice j

/-- COLL. -/
def execColl (h : Head) (f : FormQ) (s : State) : Host.Outcome State Fault Refusal :=
  issue (.coll h f) h (s.collSpec f) (fun c =>
    let reg := (classOf f.dst).2
    if c.s.team.kernel.shadow then c.stop .irrevocableAbort
    else
      c.afterOld reg fun s => c.tryPod (s.irrevocable s.pod.id.team) fun s =>
        let (n, u) := s.joinNext false f (s.collJoin f c.act)
        let (o, u) := c.issueOp (some reg) 15 (.coll n) u
        .done (if s.collReceives f then u else u.completeOp o) 0) s

/-- The result that one participant receives: its registers, its conditions, and the first 12 bytes of it in its handle slot (R279, R428; log
30). A zero B discards the registers alone. -/
def State.deliver (s : State) (free : Bool) (js : List CollJoin) (j : CollJoin) : State :=
  match s.findPod j.pod with
  | none => s
  | some p =>
    if !j.gets then s
    else
      let ty := collTyOf j.flags
      let u := collUnit ty
      let n := if collInt ty then 1 else collElems ty
      let at_ := (collThreads p.width j.active).flatMap fun t => (List.range n).map fun e => (t, e)
      let (vals, s) := at_.foldl (fun (acc : List (Nat × BitVec 6) × State) x =>
        if free then
          -- a contribution of another package, or of another operation, is not known here
          let (v, s) := acc.2.choose (2 ^ (32 * u))
          let (fl, s) := if collInt ty then (0, s) else s.choose 64
          (acc.1 ++ [(v, BitVec.ofNat 6 fl)], s)
        else
          (acc.1 ++ [collCombine (collOpOf j.desc) (collKindOf j.desc) ty (collExactOf j.flags) (collScOf j.flags)
            (js.map fun k => (k.vals.find? fun y => y.1 = x.1 * 32 + x.2).map (·.2))], acc.2)) ([], s)
      let s := s.onOp j.token fun o => { o with result := (vals.flatMap fun y => toBytes (4 * u) y.1).take 12 }
      s.onPod j.pod fun p =>
        let p := p.raiseFl (vals.foldl (fun fl y => fl ||| y.2) 0)
        match j.reg with
        | none => p
        | some b =>
          let p := (at_.zip vals).foldl (fun p y => p.wrRun y.1.1 (b + u * y.1.2) u y.2.1) p
          p.wrTags (collResTag ty) b (u * n)

/-- COLL_INSTANCE_COMPLETE: every participant has joined; each receives its result, and its handle completes (R428, R429). -/
def execCollInstanceComplete (n : Nat) (s : State) : Host.Outcome State Fault Refusal :=
  match s.colls.find? fun c => c.id = n && !c.gbar with
  | none => .next s
  | some c =>
    match s.collOrder c with
    | none => .next s
    | some js =>
      -- a broadcast takes the first contribution alone, which is known where the first participant is of this package
      let odd := js.any fun j => (j.desc, j.flags) != (match js with | k :: _ => (k.desc, k.flags) | [] => (0, 0))
      let bcastHere := js.all (fun j => collKindOf j.desc = 2) &&
        (match c.key.drop 1 with | e :: _ => !isRemote e | [] => true)
      let free := odd || (c.remote && !bcastHere)
      let s := js.foldl (fun s j => s.deliver free js j) s
      let s := js.foldl (fun s j =>
        match s.opTok j.token with
        | some o => if o.state = .running then s.completeOp o else s
        | none => s) s
      .next ({ s with colls := s.colls.filter fun x => x.id ≠ n } : State).tickle

/-! ## GBAR (R425, R432) -/

/-- What the issuing pod brings to a GBAR. -/
def State.gbarJoin (s : State) (f : FormQ) (m : Mask) : CollJoin :=
  { pod := s.pod.id, token := s.nextToken, desc := f.desc, flags := f.flags, gets := false, reg := none, active := m, vals := [] }

/-- GBAR. -/
def execGbar (h : Head) (f : FormQ) (s : State) : Host.Outcome State Fault Refusal :=
  issue (.gbar h f) h
    { pod := true, dst := some (hDst f.dst), illegal := f.span != 0 && !s.namesOwn s.team f.span f.channel } (fun c =>
    let reg := (classOf f.dst).2
    c.afterOld reg fun s =>
      let (n, s) := s.joinNext true f (s.gbarJoin f c.act)
      .done (c.issueOp (some reg) 15 (.gbar n) s).2 0) s

/-- GBAR_COMPLETE: every participant has arrived (R432). -/
def execGbarComplete (n : Nat) (s : State) : Host.Outcome State Fault Refusal :=
  match s.colls.find? fun c => c.id = n && c.gbar with
  | none => .next s
  | some c =>
    if !s.gbarFull c then .next s
    else
      let s := c.joins.foldl (fun s j =>
        match s.opTok j.token with
        | some o => if o.state = .running then s.completeOp o else s
        | none => s) s
      .next ({ s with colls := s.colls.filter fun x => x.id ≠ n } : State).tickle

/-! ## Handle instructions (R406, R407) -/

/-- A handle operand. -/
def hSrc (c : Code) : Src := { field := 1, arg := .code c, acc := [.h] }

/-- HANDLE_INVALID at a register (R112, R264). -/
def Ctx.noHandle (c : Ctx) (reg : Nat) : Eff := .raise (c.s.pod.before .handleInvalid 0 (BitVec.ofNat 32 reg) 0) c.s

/-- HWAIT. -/
def execHwait (h : Head) (f : FormR) (s : State) : Host.Outcome State Fault Refusal :=
  issue (.hwait h f) h { pod := true, srcs := [hSrc f.a] } (fun c =>
    let reg := (classOf f.a).2
    let tok := c.s.pod.h.get reg
    let k := (c.s.opOf tok).elim 0 Op.kpos
    match c.s.readHandle tok with
    | .invalid => c.noHandle reg
    | .ok s => .done s 0
    | .wait s => .hold .handle s
    | .fault x a s => .raise (s.pod.handleTrap x reg k a) s) s

/-- The number that HTEST gives for a state. -/
def OpState.code : OpState → Nat
  | .running => 0
  | .complete => 1
  | .faulted => 2
  | .held => 3

/-- HTEST. -/
def execHtest (h : Head) (f : FormR) (s : State) : Host.Outcome State Fault Refusal :=
  issue (.htest h f) h { pod := true, srcs := [hSrc f.a], dst := some { code := f.dst, acc := [.p, .k] } } (fun c =>
    let reg := (classOf f.a).2
    match c.s.opOf (c.s.pod.h.get reg) with
    | none => c.noHandle reg
    | some o =>
      -- a GBAR is complete for the pod when its outstanding loads have returned (R335)
      let st := if o.state = .complete && o.isGbar && c.s.pod.loading then .running else o.state
      let s := if st = .complete then c.s.onOp o.token fun o => { o with seen := true } else c.s
      match classOf f.dst with
      | (.p, n) => .done (s.setPod (s.pod.wrPred n c.act (if st = .complete then c.act else 0))) 0
      | _ => .done (c.put st.code s) 0) s

/-- An operation is discarded: its faults, its flags and its place at a ring go with it (R407). -/
def State.discardOp (s : State) (o : Op) : State :=
  let s := (s.detach o).dropFlags o
  let s := s.onPod o.pod fun p => { p with deferred := p.deferred.filter fun d => d.op ≠ some o.token }
  let s := s.onPod o.pod fun p => p.raiseFl o.cond
  ({ s with ops := s.ops.filter fun x => x.token ≠ o.token } : State).tickle

/-- The issuing pod's handle register becomes invalid. -/
def State.clearHandle (s : State) (reg : Nat) : State := s.setPod { s.pod with h := s.pod.h.set reg 0 }

/-- HCAN. -/
def execHcan (h : Head) (f : FormR) (s : State) : Host.Outcome State Fault Refusal :=
  issue (.hcan h f) h { pod := true, srcs := [hSrc f.a] } (fun c =>
    let reg := (classOf f.a).2
    match c.s.opOf (c.s.pod.h.get reg) with
    | none => c.noHandle reg
    | some o =>
      match o.state, o.kind with
      | .complete, _ => .done (c.s.clearHandle reg) 0
      | .running, .coll _ => .hold .handle (c.s.onOp o.token fun o => { o with readAt := some (o.readAt.getD c.s.cycle) })
      | .running, .gbar _ => .hold .handle (c.s.onOp o.token fun o => { o with readAt := some (o.readAt.getD c.s.cycle) })
      | .running, .tiercp .. =>
        if o.part = 0 ∧ o.asks = [] then .done ((c.s.discardOp o).clearHandle reg) 0
        else .hold .handle (c.s.onOp o.token fun o => { o with cancel := true })
      | _, _ => .done ((c.s.discardOp o).clearHandle reg) 0) s

/-- The exchange slot that source `i` names. -/
def slotSrc (c : Code) : Src := uniSrc 2 (.code c)

/-- HPASS. -/
def execHpass (h : Head) (f : FormR) (s : State) : Host.Outcome State Fault Refusal :=
  issue (.hpass h f) h { pod := true, srcs := [hSrc f.a, slotSrc f.b], bad := decide (15 < s.argVal (.code f.b)) } (fun c =>
    let reg := (classOf f.a).2
    let n := c.val 1 0
    let tok := c.s.pod.h.get reg
    if (c.s.opOf tok).isNone then c.noHandle reg
    else if c.s.team.xchg.any fun x => x.1 = n then .hold .handle c.s
    else
      let s := c.s.setTeam { c.s.team with xchg := c.s.team.xchg ++ [(n, tok, c.s.pod.id)] }
      .done ((s.clearHandle reg).tickle) 0) s

/-- HTAKE. -/
def execHtake (h : Head) (f : FormR) (s : State) : Host.Outcome State Fault Refusal :=
  issue (.htake h f) h
    { pod := true, dst := some (hDst f.dst), srcs := [slotSrc f.b], bad := decide (15 < s.argVal (.code f.b)) } (fun c =>
    let reg := (classOf f.dst).2
    let n := c.val 0 0
    c.afterOld reg fun s =>
      match s.team.xchg.find? fun x => x.1 = n with
      | none => .hold .handle s
      | some x =>
        let s := s.setTeam { s.team with xchg := s.team.xchg.filter fun y => y.1 ≠ n }
        .done ((s.setPod { s.pod with h := s.pod.h.set reg x.2.1 }).tickle) 0) s

/-! ## Long waits (R426) -/

/-- Cycles of 20 µs at 1.4 GHz (R16, R426). -/
def parkAfter : Nat := 28000

/-- The lowest free entry of a queue's context pool: its address and its record (R438). -/
def State.poolEntry (s : State) (q : Nat) : Option (Nat × Nat) :=
  match s.findQueue q with
  | none => none
  | some x =>
    match (List.range x.ctxn).find? fun i => !bit (s.rdNat (x.ctxpool + 8 * i) 8) 0 with
    | none => none
    | some i => some (x.ctxpool + 8 * i, bits (s.rdNat (x.ctxpool + 8 * i) 8) 12 40 * 4096)

/-- Whether a pod has waited long enough on a COLL or GBAR for its team to be parked, and the context pool has room (R438). -/
def State.parkDue (s : State) (p : Pod) : Bool :=
  (match p.wait with
    | some w => w.kind == .handle
    | none => false) &&
  (s.ops.any fun o => o.state = .running && (match o.kind with
      | .coll _ => true
      | .gbar _ => true
      | _ => false) &&
    (List.range 16).any (fun r => (p.h.get r).toNat = o.token) &&
    (match o.readAt with
      | some c => decide (c + parkAfter ≤ s.cycle)
      | none => false)) &&
  (s.grids.any fun g => g.id = p.id.team.grid && !g.unplaced.isEmpty && (s.poolEntry g.queue).isSome)

/-- HANDLE_WAIT_PARK: the distributor asks for a save of the team, so that unplaced teams of its grid find room (R426). -/
def execHandleWaitPark (p : PodId) (s : State) : Host.Outcome State Fault Refusal :=
  match s.findPod p, s.findTeam p.team with
  | some q, some t =>
    if s.parkDue q && t.place = .resident && t.saving.isNone && !t.kernel.shadow then
      .next (s.onTeam p.team fun t => { t with saving := some .park })
    else .next s
  | _, _ => .next s

end Sys2Proof.Machine
end

