-- ==== Sys2Proof/Machine/Supervise.lean ====
section
/-! DEFINITION. Instructions that act on other teams and on the dispatcher: LAUNCH, WAITCH, FETCHW, HALT, RESUME, ABORTP and ACORN
(R254 to R259). -/
namespace Sys2Proof.Machine

/-! ## LAUNCH (R254) -/

/-- Whether the issuing team may feed a queue: it is enabled, DEVFEED is set, and its partition is that of the team's own queue. -/
def State.feedsQueue (s : State) (q : Nat) : Bool :=
  match s.findQueue q with
  | none => false
  | some x => decide (q < 16384) && x.enabled && x.devfeed && s.wqpart.get q == s.wqpart.get s.team.queue

/-- Packets written to a queue and not taken. -/
def Queue.untaken (q : Queue) : Nat := (q.tail - q.head).toNat

/-- Whether the named queues have room for a packet of each thread. -/
def State.launchRoom (s : State) (qs : List Nat) : Bool :=
  qs.eraseDups.all fun q =>
    match s.findQueue q with
    | none => false
    | some x => decide (x.untaken + qs.count q ≤ 2 ^ x.lsize)

/-- Changes a queue. -/
def State.onQueue (s : State) (q : Nat) (f : Queue → Queue) : State :=
  { s with queues := s.queues.map fun x => if x.q = q then f x else x }

/-- Changes a grid. -/
def State.onGrid (s : State) (g : Nat) (f : Grid → Grid) : State :=
  { s with grids := s.grids.map fun x => if x.id = g then f x else x }

/-- Enqueues a packet of 64 bytes for the issuing team, with PRIO and DEPTH (R254, R439). -/
def State.enqueue (s : State) (q : Nat) (bs : List Byte) : State :=
  match s.findQueue q with
  | none => s
  | some x =>
    let bs := bs.take 0x3A ++ [BitVec.ofNat 8 s.pod.prio.toNat, BitVec.ofNat 8 (s.team.depth + 1)] ++ bs.drop 0x3C
    let s := s.writeOut (x.ring + 64 * (x.tail.toNat % 2 ^ x.lsize)) bs
    let s := s.onQueue q fun y => { y with
      tail := y.tail + 1, parents := y.parents ++ [(x.tail.toNat, s.team.id.grid, s.team.id.l, s.core)]
      waiting := if y.untaken = 0 then s.cycle else y.waiting }
    let s := s.onGrid s.team.id.grid fun g => { g with children := g.children + 1 }
    (s.setTeam { s.team with children := s.team.children + 1 }).tickle

/-- PROTECTION, reason 0x17 (R254). -/
def feedFault (s : State) : Act := .fault .protection (xlateArg 0xFF 0x17) 0 s

/-- One thread's LAUNCH: its packet is read, its queue is checked again, and a copy is enqueued. -/
def Ctx.launchTurn (c : Ctx) (dst : Code) (t : Nat) (s : State) : Act :=
  let q := c.val 0 t
  let a := BitVec.ofNat 64 (c.val 1 t)
  match { c with s := s }.pollBytes a 32 with
  | .fault x g addr s => .fault x g addr s
  | .asked s => .wait .poll s
  | .got lo s =>
    match { c with s := s }.pollBytes (a + 32) 32 with
    | .fault x g addr s => .fault x g addr s
    | .asked s => .wait .poll s
    | .got hi s =>
      if !s.feedsQueue q then feedFault s
      else
        let s := s.enqueue q (toBytes 32 lo ++ toBytes 32 hi)
        match classOf dst with
        | (.p, n) => .ok (s.setPod (s.pod.wrPred n (one t) (one t)))
        | _ => .ok s

/-- A cause at the first of some failing threads, before any effect. -/
def Ctx.failAt (c : Ctx) (x : Cause) (arg : Word) (ts : List Nat) : Eff :=
  if c.uni then .raise (c.s.pod.before x 0 arg 0) c.s
  else .raise (c.s.pod.atThread x (ts.headD 0) (maskOf ts) arg 0) c.s

/-- LAUNCH. -/
def execLaunch (h : Head) (f : FormQ) (s : State) : Host.Outcome State Fault Refusal :=
  issue (.launch h f) h
    { srcs := [{ field := 1, arg := .code f.a, acc := valAcc }, { field := 2, arg := .code f.b, acc := [.v, .k], regs := 2 }]
      dst := some { code := f.dst, acc := [.p, .zero] } } (fun c => c.outsideTx <|
    let bad := c.lanes.filter fun t => !c.s.feedsQueue (c.val 0 t)
    if c.s.team.depth = 10 then c.failAt .nestDepth 0 c.lanes
    else if c.s.team.kernel.shadow then c.failAt .irrevocableAbort 0 c.lanes
    else if !bad.isEmpty then c.failAt .protection (xlateArg 0xFF 0x17) bad
    else if !c.s.launchRoom (c.lanes.map fun t => c.val 0 t) then
      if f.flags.getLsbD 0 then
        (match classOf f.dst with
          | (.p, n) => .done (c.s.setPod (c.s.pod.wrPred n c.mask 0)) 0
          | _ => .done c.s 0)
      else .hold .time c.s
    else
      match (c.s.irrevocable c.s.pod.id.team).then_ fun s => s.release s.pod.id.team 4 with
      | .ok s => c.runThreads (c.launchTurn f.dst) c.lanes 0 s
      | .fail x s => .raise (if c.uni then c.s.pod.before x 0 0 0 else c.s.pod.atThread x (c.lanes.headD 0) c.mask 0 0) s
      | .wait k s => .hold k s) s

/-! ## WAITCH and FETCHW (R255, R256) -/

/-- WAITCH. -/
def execWaitch (h : Head) (f : FormR) (s : State) : Host.Outcome State Fault Refusal :=
  issue (.waitch h f) h { pod := true, dst := some (kDst f.dst) } (fun c =>
    let n := c.s.team.children
    if f.flags.getLsbD 0 then .done (c.put n c.s) 0
    else if n = 0 then .done (c.put 0 c.s) 0
    else .hold .time c.s) s

/-- FETCHW: the flag of the mailbox becomes 0 and the request is open. -/
def execFetchw (h : Head) (f : FormR) (s : State) : Host.Outcome State Fault Refusal :=
  issue (.fetchw h f) h { pod := true, srcs := [uniSrc 1 (.code f.a)] } (fun c =>
    let o := c.val 0 0
    let at_ := BitVec.ofNat 64 o
    if o % 32 ≠ 0 then .raise (c.s.pod.before .misaligned 0 0 at_) c.s
    else if !c.s.team.sharedOk o 32 then .raise (c.s.pod.before .stashBounds 0 0 at_) c.s
    else if c.s.team.mailboxes.contains o then .done c.s 0
    else
      let s := c.s.wrShared o (toBytes 4 0)
      .done ((s.setTeam { s.team with mailboxes := s.team.mailboxes ++ [o] }).tickle) 0) s

/-! ## HALT, RESUME and ABORTP (R258) -/

/-- The teams that a grid identifier and a linear number name: one, or the copies of a shadow team. -/
def State.namedTeams (s : State) (g l : Nat) : List Team :=
  s.allTeams.filter fun t => g ≠ 0 && t.id.grid = g && t.id.l = l && t.place ≠ .exited

/-- Whether a team exists: it is one of those above, or waits for its first placement. -/
def State.teamExists (s : State) (g l : Nat) : Bool :=
  !(s.namedTeams g l).isEmpty || s.grids.any fun x => x.id = g && x.unplaced.contains l

/-- Whether a named team is resident. -/
def residentIn (ts : List Team) : Bool := ts.any fun t => t.place = .resident

/-- What HALT, RESUME, ABORTP and DSTEP check: their operands and the privilege (R100); the first three do not name the issuing team
(`own`; R258). DESIGN CHOICE (log 29): an ILLEGAL_OPERAND that depends on the value of an operand is raised with the other operand checks,
step 4 of R85, before PRIVILEGE; R85 does not list values. -/
def State.overTeam (s : State) (f : FormR) (own : Bool) : Spec :=
  { pod := true, dst := some (kDst f.dst), srcs := [uniSrc 1 (.code f.a), uniSrc 2 (.code f.b)]
    bad := own && s.argVal (.code f.a) = s.team.id.grid && s.argVal (.code f.b) = s.team.id.l
    priv := !s.team.kernel.super }

/-- The status that a pod will write when the action it waits for is complete. -/
def Pod.pendingStatus (p : Pod) : Option Nat :=
  match p.wait with
  | some w => if w.kind = .time then w.until_.bind fun u => if 10 ≤ u then some (u - 10) else none else none
  | none => none

/-- The pod waits for an action after which it writes a status. -/
def State.awaitStatus (s : State) (x : Nat) : Eff :=
  .hold .time (s.setPod { s.pod with wait := some ⟨.time, s.cycle, some (10 + x), s.progress⟩ })

/-- HALT: complete once every pod of the team has come to an instruction boundary. -/
def execHalt (h : Head) (f : FormR) (s : State) : Host.Outcome State Fault Refusal :=
  issue (.halt h f) h (s.overTeam f true) (fun c =>
    let ts := c.s.namedTeams (c.val 0 0) (c.val 1 0)
    let still := fun (s : State) => ts.all fun t => s.atBoundary t.id
    match c.s.pod.pendingStatus with
    | some x => if still c.s then .done (c.put x c.s) 0 else .hold .time c.s
    | none =>
      if !c.s.teamExists (c.val 0 0) (c.val 1 0) then .done (c.put 1 c.s) 0
      else if !residentIn ts then .done (c.put 2 c.s) 0
      else
        let s := ts.foldl (fun s t => s.haltTeam t.id) c.s
        if still s then .done (c.put 0 s) 0 else s.awaitStatus 0) s

/-- Takes DEBUG_HALT from every pod of a team. -/
def State.unhaltTeam (s : State) (t : TeamId) : State :=
  ((s.onTeam t fun x => { x with halted := false }).mapPods fun p =>
    if p.id.team = t then { p with cause := p.cause &&& ~~~(BitVec.ofNat 64 (2 ^ 29)), halted := false } else p).tickle

/-- RESUME. -/
def execResume (h : Head) (f : FormR) (s : State) : Host.Outcome State Fault Refusal :=
  issue (.resume h f) h (s.overTeam f true) (fun c =>
    let ts := c.s.namedTeams (c.val 0 0) (c.val 1 0)
    if !c.s.teamExists (c.val 0 0) (c.val 1 0) then .done (c.put 1 c.s) 0
    else if !ts.any Team.halted then .done (c.put 4 c.s) 0
    else .done (c.put 0 (ts.foldl (fun s t => s.unhaltTeam t.id) c.s)) 0) s

/-- A request to abort a team (R51, R273): a shadow team and a restartable phase are aborted, any other is saved. The status of
ABORTP. -/
def State.requestAbort (s : State) (ts : List Team) : Nat × State :=
  let busy := ts.any fun t => t.saving.isSome
  let save := ts.any fun t => t.irrev && !t.kernel.shadow
  let x := if ts.any fun t => t.saving.isSome && t.saving != some .abort then 3 else if !busy && save then 3 else 0
  (x, if busy then s else
    ts.foldl (fun s t => s.onTeam t.id fun t => { t with saving := some (if save then .preempt else .abort) }) s)

/-- ABORTP. -/
def execAbortp (h : Head) (f : FormR) (s : State) : Host.Outcome State Fault Refusal :=
  issue (.abortp h f) h (s.overTeam f true) (fun c =>
    let ts := c.s.namedTeams (c.val 0 0) (c.val 1 0)
    match c.s.pod.pendingStatus with
    | some x => if ts.any fun t => t.saving.isSome then .hold .time c.s else .done (c.put x c.s) 0
    | none =>
      if !c.s.teamExists (c.val 0 0) (c.val 1 0) then .done (c.put 1 c.s) 0
      else if !residentIn ts then .done (c.put 2 c.s) 0
      else
        let (x, s) := c.s.requestAbort ts
        s.awaitStatus x) s

/-! ## ACORN (R259, R454 to R456) -/

/-- Bit `i` of a flag set becomes `x`. -/
def setBit {w : Nat} (m : BitVec w) (i : Nat) (x : Bool) : BitVec w :=
  if x then m ||| BitVec.ofNat w (2 ^ i) else m &&& ~~~(BitVec.ofNat w (2 ^ i))

/-- Every flag and token white, and no termination declared: a new detection (R456). -/
def State.acornFresh (s : State) : State :=
  { s with acornBlack := 0, acornToken := 0, acornCBlack := 0, acornQuiet := 0, acornTerm := 0, dieToken := false, dieTerm := false,
           acornst := false }

/-- The flags of a cluster's cores. -/
def clusterCores (c : Nat) : BitVec 2048 := BitVec.ofNat 2048 ((2 ^ 32 - 1) * 2 ^ (32 * c))

/-- ACORN.white: ring `r`'s token is white, and its members' flags are cleared; it ends a declared state. -/
def State.acornWhite (s : State) (r : Nat) : State :=
  if s.dieTerm then s.acornFresh
  else if r = 64 then { s with dieToken := false, acornCBlack := 0 }
  else { s with acornToken := setBit s.acornToken r false, acornBlack := s.acornBlack &&& ~~~(clusterCores r),
                acornTerm := setBit s.acornTerm r false }

/-- Termination is declared on the die ring (R456). -/
def State.declareTerm (s : State) : State := ({ s with dieTerm := true, acornst := true } : State).note .terminationInterrupt

/-- ACORN.read: the token of a cluster ring passes cores, that of the die ring the clusters (R454). -/
def State.acornRead (s : State) (core r : Nat) : Nat :=
  let done := if r = 64 then s.dieTerm else s.acornTerm.getLsbD r || s.acornQuiet.getLsbD r
  let pass := if r = 64 then s.diePass.getLsbD (clusterOf core) else s.acornPass.getLsbD core
  (if s.acornBlack.getLsbD core then 1 else 0) + (if pass then 2 else 0) + (if done then 4 else 0)

/-- ACORN. DESIGN CHOICE (log 29): its ring number, an operand's value, is checked with the operands, at step 4 of R85. -/
def execAcorn (h : Head) (f : FormRI) (s : State) : Host.Outcome State Fault Refusal :=
  let op := f.low.toNat
  let ring := s.argVal (f.argB 32)
  issue (.acorn h f) h
    { pod := true, dst := some (kDst f.dst), srcs := [uniSrc 2 (f.argB 32)], bad := decide (64 < ring) || (op == 1 && ring != 0)
      priv := decide (2 ≤ op) && !s.team.kernel.super } (fun c =>
    let r := c.val 0 0
    let core := c.s.core
    match op with
    | 0 => .done (c.put (c.s.acornRead core r) c.s) 0
    | 1 => .done { c.s with acornBlack := setBit c.s.acornBlack core true } 0
    | 2 => .done (c.s.acornWhite r) 0
    | _ => .done (if r = 64 then c.s.declareTerm else { c.s with acornTerm := setBit c.s.acornTerm r true }) 0) s

end Sys2Proof.Machine
end

