-- ==== Sys2Proof/Machine/Results.lean ====
section
/-! DEFINITION. Events of a pod: results that come later, refusals of peers, trap entry, the ends of waits, the scheduler's exchanges
and the deadlock of a team (R35, R36, R54, R55, R239, R245, R266, R345, R350, R383, R395). -/
namespace Sys2Proof.Machine

/-! ## Results (R35, R36, R345) -/

/-- A pod with a value in the registers of a destination; an accumulator of a matrix operation keeps its tag (R342). -/
def State.putDest (s : State) (p : Pod) (d : Dest) (tag : BitVec 5) (x : Nat) : Pod :=
  match d with
  | .vregs t r n => s.tagRun (p.wrRun t r n x) tag r n
  | .kregs r n => p.wrKRun r n x
  | _ => p

/-- Whether the pod has written the destination of an outstanding result (R36). -/
def Pod.overwritten (p : Pod) (x : Pend) : Bool :=
  let (v, t) := ({ p with trapLevel := x.trap } : Pod).destNow x.dest
  v != x.was || (t != x.wasTag && t != x.tag)

/-- Whether outstanding result `n` of a pod is of some kinds and here. -/
def Pod.hereAs (p : Pod) (n : Nat) (ks : List PendKind) : Option Pend :=
  match p.pend[n]? with
  | some x => if ks.contains x.kind && x.reqs.isEmpty then some x else none
  | none => none

/-- Outstanding result `n` of a pod ends: its flag has one naming less. -/
def State.endPend (s : State) (p : PodId) (n : Nat) (x : Pend) : State :=
  (s.onPod p fun q => { (q.dropFlag x.seta).dropFlag x.setb with pend := q.pend.eraseIdx n }).tickle

/-- Writes an outstanding result; a destination that the pod has written since keeps either value (R36). -/
def State.putResult (s : State) (p : PodId) (x : Pend) : State :=
  match s.findPod p with
  | none => s
  | some q =>
    let (keep, s) := if q.overwritten x then (let (k, s) := s.choose 2; (k == 0, s)) else (false, s)
    s.onPod p fun q => (if keep then q else q.atLevel x.trap fun q => s.putDest q x.dest x.tag x.value.toNat).raiseFl x.fl

/-- Keeps a fault for the instruction that waits on its operation's flag, or for the pod's next issue (R40). -/
def State.defer (s : State) (p : PodId) (x : Pend) (c : Cause) (arg : Nat) (next : Bool) : State :=
  s.onPod p fun q => { q with deferred := q.deferred ++
    [({ cause := c, flags := flagBit x.seta, ctag := none, next := next, op := none, arg := BitVec.ofNat 32 arg,
        addr := x.addr } : Deferred)] }

/-- A peer refuses the requests of outstanding result `n` of a pod. -/
def State.refusePend (s : State) (p : PodId) (n : Nat) (x : Pend) : State :=
  let s := { s with outReq := s.outReq.filter fun o => !(o.pod == some p && x.reqs.any fun r => r.1 == o.dst && r.2.1 == o.seq) }
  let void := fun (s : State) =>
    match x.dest with
    | .slot r c => s.onTeam p.team fun t => t.onRing r fun y => (y.fill (BitVec.ofNat 32 c) (voidOf y.tag)).addVoid
    | _ => s
  match x.kind with
  | .classT => s
  | .load => (s.defer p x .remoteFault 0 false).endPend p n x
  | .wrq => (s.defer p x .remoteFault x.thread false).endPend p n x
  | .ldq => ((void s).defer p { x with seta := 15 } .remoteFault x.thread true).endPend p n x
  | .ldqNf => (void s).endPend p n x
  | .check => (s.onPod p fun q => { q with pend := q.pend.set n { x with reqs := [], refused := true } }).tickle
  | .poll =>
    let s := (s.endPend p n x).switchTo p
    if s.pod.id = p then s.raise (s.pod.before .remoteFault 0 0 x.addr) else s

/-- CLASS_T_RESULT_WRITE: the results of a pod come in the order of their slots (R35). -/
def execClassTResultWrite (p : PodId) (n : Nat) (s : State) : Host.Outcome State Fault Refusal :=
  match s.findPod p with
  | none => .next s
  | some q =>
    match q.hereAs n [.classT] with
    | none => .next s
    | some x =>
      if (q.pend.take n).any fun y => y.kind == .classT then .next s
      else .next ((s.putResult p x).endPend p n x)

/-- Whether a loaded value breaks R131 under its tag. -/
def Pend.packedBad (x : Pend) : Bool := (x.tag == 17 || x.tag == 18) && bits x.value.toNat 126 2 != 0

/-- A WRQ with several homes whose peers have answered (R371): its payload is written, and after that, in the order of the threads, its
queue word is counted up. Nothing is done while a line here is locked (R363), or an earlier thread has not counted. -/
def State.goEnqueue (s : State) (p : PodId) (n : Nat) (x : Pend) (earlier : List Pend) (w : WrqTodo) : State :=
  let busy := fun (pas : List Nat) => pas.any fun pa => s.lockedLine (lineOf pa)
  let away := fun (y : Nat × List Byte) => (areaOf y.1).isPeer
  let set := fun (s : State) (x : Pend) => (s.onPod p fun q => { q with pend := q.pend.set n x }).tickle
  if !w.sent then
    let here := w.parts.filter fun y => !away y
    if busy (here.flatMap fun y => run y.1 y.2.length) then s
    else
      let s := here.foldl (fun s y => s.writeHomeAll p.team (run y.1 y.2.length) y.2) s
      let (reqs, s) := s.sendEach p 2 ((w.parts.filter away).map fun y => (y.1, .store y.2 (y.2.map fun _ => true)))
      set s { x with reqs := reqs, todo := some { w with sent := true } }
  else if earlier.any fun y => y.serial == x.serial && y.todo.isSome then s
  else if (areaOf w.queue).isPeer then
    let (seq, s) := s.send w.queue 2 (some p) none (.atomic 0 1 [(1, 0)])
    set s { x with reqs := [(peerOf w.queue, seq, (List.range 4).map fun i => (i, i))], todo := none }
  else if busy [w.queue] then s
  else
    let (old, s) := s.countQueueWord p.team w.queue
    (s.putResult p { x with value := BitVec.ofNat 256 old }).endPend p n x

/-- LOAD_DATA_RETURN: data that came with an error leaves the register as it is (R40, R131, R345). -/
def execLoadDataReturn (p : PodId) (n : Nat) (s : State) : Host.Outcome State Fault Refusal :=
  match s.findPod p with
  | none => .next s
  | some q =>
    match q.hereAs n [.load, .wrq] with
    | none => .next s
    | some x =>
      match x.todo with
      | some w => .next (s.goEnqueue p n x (q.pend.take n) w)
      | none =>
        if x.refused then .next (s.refusePend p n x) else
        let s := if x.uncorr then s.defer p x .memUncorrectable 0 false
          else if x.packedBad then s.defer p x .formatMismatch 0 false
          else s.putResult p x
        .next (s.endPend p n x)

/-- LDQ_SLOT_FILL: an uncorrectable element stays out of its slot (R384, R395). -/
def execLdqSlotFill (p : PodId) (n : Nat) (s : State) : Host.Outcome State Fault Refusal :=
  match s.findPod p with
  | none => .next s
  | some q =>
    match q.hereAs n [.ldq, .ldqNf] with
    | none => .next s
    | some x =>
      if x.refused then .next (s.refusePend p n x) else
      let s := if x.uncorr then s.defer p x .memUncorrectable 0 true
        else if x.packedBad then s.defer p x .formatMismatch 0 true
        else
          match x.dest with
          | .slot r c => s.onTeam p.team fun t => t.onRing r fun y => y.fill (BitVec.ofNat 32 c) x.value.toNat
          | _ => s
      .next (s.endPend p n x)

/-! ## Peers (R320, R350, R371, R395) -/

/-- PEER_REFUSAL_ARRIVAL. -/
def execPeerRefusalArrival (p : PodId) (n : Nat) (s : State) : Host.Outcome State Fault Refusal :=
  match (s.findPod p).bind fun q => q.pend[n]? with
  | none => .next s
  | some x => .next (if x.reqs.isEmpty then s else s.refusePend p n x)

/-- An entry leaves the remote combining buffer, with the requests that carry it. -/
def State.dropRemote (s : State) (x : Remote) : State :=
  ({ s with
      rcbuf := s.rcbuf.filter fun r => !(r.core == x.core && r.line == x.line && r.team == x.team)
      outReq := s.outReq.filter fun o => !(o.pa == x.line && o.team == some x.team && match o.kind with
        | .store .. => true
        | _ => false) } : State).tickle

/-- PEER_ACKNOWLEDGEMENT: the peer has all bytes of a core's entry for a line, of the team that wrote first (R320). -/
def execPeerAcknowledgement (core line : Nat) (s : State) : Host.Outcome State Fault Refusal :=
  .next (match s.rcbuf.find? fun r => r.core == core && r.line == line with
    | some r => s.dropRemote r
    | none => s)

/-- A pod that waits in a release at sys scope for an entry that was lost raises REMOTE_FAULT: a store at its thread, a FENCE or
SPUB before (R320). -/
def State.faultRelease (s : State) (p : PodId) : State :=
  match s.findPod p with
  | none => s
  | some q =>
    match q.wait with
    | none => s
    | some w =>
      if w.kind ≠ .ack then s
      else
        let s := s.switchTo p
        match w.until_ with
        | none => s.raise (s.pod.before .remoteFault 0 0 0)
        | some u => let t := (u - 1) % 200; s.raise (s.pod.atThread .remoteFault t (one t) 0 0)

/-- The .sys stores that an entry carries are refused: each REMOTE_FAULT is deferred to the waits on its flag (R350). -/
def State.refuseStores (s : State) (r : Remote) : State :=
  r.stores.foldl (fun s x => s.onPod x.1 fun q => { q with deferred := q.deferred ++
    [({ cause := .remoteFault, flags := flagBit x.2.1, ctag := none, next := false, op := none, arg := 0, addr := x.2.2.2 } : Deferred)] }) s

/-- An entry is lost after the resends of R493: the MC logs it, the team's grid will retire with status 3, the .sys stores of the entry are
refused, and the releases that wait for it fault (R320, R350). -/
def State.loseRemote (s : State) (tid : TeamId) (line : Nat) : State :=
  match s.rcbuf.find? fun r => r.team == tid && r.line == line with
  | none => s
  | some r =>
    let s := ((s.dropRemote r).refuseStores r).note (.lostWrite (peerOf line) (line - peerBase - peerOf line * peerSize) r.mask)
    let s := s.onTeam tid fun t => { t with lost := true }
    (s.podsOf tid).foldl (fun s p => s.faultRelease p.id) s

/-! ## Trap entry (R266) -/

/-- Whether the effects of the threads below the stopping thread are complete: results, and copies (R38). -/
def State.trapReady (s : State) (p : Pod) : Bool :=
  match p.raised with
  | none => false
  | some (_, n) => (p.pend.all fun x => x.serial != n) && s.ops.all fun o => !(o.pod == p.id && o.serial == n && o.state == .running)

/-- TRAP_ENTRY. -/
def execTrapEntry (p : PodId) (s : State) : Host.Outcome State Fault Refusal :=
  match s.findPod p with
  | none => .next s
  | some q =>
    if !s.trapReady q then .next s
    else
      match q.raised with
      | none => .next s
      | some (r, _) =>
        let s := s.switchTo p
        .next ((s.setPod { s.pod with raised := none }).enterTrap r)

/-! ## Waits (R239, R245) -/

/-- Whether a pod waits in a kind of wait whose end, in cycles, has come. -/
def Pod.waitOver (p : Pod) (k : WaitKind) (now : Nat) : Bool :=
  match p.wait with
  | some w => w.kind == k && (match w.until_ with
      | some u => u != 0 && decide (u ≤ now)
      | none => false)
  | none => false

/-- The end of a pod's wait has come. -/
def State.wakeWait (s : State) (p : PodId) (k : WaitKind) (now : Nat) : State :=
  s.onPod p fun q => if q.waitOver k now then { q with wait := q.wait.map fun w => { w with until_ := some 0 } } else q

/-- WAITF_TIMEOUT. -/
def execWaitfTimeout (p : PodId) (s : State) : Host.Outcome State Fault Refusal := .next (s.wakeWait p .waitf s.cycle)

/-- SLEEP_EXPIRY. -/
def execSleepExpiry (p : PodId) (s : State) : Host.Outcome State Fault Refusal := .next (s.wakeWait p .sleep s.cycle)

/-- HOLDT_TIME_REACHED. -/
def execHoldtTimeReached (p : PodId) (s : State) : Host.Outcome State Fault Refusal := .next (s.wakeWait p .holdt s.time.toNat)

/-- LOOP_COUNT_POLL. -/
def execLoopCountPoll (p : PodId) (s : State) : Host.Outcome State Fault Refusal := .next (s.wakeWait p .poll s.cycle)

/-! ## The active and pending sets (R55) -/

/-- Where a resident pod is served: its core. -/
def State.coreOfPod (s : State) (p : PodId) : Option Nat :=
  match s.findTeam p.team with
  | some t => if t.place = .resident then some (t.coreOf p) else none
  | none => none

/-- The waits that a swap ends: on a flag, a ring, a handle, a tag, or time, a poll and an instance of TRED or TSCAN among the last
(R55, R230, R239). -/
def WaitKind.swaps : WaitKind → Bool
  | .sync | .phase | .exit | .release | .ack => false
  | _ => true

/-- Whether a pod of the active set has been held for 32 cycles. -/
def State.swapDue (s : State) (p : Pod) : Bool :=
  match s.coreOfPod p.id, p.wait with
  | some c, some w =>
    w.kind.swaps && decide (w.since + 32 ≤ s.cycle) && ((s.activeSet c p.id.slice).any fun q => q.id = p.id) && !(s.readyPending c p.id.slice).isEmpty
  | _, _ => false

/-- POD_SWAP. -/
def execPodSwap (p : PodId) (s : State) : Host.Outcome State Fault Refusal :=
  match s.findPod p, s.coreOfPod p with
  | some q, some c => .next (if s.swapDue q then s.swapOut p c else s)
  | _, _ => .next s

/-- Whether a pod is the oldest ready pending pod of its scheduler, and has been pending for 256 cycles. -/
def State.promotionDue (s : State) (p : Pod) : Bool :=
  match s.coreOfPod p.id with
  | none => false
  | some c =>
    match s.readyPending c p.id.slice with
    | [] => false
    | q :: _ => q.id = p.id && decide (q.sched.pending + 256 ≤ s.cycle)

/-- POD_PROMOTION: the pod replaces the least recently issued active pod. -/
def execPodPromotion (p : PodId) (s : State) : Host.Outcome State Fault Refusal :=
  match s.findPod p, s.coreOfPod p with
  | some q, some c =>
    if !s.promotionDue q then .next s
    else
      match leastRecent (s.activeSet c p.slice) with
      | none => .next s
      | some o => .next (s.exchange c p.slice o.id p)
  | _, _ => .next s

/-- SPIN_DEMOTION_END. -/
def execSpinDemotionEnd (p : PodId) (s : State) : Host.Outcome State Fault Refusal :=
  .next (s.onPod p fun q =>
    match q.sched.demoted with
    | none => q
    | some u => if u ≤ s.cycle then { q with sched := { q.sched with demoted := none } } else q)

/-- MC_ISSUE_HOLD: no pod is selected for some cycles (R12), and the bounds of R55 and R383 count them not (R56). -/
def execMcIssueHold (cycles : Nat) (s : State) : Host.Outcome State Fault Refusal :=
  let s := s.mapPods fun p => { p with
    wait := p.wait.map fun w => { w with since := w.since + cycles }
    sched := { p.sched with demoted := p.sched.demoted.map (· + cycles), pending := p.sched.pending + cycles } }
  .next { s.mapTeams (fun t => { t with stuck := t.stuck.map (· + cycles) }) with hold := max s.hold s.cycle + cycles }

/-! ## Deadlock of a team (R383) -/

/-- Whether a pod waits on a ring, at SYNC or PHASE, or at an open TRED or TSCAN instance. -/
def Pod.ringBound (p : Pod) : Bool :=
  !p.trapLevel && !p.halted && p.raised.isNone &&
    match p.wait with
    | some w => (match w.kind with
      | .ring _ | .sync | .phase | .coll => true
      | _ => false)
    | none => false

/-- Whether an operation in flight fills or drains a ring of the team: it is attached to one, or is an engine operation that names
one. -/
def Op.onRings (o : Op) : Bool :=
  o.state == .running &&
    match o.kind with
    | .rrdq .. | .subs .. | .drainq .. | .mvs .. | .svs .. => true
    | .matrix m => !m.fired && (dKind m.descA == 2 || dKind m.descB == 2)
    | _ => false

/-- Whether every non-exited pod of a team waits on rings and nothing fills or drains them; an instance of TRED or TSCAN that is complete
is no wait (R231). -/
def State.ringStuck (s : State) (t : Team) : Bool :=
  let ps := (s.podsOf t.id).filter fun p => !p.done
  t.place == .resident && !ps.isEmpty && (ps.all fun p => p.ringBound && !s.midway p) &&
    !(ps.any fun p => p.pend.any fun x => x.kind == .ldq || x.kind == .ldqNf) &&
    !s.ops.any fun o => o.pod.team == t.id && o.onRings

/-- Counts the cycles for which each team has been stuck. -/
def State.countStuck (s : State) : State :=
  s.mapTeams fun t => { t with stuck := if s.ringStuck t then some (t.stuck.getD s.cycle) else none }

/-- Whether a team has been stuck for 4,096 cycles. -/
def State.deadlockDue (s : State) (t : Team) : Bool :=
  match t.stuck with
  | some c => s.ringStuck t && decide (c + 4096 ≤ s.cycle)
  | none => false

/-- QUEUE_DEADLOCK: the cause is raised in every pod at its waiting instruction; TARG is the ring, or 32. -/
def execQueueDeadlock (t : TeamId) (s : State) : Host.Outcome State Fault Refusal :=
  match s.findTeam t with
  | none => .next s
  | some x =>
    if !s.deadlockDue x then .next s
    else
      let s := s.onTeam t fun x => { x with stuck := none }
      .next (((s.orderedPods t).filter fun p => !p.done).foldl (fun s p =>
        let ring := match p.wait with
          | some w => (match w.kind with
            | .ring r => r
            | _ => 32)
          | none => 32
        let s := s.switchTo p.id
        if s.pod.id = p.id then s.raise (s.pod.before .queueDeadlock 0 (BitVec.ofNat 32 ring) 0) else s) s)

/-! ## What is due -/

/-- The events of a pod that are due. -/
def State.dueOfPod (s : State) (p : Pod) : List Instr :=
  let ns := List.range p.pend.length
  (if s.trapReady p then [Instr.trapEntry p.id] else []) ++
  ((ns.filter fun n => (p.hereAs n [.classT]).isSome).take 1).map (Instr.classTResultWrite p.id) ++
  (ns.filter fun n => (p.hereAs n [.load, .wrq]).isSome).map (Instr.loadDataReturn p.id) ++
  (ns.filter fun n => (p.hereAs n [.ldq, .ldqNf]).isSome).map (Instr.ldqSlotFill p.id) ++
  (if p.waitOver .waitf s.cycle then [.waitfTimeout p.id] else []) ++
  (if p.waitOver .sleep s.cycle then [.sleepExpiry p.id] else []) ++
  (if p.waitOver .holdt s.time.toNat then [.holdtTimeReached p.id] else []) ++
  (if p.waitOver .poll s.cycle then [.loopCountPoll p.id] else []) ++
  (if s.swapDue p then [.podSwap p.id] else []) ++
  (if s.promotionDue p then [.podPromotion p.id] else []) ++
  (match p.sched.demoted with
    | some u => if u ≤ s.cycle then [.spinDemotionEnd p.id] else []
    | none => []) ++
  (if s.parkDue p then [.handleWaitPark p.id] else [])

end Sys2Proof.Machine
end

