-- ==== Sys2Proof/Machine/Phases.lean ====
section
/-! DEFINITION. The life of phases, teams and grids: exit of pods, phase end with its record and commit, shadow comparison, abort, team
exit, grid retirement (R44 to R53, R330, R446, R449, R452, R453, R471 to R474). -/
namespace Sys2Proof.Machine

/-! ## Writes and reads of the distributor through a translation (R446, R453) -/

/-- The physical addresses of a range of bytes, page by page; none when a page fails Translate or is MMIO. -/
def State.spanPlaces (s : State) (t : Team) (core : Nat) (a : Access) : Nat → Dword → Nat → Option (List Nat) × State
  | 0, _, _ => (some [], s)
  | f + 1, va, n =>
    if n = 0 then (some [], s)
    else
      let k := min n (4096 - va.toNat % 4096)
      match s.translateRange t core va k a with
      | (.error _, s) => (none, s)
      | (.ok pas, s) =>
        if pas.any fun pa => areaOf pa == .mmio then (none, s)
        else
          match s.spanPlaces t core a f (va + BitVec.ofNat 64 k) (n - k) with
          | (none, s) => (none, s)
          | (some ps, s) => (some (pas ++ ps), s)

/-- Writes bytes at a virtual address for the distributor, every page checked before the first byte; none when a page fails or is
uncorrectable. -/
def State.writeSpan (s : State) (t : Team) (core : Nat) (va : Dword) (bs : List Byte) : Option State × State :=
  match s.spanPlaces t core .wr (bs.length / 4096 + 2) va bs.length with
  | (none, s) => (none, s)
  | (some pas, s) =>
    if s.poisoned pas then (none, s)
    else
      let here := (pas.zip bs).filter fun x => !(areaOf x.1).isPeer
      let s := s.writeHome t.id (here.map (·.1)) (here.map (·.2))
      (some (s.askWrite 2 pas bs).2, s)

/-- Reads bytes at a virtual address for the distributor; none when a page fails, lies at a peer, or is uncorrectable. -/
def State.readSpan (s : State) (t : Team) (core : Nat) (va : Dword) (n : Nat) : Option (List Byte) × State :=
  match s.spanPlaces t core .rd (n / 4096 + 2) va n with
  | (none, s) => (none, s)
  | (some pas, s) =>
    if s.poisoned pas || pas.any fun pa => (areaOf pa).isPeer then (none, s) else (some (s.rdAll pas), s)

/-- The core number under which the distributor's own translations are cached; no core has it. -/
def agentCore : Nat := 4096

/-- The distributor as a party that translates through a queue's tables (R441, R446). -/
def distributor (asn : BitVec 12) (ptroot queue : Nat) : Team :=
  { Team.blank noTeam { Kernel.blank with super := true } with asn := asn, ptroot := ptroot, queue := queue }

/-! ## Phase records (R452, R453) -/

/-- The k registers of a mask, ascending. -/
def maskRegs (m : BitVec 64) : List Nat := (List.range 64).filter fun i => m.getLsbD i

/-- Pads a run of bytes with zeros to a length. -/
def padTo (n : Nat) (bs : List Byte) : List Byte := bs ++ List.replicate (n - bs.length) 0

/-- A pod's section of the phase record. -/
def Pod.section_ (p : Pod) (k : Kernel) : List Byte :=
  let cv := k.carryV p.id.slice
  let ts := List.range p.width
  padTo (k.podSection p.id.slice)
    (toBytes 8 p.cause.toNat ++ toBytes 4 p.fl.toNat ++ toBytes 4 p.prio.toNat ++ toBytes 16 p.exited.toNat ++
      padTo 64 ((maskRegs (k.carryK p.id.slice)).flatMap fun r => toBytes 4 (p.k.get r).toNat) ++
      padTo 32 (cv.map fun r => (p.tagOf r).setWidth 8) ++
      (ts.flatMap fun t => toBytes 4 (p.seed.get t).toNat) ++
      cv.flatMap fun r => ts.flatMap fun t => toBytes 4 (p.rdV t r).toNat)

/-- The phase record that ends a phase (R47, R452, R453). -/
def Team.recordBytes (t : Team) (ps : List Pod) : List Byte :=
  let k := t.kernel
  padTo 128 (toBytes 4 0x30002 ++ toBytes 4 (if k.restart then 2 else 3) ++ toBytes 4 (t.phase.toNat + 1) ++ toBytes 4 t.id.l ++
      toBytes 4 t.id.grid ++ toBytes 2 k.xpods ++ toBytes 2 k.apods ++ toBytes 8 k.khdr.toNat) ++
    ps.flatMap fun p => p.section_ k

/-- The state that a pod has after a re-run's read of its section (R119, R453). -/
def Pod.fromSection (p : Pod) (k : Kernel) (bs : List Byte) : Pod :=
  let w := p.width
  let cv := k.carryV p.id.slice
  let ks := maskRegs (k.carryK p.id.slice)
  let p := { p with
    cause := BitVec.ofNat 64 (field bs 0 8), fl := BitVec.ofNat 6 (field bs 8 4), prio := BitVec.ofNat 2 (field bs 12 4)
    exited := BitVec.ofNat 128 (field bs 16 16)
    k := ((List.range ks.length).zip ks).foldl (fun c x => c.set x.2 (BitVec.ofNat 32 (field bs (0x20 + 4 * x.1) 4))) []
    tags := ((List.range cv.length).zip cv).foldl (fun c x => c.set x.2 (BitVec.ofNat 5 (field bs (0x60 + x.1) 1))) []
    seed := (List.range w).foldl (fun c t => c.set t (BitVec.ofNat 32 (field bs (0x80 + 4 * t) 4))) [] }
  ((List.range cv.length).zip cv).foldl (fun p x => (List.range w).foldl (fun p t =>
    p.wrV t x.2 (BitVec.ofNat 32 (field bs (0x80 + 4 * w + 4 * (x.1 * w + t)) 4))) p) p

/-! ## Starting pods and phases (R46, R116, R440) -/

/-- %seed at launch (R116). -/
def launchSeed (l s p t : Nat) : Word :=
  let x : Word := BitVec.ofNat 32 (((l * 80 + s * 64 + p) * 128 + t) % 2 ^ 32) ^^^ 0x5EED0001
  if x = 0 then 1 else x

/-- A pod at its launch (R113, R116, R440). -/
def Team.launchPod (t : Team) (prio : Nat) (id : PodId) : Pod :=
  let k := t.kernel
  let p := Pod.blank id k.width
  let entry := match id.slice with
    | .execute => k.xentry
    | .access => k.aentry
  let ctl : List ThreadCtl := (List.range k.width).map fun _ => ⟨entry, 0⟩
  let args : Cells 32 := if k.kregs id.slice < 2 then []
    else ((Cells.set [] 0 (t.args.setWidth 32)).set 1 ((t.args >>> 32).setWidth 32))
  { p with
    k := args
    seed := (List.range k.width).foldl (fun c u => c.set u (launchSeed t.id.l (sliceNo id.slice) id.idx u)) []
    prio := BitVec.ofNat 2 prio, prioMax := BitVec.ofNat 2 prio, user := ctl, startCtl := ctl }

/-- The pods of a team at its launch. -/
def Team.launchPods (t : Team) (prio : Nat) : List Pod :=
  ((List.range t.kernel.xpods).map fun i => t.launchPod prio ⟨t.id, .execute, i⟩) ++
    (List.range t.kernel.apods).map fun i => t.launchPod prio ⟨t.id, .access, i⟩

/-- An empty ring (R46). -/
def freshRing (x : Nat × Nat) : Ring :=
  { ldepth := x.2, tag := BitVec.ofNat 5 x.1, prd := 0, pub := 0, con := 0, void := 0, par := false, flt := false, drn := false,
    att := false, map := 0, slots := [], bad := [] }

/-- The team state of a phase start, but for the stash (R46, R50). -/
def Team.fresh (t : Team) : Team :=
  { t with
    irrev := !t.kernel.restart, ctag := 0, shared := [], rcb := [], rings := t.kernel.rings.map freshRing, tiles := [], tileAt := []
    oldShared := [], xchg := [], insts := [], syncN := 0, trxN := 0, tranN := 0, mailboxes := [], fetched := false, handed := []
    saving := none, stopped := false, stuck := none, matched := false }

/-- A pod at the start of the next phase (R46, R119): what its section of the phase record holds (R47), and what the record does not
hold. -/
def Pod.nextPhase (p : Pod) (k : Kernel) : Pod :=
  let ctl := mapCtl (full p.width &&& ~~~p.exited) (fun _ c => { c with pc := c.pc + 12 }) 0 p.user
  ({ Pod.blank p.id p.width with
    tix := p.tix, tpc := p.tpc, prioMax := p.prioMax
    user := ctl, startCtl := ctl, done := p.done, serial := p.serial, joined := p.joined, joinedAt := p.joined } : Pod).fromSection k
    (p.section_ k)

/-- A pod at the start of its phase again: PCs of the start, and what the record does not hold cleared (R119). -/
def Pod.rerun (p : Pod) : Pod :=
  { Pod.blank p.id p.width with
    prioMax := p.prioMax, user := p.startCtl, startCtl := p.startCtl, serial := p.serial, joined := p.joinedAt, joinedAt := p.joinedAt }

/-! ## Exit of pods (R53, R243) -/

/-- Whether a pod's threads have all exited and it has not. -/
def Pod.exitReady (p : Pod) : Bool :=
  decide (0 < p.width) && !p.done && full p.width &&& ~~~p.exited == 0

/-- POD_EXIT. -/
def execPodExit (p : PodId) (s : State) : Host.Outcome State Fault Refusal :=
  match s.findPod p with
  | none => .next s
  | some q => .next (if q.exitReady then (s.onPod p fun q => { q with done := true }).tickle else s)

/-! ## Commit (R48, R330) -/

/-- Writes the dirty lines of a team home, as far as buffers and locks allow. -/
def State.commitLines (s : State) (tid : TeamId) : State :=
  match s.findTeam tid with
  | none => s
  | some t => t.stash.foldl (fun s l => (s.lineHome tid (t.core + l.half) l).getD s) s

/-- Whether a team holds dirty lines. -/
def Team.holdsDirty (t : Team) : Bool := t.stash.any fun l => l.dirty != 0

/-- Sends combining entries home, in order of creation (R356): those that are left at the first whose line a serial transaction locks
(R363). -/
def State.sendReds (s : State) (tid : TeamId) : List Combine → List Combine × State
  | [] => ([], s)
  | e :: l => if s.lockedLine (lineOf e.pa) then (e :: l, s) else (s.applyRed tid e).sendReds tid l

/-- Sends the combining buffer of a team home, once none of its lines is left to move (R48). -/
def State.commitReductions (s : State) (tid : TeamId) : State :=
  match s.findTeam tid with
  | none => s
  | some t =>
    let (l, s) := s.sendReds tid t.rcb
    s.onTeam tid fun t => { t with rcb := l }

/-- Whether a team waits for a peer to acknowledge its writes or apply its reductions (R320, R330). -/
def State.owesPeers (s : State) (tid : TeamId) : Bool := s.hasRemote tid || s.outReq.any fun o => o.team = some tid

/-- Dirty lines stay in place as implicit lines; every other mapping ends (R46, R48). -/
def Team.keepDirty (t : Team) : Team :=
  { t with stash := (t.stash.filter fun l => l.dirty != 0).map fun l => { l with explicit := false, filled := l.dirty == ~~~0 } }

/-- Teams handed over to a team count as exited once its phase has committed (R449). -/
def State.countHanded (s : State) (t : Team) : State :=
  t.handed.foldl (fun s x => s.onGrid x.1 fun g => { g with unexited := g.unexited - 1 }) s

/-! ## Removing work -/

/-- Removes the operations of a team, and its participation in open instances (R51, R231). -/
def State.dropOps (s : State) (tid : TeamId) : State :=
  { s with
    ops := s.ops.filter fun o => o.pod.team ≠ tid
    colls := s.colls.map fun c => { c with joins := c.joins.filter fun j => j.pod.team ≠ tid }
    serial := match s.serial with
      | some p => if p.team = tid then none else some p
      | none => none
    outReq := s.outReq.filter fun o => match o.pod with
      | some p => p.team ≠ tid
      | none => true }

/-- Removes a team and its pods. -/
def State.removeTeam (s : State) (tid : TeamId) : State :=
  let s := (s.dropOps tid).park
  { s with pods := s.pods.filter fun p => p.id.team ≠ tid, teams := s.teams.filter fun t => t.id ≠ tid }

/-- The teams handed over to a team in a phase that is discarded are offered again (R449). -/
def State.returnHanded (s : State) (tid : TeamId) : State :=
  match s.findTeam tid with
  | none => s
  | some t => t.handed.foldl (fun s x => s.onGrid x.1 fun g =>
      { g with unplaced := insertBy (fun a b => decide (a ≤ b)) x.2 g.unplaced }) s

/-- Discards one copy of a shadow team. -/
def State.discardCopy (s : State) (tid : TeamId) : State := (s.returnHanded tid).removeTeam tid

/-- Discards the running phase of a team, which waits to run again from its phase record (R51, R119, R453). -/
def State.abortPhase (s : State) (tid : TeamId) : State :=
  match s.findTeam tid with
  | none => s
  | some _ =>
    let s := s.dropOps tid
    let s := s.returnHanded tid
    let s := s.mapPods fun p => if p.id.team = tid then p.rerun else p
    (s.onTeam tid fun t => { t.fresh with irrev := false, stash := t.kept, place := .rerun }).tickle

/-! ## Shadow phases (R471 to R473) -/

/-- CRC-64 of R472, bit by bit: `n` shifts of the register. -/
def crcShift : Nat → BitVec 64 → BitVec 64
  | 0, x => x
  | n + 1, x => crcShift n (if x.getLsbD 63 then (x <<< 1) ^^^ 0x42F0E1EBA9EA3693 else x <<< 1)

/-- CRC-64 of some bytes. -/
def crc64 (bs : List Byte) : Dword := bs.foldl (fun x b => crcShift 8 (x ^^^ (BitVec.setWidth 64 b <<< 56))) 0

/-- A combining entry as 16 bytes: address, operation and type, and the operand (R356; log 17). -/
def Combine.bytes (e : Combine) : List Byte := toBytes 8 (e.pa + e.op * 2 ^ 52 + e.ty * 2 ^ 56) ++ toBytes 8 e.value.toNat

/-- A line's bytes with zeros in the clean ones. -/
def Line.dirtyBytes (l : Line) : List Byte :=
  (List.range 128).map fun i => if l.dirty.getLsbD i then lineByte l.bytes i else 0

/-- The checksum of a shadow copy (R472). -/
def State.shadowSum (s : State) (t : Team) : Dword :=
  let ls := sortBy (fun a b => decide (a.va ≤ b.va)) (t.stash.filter fun l => l.dirty != 0)
  let key := fun (e : Combine) => (e.pa * 16 + e.op) * 8 + e.ty
  let es := sortBy (fun a b => decide (key a ≤ key b)) t.rcb
  crc64 ((ls.flatMap fun l => toBytes 8 l.va ++ toBytes 16 l.dirty.toNat ++ l.dirtyBytes) ++ es.flatMap Combine.bytes ++
    (s.orderedPods t.id).flatMap fun p => p.section_ t.kernel)

/-- Whether the copy must be compared before its phase ends. -/
def Team.uncompared (t : Team) : Bool := t.kernel.shadow && !t.matched

end Sys2Proof.Machine

namespace Sys2Proof

/-- The other copy of a shadow team. -/
def TeamId.other (t : TeamId) : TeamId := { t with copy := 1 - t.copy }

end Sys2Proof

namespace Sys2Proof.Machine

/-- The phase end of a team whose checksum has matched can proceed. -/
def State.shadowCommit (s : State) (tid : TeamId) : State :=
  (s.onTeam tid fun t => { t with place := .resident, matched := true, single := false, sums := [], avoid := [] }).tickle

/-- Whether the checksums that a comparison needs exist: the other copy's, or earlier runs'. -/
def State.comparable (s : State) (t : Team) : Bool :=
  match t.place with
  | .compared _ =>
    t.single || match s.findTeam t.id.other with
      | some u => (match u.place with
        | .compared _ => true
        | _ => false)
      | none => false
  | _ => false

/-- SHADOW_COMPARISON (R473). -/
def execShadowComparison (t : TeamId) (s : State) : Host.Outcome State Fault Refusal :=
  match s.findTeam t with
  | none => .next s
  | some x =>
    if !s.comparable x then .next s
    else
      match x.place with
      | .compared a =>
        let again := fun (s : State) (sums : List Dword) (avoid : List Nat) =>
          (avoid.drop x.avoid.length).foldl (fun s c => s.note (.winnow c))
            ((s.abortPhase t).onTeam t fun y => { y with single := true, sums := sums, avoid := avoid })
        if x.single then
          .next (if x.sums.contains a then s.shadowCommit t else again s (x.sums ++ [a]) (x.avoid ++ x.cores))
        else
          match s.findTeam t.other with
          | none => .next s
          | some y =>
            if t.copy ≠ 0 then .next s
            else
              let s' := s.discardCopy t.other
              .next (match y.place with
                | .compared b => if a = b then s'.shadowCommit t else again s' [a, b] (x.cores ++ y.cores)
                | _ => s)
      | _ => .next s

/-! ## Phase end (R44 to R48, R453) -/

/-- Whether every non-exited pod of a resident team has executed PHASE. -/
def State.phaseOver (s : State) (t : Team) : Bool :=
  let ps := (s.podsOf t.id).filter fun p => !p.done
  t.place == .resident && t.saving.isNone && !ps.isEmpty && ps.all fun p => p.phased

/-- PHASE_OVERFLOW before the PHASE in every pod: the record cannot be written (R453). -/
def State.phaseOverflow (s : State) (tid : TeamId) : State :=
  ((s.orderedPods tid).filter fun p => !p.done).foldl (fun s p => s.raiseIn p.id .phaseOverflow) s

/-- PHASE_END: the record, and the state of the next phase, which waits for a core; its lines and reductions go once that is decided
(R48). -/
def execPhaseEnd (t : TeamId) (s : State) : Host.Outcome State Fault Refusal :=
  match s.findTeam t with
  | none => .next s
  | some x =>
    if !s.phaseOver x then .next s
    else if x.uncompared then .next (s.onTeam t fun y => { y with place := .compared (s.shadowSum x) })
    else
      let ps := s.orderedPods t
      let (done, s) := if x.prec = 0 then (none, s) else s.writeSpan x x.core x.recordAt (x.recordBytes ps)
      match done with
      | none => .next (s.phaseOverflow t)
      | some s =>
        let s := s.countHanded x
        let s := s.mapPods fun p => if p.id.team = t then p.nextPhase x.kernel else p
        .next ((s.onTeam t fun y =>
          { y.keepDirty.fresh with
            phase := y.phase + 1, place := .nextPhase s.cycle, start := 0, recorded := true, rcb := y.rcb }).tickle)

/-- Cycles of 2 µs at 1.4 GHz. -/
def placeWait : Nat := 2800

/-- Whether a next phase has waited 2 µs for a core. -/
def State.waitedLong (s : State) (t : Team) : Bool :=
  match t.place with
  | .nextPhase c => decide (c + placeWait ≤ s.cycle)
  | _ => false

/-- Whether it then has lines or reductions that are not home. -/
def State.placeLate (s : State) (t : Team) : Bool := s.waitedLong t && (t.holdsDirty || !t.rcb.isEmpty)

/-- PLACEMENT_TIMEOUT. -/
def execPlacementTimeout (t : TeamId) (s : State) : Host.Outcome State Fault Refusal :=
  match s.findTeam t with
  | none => .next s
  | some x => .next (if s.placeLate x then ((s.commitLines t).onTeam t Team.keepDirty).commitReductions t else s)

/-! ## Team exit (R53, R330, R453) -/

/-- Whether every pod of a team on a core has exited. -/
def State.exitDue (s : State) (t : Team) : Bool :=
  (t.place == .resident || t.place == .exiting) && (s.podsOf t.id).all fun p => p.done

/-- Status 3 of a grid for a lost write (R320, R446). -/
def Grid.lose (g : Grid) : Grid := { g with status := 3 }

/-- TEAM_EXIT: the lines and reductions go home; when the peers have acknowledged them, EXITED is written and the team is gone. -/
def execTeamExit (t : TeamId) (s : State) : Host.Outcome State Fault Refusal :=
  match s.findTeam t with
  | none => .next s
  | some x =>
    if !s.exitDue x then .next s
    else if x.uncompared then .next (s.onTeam t fun y => { y with place := .compared (s.shadowSum x) })
    else
      let s := ((s.commitLines t).commitReductions t).onTeam t fun y => { y.keepDirty with place := .exiting }
      if s.owesPeers t || (s.findTeam t).any fun y => y.holdsDirty || !y.rcb.isEmpty then .next s
      else
        let flags := (if x.phase = 0 then 0 else 2) + (if x.irrev then 1 else 0) + 4
        let s := if x.prec = 0 then s
          else
            match s.writeSpan x x.core (x.recordAt + 4) (toBytes 4 flags) with
            | (some s, _) => s
            | (none, s) => s.note (.exitRecordFailed x.id.grid x.id.l)
        let s := (s.countHanded x).onGrid t.grid fun g =>
          let g := { g with unexited := g.unexited - 1 }
          if x.lost then g.lose else g
        .next (s.removeTeam t).tickle

/-! ## Retirement (R446) -/

/-- The completion word, and the interrupt, of a grid that ends (R446). -/
def State.finishGrid (s : State) (gid status : Nat) (asn : BitVec 12) (ptroot queue : Nat) (p : Packet) : State :=
  let s :=
    if p.compl = 0 then s
    else if p.compl.toNat % 8 ≠ 0 then s.note (.refusedGrid gid)
    else
      match s.writeSpan (distributor asn ptroot queue) agentCore p.compl (toBytes 8 (gid + status % 4 * 2 ^ 32)) with
      | (some s, _) => s
      | (none, s) => s.note (.completionFailed gid)
  if p.intr then s.note (.driverInterrupt gid) else s

/-- One child less of a grid and of its team. -/
def State.childDone (s : State) (parent : Option (Nat × Nat)) : State :=
  match parent with
  | none => s
  | some (g, l) =>
    ((s.onGrid g fun x => { x with children := x.children - 1 }).mapTeams fun t =>
      if t.id.grid = g ∧ t.id.l = l then { t with children := t.children - 1 } else t).tickle

/-- Whether a grid's teams have exited and its children have retired. -/
def Grid.over (g : Grid) : Bool := g.unexited == 0 && g.children == 0 && g.unplaced.isEmpty

/-- GRID_RETIREMENT. -/
def execGridRetirement (grid : Nat) (s : State) : Host.Outcome State Fault Refusal :=
  match s.grids.find? fun g => g.id = grid with
  | none => .next s
  | some g =>
    if !g.over then .next s
    else
      let s := s.finishGrid g.id g.status g.asn g.ptroot g.queue g.packet
      let s := { s with
        grids := s.grids.filter fun x => x.id ≠ grid
        colls := s.colls.filter fun c => !(c.span == 0 && c.key == [grid]) }
      .next (s.childDone g.parent)

/-! ## Abort (R51, R273, R288, R474) -/

/-- Whether a team whose abort has been asked for may be aborted: each of its pods is at an instruction boundary. -/
def State.abortDue (s : State) (t : Team) : Bool :=
  t.saving == some .abort && s.atBoundary t.id && (match t.place with
    | .resident | .compared _ => true
    | _ => false)

/-- PHASE_ABORT: an irrevocable phase is saved in place of that; both copies of a shadow phase that are to be aborted run again as a
pair, one alone runs again alone. -/
def execPhaseAbort (t : TeamId) (s : State) : Host.Outcome State Fault Refusal :=
  match s.findTeam t with
  | none => .next s
  | some x =>
    if !s.abortDue x then .next s
    else if x.irrev && !x.kernel.shadow then .next (s.onTeam t fun y => { y with saving := some .preempt })
    else
      match s.findTeam t.other with
      | none => .next (s.abortPhase t)
      | some y =>
        if x.kernel.shadow && s.abortDue y then
          if t.copy = 0 then .next ((s.discardCopy t.other).abortPhase t) else .next s
        else .next (s.abortPhase t)

/-! ## What is due -/

/-- The events of a team's life that are due. -/
def State.dueOfTeam (s : State) (t : Team) : List Instr :=
  (if s.phaseOver t then [Instr.phaseEnd t.id] else []) ++
  (if s.placeLate t then [.placementTimeout t.id] else []) ++
  (if t.id.copy = 0 && s.comparable t then [.shadowComparison t.id] else []) ++
  (if s.exitDue t then [.teamExit t.id] else []) ++
  (if s.abortDue t then [.phaseAbort t.id] else []) ++
  (if s.deadlockDue t then [.queueDeadlock t.id] else [])

end Sys2Proof.Machine
end

