-- ==== Sys2Proof/Machine/Contexts.lean ====
section
/-! DEFINITION. Saving a team into a context record, the record's layout, escalation records, and the restore (R270 to R285, R377, R389,
R438, R508). -/
namespace Sys2Proof.Machine

/-! ## Stopping a team (R246, R274) -/

/-- A pod stops for a save (R246, R274, R278). -/
def Pod.stopForSave (p : Pod) : Pod :=
  let held := p.phased || match p.wait with
    | some w => w.kind != .flag
    | none => false
  { p.stopHere preemptBit with waited := held }

/-- A pod stops for a save. -/
def State.stopPod (s : State) (p : PodId) : State := (s.onPod p fun q => if q.done then q else q.stopForSave).dropToken

/-- Whether a team is to be taken off its core into a record. -/
def Team.saveAsked (t : Team) : Bool :=
  match t.saving with
  | some .preempt | some .park | some (.escalate _) => true
  | _ => false

/-- Whether a save can begin. -/
def State.saveDue (s : State) (t : Team) : Bool := t.saveAsked && t.place == .resident && !t.stopped && s.atBoundary t.id

/-- SAVE_PREEMPTION: the first step of a save (R274), once complete instances are delivered (R231); of a shadow team, an abort of both copies, or, for an escalation, the end
of the other copy (R474). -/
def execSavePreemption (t : TeamId) (s : State) : Host.Outcome State Fault Refusal :=
  match s.findTeam t with
  | none => .next s
  | some x =>
    if !s.saveDue x then .next s
    else
      let esc := match x.saving with
        | some (.escalate _) => true
        | _ => false
      if x.kernel.shadow && !esc then
        .next ((s.onTeam t fun y => { y with saving := some .abort }).onTeam t.other fun y => { y with saving := some .abort })
      else
        let s := if x.kernel.shadow then s.discardCopy t.other else s
        let s := (s.orderedPods t).foldl (fun s p => s.stopPod p.id) s
        .next ((s.onTeam t fun y => { y with stopped := true, insts := [] }).tickle)

/-! ## Operations in the record (R274, R279, R389) -/

/-- Whether an operation of a stopped team is still to settle before its record is written: a copy, or a matrix operation that the
array has begun or can begin. -/
def State.unsettled (s : State) (t : Team) (o : Op) : Bool :=
  o.pod.team == t.id && o.state == .running &&
    match o.kind with
    | .cpy .. => true
    | .matrix m => m.fired || s.canFire o m t t.kernel.width
    | _ => false

/-- Whether an operation that runs on waits for room, for elements, or for a restored ring, and can go no further (R389). -/
def Op.stalled (o : Op) (t : Team) : Bool :=
  let ring := fun (r : Nat) (f : Ring → Bool) => (t.ring r).elim true f
  match o.kind with
  | .matrix m => !m.fired
  | .mvs _ _ i r _ fired .. => if fired then ring r fun x => !x.takes (min 64 x.depth) else ring i fun _ => true
  | .svs _ _ r .. => ring r fun x => !x.takes (min 64 x.depth)
  | .rrdq r .. => ring r fun x => x.room == 0 || x.prd != x.pub
  | .subs r _ _ bytes _ => o.answered && ring r fun x => x.prd != x.pub && bytes != 0 || decide (x.room < bytes / x.esize)
  | .drainq r .. => ring r fun x => x.occ == 0
  | .rcsnap .. => o.asks.isEmpty
  | _ => false

/-- OUTSTANDING: operations that still write into the record (R277). -/
def State.outstandingOf (s : State) (t : Team) : Nat :=
  (s.ops.filter fun o => o.pod.team = t.id && o.state = .running && !o.stalled t).length

/-- Low 8 bits of an operation's opcode (R279). -/
def Op.opcodeByte (o : Op) : Nat :=
  match o.kind with
  | .matrix m => 0x80 + m.variant
  | .mvs .. => 0x85
  | .svs .. => 0x86
  | .coll _ => 0x87
  | .gbar _ => 0x88
  | .rrdq .. => 0x4B
  | .subs .. => 0x4C
  | .drainq .. => 0x4D
  | .tiercp .. => 0xD9
  | .cpy .. => 0
  | .rcsnap .. => 0xC4

/-- STATE of a handle slot (R279, R400). -/
def Op.slotState (o : Op) : Nat :=
  match o.state, o.kind with
  | .running, .coll _ | .running, .gbar _ => 4
  | .running, _ | .held, _ => 1
  | .complete, _ => 2
  | .faulted, _ => 3

/-- A handle slot of 32 bytes (R279). -/
def State.slotBytes (s : State) (tok : Word) : List Byte :=
  match s.opOf tok with
  | none => padTo 32 (toBytes 4 tok.toNat)
  | some o =>
    padTo 32 (toBytes 4 tok.toNat ++ toBytes 1 o.slotState ++ toBytes 1 o.opcodeByte ++ toBytes 2 0 ++ toBytes 8 o.progress ++
      toBytes 4 (match o.fault with
        | some (c, _) => c.bit
        | none => 0) ++ o.result)

/-! ## The record (R277 to R282, R377) -/

/-- Rounds up to a multiple. -/
def alignUp (k n : Nat) : Nat := (n + k - 1) / k * k

/-- Four loop entries of 24 bytes, the oldest first. -/
def loopBytes (l : List LoopEntry) : List Byte :=
  padTo 96 (l.reverse.flatMap fun e =>
    toBytes 8 e.start.toNat ++ toBytes 8 e.last.toNat ++ toBytes 4 e.count.toNat ++ toBytes 1 e.depth ++ toBytes 1 1 ++ toBytes 2 0)

/-- PODFLAGS (R278). -/
def Pod.podFlags (p : Pod) : Nat :=
  (if p.trapLevel then 1 else 0) + (if p.halted then 4 else 0) + (if p.done then 8 else 0) + (if p.waited then 16 else 0)

/-- p0 to p15 of a thread, two bytes. -/
def Pod.predWord (p : Pod) (t : Nat) : Nat :=
  ((List.range 16).map fun n => if (p.predMask n).getLsbD t then 2 ^ n else 0).sum

/-- A pod's section of the context record (R278). -/
def State.podBytes (s : State) (p : Pod) (k : Kernel) : List Byte :=
  let n := k.regs p.id.slice
  let ts := List.range p.width
  let stop := p.stopPoint
  toBytes 8 p.cause.toNat ++ toBytes 8 (stop.1.toNat % 2 ^ 56) ++ toBytes 4 stop.2 ++ toBytes 4 p.fl.toNat ++ toBytes 4 p.prio.toNat ++
    toBytes 4 p.podFlags ++ toBytes 16 p.exited.toNat ++ toBytes 16 p.handlers.toNat ++ loopBytes p.loops ++ loopBytes p.trapLoops ++
    ((List.range 4).flatMap fun i => toBytes 4 (p.bank.get i).toNat) ++
    ((List.range 4).flatMap fun i => toBytes 4 (if p.trapLevel then (p.k.get (60 + i)).toNat else 0)) ++
    ((List.range 16).flatMap fun i => toBytes 1 (match p.ringOf i with | some r => 32 + r | none => 0)) ++ toBytes 16 0 ++
    ((List.range 64).flatMap fun i => toBytes 4 (p.k.get i).toNat) ++ ((List.range 8).flatMap fun i => toBytes 16 (p.g.get i).toNat) ++
    ((List.range 16).flatMap fun i => s.slotBytes (p.h.get i)) ++ ((List.range 640).map fun r => (p.tagOf r).setWidth 8) ++
    toBytes 192 0 ++
    (ts.flatMap fun t =>
      let u := (p.user[t]?).getD ⟨0, 0⟩
      let v := (p.trap[t]?).getD ⟨0, 0⟩
      padTo 32 (toBytes 8 u.pc.toNat ++ toBytes 8 v.pc.toNat ++ toBytes 4 (p.seed.get t).toNat ++ toBytes 2 (p.predWord t) ++
        toBytes 1 u.depth ++ toBytes 1 v.depth ++ toBytes 1 ((p.txOf t).elim 0 TxThread.count))) ++
    ts.flatMap fun t => (List.range n).flatMap fun i => toBytes 4 (p.rdV t i).toNat

/-- Bytes of a pod's section, to the next one. -/
def Kernel.ctxSection (k : Kernel) (sl : Slice) : Nat := alignUp 64 (0x800 + 32 * k.width + 4 * k.regs sl * k.width)

/-- Offset of a pod's section (R277, R278). -/
def Kernel.sectionAt (k : Kernel) (p : PodId) : Nat :=
  0x100 + match p.slice with
    | .execute => p.idx * k.ctxSection .execute
    | .access => k.xpods * k.ctxSection .execute + p.idx * k.ctxSection .access

/-- A line of the stash image (R281). -/
def Line.image (l : Line) : List Byte :=
  toBytes 8 (l.va % 2 ^ 56 + if l.explicit then 1 else 0) ++ toBytes 4 l.roff ++ toBytes 4 0 ++ toBytes 16 l.dirty.toNat ++ l.dirtyBytes

/-- The stash image: the lines of half 0, then those of half 1, each in ascending offset. -/
def Team.stashImage (t : Team) : List Byte :=
  (sortBy (fun a b => decide (a.half * 2 ^ 20 + a.roff ≤ b.half * 2 ^ 20 + b.roff)) t.stash).flatMap Line.image

/-- The plain shared image, of each half of a twin. -/
def Team.sharedImage (t : Team) : List Byte :=
  t.rdShared 0 t.kernel.shared ++ if t.kernel.twin then t.rdShared (2 ^ 20) t.kernel.shared else []

/-- BASE of ring `r`: the rings of its half before it. -/
def Team.ringBase (t : Team) (r : Nat) : Nat :=
  (((List.range r).filter fun i => !t.kernel.twin || i % 2 == r % 2).map fun i =>
    (t.ring i).elim 0 fun x => x.depth * x.esize).sum

/-- Rings, each with its descriptor and its elements in slot order (R280, R377). -/
def Team.ringImage (t : Team) : List Byte :=
  ((List.range t.rings.length).zip t.rings).flatMap fun x =>
    let r := x.2
    toBytes 2 (t.ringBase x.1) ++ toBytes 1 r.ldepth ++ toBytes 1 r.tag.toNat ++ toBytes 4 r.prd.toNat ++ toBytes 4 r.pub.toNat ++
      toBytes 4 r.con.toNat ++ toBytes 4 r.void.toNat ++ toBytes 4 r.status ++ toBytes 8 r.map.toNat ++
      (List.range r.depth).flatMap fun i => toBytes r.esize (r.slots.get i).toNat

/-- The barrier-state section (R282). -/
def Team.barrierBytes (t : Team) : List Byte :=
  toBytes 4 t.syncN ++ toBytes 4 t.trxN ++ toBytes 4 t.tranN ++ toBytes 4 0 ++
    ((List.range 16).flatMap fun i =>
      match t.xchg.find? fun x => x.1 = i with
      | none => toBytes 8 0
      | some x => toBytes 4 x.2.1.toNat ++ toBytes 1 (x.2.2.idx + 128 * sliceNo x.2.2.slice) ++ toBytes 1 1 ++ toBytes 2 0) ++
    toBytes 4 t.children ++ toBytes 12 0

/-- The team sections, in the order of OFFSETS. -/
def Team.sections (t : Team) : List (List Byte) :=
  [t.sharedImage, t.stashImage, t.ringImage, (List.range 32).flatMap fun i => toBytes 32 (t.tiles.get i).toNat,
   t.rcb.flatMap Combine.bytes, t.barrierBytes].map fun bs => padTo (alignUp 64 bs.length) bs

/-- OFFSETS of the team sections, from the end of the pod sections. -/
def sectionOffsets : Nat → List (List Byte) → List Nat
  | _, [] => []
  | n, bs :: l => n :: sectionOffsets (n + bs.length) l

/-- FLAGS of a record (R277). -/
def Team.recordFlags (t : Team) (ps : List Pod) (esc : Bool) : Nat :=
  1 + (if esc then 2 else 0) + (if ps.any Pod.trapLevel then 4 else 0) + (if t.irrev then 8 else 0) + (if t.kernel.twin then 16 else 0)

/-- The context record (R277). -/
def State.contextBytes (s : State) (t : Team) (esc : Bool) : List Byte :=
  let k := t.kernel
  let ps := s.orderedPods t.id
  let pods := ps.flatMap fun p => padTo (k.ctxSection p.id.slice) (s.podBytes p k)
  let secs := t.sections
  let head := toBytes 4 0x30001 ++ toBytes 4 (t.recordFlags ps esc) ++ toBytes 8 k.khdr.toNat ++ toBytes 32 k.oum.toNat ++
    toBytes 4 t.id.grid ++ toBytes 4 t.id.l ++ toBytes 4 t.phase.toNat ++ toBytes 4 (s.outstandingOf t) ++ toBytes 8 t.ctag.toNat ++
    toBytes 2 k.xpods ++ toBytes 2 k.apods ++ toBytes 4 t.core ++ toBytes 8 s.time.toNat
  let offs := 0x100 :: sectionOffsets (0x100 + pods.length) secs
  padTo 0x80 head ++ padTo 0x80 (offs.flatMap (toBytes 8)) ++ pods ++ secs.flatten

/-- Whether every effect that a save waits for is complete (R274, R275). -/
def State.saveSettled (s : State) (t : Team) : Bool :=
  t.saveAsked && t.stopped && t.place == .resident && !s.hasRemote t.id && !(s.ops.any (s.unsettled t)) &&
    (s.podsOf t.id).all fun p => p.raised.isNone && p.pend.isEmpty

/-- Whether the record of a team can be written: the save has settled and the pool has an entry (R438). -/
def State.recordDue (s : State) (t : Team) : Bool := s.saveSettled t && (s.poolEntry t.queue).isSome

/-- CONTEXT_RECORD_WRITE: the lowest free entry of the pool is claimed, the record written, and the core left (R274, R277, R438). A
team parked for a collective goes back to placement (R426, R444). -/
def execContextRecordWrite (t : TeamId) (s : State) : Host.Outcome State Fault Refusal :=
  match s.findTeam t with
  | none => .next s
  | some x =>
    match s.poolEntry x.queue with
    | none => .next s
    | some (entry, rec) =>
      if !s.saveSettled x then .next s
      else
        let esc := match x.saving with
          | some (.escalate _) => true
          | _ => false
        let s := s.writeOut entry (toBytes 8 (s.rdNat entry 8 ||| 1))
        let s := s.writeOut rec (s.contextBytes x esc)
        let s := s.onTeam t fun y =>
          { y with place := if y.saving = some .park then .resumed rec else .parked rec, saving := none, stopped := false, stuck := none }
        .next s.tickle

/-- The record of a team that is not on a core. -/
def Team.recordOf (t : Team) : Option Nat :=
  match t.place with
  | .parked r | .resumed r => some r
  | _ => none

/-! ## What runs on into a record (R274, R277, R389) -/

/-- The fields of the record that only the driver changes, and those of the moment of the save. -/
def State.keptFields (s : State) (t : Team) : List (Nat × Nat) :=
  [(4, 4), (0x4C, 4), (0x50, 8)] ++ (s.orderedPods t.id).flatMap fun p => [(t.kernel.sectionAt p.id, 20), (t.kernel.sectionAt p.id + 28, 4)]

/-- Writes over some bytes, but for the fields given. -/
def overlay (keep : List (Nat × Nat)) (old new : List Byte) : List Byte :=
  keep.foldl (fun bs x => bs.take x.1 ++ (old.drop x.1).take x.2 ++ bs.drop (x.1 + x.2)) new

/-- The record of one team follows the operations that run on: where it differs, it is written anew. -/
def State.followRecord (s : State) (t : Team) : State :=
  match t.recordOf with
  | none => s
  | some rec =>
    let new := s.contextBytes t false
    let old := s.rdBytes rec new.length
    let new := overlay (s.keptFields t) old new
    if new = old then s else s.writeOut rec new

/-- The same for every team that is off its core. -/
def State.followRecords (s : State) : State := (s.allTeams.filter fun t => t.recordOf.isSome).foldl State.followRecord s

/-! ## Restore (R38, R120, R283, R284) -/

/-- The fields of a pod that the driver may have edited: %cause, stop address, %tix, PODFLAGS bit 1. -/
def State.editedPod (s : State) (rec : Nat) (k : Kernel) (p : Pod) : Dword × Dword × Nat × Bool :=
  let a := rec + k.sectionAt p.id
  (BitVec.ofNat 64 (s.rdNat a 8), BitVec.ofInt 64 (signed 56 (s.rdNat (a + 8) 8)), s.rdNat (a + 16) 4, bit (s.rdNat (a + 28) 4) 1)

/-- A pod takes up a stop address and %tix that the driver has changed, or a resume with skip (R38, R248, R284). -/
def Pod.takeEdit (p : Pod) (stop : Dword) (tix : Nat) (skip : Bool) : Pod :=
  let old := p.stopPoint
  let act := p.active
  let p := { p with tpc := stop, tix := tix }
  if p.done || p.trapLevel then p
  else if skip then ({ p.goto act (stop + 12) with resumeAt := none }).popEmpty.leaveTx
  else if (stop, tix) = (BitVec.ofInt 64 (signed 56 old.1.toNat), old.2) then p
  else (p.goto act stop).stopAt stop tix

/-- A transaction state of which the record holds the count (R278, R358). -/
def TxThread.restored (x : TxThread) : TxThread := { TxThread.blank x.thread with count := x.count }

/-- How many of the aborts that a record counts had status 1 or 2 is open: the record holds their sum only (R358, R363; log 7). -/
def State.restoreClashes (s : State) (p : Pod) : State :=
  (p.tx.filter fun x => x.count ≠ 0).foldl (fun s x =>
    let (k, s) := s.choose (x.count + 1)
    s.onPod p.id fun q => q.setTx { x with clashes := k, due := decide (16 ≤ k) }) s

/-- A pod as a restore writes it (R112, R119, R284). -/
def State.restoredPod (s : State) (rec : Nat) (k : Kernel) (p : Pod) : Pod :=
  let (cause, stop, tix, skip) := s.editedPod rec k p
  let p := p.takeEdit stop tix skip
  { p with
    cause := cause &&& ~~~preemptBit, flags := [], reasons := [], waited := false, wait := none, sched := Sched.init, bpPass := none
    tx := p.tx.map TxThread.restored }

/-- Drops the fetch lines of a core that overlap a code range (R284). -/
def State.dropCode (s : State) (t : Team) (core : Nat) : State :=
  let (pas, s) := s.spanPlaces t agentCore .fetch (t.kernel.codeLen / 4096 + 2) t.kernel.codeLo t.kernel.codeLen
  match pas with
  | none => { s with icache := s.icache.filter fun x => x.core ≠ core }
  | some pas =>
    let lines := (pas.map lineOf).eraseDups
    { s with icache := s.icache.filter fun x => !(x.core == core && lines.any x.overlaps) }

/-- A stop address that the driver left misaligned (R61). -/
def Pod.misplaced (p : Pod) : Bool := !p.done && !p.trapLevel && p.pc.toNat % 12 != 0

/-- An operation of a restored team: a held one starts again, on the new core, and its flags are clear (R112, R389, R401). -/
def Op.restored (t : Team) (core : Nat) (o : Op) : Op :=
  let again := o.state == .held
  if o.pod.team ≠ t.id then o
  else
    { o with
      state := if again then .running else o.state, fault := if again then none else o.fault, core := core + t.halfOf o.pod
      seta := 15, setb := 15 }

/-- The restore itself, its checks having passed: the code range leaves the instruction caches, and every item of R119 is written
(R284). -/
def State.restore (s : State) (t : Team) (rec core : Nat) : State :=
  let s := ({ t with core := core } : Team).cores.foldl (fun s c => s.dropCode t c) s
  let s := s.mapPods fun p => if p.id.team = t.id then s.restoredPod rec t.kernel p else p
  let s := (s.podsOf t.id).foldl State.restoreClashes s
  let s := { s with ops := s.ops.map (Op.restored t core) }
  let s := s.onTeam t.id fun y =>
    { y with
      core := core, place := .resident, watch := none, bps := [], placed := s.tick, outstanding := 0
      rings := ((List.range y.rings.length).zip y.rings).map fun x => { x.2 with flt := s.ringFlt t.id x.1 0 }
      stash := y.stash.map fun l => { l with filled := false } }
  (((s.orderedPods t.id).filter Pod.misplaced).foldl (fun s p => s.raiseIn p.id .pcMisalign) s).tickle

/-! ## Escalation records (R270, R272, R508) -/

/-- Whether an escalation record can be appended: a debug escalation at once, any other once its team is parked. -/
def State.escReady (s : State) (e : EscRecord) : Bool :=
  field e.bytes 0x24 4 == 1 || match s.findTeam e.team with
    | some t => t.recordOf.isSome
    | none => true

/-- Whether the escalation ring has room (R508). -/
def State.escRoom (s : State) : Bool := decide ((s.eschead - s.esctail).toNat < 2 ^ s.escsize)

/-- The records that come first for their teams: no pod of the team has raised a cause earlier whose record is not written (R270). -/
def State.escHeads (s : State) : List EscRecord :=
  let firsts := s.escPending.foldl (fun l e => if l.any fun x => x.team = e.team then l else l ++ [e]) []
  firsts.filter fun e => !(s.podsOf e.team).any fun p => match p.raised with
    | some (r, _) => decide (r.when_ < e.when_)
    | none => false

/-- The record that the ring takes next, or, in a full one, the next whose wait the driver is told of. -/
def State.nextEsc (s : State) : Option EscRecord := s.escHeads.find? fun e => s.escReady e && (s.escRoom || !e.waited)

/-- ESCALATION_NOTIFY: the oldest record whose team is parked is appended to the ring, with the address of its context record, or waits
there; either interrupts the driver (R270, R508). -/
def execEscalationNotify (s : State) : Host.Outcome State Fault Refusal :=
  match s.nextEsc with
  | none => .next s
  | some e =>
    if !s.escRoom then
      .next (({ s with escPending := s.escPending.map fun x => if x = e then { x with waited := true } else x } : State).note
        .escalationInterrupt)
    else
      let ctx := if field e.bytes 0x24 4 = 1 then 0 else ((s.findTeam e.team).bind Team.recordOf).getD 0
      let s := s.writeOut (s.escbase.toNat + 64 * (s.eschead.toNat % 2 ^ s.escsize)) (toBytes 8 ctx ++ e.bytes.drop 8)
      .next (({ s with escPending := s.escPending.erase e, eschead := s.eschead + 1 } : State).note .escalationInterrupt)

/-! ## What is due -/

/-- The events of saves that are due. -/
def State.dueOfSave (s : State) (t : Team) : List Instr :=
  (if s.saveDue t then [Instr.savePreemption t.id] else []) ++ (if s.recordDue t then [.contextRecordWrite t.id] else [])

end Sys2Proof.Machine
end

