-- ==== Sys2Proof/Machine/Debug.lean ====
section
/-! DEFINITION. Counters and debug: group H (R510 to R519). -/
namespace Sys2Proof.Machine

/-! ## Event counters (R513) -/

/-- Whether a counter number or an event code is out of range (R513; log 29). -/
def State.counterBad (s : State) (n : Arg) (code : Option Arg) : Bool :=
  decide (7 < s.argVal n) || code.any fun x => decide (255 < s.argVal x)

/-- CNTSEL. -/
def execCntsel (h : Head) (f : FormRI) (s : State) : Host.Outcome State Fault Refusal :=
  issue (.cntsel h f) h
    { pod := true, srcs := [uniSrc 1 (.code f.a), uniSrc 2 (f.argB 32)], bad := s.counterBad (.code f.a) (some (f.argB 32)) } (fun c =>
    let n := c.val 0 0
    let code := c.val 1 0
    let i := c.s.core * 8 + n
    .done { c.s with esel := c.s.esel.set i (BitVec.ofNat 8 code), ecnt := c.s.ecnt.set i 0 } 0) s

/-- CNTRD. -/
def execCntrd (h : Head) (f : FormR) (s : State) : Host.Outcome State Fault Refusal :=
  issue (.cntrd h f) h
    { pod := true, srcs := [uniSrc 1 (.code f.a)], dst := some { code := f.dst, acc := [.v, .k], regs := 2, tag := 6 }
      bad := s.counterBad (.code f.a) none } (fun c =>
    let n := c.val 0 0
    let i := c.s.core * 8 + n
    let x := (if f.flags.getLsbD 0 then c.s.esnap.get i else c.s.ecnt.get i).toNat
    .done (c.write (c.eff.map fun t => (t, { val := x })) c.s) 0) s

/-- CNTSNAP. -/
def execCntsnap (h : Head) (f : FormR) (s : State) : Host.Outcome State Fault Refusal :=
  issue (.cntsnap h f) h { pod := true } (fun c =>
    let base := c.s.core * 8
    .done { c.s with esnap := (List.range 8).foldl (fun m n => m.set (base + n) (c.s.ecnt.get (base + n))) c.s.esnap } 0) s

/-! ## Routing counters (R514, R515) -/

/-- RCINC: copy 1 of a shadow phase counts nothing. -/
def execRcinc (h : Head) (f : FormRI) (s : State) : Host.Outcome State Fault Refusal :=
  let a : Src := { field := 1, arg := .code f.a, acc := [.v, .k, .zero] }
  let b : Src := { field := 2, arg := f.argB 32, acc := [.v, .k, .zero] }
  issue (.rcinc h f) h { srcs := [a, b], smod := f.smod, mtgt := f.mtgt, bad := guardBad (a.uniform && b.uniform) h } (fun c =>
    .done (if c.s.team.kernel.shadow && c.s.pod.id.team.copy = 1 then c.s
      else c.lanes.foldl (fun s t =>
        let i := c.val 0 t % 1024
        { s with rcnt := s.rcnt.set i (s.rcnt.get i + BitVec.ofNat 32 (c.val 1 t)) }) c.s) 0) s

/-- The counters of a bank. -/
def State.rcBank (s : State) (b : Nat) : List Word := (List.range 256).map fun j => s.rcnt.get (256 * b + j)

/-- Clears a bank. -/
def State.rcClear (s : State) (b : Nat) : State :=
  { s with rcnt := (List.range 256).foldl (fun m j => m.set (256 * b + j) 0) s.rcnt }

/-- RCSNAP: the snapshot is taken after every earlier acquire of the pod (R522), and its engine writes it. -/
def execRcsnap (h : Head) (f : FormQ) (s : State) : Host.Outcome State Fault Refusal :=
  let bank := bits f.desc.toNat 10 2
  issue (.rcsnap h f) h
    { pod := true, dst := some (hDst f.dst), srcs := [{ field := 1, arg := .code f.a, acc := [.k], regs := 2 }] } (fun c =>
      let a := BitVec.ofNat 64 (c.val 0 0)
      if a.toNat % 128 ≠ 0 then .raise (c.s.pod.before .misaligned 0 0 a) c.s
      else if c.s.copyBarred then c.stop .illegalOp
      else if c.s.pod.loading then .hold .time c.s
      else
        let reg := (classOf f.dst).2
        c.afterOld reg fun s =>
          let (o, s) := c.issueOp (some reg) 15 (.rcsnap a (s.rcBank bank)) s
          .done ((s.rcClear bank).rcWrite o) 0) s

/-! ## Watchpoints and breakpoints (R516, R517) -/

/-- The pair that names a team: grid, then L. -/
def pairTeam (x : Nat) : Nat × Nat := (x % 2 ^ 32, x / 2 ^ 32)

/-- Changes every resident copy of a named team. -/
def State.onNamed (s : State) (g l : Nat) (f : Team → Team) : State :=
  (s.namedTeams g l).foldl (fun s t => if t.place = .resident then s.onTeam t.id f else s) s

/-- WPSET. -/
def execWpset (h : Head) (f : FormM) (s : State) : Host.Outcome State Fault Refusal :=
  issue (.wpset h f) h
    { pod := true, srcs := kPair 4 f.data :: f.eaSrcs.map fun x => { x with acc := x.acc.filter (· ≠ .v), uni := true }
      priv := !s.team.kernel.super } (fun c =>
    let (g, l) := pairTeam (c.val 0 0)
    let ea := c.ea f 1 0
    let w := if f.hint = 0 then none else some (f.hint.getLsbD 0, f.hint.getLsbD 1, ea, sizeBytes f.size)
    .done (c.s.onNamed g l fun t => { t with watch := w }) 0) s

/-- BPSET. -/
def execBpset (h : Head) (f : FormB) (s : State) : Host.Outcome State Fault Refusal :=
  let n := bits f.flags.toNat 1 2
  let a := if (classOf f.a).1 = .zero then target s.pod.pc f.boff else BitVec.ofNat 64 (s.argVal (.code f.a) 2)
  issue (.bpset h f) h
    { pod := true, srcs := [kPair 5 f.link, { field := 1, arg := .code f.a, acc := [.k, .zero], regs := 2 }]
      priv := !s.team.kernel.super, late := if a.toNat % 12 ≠ 0 then some (.pcMisalign, 0, 0) else none } (fun c =>
    let (g, l) := pairTeam (c.val 0 0)
    .done (c.s.onNamed g l fun t =>
      let rest := t.bps.filter fun b => b.1 ≠ n
      { t with bps := if f.flags.getLsbD 0 then rest else rest ++ [(n, a)] }) 0) s

/-! ## Mailbox and step (R518, R519) -/

/-- DMBOX. -/
def execDmbox (h : Head) (f : FormRI) (s : State) : Host.Outcome State Fault Refusal :=
  issue (.dmbox h f) h
    { pod := true, dst := some (kDst f.dst), srcs := [uniSrc 2 (f.argB 32)], priv := !s.team.kernel.super } (fun c =>
    if 64 ≤ c.s.dbgFifo.length then .hold .time c.s
    else
      let x := c.s.dbgIn.elim 0 BitVec.toNat
      .done (c.put x { c.s with dbgFifo := c.s.dbgFifo ++ [BitVec.ofNat 32 (c.val 0 0)], dbgIn := none }) 0) s

/-- The pods of a halted team may each issue one instruction; DEBUG_HALT is set again when the team is halted again. -/
def State.stepTeam (s : State) (t : TeamId) : State :=
  (s.mapPods fun p =>
    if p.id.team = t && !p.done then
      { p with cause := p.cause &&& ~~~BitVec.ofNat 64 (2 ^ 29), halted := false, stepping := true }
    else p).tickle

/-- DSTEP. -/
def execDstep (h : Head) (f : FormR) (s : State) : Host.Outcome State Fault Refusal :=
  issue (.dstep h f) h (s.overTeam f false) (fun c =>
    let ts := c.s.namedTeams (c.val 0 0) (c.val 1 0)
    match c.s.pod.pendingStatus with
    | some x =>
      if c.s.allPods.any fun p => p.stepping && ts.any fun t => t.id = p.id.team then .hold .time c.s
      else .done (c.put x (ts.foldl (fun s t => s.haltTeam t.id) c.s)) 0
    | none =>
      if !c.s.teamExists (c.val 0 0) (c.val 1 0) then .done (c.put 1 c.s) 0
      else if !(residentIn ts && ts.any Team.halted) then .done (c.put 4 c.s) 0
      else (ts.foldl (fun s t => s.stepTeam t.id) c.s).awaitStatus 0) s

end Sys2Proof.Machine
end

