-- ==== Sys2Proof/Machine/Dispatcher.lean ====
section
/-! DEFINITION. The distributor: work queues and their commands, mapping, packets and kernel headers, placement, FETCHW, the Acorn tokens
and Winnow (R27, R28, R48, R254, R283, R433 to R451, R454 to R474). -/
namespace Sys2Proof.Machine

/-! ## Work queues (R433 to R437) -/

/-- Bytes that must be zero. -/
def zeros (bs : List Byte) (off n : Nat) : Bool := ((bs.drop off).take n).all (· == 0)

/-- Whether the descriptor of a queue is well formed (R433, R436). -/
def descFits (b : List Byte) : Bool :=
  let lsize := field b 8 1
  decide (4 ≤ lsize) && decide (lsize ≤ 16) && decide (field b 9 1 ≤ 3) && decide (field b 10 1 ≤ 1) && decide (field b 11 1 < 8) &&
    decide (field b 12 2 < 4096) && field b 0 8 % 4096 == 0 && field b 0x10 8 % 2 ^ 20 == 0 && zeros b 0x30 16

/-- The queue that a descriptor makes, with the counts it had before (R434). -/
def State.queueFrom (s : State) (q desc : Nat) (b : List Byte) : Queue :=
  let old := s.headTail q
  let topo := field b 0x18 8
  { q := q, desc := desc, enabled := true, ring := field b 0 8, lsize := field b 8 1, pri := field b 9 1, mode := field b 10 1
    devfeed := bit (field b 11 1) 0, acorn := bit (field b 11 1) 1, super := bit (field b 11 1) 2, asn := BitVec.ofNat 12 (field b 12 2)
    ctxn := field b 14 2, ptroot := field b 0x10 8, topo := topo
    entries := if topo = 0 then [] else
      (List.range 256).foldl (fun c i => c.set i (BitVec.ofNat 64 (s.rdNat (topo + 8 * i) 8))) []
    ctxpool := field b 0x20 8, ctxsz := field b 0x28 4, head := old.1, tail := old.2, mapped := none, waiting := s.cycle
    parents := (s.findQueue q).elim [] Queue.parents }

/-- The result of a command (R436). -/
def State.answer (s : State) (code : Nat) : State := ({ s with wqstatus := BitVec.ofNat 3 code } : State).tickle

/-- WQ_ENABLE: WQCMD OP 0. -/
def execWqEnable (s : State) : Host.Outcome State Fault Refusal :=
  let q := bits s.wqarg.toNat 0 14
  let desc := s.wqbase.toNat + 64 * q
  let b := s.rdBytes desc 64
  let on := (s.findQueue q).elim false Queue.enabled
  .next (
    if on then s.answer 4
    else if !descFits b then s.answer 3
    else if field b 10 1 = 1 ∧ 256 ≤ (s.queues.filter fun x => x.enabled && x.mode == 1).length then s.answer 2
    else
      let x := s.queueFrom q desc b
      ({ s with queues := (s.queues.filter fun y => y.q ≠ q) ++ [x] } : State).answer 0)

/-- WQ_DISABLE: WQCMD OP 1. -/
def execWqDisable (s : State) : Host.Outcome State Fault Refusal :=
  let q := bits s.wqarg.toNat 0 14
  .next (
    if (s.findQueue q).elim false Queue.enabled then (s.onQueue q fun x => { x with enabled := false }).answer 0 else s.answer 4)

/-- The teams that the operand of OP 2 and OP 3 names. -/
def State.argTeams (s : State) : List Team := s.namedTeams (bits s.wqarg.toNat 32 32) (bits s.wqarg.toNat 0 32)

/-- Whether the operand names a team at all. -/
def State.argTeam (s : State) : Bool := s.teamExists (bits s.wqarg.toNat 32 32) (bits s.wqarg.toNat 0 32)

/-- A save of some teams is asked for, unless they are already being saved or aborted (R273). -/
def State.requestSave (s : State) (ts : List Team) : State :=
  if ts.any fun t => t.saving.isSome then s else ts.foldl (fun s t => s.onTeam t.id fun t => { t with saving := some .preempt }) s

/-- SAVE_TEAM: WQCMD OP 2. -/
def execSaveTeam (s : State) : Host.Outcome State Fault Refusal :=
  .next (
    if !s.argTeam then s.answer 1
    else if !residentIn s.argTeams then s.answer 4
    else (s.requestSave s.argTeams).answer 0)

/-- ABORT_TEAM: WQCMD OP 3. -/
def execAbortTeam (s : State) : Host.Outcome State Fault Refusal :=
  .next (
    if !s.argTeam then s.answer 1
    else if !residentIn s.argTeams then s.answer 4
    else (s.requestAbort s.argTeams).2.answer 0)

/-- The team whose context lies in a record. -/
def State.teamIn (s : State) (rec : Nat) : Option Team := s.allTeams.find? fun t => t.recordOf == some rec

/-- The record that the operand of OP 4 and OP 5 names. -/
def State.argRecord (s : State) : Nat := bits s.wqarg.toNat 0 52

/-- Whether a context is parked, and not already returned to placement. -/
def Team.isParked (t : Team) : Bool :=
  match t.place with
  | .parked _ => true
  | _ => false

/-- A remaining copy of a shadow team takes the place of copy 0. -/
def State.asFirst (s : State) (t : TeamId) : State :=
  let s := s.park
  let ren := fun (x : TeamId) => if x = t then { x with copy := 0 } else x
  { s with
    pods := s.pods.map fun p => { p with id := { p.id with team := ren p.id.team } }
    teams := s.teams.map fun x => { x with id := ren x.id } }

/-- RESUME_CONTEXT: WQCMD OP 4. The phase of a shadow team runs again as two copies (R474). -/
def execResumeContext (s : State) : Host.Outcome State Fault Refusal :=
  .next (
    match s.teamIn s.argRecord with
    | none => s.answer 1
    | some t =>
      if !t.isParked then s.answer 4
      else if t.kernel.shadow then
        let s := s.dropOps t.id
        (((s.asFirst t.id).abortPhase { t.id with copy := 0 }).onTeam { t.id with copy := 0 } fun y =>
          { y with single := false, sums := [], avoid := [] }).answer 0
      else (s.onTeam t.id fun y => { y with place := .resumed s.argRecord }).answer 0)

/-- DISCARD_CONTEXT: WQCMD OP 5. -/
def execDiscardContext (s : State) : Host.Outcome State Fault Refusal :=
  .next (
    match s.teamIn s.argRecord with
    | none => s.answer 1
    | some t =>
      if !t.isParked then s.answer 4
      else
        let s := (s.countHanded t).onGrid t.id.grid fun g => { g with unexited := g.unexited - 1, status := max g.status 1 }
        let s := if t.lost then s.onGrid t.id.grid Grid.lose else s
        (s.removeTeam t.id).answer 0)

/-- WQCMD_RESERVED: OP 6 and OP 7. -/
def execWqcmdReserved (_op : BitVec 3) (s : State) : Host.Outcome State Fault Refusal := .next (s.answer 3)

/-- DOORBELL_WRITE: a write of TAIL (R437). -/
def execDoorbellWrite (q : Nat) (tail : Word) (s : State) : Host.Outcome State Fault Refusal :=
  match s.findQueue q with
  | none => .next s
  | some x =>
    let ahead := (tail - x.tail).toNat
    if !x.enabled || ahead = 0 || 2 ^ 31 ≤ ahead || 2 ^ x.lsize < (tail - x.head).toNat then .next s
    else
      .next (s.onQueue q fun y => { y with tail := tail, waiting := if y.untaken = 0 then s.cycle else y.waiting }).tickle

/-! ## Mapping (R443) -/

/-- Dispatch slots (R442). -/
def slotCount : Nat := 1024

/-- Cycles of a mapping quantum. -/
def quantumCycles : Nat := 28000

/-- Whether a grid of a queue has unplaced teams. -/
def State.unplacedIn (s : State) (q : Nat) : Bool := s.grids.any fun g => g.queue == q && !g.unplaced.isEmpty

/-- Whether a queue has work: an untaken packet, or a grid with unplaced teams. -/
def State.hasWork (s : State) (x : Queue) : Bool := (x.enabled && x.untaken != 0) || s.unplacedIn x.q

/-- The mapping after a quantum boundary: idle queues are unmapped; waiting ones take free slots, and then those held longest. -/
def State.remap (s : State) : List Queue :=
  let qs := s.queues.map fun x => if x.mapped.isSome && !s.hasWork x then { x with mapped := none } else x
  let wait := sortBy (fun a b => decide (a.waiting < b.waiting) || a.waiting == b.waiting && decide (a.q ≤ b.q))
    (qs.filter fun x => x.mapped.isNone && s.hasWork x)
  let held := sortBy (fun a b => decide (a.mapped.getD 0 < b.mapped.getD 0) || a.mapped == b.mapped && decide (a.q ≤ b.q))
    (qs.filter fun x => x.mapped.isSome)
  let free := slotCount - held.length
  let out := (held.take (wait.length - free)).map Queue.q
  let in_ := (wait.take (free + out.length)).map Queue.q
  qs.map fun x =>
    if in_.contains x.q then { x with mapped := some s.cycle }
    else if out.contains x.q then { x with mapped := none, waiting := s.cycle }
    else x

/-- Whether a quantum boundary has passed. -/
def State.quantumDue (s : State) : Bool := !s.queues.isEmpty && decide (s.quantum < s.cycle / quantumCycles)

/-- QUEUE_MAPPING_QUANTUM. -/
def execQueueMappingQuantum (s : State) : Host.Outcome State Fault Refusal :=
  .next (if s.quantumDue then ({ s with queues := s.remap, quantum := s.cycle / quantumCycles } : State).tickle else s)

/-! ## Kernel headers (R460 to R463) -/

/-- The v registers of eight carry ranges (R461). -/
def carryRegs (b : List Byte) (off : Nat) : List Nat :=
  (List.range 8).flatMap fun i =>
    let w := field b (off + 2 * i) 2
    if bit w 15 then (List.range (bits w 10 5 + 1)).map fun j => bits w 0 10 + j else []

/-- The kernel that a header declares, its vector table aside. -/
def kernelFrom (khdr : Dword) (b : List Byte) : Kernel where
  khdr := khdr
  decode := field b 6 1
  width := field b 7 1
  restart := bit (field b 8 4) 0
  shadow := bit (field b 8 4) 1
  twin := bit (field b 8 4) 2
  super := bit (field b 8 4) 3
  winnow := bit (field b 8 4) 4
  pinned := bit (field b 8 4) 5
  pin := field b 0xC 2
  xpods := field b 0xE 1
  apods := field b 0xF 1
  xregs := field b 0x10 2
  aregs := field b 0x14 2
  xkregs := field b 0x12 1
  akregs := field b 0x13 1
  xentry := BitVec.ofNat 64 (field b 0x18 8)
  aentry := BitVec.ofNat 64 (field b 0x20 8)
  codeLo := BitVec.ofNat 64 (field b 0x28 8)
  codeLen := field b 0x30 4
  oum := BitVec.ofNat 256 (field b 0x40 32)
  xcarryv := carryRegs b 0x60
  acarryv := carryRegs b 0x70
  xcarryk := BitVec.ofNat 64 (field b 0x80 8)
  acarryk := BitVec.ofNat 64 (field b 0x88 8)
  shared := field b 0x90 4
  stash := field b 0x94 4
  tiles := field b 0x98 4
  rings := (List.range (min 32 (field b 0x9C 4))).map fun r =>
    (bits (field b (0xA0 + 2 * r) 2) 0 5, bits (field b (0xA0 + 2 * r) 2) 5 4 + 4)
  vectors := []

/-- Bytes of queue memory of a ring. -/
def ringBytes (x : Nat × Nat) : Nat := 2 ^ x.2 * (4 * tagRegs (BitVec.ofNat 5 x.1))

/-- The classes that R464 does not reserve. -/
def knownClasses : BitVec 256 := BitVec.ofNat 256 (2 ^ 21 - 1 + (2 ^ 24 - 1) * 2 ^ 32)

/-- Whether an address is one of code that may be started at. -/
def Kernel.inCode (k : Kernel) (a : Dword) : Bool :=
  a.toNat % 12 == 0 && decide (k.codeLo.toNat ≤ a.toNat) && decide (a.toNat < k.codeLo.toNat + k.codeLen)

/-- What the loader and the distributor check of a header but its privilege (R441, R459 to R463, R477; R57). -/
def headerOk (b : List Byte) (k : Kernel) : Bool :=
  let (rmax, kmax) := if k.decode = 1 then (64, 16) else if k.decode = 2 then (160, 32) else (640, 64)
  field b 0 4 == 0x4B334844 && field b 4 2 == 3 && decide (1 ≤ k.decode) && decide (k.decode ≤ 3) && decide (field b 8 4 < 64) &&
    [8, 16, 32, 64, 128].contains k.width && (k.width != 8 || k.decode == 2) &&
    decide (k.xpods ≤ 64) && decide (k.apods ≤ 16) && k.xpods + k.apods != 0 && (k.xpods == 0) == (k.xentry == 0) &&
    (k.apods == 0) == (k.aentry == 0) && k.xregs % 32 == 0 && k.aregs % 32 == 0 && decide (max k.xregs k.aregs ≤ rmax) &&
    decide (max k.xkregs k.akregs ≤ kmax) && k.codeLo.toNat % 48 == 0 && k.codeLen % 48 == 0 &&
    (k.xentry == 0 || k.inCode k.xentry) && (k.aentry == 0 || k.inCode k.aentry) && decide (k.pin ≤ 2047) && (k.pinned || k.pin == 0) &&
    (k.stash == 0 || (k.stash % 128 == 0 && decide (4096 ≤ k.stash))) && decide (k.shared + k.stash ≤ 196608) &&
    decide (k.tiles ≤ 32) && decide (field b 0x9C 4 ≤ 32) && ((List.range k.rings.length).all fun r =>
      decide (field b (0xA0 + 2 * r) 2 < 512) && decide (bits (field b (0xA0 + 2 * r) 2) 0 5 ≤ 21) &&
      decide (bits (field b (0xA0 + 2 * r) 2) 5 4 ≤ 10)) && decide ((k.rings.map ringBytes).sum ≤ 65536) &&
    k.oum &&& ~~~knownClasses == 0 && decide (k.xcarryv.length ≤ 32) && decide (k.acarryv.length ≤ 32) &&
    decide ((maskRegs k.xcarryk).length ≤ 16) && decide ((maskRegs k.acarryk).length ≤ 16) && (!k.shadow || k.restart) &&
    (!(k.winnow || k.pinned) || k.super) && (!k.winnow || k.pinned)

/-- Whether a vector table is one that the loader accepts (R462). -/
def vectorsOk (k : Kernel) (vs : List Dword) : Bool :=
  ((List.range vs.length).zip vs).all fun x =>
    x.2 == 0 || (k.inCode x.2 && !(decide (31 ≤ x.1) && decide (x.1 < 48)) &&
      (x.1 == 64 || (match (causeOfBit x.1).cls .access with
        | .d | .h => false
        | _ => true)))

/-! ## Taking packets (R439, R441, R442, R446) -/

/-- The fields of a packet; `launched` by LAUNCH, else DEPTH is read as 1 and PRIO is not used (R439, R444). -/
def packetFrom (b : List Byte) (launched : Bool) : Packet where
  khdr := BitVec.ofNat 64 (field b 0 8)
  nx := field b 8 4
  ny := field b 0xC 2
  nz := field b 0xE 2
  args := BitVec.ofNat 64 (field b 0x10 8)
  start := BitVec.ofNat 64 (field b 0x18 8)
  compl := BitVec.ofNat 64 (field b 0x20 8)
  prec := BitVec.ofNat 64 (field b 0x28 8)
  iters := field b 0x30 4
  itpt := field b 0x34 4
  barrier := bit (field b 0x38 2) 0
  intr := bit (field b 0x38 2) 1
  fetch := bit (field b 0x38 2) 2
  prio := field b 0x3A 1
  depth := if launched then field b 0x3B 1 else 1

/-- Teams of a packet. -/
def Packet.teams (p : Packet) : Nat := p.nx * p.ny * p.nz

/-- The checks of a packet's own fields (R439, R441). -/
def packetOk (b : List Byte) (p : Packet) (split : Bool) : Bool :=
  p.khdr.toNat % 256 == 0 && p.compl.toNat % 8 == 0 && p.prec.toNat % 128 == 0 && p.teams != 0 && decide (p.teams < 2 ^ 32) &&
    decide (field b 0x38 2 < 8) && zeros b 0x3C 4 && (!split || decide (1 ≤ p.itpt))

/-- Whether a core's capability mask covers a kernel's (R467); a WINNOW kernel skips the test. -/
def State.covers (s : State) (k : Kernel) (core : Nat) : Bool := k.winnow || k.oum &&& ~~~(s.capmOf core) == 0

/-- Reads a kernel through a queue's translation: none when the header or its table cannot be read or is refused. -/
def State.readKernel (s : State) (x : Queue) (khdr : Dword) : Option Kernel × State :=
  let by_ := distributor x.asn x.ptroot x.q
  match s.readSpan by_ agentCore khdr 256 with
  | (none, s) => (none, s)
  | (some b, s) =>
    let k := kernelFrom khdr b
    let tab := BitVec.ofNat 64 (field b 0x38 8)
    if !headerOk b k then (none, s)
    else if tab = 0 then (some k, s)
    else
      match s.readSpan by_ agentCore tab 520 with
      | (none, s) => (none, s)
      | (some v, s) =>
        let vs := (List.range 65).map fun i => BitVec.ofNat 64 (field v (8 * i) 8)
        (if vectorsOk k vs then some { k with vectors := vs } else none, s)

/-- Privilege of a kernel on a queue (R58, R441). -/
def privileged (x : Queue) (k : Kernel) : Bool := if k.super then x.super else k.width == 16 || (k.width == 8 && k.decode == 2)

/-- The next grid identifier (R446). -/
def State.gridId (s : State) : Nat :=
  (((List.range 4100).map fun i => (s.nextGrid + i) % 2 ^ 32).find? fun n => n != 0 && !(s.grids.any fun g => g.id == n)).getD 1

/-- The grid of a queue that was taken last. -/
def State.lastGrid (s : State) (q : Nat) : Option Grid :=
  (s.grids.filter fun g => g.queue == q).foldl (fun b g => match b with
    | none => some g
    | some h => if h.taken ≤ g.taken then some g else some h) none

/-- Whether the slot of a queue can take the next packet (R442). -/
def State.takeDue (s : State) (x : Queue) : Bool :=
  x.enabled && x.mapped.isSome && x.untaken != 0 && decide (s.grids.length < 4096) &&
    ((s.lastGrid x.q).elim true fun g => g.unplaced.isEmpty) &&
    (!(bit (s.rdNat (x.ring + 64 * (x.head.toNat % 2 ^ x.lsize) + 0x38) 2) 0) || !(s.grids.any fun g => g.queue == x.q))

/-- PACKET_TAKE: HEAD advances; the packet starts a grid, or is refused with status 2 (R434, R441, R446). -/
def execPacketTake (q : Nat) (s : State) : Host.Outcome State Fault Refusal :=
  match s.findQueue q with
  | none => .next s
  | some x =>
    if !s.takeDue x then .next s
    else
      let n := x.head.toNat
      let at_ := x.ring + 64 * (n % 2 ^ x.lsize)
      let bad := s.poisoned (run at_ 64)
      let b := s.rdBytes at_ 64
      let from_ := x.parents.find? fun y => y.1 = n
      let p := packetFrom b from_.isSome
      let s := s.onQueue q fun y => { y with head := y.head + 1, parents := y.parents.filter fun z => z.1 ≠ n }
      let s := s.writeOut (x.desc + 0x2C) (toBytes 4 ((n + 1) % 2 ^ 32))
      let gid := s.gridId
      let s := { s with nextGrid := gid + 1 }
      let parent := from_.map fun y => (y.2.1, y.2.2.1)
      let refuse := fun (s : State) =>
        ((s.finishGrid gid 2 x.asn x.ptroot q (if bad then packetFrom [] false else p)).childDone parent).tickle
      if bad || !packetOk b p (x.mode == 1) then .next (refuse s)
      else
        match s.readKernel x p.khdr with
        | (none, s) => .next (refuse s)
        | (some k, s) =>
          if !privileged x k then .next (refuse (s.note (.privilegeGrid gid)))
          else if (x.mode = 1 ∧ ¬k.super) ∨ !((List.range 2048).any fun c => s.covers k c) then .next (refuse s)
          else
            let g : Grid :=
              { id := gid, parent := parent, depth := p.depth, queue := q, prio := if from_.isSome then min x.pri p.prio else x.pri
                asn := x.asn, ptroot := x.ptroot, acorn := x.acorn, taken := s.cycle, packet := p, kernel := k
                unplaced := List.range p.teams, unexited := p.teams, children := 0, status := 0, source := from_.map fun y => y.2.2.2 }
            .next ({ s with grids := s.grids ++ [g] } : State).tickle

/-! ## Room on a core (R27, R28) -/

/-- What teams take of a core: contexts, pods of each slice, registers charged to each execute lane, bytes of shared memory, rings and
bytes of queue memory. -/
structure Load where
  ctxs   : Nat
  xpods  : Nat
  apods  : Nat
  lanes  : List Nat
  memory : Nat
  rings  : Nat
  queues : Nat
deriving DecidableEq, Repr

/-- An empty core. -/
def Load.zero : Load := ⟨0, 0, 0, List.replicate 8 0, 0, 0, 0⟩

/-- The load of two sets of teams. -/
def Load.add (a b : Load) : Load :=
  ⟨a.ctxs + b.ctxs, a.xpods + b.xpods, a.apods + b.apods, (a.lanes.zip b.lanes).map fun x => x.1 + x.2, a.memory + b.memory,
   a.rings + b.rings, a.queues + b.queues⟩

/-- The limits of R28. -/
def Load.fits (a : Load) : Bool :=
  decide (a.ctxs ≤ 4) && decide (a.xpods ≤ 64) && decide (a.apods ≤ 16) && (a.lanes.all fun n => decide (n ≤ 768)) &&
    decide (a.memory ≤ 196608) && decide (a.rings ≤ 32) && decide (a.queues ≤ 65536)

/-- Registers that a pod of a slice is charged with. -/
def Kernel.charge (k : Kernel) (sl : Slice) : Nat := (k.regs sl + 31) / 32 * 32 * (if k.width < 32 then 1 else k.width / 16)

/-- What a team of a kernel takes on one half. -/
def Kernel.load (k : Kernel) (half : Nat) : Load :=
  let here := fun (n : Nat) => (List.range n).filter fun i => !k.twin || i % 2 == half
  let lane := fun (i : Nat) => (if k.twin then i / 2 else i) % 8
  let rs := ((List.range k.rings.length).zip k.rings).filter fun x => !k.twin || x.1 % 2 == half
  { ctxs := 1, xpods := (here k.xpods).length, apods := (here k.apods).length
    lanes := (List.range 8).map fun l =>
      ((here k.xpods).filter fun i => lane i = l).length * k.charge .execute +
        ((here k.apods).filter fun i => lane i = l).length * k.charge .access
    memory := k.shared + k.stash, rings := rs.length, queues := (rs.map fun x => ringBytes x.2).sum }

/-- What a team takes of a core: all it needs while it is there, its stash while its lines wait for the next phase. -/
def Team.loadOn (t : Team) (core : Nat) : Load :=
  let half := core - t.core
  match t.place with
  | .resident | .exiting | .compared _ => if t.cores.contains core then t.kernel.load half else .zero
  | .nextPhase _ | .rerun => if t.cores.contains core && t.holdsDirty then { Load.zero with memory := t.kernel.stash } else .zero
  | _ => .zero

/-- What the teams but one take of a core. -/
def State.loadBut (s : State) (core : Nat) (but : Option TeamId) : Load :=
  (s.allTeams.filter fun t => t.id.grid ≠ 0 && some t.id ≠ but).foldl (fun a t => a.add (t.loadOn core)) .zero

/-- Whether a kernel has room on a core, or on a twin, and its capability mask is covered there (R28, R467). -/
def State.canHold (s : State) (k : Kernel) (core : Nat) (but : Option TeamId) : Bool :=
  let on := fun (c half : Nat) => decide (c < 2048) && s.covers k c && ((s.loadBut c but).add (k.load half)).fits
  (!k.pinned || core == k.pin) && (!k.twin || core % 2 == 0) && on core 0 && (!k.twin || on (core + 1) 1)

/-! ## Placement (R27, R48, R120, R444, R471, R473) -/

/-- What waits for a core. -/
inductive Offer
  | again | context | next | first
deriving DecidableEq, Repr

/-- One thing that waits for a core: its priority, what it is, its team and its kernel. -/
structure Item where
  prio   : Nat
  kind   : Offer
  team   : TeamId
  kernel : Kernel
deriving DecidableEq, Repr

/-- The order of R444 within a priority. -/
def Offer.rank : Offer → Nat
  | .again => 0
  | .context => 1
  | .next => 2
  | .first => 3

/-- R444: priority, kind, the older grid, the lower team. -/
def Item.before (a b : Item) : Bool :=
  let ka := (3 - a.prio, a.kind.rank, a.team.grid, a.team.l * 2 + a.team.copy)
  let kb := (3 - b.prio, b.kind.rank, b.team.grid, b.team.l * 2 + b.team.copy)
  decide (ka.1 < kb.1) || ka.1 == kb.1 && (decide (ka.2.1 < kb.2.1) || ka.2.1 == kb.2.1 &&
    (decide (ka.2.2.1 < kb.2.2.1) || ka.2.2.1 == kb.2.2.1 && decide (ka.2.2.2 ≤ kb.2.2.2)))

/-- A grid by identifier. -/
def State.findGrid (s : State) (g : Nat) : Option Grid := s.grids.find? fun x => x.id = g

/-- What a team waits for, if it waits for a core. -/
def State.offerOf (s : State) (t : Team) : List Item :=
  let item := fun (k : Offer) => [(⟨((s.findGrid t.id.grid).map Grid.prio).getD 0, k, t.id, t.kernel⟩ : Item)]
  match t.place with
  | .rerun => item .again
  | .resumed _ => if s.outstandingOf t = 0 then item .context else []
  | .nextPhase _ => item .next
  | _ => []

/-- Everything that waits for a core, in the order of R444. -/
def State.items (s : State) : List Item :=
  sortBy Item.before ((s.teams ++ [s.team]).flatMap s.offerOf ++
    (s.grids.filter fun g => (s.findQueue g.queue).elim false fun x => x.mapped.isSome).flatMap fun g =>
      match g.unplaced with
      | l :: _ => [⟨g.prio, .first, ⟨g.id, l, 0⟩, g.kernel⟩]
      | [] => [])

/-- The copy that a placement leaves alone: a copy placed while the other waits at its phase end, or single runs (R473). -/
def State.alone (s : State) (t : TeamId) : Bool :=
  match s.findTeam t with
  | none => false
  | some x => x.single || (s.findTeam t.other).isSome

/-- Cores that a copy must not share a twin with, and those where a phase has already run (R471, R473). -/
def State.barred (s : State) (t : TeamId) (core : Nat) : Bool :=
  match s.findTeam t with
  | none => false
  | some x => x.avoid.contains core || match s.findTeam t.other with
    | some y => y.core / 2 == core / 2
    | none => false

/-- The cores on which the second copy of a pair can run, beside the first on `core`: another cluster if any can (R471). -/
def State.secondCores (s : State) (k : Kernel) (core : Nat) (but : TeamId) : List Nat :=
  let ok := (List.range 2048).filter fun c => c / 2 != core / 2 && s.canHold k c (some but)
  let far := ok.filter fun c => clusterOf c != clusterOf core
  if far.isEmpty then ok else far

/-- Whether an item can go to a core, its preferences aside. -/
def State.itemFits (s : State) (i : Item) (core : Nat) : Bool :=
  s.canHold i.kernel core (some i.team) &&
    (!i.kernel.shadow ||
      (if s.alone i.team then !s.barred i.team core else !(s.secondCores i.kernel core i.team).isEmpty))

/-- Whether an item goes to a core: a next phase to the core of the last one, else to its twin, else to any (R444). -/
def State.goesTo (s : State) (i : Item) (core : Nat) : Bool :=
  s.itemFits i core &&
    match i.kind, s.findTeam i.team with
    | .next, some t =>
      if core = t.core then true
      else if s.itemFits i t.core then false
      else
        let twin := if t.core % 2 = 0 then t.core + 1 else t.core - 1
        core == twin || !s.itemFits i twin
    | _, _ => true

/-- The item that a core takes: the first one that goes there (R444). -/
def State.firstFor (s : State) (core : Nat) : Option Item := s.items.find? fun i => s.goesTo i core

/-- The halves of one twin. -/
def sameTwin (a b : Nat) : Bool := a / 2 == b / 2

/-- Whether the dirty lines of a team stay in its stash at its placement on a core: the same one, or the other half of its twin, within
2 µs (R48). The lines of a shadow team go home once its copies agree (R473). -/
def State.linesStay (s : State) (t : Team) (core : Nat) : Bool :=
  !s.waitedLong t && !t.kernel.shadow && (core == t.core || sameTwin core t.core && !t.kernel.twin)

/-- The lines of a team move, then its reductions go home, and before it leaves the core its writes to peers are acknowledged; none
while one of these waits (R48, R320). -/
def State.leaveCore (s : State) (t : Team) (core : Nat) : Option State × State :=
  let stay := s.linesStay t core
  let s := if stay then s else (s.commitLines t.id).onTeam t.id Team.keepDirty
  if !stay && (s.findTeam t.id).any Team.holdsDirty then (none, s)
  else
    let s := s.commitReductions t.id
    if (s.findTeam t.id).any fun y => !y.rcb.isEmpty then (none, s)
    else if core != t.core && s.hasRemote t.id then (none, s)
    else (some s, s)

/-- A team of a grid before its first placement (R29, R440, R446). -/
def Grid.newTeam (g : Grid) (l : Nat) : Team :=
  let p := g.packet
  { (Team.blank ⟨g.id, l, 0⟩ g.kernel).fresh with
    x := l % p.nx, y := l / p.nx % p.ny, z := l / p.nx / p.ny, nteam := p.teams, depth := g.depth, queue := g.queue
    asn := g.asn, ptroot := g.ptroot, args := p.args, prec := p.prec, start := p.start }

/-- The Acorn flags at a placement: the cluster is not quiet, and work that moves down leaves black behind (R455). -/
def State.acornPlace (s : State) (g : Grid) (core : Nat) (launched : Bool) : State :=
  if !g.acorn then s
  else
    let c := clusterOf core
    let s := { s with acornQuiet := setBit s.acornQuiet c false }
    match launched, g.source with
    | true, some src =>
      if clusterOf src = c ∧ core < src then { s with acornBlack := setBit s.acornBlack src true }
      else if c < clusterOf src then { s with acornCBlack := setBit s.acornCBlack (clusterOf src) true }
      else s
    | _, _ => s

/-- A second copy of a team and its pods, on another core. -/
def State.cloneTo (s : State) (t : TeamId) (core : Nat) : State :=
  match s.findTeam t with
  | none => s
  | some x =>
    { s with
      teams := s.teams ++ [{ x with id := t.other, core := core }]
      pods := s.pods ++ (s.podsOf t).map fun p => { p with id := { p.id with team := t.other } } }

/-- A placed team: on its core, and its dirty lines are those that an abort leaves. -/
def Team.settle (t : Team) (core tick : Nat) : Team :=
  { t with core := core, place := .resident, placed := tick, kept := t.stash.filter fun l => l.dirty != 0 }

/-- Places a team that is in the tables, and the second copy that it needs (R471). -/
def State.placeOn (s : State) (i : Item) (core : Nat) : State :=
  let pair := i.kernel.shadow && !(s.alone i.team)
  let second := if pair then s.secondCores i.kernel core i.team else []
  let s := (s.onTeam i.team fun t => t.settle core s.tick).mapPods fun p =>
    if p.id.team = i.team then { p with sched := { p.sched with pending := s.cycle } } else p
  let s := match s.findGrid i.team.grid with
    | some g => s.acornPlace g core (i.kind == Offer.first)
    | none => s
  let s := match second with
    | [] => s
    | _ =>
      let (n, s) := s.choose second.length
      let c := (second[n]?).getD 0
      let s := s.cloneTo i.team c
      if i.kind = Offer.first then { s with ccache := s.ccache.filter fun y => y.1 / 2 ^ 52 ≠ clusterOf c } else s
  s.tickle

/-- The pods with which a phase runs again: from the record, or from the launch (R440, R453); none when the record cannot be read. -/
def State.rerunPods (s : State) (t : Team) (prio : Nat) : Option (List Pod) × State :=
  let ps := s.orderedPods t.id
  if t.phase = 0 ∨ t.prec = 0 then
    (some (ps.map fun p => { t.launchPod prio p.id with serial := p.serial, joined := p.joined, joinedAt := p.joinedAt }), s)
  else
    match s.readSpan t t.core t.recordAt t.kernel.recordSize with
    | (none, s) => (none, s)
    | (some b, s) =>
      let at_ := fun (p : Pod) => 128 + (match p.id.slice with
        | .execute => p.id.idx * t.kernel.podSection .execute
        | .access => t.kernel.xpods * t.kernel.podSection .execute + p.id.idx * t.kernel.podSection .access)
      (some (ps.map fun p =>
        let q := p.fromSection t.kernel (b.drop (at_ p))
        { q with done := full q.width &&& ~~~q.exited == 0 }), s)

/-- TEAM_PLACEMENT: a core's distributor agent fills it with the first item that goes there (R48, R440, R444, R453). -/
def execTeamPlacement (t : TeamId) (core : Nat) (s : State) : Host.Outcome State Fault Refusal :=
  match s.firstFor core with
  | none => .next s
  | some i =>
    if i.team ≠ t then .next s
    else
      let s := s.park
      match i.kind, s.findTeam t, s.findGrid t.grid with
      | .first, _, some g =>
        let x := g.newTeam t.l
        let s := s.onGrid g.id fun g => { g with unplaced := g.unplaced.drop 1 }
        let s := { s with
          ccache := s.ccache.filter fun y => y.1 / 2 ^ 52 ≠ clusterOf core
          teams := s.teams ++ [x], pods := s.pods ++ x.launchPods g.prio }
        .next (s.placeOn i core)
      | .next, some x, _ =>
        match s.leaveCore x core with
        | (none, s) => .next s
        | (some s, _) => .next (s.placeOn i core)
      | .again, some x, g =>
        match s.leaveCore x core with
        | (none, s) => .next s
        | (some s, _) =>
          match s.rerunPods { x with core := core } ((g.map Grid.prio).getD 0) with
          | (some ps, s) =>
            let s := ps.foldl (fun s p => s.onPod p.id fun _ => p) s
            let s := s.onTeam t fun y => { y with irrev := !y.kernel.restart }
            .next (s.placeOn i core)
          | (none, s) =>
            let s := s.placeOn i core
            .next ((s.orderedPods t).foldl (fun s p => s.raiseIn p.id .phaseOverflow) s)
      | _, _, _ => .next s

/-- CONTEXT_RESTORE: the context in a record returns to a core, if the checks of R283 hold there now (R120, R284). -/
def execContextRestore (addr core : Nat) (s : State) : Host.Outcome State Fault Refusal :=
  match s.teamIn addr, s.firstFor core with
  | some t, some i =>
    if i.team ≠ t.id ∨ i.kind ≠ .context then .next s
    else
      let s := s.restore t addr core
      .next (match s.findGrid t.id.grid with
        | some g => s.acornPlace g core false
        | none => s)
  | _, _ => .next s

/-- START_TIME_REACHED: the first phase of a team held for its START begins (R447). -/
def execStartTimeReached (t : TeamId) (s : State) : Host.Outcome State Fault Refusal :=
  match s.findTeam t with
  | none => .next s
  | some x =>
    .next (if x.place = .resident ∧ x.start.toNat ≤ s.time.toNat then (s.onTeam t fun y => { y with start := 0 }).tickle else s)

/-! ## FETCHW (R448 to R450) -/

/-- The grid whose lowest unplaced team a FETCHW of a team takes. -/
def State.fetchGrid (s : State) (t : Team) : Option Grid :=
  oldestGrid (s.grids.filter fun g =>
    g.queue == t.queue && g.packet.fetch && g.packet.khdr == t.kernel.khdr && !g.unplaced.isEmpty && t.cores.all (s.covers g.kernel))

/-- Writes the oldest open mailbox of a team. -/
def State.answerFetch (s : State) (t : Team) (o : Nat) (bs : List Byte) : State :=
  s.onTeam t.id fun t => { t.putShared s.tick o bs with mailboxes := t.mailboxes.drop 1, fetched := true }

/-- The mailbox of the first FETCHW of a phase in split mode (R450). -/
def splitBox (t : Team) (args : Dword) (iters itpt : Nat) : List Byte :=
  let b := t.id.l * iters / t.nteam
  let e := (t.id.l + 1) * iters / t.nteam
  let tb := b / itpt
  let te := if b = e then tb else (e - 1) / itpt
  toBytes 4 1 ++ toBytes 4 t.id.grid ++ toBytes 8 args.toNat ++ toBytes 4 b ++ toBytes 4 e ++ toBytes 2 tb ++ toBytes 2 te ++
    toBytes 4 ((if b % itpt ≠ 0 then 1 else 0) + if e % itpt ≠ 0 ∧ e < iters then 2 else 0)

/-- Whether the distributor serves the FETCHW requests of a queue: while it is mapped, or has nothing that a mapping would bring (R443,
R449). -/
def State.serves (s : State) (q : Queue) : Bool := q.mapped.isSome || !s.hasWork q

/-- FETCHW_MAILBOX_FILL. -/
def execFetchwMailboxFill (t : TeamId) (s : State) : Host.Outcome State Fault Refusal :=
  match s.findTeam t with
  | none => .next s
  | some x =>
    match x.mailboxes, s.findQueue x.queue, s.findGrid t.grid with
    | o :: _, some q, some g =>
      if x.place ≠ .resident ∨ !s.serves q then .next s
      else if q.mode = 1 then
        .next (if x.fetched then s.answerFetch x o (toBytes 4 2)
          else s.answerFetch x o (splitBox x g.packet.args g.packet.iters g.packet.itpt)).tickle
      else
        match s.fetchGrid x with
        | none => .next (s.answerFetch x o (toBytes 4 2)).tickle
        | some h =>
          let l := h.unplaced.headD 0
          let n := h.newTeam l
          let s := s.onGrid h.id fun g => { g with unplaced := g.unplaced.drop 1 }
          let s := s.answerFetch x o (toBytes 4 1 ++ toBytes 4 h.id ++ toBytes 8 h.packet.args.toNat ++ toBytes 4 n.x ++
            toBytes 4 n.y ++ toBytes 4 n.z ++ toBytes 4 l)
          .next (s.onTeam t fun y => { y with handed := y.handed ++ [(h.id, l)] }).tickle
    | _, _, _ => .next s

/-! ## The Acorn token (R454 to R456) -/

/-- Whether a team belongs to a tracked grid. -/
def State.tracked (s : State) (t : Team) : Bool := (s.findGrid t.id.grid).elim false Grid.acorn

/-- Whether a core is idle (R455). -/
def State.coreIdle (s : State) (core : Nat) : Bool :=
  !(s.allTeams.any fun t => s.tracked t && t.cores.contains core && (match t.place with
      | .resident | .exiting | .compared _ => true
      | _ => false)) &&
    !(s.ops.any fun o => o.core == core && o.state == .running && (s.findTeam o.pod.team).elim false s.tracked)

/-- Whether there is a tracked queue or grid, and no declared state: otherwise the tokens rest. -/
def State.acornActive (s : State) : Bool :=
  !s.dieTerm && (s.queues.any (fun x => x.enabled && x.acorn) || s.grids.any Grid.acorn)

/-- CLUSTER_TOKEN_PASS: the token of cluster `c` passes its next core; after the last, a round ends (R455). -/
def execClusterTokenPass (c : Nat) (s : State) : Host.Outcome State Fault Refusal :=
  if 64 ≤ c then .next s
  else
    let i := (s.acornPos.get c).toNat % 32
    let core := 32 * c + i
    let dark := s.acornToken.getLsbD c || s.acornBlack.getLsbD core || !s.coreIdle core
    let s := { s with
      acornPass := setBit s.acornPass core dark, acornBlack := setBit s.acornBlack core false
      acornPos := s.acornPos.set c (BitVec.ofNat 8 ((i + 1) % 32)) }
    .next (if i < 31 then { s with acornToken := setBit s.acornToken c dark }
      else { s with acornToken := setBit s.acornToken c false, acornQuiet := setBit s.acornQuiet c (!dark) })

/-- Whether no tracked queue holds an untaken packet, and no tracked grid an unplaced team or a parked context (R456). -/
def State.acornClear (s : State) : Bool :=
  s.queues.all (fun x => !(x.enabled && x.acorn && x.untaken != 0)) && s.grids.all (fun g => !g.acorn || g.unplaced.isEmpty) &&
    s.allTeams.all fun t => !(s.tracked t && t.recordOf.isSome)

/-- DIE_TOKEN_PASS: the die token passes the next cluster; a white round that ends declares termination when no tracked work is left
(R456). -/
def execDieTokenPass (s : State) : Host.Outcome State Fault Refusal :=
  let c := s.diePos % 64
  let dark := s.dieToken || s.acornCBlack.getLsbD c || !s.acornQuiet.getLsbD c
  let s := { s with diePass := setBit s.diePass c dark, acornCBlack := setBit s.acornCBlack c false, diePos := (c + 1) % 64 }
  if c < 63 then .next { s with dieToken := dark }
  else
    let s := { s with dieToken := false }
    .next (if !dark && s.acornClear && !s.dieTerm then s.declareTerm else s)

/-- ACORNST_TERM_CLEAR: TERM is cleared, and a new detection starts (R456). -/
def execAcornstTermClear (s : State) : Host.Outcome State Fault Refusal := .next (if s.acornst then s.acornFresh else s)

/-! ## Winnow (R466, R469, R470) -/

/-- Dword `i` of CAPM of a core takes a value; reserved classes stay 0 (R464, R466). -/
def State.setCapm (s : State) (core i : Nat) (v : Dword) : State :=
  let old := s.capmOf core
  let sh := 64 * (i % 4)
  let m : BitVec 256 := BitVec.ofNat 256 ((2 ^ 64 - 1) * 2 ^ sh)
  let new := (old &&& ~~~m ||| (v.setWidth 256 <<< sh)) &&& knownClasses
  { s with capm := (s.capm.filter fun x => x.1 < core) ++ [(core, new)] ++ s.capm.filter fun x => core < x.1 }

/-- CAPM_WRITE: only the MC's write has an effect; a bit that it clears is a fence (R466, R468). -/
def execCapmWrite (mc : Bool) (core dword : Nat) (value : Dword) (s : State) : Host.Outcome State Fault Refusal :=
  .next (if mc ∧ core < 2048 ∧ dword < 4 then (s.setCapm core dword value).tickle else s)

/-- WINNOW_ENQUEUE: the MC writes a packet to a supervisor queue of priority 3 and rings its doorbell (R437, R469). -/
def execWinnowEnqueue (_core q : Nat) (packet : List Byte) (s : State) : Host.Outcome State Fault Refusal :=
  match s.findQueue q with
  | none => .next s
  | some x =>
    if !x.enabled || !x.super || x.pri ≠ 3 || 2 ^ x.lsize ≤ x.untaken then .next s
    else execDoorbellWrite q (x.tail + 1) (s.writeOut (x.ring + 64 * (x.tail.toNat % 2 ^ x.lsize)) (padTo 64 (packet.take 64)))

/-- The team that was placed last on a core. -/
def State.youngest (s : State) (core : Nat) : Option Team :=
  (s.allTeams.filter fun t => t.id.grid ≠ 0 && t.place == .resident && t.cores.contains core).foldl (fun b t => match b with
    | none => some t
    | some u => if u.placed ≤ t.placed then some t else some u) none

/-- Cycles of 1 ms at 1.4 GHz. -/
def winnowWait : Nat := 1400000

/-- WINNOW_PLACEMENT_TIMEOUT: the MC saves the youngest team of a core on which a Winnow grid has not been placed for 1 ms (R470). -/
def execWinnowPlacementTimeout (core grid : Nat) (s : State) : Host.Outcome State Fault Refusal :=
  match s.findGrid grid, s.youngest core with
  | some g, some t =>
    .next (if g.kernel.winnow ∧ g.kernel.pin = core ∧ !g.unplaced.isEmpty ∧ g.taken + winnowWait ≤ s.cycle
      then s.requestSave (s.namedTeams t.id.grid t.id.l) else s)
  | _, _ => .next s

/-- WINNOW_RESULT_PROCESS: the MC clears the bits of the failing classes in CAPM of a core and logs each (R470). -/
def execWinnowResultProcess (core : Nat) (failing : BitVec 256) (s : State) : Host.Outcome State Fault Refusal :=
  if 2048 ≤ core then .next s
  else
    let gone := (List.range 256).filter fun i => failing.getLsbD i && (s.capmOf core).getLsbD i
    let v := s.capmOf core &&& ~~~failing
    let s := (List.range 4).foldl (fun s i => s.setCapm core i ((v >>> (64 * i)).setWidth 64)) s
    .next (gone.foldl (fun s i => s.note (.fenced core i)) s).tickle

/-! ## What is due -/

/-- The placements that are due: for each core, the first item that goes there. -/
def State.placements (s : State) : List (Nat × Item) :=
  if s.items.isEmpty then [] else (List.range 2048).filterMap fun c => (s.firstFor c).map fun i => (c, i)

/-- The distributor's other events that are due. -/
def State.dueOfDispatch (s : State) : List Instr :=
  (s.queues.filter s.takeDue).map (fun x => Instr.packetTake x.q) ++
  ((s.allTeams.filter fun t => t.place == .resident && t.start != 0 && decide (t.start.toNat ≤ s.time.toNat)).map fun t =>
    .startTimeReached t.id) ++
  ((s.allTeams.filter fun t => t.place == .resident && !t.mailboxes.isEmpty &&
    ((s.findQueue t.queue).elim false s.serves)).map fun t => .fetchwMailboxFill t.id) ++
  (if s.quantumDue then [.queueMappingQuantum] else []) ++ ((s.grids.filter Grid.over).map fun g => .gridRetirement g.id) ++
  (if s.acornActive && s.cycle % 4 == 0 then (List.range 64).map Instr.clusterTokenPass else []) ++
  (if s.acornActive && s.cycle % 8 == 0 then [.dieTokenPass] else [])

end Sys2Proof.Machine
end

