-- ==== Sys2Proof/Machine/MemEvents.lean ====
section
/-! DEFINITION. Events of memory and of the registers: page walks, L2 and scrubbing, invalidation of translations, access tables, writes
that come from outside the cores, and MMIO commands (R5, R20, R293, R298 to R300, R312, R317, R337, R435, R502, R508, R510, R518). -/
namespace Sys2Proof.Machine

/-! ## Memory (R298, R311, R312, R317, R337) -/

/-- PAGE_WALK: a walker reads the tables for a use of a page and sets A in the leaf (R298). -/
def execPageWalk (root : Nat) (_asn : BitVec 12) (va : Dword) (s : State) : Host.Outcome State Fault Refusal :=
  if s.husk.c ≠ 0 || !canonical va then .next s
  else
    match s.walk va 3 root with
    | .error _ => .next s
    | .ok l =>
      let pte := withAD l.pte false
      .next (if pte = l.pte then s else s.writeOut l.at_ (toBytes 8 pte))

/-- L2_EVICTION: the line is written to its stack (R337). -/
def execL2Eviction (line : Nat) (s : State) : Host.Outcome State Fault Refusal := .next (s.l2WriteBack (lineOf line))

/-- A counter of an L2 slice counts a corrected error of a line (R312, R510). -/
def State.countCorrected (s : State) (line : Nat) : State :=
  let slice := homeSlice line
  (List.range 8).foldl (fun s i =>
    let n := slice * 8 + i
    if (s.fsel.get n).toNat = 9 then { s with fcnt := s.fcnt.set n (s.fcnt.get n + 1) } else s) s

/-- What the checks of R311 find takes effect: a corrected error is counted by the memory that holds it, an uncorrectable one stays until
its byte or register is written (log 15). -/
def State.upset (s : State) (u : Upset) : State :=
  match u with
  | .corrected pa => s.countCorrected (lineOf pa)
  | .correctedIn core => s.countEvent core 9
  | .home pa => if (areaOf pa).isMem && !s.poison.contains pa then { s with poison := s.poison ++ [pa] } else s
  | .stash t pa => s.onTeam t fun x => match x.lineAt pa with
    | some l =>
      let b := BitVec.ofNat 128 (2 ^ (pa % 128))
      x.setLine { l with bad := l.bad ||| (if l.filled || l.dirty &&& b != 0 then b else 0) }
    | none => x
  | .shared t o => s.onTeam t fun x => { x with badShared := o :: x.badShared }
  | .vreg p t r => s.onPod p fun q => { q with bad := (t * 1024 + r) :: q.bad }
  | .kreg p r => s.onPod p fun q => { q with bad := (2 ^ 20 + r) :: q.bad }

/-- MEMORY_SCRUB: corrected words are rewritten and counted; what is uncorrectable in the line is logged (R312). -/
def execMemoryScrub (x : Scrub) (s : State) : Host.Outcome State Fault Refusal :=
  let s := x.found.foldl State.upset s
  .next ((s.poison.filter fun pa => lineOf pa = lineOf x.line).foldl (fun s pa => s.note (.uncorrectable pa)) s)

/-- Whether a party outside the cores can write some addresses now: memory is there, and no serial transaction locks the lines (R290,
R363). -/
def State.writable (s : State) (pas : List Nat) : Bool :=
  s.husk.c == 0 && pas.all fun pa => (areaOf pa).isMem && !s.lockedLine (lineOf pa)

/-- WRITE_REACHES_HOME: a home slice accepts a write and invalidates the other copies of its lines; a peer's slice those that this package
holds (R317). -/
def execWriteReachesHome (pa : Nat) (bytes : List Byte) (s : State) : Host.Outcome State Fault Refusal :=
  .next (
    if s.writable (run pa bytes.length) then (s.writeOut pa bytes).tickle
    else if s.husk.c = 0 ∧ (areaOf pa).isPeer then
      (((run pa bytes.length).map lineOf).eraseDups.foldl (fun s line => s.peerWritten none line) s).tickle
    else s)

/-- HOST_COMPLEX_ACCESS: an access of the host complex to memory, with its partition's number; one that is refused faults on the host
core (R20, R500, R502). -/
def execHostComplexAccess (part : BitVec 6) (pa : Nat) (wr : Option (List Byte)) (s : State) : Host.Outcome State Fault Refusal :=
  let n := match wr with
    | some bs => bs.length
    | none => 1
  if !s.writable (run pa n) then .next s
  else
    let (ok, s) := s.accOk targetL2 part.toNat pa n wr.isNone wr.isSome
    match ok, wr with
    | true, some bs => .next (s.writeOut pa bs).tickle
    | _, _ => .next s

/-! ## Translation invalidation (R300) -/

/-- A write of XLINV starts an invalidation; one made while BUSY reads 1 is ignored. -/
def State.startXlinv (s : State) (v : Dword) : State :=
  if s.xlbusy || bits v.toNat 61 2 = 3 then s else { s with xlinv := v &&& 0x60FF_FFFF_FFFF_FFFF, xlbusy := true }

/-- XLINV_PAGE. -/
def execXlinvPage (asn : BitVec 12) (va : BitVec 44) (s : State) : Host.Outcome State Fault Refusal :=
  .next (s.startXlinv (BitVec.ofNat 64 (asn.toNat * 2 ^ 44 + va.toNat)))

/-- XLINV_ASN. -/
def execXlinvAsn (asn : BitVec 12) (s : State) : Host.Outcome State Fault Refusal :=
  .next (s.startXlinv (BitVec.ofNat 64 (2 ^ 61 + asn.toNat * 2 ^ 44)))

/-- XLINV_ALL. -/
def execXlinvAll (s : State) : Host.Outcome State Fault Refusal := .next (s.startXlinv (BitVec.ofNat 64 (2 ^ 62)))

/-- XLINV_RESERVED: the write is ignored. -/
def execXlinvReserved (s : State) : Host.Outcome State Fault Refusal := .next s

/-- Whether an invalidation drops a cached leaf: the page that holds VA, of any size; an address space; all. -/
def xlinvDrops (v : Dword) (e : TlbEntry) : Bool :=
  let asn := bits v.toNat 44 12
  match bits v.toNat 61 2 with
  | 0 =>
    let b := 2 ^ (pageBits e.level e.pte.toNat - 12)
    e.asn.toNat == asn && e.page % 2 ^ 44 / b == bits v.toNat 0 44 / b
  | 1 => e.asn.toNat == asn
  | _ => true

/-- Whether it drops a cached table entry: one on the way to VA, of an address space, or any. -/
def xlinvDropsWalk (v : Dword) (e : WalkEntry) : Bool :=
  let asn := bits v.toNat 44 12
  match bits v.toNat 61 2 with
  | 0 => e.asn.toNat == asn && e.reach % 2 ^ (44 - 9 * e.level) == bits v.toNat 0 44 / 2 ^ (9 * e.level)
  | 1 => e.asn.toNat == asn
  | _ => true

/-- XLINV_COMPLETE: the translations are gone from every Sheller TLB, cluster TLB and the walk cache, and BUSY reads 0. -/
def execXlinvComplete (s : State) : Host.Outcome State Fault Refusal :=
  .next (if s.xlbusy then
      { s with tlb := s.tlb.filter fun e => !xlinvDrops s.xlinv e, ctlb := s.ctlb.filter fun e => !xlinvDrops s.xlinv e,
               wcache := s.wcache.filter fun e => !xlinvDropsWalk s.xlinv e, xlbusy := false }
    else s)

/-! ## Access tables (R501, R502) -/

/-- ACCESS_TABLE_WRITE: the MC writes a region; until BUSY reads 0 a check uses the old or the new one. -/
def execAccessTableWrite (target index : Nat) (region : Region) (s : State) : Host.Outcome State Fault Refusal :=
  .next (
    if 64 ≤ index ∨ targetMmio < target then s
    else
      { s with accNew := (s.accNew.filter fun x => x.1 ≠ target * 64 + index) ++ [(target * 64 + index, region)], accBusy := true })

/-- ACCESS_TABLE_UPDATE_DONE. -/
def execAccessTableUpdateDone (s : State) : Host.Outcome State Fault Refusal :=
  .next { s with acc := s.accAfter, accNew := [], accBusy := false }

/-! ## Registers (R5, R6, R293, R506) -/

/-- ESCTAIL_WRITE (R508). -/
def execEsctailWrite (tail : Word) (s : State) : Host.Outcome State Fault Refusal := .next (s.setReg .esctail 0x10_0058 4 tail.toNat)

/-- DBGOUT_POP: a read of DBGOUT by the debug port or the MC, whichever the access tables let through (R502, R518). -/
def execDbgoutPop (s : State) : Host.Outcome State Fault Refusal :=
  let a := mmioBase + 0x10_0200
  match s.accOk targetMmio 65 a 8 true false with
  | (true, s) => .next s.popDebug.2
  | (false, s) =>
    match s.accOk targetMmio 64 a 8 true false with
    | (true, s) => .next s.popDebug.2
    | (false, s) => .next s

/-- COUNTER_MMIO_CLEAR: a write of ORPH or of starvation counters clears them (R510). -/
def execCounterMmioClear (addr : Nat) (s : State) : Host.Outcome State Fault Refusal :=
  .next (match regAt (addr - mmioBase) with
    | some (.stv p) => s.setReg (.stv p) 0 8 0
    | some .orph => s.setReg .orph 0 8 0
    | _ => s)

/-- The kind of a master that is not a core's work (R500). -/
def whoIs (master : Nat) : Option Who :=
  if master < 64 then some .host else if master = 64 then some .mc else if master = 65 then some .debug else none

/-- WQCMD by its OP (R436). -/
def State.command (s : State) (op : Nat) : Host.Outcome State Fault Refusal :=
  match op with
  | 0 => execWqEnable s
  | 1 => execWqDisable s
  | 2 => execSaveTeam s
  | 3 => execAbortTeam s
  | 4 => execResumeContext s
  | 5 => execDiscardContext s
  | n => execWqcmdReserved (BitVec.ofNat 3 n) s

/-- Whether a master's write of a register is let through (R293, R502). -/
def State.reachesReg (s : State) (r : Reg) (master addr size : Nat) : Bool × State :=
  match whoIs master with
  | none => (false, s)
  | some w =>
    if !(size == 4 || size == 8) || addr % size ≠ 0 || !r.reach w then (false, s)
    else if w == .mc && r.mcOnly then (true, s)
    else s.accOk targetMmio master addr size false true

end Sys2Proof.Machine
end

