-- ==== Sys2Proof/Machine/Husk.lean ====
section
/-! DEFINITION. The Husk and die states and their resets, boot, attestation, the watchdog, the MC mailbox and the time base (R479 to
R489, R497, R503 to R508). -/
namespace Sys2Proof.Machine

/-! ## Husk states (R479, R480, R485) -/

/-- The Husk enters a state and is at rest in it. -/
def Husk.at_ (k : Husk) (h : BitVec 2) : Husk := { k with h := h, htgt := h }

/-- This package's row of the link-state table. -/
def Husk.setRow (k : Husk) (row : BitVec 16) : Husk := { k with lstate := k.lstate.set Config.pkg.toNat row }

/-- Every link and Ultra Ethernet port goes down, and what the crossbar holds for other packages is discarded (R480, R485). -/
def State.linksDrop (s : State) : State :=
  { s with links := [], xbar := [], replies := [], husk := { s.husk.setRow 0 with ueUp := false } }

/-- The reset of the Husk datapath: link layers, table, starvation and Husk counters (R483, R494, R510). -/
def State.datapathReset (s : State) : State :=
  let s := s.linksDrop
  { s with
    husk := { s.husk with lstate := [] }
    stv1 := [], stv2 := [], fcnt := s.fcnt.filter fun c => decide (c.1 < 1024), fsel := s.fsel.filter fun c => decide (c.1 < 1024) }

/-- HUSK_TO_H1: from H2 by command of the MC's verified firmware; the links begin to train. -/
def execHuskToH1 (s : State) : Host.Outcome State Fault Refusal :=
  .next (if s.husk.h = 2 ∧ s.husk.mcOk then { s with husk := s.husk.at_ 1 } else s)

/-- HUSK_TO_H0: from H1 by command; H0 is entered when the Ultra Ethernet ports are up. -/
def execHuskToH0 (s : State) : Host.Outcome State Fault Refusal :=
  .next (if s.husk.h = 1 then { s with husk := { s.husk with htgt := 0 } } else s)

/-- UE_PORTS_UP: H0 is entered, or the ports are back after a Husk reset in H0. -/
def execUePortsUp (s : State) : Host.Outcome State Fault Refusal :=
  .next (if s.husk.htgt = 0 ∧ s.husk.h.toNat < 2 then { s with husk := { s.husk.at_ 0 with ueUp := true } } else s)

/-- HUSK_H0_TO_H1: the Ultra Ethernet ports go down and the local port closes at once. -/
def execHuskH0ToH1 (s : State) : Host.Outcome State Fault Refusal :=
  .next (if s.husk.h = 0 then { s with husk := { s.husk.at_ 1 with ueUp := false } } else s)

/-- HUSK_TO_H2: the links drop at once. -/
def execHuskToH2 (s : State) : Host.Outcome State Fault Refusal :=
  .next (if s.husk.h.toNat < 2 then (let s := s.linksDrop; { s with husk := s.husk.at_ 2 }) else s)

/-- What a Husk without power loses: its datapath and all that the MC keeps but fuses; a boot starts over (R483, R503). -/
def State.mcReset (s : State) : State :=
  let s := s.datapathReset
  { s with
    husk := { Husk.reset with c := s.husk.c, rollback := s.husk.rollback, revoked := s.husk.revoked, hungAt := s.husk.hungAt }
    nextSeq := [], e2eDone := [], spent := [], acc := [], accNew := [], accBusy := false, wqpart := [], ueep := [], uefg := [] }

/-- HUSK_TO_H3: off, from H2 by command. -/
def execHuskToH3 (s : State) : Host.Outcome State Fault Refusal :=
  .next (if s.husk.h = 2 then (let s := s.mcReset; { s with husk := s.husk.at_ 3 }) else s)

/-- HUSK_RESET: the datapath resets and the Husk returns to the state it was in; the end-to-end state survives, and requests of the
die wait for links (R485). Links and ports come up by events of their own. -/
def execHuskReset (s : State) : Host.Outcome State Fault Refusal :=
  .next (if s.husk.h = 3 then s else s.datapathReset)

/-- HUSK_POWER_APPLIED: H2, and the MC is released (R480, R503). What the time base then holds is open, but %time never steps while the
die runs (R497; log 7). -/
def execHuskPowerApplied (s : State) : Host.Outcome State Fault Refusal :=
  .next (
    if s.husk.h = 3 then
      let s := s.mcReset
      let (t, s) := s.choose (2 ^ 64)
      { s with husk := s.husk.at_ 2, time := if s.husk.c = 0 then s.time else BitVec.ofNat 64 t }
    else s)

/-- HUSK_POWER_LOST. -/
def execHuskPowerLost (s : State) : Host.Outcome State Fault Refusal :=
  .next (let s := s.mcReset; { s with husk := s.husk.at_ 3 })

/-! ## Die states and resets (R481 to R486) -/

/-- Memory as a reset leaves it: L2 loses its dirty lines (R483, R484). -/
def State.memAfterReset (s : State) : List Host.Cell :=
  s.stale.foldl (fun m (x : Host.Cell) => store Config.unwritten m x.1 x.2) s.mem

/-- The compute die at its reset values; the Husk, the MC, memory and the time base keep theirs (R483). What the die has accepted and not answered
is answered TARGET_DOWN (R484, R489). Requests under way belong to no pod and no team any more, and those of the remote combining buffers
are dropped (R319). -/
def State.dieCleared (s : State) : State :=
  { State.reset with
    mem := s.memAfterReset, poison := s.poison, husk := s.husk, links := s.links, stv1 := s.stv1, stv2 := s.stv2, orph := s.orph
    fcnt := s.fcnt.filter fun c => decide (1024 ≤ c.1), fsel := s.fsel.filter fun c => decide (1024 ≤ c.1)
    outReq := (s.outReq.filter fun o => !(o.team.isSome && match o.kind with
      | .store .. => true
      | _ => false)).map fun o => { o with pod := none, team := none }
    replies := s.replies ++ s.accepted.map fun m => ⟨m.src, m.seq, .targetDown⟩
    spent := s.spent
    nextSeq := s.nextSeq, xbar := s.xbar, e2eDone := s.e2eDone, acc := s.acc, accNew := s.accNew, accBusy := s.accBusy
    wqpart := s.wqpart, ueep := s.ueep, uefg := s.uefg, log := s.log, cycle := s.cycle, tick := s.tick, time := s.time
    free := s.free, progress := s.progress + 1, inputs := s.inputs, quantum := s.cycle / quantumCycles }

/-- The steps of a compute-die reset up to C2: the generation counts up, the die is cleared (R484). -/
def State.dieReset (s : State) : State :=
  let s := s.dieCleared
  { s with husk := { s.husk with c := 2, dgen := s.husk.dgen + 1 } }

/-- COMPUTE_DIE_RESET: from C0 or C1. -/
def execComputeDieReset (s : State) : Host.Outcome State Fault Refusal :=
  .next (if s.husk.c.toNat < 2 then s.dieReset else s)

/-- DIE_POWER_ON: C3 to C2, reset held, by command of the MC. -/
def execDiePowerOn (s : State) : Host.Outcome State Fault Refusal :=
  .next (if s.husk.c = 3 ∧ s.husk.mcOk then { s with husk := { s.husk with c := 2 } } else s)

/-- The die firmware images that a release needs (R503). -/
def Husk.imagesOk (k : Husk) : Bool := k.mcOk && [2, 3, 4].all k.dieOk.contains

/-- DIE_RESET_RELEASE: fuses give CAPM, the verified firmware is loaded, every queue and register of the distributor starts at its reset
value, and the die enters C0 (R484, R503). The agents' heartbeats begin. -/
def execDieResetRelease (s : State) : Host.Outcome State Fault Refusal :=
  .next (
    if s.husk.c = 2 ∧ s.husk.imagesOk then
      { s with
        capm := []
        husk := { s.husk with
          c := 0, beat := (List.range 64).foldl (fun b c => b.set c (BitVec.ofNat 64 s.cycle)) ([] : Cells 64) } }
    else s)

/-- DIE_POWER_OFF: from C1 or C2 to C3; the die's state is lost. -/
def execDiePowerOff (s : State) : Host.Outcome State Fault Refusal :=
  .next (
    if s.husk.c = 1 ∨ s.husk.c = 2 then
      let s := s.dieCleared
      { s with husk := { s.husk with c := 3 } }
    else s)

/-- AGENT_HEARTBEAT: the distributor agent of a cluster reports to the MC (R482). -/
def execAgentHeartbeat (c : Nat) (s : State) : Host.Outcome State Fault Refusal :=
  .next (if s.husk.c = 0 ∧ c < 64 then
      { s with husk := { s.husk with beat := s.husk.beat.set c (BitVec.ofNat 64 s.cycle) } }
    else s)

/-- Cycles between two heartbeats of an agent. -/
def beatCycles : Nat := 14000

/-- Cycles of a millisecond. -/
def msCycles : Nat := 1400000

/-- Whether some agent has been silent for 1 ms. -/
def State.silent (s : State) : Bool :=
  s.husk.c == 0 && (List.range 64).any fun c => decide ((s.husk.beat.get c).toNat + msCycles ≤ s.cycle)

/-- WATCHDOG_EXPIRY: the die is hung. -/
def execWatchdogExpiry (s : State) : Host.Outcome State Fault Refusal :=
  .next (if s.silent then { s with husk := { s.husk with c := 1, hungAt := s.cycle } } else s)

/-- Whether DIEPOL.HOLD milliseconds have passed since the die hung. -/
def State.holdOver (s : State) : Bool :=
  s.husk.c == 1 && s.husk.hold != 0 && decide (s.husk.hungAt + s.husk.hold.toNat * msCycles ≤ s.cycle)

/-- DIE_HOLD_EXPIRY. -/
def execDieHoldExpiry (s : State) : Host.Outcome State Fault Refusal := .next (if s.holdOver then s.dieReset else s)

/-- PACKAGE_RESET: both domains at their reset values, memory left open; fuses, and the world outside, go on (R8, R483, R486). -/
def execPackageReset (s : State) : Host.Outcome State Fault Refusal :=
  .next
    { State.reset with
      mem := (Config.lostMemory s.free).foldl (fun m x => store Config.unwritten m x.1 x.2) []
      husk := { Husk.reset with rollback := s.husk.rollback, revoked := s.husk.revoked }
      cycle := s.cycle, tick := s.tick, free := s.free + 1, progress := s.progress + 1, inputs := s.inputs
      quantum := s.cycle / quantumCycles }

/-- A target C state, as DIECMD and the mailbox name it (R482). -/
def State.dieCommand (s : State) (c : BitVec 2) : Host.Outcome State Fault Refusal :=
  match c.toNat with
  | 0 => execDieResetRelease s
  | 2 => if s.husk.c = 3 then execDiePowerOn s else execComputeDieReset s
  | 3 => execDiePowerOff s
  | _ => .next s

/-- MC_MAILBOX_REQUEST: the MC refuses a request whose partition is not 0 (R482). -/
def execMcMailboxRequest (part : BitVec 6) (cstate : BitVec 2) (s : State) : Host.Outcome State Fault Refusal :=
  if part ≠ 0 ∨ !s.husk.mcOk then .next s else s.dieCommand cstate

/-! ## Time base (R497) -/

/-- TIME_BASE_SYNC: outside C0 the time base is set; in C0 it only slews, which `Config.elapsedNs` covers (log 5). -/
def execTimeBaseSync (reference : Nat) (s : State) : Host.Outcome State Fault Refusal :=
  .next (if s.husk.c = 0 ∨ s.husk.h = 3 then s else { s with time := BitVec.ofNat 64 reference })

/-! ## Boot and attestation (R503 to R505) -/

/-- Bytes of a signature. -/
def sigBytes : Nat := 7856

/-- Whether the verifier accepts an image under a public key (R504). -/
def Husk.accepts (k : Husk) (image pubkey : List Byte) : Bool :=
  let h := image.take 64
  let ty := field h 4 2
  let slot := field h 6 2
  let body := (image.drop 0x1EF0).take (field h 0x10 8)
  decide (0x1EF0 + field h 0x10 8 ≤ image.length) && field h 0 4 == 0x4A4D4657 && decide (1 ≤ ty) && decide (ty ≤ 4) &&
    decide (slot ≤ 3) && decide (field h 0x38 4 < 32) && zeros h 0x3C 4 && pubkey.length == 32 &&
    Config.sha256 pubkey == Config.keyDigest slot && Config.slhVerify pubkey h ((image.drop 0x40).take sigBytes) &&
    !k.revoked.getLsbD slot && decide ((k.rollback.get ty).toNat ≤ field h 0xC 4) &&
    Config.sha256 body == BitVec.ofNat 256 (field h 0x18 32)

/-- What an accepted image changes: its measurement, what may run, and the fuses that FUSEREQ asks for (R503, R504). -/
def Husk.accept (k : Husk) (h : List Byte) : Husk :=
  let ty := field h 4 2
  let req := field h 0x38 4
  let slot := field h 6 2
  { k with
    meas := k.meas ++ [(ty, BitVec.ofNat 32 (field h 8 4), BitVec.ofNat 256 (field h 0x18 32))]
    mcOk := k.mcOk || ty == 1
    dieOk := if ty = 1 ∨ k.dieOk.contains ty then k.dieOk else k.dieOk ++ [ty]
    rollback := if bit req 0 then k.rollback.set ty (BitVec.ofNat 32 (field h 0xC 4)) else k.rollback
    revoked := k.revoked ||| (BitVec.ofNat 4 (bits req 1 4) &&& ~~~(BitVec.ofNat 4 (2 ^ slot))) }

/-- FIRMWARE_VERIFY: the boot ROM verifies MC firmware; MC firmware verifies the images of the die (R503). -/
def execFirmwareVerify (image pubkey : List Byte) (s : State) : Host.Outcome State Fault Refusal :=
  .next (
    if s.husk.h = 3 ∨ (!s.husk.mcOk ∧ field image 4 2 ≠ 1) then s
    else if s.husk.accepts image pubkey then { s with husk := s.husk.accept (image.take 64) }
    else s)

/-- A region as the tables lay it out (R501); one that nothing has written is empty (log 20). -/
def State.regionBytes (s : State) (target i : Nat) : List Byte :=
  match s.acc.find? fun x => x.1 = target * 64 + i with
  | some (_, r) => toBytes 8 r.base.toNat ++ toBytes 8 r.limit.toNat ++ toBytes 16 r.rmask.toNat ++ toBytes 16 r.wmask.toNat
  | none => toBytes 8 0x1000 ++ toBytes 40 0

/-- The report without its signature (R505). -/
def State.reportBody (s : State) (nonce : BitVec 256) : List Byte :=
  let acc := (List.range (targetMmio + 1)).flatMap fun t => (List.range 64).flatMap (s.regionBytes t)
  let eps := (List.range 256).flatMap fun i => toBytes 32 (s.ueep.get i).toNat
  let caps := (List.range 2048).flatMap fun c => toBytes 32 (s.capmOf c).toNat
  toBytes 4 0x4A4D4152 ++ toBytes 2 1 ++ toBytes 2 s.husk.meas.length ++ toBytes 32 nonce.toNat ++ toBytes 8 Config.devid.toNat ++
    toBytes 16 Config.serial.toNat ++ toBytes 1 Config.pkg.toNat ++ toBytes 1 (s.husk.h.toNat + 16 * s.husk.c.toNat) ++ toBytes 6 0 ++
    toBytes 32 (Config.sha256 acc).toNat ++ toBytes 32 (Config.sha256 eps).toNat ++ toBytes 32 (Config.sha256 caps).toNat ++
    (s.husk.meas.flatMap fun m => toBytes 2 m.1 ++ toBytes 2 0 ++ toBytes 4 m.2.1.toNat ++ toBytes 32 m.2.2.toNat) ++
    padTo 32 (Config.identityKey.take 32)

/-- ATTESTATION_REQUEST. -/
def execAttestationRequest (nonce : BitVec 256) (s : State) : Host.Outcome State Fault Refusal :=
  .next (
    if s.husk.h = 3 ∨ !s.husk.mcOk then s
    else
      let b := s.reportBody nonce
      { s with husk := { s.husk with report := b ++ padTo sigBytes ((Config.slhSign b).take sigBytes) } })

end Sys2Proof.Machine
end

