-- ==== Sys2Proof/Machine/Registers.lean ====
section
/-! DEFINITION. Writes of memory-mapped registers by the host complex, the MC and the debug port (R5, R6, R293, R300, R435 to R437, R466,
R480, R482, R506 to R508, R510, R518). -/
namespace Sys2Proof.Machine

/-- A write of HUSKCMD: the manual names its commands (a target H state, a Husk reset) but not its bits, so which command a value gives is
open (R506; log 13). -/
def State.huskCommand (s : State) : Host.Outcome State Fault Refusal :=
  match s.choose 6 with
  | (0, s) => execHuskToH1 s
  | (1, s) => execHuskToH0 s
  | (2, s) => execHuskH0ToH1 s
  | (3, s) => execHuskToH2 s
  | (4, s) => execHuskToH3 s
  | (_, s) => execHuskReset s

/-- A write of DIECMD: a target C state, its bits open in the same way (R506; log 13). -/
def State.dieCmdWrite (s : State) : Host.Outcome State Fault Refusal :=
  match s.choose 4 with
  | (n, s) => s.dieCommand (BitVec.ofNat 2 n)

/-- A write that reaches register `r`. -/
def State.regWrite (s : State) (r : Reg) (master addr size : Nat) (value : Dword) : Host.Outcome State Fault Refusal :=
  let off := addr - mmioBase
  let v := mergeDword (s.readReg r) off size value.toNat
  match r with
  | .wqcmd => if off % 8 = 0 then s.command (bits value.toNat 0 3) else .next s
  | .door q => if off % 8 = 0 then execDoorbellWrite q (value.setWidth 32) s else .next s
  | .xlinv => .next (s.startXlinv v)
  | .capm core i => execCapmWrite (decide (master = 64)) core i v s
  | .acornst => if (mergeDword 0 off size value.toNat).getLsbD 0 then execAcornstTermClear s else .next s
  | .huskcmd => s.huskCommand
  | .diecmd => s.dieCmdWrite
  | r => .next (s.setReg r off size value.toNat).tickle

/-- REGISTER_WRITE: a write of a register by the master of a number, if it reaches it. -/
def execRegisterWrite (master addr size : Nat) (value : Dword) (s : State) : Host.Outcome State Fault Refusal :=
  if addr < mmioBase ∨ s.husk.h = 3 then .next s
  else
    match regAt (addr - mmioBase) with
    | none => .next s
    | some r =>
      match s.reachesReg r master addr size with
      | (false, s) => .next s
      | (true, s) => s.regWrite r master addr size value

end Sys2Proof.Machine
end

