-- ==== Sys2Proof/Machine/Fabric.lean ====
section
/-! DEFINITION. The fabric: Hazel links and their arbitration, link states and detours, requests of peers, answers to this package's
requests, and Ultra Ethernet (R292, R320, R350, R371, R479, R485 to R500). -/
namespace Sys2Proof.Machine

/-! ## Links (R490, R492, R494) -/

/-- A link that is down, with nothing sent. -/
def Link.blank (port : Nat) : Link where
  port := port
  up := false
  sent := 0
  acked := 0
  expect := 0
  credits := []
  retries := 0
  s1 := 0
  s2 := 0
  alt := 0

/-- The link of a port. -/
def State.linkOf (s : State) (port : Nat) : Link := (s.links.find? fun l => l.port = port).getD (Link.blank port)

/-- Replaces the link of its port; the links stay in the order of their ports. -/
def State.setLink (s : State) (l : Link) : State :=
  { s with links := (s.links.filter fun x => x.port < l.port) ++ [l] ++ s.links.filter fun x => l.port < x.port }

/-- Whether a port number is that of a link: 15 links, to the other packages of the group. -/
def isPort (port : Nat) : Bool := decide (port < 16) && port != Config.pkg.toNat

/-- Whether the Husk forwards (R479). -/
def Husk.forwards (k : Husk) : Bool := decide (k.h.toNat < 2)

/-- This package's row with the bit of one link set or cleared; each change is broadcast (R494). -/
def State.setOwn (s : State) (port : Nat) (up : Bool) : State :=
  { s with husk := s.husk.setRow (setBit (s.husk.lstate.get Config.pkg.toNat) port up) }

/-- A link is declared down and is trained anew (R494). -/
def State.linkFails (s : State) (port : Nat) : State := (s.setLink (Link.blank port)).setOwn port false

/-- FLIT_RECEIVE: a flit that fails its CRC, or that is not the next one, is sent again; an accepted one acknowledges and returns
credits (R490, R494). -/
def execFlitReceive (port : Nat) (flit : Flit) (s : State) : Host.Outcome State Fault Refusal :=
  let l := s.linkOf port
  .next (
    if !l.up || !s.husk.forwards then s
    else if !flit.crcOk then s.setLink { l with retries := l.retries + 1 }
    else if flit.lseq ≠ l.expect then s
    else
      s.setLink { l with
        expect := l.expect + 1, acked := flit.lack, retries := 0
        credits := l.credits.set flit.cvc.toNat (l.credits.get flit.cvc.toNat + flit.cred.setWidth 16) })

/-- LINK_RETRY_LIMIT: 16 retries of one flit in a row. -/
def execLinkRetryLimit (port : Nat) (s : State) : Host.Outcome State Fault Refusal :=
  let l := s.linkOf port
  .next (if l.up ∧ 16 ≤ l.retries then s.linkFails port else s)

/-- LINK_NO_PROGRESS_TIMEOUT: 1 ms without progress, as the link layer reports it. -/
def execLinkNoProgressTimeout (port : Nat) (s : State) : Host.Outcome State Fault Refusal :=
  .next (if (s.linkOf port).up then s.linkFails port else s)

/-- LINK_TRAINING_COMPLETE: the link is up, its counters start anew, and the row changes. -/
def execLinkTrainingComplete (port : Nat) (s : State) : Host.Outcome State Fault Refusal :=
  .next (if isPort port ∧ s.husk.forwards ∧ !(s.linkOf port).up then
      (s.setLink { Link.blank port with up := true }).setOwn port true
    else s)

/-- LSTATE_BROADCAST_RECEIVE. -/
def execLstateBroadcastReceive (src : Nat) (row : BitVec 16) (s : State) : Host.Outcome State Fault Refusal :=
  .next (if isPort src ∧ s.husk.forwards then { s with husk := { s.husk with lstate := s.husk.lstate.set src row } } else s)

/-! ## Arbitration (R491, R492) -/

/-- Whether a channel can send: a flit is ready, the other side has room, and the window is open. -/
def Link.canSend (l : Link) (ready : BitVec 8) (vc : Nat) : Bool :=
  ready.getLsbD vc && l.credits.get vc != 0 && decide ((l.sent - l.acked).toNat < 1024)

/-- The channel of a class that is granted, if one can send: a normal channel and its detour alternate when both can. -/
def Link.ofClass (l : Link) (ready : BitVec 8) (c : Nat) : Option Nat :=
  match l.canSend ready c, l.canSend ready (c + 4) with
  | true, true => some (if l.alt.getLsbD c then c else c + 4)
  | true, false => some c
  | false, true => some (c + 4)
  | false, false => none

/-- S1 and S2 after a grant to a class, 4 standing for none: each counts grants of stricter tiers while its own tier is ready (R492). -/
def Link.counted (l : Link) (ready : BitVec 8) (c : Nat) : Link :=
  let t1 := (l.ofClass ready 2).isSome
  let t2 := (l.ofClass ready 3).isSome
  { l with
    s1 := if t1 && decide (c < 2) then l.s1 + 1 else 0
    s2 := if t2 && decide (c < 3) then l.s2 + 1 else 0 }

/-- Whether a response goes out of a port on a channel: on VC 0 to its requester, or on VC 4 to the relay (R491, R495). -/
def State.replyGoes (s : State) (port vc : Nat) (r : Reply) : Bool :=
  let via := s.relayTo r.dst
  via.getD r.dst == port && (vcVia 0 via).toNat == vc

/-- A flit is granted on a channel: it takes a credit and a sequence number, and a message of the crossbar, or a response, leaves with its
header. -/
def State.grant (s : State) (l : Link) (vc : Nat) : State :=
  let s := match s.replies.find? (s.replyGoes l.port vc) with
    | some r => { s with replies := s.replies.erase r }
    | none => s
  let mine := fun (x : Nat × Message) => x.1 == l.port && x.2.vc.toNat == vc
  let s := match s.xbar.find? mine with
    | some x => { s with xbar := s.xbar.erase x }
    | none => s
  s.setLink { l with
    sent := l.sent + 1, credits := l.credits.set vc (l.credits.get vc - 1), alt := setBit l.alt (vc % 4) (decide (4 ≤ vc)) }

/-- Whether S1 or S2 is due for a tier; both due, T1 goes first. -/
def Link.starved (l : Link) (tier : Nat) : Bool :=
  match tier with
  | 1 => decide (32 ≤ l.s1)
  | 2 => decide (l.s1 < 32) && decide (128 ≤ l.s2)
  | _ => false

/-- FLIT_SLOT_GRANT: the first class with a channel that can send, in the order of R492. A slot at which a counter is due is
STARVATION_GRANT's. -/
def execFlitSlotGrant (port : Nat) (ready : BitVec 8) (s : State) : Host.Outcome State Fault Refusal :=
  let l := s.linkOf port
  .next (
    if !l.up || l.starved 1 || l.starved 2 then s
    else
      match (List.range 4).findSome? fun c => (l.ofClass ready c).map fun v => (c, v) with
      | none => s.setLink (l.counted ready 4)
      | some (c, v) => s.grant (l.counted ready c) v)

/-- STARVATION_GRANT: the tier whose counter is due is granted, and counted in STV1 or STV2 (R492, R510). -/
def execStarvationGrant (port : Nat) (tier : BitVec 2) (s : State) : Host.Outcome State Fault Refusal :=
  let l := s.linkOf port
  let t := tier.toNat
  let up := fun (c : Cells 32) => c.set port (if c.get port = -1 then -1 else c.get port + 1)
  .next (
    if !l.up || !l.starved t then s
    else
      match l.ofClass (-1) (t + 1) with
      | none => s
      | some v =>
        let s := s.grant { l with s1 := 0, s2 := if t = 1 then l.s2 + 1 else 0 } v
        if t = 1 then { s with stv1 := up s.stv1 } else { s with stv2 := up s.stv2 })

/-! ## Detours (R495) -/

/-- DETOUR_RELAY: this Husk forwards a detoured message to its destination, or returns it as bounced. -/
def execDetourRelay (m : Message) (s : State) : Host.Outcome State Fault Refusal :=
  let me := Config.pkg.toNat
  .next (
    if !s.husk.forwards || m.relay ≠ some me || m.bounced || m.dst = me || m.src = me then s
    else if s.linkUp me m.dst then { s with xbar := s.xbar ++ [(m.dst, m)] }
    else { s with xbar := s.xbar ++ [(m.src, { m with bounced := true })] })

/-- An outstanding request takes the path that its table gives now. -/
def State.reroute (s : State) (o : OutReq) : OutReq :=
  let via := s.relayTo o.dst
  { o with relay := via, vc := vcVia o.vc via }

/-- BOUNCED_MESSAGE_RETURN: the link between the relay and the destination counts as down here, and the message is sent again. -/
def execBouncedMessageReturn (m : Message) (s : State) : Host.Outcome State Fault Refusal :=
  match m.relay with
  | none => .next s
  | some r =>
    .next (
      if m.src ≠ Config.pkg.toNat || !m.bounced || 16 ≤ r || 16 ≤ m.dst then s
      else
        let t := s.husk.lstate
        let t := t.set r (setBit (t.get r) m.dst false)
        let t := t.set m.dst (setBit (t.get m.dst) r false)
        let s := { s with husk := { s.husk with lstate := t } }
        { s with outReq := s.outReq.map fun o => if o.dst = m.dst ∧ o.seq = m.seq then s.reroute o else o })

/-! ## Requests of peers (R292, R371, R487, R491, R493, R502) -/

/-- The physical address here of an offset in this package's window (R292). -/
def windowPa (a : Nat) : Nat :=
  let o := a % peerSize
  if o < 0x0400_0000_0000 then o else tierBase + (o - 0x0400_0000_0000)

/-- The bytes that a request names here, each run with whether it is read and written. -/
def partsOf (m : Message) : List (Nat × Nat × Bool × Bool) :=
  let a := windowPa m.pa
  match m.kind with
  | .load n => [(a, n, true, false)]
  | .store bs _ => [(a, bs.length, false, true)]
  | .atomic _ ty _ | .reduce _ ty _ => [(a, atomSize ty.toNat, true, true)]
  | .wrq parts q => (parts.map fun x => (windowPa x.1, x.2.length, false, true)) ++ [(windowPa q, 4, false, true)]
  | .probe n => [(a, n, false, true)]

/-- Whether every part of a request is memory that the access tables let its master reach. -/
def State.admits (s : State) (master : Nat) : List (Nat × Nat × Bool × Bool) → Bool × State
  | [] => (true, s)
  | (a, n, r, w) :: l =>
    if !((run a n).all fun pa => (areaOf pa).isMem) then (false, s)
    else
      match s.accOk targetL2 master a n r w with
      | (false, s) => (false, s)
      | (true, s) => s.admits master l

/-- The atomics of several threads of a peer on one location, one after the other (R355): the old values. -/
def State.serveAtomics (s : State) (a op ty : Nat) : List (Dword × Dword) → List Byte × State
  | [] => ([], s)
  | (b, c) :: l =>
    let n := atomSize ty
    let old := s.rdNat a n
    let (bs, s) := (s.writeOut a (toBytes n (atomNew op ty old b.toNat c.toNat))).serveAtomics a op ty l
    (toBytes n old ++ bs, s)

/-- A request of a peer is carried out; one that must read uncorrectable data changes nothing (R311). -/
def State.serve (s : State) (m : Message) : Answer × State :=
  let a := windowPa m.pa
  match m.kind with
  | .load n => (if s.poisoned (run a n) then .uncorrectable else .done (s.rdBytes a n), s)
  | .store bs mask =>
    let put := ((run a bs.length).zip (bs.zip mask)).filter fun x => x.2.2
    (.done [], s.writeHome noTeam (put.map fun x => x.1) (put.map fun x => x.2.1))
  | .atomic op ty ops =>
    if s.poisoned (run a (atomSize ty.toNat)) then (.uncorrectable, s)
    else
      let (bs, s) := s.serveAtomics a op.toNat ty.toNat ops
      (.done bs, s)
  | .reduce op ty b =>
    let n := atomSize ty.toNat
    if s.poisoned (run a n) then (.uncorrectable, s)
    else (.done [], s.writeOut a (toBytes n (atomNew op.toNat ty.toNat (s.rdNat a n) b.toNat 0)))
  | .wrq parts q =>
    let q := windowPa q
    if s.poisoned (run q 4) then (.uncorrectable, s)
    else
      let old := s.rdNat q 4
      (.done (toBytes 4 old), (parts.foldl (fun s x => s.writeOut (windowPa x.1) x.2) s).writeOut q (toBytes 4 (old + 1)))
  | .probe _ => (.done [], s)

/-- Whether the local port is open (R479, R481). -/
def State.portOpen (s : State) : Bool := s.husk.h == 0 && s.husk.c == 0

/-- The completed sequences of the last 1 ms (R493). -/
def State.doneLately (s : State) : List (Nat × Word × List Byte × Nat) :=
  s.e2eDone.filter fun d => decide (s.cycle ≤ d.2.2.2 + msCycles)

/-- The kept response to a sequence of a source, if the record holds it (R493). -/
def State.doneBefore (s : State) (src : Nat) (seq : Word) : Option (List Byte) :=
  (s.doneLately.find? fun d => d.1 == src && d.2.1 == seq).map fun d => d.2.2.1

/-- A request of a peer is answered; it waits no more. -/
def State.reply (s : State) (m : Message) (x : Answer) : State :=
  { s with replies := s.replies ++ [⟨m.src, m.seq, x⟩], accepted := s.accepted.filter fun y => !(y.src == m.src && y.seq == m.seq) }

/-- Whether the line of some byte that a request writes is locked (R363). -/
def State.lockedParts (s : State) (m : Message) : Bool :=
  (partsOf m).any fun p => p.2.2.2 && (run p.1 p.2.1).any fun pa => s.lockedLine (lineOf pa)

/-- MESSAGE_ARRIVAL: a request of a peer is answered TARGET_DOWN (R487), answered from the record or carried out once (R493), refused by
the access tables (R502), or accepted and kept while a line that it writes is locked (R363, R489). In H2 and H3 nothing is answered
(R479). A duplicate is answered from the record whether or not the port is open (log 8: DEDUCED). -/
def execMessageArrival (m : Message) (s : State) : Host.Outcome State Fault Refusal :=
  if m.dst ≠ Config.pkg.toNat ∨ !isPort m.src ∨ !s.husk.forwards then .next s
  else
    match s.doneBefore m.src m.seq with
    | some bs => .next (s.reply m (.done bs))
    | none =>
      if !s.portOpen then .next (s.reply m .targetDown)
      else if s.lockedParts m then .next (if s.accepted.contains m then s else { s with accepted := s.accepted ++ [m] })
      else
        match s.admits (80 + m.src) (partsOf m) with
        | (false, s) => .next (s.reply m .refused)
        | (true, s) =>
          let (x, s) := s.serve m
          let s := match m.kind, x with
            | .load _, _ | .probe _, _ => s
            | _, .done bs => { s with e2eDone := s.doneLately ++ [(m.src, m.seq, bs, s.cycle)] }
            | _, _ => s
          .next (s.reply m x).tickle

/-- The accepted requests whose lines are free again. -/
def State.dueRequests (s : State) : List Message := if s.portOpen then s.accepted.filter fun m => !s.lockedParts m else []

/-! ## Answers (R320, R350, R479, R488, R493) -/

/-- ORPH counts a dropped response (R488, R510). -/
def State.orphan (s : State) : State := { s with orph := if s.orph = -1 then s.orph else s.orph + 1 }

/-- The bytes of a peer's line fill the stash line of a team that has not been filled (R305): but for its dirty bytes, and those that a
remote combining buffer holds for the team (R320). -/
def State.fillPeer (s : State) (tid : TeamId) (line : Nat) (data : List Byte) : State :=
  match (s.findTeam tid).bind fun t => (t.lineAt line).map fun l => (t, l) with
  | none => s
  | some (t, l) =>
    if l.filled then s
    else
      let home := (List.range 128).foldl (fun (x : BitVec 1024) i =>
        match t.cores.findSome? fun c => s.remoteByte c tid (line + i) with
        | some b => setLineByte x i b
        | none => x) (BitVec.ofNat 1024 (ofBytes data))
      s.onTeam tid fun t => t.setLine { l with
        filled := true, bytes := (maskBytes l.dirty).foldl (fun x i => setLineByte x i (lineByte l.bytes i)) home }

/-- An outstanding result takes the bytes that one of its requests brings. -/
def Pend.take (x : Pend) (peer : Nat) (seq : Word) (data : List Byte) (uncorr : Bool) : Pend :=
  match x.reqs.find? fun r => r.1 == peer && r.2.1 == seq with
  | none => x
  | some r =>
    let v := r.2.2.foldl (fun (v : BitVec 256) p =>
      v ||| BitVec.ofNat 256 ((data.getD p.1 0).toNat * 2 ^ (8 * p.2))) x.value
    { x with value := v, reqs := x.reqs.erase r, uncorr := x.uncorr || uncorr }

/-- Whether an outstanding result waits for a request. -/
def Pend.asks (x : Pend) (peer : Nat) (seq : Word) : Bool := x.reqs.any fun r => r.1 == peer && r.2.1 == seq

/-- The outstanding results of a pod that wait for a request are refused, the last first. -/
def State.refuseAll (s : State) (p : PodId) (peer : Nat) (seq : Word) : State :=
  match s.findPod p with
  | none => s
  | some q => (((List.range q.pend.length).zip q.pend).filter fun x => x.2.asks peer seq).foldr (fun x s => s.refusePend p x.1 x.2) s

/-- The answer to a request of a pod: data of outstanding results, or a piece of code. -/
def State.answerPod (s : State) (p : PodId) (o : OutReq) (refused : Bool) (data : List Byte) (uncorr : Bool) : State :=
  match s.findPod p with
  | none => s
  | some q =>
    let full := decide (o.kind = .load 128) && !refused && !uncorr && decide (data.length = 128)
    let s := if full then s.fillPeer p.team o.pa data else s
    if q.pend.any fun x => x.asks o.dst o.seq then
      if refused then s.refuseAll p o.dst o.seq
      else (s.onPod p fun q => { q with pend := q.pend.map fun x => x.take o.dst o.seq data uncorr }).tickle
    else if o.kind ≠ .load 4 then s
    else if refused then s.raiseIn p .remoteFault
    else if uncorr then s.raiseIn p .memUncorrectable
    else
      match s.findTeam p.team with
      | none => s
      | some t => (s.fillCode (t.coreOf p) t.asn (fetchLineOf q.pc) [(o.pa, BitVec.ofNat 32 (ofBytes data))]).tickle

/-- The answer to a write or a reduction of a team that no instruction waits for (R320, R493). -/
def State.answerTeam (s : State) (t : TeamId) (o : OutReq) (refused : Bool) : State :=
  match o.kind with
  | .reduce .. =>
    if refused then
      (s.note (.lostWrite o.dst (o.pa % peerSize) 0)).onTeam t fun x => { x with lost := true }
    else s
  | _ =>
    if refused then s.loseRemote t o.pa
    else if s.outReq.any fun x => x.team == some t && x.pa == o.pa && (match x.kind with
      | .store .. => true
      | _ => false) then s
    else ({ s with rcbuf := s.rcbuf.filter fun r => !(r.team == t && r.line == o.pa) } : State).tickle

/-- The answer to a request of an engine; a snapshot of routing counters completes with its last one (R515). -/
def State.answerOps (s : State) (o : OutReq) (refused : Bool) (data : List Byte) : State :=
  let put := fun (a : Ask) => if a.peer = o.dst ∧ a.seq = o.seq then { a with answer := some (refused, data) } else a
  let hit := fun (x : Op) => x.asks.any fun a => a.peer == o.dst && a.seq == o.seq
  let toks := (s.ops.filter hit).map (·.token)
  let s := ({ s with ops := s.ops.map fun x => if hit x then { x with asks := x.asks.map put } else x } : State).tickle
  toks.foldl (fun s n =>
    match s.opTok n with
    | none => s
    | some x =>
      match x.kind with
      | .rcsnap addr _ => if !x.answered then s else if x.refused then s.failOp x .remoteFault 0 addr else s.completeOp x
      | _ => s) s

/-- The lines of a peer that a request writes. -/
def OutReq.wrote (o : OutReq) : List Nat :=
  match o.kind with
  | .load _ | .probe _ => []
  | .store bs _ => ((run o.pa bs.length).map lineOf).eraseDups
  | .atomic .. | .reduce .. => [lineOf o.pa]
  | .wrq parts q => (((parts.flatMap fun x => run x.1 x.2.length) ++ [q]).map lineOf).eraseDups

/-- A request is answered, or has failed; it is outstanding no more. What it has written at the peer drops the clean copies here (R317);
the team whose buffer sent it keeps its own. -/
def State.settleRequest (s : State) (o : OutReq) (refused : Bool) (data : List Byte) (uncorr : Bool := false) : State :=
  let s := { s with outReq := s.outReq.erase o }
  let s := if refused || uncorr then s else o.wrote.foldl (fun s line => s.peerWritten o.team line) s
  match o.pod, o.team with
  | some p, _ => (s.answerPod p o refused data uncorr).tickle
  | none, some t => (s.answerTeam t o (refused || uncorr)).tickle
  | none, none => s.answerOps o (refused || uncorr) data

/-- RESPONSE_ARRIVAL: one for a request of an earlier DGEN, or whose resends have ended, is dropped and counted in ORPH (R488). -/
def execResponseArrival (r : Response) (s : State) : Host.Outcome State Fault Refusal :=
  .next (
    match s.outReq.find? fun o => o.dst == r.src && o.seq == r.seq with
    | none => if s.spent.contains (r.src, r.seq) then s.orphan else s
    | some o =>
      if o.dgen ≠ s.husk.dgen ∨ r.dgen ≠ s.husk.dgen then ({ s with outReq := s.outReq.erase o } : State).orphan
      else s.settleRequest o r.refused r.data r.uncorr)

/-- E2E_RESEND_TIMEOUT: three times the request is sent again on the path that then applies; then it has failed. -/
def execE2eResendTimeout (dst : Nat) (seq : Word) (s : State) : Host.Outcome State Fault Refusal :=
  .next (
    match s.outReq.find? fun o => o.dst == dst && o.seq == seq with
    | none => s
    | some o =>
      if o.resent < 3 then
        { s with outReq := s.outReq.map fun x => if x = o then s.reroute { x with resent := x.resent + 1 } else x }
      else ({ s with spent := s.spent ++ [(dst, seq)] } : State).settleRequest o true [])

/-- While the local port is closed as in H1, requests of the die fail at once (R479, R481). -/
def State.failOutbound (s : State) : State :=
  if s.husk.h == 1 || s.husk.c == 1 then s.outReq.foldl (fun s o => s.settleRequest o true []) s else s

/-! ## Ultra Ethernet (R311, R498, R500, R502) -/

/-- UE_PACKET_RECEIVE: an RMA read or write of a flow group, checked by the access tables; a packet with a bad CRC is discarded. -/
def execUePacketReceive (u : UePacket) (s : State) : Host.Outcome State Fault Refusal :=
  if !s.portOpen || !s.husk.ueUp then .next s
  else if !u.crcOk then .next (s.note .crcDiscard)
  else
    let n := (u.write.map List.length).getD u.len
    if (run u.pa n).any fun pa => u.write.isSome && s.lockedLine (lineOf pa) then .next s
    else
      match s.admits (96 + u.flow.toNat) [(u.pa, n, u.write.isNone, u.write.isSome)], u.write with
      | (true, s), some bs => .next (s.writeOut u.pa bs).tickle
      | (_, s), _ => .next s

end Sys2Proof.Machine
end

