-- ==== Sys2Proof/Machine/Dispatch.lean ====
section
/-! DEFINITION. One arm for each constructor of `Instr`: a direct call of its meaning. -/
namespace Sys2Proof.Machine

def exec (i : Instr) (s : State) : Host.Outcome State Fault Refusal :=
  match i with
  | .nop h f => Sys2Proof.Machine.execNop h f s
  | .bra h f => Sys2Proof.Machine.execBra h f s
  | .brx h f => Sys2Proof.Machine.execBrx h f s
  | .call h f => Sys2Proof.Machine.execCall h f s
  | .callx h f => Sys2Proof.Machine.execCallx h f s
  | .ret h f => Sys2Proof.Machine.execRet h f s
  | .exitT h f => Sys2Proof.Machine.execExitT h f s
  | .loop h f => Sys2Proof.Machine.execLoop h f s
  | .loopc h f => Sys2Proof.Machine.execLoopc h f s
  | .leave h f => Sys2Proof.Machine.execLeave h f s
  | .phase h f => Sys2Proof.Machine.execPhase h f s
  | .sync h f => Sys2Proof.Machine.execSync h f s
  | .waitf h f => Sys2Proof.Machine.execWaitf h f s
  | .yield h f => Sys2Proof.Machine.execYield h f s
  | .sleep h f => Sys2Proof.Machine.execSleep h f s
  | .holdt h f => Sys2Proof.Machine.execHoldt h f s
  | .trap h f => Sys2Proof.Machine.execTrap h f s
  | .brk h f => Sys2Proof.Machine.execBrk h f s
  | .rtt h f => Sys2Proof.Machine.execRtt h f s
  | .clrc h f => Sys2Proof.Machine.execClrc h f s
  | .setc h f => Sys2Proof.Machine.execSetc h f s
  | .rdsr h f => Sys2Proof.Machine.execRdsr h f s
  | .wrsr h f => Sys2Proof.Machine.execWrsr h f s
  | .launch h f => Sys2Proof.Machine.execLaunch h f s
  | .waitch h f => Sys2Proof.Machine.execWaitch h f s
  | .fetchw h f => Sys2Proof.Machine.execFetchw h f s
  | .time h f => Sys2Proof.Machine.execTime h f s
  | .icinv h f => Sys2Proof.Machine.execIcinv h f s
  | .prio h f => Sys2Proof.Machine.execPrio h f s
  | .halt h f => Sys2Proof.Machine.execHalt h f s
  | .resume h f => Sys2Proof.Machine.execResume h f s
  | .abortp h f => Sys2Proof.Machine.execAbortp h f s
  | .acorn h f => Sys2Proof.Machine.execAcorn h f s
  | .iadd h f => Sys2Proof.Machine.execIadd h f s
  | .isub h f => Sys2Proof.Machine.execIsub h f s
  | .iaddc h f => Sys2Proof.Machine.execIaddc h f s
  | .isubb h f => Sys2Proof.Machine.execIsubb h f s
  | .imul h f => Sys2Proof.Machine.execImul h f s
  | .imulh h f => Sys2Proof.Machine.execImulh h f s
  | .imad h f => Sys2Proof.Machine.execImad h f s
  | .idiv h f => Sys2Proof.Machine.execIdiv h f s
  | .irem h f => Sys2Proof.Machine.execIrem h f s
  | .ineg h f => Sys2Proof.Machine.execIneg h f s
  | .iabs h f => Sys2Proof.Machine.execIabs h f s
  | .imin h f => Sys2Proof.Machine.execImin h f s
  | .imax h f => Sys2Proof.Machine.execImax h f s
  | .iclamp h f => Sys2Proof.Machine.execIclamp h f s
  | .isad h f => Sys2Proof.Machine.execIsad h f s
  | .shl h f => Sys2Proof.Machine.execShl h f s
  | .shr h f => Sys2Proof.Machine.execShr h f s
  | .shra h f => Sys2Proof.Machine.execShra h f s
  | .rotl h f => Sys2Proof.Machine.execRotl h f s
  | .shfd h f => Sys2Proof.Machine.execShfd h f s
  | .andB h f => Sys2Proof.Machine.execAndB h f s
  | .orB h f => Sys2Proof.Machine.execOrB h f s
  | .xorB h f => Sys2Proof.Machine.execXorB h f s
  | .andn h f => Sys2Proof.Machine.execAndn h f s
  | .notB h f => Sys2Proof.Machine.execNotB h f s
  | .lop3 h f => Sys2Proof.Machine.execLop3 h f s
  | .bfe h f => Sys2Proof.Machine.execBfe h f s
  | .bfi h f => Sys2Proof.Machine.execBfi h f s
  | .brev h f => Sys2Proof.Machine.execBrev h f s
  | .popc h f => Sys2Proof.Machine.execPopc h f s
  | .clz h f => Sys2Proof.Machine.execClz h f s
  | .ctz h f => Sys2Proof.Machine.execCtz h f s
  | .bytep h f => Sys2Proof.Machine.execBytep h f s
  | .isetp h f => Sys2Proof.Machine.execIsetp h f s
  | .isel h f => Sys2Proof.Machine.execIsel h f s
  | .plop h f => Sys2Proof.Machine.execPlop h f s
  | .ptov h f => Sys2Proof.Machine.execPtov h f s
  | .vtop h f => Sys2Proof.Machine.execVtop h f s
  | .mov h f => Sys2Proof.Machine.execMov h f s
  | .movi h f => Sys2Proof.Machine.execMovi h f s
  | .kget h f => Sys2Proof.Machine.execKget h f s
  | .lea h f => Sys2Proof.Machine.execLea h f s
  | .tagOp h f => Sys2Proof.Machine.execTagOp h f s
  | .fadd h f => Sys2Proof.Machine.execFadd h f s
  | .fsub h f => Sys2Proof.Machine.execFsub h f s
  | .fmul h f => Sys2Proof.Machine.execFmul h f s
  | .ffma h f => Sys2Proof.Machine.execFfma h f s
  | .fmin h f => Sys2Proof.Machine.execFmin h f s
  | .fmax h f => Sys2Proof.Machine.execFmax h f s
  | .fminn h f => Sys2Proof.Machine.execFminn h f s
  | .fmaxn h f => Sys2Proof.Machine.execFmaxn h f s
  | .fabs h f => Sys2Proof.Machine.execFabs h f s
  | .fneg h f => Sys2Proof.Machine.execFneg h f s
  | .fsgn h f => Sys2Proof.Machine.execFsgn h f s
  | .fsetp h f => Sys2Proof.Machine.execFsetp h f s
  | .fclass h f => Sys2Proof.Machine.execFclass h f s
  | .frcp h f => Sys2Proof.Machine.execFrcp h f s
  | .frsq h f => Sys2Proof.Machine.execFrsq h f s
  | .fsqrt h f => Sys2Proof.Machine.execFsqrt h f s
  | .fdiv h f => Sys2Proof.Machine.execFdiv h f s
  | .fexp2 h f => Sys2Proof.Machine.execFexp2 h f s
  | .flog2 h f => Sys2Proof.Machine.execFlog2 h f s
  | .fsin h f => Sys2Proof.Machine.execFsin h f s
  | .fcos h f => Sys2Proof.Machine.execFcos h f s
  | .ftanh h f => Sys2Proof.Machine.execFtanh h f s
  | .frnd h f => Sys2Proof.Machine.execFrnd h f s
  | .ffrc h f => Sys2Proof.Machine.execFfrc h f s
  | .fscale h f => Sys2Proof.Machine.execFscale h f s
  | .fgetx h f => Sys2Proof.Machine.execFgetx h f s
  | .hadd2 h f => Sys2Proof.Machine.execHadd2 h f s
  | .hmul2 h f => Sys2Proof.Machine.execHmul2 h f s
  | .hfma2 h f => Sys2Proof.Machine.execHfma2 h f s
  | .hmin2 h f => Sys2Proof.Machine.execHmin2 h f s
  | .hmax2 h f => Sys2Proof.Machine.execHmax2 h f s
  | .cvt h f => Sys2Proof.Machine.execCvt h f s
  | .cvti h f => Sys2Proof.Machine.execCvti h f s
  | .cvtf h f => Sys2Proof.Machine.execCvtf h f s
  | .pack h f => Sys2Proof.Machine.execPack h f s
  | .unpk h f => Sys2Proof.Machine.execUnpk h f s
  | .pk6 h f => Sys2Proof.Machine.execPk6 h f s
  | .upk6 h f => Sys2Proof.Machine.execUpk6 h f s
  | .dot2 h f => Sys2Proof.Machine.execDot2 h f s
  | .dot4 h f => Sys2Proof.Machine.execDot4 h f s
  | .dot8 h f => Sys2Proof.Machine.execDot8 h f s
  | .dott h f => Sys2Proof.Machine.execDott h f s
  | .rdfl h f => Sys2Proof.Machine.execRdfl h f s
  | .clfl h f => Sys2Proof.Machine.execClfl h f s
  | .shfl h f => Sys2Proof.Machine.execShfl h f s
  | .perm h f => Sys2Proof.Machine.execPerm h f s
  | .votea h f => Sys2Proof.Machine.execVotea h f s
  | .voten h f => Sys2Proof.Machine.execVoten h f s
  | .ballot h f => Sys2Proof.Machine.execBallot h f s
  | .matchOp h f => Sys2Proof.Machine.execMatchOp h f s
  | .elect h f => Sys2Proof.Machine.execElect h f s
  | .part h f => Sys2Proof.Machine.execPart h f s
  | .gmask h f => Sys2Proof.Machine.execGmask h f s
  | .amask h f => Sys2Proof.Machine.execAmask h f s
  | .gred h f => Sys2Proof.Machine.execGred h f s
  | .gscan h f => Sys2Proof.Machine.execGscan h f s
  | .gbcast h f => Sys2Proof.Machine.execGbcast h f s
  | .gsort h f => Sys2Proof.Machine.execGsort h f s
  | .tred h f => Sys2Proof.Machine.execTred h f s
  | .tscan h f => Sys2Proof.Machine.execTscan h f s
  | .ld h f => Sys2Proof.Machine.execLd h f s
  | .st h f => Sys2Proof.Machine.execSt h f s
  | .lds h f => Sys2Proof.Machine.execLds h f s
  | .sts h f => Sys2Proof.Machine.execSts h f s
  | .ldc h f => Sys2Proof.Machine.execLdc h f s
  | .prf h f => Sys2Proof.Machine.execPrf h f s
  | .atom h f => Sys2Proof.Machine.execAtom h f s
  | .red h f => Sys2Proof.Machine.execRed h f s
  | .atoms h f => Sys2Proof.Machine.execAtoms h f s
  | .reds h f => Sys2Proof.Machine.execReds h f s
  | .txb h f => Sys2Proof.Machine.execTxb h f s
  | .txe h f => Sys2Proof.Machine.execTxe h f s
  | .txa h f => Sys2Proof.Machine.execTxa h f s
  | .txst h f => Sys2Proof.Machine.execTxst h f s
  | .fence h f => Sys2Proof.Machine.execFence h f s
  | .ofence h f => Sys2Proof.Machine.execOfence h f s
  | .cpy h f => Sys2Proof.Machine.execCpy h f s
  | .tagwa h f => Sys2Proof.Machine.execTagwa h f s
  | .tagwn h f => Sys2Proof.Machine.execTagwn h f s
  | .tagff h f => Sys2Proof.Machine.execTagff h f s
  | .wrq h f => Sys2Proof.Machine.execWrq h f s
  | .smap h f => Sys2Proof.Machine.execSmap h f s
  | .sdrop h f => Sys2Proof.Machine.execSdrop h f s
  | .spub h f => Sys2Proof.Machine.execSpub h f s
  | .cctl h f => Sys2Proof.Machine.execCctl h f s
  | .tiercp h f => Sys2Proof.Machine.execTiercp h f s
  | .qbind h f => Sys2Proof.Machine.execQbind h f s
  | .qfree h f => Sys2Proof.Machine.execQfree h f s
  | .qpush h f => Sys2Proof.Machine.execQpush h f s
  | .qpop h f => Sys2Proof.Machine.execQpop h f s
  | .qpeek h f => Sys2Proof.Machine.execQpeek h f s
  | .qstat h f => Sys2Proof.Machine.execQstat h f s
  | .qres h f => Sys2Proof.Machine.execQres h f s
  | .qpub h f => Sys2Proof.Machine.execQpub h f s
  | .qwait h f => Sys2Proof.Machine.execQwait h f s
  | .ldq h f => Sys2Proof.Machine.execLdq h f s
  | .stq h f => Sys2Proof.Machine.execStq h f s
  | .rrdq h f => Sys2Proof.Machine.execRrdq h f s
  | .subs h f => Sys2Proof.Machine.execSubs h f s
  | .drainq h f => Sys2Proof.Machine.execDrainq h f s
  | .lcbr h f => Sys2Proof.Machine.execLcbr h f s
  | .qflush h f => Sys2Proof.Machine.execQflush h f s
  | .mma h f => Sys2Proof.Machine.execMma h f s
  | .mmat h f => Sys2Proof.Machine.execMmat h f s
  | .mmas h f => Sys2Proof.Machine.execMmas h f s
  | .tdef h f => Sys2Proof.Machine.execTdef h f s
  | .tdrop h f => Sys2Proof.Machine.execTdrop h f s
  | .mvs h f => Sys2Proof.Machine.execMvs h f s
  | .svs h f => Sys2Proof.Machine.execSvs h f s
  | .coll h f => Sys2Proof.Machine.execColl h f s
  | .gbar h f => Sys2Proof.Machine.execGbar h f s
  | .hwait h f => Sys2Proof.Machine.execHwait h f s
  | .htest h f => Sys2Proof.Machine.execHtest h f s
  | .hcan h f => Sys2Proof.Machine.execHcan h f s
  | .hpass h f => Sys2Proof.Machine.execHpass h f s
  | .htake h f => Sys2Proof.Machine.execHtake h f s
  | .cntsel h f => Sys2Proof.Machine.execCntsel h f s
  | .cntrd h f => Sys2Proof.Machine.execCntrd h f s
  | .cntsnap h f => Sys2Proof.Machine.execCntsnap h f s
  | .rcinc h f => Sys2Proof.Machine.execRcinc h f s
  | .rcsnap h f => Sys2Proof.Machine.execRcsnap h f s
  | .wpset h f => Sys2Proof.Machine.execWpset h f s
  | .bpset h f => Sys2Proof.Machine.execBpset h f s
  | .dmbox h f => Sys2Proof.Machine.execDmbox h f s
  | .dstep h f => Sys2Proof.Machine.execDstep h f s
  | .unassignedOpcode w => Sys2Proof.Machine.execUnassignedOpcode w s
  | .trapEntry p => Sys2Proof.Machine.execTrapEntry p s
  | .classTResultWrite p n => Sys2Proof.Machine.execClassTResultWrite p n s
  | .loadDataReturn p n => Sys2Proof.Machine.execLoadDataReturn p n s
  | .ldqSlotFill p n => Sys2Proof.Machine.execLdqSlotFill p n s
  | .copyPiece h => Sys2Proof.Machine.execCopyPiece h s
  | .copyComplete h => Sys2Proof.Machine.execCopyComplete h s
  | .tiercpPage h => Sys2Proof.Machine.execTiercpPage h s
  | .matrixOpFire h => Sys2Proof.Machine.execMatrixOpFire h s
  | .matrixGroup h => Sys2Proof.Machine.execMatrixGroup h s
  | .matrixOpComplete h => Sys2Proof.Machine.execMatrixOpComplete h s
  | .mvsFire h => Sys2Proof.Machine.execMvsFire h s
  | .stackEngineOutputRun h => Sys2Proof.Machine.execStackEngineOutputRun h s
  | .subsTilePush h => Sys2Proof.Machine.execSubsTilePush h s
  | .drainqElementWrite h => Sys2Proof.Machine.execDrainqElementWrite h s
  | .rrdqElementArrival h data => Sys2Proof.Machine.execRrdqElementArrival h data s
  | .collInstanceComplete n => Sys2Proof.Machine.execCollInstanceComplete n s
  | .gbarComplete n => Sys2Proof.Machine.execGbarComplete n s
  | .tredInstanceDelivery t sl => Sys2Proof.Machine.execTredInstanceDelivery t sl s
  | .handleWaitPark p => Sys2Proof.Machine.execHandleWaitPark p s
  | .waitfTimeout p => Sys2Proof.Machine.execWaitfTimeout p s
  | .sleepExpiry p => Sys2Proof.Machine.execSleepExpiry p s
  | .holdtTimeReached p => Sys2Proof.Machine.execHoldtTimeReached p s
  | .loopCountPoll p => Sys2Proof.Machine.execLoopCountPoll p s
  | .podSwap p => Sys2Proof.Machine.execPodSwap p s
  | .podPromotion p => Sys2Proof.Machine.execPodPromotion p s
  | .spinDemotionEnd p => Sys2Proof.Machine.execSpinDemotionEnd p s
  | .queueDeadlock t => Sys2Proof.Machine.execQueueDeadlock t s
  | .podExit p => Sys2Proof.Machine.execPodExit p s
  | .phaseEnd t => Sys2Proof.Machine.execPhaseEnd t s
  | .placementTimeout t => Sys2Proof.Machine.execPlacementTimeout t s
  | .shadowComparison t => Sys2Proof.Machine.execShadowComparison t s
  | .teamExit t => Sys2Proof.Machine.execTeamExit t s
  | .gridRetirement grid => Sys2Proof.Machine.execGridRetirement grid s
  | .packetTake q => Sys2Proof.Machine.execPacketTake q s
  | .teamPlacement t core => Sys2Proof.Machine.execTeamPlacement t core s
  | .startTimeReached t => Sys2Proof.Machine.execStartTimeReached t s
  | .fetchwMailboxFill t => Sys2Proof.Machine.execFetchwMailboxFill t s
  | .savePreemption t => Sys2Proof.Machine.execSavePreemption t s
  | .contextRecordWrite t => Sys2Proof.Machine.execContextRecordWrite t s
  | .phaseAbort t => Sys2Proof.Machine.execPhaseAbort t s
  | .clusterTokenPass c => Sys2Proof.Machine.execClusterTokenPass c s
  | .escalationNotify => Sys2Proof.Machine.execEscalationNotify s
  | .peerRefusalArrival p n => Sys2Proof.Machine.execPeerRefusalArrival p n s
  | .peerAcknowledgement core line => Sys2Proof.Machine.execPeerAcknowledgement core line s
  | .mcIssueHold cycles => Sys2Proof.Machine.execMcIssueHold cycles s
  | .queueMappingQuantum => Sys2Proof.Machine.execQueueMappingQuantum s
  | .contextRestore addr core => Sys2Proof.Machine.execContextRestore addr core s
  | .pageWalk root asn va => Sys2Proof.Machine.execPageWalk root asn va s
  | .l2Eviction line => Sys2Proof.Machine.execL2Eviction line s
  | .memoryScrub scrub => Sys2Proof.Machine.execMemoryScrub scrub s
  | .dieTokenPass => Sys2Proof.Machine.execDieTokenPass s
  | .wqEnable => Sys2Proof.Machine.execWqEnable s
  | .wqDisable => Sys2Proof.Machine.execWqDisable s
  | .saveTeam => Sys2Proof.Machine.execSaveTeam s
  | .abortTeam => Sys2Proof.Machine.execAbortTeam s
  | .resumeContext => Sys2Proof.Machine.execResumeContext s
  | .discardContext => Sys2Proof.Machine.execDiscardContext s
  | .wqcmdReserved op => Sys2Proof.Machine.execWqcmdReserved op s
  | .doorbellWrite q tail => Sys2Proof.Machine.execDoorbellWrite q tail s
  | .acornstTermClear => Sys2Proof.Machine.execAcornstTermClear s
  | .xlinvPage asn va => Sys2Proof.Machine.execXlinvPage asn va s
  | .xlinvAsn asn => Sys2Proof.Machine.execXlinvAsn asn s
  | .xlinvAll => Sys2Proof.Machine.execXlinvAll s
  | .xlinvReserved => Sys2Proof.Machine.execXlinvReserved s
  | .xlinvComplete => Sys2Proof.Machine.execXlinvComplete s
  | .capmWrite mc core dword value => Sys2Proof.Machine.execCapmWrite mc core dword value s
  | .accessTableWrite target index region => Sys2Proof.Machine.execAccessTableWrite target index region s
  | .accessTableUpdateDone => Sys2Proof.Machine.execAccessTableUpdateDone s
  | .esctailWrite tail => Sys2Proof.Machine.execEsctailWrite tail s
  | .dbgoutPop => Sys2Proof.Machine.execDbgoutPop s
  | .mcMailboxRequest part cstate => Sys2Proof.Machine.execMcMailboxRequest part cstate s
  | .registerWrite master addr size value => Sys2Proof.Machine.execRegisterWrite master addr size value s
  | .huskToH1 => Sys2Proof.Machine.execHuskToH1 s
  | .huskToH0 => Sys2Proof.Machine.execHuskToH0 s
  | .huskH0ToH1 => Sys2Proof.Machine.execHuskH0ToH1 s
  | .huskToH2 => Sys2Proof.Machine.execHuskToH2 s
  | .huskToH3 => Sys2Proof.Machine.execHuskToH3 s
  | .huskReset => Sys2Proof.Machine.execHuskReset s
  | .huskPowerApplied => Sys2Proof.Machine.execHuskPowerApplied s
  | .huskPowerLost => Sys2Proof.Machine.execHuskPowerLost s
  | .packageReset => Sys2Proof.Machine.execPackageReset s
  | .firmwareVerify image pubkey => Sys2Proof.Machine.execFirmwareVerify image pubkey s
  | .attestationRequest nonce => Sys2Proof.Machine.execAttestationRequest nonce s
  | .diePowerOn => Sys2Proof.Machine.execDiePowerOn s
  | .computeDieReset => Sys2Proof.Machine.execComputeDieReset s
  | .dieResetRelease => Sys2Proof.Machine.execDieResetRelease s
  | .diePowerOff => Sys2Proof.Machine.execDiePowerOff s
  | .agentHeartbeat c => Sys2Proof.Machine.execAgentHeartbeat c s
  | .watchdogExpiry => Sys2Proof.Machine.execWatchdogExpiry s
  | .dieHoldExpiry => Sys2Proof.Machine.execDieHoldExpiry s
  | .winnowEnqueue core q packet => Sys2Proof.Machine.execWinnowEnqueue core q packet s
  | .winnowPlacementTimeout core grid => Sys2Proof.Machine.execWinnowPlacementTimeout core grid s
  | .winnowResultProcess core failing => Sys2Proof.Machine.execWinnowResultProcess core failing s
  | .timeBaseSync reference => Sys2Proof.Machine.execTimeBaseSync reference s
  | .flitReceive port flit => Sys2Proof.Machine.execFlitReceive port flit s
  | .starvationGrant port tier => Sys2Proof.Machine.execStarvationGrant port tier s
  | .linkRetryLimit port => Sys2Proof.Machine.execLinkRetryLimit port s
  | .linkNoProgressTimeout port => Sys2Proof.Machine.execLinkNoProgressTimeout port s
  | .linkTrainingComplete port => Sys2Proof.Machine.execLinkTrainingComplete port s
  | .lstateBroadcastReceive src row => Sys2Proof.Machine.execLstateBroadcastReceive src row s
  | .uePortsUp => Sys2Proof.Machine.execUePortsUp s
  | .messageArrival m => Sys2Proof.Machine.execMessageArrival m s
  | .detourRelay m => Sys2Proof.Machine.execDetourRelay m s
  | .bouncedMessageReturn m => Sys2Proof.Machine.execBouncedMessageReturn m s
  | .responseArrival r => Sys2Proof.Machine.execResponseArrival r s
  | .e2eResendTimeout dst seq => Sys2Proof.Machine.execE2eResendTimeout dst seq s
  | .uePacketReceive u => Sys2Proof.Machine.execUePacketReceive u s
  | .writeReachesHome pa bytes => Sys2Proof.Machine.execWriteReachesHome pa bytes s
  | .hostComplexAccess part pa wr => Sys2Proof.Machine.execHostComplexAccess part pa wr s
  | .flitSlotGrant port ready => Sys2Proof.Machine.execFlitSlotGrant port ready s
  | .counterMmioClear addr => Sys2Proof.Machine.execCounterMmioClear addr s

end Sys2Proof.Machine
end

