-- ==== Sys2Proof/Machine/Schedule.lean ====
section
/-! DEFINITION. Which agent moves next: an event of the outside, a pod that a scheduler selects, or an agent of the package
whose work is due (log 6, log 7). -/
namespace Sys2Proof.Machine

/-- The event of an operation in flight that can come next. -/
def State.dueOfOp (s : State) (o : Op) : List Instr :=
  if o.state ≠ .running then []
  else
    match o.kind, s.findTeam o.pod.team with
    | .cpy _ _ _ _ parts, _ => if !parts.any CopyPart.open_ then [.copyComplete o.token] else if o.answered then [.copyPiece o.token] else []
    | .tiercp .., _ => if o.answered then [.tiercpPage o.token] else []
    | .matrix m, some t =>
      if decide (8 ≤ o.progress) then [.matrixOpComplete o.token]
      else if m.fired then (if o.answered then [.matrixGroup o.token] else [])
      else if s.canFire o m t t.kernel.width then [.matrixOpFire o.token]
      else []
    | .mvs _ d i _ _ false _ _, some t =>
      if (t.ring i).elim false fun x => decide (xUnits x (dPitch d) ≤ x.occ) then [.mvsFire o.token] else []
    | .mvs .., some _ | .svs .., some _ => [.stackEngineOutputRun o.token]
    | .subs r _ _ bytes _, some t =>
      if (t.ring r).elim false fun x => o.answered && (x.prd == x.pub || bytes == 0) && decide (bytes / x.esize ≤ x.room) then
        [.subsTilePush o.token]
      else []
    | .rrdq r _ _ none, some t =>
      if o.answered && (t.ring r).elim false Ring.nextFits then [.rrdqElementArrival o.token none] else []
    | .drainq r .., some t => if (t.ring r).elim false fun x => x.occ != 0 then [.drainqElementWrite o.token] else []
    | _, _ => []

/-- The event of a collective whose participants have all arrived. -/
def State.dueOfColl (s : State) (c : Collective) : List Instr :=
  if c.gbar then (if s.gbarFull c then [.gbarComplete c.id] else [])
  else if (s.collOrder c).isSome then [.collInstanceComplete c.id] else []

/-- The events of a running die that are due. -/
def State.dueOfDie (s : State) : List Instr :=
  s.allPods.flatMap (fun p => s.dueOfPod p ++ if p.exitReady then [.podExit p.id] else []) ++
  s.allTeams.flatMap (fun t => s.dueOfTeam t ++ s.dueOfSave t ++
    (if (s.collReady t.id .execute).isSome then [.tredInstanceDelivery t.id .execute] else []) ++
    (if (s.collReady t.id .access).isSome then [.tredInstanceDelivery t.id .access] else [])) ++
  s.ops.flatMap s.dueOfOp ++ s.colls.flatMap s.dueOfColl ++ s.dueOfDispatch ++
  (if s.nextEsc.isSome then [.escalationNotify] else []) ++ (if s.xlbusy then [.xlinvComplete] else []) ++
  (if s.silent then [.watchdogExpiry] else [])

/-- Events of the package's own agents that are due. -/
def State.due (s : State) : List Instr :=
  (if s.husk.c = 0 then s.dueOfDie else if s.holdOver then [.dieHoldExpiry] else []) ++
  (if s.accBusy then [.accessTableUpdateDone] else [])

/-- One move of the package: a pod issues, an agent's event happens, a core takes the first item that goes there, a context returns
to a core, a distributor agent reports, or an accepted request of a peer goes on. -/
inductive Move
  | pod (p : PodId)
  | event (i : Instr)
  | place (t : TeamId) (core : Nat)
  | restore (rec core : Nat)
  | beat (c : Nat)
  | request (m : Message)
deriving DecidableEq, Repr

/-- The placements and restores that are due. -/
def State.placeMoves (s : State) : List Move :=
  if s.husk.c ≠ 0 then []
  else
    s.placements.filterMap fun x =>
      if x.2.kind = .context then ((s.findTeam x.2.team).bind Team.recordOf).map fun r => .restore r x.1
      else some (.place x.2.team x.1)

/-- The agents whose heartbeat is due (R482). -/
def State.beats (s : State) : List Move :=
  if s.husk.c ≠ 0 then []
  else ((List.range 64).filter fun c => decide ((s.husk.beat.get c).toNat + beatCycles ≤ s.cycle)).map .beat

/-- Every move that can come next. -/
def State.moves (s : State) : List Move := s.selected.map .pod ++ s.due.map .event ++ s.placeMoves ++ s.beats ++
  s.dueRequests.map .request

/-- Whether a move that can come next has a bound that draws near: the issue of a pod that its scheduler has selected since 256 cycles, a
promotion, the end of a demotion, a heartbeat (R55, R59, R482). -/
def State.pressing (s : State) : Move → Bool
  | .pod p => (s.findPod p).any fun q => decide (q.sched.since + 256 ≤ s.cycle)
  | .event (.podPromotion _) | .event (.spinDemotionEnd _) | .beat _ => true
  | _ => false

/-- Which of several moves comes next is open, but that pressing ones come before the others (R59; log 7). -/
def State.pick (s : State) : Option Move × State :=
  let ms := s.moves
  let now := ms.filter s.pressing
  match (if now.isEmpty then ms else now) with
  | [] => (none, s)
  | [m] => (some m, s)
  | ms =>
    let (k, s) := s.choose ms.length
    (ms[k]?, s)

/-- Pods of a core that wait on a ring. -/
def State.ringWaiters (s : State) (core : Nat) : Nat :=
  (s.allPods.filter fun p => (match p.wait with
      | some w => (match w.kind with | .ring _ => true | _ => false)
      | none => false) &&
    match s.findTeam p.id.team with
    | some t => t.place = .resident && t.coreOf p.id = core
    | none => false).length

/-- What one cycle adds to the core counters that count cycles (R511). -/
def State.countCycle (s : State) : State :=
  s.esel.foldl (fun s x =>
    let n := if x.2 = 1 then 1 else if x.2 = 7 then s.ringWaiters (x.1 / 8) else 0
    if n = 0 then s else { s with ecnt := s.ecnt.set x.1 (s.ecnt.get x.1 + BitVec.ofNat 48 n) }) s

/-- The lines of some cells in the order of their addresses. -/
def cellLines : List Host.Cell → List Nat
  | [] => []
  | x :: l => match cellLines l with
    | [] => [lineOf x.1]
    | y :: ys => if lineOf x.1 = y then y :: ys else lineOf x.1 :: y :: ys

/-- L2 holds 12 lines of a set (R294): of more that are not written back, some are, chosen freely (log 22). -/
def State.trimL2 (s : State) : State :=
  let ls := cellLines s.stale
  if ls.length ≤ 12 then s
  else
    let set := fun (l : Nat) => (homeSlice l, Config.l2Set l % 1024)
    ls.foldl (fun s l =>
      let own := (cellLines s.stale).filter fun m => set m = set l
      if own.length ≤ 12 then s
      else
        let (k, s) := s.choose own.length
        s.l2WriteBack (own.getD k l)) s

/-- Time passes around a step: one cycle, and what the time base gains while the Husk has power (R12, R497; log 5); L2 writes back what it
has no room for (R294), requests at a closed local port fail (R479), and records follow the operations that run on (R277). -/
def State.advance (s : State) : State :=
  let time := if s.husk.h = 3 then s.time else s.time + BitVec.ofNat 64 (Config.elapsedNs s.tick)
  ({ s with cycle := s.cycle + 1, tick := s.tick + 1, time := time } : State).countCycle
    |>.trimL2.failOutbound.countStuck.followRecords.fillActive

end Sys2Proof.Machine
end

