-- ==== Sys2Proof/Machine/Step.lean ====
section
/-! DEFINITION. One step of the package: an event of the outside that is next, or one move of a pod or of an agent; and the
placement of an instruction for the host's question. -/
namespace Sys2Proof.Machine

/-- The issuing pod issues one instruction: a planted breakpoint, the fetch, decoding under its DECODE field, and the
instruction itself (R62, R84, R101, R517). -/
def State.issueNext (s : State) : Host.Outcome State Fault Refusal :=
  if s.planted then .next (s.raise (s.pod.before .breakpoint 0 0 0))
  else
    match s.fetch with
    | (.fault c g a, s) => .next (s.raise (s.pod.before c 0 g a))
    | (.wait, s) => .next (s.holdPod .flag)
    | (.word w, s) =>
      match decodeMode s.team.kernel.decode w with
      | .ok i => exec i s
      | .error _ => exec (.unassignedOpcode w) s

/-- One step. -/
def step (s : State) : Host.Outcome State Fault Refusal :=
  let s := s.advance
  match s.inputs with
  | i :: rest =>
    let s := { s with inputs := rest }
    if i.isEvent then exec i s else .next s
  | [] =>
    match s.pick with
    | (none, s) => .next s
    | (some (.pod p), s) => (s.switchTo p).issueNext
    | (some (.event i), s) => exec i s
    | (some (.place t core), s) => execTeamPlacement t core s
    | (some (.restore rec core), s) => execContextRestore rec core s
    | (some (.beat c), s) => execAgentHeartbeat c s
    | (some (.request m), s) => execMessageArrival m s

/-- The team and pod of `withFetchWord`: a supervisor kernel that declares every class, one execute or access pod of one
thread's code at address 0 (log 9). -/
def loadedKernel : Kernel :=
  { Kernel.blank with super := true, apods := 1, aregs := 640, akregs := 64, oum := BitVec.ofNat 256 (2 ^ 256 - 1) }

/-- Lays the bytes of an instruction out where the next fetch of a loaded program reads them (log 9). -/
def State.withFetchWord (s : State) (_nbits w : Nat) : State :=
  let id : PodId := ⟨⟨1, 0, 0⟩, .access, 0⟩
  let k := loadedKernel
  let pod := { Pod.blank id 16 with user := (List.range 16).map fun _ => ⟨0, 0⟩ }
  let team := { Team.blank ⟨1, 0, 0⟩ k with place := .resident, irrev := true, nteam := 1, ptroot := 0x1000 }
  let all : Region := { base := 0, limit := BitVec.ofNat 64 (2 ^ 52 - 1), rmask := BitVec.ofNat 128 (2 ^ 128 - 1),
                        wmask := BitVec.ofNat 128 (2 ^ 128 - 1) }
  let s := { s with pod := pod, team := team, husk := { s.husk with c := 0 },
                    capm := [(0, BitVec.ofNat 256 (2 ^ 256 - 1))], acc := [(targetL2 * 64, all)] }
  -- level 3 table at 0x1000, level 2 table at 0x2000 with a 1 GiB leaf for the first GiB
  let s := s.wrAll (run 0x1000 8) (toBytes 8 0x2001)
  let s := s.wrAll (run 0x2000 8) (toBytes 8 0x373)
  s.wrAll (run 0 12) (toBytes 12 w)

end Sys2Proof.Machine
end

