-- ==== Sys2Proof/Safety.lean ====
section
/-! DEFINITION. What a safe run is, and the terms in which claims about instructions are stated: when an instruction can be issued,
what completing it changes, and what a lane instruction writes and leaves alone. -/
namespace Sys2Proof.Machine

/-- The canonical form of memory: addresses strictly rising, no byte that equals what an unlisted address reads as. -/
def Memory.wf (m : List Host.Cell) : Bool := sortedFrom Config.unwritten 0 m

/-- The canonical form of a sparse register file. -/
def Cells.wf {w : Nat} (c : Cells w) : Bool := sortedFrom 0 0 c

/-- A step that stops neither at a fault nor at a refusal. -/
def Steps (s t : State) : Prop := step s = .next t

/-- The states that a run of steps reaches. -/
inductive Reaches : State → State → Prop
  | refl (s : State) : Reaches s s
  | tail {s t u : State} : Reaches s t → Steps t u → Reaches s u

end Sys2Proof.Machine

namespace Sys2Proof.Claims

open Machine

/-! ## Issue -/

/-- What an instruction reads from when its pod issues it (R32 to R34). -/
def issueCtx (s : State) (h : Head) (sp : Spec) : Ctx := s.begin.ctx h sp

/-- The issuing pod can issue the instruction now (R36, R40, R85): no flag of its wait field is set and no acquire is outstanding, no
deferred fault is due, the whole-pod checks pass, no source holds uncorrectable data (R311), no register that it names is an accumulator of a
matrix operation that runs (R342), some thread is effective, and the debugger neither steps nor has halted the pod (R258, R519). -/
structure Ready (i : Instr) (h : Head) (sp : Spec) (s : State) : Prop where
  unflagged : s.pod.waitsOn h = false
  quiet : s.pod.dueFaults h.wait = []
  passes : s.podCheck i h sp = none
  legal : sp.late = none
  sound : s.readsBad h sp = false
  apart : s.accTouched sp = false
  effective : (issueCtx s h sp).eff ≠ []
  unstepped : s.pod.stepping = false
  unhalted : s.pod.halted = false

/-- From `u` to `t` the event counters moved only on the core that issues in `s`, and only if one of them selects an event (R511). -/
structure Counted (s u t : State) : Prop where
  off : u.esel = [] → t.ecnt = u.ecnt ∧ t.free = u.free
  others : ∀ n, n / 8 ≠ s.core → t.ecnt.get n = u.ecnt.get n

/-- The pod of `u` when the issue of a context completes (R41, R240 to R242, R262): the active threads outside `moved` advance or take the
back-edge of their loop, a thread whose transaction has aborted takes its resume address, the wait of the pod is over, and it has issued
now (R54). -/
def retired (c : Ctx) (moved : Mask) (u : State) : Pod :=
  let p := (u.pod.retire c.this c.s.pod.depth c.act moved).leaveTx
  { p with sched := { p.sched with last := u.cycle }, resumeAt := none, bpPass := none, wait := none, inside := false }

/-- The issue of a context completes from `u`: its pod retires, and nothing else differs from `u` but the event counters. -/
structure Retires (c : Ctx) (moved : Mask) (u t : State) : Prop where
  state : t = { u with pod := retired c moved u, ecnt := t.ecnt, free := t.free, progress := u.progress + 1 }
  counted : Counted c.s u t
  memory : ∀ a, t.rdByte a = u.rdByte a

/-- An instruction of the issuing pod does what `post` says, in every state in which it can be issued and `pre` holds. -/
def Does (i : Instr) (h : Head) (sp : State → Spec) (pre : Ctx → Prop) (post : Ctx → State → Prop) : Prop :=
  ∀ s, Ready i h (sp s) s → pre (issueCtx s h (sp s)) → ∃ t, exec i s = .next t ∧ post (issueCtx s h (sp s)) t

/-! ## Lane instructions -/

/-- A lane instruction whose ports hold what its threads pop and have room for what they push (R379), and whose sources pass the
checks of each thread (R131, R384). -/
structure Fed (c : Ctx) : Prop where
  fits : c.s.portsFit c.sp c.lanes.length = true
  ready : c.s.portsWait c.sp c.lanes.length = none
  sound : ∀ t ∈ c.lanes, c.readFault t = none

/-- A context whose instruction acts in every effective thread, even when its operands are uniform. -/
def perThread (each : Bool) (c : Ctx) : Ctx := if each then { c with uni := false } else c

/-- The elements that the results of some threads push, in ascending thread order, units in ascending order (R80, R194). -/
def pushed (d : Dst) (rs : List (Nat × LaneRes)) (x : Ring) : Ring :=
  rs.foldl (fun y e => (List.range d.units).foldl (fun y j =>
    (y.reserve 1).fill y.prd (e.2.val / 2 ^ (32 * (d.regs / d.units) * j) % 2 ^ (32 * (d.regs / d.units)))) y) x

/-- What the destination of a context holds in `t` after the results of some threads (R78, R107): registers and their tags, a uniform
register, a predicate in each thread, a group mask, or the elements
of a ring, from which `n` threads have popped. -/
def Wrote (c : Ctx) (n : Nat) (rs : List (Nat × LaneRes)) (t : State) : Prop :=
  match c.sp.dst with
  | none => True
  | some d =>
    match classOf d.code with
    | (.v, r) => (∀ x ∈ rs, t.pod.rdRun x.1 r d.regs = x.2.val % 2 ^ (32 * d.regs)) ∧ (rs ≠ [] → ∀ j < d.regs, t.pod.tagOf (r + j) = d.tag)
    | (.k, r) => ∀ x ∈ rs.head?, t.pod.rdKRun r d.regs = x.2.val % 2 ^ (32 * d.regs)
    | (.p, r) => ∀ x ∈ rs, (t.pod.predMask r).getLsbD x.1 = x.2.pred
    | (.g, r) => ∀ x ∈ rs.head?, t.pod.rdG r = BitVec.ofNat 128 x.2.val &&& full c.s.pod.width
    | (.q, r) => ∀ m x, c.s.portRing r = some (m, x) → t.team.ring m = some (pushed d rs (x.pop (c.s.popsOf c.sp m * n)))
    | _ => True

/-- The number in its class of a destination of class `cl`. -/
def dstIn (c : Ctx) (cl : OpClass) : Option (Nat × Nat) :=
  match c.sp.dst with
  | none => none
  | some d => if (classOf d.code).1 = cl then some ((classOf d.code).2, d.regs) else none

/-- Whether a register lies in the destination of class `cl`. -/
def inDst (c : Ctx) (cl : OpClass) (r : Nat) : Bool :=
  match dstIn c cl with
  | none => false
  | some (a, n) => decide (a ≤ r) && decide (r < a + n)

/-- What the results of the threads `ts` leave alone: every register, predicate, mask and ring but the destination, the predicates in
`also`, the elements that `n` threads pop, and the marks of uncorrectable data of other registers. -/
structure KeptRegs (c : Ctx) (n : Nat) (ts : List Nat) (also : List Nat) (t : State) : Prop where
  v : ∀ u r, r < 1024 → (u ∉ ts ∨ inDst c .v r = false) → t.pod.rdV u r = c.s.pod.rdV u r
  tags : ∀ r, (ts = [] ∨ inDst c .v r = false) → t.pod.tagOf r = c.s.pod.tagOf r
  k : ∀ r, inDst c .k r = false → t.pod.rdK r = c.s.pod.rdK r
  bank : c.s.pod.trapLevel = false → t.pod.bank = c.s.pod.bank
  hidden : c.s.pod.trapLevel = true → ∀ r, 60 ≤ r → t.pod.k.get r = c.s.pod.k.get r
  p : ∀ n u, (u ∉ ts ∨ (inDst c .p n = false ∧ n ∉ also)) → (t.pod.predMask n).getLsbD u = (c.s.pod.predMask n).getLsbD u
  g : ∀ n, inDst c .g n = false → t.pod.rdG n = c.s.pod.rdG n
  rings : ∀ m, c.s.pushRing c.sp ≠ some m → t.team.ring m = (c.s.team.ring m).map fun x => x.pop (c.s.popsOf c.sp m * n)
  bad : ∀ i, (∀ u ∈ ts, ∀ r, inDst c .v r = true → i ≠ u * 1024 + r) → (∀ r, inDst c .k r = true → i ≠ 2 ^ 20 + r) →
    (i ∈ t.pod.bad ↔ i ∈ c.s.pod.bad)

/-- The sticky conditions and %seed after the results of some threads (R117, R141). -/
structure Conditions (c : Ctx) (rs : List (Nat × LaneRes)) (t : State) : Prop where
  fl : t.pod.fl = rs.foldl (fun f x => f ||| x.2.fl) c.s.pod.fl
  seed : ∀ u, t.pod.seed.get u = (((rs.find? fun x => x.1 = u).bind fun x => x.2.seed).getD (c.s.pod.seed.get u))

/-- The frame of an instruction that writes registers, predicates, rings, conditions and %seed of its pod and nothing else: the
threads advance from the instruction, and every other field of every other thing is as before. -/
structure Framed (c : Ctx) (t : State) : Prop where
  state : t = { c.s with pod := t.pod, team := t.team, ecnt := t.ecnt, free := t.free, progress := c.s.progress + 1 }
  team : t.team = { c.s.team with rings := t.team.rings, stuck := t.team.stuck }
  pod : t.pod = { retired c 0 c.s with
    v := t.pod.v, tags := t.pod.tags, k := t.pod.k, bank := t.pod.bank, p := t.pod.p, g := t.pod.g, fl := t.pod.fl
    seed := t.pod.seed, bad := t.pod.bad }
  counted : Counted c.s c.s t
  memory : ∀ a, t.rdByte a = c.s.rdByte a

/-- The threads of a list act in turn and all complete (R32, R38): the threads that moved elsewhere, those that leave their transactions among
them (R262), and the state that they leave. -/
def inTurn (act : Nat → State → Act) : List Nat → Mask → State → Option (Mask × State)
  | [], m, s => some (m ||| s.pod.leavers, s)
  | t :: ts, m, s =>
    match act t s with
    | .ok u => inTurn act ts m u
    | .moved u => inTurn act ts (m ||| one t) u
    | _ => none

/-- An instruction whose threads act in turn completes when every thread does (R32, R38, R41): what the threads leave, retired. `pre` is
what the instruction asks of its context, `start` the state in which the first thread acts. -/
def TurnsDo (i : Instr) (h : Head) (sp : State → Spec) (pre : Ctx → Prop) (threads : Ctx → List Nat) (start : Ctx → State)
    (act : Ctx → Nat → State → Act) : Prop :=
  ∀ s m u, let c := issueCtx s h (sp s)
    Ready i h (sp s) s → pre c → inTurn (act c) (threads c) 0 (start c) = some (m, u) → u.pod.stepping = false →
      u.pod.halted = false →
    ∃ t, exec i s = .next t ∧ Retires c m u t

/-- The threads of an instruction act in turn and all complete, in every state in which it can be issued and `pre` holds: what they leave,
retired. -/
def TurnsComplete (i : Instr) (h : Head) (sp : State → Spec) (pre : Ctx → Prop) (threads : Ctx → List Nat) (start : Ctx → State)
    (act : Ctx → Nat → State → Act) : Prop :=
  ∀ s, let c := issueCtx s h (sp s)
    Ready i h (sp s) s → pre c → ∃ m u t, inTurn (act c) (threads c) 0 (start c) = some (m, u) ∧ exec i s = .next t ∧ Retires c m u t

/-- The results that each lane of a context produces. -/
def results (c : Ctx) (res : Nat → LaneRes) : List (Nat × LaneRes) := c.lanes.map fun t => (t, res t)

/-- The predicates in `also` receive what `preds` says of each thread's result. -/
def AlsoWrote (rs : List (Nat × LaneRes)) (also : List Nat) (preds : Nat → LaneRes → Bool) (t : State) : Prop :=
  ∀ n ∈ also, n ≠ 0 → ∀ x ∈ rs, (t.pod.predMask n).getLsbD x.1 = preds n x.2

/-- The whole effect of a lane instruction with the results `rs`. -/
structure LaneEffect (c : Ctx) (rs : List (Nat × LaneRes)) (also : List Nat) (preds : Nat → LaneRes → Bool) (t : State) : Prop where
  wrote : (dstIn c .p = none ∨ also = []) → Wrote c rs.length rs t
  alsoWrote : AlsoWrote rs also preds t
  kept : KeptRegs c rs.length (rs.map (·.1)) also t
  conditions : Conditions c rs t
  framed : Framed c t

/-- A lane instruction completes with the result `res` in every thread (R32 to R35, R78): `also` names predicates that it writes
besides its destination, `each` an instruction that acts in every effective thread whatever its operands. -/
def LaneDoesWith (each : Bool) (also : List Nat) (preds : Nat → LaneRes → Bool) (i : Instr) (h : Head) (sp : State → Spec)
    (res : Ctx → Nat → LaneRes) : Prop :=
  ∀ s, Ready i h (sp s) s → Fed (perThread each (issueCtx s h (sp s))) →
    ∃ t, exec i s = .next t ∧
      LaneEffect (perThread each (issueCtx s h (sp s)))
        (results (perThread each (issueCtx s h (sp s))) (res (issueCtx s h (sp s)))) also preds t

/-- A lane instruction completes with the result `res` in every thread. -/
def LaneDoes (i : Instr) (h : Head) (sp : State → Spec) (res : Ctx → Nat → LaneRes) : Prop :=
  LaneDoesWith false [] (fun _ _ => false) i h sp res

/-- An instruction whose context meets `pre` reads every source first, gives the threads of `rs` their results, and leaves everything else
as before (R207). -/
def GatherDoesIf (pre : Ctx → Prop) (i : Instr) (h : Head) (sp : State → Spec) (rs : Ctx → List (Nat × LaneRes)) : Prop :=
  ∀ s, Ready i h (sp s) s → pre (issueCtx s h (sp s)) → ∃ t, exec i s = .next t ∧
    Wrote (issueCtx s h (sp s)) 0 (rs (issueCtx s h (sp s))) t ∧
    KeptRegs (issueCtx s h (sp s)) 0 ((rs (issueCtx s h (sp s))).map (·.1)) [] t ∧
    Conditions (issueCtx s h (sp s)) (rs (issueCtx s h (sp s))) t ∧ Framed (issueCtx s h (sp s)) t

/-- The same without a condition on the context. -/
def GatherDoes (i : Instr) (h : Head) (sp : State → Spec) (rs : Ctx → List (Nat × LaneRes)) : Prop :=
  GatherDoesIf (fun _ => True) i h sp rs

/-- One uniform result, for the lowest thread that acts (R33). -/
def onceRes (c : Ctx) (x : Nat) : List (Nat × LaneRes) := [(c.lanes.headD 0, { val := x })]

/-- An instruction of the issuing pod raises a cause, before it or at a thread (R38, R266), in every state in which it can be issued and
`pre` holds. -/
def Traps (i : Instr) (h : Head) (sp : State → Spec) (pre : Ctx → Prop) (r : Ctx → TrapReq) : Prop :=
  ∀ s, Ready i h (sp s) s → pre (issueCtx s h (sp s)) → ∃ t, exec i s = .next t ∧
    t = { (issueCtx s h (sp s)).s.raise (r (issueCtx s h (sp s))) with ecnt := t.ecnt, free := t.free } ∧
    Counted s ((issueCtx s h (sp s)).s.raise (r (issueCtx s h (sp s)))) t

/-- An instruction raises `x` before it, with no other effect, where its whole-pod checks pass and `when_` holds: a check of its own that
comes after them (R38, R85). -/
def StopsLate (i : Instr) (h : Head) (sp : State → Spec) (when_ : State → Prop) (x : Cause) : Prop :=
  ∀ s, s.pod.waitsOn h = false → s.pod.dueFaults h.wait = [] → s.podCheck i h (sp s) = none → when_ s →
    exec i s = .next (s.begin.raise (s.pod.before x 0 0 0))

/-- An instruction raises FORMAT_MISMATCH before it, with no other effect, naming the first of its fields that `field` finds (R109). -/
def StopsFormat (i : Instr) (h : Head) (sp : State → Spec) (field : State → Option Nat) : Prop :=
  ∀ s n, s.pod.waitsOn h = false → s.pod.dueFaults h.wait = [] → s.podCheck i h (sp s) = none → field s = some n →
    exec i s = .next (s.begin.raise (s.pod.before .formatMismatch n 0 0))

/-- An instruction raises ILLEGAL_OPERAND before it, with no other effect, where an operand breaks a rule of its own (R85; where the rule is
about the value of the operand, log 29). -/
def StopsOperand (i : Instr) (h : Head) (sp : State → Spec) : Prop :=
  ∀ s, s.pod.waitsOn h = false → s.pod.dueFaults h.wait = [] → (sp s).illegal = false → i.badModifier = false → (sp s).bad = true →
    exec i s = .next (s.begin.raise (s.pod.before .illegalOperand 0 0 0))

/-- An instruction of the issuing pod waits in state `u` (R54, R246), in every state in which it can be issued and `pre` holds. -/
def Waits (i : Instr) (h : Head) (sp : State → Spec) (k : Ctx → WaitKind) (pre : Ctx → Prop) (u : Ctx → State) : Prop :=
  ∀ s, Ready i h (sp s) s → pre (issueCtx s h (sp s)) → (u (issueCtx s h (sp s))).pod.stepping = false →
    exec i s = .next ((u (issueCtx s h (sp s))).holdPod (k (issueCtx s h (sp s))))

/-- The results of some threads as they stay outstanding under the set-A flag (R35, R36): the destination, its tag, the value, and the
conditions that come with it. -/
def outstandingOf (c : Ctx) (d : Dst) (rs : List (Nat × LaneRes)) : List Pend :=
  rs.map fun x =>
    let dest := match classOf d.code with
      | (.k, r) => Dest.kregs r d.regs
      | (_, r) => Dest.vregs x.1 r d.regs
    { kind := .classT, serial := c.s.pod.serial, dest := dest, tag := d.tag, value := BitVec.ofNat 256 x.2.val, reqs := []
      size := 4 * d.regs, seta := c.head.seta, setb := 15, thread := x.1, addr := 0, uncorr := false, fl := x.2.fl
      was := (c.s.pod.destNow dest).1, wasTag := (c.s.pod.destNow dest).2, trap := c.s.pod.trapLevel }

/-- The effect of a lane instruction of class T that names a set-A flag (R35, R36): no register changes yet, every result is
outstanding, and the flag counts them. -/
structure LaterEffect (c : Ctx) (d : Dst) (rs : List (Nat × LaneRes)) (t : State) : Prop where
  state : t = { c.s with pod := t.pod, team := t.team, ecnt := t.ecnt, free := t.free, progress := c.s.progress + 1 }
  team : t.team = { c.s.team with rings := t.team.rings, stuck := t.team.stuck }
  rings : ∀ m, t.team.ring m = (c.s.team.ring m).map fun x => x.pop (c.s.popsOf c.sp m * rs.length)
  pod : t.pod = { retired c 0 c.s with
    pend := c.s.pod.pend ++ outstandingOf c d rs
    flags := c.s.pod.flags.set c.head.seta.toNat (c.s.pod.flags.get c.head.seta.toNat + BitVec.ofNat 16 rs.length)
    seed := t.pod.seed }
  seed : ∀ u, t.pod.seed.get u = (((rs.find? fun x => x.1 = u).bind fun x => x.2.seed).getD (c.s.pod.seed.get u))
  counted : Counted c.s c.s t
  memory : ∀ a, t.rdByte a = c.s.rdByte a

/-- A lane instruction of class T (R35): with a set-A flag and a register destination its results come later; otherwise it completes as
one of class S. -/
def LaneTDoes (i : Instr) (h : Head) (sp : State → Spec) (res : Ctx → Nat → LaneRes) : Prop :=
  ∀ s, Ready i h (sp s) s → Fed (issueCtx s h (sp s)) → ∃ t, exec i s = .next t ∧
    ((∃ d, (sp s).dst = some d ∧ h.seta.toNat < 12 ∧ ((classOf d.code).1 = .v ∨ (classOf d.code).1 = .k) ∧
        LaterEffect (issueCtx s h (sp s)) d (results (issueCtx s h (sp s)) (res (issueCtx s h (sp s)))) t) ∨
      ((h.seta.toNat < 12 → ∀ d, (sp s).dst = some d → (classOf d.code).1 ≠ .v ∧ (classOf d.code).1 ≠ .k) ∧
        LaneEffect (issueCtx s h (sp s)) (results (issueCtx s h (sp s)) (res (issueCtx s h (sp s)))) [] (fun _ _ => false) t))

end Sys2Proof.Claims
end

