-- ==== Sys2Proof/Certificates/Slice0/Obligations.lean ====
section
/-! DEFINITION. The statements for the provers. -/

/-! ## Integer, logic, predicates and moves (R149 to R175) -/

namespace Sys2Proof.Claims

open Machine

/-- Operands A and B of a typed R/I instruction, and its destination. -/
def specAB (f : FormRI) (cls : Option Nat) : Spec :=
  specRI f [intSrc 1 (.code f.a) f.ty, intSrc 2 (FormRI.argTy f f.ty) f.ty] (intDst f.dst f.ty) cls

/-- Operands A, B and C of a typed R/I instruction. -/
def specABC (f : FormRI) (cls : Option Nat) : Spec :=
  specRI f [intSrc 1 (.code f.a) f.ty, intSrc 2 (FormRI.argTy f f.ty) f.ty, intSrc 3 (.code f.c) f.ty] (intDst f.dst f.ty) cls

/-- Operand A and a count B. -/
def specACnt (f : FormRI) : Spec := specRI f [intSrc 1 (.code f.a) f.ty, countSrc 2 (f.argB 32)] (intDst f.dst f.ty)

/-- Operand A, a count B and operand C. -/
def specACntC (f : FormRI) : Spec :=
  specRI f [intSrc 1 (.code f.a) f.ty, countSrc 2 (f.argB 32), intSrc 3 (.code f.c) f.ty] (intDst f.dst f.ty)

/-- Bits operands A and B of W bits (R151). -/
def specBitsAB (f : FormRI) (s : State) : Spec :=
  let a := bitsSrc 1 (.code f.a) (wRegs f.low)
  let b := bitsSrc 2 (f.argB (32 * wRegs f.low)) (wRegs f.low)
  specRI f [a, b] { code := f.dst, acc := anyDst, regs := wRegs f.low, tag := s.commonTag [a, b] }

/-- A bits operand A of W bits, with the destination of NOT and BREV, or a 32-bit count tagged n32. -/
def specBitsA (f : FormR) (small : Bool) (s : State) : Spec :=
  let a := bitsSrc 1 (.code f.a) (wRegs f.low)
  specR f [a] { code := f.dst, acc := anyDst, regs := if small then 1 else wRegs f.low, tag := if small then 2 else s.commonTag [a] }

end Sys2Proof.Claims

open Sys2Proof.Machine Sys2Proof.Claims Sys2Proof

/-- R159: each arithmetic instruction computes its exact result over Get and writes its fit. -/
def Sys2Proof.Claims.TheIntegerArithmetic : Prop := ∀ (h : Head),
  (∀ f, LaneDoes (.iadd h f) h (fun _ => specAB f none) fun c t =>
    fitInt f.ty (f.low.getLsbD 0) (getInt f.ty (c.val 0 t) + getInt f.ty (c.val 1 t))) ∧
  (∀ f, LaneDoes (.isub h f) h (fun _ => specAB f none) fun c t =>
    fitInt f.ty (f.low.getLsbD 0) (getInt f.ty (c.val 0 t) - getInt f.ty (c.val 1 t))) ∧
  (∀ f, LaneDoes (.imul h f) h (fun _ => specAB f (mulCls f.ty)) fun c t =>
    fitInt f.ty (f.low.getLsbD 0) (getInt f.ty (c.val 0 t) * getInt f.ty (c.val 1 t))) ∧
  (∀ f, LaneDoes (.imulh h f) h (fun _ => specAB f (mulCls f.ty)) fun c t =>
    fitInt f.ty false (Int.fdiv (getInt f.ty (c.val 0 t) * getInt f.ty (c.val 1 t)) (2 ^ tyWidth f.ty : Nat))) ∧
  (∀ f, LaneDoes (.imad h f) h (fun _ => specABC f (mulCls f.ty)) fun c t =>
    fitInt f.ty (f.low.getLsbD 0) (getInt f.ty (c.val 0 t) * getInt f.ty (c.val 1 t) + getInt f.ty (c.val 2 t))) ∧
  (∀ f, LaneDoes (.imin h f) h (fun _ => specAB f none) fun c t =>
    fitInt f.ty false (min (getInt f.ty (c.val 0 t)) (getInt f.ty (c.val 1 t)))) ∧
  (∀ f, LaneDoes (.imax h f) h (fun _ => specAB f none) fun c t =>
    fitInt f.ty false (max (getInt f.ty (c.val 0 t)) (getInt f.ty (c.val 1 t)))) ∧
  (∀ f, LaneDoes (.iclamp h f) h (fun _ => specABC f none) fun c t =>
    fitInt f.ty false (min (max (getInt f.ty (c.val 0 t)) (getInt f.ty (c.val 1 t))) (getInt f.ty (c.val 2 t)))) ∧
  (∀ f, LaneDoes (.isad h f) h (fun _ => specABC f none) fun c t =>
    fitInt f.ty (f.low.getLsbD 0) ((getInt f.ty (c.val 0 t) - getInt f.ty (c.val 1 t)).natAbs + getInt f.ty (c.val 2 t))) ∧
  (∀ f, LaneDoes (.ineg h f) h (fun _ => specR f [intSrc 1 (.code f.a) f.ty] (intDst f.dst f.ty)) fun c t =>
    fitInt f.ty (f.low.getLsbD 0) (-getInt f.ty (c.val 0 t))) ∧
  (∀ f, LaneDoes (.iabs h f) h (fun _ => specR f [intSrc 1 (.code f.a) f.ty] (intDst f.dst f.ty)) fun c t =>
    fitInt f.ty (f.low.getLsbD 0) (getInt f.ty (c.val 0 t)).natAbs)

/-- R154: Fit without .sat writes the residue of the exact result that the type can hold and raises nothing; with .sat it writes the
result clamped to the type's range, and raises SAT exactly if the clamp changes it. A 32- or 64-bit type reads back what was put. -/
def Sys2Proof.Claims.TheFitWrapsOrClamps : Prop := ∀ (ty : BitVec 3) (x : Int),
  (fitInt ty false x).fl = 0 ∧
  getInt ty (fitInt ty false x).val % (2 ^ tyWidth ty : Nat) = x % (2 ^ tyWidth ty : Nat) ∧
  (tyRange ty).1 ≤ getInt ty (fitInt ty false x).val ∧ getInt ty (fitInt ty false x).val ≤ (tyRange ty).2 ∧
  getInt ty (fitInt ty true x).val = max (tyRange ty).1 (min (tyRange ty).2 x) ∧
  ((fitInt ty true x).fl = if (tyRange ty).1 ≤ x ∧ x ≤ (tyRange ty).2 then 0 else condSat)

/-- R160: IADDC and ISUBB write the sum or difference mod 2^w, and the predicate of [22:20] receives the carry or borrow in each
thread. -/
def Obligations.CarriesAndBorrows : Prop := ∀ (h : Head) (f : FormRI),
  LaneDoesWith false [f.low.toNat] (fun _ x => x.pred) (.iaddc h f) h
    (fun _ => specRI f [intSrc 1 (.code f.a) f.ty, intSrc 2 (FormRI.argTy f f.ty) f.ty, predSrc 5 (768 + f.low.setWidth 10)]
      (intDst f.dst f.ty))
    (fun c t =>
      let x := getInt f.ty (c.val 0 t) + getInt f.ty (c.val 1 t) + c.val 2 t
      { val := wrap (tyWidth f.ty) x, pred := decide (x < 0) || decide ((2 ^ tyWidth f.ty : Nat) ≤ x) }) ∧
  LaneDoesWith false [f.low.toNat] (fun _ x => x.pred) (.isubb h f) h
    (fun _ => specRI f [intSrc 1 (.code f.a) f.ty, intSrc 2 (FormRI.argTy f f.ty) f.ty, predSrc 5 (768 + f.low.setWidth 10)]
      (intDst f.dst f.ty))
    (fun c t =>
      let x := getInt f.ty (c.val 0 t) - getInt f.ty (c.val 1 t) - c.val 2 t
      { val := wrap (tyWidth f.ty) x, pred := decide (x < 0) || decide ((2 ^ tyWidth f.ty : Nat) ≤ x) })

/-- R161: IDIV truncates towards zero and IREM keeps the dividend's sign; a zero divisor gives the greatest value (the least for a
negative dividend) and the dividend, and raises DZ. Both are class T (R35). -/
def Obligations.Division : Prop := ∀ (h : Head) (f : FormRI),
  LaneTDoes (.idiv h f) h (fun _ => specAB f (divCls f.ty)) (fun c t =>
    let a := getInt f.ty (c.val 0 t)
    let b := getInt f.ty (c.val 1 t)
    { val := (fitInt f.ty false (if b = 0 then (if a < 0 then (tyRange f.ty).1 else (tyRange f.ty).2) else Int.tdiv a b)).val
      fl := if b = 0 then condDz else 0 }) ∧
  LaneTDoes (.irem h f) h (fun _ => specAB f (divCls f.ty)) (fun c t =>
    let a := getInt f.ty (c.val 0 t)
    let b := getInt f.ty (c.val 1 t)
    { val := (fitInt f.ty false (if b = 0 then a else Int.tmod a b)).val, fl := if b = 0 then condDz else 0 })

/-- R162: the shifts act on the w-bit pattern of A by the 32-bit count B. -/
def Obligations.Shifts : Prop := ∀ (h : Head) (f : FormRI),
  LaneDoes (.shl h f) h (fun _ => specACnt f) (fun c t =>
    { val := putInt f.ty (c.val 0 t % 2 ^ tyWidth f.ty * 2 ^ c.val 1 t % 2 ^ tyWidth f.ty) }) ∧
  LaneDoes (.shr h f) h (fun _ => specACnt f) (fun c t =>
    { val := putInt f.ty (c.val 0 t % 2 ^ tyWidth f.ty / 2 ^ c.val 1 t) }) ∧
  LaneDoes (.shra h f) h (fun _ => specACnt f) (fun c t =>
    { val := putInt f.ty (wrap (tyWidth f.ty) (Int.fdiv (signed (tyWidth f.ty) (c.val 0 t % 2 ^ tyWidth f.ty)) (2 ^ c.val 1 t : Nat))) }) ∧
  LaneDoes (.rotl h f) h (fun _ => specACnt f) (fun c t =>
    let r := c.val 1 t % tyWidth f.ty
    { val := putInt f.ty ((c.val 0 t % 2 ^ tyWidth f.ty * 2 ^ r + c.val 0 t % 2 ^ tyWidth f.ty / 2 ^ (tyWidth f.ty - r)) %
        2 ^ tyWidth f.ty) }) ∧
  LaneDoes (.shfd h f) h (fun _ => specACntC f) (fun c t =>
    let u := min (c.val 1 t) (tyWidth f.ty)
    let x := c.val 0 t % 2 ^ tyWidth f.ty * 2 ^ tyWidth f.ty + c.val 2 t % 2 ^ tyWidth f.ty
    { val := putInt f.ty (if f.low.getLsbD 2 then x * 2 ^ u / 2 ^ tyWidth f.ty % 2 ^ tyWidth f.ty
                          else x / 2 ^ u % 2 ^ tyWidth f.ty) })

/-- R163: the bitwise instructions compute each bit of the W-bit result from the bits of their operands in the same place. -/
def Sys2Proof.Claims.TheBitwiseLogic : Prop := ∀ (h : Head),
  (∀ f, LaneDoes (.andB h f) h (specBitsAB f) fun c t => { val := (c.val 0 t &&& c.val 1 t) % 2 ^ (32 * wRegs f.low) }) ∧
  (∀ f, LaneDoes (.orB h f) h (specBitsAB f) fun c t => { val := (c.val 0 t ||| c.val 1 t) % 2 ^ (32 * wRegs f.low) }) ∧
  (∀ f, LaneDoes (.xorB h f) h (specBitsAB f) fun c t => { val := (c.val 0 t ^^^ c.val 1 t) % 2 ^ (32 * wRegs f.low) }) ∧
  (∀ f, LaneDoes (.andn h f) h (specBitsAB f) fun c t =>
    { val := (c.val 0 t - (c.val 0 t &&& c.val 1 t)) % 2 ^ (32 * wRegs f.low) }) ∧
  (∀ f, LaneDoes (.notB h f) h (specBitsA f false) fun c t =>
    { val := 2 ^ (32 * wRegs f.low) - 1 - c.val 0 t % 2 ^ (32 * wRegs f.low) }) ∧
  (∀ f, LaneDoes (.lop3 h f) h
    (fun s =>
      let n := wRegs (f.flags.setWidth 3)
      let os := [bitsSrc 1 (.code f.a) n, bitsSrc 2 (.code f.b) n, bitsSrc 3 (.code f.c) n]
      { srcs := os, dst := some { code := f.dst, acc := anyDst, regs := n, tag := s.commonTag os } })
    fun c t => { val := lop3Bits (bits f.desc.toNat 0 8) (c.val 0 t) (c.val 1 t) (c.val 2 t) (32 * wRegs (f.flags.setWidth 3)) }) ∧
  (∀ tt a b c w i, i < w → bit (lop3Bits tt a b c w) i =
    bit tt ((if bit a i then 4 else 0) + (if bit b i then 2 else 0) + (if bit c i then 1 else 0)))

/-- R164 to R166: bit fields, counts of bits and bytes. -/
def Sys2Proof.Claims.TheBitFields : Prop := ∀ (h : Head),
  (∀ f, LaneDoes (.bfe h f) h (fun _ => specACnt f) fun c t =>
    let pos := bits (c.val 1 t) 0 8
    let len := min (bits (c.val 1 t) 8 8) (tyWidth f.ty)
    let x := wrap len (Int.fdiv (getInt f.ty (c.val 0 t)) (2 ^ pos : Nat))
    { val := putInt f.ty (if tySigned f.ty ∧ 0 < len then wrap (tyWidth f.ty) (signed len x) else x % 2 ^ tyWidth f.ty) }) ∧
  (∀ f, LaneDoes (.bfi h f) h (fun _ => specACntC f) fun c t =>
    let pos := bits (c.val 1 t) 0 8
    let n := if pos < tyWidth f.ty then min (min (bits (c.val 1 t) 8 8) (tyWidth f.ty)) (tyWidth f.ty - pos) else 0
    let base := c.val 2 t % 2 ^ tyWidth f.ty
    { val := putInt f.ty (base - (base &&& ((2 ^ n - 1) * 2 ^ pos)) + c.val 0 t % 2 ^ n * 2 ^ pos) }) ∧
  (∀ f, LaneDoes (.brev h f) h (specBitsA f false) fun c t => { val := revBits (32 * wRegs f.low) (c.val 0 t) }) ∧
  (∀ f, LaneDoes (.popc h f) h (specBitsA f true) fun c t =>
    { val := ((List.range (32 * wRegs f.low)).filter fun i => bit (c.val 0 t) i).length }) ∧
  (∀ f, LaneDoes (.clz h f) h (specBitsA f true) fun c t => { val := clzBits (32 * wRegs f.low) (c.val 0 t) }) ∧
  (∀ f, LaneDoes (.ctz h f) h (specBitsA f true) fun c t =>
    { val := ((List.range (32 * wRegs f.low)).find? fun i => bit (c.val 0 t) i).getD (32 * wRegs f.low) }) ∧
  (∀ f, LaneDoes (.bytep h f) h
    (fun s =>
      let os := [bitsSrc 1 (.code f.a) 1, countSrc 2 (f.argB 32), bitsSrc 3 (.code f.c) 1]
      specRI f os { code := f.dst, acc := anyDst, tag := s.commonTag os })
    fun c t =>
      let b := fun i => bytepByte (c.val 0 t + 2 ^ 32 * c.val 2 t) (c.val 1 t) i
      { val := b 0 + 2 ^ 8 * b 1 + 2 ^ 16 * b 2 + 2 ^ 24 * b 3 }) ∧
  (∀ w a i, i < w → bit (revBits w a) (w - 1 - i) = bit a i) ∧
  (∀ w a, clzBits w a ≤ w ∧ (∀ i, w - clzBits w a ≤ i → i < w → bit a i = false) ∧
    (clzBits w a < w → bit a (w - 1 - clzBits w a) = true))

/-- R167 to R170: predicates and selects. -/
def Obligations.PredicatesAndSelects : Prop := ∀ (h : Head),
  (∀ f, LaneDoes (.isetp h f) h
    (fun _ => specRI f [intSrc 1 (.code f.a) f.ty, intSrc 2 (FormRI.argTy f f.ty) f.ty] (predDst f.dst)) fun c t =>
    let a := getInt f.ty (c.val 0 t)
    let b := getInt f.ty (c.val 1 t)
    { pred := match f.low.toNat with
        | 0 => decide (a = b)
        | 1 => decide (a ≠ b)
        | 2 => decide (a < b)
        | 3 => decide (a ≤ b)
        | 4 => decide (a > b)
        | _ => decide (a ≥ b) }) ∧
  (∀ f, LaneDoes (.isel h f) h
    (fun s =>
      let a := bitsSrc 1 (.code f.a) (wRegs f.low)
      let b := bitsSrc 2 (.code f.b) (wRegs f.low)
      specR f [a, b, predSrc 3 f.c] { code := f.dst, acc := anyDst, regs := wRegs f.low, tag := s.commonTag [a, b] })
    fun c t => { val := if c.val 2 t = 1 then c.val 0 t else c.val 1 t }) ∧
  (∀ f, LaneDoes (.plop h f) h (fun _ => specR f [predSrc 1 f.a, predSrc 2 f.b] (predDst f.dst)) fun c t =>
    let a := decide (c.val 0 t = 1)
    let b := decide (c.val 1 t = 1)
    { pred := match f.low.toNat with
        | 0 => a && b
        | 1 => a || b
        | 2 => a ^^ b
        | 3 => a && !b
        | 4 => a || !b
        | 5 => !(a && b)
        | 6 => !(a || b)
        | _ => !(a ^^ b) }) ∧
  (∀ f, LaneDoes (.ptov h f) h
    (fun _ => { specR f [predSrc 1 f.a] { code := f.dst, acc := anyDst, tag := 2 } with bad := f.low.getLsbD 2 && f.a != 1023 })
    fun c t => { val := if f.low.getLsbD 2 then c.s.pod.predBits t else c.val 0 t }) ∧
  (∀ f, LaneDoesWith true (if f.low.getLsbD 2 then List.range 16 else []) (fun n x => bit x.val n) (.vtop h f) h
    (fun _ => specR f [bitsSrc 1 (.code f.a) 1] { code := f.dst, acc := if f.low.getLsbD 2 then [.zero] else [.p] })
    fun c t => { val := c.val 0 t, pred := decide (c.val 0 t ≠ 0) })

/-- R171, R172, R174, R175 and R204: moves, immediates, addresses, tags and the reading of %fl. -/
def Obligations.Moves : Prop := ∀ (h : Head),
  (∀ f, LaneDoes (.mov h f) h
    (fun s =>
      let a : Src := { field := 1, arg := .code f.a, acc := movAcc f.dst (wRegs f.low), regs := wRegs f.low }
      { specR f [a] { code := f.dst, acc := [.v, .k, .q, .g, .zero], regs := wRegs f.low, tag := s.commonTag [a] } with
        bad := match (classOf f.dst).1 with
          | .k => wRegs f.low == 4
          | .g => wRegs f.low != 1
          | _ => false
        carries := true })
    fun c t => { val := c.val 0 t }) ∧
  (∀ f, LaneDoes (.movi h f) h
    (fun _ => { dst := some { code := f.dst, acc := [.v, .k], regs := tyRegs f.ty,
                              tag := if f.flags.getLsbD 2 then 0 else tyTag f.ty } })
    fun _ _ => { val := putInt f.ty (immValue (tyWidth f.ty) f.interp f.imm) }) ∧
  (∀ f, LaneDoes (.lea h f) h
    (fun _ => specRI f [{ field := 1, arg := .code f.a, acc := [.v, .k, .zero], regs := 2 }, bitsSrc 2 (f.argB 64) 1]
      { code := f.dst, acc := anyDst, regs := 2, tag := 6 })
    fun c t =>
      let i : Int := match f with
        | .i _ => signed 64 (c.val 1 t)
        | .r _ => if f.low.getLsbD 2 then (c.val 1 t : Int) else signed 32 (c.val 1 t)
      { val := wrap 64 ((c.val 0 t : Int) + i * (2 ^ bits f.low.toNat 0 2 : Nat)) }) ∧
  (∀ f, LaneDoes (.tagOp h f) h
    (fun s =>
      let n := match f.argB 32 with
        | .imm x => x
        | .code c => if (classOf c).1 = .k then (s.pod.rdK (classOf c).2).toNat else 0
      { specRI f [{ field := 1, arg := .code f.a, acc := [.v, .zero], regs := groupRegs n },
                  { field := 2, arg := f.argB 32, acc := [.k, .zero] }]
          { code := f.dst, acc := [.v], regs := groupRegs n, tag := BitVec.ofNat 5 n } with
        bad := decide (21 < n), carries := true })
    fun c t => { val := c.val 0 t }) ∧
  (∀ f, LaneDoes (.rdfl h f) h (fun _ => execOnly (specR f [] { code := f.dst, acc := anyDst, tag := 2 }))
    fun c _ => { val := c.s.pod.fl.toNat }) ∧
  (∀ f, LaneDoes (.rdsr h f) h
    (fun _ =>
      let n := if f.flags.getLsbD 0 then 2 else 1
      { srcs := [{ field := 1, arg := .code f.a, acc := [.special], regs := n }]
        dst := some { code := f.dst, acc := [.v, .k], regs := n, tag := if n = 2 then 6 else 2 } })
    fun c t => { val := c.val 0 t })

/-! ## Floating point (R176 to R206) -/

namespace Sys2Proof.Claims

open Machine

/-- Operands A and B of a scalar float instruction of execute pods, and its destination (R179). -/
def specF2 (f : FormRI) (cls : Option Nat) : Spec :=
  execOnly (specRI f [fltSrc 1 (.code f.a) (faWide f.flags), fltSrc 2 (argFlt f (faWide f.flags)) (faWide f.flags)]
    (fltDst f.dst (faWide f.flags)) cls)

/-- Operand A of a scalar float instruction. -/
def specF1 (f : FormR) (cls : Option Nat) : Spec :=
  execOnly (specR f [fltSrc 1 (.code f.a) (faWide f.flags)] (fltDst f.dst (faWide f.flags)) cls)

/-- The number that source `i` of a thread holds, in the scalar format of an instruction. -/
def num (wide : Bool) (c : Ctx) (i t : Nat) : Machine.Num := (scalarFmt wide).decode (c.val i t)

/-- An exact value with its conditions, rounded once under the rounding and saturation of layout FA, with INV for signalling inputs
(R135 to R141). -/
def rounded (wide : Bool) (fl : BitVec 7) (x : Machine.Num × BitVec 6) (ins : List Nat) (seed : Word) : LaneRes :=
  let r := (scalarFmt wide).round x.1 (faRnd fl) (faSat fl) false seed
  { val := r.code, fl := r.fl ||| x.2 ||| sigInv (scalarFmt wide) ins, seed := if faRnd fl = 5 then some r.seed else none }

/-- Both elements of a packed half, element 0 first; mode SR draws once per element (R191). -/
def bothHalves (mode : Nat) (seed : Word) (op : Nat → Word → Rounded) : LaneRes :=
  { val := (op 0 seed).code + 2 ^ 16 * (op 1 (op 0 seed).seed).code, fl := (op 0 seed).fl ||| (op 1 (op 0 seed).seed).fl
    seed := if mode = 5 then some (op 1 (op 0 seed).seed).seed else none }

/-- Operands A and B of a packed-half instruction, and C with `three`. -/
def specH (f : FormRI) (three : Bool) (cls : Option Nat) : Spec :=
  let b := f.flags.getLsbD 5
  execOnly (specRI f ([pkSrc 1 (.code f.a) [halfTag b], pkSrc 2 (argPk f b) [halfTag b]] ++
    if three then [pkSrc 3 (.code f.c) [halfTag b]] else []) { code := f.dst, acc := anyDst, tag := halfTag b } cls)

end Sys2Proof.Claims

/-- R183: FADD, FSUB, FMUL, FFMA and FSCALE round the exact result of their operands once. -/
def Obligations.FloatArithmetic : Prop := ∀ (h : Head) (f : FormRI),
  LaneDoes (.fadd h f) h (fun _ => specF2 f (fmaCls (faWide f.flags))) (fun c t =>
    rounded (faWide f.flags) f.flags ((num (faWide f.flags) c 0 t).add (num (faWide f.flags) c 1 t) (isDown f.flags))
      [c.val 0 t, c.val 1 t] (c.s.pod.seed.get t)) ∧
  LaneDoes (.fsub h f) h (fun _ => specF2 f (fmaCls (faWide f.flags))) (fun c t =>
    rounded (faWide f.flags) f.flags ((num (faWide f.flags) c 0 t).add (num (faWide f.flags) c 1 t).flip (isDown f.flags))
      [c.val 0 t, c.val 1 t] (c.s.pod.seed.get t)) ∧
  LaneDoes (.fmul h f) h (fun _ => specF2 f (fmaCls (faWide f.flags))) (fun c t =>
    rounded (faWide f.flags) f.flags ((num (faWide f.flags) c 0 t).mul (num (faWide f.flags) c 1 t))
      [c.val 0 t, c.val 1 t] (c.s.pod.seed.get t)) ∧
  LaneDoes (.ffma h f) h
    (fun _ => execOnly (specRI f [fltSrc 1 (.code f.a) (faWide f.flags), fltSrc 2 (argFlt f (faWide f.flags)) (faWide f.flags),
      fltSrc 3 (.code f.c) (faWide f.flags)] (fltDst f.dst (faWide f.flags)) (fmaCls (faWide f.flags)))) (fun c t =>
    let p := (num (faWide f.flags) c 0 t).mul (num (faWide f.flags) c 1 t)
    let r := p.1.add (num (faWide f.flags) c 2 t) (isDown f.flags)
    rounded (faWide f.flags) f.flags (r.1, p.2 ||| r.2) [c.val 0 t, c.val 1 t, c.val 2 t] (c.s.pod.seed.get t)) ∧
  LaneDoes (.fscale h f) h
    (fun _ => execOnly (specRI f [fltSrc 1 (.code f.a) (faWide f.flags), countSrc 2 (f.argB 32)] (fltDst f.dst (faWide f.flags))
      (fmaCls (faWide f.flags)))) (fun c t =>
    rounded (faWide f.flags) f.flags ((num (faWide f.flags) c 0 t).scale (signed 32 (c.val 1 t)), 0) [c.val 0 t]
      (c.s.pod.seed.get t))

/-- R183, R189, R190: FDIV and FSQRT round their exact results once; the other functions write what the device returns within its bound.
All are class T (R35). -/
def Obligations.FloatFunctions : Prop := ∀ (h : Head),
  (∀ f, LaneTDoes (.fdiv h f) h (fun _ => specF2 f (fdivCls (faWide f.flags))) fun c t =>
    rounded (faWide f.flags) f.flags ((num (faWide f.flags) c 0 t).div (num (faWide f.flags) c 1 t))
      [c.val 0 t, c.val 1 t] (c.s.pod.seed.get t)) ∧
  (∀ f, LaneTDoes (.fsqrt h f) h (fun _ => specF1 f (fdivCls (faWide f.flags))) fun c t =>
    let F := scalarFmt (faWide f.flags)
    let x := (F.read (fuFtz f.flags) (c.val 0 t)).sqrt
    let r := F.round x.1 (faRnd f.flags) (faSat f.flags) (fuFtz f.flags) (c.s.pod.seed.get t)
    { val := r.code, fl := r.fl ||| x.2 ||| sigInv F [c.val 0 t], seed := if faRnd f.flags = 5 then some r.seed else none }) ∧
  ∀ f, let res := fun (fn : Config.Approx) (c : Ctx) (t : Nat) =>
      (((scalarFmt (faWide f.flags)).function fn (faWide f.flags) (fuFtz f.flags) (c.val 0 t) (faSat f.flags)
        (c.s.pod.seed.get t)).res 0)
    LaneTDoes (.frcp h f) h (fun _ => specF1 f (fdivCls (faWide f.flags))) (res .rcp) ∧
    LaneTDoes (.frsq h f) h (fun _ => specF1 f (fdivCls (faWide f.flags))) (res .rsq) ∧
    LaneTDoes (.fexp2 h f) h (fun _ => specF1 f (fexpCls (faWide f.flags))) (res .exp2) ∧
    LaneTDoes (.flog2 h f) h (fun _ => specF1 f (fexpCls (faWide f.flags))) (res .log2) ∧
    LaneTDoes (.fsin h f) h (fun _ => specF1 f (fexpCls (faWide f.flags))) (res .sin) ∧
    LaneTDoes (.fcos h f) h (fun _ => specF1 f (fexpCls (faWide f.flags))) (res .cos) ∧
    LaneTDoes (.ftanh h f) h (fun _ => specF1 f (fexpCls (faWide f.flags))) (res .tanh)

/-- R184 to R188: rounding to an integer, fractions, exponents, minima and maxima, comparisons, signs and classes. -/
def Sys2Proof.Claims.TheFloatCompareAndSign : Prop := ∀ (h : Head),
  (∀ f, LaneDoes (.frnd h f) h (fun _ => specF1 f none) fun c t =>
    (rndOne (scalarFmt (faWide f.flags)) (fuFtz f.flags) (faRnd f.flags) (c.val 0 t) (c.s.pod.seed.get t)).res (faRnd f.flags)) ∧
  (∀ f, LaneDoes (.ffrc h f) h (fun _ => specF1 f none) fun c t =>
    (frcOne (scalarFmt (faWide f.flags)) (fuFtz f.flags) (c.val 0 t)).res 0) ∧
  (∀ f, LaneDoes (.fgetx h f) h
    (fun _ => execOnly (specR f [fltSrc 1 (.code f.a) (faWide f.flags)] { code := f.dst, acc := anyDst, tag := 1 })) fun c t =>
    getxOne (scalarFmt (faWide f.flags)) (fuFtz f.flags) (c.val 0 t)) ∧
  (∀ f, let res := fun (max number : Bool) (c : Ctx) (t : Nat) =>
      ({ val := (minMax (scalarFmt (faWide f.flags)) max number (c.val 0 t) (c.val 1 t)).1
         fl := sigInv (scalarFmt (faWide f.flags)) [c.val 0 t, c.val 1 t] } : LaneRes)
    LaneDoes (.fmin h f) h (fun _ => specF2 f none) (res false false) ∧
    LaneDoes (.fmax h f) h (fun _ => specF2 f none) (res true false) ∧
    LaneDoes (.fminn h f) h (fun _ => specF2 f none) (res false true) ∧
    LaneDoes (.fmaxn h f) h (fun _ => specF2 f none) (res true true)) ∧
  (∀ f, LaneDoes (.fsetp h f) h
    (fun _ => execOnly (specRI f [fltSrc 1 (.code f.a) (faWide f.flags), fltSrc 2 (argFlt f (faWide f.flags)) (faWide f.flags)]
      (predDst f.dst))) fun c t =>
    let r := fltCond (bits f.flags.toNat 1 4) (num (faWide f.flags) c 0 t) (num (faWide f.flags) c 1 t)
    { pred := r.1
      fl := sigInv (scalarFmt (faWide f.flags)) [c.val 0 t, c.val 1 t] |||
        when_ (r.2 && (num (faWide f.flags) c 0 t = .nan || num (faWide f.flags) c 1 t = .nan)) cINV }) ∧
  (∀ f, LaneDoes (.fclass h f) h
    (fun _ => execOnly (specR f [fltSrc 1 (.code f.a) (faWide f.flags)] { code := f.dst, acc := anyDst, tag := 2 })) fun c t =>
    { val := 2 ^ classBit (scalarFmt (faWide f.flags)) (c.val 0 t) }) ∧
  (∀ f, LaneDoes (.fabs h f) h (fun _ => specF1 f none) fun c t =>
    { val := (scalarFmt (faWide f.flags)).withSign false (c.val 0 t) }) ∧
  (∀ f, LaneDoes (.fneg h f) h (fun _ => specF1 f none) fun c t =>
    { val := (scalarFmt (faWide f.flags)).withSign (!(scalarFmt (faWide f.flags)).sign (c.val 0 t)) (c.val 0 t) }) ∧
  (∀ f, LaneDoes (.fsgn h f) h
    (fun _ => execOnly (specR f [fltSrc 1 (.code f.a) (faWide f.flags), fltSrc 2 (.code f.b) (faWide f.flags)]
      (fltDst f.dst (faWide f.flags)))) fun c t =>
    let F := scalarFmt (faWide f.flags)
    { val := F.withSign (if f.flags.getLsbD 4 then F.sign (c.val 0 t) != F.sign (c.val 1 t) else F.sign (c.val 1 t)) (c.val 0 t) }) ∧
  (∀ (wide s : Bool) (x : Nat),
    (scalarFmt wide).withSign s x = x % 2 ^ ((scalarFmt wide).width - 1) + (if s then 2 ^ ((scalarFmt wide).width - 1) else 0))

/-- R185: the minimum and maximum of two numbers. With a NaN the plain variants give the canonical NaN and the Number variants the other
operand; of two numbers they give the lesser or greater one, -0 below +0. -/
def Sys2Proof.Claims.TheMinimumAndMaximum : Prop := ∀ (F : Fmt) (max number : Bool) (x y : Nat),
  (F.decode x = .nan → F.decode y = .nan → (minMax F max number x y).1 = F.canon) ∧
  (F.decode x = .nan → F.decode y ≠ .nan → (minMax F max number x y).1 = if number then y else F.canon) ∧
  (F.decode x ≠ .nan → F.decode y = .nan → (minMax F max number x y).1 = if number then x else F.canon) ∧
  (F.decode x ≠ .nan → F.decode y ≠ .nan →
    (minMax F max number x y).1 = if max then (if lesser (F.decode x) (F.decode y) then y else x)
      else (if lesser (F.decode y) (F.decode x) then y else x))

/-- R191: the packed-half instructions act on each 16-bit element alone, element 0 first. -/
def Obligations.PackedHalves : Prop := ∀ (h : Head) (f : FormRI),
  let F := halfFmt (f.flags.getLsbD 5)
  let mode := faRnd f.flags
  let el := fun (c : Ctx) (i t e : Nat) => bits (c.val i t) (16 * e) 16
  let fin := fun (x : Machine.Num × BitVec 6) (ins : List Nat) (seed : Word) =>
    let r := F.round x.1 mode (faSat f.flags) false seed
    { r with fl := r.fl ||| x.2 ||| sigInv F ins }
  LaneDoes (.hadd2 h f) h (fun _ => specH f false (hfmaCls (f.flags.getLsbD 5))) (fun c t =>
    bothHalves mode (c.s.pod.seed.get t) fun e seed =>
      fin ((F.decode (el c 0 t e)).add (F.decode (el c 1 t e)) (isDown f.flags)) [el c 0 t e, el c 1 t e, 0] seed) ∧
  LaneDoes (.hmul2 h f) h (fun _ => specH f false (hfmaCls (f.flags.getLsbD 5))) (fun c t =>
    bothHalves mode (c.s.pod.seed.get t) fun e seed =>
      fin ((F.decode (el c 0 t e)).mul (F.decode (el c 1 t e))) [el c 0 t e, el c 1 t e, 0] seed) ∧
  LaneDoes (.hfma2 h f) h (fun _ => specH f true (hfmaCls (f.flags.getLsbD 5))) (fun c t =>
    bothHalves mode (c.s.pod.seed.get t) fun e seed =>
      fin (fma (F.decode (el c 0 t e)) (F.decode (el c 1 t e)) (F.decode (el c 2 t e)) (isDown f.flags))
        [el c 0 t e, el c 1 t e, el c 2 t e] seed) ∧
  LaneDoes (.hmin2 h f) h (fun _ => specH f false none) (fun c t =>
    bothHalves 0 0 fun e seed =>
      let r := minMax F false (f.flags.getLsbD 4) (el c 0 t e) (el c 1 t e)
      ⟨r.1, r.2, seed⟩) ∧
  LaneDoes (.hmax2 h f) h (fun _ => specH f false none) (fun c t =>
    bothHalves 0 0 fun e seed =>
      let r := minMax F true (f.flags.getLsbD 4) (el c 0 t e) (el c 1 t e)
      ⟨r.1, r.2, seed⟩)

/-- R192 to R200: the conversions read a run of units, convert each element by its tags, and write a run of units. -/
def Obligations.Conversions : Prop := ∀ (h : Head) (f : FormQ),
  let a := elemOf f.stag
  let d := elemOf f.dtag
  let n := max (a.perUnit f.stag) (d.perUnit f.dtag)
  let sn := n / a.perUnit f.stag
  let sp := convSpec f (unitRegs f.stag) sn f.stag (unitRegs f.dtag) (n / d.perUnit f.dtag) f.dtag f.scl (a.narrow || d.narrow) true
  let res := fun (c : Ctx) (t : Nat) => convert a d n (isZeroCode f.a) (c.runVal (32 * unitRegs f.stag) t sn)
    (if f.scl then signed 32 (c.val sn t) else 0) f.rnd f.sat f.ftz (c.s.pod.seed.get t)
  let six : Elem := .flt (if f.sub = 0 then .e3m2 else .e2m3)
  let bf : Elem := .flt .bf16
  let unp := f.dtag == 8
  (f.o6 = false → LaneDoes (.cvt h f) h (fun _ => sp) res) ∧
  (f.o6 = true → LaneDoes (.cvt h f) h
    (fun _ => convSpec f 1 (if unp then 6 else 16) f.stag 1 (if unp then 16 else 6) f.dtag f.scl true true)
    fun c t => convert (if unp then six else bf) (if unp then bf else six) 32 (isZeroCode f.a) (c.runVal 32 t (if unp then 6 else 16))
      (if f.scl then signed 32 (c.val (if unp then 6 else 16) t) else 0) f.rnd f.sat f.ftz (c.s.pod.seed.get t)) ∧
  (LaneDoes (.cvti h f) h (fun _ => sp) res) ∧
  (LaneDoes (.cvtf h f) h (fun _ => sp) res) ∧
  (let e := if f.dtag = 0 then Elem.int (f.stag == 1) 16 else elemOf f.dtag
   LaneDoes (.pack h f) h (fun _ => convSpec f 1 (32 / e.width) f.stag 1 1 f.dtag false e.narrow false)
    fun c t => (List.range (32 / e.width)).foldl (fun (r : LaneRes) i =>
      let y := packInt e f.sat (packSrc (elemOf f.stag) (c.val i t))
      { r with val := r.val + y.1 * 2 ^ (e.width * i), fl := r.fl ||| y.2 }) {}) ∧
  (let e := if f.stag = 0 then Elem.int (f.dtag == 1) 16 else elemOf f.stag
   LaneDoes (.unpk h f) h (fun _ => convSpec f 1 1 f.stag 1 (32 / e.width) f.dtag false e.narrow false)
    fun c t => (List.range (32 / e.width)).foldl (fun (r : LaneRes) i =>
      let v := e.value (bits (c.val 0 t) (e.width * i) e.width)
      { r with val := r.val + wrap 32 (unpkInt v.1) * 2 ^ (32 * i), fl := r.fl ||| v.2 }) {}) ∧
  LaneDoes (.pk6 h f) h (fun _ => convSpec f 1 11 f.stag 4 1 f.dtag f.scl true false) (fun c t =>
    convert (.flt .bf16) (elemOf f.dtag) 21 (isZeroCode f.a) (c.runVal 32 t 11)
      (if f.scl then signed 32 (c.val 11 t) else 0) f.rnd f.sat false (c.s.pod.seed.get t)) ∧
  LaneDoes (.upk6 h f) h (fun _ => convSpec f 4 1 f.stag 1 11 f.dtag false true false) (fun c t =>
    convert (elemOf f.stag) (.flt .bf16) 21 (isZeroCode f.a) (c.val 0 t) 0 0 0 false 0)

/-! ## Dot products, uniform reads and %fl (R201 to R206, R173) -/

/-- R203: DOT2, DOT4, DOT8 and DOTT add the exact products of the elements of A and B to their accumulator and round once. -/
def Obligations.DotProducts : Prop := ∀ (h : Head) (f : FormR),
  let res := fun (s : State) (default : BitVec 5) (scaled intDst : Bool) (c : Ctx) (t : Nat) =>
    let ka := elemOf (dotTag s f.a f.b default).toNat
    dotOne ka (elemOf (dotTag s f.b f.a default).toNat) (isZeroCode f.a) (isZeroCode f.b) (32 / ka.width) (c.val 0 t) (c.val 1 t)
      (c.val 2 t) (if scaled then some (c.val 3 t % 2 ^ 8, c.val 3 t / 2 ^ 8 % 2 ^ 8) else none) intDst (dtRnd f.flags)
      (dtSat f.flags) (c.s.pod.seed.get t)
  let one := fun (i : Instr) (tags : List (BitVec 5)) (default : BitVec 5) (scaled intDst : Bool) (cls : Nat) =>
    LaneDoes i h (fun _ => dotSpec f tags scaled intDst cls) fun c t => res c.s default scaled intDst c t
  one (.dot2 h f) [halfTag (f.flags.getLsbD 5)] (halfTag (f.flags.getLsbD 5)) (f.flags.getLsbD 6) false
    (if f.flags.getLsbD 5 then 14 else 13) ∧
  (f.fam.toNat = 0 → one (.dot4 h f) [9, 10, 11] 9 false false 15) ∧
  (f.fam.toNat = 1 → one (.dot4 h f) [12, 13] 12 false true 16) ∧
  (f.fam.toNat = 2 → one (.dot4 h f) [20] 20 false false 17) ∧
  (2 < f.fam.toNat → one (.dot4 h f) [9, 10, 11] 9 true false 15) ∧
  (f.flags.getLsbD 5 = true → one (.dot8 h f) [15, 16] 15 (f.flags.getLsbD 6) (!f.flags.getLsbD 6) 19) ∧
  (f.flags.getLsbD 5 = false → one (.dot8 h f) [14] 14 (f.flags.getLsbD 6) false 18) ∧
  one (.dott h f) [19] 19 (f.flags.getLsbD 6) (!f.flags.getLsbD 6) 20

/-- R173, R205: KGET writes the register of the thread that B names, or of the lowest active thread with .first, to a k register; CLFL
clears the conditions of %fl that its mask names. -/
def Sys2Proof.Claims.TheUniformReads : Prop := ∀ (h : Head),
  (∀ f : FormR, let n := wRegs f.low
    let from_ := fun (c : Ctx) => if f.low.getLsbD 2 then ((List.range c.s.pod.width).find? fun t => c.act.getLsbD t).getD 0
      else c.val 1 0 % c.s.pod.width
    GatherDoesIf (fun c => c.bad131 0 (from_ c) = false) (.kget h f) h
      (fun _ => { srcs := [{ field := 1, arg := .code f.a, acc := [.v], regs := n },
                           { field := 2, arg := .code f.b, acc := if f.low.getLsbD 2 then [.zero] else uniAcc, uni := true }]
                  dst := some { code := f.dst, acc := [.k], regs := n }, smod := f.smod, mtgt := f.mtgt, pod := true })
      fun c => onceRes c (c.val 0 (from_ c))) ∧
  (∀ f : FormRI, Does (.clfl h f) h
    (fun _ => { srcs := [{ field := 1, acc := uniAcc, uni := true, arg := match f with
                           | .r f => .code f.a
                           | .i f => .imm (immValue 32 f.interp f.imm) }], pod := true, access := false })
    (fun _ => True)
    fun c t => Retires c 0 { c.s with pod := { c.s.pod with fl := c.s.pod.fl &&& ~~~(BitVec.ofNat 6 (c.val 0 0)) } } t)

/-! ## Cross-thread exchange (R207 to R228) -/

/-- R215 to R217: SHFL, PERM and GBCAST give each effective thread the register of another thread, all read at instruction start. -/
def Sys2Proof.Claims.TheExchanges : Prop := ∀ (h : Head),
  (∀ f : FormRI, let n := if f.flags.getLsbD 0 then 2 else 1
    let a := xvSrc 1 f.a n []
    GatherDoes (.shfl h f) h
      (fun s => { gathers [a, { field := 2, arg := f.argB 32, acc := valAcc, tags := [1, 2] }] (vDst f.dst n (s.commonTag [a])) with
        smod := f.smod, mtgt := f.mtgt })
      fun c => c.eff.map fun t =>
        let seg := min (2 ^ f.ty.toNat) c.s.pod.width
        let lo := t - t % seg
        let b := c.val 1 t
        (t, { val := c.val 0 (match bits f.flags.toNat 1 2 with
          | 0 => lo + b % seg
          | 1 => if lo + b ≤ t then t - b else t
          | 2 => if t + b < lo + seg then t + b else t
          | _ => lo + ((t - lo) ^^^ (b % seg))) })) ∧
  (∀ f : FormR, let n := if f.flags.getLsbD 0 then 2 else 1
    let a := xvSrc 1 f.a n []
    GatherDoes (.perm h f) h
      (fun s => gathersR f [a, { field := 2, arg := .code f.b, acc := valAcc, tags := [1, 2] }] (vDst f.dst n (s.commonTag [a])))
      fun c => c.eff.filterMap fun u =>
        ((c.eff.filter fun t => decide (c.val 1 t % c.s.pod.width = u)).getLast?).map fun t => (u, { val := c.val 0 t })) ∧
  (∀ f : FormR, let n := if f.flags.getLsbD 0 then 2 else 1
    let a := xvSrc 1 f.a n []
    GatherDoes (.gbcast h f) h
      (fun s => gathersR f [a, partSrc 2 f.b, { field := 3, arg := .code f.c, acc := uniAcc, uni := true }]
        (vDst f.dst n (s.commonTag [a])))
      fun c => c.eff.map fun t =>
        let g := BitVec.ofNat 128 (c.val 1 0)
        let lo := groupLo g t
        (t, { val := c.val 0 (lo + c.val 2 0 % (groupEnd g (c.s.pod.width - (t + 1)) (t + 1) - lo)) }))

/-- R209: a group runs from the start bit at or below a thread to the next start bit above it. -/
def Sys2Proof.Claims.TheGroupsOfThreads : Prop := ∀ (g : Mask) (w t : Nat), t < w →
  groupLo g t ≤ t ∧ (groupLo g t = 0 ∨ g.getLsbD (groupLo g t) = true) ∧
  (∀ u, groupLo g t < u → u ≤ t → g.getLsbD u = false) ∧
  t < groupEnd g (w - (t + 1)) (t + 1) ∧ groupEnd g (w - (t + 1)) (t + 1) ≤ w ∧
  (∀ u, t < u → u < groupEnd g (w - (t + 1)) (t + 1) → g.getLsbD u = false) ∧
  (groupEnd g (w - (t + 1)) (t + 1) < w → g.getLsbD (groupEnd g (w - (t + 1)) (t + 1)) = true) ∧
  (∀ u, u < w → (groupLo g u = groupLo g t ↔ groupLo g t ≤ u ∧ u < groupEnd g (w - (t + 1)) (t + 1)))

/-- R218 to R221: votes over the effective threads of a group, ballots, matches, and the election of a group's lowest effective thread. -/
def Sys2Proof.Claims.TheVotesAndMatches : Prop := ∀ (h : Head) (f : FormR),
  let mates := fun (c : Ctx) (i t u : Nat) =>
    groupLo (BitVec.ofNat 128 (c.val i 0)) u = groupLo (BitVec.ofNat 128 (c.val i 0)) t
  let voteSpec := gathersR f [predSrc 1 f.a, partSrc 3 f.c] (predDst f.dst)
  let n := if f.flags.getLsbD 0 then 2 else 1
  let all := f.flags.getLsbD 2
  GatherDoes (.votea h f) h (fun _ => voteSpec)
    (fun c => c.eff.map fun t => (t, { pred := decide (∀ u ∈ c.eff, mates c 1 t u → c.val 0 u ≠ 0) })) ∧
  GatherDoes (.voten h f) h (fun _ => voteSpec)
    (fun c => c.eff.map fun t => (t, { pred := decide (∃ u ∈ c.eff, mates c 1 t u ∧ c.val 0 u ≠ 0) })) ∧
  GatherDoes (.ballot h f) h (fun _ => gathersR f [predSrc 1 f.a] { code := f.dst, acc := [.v, .k], tag := 2 })
    (fun c => c.eff.map fun t =>
      let ballot := maskOf (c.eff.filter fun u => decide (c.val 0 u ≠ 0))
      (t, { val := ballot.toNat / 2 ^ (32 * (f.flags.toNat % 4)) % 2 ^ 32 })) ∧
  GatherDoes (.matchOp h f) h (fun _ => gathersR f [xvSrc 1 f.a n []] (if all then predDst f.dst else vDst f.dst 1 2))
    (fun c => c.eff.map fun t => (t, { pred := decide (∀ u ∈ c.eff, ∀ v ∈ c.eff, c.val 0 u = c.val 0 v)
                                       val := (maskOf (c.eff.filter fun u => c.val 0 u = c.val 0 t)).toNat % 2 ^ 32 })) ∧
  GatherDoes (.elect h f) h (fun _ => gathersR f [partSrc 1 f.a] (predDst f.dst))
    (fun c => c.eff.map fun t => (t, { pred := decide (∀ u ∈ c.eff, mates c 0 t u → t ≤ u) }))

/-- R222 to R224: PART starts a group at each effective thread whose key differs from that of the effective thread before it, GMASK builds
and combines start masks, and AMASK reads the active threads. -/
def Sys2Proof.Claims.TheGroupMasks : Prop := ∀ (h : Head),
  (∀ f : FormR, let n := if f.flags.getLsbD 0 then 2 else 1
    GatherDoes (.part h f) h (fun _ => gathersR f [xvSrc 1 f.a n []] (gDst f.dst))
      fun c => onceRes c (maskOf (c.eff.filter fun t => match (c.eff.filter fun u => decide (u < t)).getLast? with
        | none => true
        | some u => decide (c.val 0 u ≠ c.val 0 t))).toNat) ∧
  (∀ f : FormRI, let op := f.low.toNat
    let uniform := decide (op < 2)
    GatherDoes (.gmask h f) h
      (fun s => { srcs := [{ partSrc 1 f.a with acc := if uniform then [.zero] else [.g, .zero] },
                           if uniform then { field := 2, arg := f.argB 32, acc := uniAcc, uni := true }
                           else { field := 2, arg := f.argB 32, acc := [.g, .zero] }]
                  dst := some (gDst f.dst), smod := f.smod, mtgt := f.mtgt, pod := true
                  bad := (match f with
                    | .i _ => !uniform
                    | .r _ => false) || (op == 0 && !([2, 4, 8, 16, 32, 64, 128].contains (s.argVal (f.argB 32)))) })
      fun c => onceRes c (match op with
        | 0 => (maskOf ((List.range c.s.pod.width).filter fun t => t % c.val 1 0 = 0)).toNat
        | 1 => c.val 1 0 % 2 ^ 32
        | 2 => c.val 0 0 &&& c.val 1 0
        | 3 => c.val 0 0 ||| c.val 1 0
        | 4 => c.val 0 0 ^^^ c.val 1 0
        | _ => c.val 0 0 &&& (2 ^ 128 - 1 - c.val 1 0 % 2 ^ 128))) ∧
  (∀ f : FormR, GatherDoes (.amask h f) h (fun _ => { dst := some (gDst f.dst), smod := f.smod, mtgt := f.mtgt, pod := true })
    fun c => onceRes c c.act.toNat)

/-- R225 to R227: GRED gives each effective thread the reduction of its group's effective threads, GSCAN that of those up to it (below it
with .excl), in ascending thread order; a k destination receives the one result of its single group. -/
def Sys2Proof.Claims.TheGroupReductions : Prop := ∀ (h : Head) (f : FormQ),
  let mates := fun (c : Ctx) (t u : Nat) => decide (groupLo (BitVec.ofNat 128 (c.val 1 0)) u = groupLo (BitVec.ofNat 128 (c.val 1 0)) t)
  GatherDoes (.gred h f) h
    (fun _ => { gathers [xvSrc 1 f.a f.redRegs [f.redTag], partSrc 2 f.b]
                  { code := f.dst, acc := [.v, .k], regs := f.redRegs, tag := f.redTag } with
                cls := f.redCls, bad := isK f.dst && f.b != 1023 })
    (fun c => (if isK f.dst then c.eff.take 1 else c.eff).map fun t =>
      (t, f.reduce (c.s.pod.seed.get t) ((c.eff.filter (mates c t)).map (c.val 0)))) ∧
  GatherDoes (.gscan h f) h
    (fun _ => { gathers [xvSrc 1 f.a f.redRegs [f.redTag], partSrc 2 f.b] (vDst f.dst f.redRegs f.redTag) with cls := f.redCls })
    (fun c => c.eff.map fun t => (t, f.reduce (c.s.pod.seed.get t)
      ((c.eff.filter fun u => mates c t u && (if f.excl then decide (u < t) else decide (u ≤ t))).map (c.val 0))))

/-- R226: an integer reduction folds its contributions exactly and fits the result once; the empty reduction is the operation's identity. -/
def Sys2Proof.Claims.TheIntegerReductions : Prop := ∀ (ty : BitVec 3) (xs : List Nat),
  let w := tyWidth ty
  let vs := xs.map (getInt ty)
  (redInt 0 ty 0 xs).val = wrap w vs.sum ∧ (redInt 0 ty 0 xs).fl = 0 ∧
  (redInt 0 ty 1 xs).val = wrap w (max (tyRange ty).1 (min (tyRange ty).2 vs.sum)) ∧
  ((redInt 0 ty 1 xs).fl = if (tyRange ty).1 ≤ vs.sum ∧ vs.sum ≤ (tyRange ty).2 then 0 else condSat) ∧
  (∀ x ∈ vs, vs.foldl min (tyRange ty).2 ≤ x ∧ x ≤ vs.foldl max (tyRange ty).1) ∧
  (redInt 1 ty 0 xs).val = wrap w (vs.foldl min (tyRange ty).2) ∧ (redInt 2 ty 0 xs).val = wrap w (vs.foldl max (tyRange ty).1) ∧
  (∀ i, bit (redInt 3 ty 0 xs).val i = (decide (i < w) && xs.all fun x => bit x i)) ∧
  (∀ i, bit (redInt 4 ty 0 xs).val i = xs.any fun x => bit x i) ∧
  (∀ i, bit (redInt 5 ty 0 xs).val i = decide ((xs.filter fun x => bit x i).length % 2 = 1))

/-- R228: GSORT gives the effective threads of each group, in ascending order, the keys of the group sorted by the type's order, and in the
second register of each the payload that stood beside its key (the thread number for the zero code). -/
def Sys2Proof.Claims.TheGroupSort : Prop := ∀ (h : Head) (f : FormQ) (s : State),
  let ty := bits f.desc.toNat 9 3
  let tag : BitVec 5 := if ty = 0 then 1 else if ty = 1 then 2 else 3
  let b := xvSrc 2 f.b 1 []
  let zeroB := (classOf f.b).1 == .zero
  let sp := gathers [xvSrc 1 f.a 1 [tag], b, partSrc 3 f.c] (vDst f.dst 2 tag)
  let c := issueCtx s h sp
  let r := (classOf f.dst).2
  Ready (.gsort h f) h sp s → ∃ t, exec (.gsort h f) s = .next t ∧
    (∀ lo, let e := c.eff.filter fun u => decide (groupLo (BitVec.ofNat 128 (c.val 2 0)) u = lo)
      let le := fun x y =>
        if bit f.desc.toNat 8 then decide (sortKey ty (c.val 0 y) ≤ sortKey ty (c.val 0 x))
        else decide (sortKey ty (c.val 0 x) ≤ sortKey ty (c.val 0 y))
      ∃ order : List Nat, order.Perm e ∧ order.Pairwise (fun x y => le x y = true ∧ (le y x = true → x < y)) ∧
        ∀ i, i < e.length → t.pod.rdRun (e.getD i 0) r 2 =
          (c.val 0 (order.getD i 0) + 2 ^ 32 * (if zeroB then order.getD i 0 else c.val 1 (order.getD i 0))) % 2 ^ 64) ∧
    t.pod.tagOf r = tag ∧ t.pod.tagOf (r + 1) = (if zeroB then 2 else s.commonTag [b]) ∧
    KeptRegs c 0 c.eff [] t ∧ Conditions c [] t ∧ Framed c t

/-! ## Control and system instructions (R233 to R253) -/

namespace Sys2Proof.Claims

open Machine

/-- A pod with other registers of the issuing pod in place. -/
def withPod (s : State) (p : Pod) : State := { s with pod := p }

/-- The context of a call, whose destination is its link. -/
def linkCtx (c : Ctx) (link : Code) : Ctx := { c with sp := { c.sp with dst := some (linkDst link) } }

/-- What a call leaves in its link (R236): the address after it. -/
def linkRes (c : Ctx) : List (Nat × LaneRes) := c.eff.map fun t => (t, { val := (c.this + 12).toNat })

/-- A call completes: the link is written, nothing else is but the control state, and the effective threads enter at `ts` (R236). -/
structure Calls (c : Ctx) (link : Code) (ts : List (Nat × Dword)) (t : State) : Prop where
  state : Retires c c.mask ((c.s.link c (linkDst link)).setPod ((c.s.link c (linkDst link)).pod.callTo ts)) t
  wrote : Wrote (linkCtx c link) 0 (linkRes c) t
  kept : KeptRegs (linkCtx c link) 0 c.eff [] t
  rest : t.team = c.s.team ∧ t.pods = c.s.pods ∧ t.teams = c.s.teams ∧ (∀ a, t.rdByte a = c.s.rdByte a)

end Sys2Proof.Claims

/-- R236: a branch sends the threads of its list to their targets and leaves every other thread and every depth as it was; a call adds one
to their depth and a return takes one away; a move of a set sends its threads to one address. -/
def Sys2Proof.Claims.TheThreadMoves : Prop := ∀ (p : Pod) (this : Dword) (d : Nat) (ts : List (Nat × Dword)) (m : Mask) (pc : Dword) (t : Nat),
  t < 128 → (∀ x ∈ ts, x.1 < 128) →
  let hit := ts.any fun x => x.1 == t
  let old := p.ctl[t]?
  ((p.branch this d ts).ctl[t]? = old.map fun c => if hit then { c with pc := look c.pc ts t } else c) ∧
  ((p.callTo ts).ctl[t]? = old.map fun c => if hit then ⟨look c.pc ts t, c.depth + 1⟩ else c) ∧
  ((p.retTo ts).ctl[t]? = old.map fun c => if hit then ⟨look c.pc ts t, c.depth - 1⟩ else c) ∧
  ((p.goto m pc).ctl[t]? = old.map fun c => if m.getLsbD t then { c with pc := pc } else c) ∧
  (p.callTo ts).loopStack = p.loopStack ∧ (p.retTo ts).loopStack = p.loopStack ∧ (p.goto m pc).loopStack = p.loopStack ∧
  (∃ n, (p.branch this d ts).loopStack = p.loopStack.drop n)

/-- R41: the active threads are the live threads with the greatest call depth and, among those, the lowest program counter. -/
def Sys2Proof.Claims.TheFrontier : Prop := ∀ (p : Pod) (t : Nat), p.ctl.length ≤ 128 →
  (p.active.getLsbD t = true ↔ ∃ c, p.ctl[t]? = some c ∧ p.live.getLsbD t = true ∧ c.pc = p.pc ∧ c.depth = p.depth ∧
    ∀ u e, p.ctl[u]? = some e → p.live.getLsbD u = true → e.depth < c.depth ∨ e.depth = c.depth ∧ c.pc.toNat ≤ e.pc.toNat)

/-- R233, R236: NOP only retires; BRA and BRX move the effective threads to their targets; a BRX whose target is no multiple of 12 raises
PC_MISALIGN. -/
def Sys2Proof.Claims.TheBranches : Prop := ∀ (h : Head),
  (∀ f, Does (.nop h f) h (fun _ => {}) (fun _ => True) fun c t => Retires c 0 c.s t) ∧
  (∀ f : FormB, Does (.bra h f) h (fun _ => {}) (fun _ => True) fun c t =>
    Retires c c.mask (withPod c.s (c.s.pod.branch c.this c.s.pod.depth
      (c.eff.map fun t => (t, c.this + BitVec.ofInt 64 (12 * f.boff.toInt))))) t) ∧
  (∀ f : FormB, Does (.brx h f) h (fun _ => { srcs := [tgtSrc f.a] })
    (fun c => ∀ t ∈ c.eff, (BitVec.ofNat 64 (c.val 0 t)).toNat % 12 = 0) fun c t =>
    Retires c c.mask (withPod c.s (c.s.pod.branch c.this c.s.pod.depth (c.eff.map fun t => (t, BitVec.ofNat 64 (c.val 0 t))))) t) ∧
  (∀ f : FormB, Traps (.brx h f) h (fun _ => { srcs := [tgtSrc f.a] })
    (fun c => ∃ t ∈ c.eff, (BitVec.ofNat 64 (c.val 0 t)).toNat % 12 ≠ 0) fun c => c.s.pod.before .pcMisalign 0 0 0)

/-- R236: CALL and CALLX write the address after the call to their link, enter at their targets and add one to the depth; RET goes to its
targets and takes one from the depth. Beyond depth 255, and below 0, they raise ILLEGAL_OP; a target that is no multiple of 12 raises
PC_MISALIGN. -/
def Sys2Proof.Claims.TheCallsAndReturns : Prop := ∀ (h : Head) (f : FormB),
  let straight := fun c : Ctx => ∀ t ∈ c.eff, (BitVec.ofNat 64 (c.val 0 t)).toNat % 12 = 0
  let bent := fun c : Ctx => ∃ t ∈ c.eff, (BitVec.ofNat 64 (c.val 0 t)).toNat % 12 ≠ 0
  let targets := fun c : Ctx => c.eff.map fun t => (t, BitVec.ofNat 64 (c.val 0 t))
  let free := fun c : Ctx => ∀ r, classOf f.link = (.v, r) → c.s.accHolds c.s.pod.id r 2 = false
  let callx := fun s : State => { s.callSpec h f with srcs := [tgtSrc f.a] }
  let ret := fun s : State => ({ srcs := [tgtSrc f.a], late := if s.pod.depth = 0 then some (.illegalOp, 0, 0) else none } : Spec)
  (∀ s : State, (s.callSpec h f).bad = (!s.dstOk (linkDst f.link) || guardBad (isK f.link) h) ∧
    ((s.callSpec h f).late = none ↔ s.pod.depth ≠ 255)) ∧
  Does (.call h f) h (fun s => s.callSpec h f) (fun c => c.txThreads = [] ∧ free c) (fun c t =>
    Calls c f.link (c.eff.map fun t => (t, c.this + BitVec.ofInt 64 (12 * f.boff.toInt))) t) ∧
  Does (.callx h f) h callx (fun c => c.txThreads = [] ∧ straight c ∧ free c) (fun c t => Calls c f.link (targets c) t) ∧
  Does (.ret h f) h ret (fun c => c.txThreads = [] ∧ straight c) (fun c t =>
    Retires c c.mask (withPod c.s (c.s.pod.retTo (targets c))) t) ∧
  StopsLate (.call h f) h (fun s => s.callSpec h f) (fun s => s.pod.depth = 255) .illegalOp ∧
  StopsLate (.callx h f) h callx (fun s => s.pod.depth = 255) .illegalOp ∧
  StopsLate (.ret h f) h ret (fun s => s.pod.depth = 0) .illegalOp ∧
  Traps (.callx h f) h callx (fun c => c.txThreads = [] ∧ bent c) (fun c => c.s.pod.before .pcMisalign 0 0 0) ∧
  Traps (.ret h f) h ret (fun c => c.txThreads = [] ∧ bent c) (fun c => c.s.pod.before .pcMisalign 0 0 0)

/-- R239, R241: LOOP opens a loop of its count over the instructions up to its end, or passes over it when the count is 0; with four loops
open, or at the end of the innermost of its depth, it raises ILLEGAL_OP. LEAVE takes its threads past the end of the innermost loop of their
depth, and without one raises ILLEGAL_OP. -/
def Sys2Proof.Claims.TheLoopsOpenAndLeave : Prop := ∀ (h : Head) (f : FormB),
  let imm := f.flags.getLsbD 0
  let sp := fun s : State => ({ pod := true, late := s.pod.loopLate
                                srcs := if imm then [] else [{ field := 5, arg := .code f.link, acc := uniAcc, uni := true }] } : Spec)
  let count := fun c : Ctx => if imm then f.a.setWidth 32 else BitVec.ofNat 32 (c.val 0 0)
  let last := fun c : Ctx => c.this + BitVec.ofInt 64 (12 * f.boff.toInt)
  let mine := fun p : Pod => p.loopStack.find? fun x => decide (x.depth = p.depth)
  let open_ := fun p : Pod => p.loopStack.length < 4 ∧ ∀ e, mine p = some e → e.last ≠ p.pc
  let leave := fun s : State => ({ late := if (mine s.pod).isNone then some (.illegalOp, 0, 0) else none } : Spec)
  (∀ p : Pod, p.loopLate = none ↔ open_ p) ∧
  Does (.loop h f) h sp (fun c => c.txThreads = [] ∧ count c ≠ 0) (fun c t =>
    Retires c 0 (withPod c.s (c.s.pod.setLoops (⟨c.this + 12, last c, count c, c.s.pod.depth⟩ :: c.s.pod.loopStack))) t) ∧
  Does (.loop h f) h sp (fun c => c.txThreads = [] ∧ count c = 0) (fun c t =>
    Retires c c.act (withPod c.s (c.s.pod.goto c.act (last c + 12))) t) ∧
  StopsLate (.loop h f) h sp (fun s => ¬open_ s.pod) .illegalOp ∧
  (∀ g : FormB, ∀ e, Does (.leave h g) h leave (fun c => mine c.s.pod = some e) (fun c t =>
    Retires c c.mask (withPod c.s (c.s.pod.goto c.mask (e.last + 12))) t)) ∧
  (∀ g : FormB, StopsLate (.leave h g) h leave (fun s => ∀ x ∈ s.pod.loopStack, x.depth ≠ s.pod.depth) .illegalOp)

/-- R240: at the end of the innermost loop that matches address and depth, the threads that are left go back to its start while passes
remain, its count one less; with its last pass it is popped with those above it, and a new top one that matches goes on; with no match nothing
changes. -/
def Sys2Proof.Claims.TheBackEdges : Prop := ∀ (this : Dword) (d : Nat) (e : LoopEntry) (above l : List LoopEntry),
  let meets := fun x : LoopEntry => x.last = this ∧ x.depth = d
  (∀ x ∈ above, ¬meets x) → meets e →
    (e.count ≠ 1 → backEdge this d (above ++ e :: l) = (above ++ { e with count := e.count - 1 } :: l, some e.start)) ∧
    (e.count = 1 → (∀ x ∈ l.head?, ¬meets x) → backEdge this d (above ++ e :: l) = (l, none)) ∧
    (e.count = 1 → (∃ x ∈ l.head?, meets x) → backEdge this d (above ++ e :: l) = backEdge this d l) ∧
    backEdge this d above = (above, none)

/-- R243: EXIT marks its threads exited. The last of the pod also need every operation of the pod complete: then it reads the handles. -/
def Sys2Proof.Claims.TheExit : Prop := ∀ (h : Head) (f : FormR),
  let last := fun c : Ctx => full c.s.pod.width &&& ~~~(c.s.pod.exited ||| c.mask) = 0
  let done := fun c : Ctx => (∀ d ∈ c.s.pod.deferred, d.op.isSome = true) ∧ c.s.copying = false ∧ c.s.pod.pend = [] ∧
    ∀ x ∈ c.s.ownHandles, ∃ o, c.s.opOf x.2 = some o ∧ o.state = .complete
  let read := fun s : State => s.ownHandles.foldl (fun u x => u.onOp x.2.toNat fun o => { o with seen := true }) s
  Does (.exitT h f) h (fun _ => {}) (fun c => ¬last c) (fun c t =>
    Retires c c.mask (withPod c.s { c.s.pod with exited := c.s.pod.exited ||| c.mask }) t) ∧
  Does (.exitT h f) h (fun _ => {}) (fun c => last c ∧ done c) (fun c t =>
    Retires c c.mask (withPod (read c.s) { c.s.pod with exited := c.s.pod.exited ||| c.mask }) t)

/-- R44, R244: PHASE and SYNC need every thread of the pod that has not exited, at user level. PHASE then waits for the end of the phase.
SYNC passes once every pod of the team that is not done has reached its instance, with the pod's own loads and reductions performed, and
waits until then. -/
def Sys2Proof.Claims.TheBarriers : Prop := ∀ (h : Head) (f : FormR),
  let whole := fun p : Pod => p.trapLevel = false ∧ p.active = full p.width &&& ~~~p.exited
  let free := fun p : Pod => p.depth = 0 ∧ p.loops = [] ∧ ∀ x ∈ p.tx, x.inTx = false
  let ready := fun p : Pod => p.depth == 0 && p.loops.isEmpty && !p.tx.any fun x => x.inTx
  let phase := fun s : State => ({ pod := true, late := s.pod.lateUnless (ready s.pod) } : Spec)
  let sync := fun s : State => ({ pod := true, late := s.pod.lateUnless true } : Spec)
  let done := fun c : Ctx => (∀ d ∈ c.s.pod.deferred, d.op.isSome = true) ∧ c.s.copying = false ∧ c.s.pod.pend = [] ∧
    c.s.ownHandles = []
  let all := fun c : Ctx => ∀ q ∈ c.s.podsOf c.s.pod.id.team, q.id = c.s.pod.id ∨ q.done = true ∨
    q.arrived = true ∧ q.syncDone = c.s.pod.syncDone
  let performed := fun c : Ctx => c.s.pod.arrived = true ∨ c.s.pod.loading = false ∧ c.s.redsAway c.s.pod.id.team = false
  Waits (.phase h f) h phase (fun _ => .phase) done
    (fun c => { c.s with pod := { c.s.pod with phased := true }, progress := c.s.progress + 1 }) ∧
  (∀ p : Pod, p.lateUnless (ready p) = none ↔ whole p ∧ free p) ∧ (∀ p : Pod, p.lateUnless true = none ↔ whole p) ∧
  StopsLate (.phase h f) h phase (fun s => ¬(whole s.pod ∧ free s.pod)) .illegalOp ∧
  Does (.sync h f) h sync (fun c => performed c ∧ c.s.pod.syncDone < c.s.team.syncN) (fun c t =>
    Retires c 0 (withPod c.s { c.s.pod with syncDone := c.s.pod.syncDone + 1, arrived := false }) t) ∧
  Does (.sync h f) h sync (fun c => performed c ∧ ¬c.s.pod.syncDone < c.s.team.syncN ∧ all c) (fun c t =>
    Retires c 0 { c.s with pod := { c.s.pod with syncDone := c.s.pod.syncDone + 1, arrived := false }
                           team := { c.s.team with syncN := c.s.team.syncN + 1 } } t) ∧
  Waits (.sync h f) h sync (fun _ => .sync)
    (fun c => performed c ∧ ¬c.s.pod.syncDone < c.s.team.syncN ∧ ¬all c ∧ c.s.pod.arrived = false)
    (fun c => { c.s with pod := { c.s.pod with arrived := true }, progress := c.s.progress + 1 }) ∧
  Waits (.sync h f) h sync (fun _ => .time) (fun c => ¬performed c) (fun c => c.s) ∧
  StopsLate (.sync h f) h sync (fun s => ¬whole s.pod) .illegalOp

/-- R245: YIELD gives way; SLEEP and HOLDT pass at the end of their time and wait until then; WAITF writes the flags of its mask that are
clear once one of them is (every one without .any), or at the end of its time. -/
def Obligations.Waiting : Prop := ∀ (h : Head),
  (∀ f, Does (.yield h f) h (fun _ => { pod := true }) (fun _ => True) fun c t =>
    Retires c 0 (c.s.swapOut c.s.pod.id (c.s.team.coreOf c.s.pod.id)) t) ∧
  (∀ f : FormI, Does (.sleep h f) h (fun _ => { pod := true }) (fun c => f.imm = 0 ∨ c.s.pod.ended .sleep = true) fun c t =>
    Retires c 0 c.s t) ∧
  (∀ f : FormI, Waits (.sleep h f) h (fun _ => { pod := true }) (fun _ => .sleep)
    (fun c => f.imm ≠ 0 ∧ c.s.pod.wait = none)
    fun c => withPod c.s { c.s.pod with wait := some ⟨.sleep, c.s.cycle, some (c.s.cycle + f.imm.toNat), c.s.progress⟩ }) ∧
  (∀ f : FormI, let sp : Spec := { pod := true, srcs := [{ field := 1, arg := .code f.a, acc := [.k], regs := 2 }] }
    let due := fun c : Ctx => ((c.val 0 0 : Nat) : Int) + f.imm.toInt
    Does (.holdt h f) h (fun _ => sp) (fun c => due c ≤ (c.s.time.toNat : Nat) ∨ c.s.pod.ended .holdt = true)
      (fun c t => Retires c 0 c.s t) ∧
    Waits (.holdt h f) h (fun _ => sp) (fun _ => .holdt) (fun c => ((c.s.time.toNat : Nat) : Int) < due c ∧ c.s.pod.wait = none)
      fun c => withPod c.s { c.s.pod with wait := some ⟨.holdt, c.s.cycle, some (due c).toNat, c.s.progress⟩ }) ∧
  (∀ f : FormRI,
    let sp : Spec := { pod := true, dst := some (kDst f.dst), srcs := [uniSrc 1 (.code f.a), uniSrc 2 (f.argB 32)] }
    let mask := fun c : Ctx => BitVec.ofNat 12 (c.val 1 0)
    let clear := fun c : Ctx => mask c &&& ~~~c.s.pod.flagMask
    let met := fun c : Ctx => mask c = 0 ∨ if f.flags.getLsbD 0 then clear c ≠ 0 else clear c = mask c
    GatherDoesIf (fun c => c.s.pod.dueFaults (mask c) = [] ∧ (met c ∨ c.s.pod.ended .waitf = true ∧ f.flags.getLsbD 1 = false))
      (.waitf h f) h (fun _ => sp) (fun c => onceRes c (clear c).toNat) ∧
    Traps (.waitf h f) h (fun _ => sp)
      (fun c => c.s.pod.dueFaults (mask c) = [] ∧ ¬met c ∧ c.s.pod.ended .waitf = true ∧ f.flags.getLsbD 1 = true)
      (fun c => c.s.pod.before .timeout 0 0 0))

/-- R247: TRAP and BRK stop at the lowest effective thread, for every effective thread, with TRAP_INSTR, LINK_STUB or BREAKPOINT, and
give their immediate as TARG. -/
def Sys2Proof.Claims.TheTrapInstructions : Prop := ∀ (h : Head) (f : FormI),
  Traps (.trap h f) h (fun _ => {}) (fun _ => True) (fun c =>
    { causes := [if f.flags.getLsbD 0 then .linkStub else .trapInstr], pc := c.s.pod.pc, tix := c.eff.headD 0, mask := c.mask, atK := true
      field := 0, arg := f.imm, addr := 0 }) ∧
  Traps (.brk h f) h (fun _ => {}) (fun _ => True) (fun c =>
    { causes := [.breakpoint], pc := c.s.pod.pc, tix := c.eff.headD 0, mask := c.mask, atK := true, field := 0, arg := f.imm, addr := 0 })

/-- R248, R268: with no cause left, RTT leaves trap level and resumes the threads that stood active at user level at %tpc, or after it
with .skip; with a cause left it enters the trap again; outside trap level it raises ILLEGAL_OP, and PC_MISALIGN where %tpc is no multiple of
12. -/
def Sys2Proof.Claims.TheReturnFromTrap : Prop := ∀ (h : Head) (f : FormR),
  let sp := fun s : State => ({ pod := true
                                late := if !s.pod.trapLevel then some (.illegalOp, 0, 0)
                                  else if s.pod.tpc.toNat % 12 ≠ 0 then some (.pcMisalign, 0, 0) else none } : Spec)
  let user := fun p : Pod => { p with trapLevel := false, handlers := 0, trap := [], trapLoops := [], bank := [], inside := false }
  (∀ s, let c := issueCtx s h (sp s)
    let u := user c.s.pod
    Ready (.rtt h f) h (sp s) s → (∀ i, i < 64 → c.s.pod.cause.getLsbD i = false) →
      ∃ t, exec (.rtt h f) s = .next t ∧
        t = { c.s with pod := t.pod, progress := c.s.progress + 1, ecnt := t.ecnt, free := t.free } ∧ Counted s c.s t ∧
        t.pod = if f.flags.getLsbD 0 then { u.goto u.active (c.s.pod.tpc + 12) with resumeAt := none }.popEmpty.leaveTx
                else (u.goto u.active c.s.pod.tpc).stopAt c.s.pod.tpc c.s.pod.tix) ∧
  (∀ s, let c := issueCtx s h (sp s)
    let again := (withPod c.s (user c.s.pod)).enterTrap ((user c.s.pod).reenter
      (((List.range 64).filter fun i => c.s.pod.cause.getLsbD i).map causeOfBit) c.s.tick)
    Ready (.rtt h f) h (sp s) s → c.s.pod.cause ≠ 0 → again.pod.stepping = false → again.pod.halted = false →
      ∃ t, exec (.rtt h f) s = .next t ∧ t = { again with ecnt := t.ecnt, free := t.free } ∧ Counted s again t) ∧
  StopsLate (.rtt h f) h sp (fun s => s.pod.trapLevel = false) .illegalOp ∧
  StopsLate (.rtt h f) h sp (fun s => s.pod.trapLevel = true ∧ s.pod.tpc.toNat % 12 ≠ 0) .pcMisalign

/-- R249: CLRC clears the causes of its mask but for bits 31 to 47; SETC sets those of its mask, and at user level the new ones raise
their traps at the boundary after it. -/
def Sys2Proof.Claims.TheCauseRegister : Prop := ∀ (h : Head) (f : FormRI),
  let sp : Spec := { pod := true, srcs := [maskSrc f] }
  let setSp := fun s : State => { sp with
    bad := s.maskVal f &&& 0x0000_FFFF_8000_0000 != 0, priv := !s.pod.trapLevel && s.maskVal f &&& 0x7FFF_FFFF != 0 }
  let mask := fun c : Ctx => BitVec.ofNat 64 (c.val 0 0)
  Does (.clrc h f) h (fun _ => sp) (fun _ => True) (fun c t =>
    let m := mask c &&& ~~~(0x0000_FFFF_8000_0000 : Dword)
    Retires c 0 (withPod c.s { c.s.pod with
      cause := c.s.pod.cause &&& ~~~m, reasons := c.s.pod.reasons.filter fun r => r.causes.any fun x => !m.getLsbD x.bit }) t) ∧
  Does (.setc h f) h setSp (fun c => c.s.pod.trapLevel = true ∨ mask c &&& ~~~c.s.pod.cause = 0) (fun c t =>
    Retires c 0 (withPod c.s { c.s.pod with cause := c.s.pod.cause ||| mask c }) t) ∧
  (∀ s, let c := issueCtx s h (setSp s)
    let set := withPod c.s { c.s.pod with cause := c.s.pod.cause ||| mask c }
    let after := set.complete c.this c.s.pod.depth c.act 0
    let new := mask c &&& ~~~c.s.pod.cause
    Ready (.setc h f) h (setSp s) s → c.s.pod.trapLevel = false → new ≠ 0 → ∃ t, exec (.setc h f) s = .next t ∧
      (let up := after.raise { (after.pod.before .illegalOp 0 0 0) with
        causes := ((List.range 64).filter fun i => new.getLsbD i).map causeOfBit }
       t = { up with ecnt := t.ecnt, free := t.free } ∧ Counted s up t))

/-- R114, R251 to R253: WRSR writes %tix, %tpc, %seed and %prio; TIME reads the time; PRIO exchanges the priority. -/
def Sys2Proof.Claims.TheSpecialRegisters : Prop := ∀ (h : Head),
  (∀ f : FormRI,
    let r := (classOf f.dst).2
    let fromV := match f.argB 32 with
      | .code c => (classOf c).1 == .v
      | .imm _ => false
    let sp := fun s : State => ({ srcs := [wrsrSrc f], smod := f.smod, mtgt := f.mtgt
                                  bad := (classOf f.dst).1 != .special || !([22, 23, 26, 27].contains r) || (fromV && r != 26) ||
                                    guardBad true h
                                  priv := !s.pod.trapLevel && (r == 22 || r == 23) } : Spec)
    let x := fun c : Ctx => c.val 0 (c.eff.getLastD 0)
    let tpc := fun c : Ctx => (c.s.pod.tpc &&& 0xFFFF_FFFF_0000_0000) ||| BitVec.ofNat 64 (x c % 2 ^ 32)
    (r = 22 → Does (.wrsr h f) h sp (fun _ => True) fun c t =>
      Retires c 0 (withPod c.s { c.s.pod with tix := min (x c % 2 ^ 32) (c.s.pod.width - 1) }) t) ∧
    (r = 23 → Does (.wrsr h f) h sp (fun c => (tpc c).toNat % 12 = 0) fun c t =>
      Retires c 0 (withPod c.s { c.s.pod with tpc := tpc c }) t) ∧
    (r = 26 → Does (.wrsr h f) h sp (fun _ => True) fun c t =>
      Retires c 0 (withPod c.s { c.s.pod with seed := (c.s.pod.setSeeds (c.eff.map fun t => (t, c.val 0 t))).seed }) t ∧
      ∀ u ∈ c.eff, t.pod.seed.get u = if BitVec.ofNat 32 (c.val 0 u) = 0 then 1 else BitVec.ofNat 32 (c.val 0 u)) ∧
    (r = 27 → Does (.wrsr h f) h sp (fun _ => True) fun c t =>
      Retires c 0 (withPod c.s { c.s.pod with prio := BitVec.ofNat 2 (min (x c) c.s.pod.prioMax.toNat) }) t)) ∧
  (∀ f : FormR, ∀ s, let sp : Spec := { dst := some { code := f.dst, acc := [.v, .k], regs := 2, tag := 6 } }
    let c := issueCtx s h sp
    Ready (.time h f) h sp s → Fed c → (f.flags.getLsbD 0 = true → c.s.pod.pend = [] ∧ c.s.redsAway c.s.pod.id.team = false ∧
      ∀ o ∈ c.s.ops, o.pod = c.s.pod.id → o.state ≠ .running) → ∃ t, exec (.time h f) s = .next t ∧
      LaneEffect c (results c fun _ => { val := s.time.toNat }) [] (fun _ _ => false) t) ∧
  (∀ f : FormRI, Does (.prio h f) h (fun _ => { pod := true, dst := some (kDst f.dst), srcs := [uniSrc 2 (f.argB 32)] })
    (fun _ => True) fun c t =>
      Retires c 0 (withPod (c.put c.s.pod.prio.toNat c.s) { (c.put c.s.pod.prio.toNat c.s).pod with
        prio := BitVec.ofNat 2 (min (c.val 0 0) c.s.pod.prioMax.toNat) }) t ∧
      Wrote c 0 (onceRes c c.s.pod.prio.toNat) t ∧ KeptRegs c 0 [] [] t)

/-! ## Traps and checks (R38, R84, R85, R260 to R272) -/

/-- R84, R85, R266: an instruction without a wait or a due fault that fails a whole-pod check, or a check of its own after them, has no
effect but its trap, and one of whose sources is uncorrectable raises MEM_UNCORRECTABLE (R311); one that fails none and has no effective
thread only retires (R32, R33); a word with no instruction raises ILLEGAL_OP. -/
def Sys2Proof.Claims.TheFailedChecksTrap : Prop :=
  (∀ (i : Instr) (h : Head) (sp : Spec) (body : Ctx → Eff) (s : State), s.pod.waitsOn h = false → s.pod.dueFaults h.wait = [] →
    (∀ x n, s.podCheck i h sp = some (x, n) → issue i h sp body s = .next (s.begin.raise (s.pod.before x n 0 0))) ∧
    (s.podCheck i h sp = none →
      (∀ x n a, sp.late = some (x, n, a) → issue i h sp body s = .next (s.begin.raise (s.pod.before x n 0 a))) ∧
      (sp.late = none → s.readsBad h sp = true → issue i h sp body s = .next (s.begin.raise (s.pod.before .memUncorrectable 0 0 0))) ∧
      (sp.late = none → s.readsBad h sp = false → s.accTouched sp = false → (issueCtx s h sp).eff = [] → sp.arrives = false →
        s.pod.stepping = false → s.pod.halted = false →
        ∃ t, issue i h sp body s = .next t ∧ Retires (issueCtx s h sp) 0 s.begin t))) ∧
  (∀ w s, exec (.unassignedOpcode w) s = .next (s.raise (s.pod.before .illegalOp 0 0 0)))

/-- R85: the whole-pod checks come in one order, and the first that fails gives the cause. -/
def Sys2Proof.Claims.TheCheckOrder : Prop := ∀ (s : State) (i : Instr) (h : Head) (sp : Spec),
  let operands := (sp.srcs.all s.srcOk && (match sp.dst with | none => true | some d => s.dstOk d) && sp.onceOk h && s.modOk sp &&
    !i.badTarget && !s.overlap sp && !sp.bad)
  let slice := match s.pod.id.slice with
    | .execute => sp.exec
    | .access => sp.access
  (s.podCheck i h sp = none → sp.illegal = false ∧ i.badModifier = false ∧ operands = true ∧ sp.priv = false ∧ slice = true ∧
    (∀ k, sp.cls = some k → s.team.kernel.oum.getLsbD k = true) ∧ s.tagFail sp = none) ∧
  (∀ n, s.podCheck i h sp = some (.illegalOperand, n) → operands = false) ∧
  (sp.illegal = false → i.badModifier = false → operands = true → sp.priv = true → s.podCheck i h sp = some (.privilege, 0)) ∧
  (sp.illegal = false → i.badModifier = false → operands = true → sp.priv = false → slice = false →
    s.podCheck i h sp = some (.sliceViolation, 0)) ∧
  (∀ k, sp.illegal = false → i.badModifier = false → operands = true → sp.priv = false → slice = true → sp.cls = some k →
    s.team.kernel.oum.getLsbD k = false → s.podCheck i h sp = some (.undeclaredOp, 0)) ∧
  (∀ n, s.podCheck i h sp = some (.formatMismatch, n) → s.tagFail sp = some n)

/-- R264 to R266: a claimed cause of class U or S, raised at user level with no result of the instruction outstanding, sets %cause, %tpc and
%tix and starts the failing threads at the handler's address at trap level, with TDET, TARG and TADDR in the trap bank; nothing outside the pod
changes. -/
def Sys2Proof.Claims.TheTrapEntry : Prop := ∀ (s : State) (r : TrapReq) (x : Cause),
  let vec := s.team.kernel.vector x
  r.causes = [x] → s.pod.trapLevel = false → (∀ d ∈ s.pod.pend, d.serial ≠ s.pod.serial) →
  (∀ o ∈ s.ops, o.pod = s.pod.id → o.serial = s.pod.serial → o.state ≠ .running) →
  s.team.kernel.claims s.pod.id.slice x = true → vec.toNat % 12 = 0 → x ≠ .undeclaredOp → s.pod.halted = false →
  let t := s.raise r
  t = { s with pod := t.pod, progress := s.progress + 1 } ∧ t.pod.trapLevel = true ∧ t.pod.handlers = r.mask ∧
  t.pod.cause = s.pod.cause ||| BitVec.ofNat 64 (2 ^ x.bit) ∧ t.pod.tpc = r.pc ∧ t.pod.tix = r.tix ∧ t.pod.wait = none ∧
  (∀ n, n < s.pod.width → t.pod.trap[n]? = some ⟨vec, 0⟩) ∧ t.pod.trapLoops = [] ∧
  t.pod.rdK 60 = r.det ∧ t.pod.rdK 61 = r.arg ∧ t.pod.rdK 62 = r.addr.setWidth 32 ∧ t.pod.rdK 63 = (r.addr >>> 32).setWidth 32 ∧
  t.pod.v = s.pod.v ∧ t.pod.tags = s.pod.tags ∧ t.pod.k = s.pod.k ∧ t.pod.p = s.pod.p ∧ t.pod.g = s.pod.g ∧ t.pod.user = s.pod.user ∧
  t.pod.loops = s.pod.loops ∧ t.pod.fl = s.pod.fl ∧ t.pod.seed = s.pod.seed

/-- R270, R271: a cause that no handler claims, raised at user level, escalates: the record of the pod joins those that wait for the driver,
in the order of raising; %cause keeps only PREEMPT and DEBUG_HALT, and the team is stopped for its save, or halted for a debug cause. -/
def Sys2Proof.Claims.TheEscalation : Prop := ∀ (s : State) (r : TrapReq) (x : Cause),
  r.causes = [x] → s.pod.trapLevel = false → (∀ d ∈ s.pod.pend, d.serial ≠ s.pod.serial) →
  (∀ o ∈ s.ops, o.pod = s.pod.id → o.serial = s.pod.serial → o.state ≠ .running) → x.cls s.pod.id.slice ≠ .h →
  s.team.kernel.claims s.pod.id.slice x = false → x ≠ .undeclaredOp →
  let t := s.raise r
  (∃ e, t.escPending = insertEsc e s.escPending ∧ e.team = s.pod.id.team ∧ e.bytes.length = 64 ∧ e.when_ = s.tick) ∧
  t.pod.trapLevel = false ∧ t.pod.cause &&& ~~~(BitVec.ofNat 64 (2 ^ 22 + 2 ^ 29)) = 0 ∧ t.mem = s.mem ∧
  (s.pod.tx = [] → t.pod.v = s.pod.v ∧ t.pod.k = s.pod.k) ∧
  (s.team.id = s.pod.id.team → x.cls s.pod.id.slice ≠ .d → t.team.saving.isSome = true) ∧
  (s.team.id = s.pod.id.team → x.cls s.pod.id.slice = .d → t.team.halted = true)

/-! ## Memory (R303 to R310, R343 to R375) -/

namespace Sys2Proof.Claims

open Machine

/-- The pod has not begun to wait inside the instruction: for an acknowledgement, or for data of a peer that a check awaits. -/
def Fresh (c : Ctx) : Prop := c.s.pod.lingers = false ∧ ∀ x ∈ c.s.pod.pend, x.kind ≠ .check

/-- Nothing keeps the threads of a memory instruction from acting: none is in a transaction, and the pod does not wait inside it. -/
def AtRest (c : Ctx) : Prop := c.txThreads = [] ∧ Fresh c

/-- Nothing that the team has sent keeps a store from reaching its place: no serial transaction is open, the irrevocable bit is set, the
stash holds lines of this package only, no entry of the remote combining buffers is the team's, and no load of the pod is on its way to a
peer. -/
structure Calm (c : Ctx) : Prop where
  rest : Fresh c
  unlocked : c.s.serial = none
  irrevocable : ∀ t ∈ c.s.allTeams, t.id = c.s.pod.id.team → t.irrev = true
  here : ∀ t ∈ c.s.allTeams, t.id = c.s.pod.id.team → ∀ l ∈ t.stash, (areaOf l.pa).isMem = true
  sent : c.s.hasRemote c.s.pod.id.team = false
  asked : c.s.pod.asking = false

/-- Every thread's check finds a place in the plain shared region or in this package's memory. -/
def PlacedHere (c : Ctx) (chk : List (Nat × Dword × Checked)) : Prop :=
  ∀ t ∈ c.lanes, (∃ ea o, checkedOf chk t = (ea, .ok (.shared o))) ∨
    ∃ ea pas, checkedOf chk t = (ea, .ok (.mem pas)) ∧ ∀ pa ∈ pas, (areaOf pa).isMem = true

/-- What a load checks. -/
def loadSpec (h : Head) (f : FormM) : Spec :=
  accessOnly { srcs := f.eaSrcs, dst := some f.runDst, bad := f.tagBad || f.kDataBad h }

/-- What a store checks. -/
def storeSpec (h : Head) (f : FormM) : Spec := accessOnly { srcs := f.runSrc :: f.eaSrcs, bad := f.kDataBad h }

/-- The checks of a load's threads, and the state that they leave. -/
def loadChecks (f : FormM) (r : AccReq) (c : Ctx) : List (Nat × Dword × Checked) × State := c.check r (c.ea f 0)

/-- The state in which the first thread of a load acts: spin detection has counted its address (R55). -/
def loadStart (f : FormM) (r : AccReq) (c : Ctx) : State :=
  let ea := (checkedOf (loadChecks f r c).1 (c.lanes.headD 0)).1
  (loadChecks f r c).2.noteLoad (if r.shared then BitVec.ofNat 64 (windowBase + ea.toNat) else ea)

/-- One thread's loaded data, outstanding under the set-A flag (R345). -/
def loaded (c : Ctx) (f : FormM) (t : Nat) (ea : Dword) (x : Loaded) (s : State) : State :=
  c.loadLater .load (loadDest f.data t (sizeRegs f.size)) f.tag (sizeBytes f.size) t ea x s (f.order.getLsbD 0)

/-- The lines of some addresses are neither in the stash of a team nor in the remote combining buffers, and lie in this package's memory. -/
def Bare (s : State) (pas : List Nat) : Prop :=
  ∀ pa ∈ pas, (areaOf pa).isMem = true ∧ (∀ t ∈ s.allTeams, t.lineAt pa = none) ∧
    ∀ core tid, s.remoteByte core tid pa = none

/-- The state with other contents of the L1 data caches, and the open choices that they took. -/
def withL1 (s : State) (l : List (Nat × Nat)) (n : Nat) : State := { s with l1 := l, free := n }

/-- Whether a thread's address passes the checks of shared memory at offset `o` (R303, R304). -/
def sharedFits (c : Ctx) (f : FormM) (a : Access) (ea : Dword) (o : Nat) : Prop :=
  ea.toNat % atomBytes f.atom = 0 ∧ f.scope ≠ 5 ∧ c.s.team.sharedOk o (sizeBytes f.size) = true ∧
    c.s.team.watched a (windowBase + o) (sizeBytes f.size) = false

end Sys2Proof.Claims

/-- R303, R304, R345, R347: a load of plain shared memory, by LDS or by LD on the window, leaves the bytes at each thread's offset
outstanding under its set-A flag; nothing else changes. -/
def Sys2Proof.Claims.TheSharedLoads : Prop := ∀ (h : Head) (f : FormM),
  let data := fun (c : Ctx) (o : Nat) =>
    ({ value := ofBytes (c.s.team.rdShared o (sizeBytes f.size)), uncorr := c.s.team.sharedBad o (sizeBytes f.size) } : Loaded)
  let post := fun (off : Dword → Nat) (c : Ctx) (t : State) =>
    Retires c c.s.pod.leavers (c.lanes.foldl (fun s t => loaded c f t (c.ea f 0 t) (data c (off (c.ea f 0 t))) s)
      (c.s.noteLoad (BitVec.ofNat 64 (windowBase + off ((c.lanes.map (c.ea f 0)).headD 0))))) t
  let pre := fun (off : Dword → Nat) (c : Ctx) => AtRest c ∧ ∀ t ∈ c.lanes, sharedFits c f .rd (c.ea f 0 t) (off (c.ea f 0 t)) ∧
    packedBad f.tag (data c (off (c.ea f 0 t))) = false
  Does (.lds h f) h (fun _ => loadSpec h f) (pre BitVec.toNat) (post BitVec.toNat) ∧
  Does (.ld h f) h (fun _ => loadSpec h f)
    (fun c => pre (fun a => a.toNat - windowBase) c ∧ (∀ t ∈ c.lanes, onWindow (c.ea f 0 t) = true) ∧
      ∀ t ∈ c.lanes, c.s.pod.inTx t = false)
    (post fun a => a.toNat - windowBase)

/-- R38, R345, R347, R348: LD, LDS and LDC complete when every thread's turn does; LD and LDC of places in this package do so when their data
passes the check of R131. -/
def Sys2Proof.Claims.TheLoads : Prop := ∀ (h : Head) (f : FormM),
  let ld : AccReq := { f.req .rd with mmio := true }
  let ldc : AccReq := { f.req .rd with window := false }
  TurnsDo (.ld h f) h (fun _ => loadSpec h f) (fun c => c.s.pod.lingers = false) Ctx.lanes (loadStart f ld)
    (fun c => c.loadTurn f false (loadChecks f ld c).1) ∧
  TurnsDo (.lds h f) h (fun _ => loadSpec h f) AtRest Ctx.lanes (loadStart f { f.req .rd with shared := true })
    (fun c => c.loadTurn f false (loadChecks f { f.req .rd with shared := true } c).1) ∧
  TurnsDo (.ldc h f) h (fun _ => loadSpec h f) AtRest Ctx.lanes (loadStart f ldc)
    (fun c => c.loadTurn f true (loadChecks f ldc c).1) ∧
  TurnsComplete (.ld h f) h (fun _ => loadSpec h f) (fun c => AtRest c ∧ Calm c ∧ PlacedHere c (loadChecks f ld c).1 ∧ f.tag ≠ 17 ∧ f.tag ≠ 18)
    Ctx.lanes (loadStart f ld) (fun c => c.loadTurn f false (loadChecks f ld c).1) ∧
  TurnsComplete (.ldc h f) h (fun _ => loadSpec h f) (fun c => AtRest c ∧ PlacedHere c (loadChecks f ldc c).1 ∧ f.tag ≠ 17 ∧ f.tag ≠ 18)
    Ctx.lanes (loadStart f ldc) (fun c => c.loadTurn f true (loadChecks f ldc c).1)

/-- R131, R305, R309, R347 to R349, R360: what a thread's turn of a load does. Data comes from the plain shared region, from memory at home,
or through the constant cache of the cluster; in a transaction, from its own writes and reads; word-packed data with spare bits set stops
with FORMAT_MISMATCH, and in a transaction aborts it; a failed check gives 0 under .nf and otherwise stops with its cause. -/
def Sys2Proof.Claims.TheLoadTurns : Prop := ∀ (c : Ctx) (f : FormM) (chk : List (Nat × Dword × Checked)) (t : Nat) (s : State) (ea : Dword),
  let good := fun (x : Loaded) => packedBad f.tag x = false
  (∀ x ∈ s.pod.pend, x.kind ≠ .check) →
  (∀ o, let x : Loaded := { value := ofBytes (s.team.rdShared o (sizeBytes f.size)), uncorr := s.team.sharedBad o (sizeBytes f.size) }
    checkedOf chk t = (ea, .ok (.shared o)) → s.pod.inTx t = false → ∀ k,
      (good x → c.loadTurn f k chk t s = .ok (loaded c f t ea x s)) ∧
      (¬good x → x.uncorr = false → c.loadTurn f k chk t s = .fault .formatMismatch 0 0 s)) ∧
  (∀ pas, let x : Loaded := { value := ofBytes (s.rdAll pas), uncorr := s.poisoned pas }
    checkedOf chk t = (ea, .ok (.mem pas)) → s.pod.inTx t = false → Bare s pas →
      (good x → ∃ l n, c.loadTurn f false chk t s = .ok (loaded c f t ea x (withL1 s l n))) ∧
      (¬good x → x.uncorr = false → c.loadTurn f false chk t s = .fault .formatMismatch 0 0 s)) ∧
  (∀ pas, let x : Loaded := { value := ofBytes (s.rdAll pas), uncorr := s.poisoned pas }
    checkedOf chk t = (ea, .ok (.mem pas)) → s.pod.inTx t = false → (∀ pa ∈ pas, (areaOf pa).isPeer = false) →
      (∀ pa ∈ pas, ∀ y ∈ s.ccache, y.1 ≠ constKey (clusterOf s.core) (lineOf pa)) → good x →
      ∃ cc, c.loadTurn f true chk t s = .ok (loaded c f t ea x { s with ccache := cc })) ∧
  (∀ x arg a k, checkedOf chk t = (ea, .error (x, arg, a)) →
    (f.nf = true → x ∈ [.xlateFault, .protection, .tierMiss] → c.loadTurn f k chk t s = .ok (loaded c f t ea { value := 0 } s)) ∧
    (¬(f.nf = true ∧ x ∈ [.xlateFault, .protection, .tierMiss]) → s.pod.inTx t = false → c.loadTurn f k chk t s = .fault x arg a s) ∧
    (¬(f.nf = true ∧ x ∈ [.xlateFault, .protection, .tierMiss]) → s.pod.inTx t = true →
      c.loadTurn f k chk t s = .moved (s.abortTx t 7 x.bit))) ∧
  (∀ pas k y, let x : Loaded := { value := ofBytes (pas.map (y.byte s)), uncorr := s.poisoned pas }
    checkedOf chk t = (ea, .ok (.mem pas)) → s.pod.txOf t = some y → y.inTx = true → s.txRefuses t false (.ok (.mem pas)) = none →
    (good { value := x.value } → ∃ z, c.loadTurn f k chk t s = .ok (loaded c f t ea x (s.setPod (s.pod.setTx z)))) ∧
    (¬good { value := x.value } → c.loadTurn f k chk t s = .moved (s.abortTx t 7 2)))

/-- R303, R304, R347: a store of plain shared memory, by STS or by ST on the window, writes the bytes of each thread's data run at its
offset, in ascending thread order; memory is unchanged. -/
def Sys2Proof.Claims.TheSharedStores : Prop := ∀ (h : Head) (f : FormM),
  let post := fun (off : Dword → Nat) (c : Ctx) (t : State) =>
    Retires c c.s.pod.leavers (c.lanes.foldl (fun s t => (s.wrShared (off (c.ea f 1 t)) (toBytes (sizeBytes f.size) (c.val 0 t))).tickle)
      c.s.noteStore) t ∧ ∀ a, t.rdByte a = c.s.rdByte a
  let pre := fun (off : Dword → Nat) (c : Ctx) => AtRest c ∧ (f.order.getLsbD 1 = true → f.scope.toNat < 3 ∧ c.s.pod.asking = false) ∧
    ∀ t ∈ c.lanes, sharedFits c f .wr (c.ea f 1 t) (off (c.ea f 1 t))
  Does (.sts h f) h (fun _ => storeSpec h f) (pre BitVec.toNat) (post BitVec.toNat) ∧
  Does (.st h f) h (fun _ => storeSpec h f)
    (fun c => pre (fun a => a.toNat - windowBase) c ∧ (∀ t ∈ c.lanes, onWindow (c.ea f 1 t) = true) ∧
      ∀ t ∈ c.lanes, c.s.pod.inTx t = false)
    (post fun a => a.toNat - windowBase)

/-- R304, R311: a write of the plain shared region changes its own bytes and no other, and leaves them without error. -/
def Sys2Proof.Claims.TheSharedBytes : Prop := ∀ (t : Team) (tick o : Nat) (bs : List Byte) (a : Nat),
  (t.putShared tick o bs).shared.get a = (if o ≤ a ∧ a < o + bs.length then bs.getD (a - o) 0 else t.shared.get a) ∧
  (a ∈ (t.putShared tick o bs).badShared ↔ a ∈ t.badShared ∧ ¬(o ≤ a ∧ a < o + bs.length)) ∧
  t.putShared tick o bs = { t with shared := (t.putShared tick o bs).shared, badShared := (t.putShared tick o bs).badShared
                                   oldShared := (t.putShared tick o bs).oldShared } ∧
  (t.tiles = [] → (t.putShared tick o bs).oldShared = t.oldShared)

/-- R38, R347: ST and STS complete when every thread's turn does, and do so where the places lie in this package. -/
def Sys2Proof.Claims.TheStores : Prop := ∀ (h : Head) (f : FormM),
  let st : AccReq := { f.req .wr with mmio := true }
  let sts : AccReq := { f.req .wr with shared := true }
  let chk := fun (r : AccReq) (c : Ctx) => (c.check r (c.ea f 1)).1
  let turns := fun (r : AccReq) (c : Ctx) => storeTurn f (c.val 0) h.seta (chk r c)
  let start := fun (r : AccReq) (c : Ctx) => (c.check r (c.ea f 1)).2.noteStore
  TurnsDo (.st h f) h (fun _ => storeSpec h f) (fun c => c.s.pod.lingers = false) Ctx.lanes (start st) (turns st) ∧
  TurnsDo (.sts h f) h (fun _ => storeSpec h f) AtRest Ctx.lanes (start sts) (turns sts) ∧
  TurnsComplete (.st h f) h (fun _ => storeSpec h f) (fun c => AtRest c ∧ Calm c ∧ PlacedHere c (chk st c)) Ctx.lanes (start st) (turns st)

/-- R324, R328, R347, R350, R360: what a thread's turn of a store does: its bytes enter the stash; with .sys they go home, and the entries that
take them to a peer remember the flag; a release at cluster scope or wider publishes first; in a transaction they enter its write set; a
failed check stops with its cause. -/
def Sys2Proof.Claims.TheStoreTurns : Prop := ∀ (f : FormM) (data : Nat → Nat) (flag : BitVec 4) (chk : List (Nat × Dword × Checked)) (t : Nat)
    (s : State) (ea : Dword) (pas : List Nat),
  let bs := toBytes (sizeBytes f.size) (data t)
  let tid := s.pod.id.team
  let rel := f.order.getLsbD 1 = true ∧ 3 ≤ f.scope.toNat
  let sent := fun u : State => if f.scope = 5 then u.noteSys flag t ea (.mem pas) else u
  (checkedOf chk t = (ea, .ok (.mem pas)) → s.pod.inTx t = false → (f.order.getLsbD 1 = true → s.pod.asking = false) →
    (¬rel → f.scope ≠ 5 → ∀ u, s.stashStore tid ea.toNat pas bs = .ok u → storeTurn f data flag chk t s = .ok u) ∧
    (¬rel → f.scope = 5 → ∀ u, s.homeStore tid ea.toNat pas bs = .ok u → storeTurn f data flag chk t s = .ok (sent u)) ∧
    (rel → ∀ u v, s.irrevocable tid = .ok s → s.release tid f.scope.toNat = .ok u → u.homeStore tid ea.toNat pas bs = .ok v →
      (f.scope = 5 → v.hasRemote tid = false) → storeTurn f data flag chk t s = .ok (sent v))) ∧
  (checkedOf chk t = (ea, .ok (.mem pas)) → s.pod.inTx t = true → s.txRefuses t true (.ok (.mem pas)) = none →
    storeTurn f data flag chk t s = .ok (s.txStore t pas bs)) ∧
  (∀ x arg a, checkedOf chk t = (ea, .error (x, arg, a)) → s.pod.inTx t = false → storeTurn f data flag chk t s = .fault x arg a s)

/-- R305: bytes stored into a stash line, or into a line taken from the free ones, read back by the team; every other byte, and every byte
of every other team, reads as before. -/
def Sys2Proof.Claims.TheStashStoreReadsBack : Prop := ∀ (s u : State) (t : Team) (va line : Nat) (pas : List Nat) (bs : List Byte) (pa : Nat),
  s.findTeam t.id = some t → (∀ a ∈ pas, lineOf a = line) → pas ≠ [] → pas.Nodup → pas.length = bs.length → s.hasRemote t.id = false →
  (t.stash.map fun l => (l.roff, l.half)).Nodup → (∀ core, s.remoteByte core t.id pa = none) →
  ((∃ l, t.lineAt line = some l ∧ (l.explicit = true → l.filled = true)) ∨
    t.lineAt line = none ∧ 0 < t.kernel.stash ∧ t.freeLines (t.lineHalf va) ≠ []) →
  s.stashLine t.id va pas bs = .ok u →
  (∃ t', u.findTeam t.id = some t' ∧
    ((∀ x ∈ pas.zip bs, x.1 = pa → u.loadByte t' pa = x.2) ∧ (pa ∉ pas → u.loadByte t' pa = s.loadByte t pa))) ∧
  u.mem = s.mem ∧ u.pod = s.pod ∧ u.pods = s.pods ∧ (∀ o ∈ s.allTeams, o.id ≠ t.id → o ∈ u.allTeams)

/-- R312, R328: a line that goes home has its dirty bytes in memory but for the uncorrectable ones, no other byte of memory changes, and the
line is clean. -/
def Sys2Proof.Claims.TheLinesGoHome : Prop := ∀ (s u : State) (tid : TeamId) (core : Nat) (l : Line) (a : Nat),
  (areaOf l.pa).isPeer = false → l.pa % 128 = 0 → s.lineHome tid core l = some u → l.dirty ≠ 0 →
  u.rdByte a = (if l.pa ≤ a ∧ a < l.pa + 128 ∧ l.dirty.getLsbD (a - l.pa) = true ∧ l.bad.getLsbD (a - l.pa) = false then lineByte l.bytes (a - l.pa) else s.rdByte a) ∧
  u.pod = s.pod ∧ u.pods = s.pods ∧
  (∀ t, s.findTeam tid = some t → l ∈ t.stash → ∃ t', u.findTeam tid = some t' ∧ ∃ l' ∈ t'.stash, l'.pa = l.pa ∧ l'.dirty = 0)

/-- R310, R345: memory reads back: the byte written at home is read there, and every other byte is as before; several bytes are
little-endian (R3). -/
def Sys2Proof.Claims.TheMemoryReadsBack : Prop :=
  (∀ (s : State) (pa a : Nat) (b : Byte), (s.wrByte pa b).rdByte a = if a = pa then b else s.rdByte a) ∧
  (∀ (s : State) (pa n v : Nat), (s.wrAll (run pa n) (toBytes n v)).rdNat pa n = v % 2 ^ (8 * n)) ∧
  (∀ (s : State) (pa n v a : Nat), (a < pa ∨ pa + n ≤ a) → (s.wrAll (run pa n) (toBytes n v)).rdByte a = s.rdByte a)

/-- R351, R364, R375: PRF changes no byte that memory or a stash line that it does not touch holds; FENCE waits for outstanding loads
and reductions, and with .rel publishes; OFENCE waits for remote entries and then orders the pod's matrix operations; CCTL drops copies. -/
def Sys2Proof.Claims.TheFencesAndCaches : Prop := ∀ (h : Head),
  let performed := fun c : Ctx => c.s.pod.loading = false ∧ c.s.redsAway c.s.pod.id.team = false
  (∀ f : FormM, Does (.prf h f) h (fun _ => accessOnly { srcs := f.eaSrcs })
    (fun c => c.txThreads = [] ∧ f.hint ≠ 2 ∧ ∀ t ∈ c.lanes, onWindow (c.ea f 0 t) = true ∨ canonical (c.ea f 0 t) = false)
    fun c t => Retires c 0 c.s t) ∧
  (∀ f : FormM, Does (.prf h f) h (fun _ => accessOnly { srcs := f.eaSrcs }) (fun c => c.txThreads = [])
    fun c t => Retires c 0 (c.lanes.foldl (fun s t =>
      if onWindow (c.ea f 0 t) then s
      else match s.translate s.team s.core (c.ea f 0 t) .rd with
        | (.error _, s) => s
        | (.ok pa, s) => match s.team.lineAt pa with
          | some l => if f.hint = 2 ∧ l.explicit then
              let s := s.touch s.pod.id.team [pa]
              if s.needsPeer s.team (lineOf pa) then (s.askPeers s.team s.pod.id [(0, lineOf pa)]).2 else s
            else s
          | none => if f.hint = 0 ∧ (areaOf pa).isMem then s.fillL1 s.core [lineOf pa] else s) c.s) t) ∧
  (∀ (f : FormM) s u, let c := issueCtx s h { pod := true }
    Ready (.fence h f) h { pod := true } s → c.txThreads = [] → performed c →
    (if f.order.getLsbD 1 then c.s.release c.s.pod.id.team f.scope.toNat = .ok u else u = c.s) → u.pod.stepping = false →
    u.pod.halted = false → ∃ t, exec (.fence h f) s = .next t ∧ Retires c 0 u t) ∧
  (∀ f : FormM, Does (.fence h f) h (fun _ => { pod := true })
    (fun c => c.txThreads = [] ∧ performed c ∧ (f.order.getLsbD 1 = true → 3 ≤ f.scope.toNat →
      (∀ T, c.s.findTeam c.s.pod.id.team = some T → ∀ l ∈ T.stash, l.dirty = 0) ∧ c.s.hasRemote c.s.pod.id.team = false))
    fun c t => Retires c 0 c.s t) ∧
  (∀ f : FormM, Waits (.fence h f) h (fun _ => { pod := true }) (fun _ => .time) (fun c => c.txThreads = [] ∧ ¬performed c)
    fun c => c.s) ∧
  (∀ f : FormR, Does (.ofence h f) h (fun _ => { pod := true })
    (fun c => c.txThreads = [] ∧ ∀ r ∈ c.s.rcbuf, r.team ≠ c.s.pod.id.team)
    fun c t => Retires c 0 (withPod c.s { c.s.pod with ofence := c.s.tick }) t) ∧
  (∀ f : FormR, Waits (.ofence h f) h (fun _ => { pod := true }) (fun _ => .time)
    (fun c => c.txThreads = [] ∧ ∃ r ∈ c.s.rcbuf, r.team = c.s.pod.id.team) fun c => c.s) ∧
  (∀ f : FormM, f.hint = 3 → Does (.cctl h f) h (fun _ => { srcs := f.eaSrcs, exec := true, pod := true }) (fun c => c.txThreads = [])
    fun c t => Retires c 0 { c.s with ccache := c.s.ccache.filter fun x => x.1 / 2 ^ 52 ≠ clusterOf c.s.core } t) ∧
  (∀ f : FormM, f.hint ≠ 3 → Does (.cctl h f) h (fun _ => { srcs := f.eaSrcs, exec := false, pod := false }) (fun c => c.txThreads = [])
    fun c t => Retires c 0 (c.lanes.foldl (fun s t => match s.translate s.team s.core (c.ea f 0 t) .rd with
      | (.error _, s) => s
      | (.ok pa, s) =>
        if f.hint = 0 then s.l2WriteBack (lineOf pa)
        else if f.hint = 1 then { s with l1 := s.l1.filter (· ≠ (s.core, lineOf pa)) }
        else if f.hint = 2 then { s with ccache := s.ccache.filter fun x => x.1 ≠ constKey (clusterOf c.s.core) (lineOf pa) }
        else s) c.s) t)

/-- R238, R257, R372 to R374: SMAP, SDROP and ICINV complete when every thread's turn does; SMAP makes the line explicit at its offset,
SDROP makes the explicit line at its offset implicit (.keep) or drops it, ICINV drops the fetch lines that overlap the line from the caches
of its scope; SPUB publishes the dirty lines of its range. -/
def Sys2Proof.Claims.TheStashControl : Prop := ∀ (h : Head) (f : FormM),
  let mapReq : AccReq := { size := 1, access := .rd, window := false, watch := false }
  let icReq : AccReq := { size := 1, access := .fetch, window := false, watch := false }
  TurnsDo (.smap h f) h (fun _ => accessOnly { srcs := f.offSrc [.v, .k, .zero] :: f.eaSrcs, bad := f.kDataBad h }) AtRest Ctx.lanes
    (fun c => (c.check mapReq (c.ea f 1)).2) (fun c => c.smapAct (c.check mapReq (c.ea f 1)).1) ∧
  TurnsDo (.sdrop h f) h (fun _ => accessOnly { srcs := [f.offSrc [.v, .k, .zero]], bad := f.kDataBad h }) AtRest Ctx.lanes
    Ctx.s (fun c => c.sdropAct f) ∧
  TurnsDo (.icinv h f) h (fun _ => { srcs := f.eaSrcs }) (fun c => c.s.pod.lingers = false) Ctx.lanes
    (fun c => (c.check icReq (c.ea f 0)).2) (fun c => icinvAct f (c.check icReq (c.ea f 0)).1) ∧
  TurnsComplete (.smap h f) h (fun _ => accessOnly { srcs := f.offSrc [.v, .k, .zero] :: f.eaSrcs, bad := f.kDataBad h })
    (fun c => AtRest c ∧ Calm c ∧ PlacedHere c (c.check mapReq (c.ea f 1)).1 ∧ ∀ t ∈ c.lanes, c.s.team.offsetBad (c.val 0 t) = none) Ctx.lanes
    (fun c => (c.check mapReq (c.ea f 1)).2) (fun c => c.smapAct (c.check mapReq (c.ea f 1)).1) ∧
  TurnsComplete (.sdrop h f) h (fun _ => accessOnly { srcs := [f.offSrc [.v, .k, .zero]], bad := f.kDataBad h })
    (fun c => AtRest c ∧ ∀ t ∈ c.lanes, c.s.team.offsetBad (c.val 0 t) = none) Ctx.lanes Ctx.s (fun c => c.sdropAct f) ∧
  TurnsComplete (.icinv h f) h (fun _ => { srcs := f.eaSrcs })
    (fun c => c.s.pod.lingers = false ∧ PlacedHere c (c.check icReq (c.ea f 0)).1) Ctx.lanes
    (fun c => (c.check icReq (c.ea f 0)).2) (fun c => icinvAct f (c.check icReq (c.ea f 0)).1) ∧
  (∀ (c : Ctx) (chk : List (Nat × Dword × Checked)) (t : Nat) (s : State) (ea : Dword) (pa : Nat) (pas : List Nat) (T : Team),
    checkedOf chk t = (ea, .ok (.mem (pa :: pas))) →
    (c.s.team.offsetBad (c.val 0 t) = none → s.findTeam s.pod.id.team = some T → T.lineAt pa = none →
      (∀ l ∈ T.stash, ¬(l.roff = c.val 0 t ∧ l.half = s.team.lineHalf ea.toNat)) →
      c.smapAct chk t s = .ok (s.onTeam s.pod.id.team fun T => T.addLine
        { roff := c.val 0 t, half := s.team.lineHalf ea.toNat, va := ea.toNat / 128 * 128, pa := lineOf pa, explicit := true
          filled := false, dirty := 0, bytes := 0, written := 0 })) ∧
    icinvAct f chk t s = .ok { s with icache := s.icache.filter fun x =>
      !(s.icScope f.scope.toNat x.core && x.pieces.any fun p => lineOf p.1 == lineOf pa) }) ∧
  (∀ (c : Ctx) (t : Nat) (s : State) (l : Line), s.team.offsetBad (c.val 0 t) = none →
    (s.team.stash.find? fun l => l.roff = c.val 0 t && l.half = s.team.halfOf s.pod.id && l.explicit) = some l →
    c.sdropAct f t s = .ok (s.setTeam (if f.hint = 0 then s.team.setLine { l with explicit := false } else s.team.dropLine l))) ∧
  Does (.spub h f) h (fun _ => { srcs := [f.offSrc [.k, .zero]], pod := true })
    (fun c => c.txThreads = [] ∧ c.val 0 0 % 128 = 0 ∧ (c.s.team.kernel.stash = 0 ∨ c.val 0 0 < c.s.team.kernel.stash ∧
      c.s.hasRemote c.s.pod.id.team = false ∧ ∀ T, c.s.findTeam c.s.pod.id.team = some T →
        ∀ l ∈ T.stash, l.dirty ≠ 0 → ¬(c.val 0 0 ≤ l.roff ∧ (f.offset = 0 ∨ l.roff < c.val 0 0 + 128 * f.offset.toNat))))
    (fun c t => Retires c 0 c.s t) ∧
  (∀ s u, let sp : Spec := { srcs := [f.offSrc [.k, .zero]], pod := true }
    let c := issueCtx s h sp
    Ready (.spub h f) h sp s → c.txThreads = [] → c.val 0 0 % 128 = 0 → c.val 0 0 < c.s.team.kernel.stash →
    c.s.publish c.s.pod.id.team (fun l => c.val 0 0 ≤ l.roff && (f.offset.toNat = 0 || l.roff < c.val 0 0 + 128 * f.offset.toNat)) = .ok u →
    u.pod.stepping = false → u.pod.halted = false → (f.scope = 5 → u.hasRemote c.s.pod.id.team = false) →
    ∃ t, exec (.spub h f) s = .next t ∧ Retires c 0 u t)

/-- R239: LOOPC waits for the sequence word of its block, reading it every 128 cycles, and then opens a loop of the block's count; a block
in the plain shared region is read there. A block that is not 64-byte aligned raises MISALIGNED. -/
def Sys2Proof.Claims.TheLoopCount : Prop := ∀ (h : Head) (f : FormB),
  let sp := fun s : State => ({ pod := true, late := s.pod.loopLate, srcs := [blockSrc f.link, uniSrc 1 (.code f.a)] } : Spec)
  let last := fun c : Ctx => c.this + BitVec.ofInt 64 (12 * f.boff.toInt)
  let opened := fun (c : Ctx) (n : Word) (u t : State) =>
    (n = 0 → Retires c c.act (withPod u (u.pod.goto c.act (last c + 12))) t) ∧
    (n ≠ 0 → Retires c 0 (withPod u (u.pod.setLoops (⟨c.this + 12, last c, n, c.s.pod.depth⟩ :: u.pod.loopStack))) t)
  let block := fun c : Ctx => BitVec.ofNat 64 (c.val 0 0)
  let aligned := fun c : Ctx => (block c).toNat % 64 = 0
  (∀ (s : State) (v : Nat) (u : State), let c := issueCtx s h (sp s)
    Ready (.loopc h f) h (sp s) s → c.txThreads = [] → aligned c → s.pod.wait = none →
    c.pollBytes (block c) 16 = .got v u → u.pod.stepping = false → u.pod.halted = false →
    (v % 2 ^ 32 = c.val 1 0 → ∃ t, exec (.loopc h f) s = .next t ∧ opened c (BitVec.ofNat 32 (bits v 32 32)) u t) ∧
    (v % 2 ^ 32 ≠ c.val 1 0 → ∃ t, exec (.loopc h f) s = .next t ∧
      t.pod.wait = some ⟨.poll, u.cycle, some (c.s.cycle + 128), u.progress⟩ ∧ t = withPod u t.pod)) ∧
  (let v := fun c : Ctx => ofBytes (c.s.team.rdShared ((block c).toNat - windowBase) 16)
   Does (.loopc h f) h sp (fun c => c.txThreads = [] ∧ aligned c ∧ c.s.pod.wait = none ∧ (∀ x ∈ c.s.pod.pend, x.kind ≠ .poll) ∧
      onWindow (block c) = true ∧ c.s.team.sharedOk ((block c).toNat - windowBase) 16 = true ∧
      c.s.team.watched .rd (block c).toNat 16 = false ∧ c.s.team.sharedBad ((block c).toNat - windowBase) 16 = false ∧
      v c % 2 ^ 32 = c.val 1 0)
    (fun c t => opened c (BitVec.ofNat 32 (bits (v c) 32 32)) c.s t)) ∧
  Traps (.loopc h f) h sp (fun c => c.txThreads = [] ∧ ¬aligned c) (fun c => c.s.pod.before .misaligned 0 0 (block c))

/-- R295 to R300: an address translates only under a leaf that grants the access: one of the walks that the tables and the cached table
entries allow, or one that a TLB holds for it; the result is the leaf's page with the address's offset. With no entry cached and no C group
whose entries differ, that is the walk of the tables. A translation changes no pod, no register, and no byte that is not an entry's. -/
def Obligations.Translation : Prop :=
  (∀ (s u : State) (t : Team) (core : Nat) (va : Dword) (a : Access) (tierOk : Bool) (pa : Nat),
    s.translateX t core va a tierOk = (.ok pa, u) →
    canonical va = true ∧
    (∃ level pte, pa = leafPa level pte va ∧
      ((∃ l, .ok l ∈ s.walks t.asn va t.ptroot ∧ l.level = level ∧ l.pte = pte) ∨
        (∃ e ∈ s.tlb, e.covers core t.asn va = true ∧ e.level = level ∧ e.pte.toNat = pte) ∨
        ∃ e ∈ s.ctlb, e.covers (clusterOf core) t.asn va = true ∧ e.level = level ∧ e.pte.toNat = pte) ∧
      (a.reads = true → bit pte 4 = true) ∧ (a.writes = true → bit pte 5 = true) ∧ (a = .fetch → bit pte 6 = true) ∧
      (bit pte 7 = true → t.kernel.super = true) ∧ areaOf pa ≠ .nowhere ∧
      (tierOk = false → bit pte 54 = true → bit pte 55 = true → (areaOf pa).isMem = false)) ∧
    u.pod = s.pod ∧ u.pods = s.pods ∧ u.ops = s.ops ∧
    (∀ x, (∀ l, .ok l ∈ s.walks t.asn va t.ptroot → x < l.at_ ∨ l.at_ + 8 ≤ x) → u.rdByte x = s.rdByte x)) ∧
  (∀ (s : State) (asn : BitVec 12) (va : Dword) (root : Nat), ∀ r ∈ s.walks asn va root, ∃ w,
    (w = s.walk va 3 root ∨ ∃ x ∈ s.wcache, x.asn = asn ∧ x.reach = reachOf va x.level ∧ 1 ≤ x.level ∧
      w = s.walk va (x.level - 1) (bits x.entry.toNat 12 40 * 4096)) ∧ (r = w ∨ r ∈ s.leavesOf w)) ∧
  (∀ (s : State) (t : Team) (core : Nat) (va : Dword) (a : Access) (tierOk : Bool), canonical va = true → s.wcache = [] → s.tlb = [] →
    s.ctlb = [] →
    (∀ r l, s.walk va 3 t.ptroot = .error (r, l) → s.translateX t core va a tierOk = (.error (.xlateFault, xlateArg l r), s)) ∧
    (∀ l, s.walk va 3 t.ptroot = .ok l → (l.level = 0 → bit l.pte 53 = false) →
      s.translateX t core va a tierOk = s.useLeaf t core va a tierOk l))

/-! ## Atomics, transactions and write with enqueue (R352 to R363, R370, R371) -/

/-- R332, R333, R353 to R357: ATOM, ATOMS, RED and REDS complete when every thread's turn does, and do so where the places lie in this
package. -/
def Sys2Proof.Claims.TheAtomics : Prop := ∀ (h : Head) (f : FormQ),
  let sp := fun (shared : Bool) => accessOnly { srcs := [FormQ.placeSrc f shared, f.atomSrc 2 f.b] ++ f.casSrc, dst := some f.atomDst }
  let redSp := fun (shared : Bool) => accessOnly { srcs := [FormQ.placeSrc f shared, f.atomSrc 2 f.b] }
  let chk := fun (shared : Bool) (c : Ctx) => c.check { f.atomReq with shared := shared } (c.addr 0)
  let g := f.flags.getLsbD 8
  let gchk := fun c : Ctx => if g then (chk (!g) c).1.map c.explicitOnly else (chk (!g) c).1
  TurnsDo (.atom h f) h (fun _ => sp false) AtRest (fun c => c.lanes) (fun c => (chk false c).2.noteStore)
    (fun c => c.atomAct f false (chk false c).1) ∧
  TurnsDo (.atoms h f) h (fun _ => sp (!g)) AtRest (fun c => c.lanes) (fun c => (chk (!g) c).2.noteStore)
    (fun c => c.atomAct f g (gchk c)) ∧
  TurnsDo (.red h f) h (fun _ => redSp false) AtRest (fun c => c.lanes) (fun c => (chk false c).2.noteStore)
    (fun c => c.redAct f (chk false c).1) ∧
  TurnsDo (.reds h f) h (fun _ => redSp true) AtRest (fun c => c.lanes) (fun c => (chk true c).2.noteStore)
    (fun c => c.redAct f (chk true c).1) ∧
  TurnsComplete (.atom h f) h (fun _ => sp false) (fun c => AtRest c ∧ Calm c ∧ PlacedHere c (chk false c).1) Ctx.lanes
    (fun c => (chk false c).2.noteStore) (fun c => c.atomAct f false (chk false c).1) ∧
  TurnsComplete (.atoms h f) h (fun _ => sp (!g)) (fun c => AtRest c ∧ Calm c ∧ PlacedHere c (gchk c)) Ctx.lanes
    (fun c => (chk (!g) c).2.noteStore) (fun c => c.atomAct f g (gchk c)) ∧
  TurnsComplete (.red h f) h (fun _ => redSp false) (fun c => AtRest c ∧ Calm c ∧ PlacedHere c (chk false c).1) Ctx.lanes
    (fun c => (chk false c).2.noteStore) (fun c => c.redAct f (chk false c).1) ∧
  TurnsComplete (.reds h f) h (fun _ => redSp true) (fun c => AtRest c ∧ Calm c ∧ PlacedHere c (chk true c).1) Ctx.lanes
    (fun c => (chk true c).2.noteStore) (fun c => c.redAct f (chk true c).1)

/-- R333, R355 to R357: what a thread's turn of an atomic does, where the team has acted irrevocably and no release, lock, stash line or
entry on its way stands in the way: the threads that name one location act as one step in ascending order, in the turn of the first of them;
each old value comes to its destination and the last new value is in place, at home or in shared memory. A reduction in a team without a
stash goes home at once. -/
def Sys2Proof.Claims.TheAtomicTurns : Prop := ∀ (c : Ctx) (f : FormQ) (chk : List (Nat × Dword × Checked)) (t : Nat) (s : State) (ea : Dword)
    (T : Team),
  let tid := s.pod.id.team
  let new := fun m => atomNew f.atomOp f.atomTy m (c.val 1 t) (c.val 2 t)
  s.findTeam tid = some T → T.irrev = true → f.publishes = false → (bit f.atomOrder 1 = true → s.pod.asking = false) →
  (∀ o, let m := ofBytes (s.team.rdShared o (atomSize f.atomTy))
    checkedOf chk t = (ea, .ok (.shared o)) → s.team.sharedBad o (atomSize f.atomTy) = false →
    c.atomAct f false chk t s =
      .ok (c.oldLater f t ea { value := m } (s.wrShared o (toBytes (atomSize f.atomTy) (new m))).tickle) ∧
    c.redAct f chk t s = .ok (s.wrShared o (toBytes (atomSize f.atomTy) (atomNew f.atomOp f.atomTy m (c.val 1 t) 0))).tickle) ∧
  (∀ pas, let m := ofBytes (s.rdAll pas)
    checkedOf chk t = (ea, .ok (.mem pas)) → s.serial = none → (areaOf (pas.headD 0)).isPeer = false → s.poisoned pas = false →
    (let own := (c.places chk).filter fun x => x.2 == pas
     let step := atomFold f.atomOp f.atomTy m (own.map fun x => (c.val 1 x.1, c.val 2 x.1))
     (∀ x ∈ c.places chk, T.lineAt (lineOf (x.2.headD 0)) = none) → s.hasRemote tid = false →
      (own.head?.map (·.1) = some t → c.atomAct f false chk t s = .ok ((own.zip step.1).foldl
        (fun u x => c.oldLater f x.1.1 (checkedOf chk x.1.1).1 { value := x.2 } u)
        (s.writeHomeAll tid pas (toBytes pas.length step.2)).tickle)) ∧
      (own.head?.map (·.1) ≠ some t → c.atomAct f false chk t s = .ok s)) ∧
    (pas = run (pas.headD 0) (atomSize f.atomTy) → f.atomScope = 5 → c.val 1 t < 2 ^ 64 →
      c.redAct f chk t s = .ok (s.writeHomeAll tid pas (toBytes (atomSize f.atomTy) (atomNew f.atomOp f.atomTy m (c.val 1 t) 0))).tickle) ∧
    (f.atomScope ≠ 5 → mergeRed ⟨pas.headD 0, f.atomOp, f.atomTy, BitVec.ofNat 64 (c.val 1 t)⟩ T.rcb = none → 0 < T.kernel.stash →
      T.rcb.length % 8 ≠ 0 → c.redAct f chk t s = .ok (s.onTeam tid fun T =>
        { T with rcb := T.rcb ++ [⟨pas.headD 0, f.atomOp, f.atomTy, BitVec.ofNat 64 (c.val 1 t)⟩] }))) ∧
  (∀ x arg a, checkedOf chk t = (ea, .error (x, arg, a)) → c.atomAct f false chk t s = .fault x arg a s ∧
    c.redAct f chk t s = .fault x arg a s)

/-- R333, R354: several operations on one location follow each other, each with the value that the one before it left. The integer operations: the sum wraps, minimum and maximum follow the type's sign, .cas writes C only over an equal
value, and .inc counts up to its bound and then starts at 0. -/
def Sys2Proof.Claims.TheAtomicOperations : Prop :=
  (∀ (op ty m : Nat), atomFold op ty m [] = ([], m)) ∧
  (∀ (op ty m b c : Nat) (l : List (Nat × Nat)), atomFold op ty m ((b, c) :: l) =
    (m :: (atomFold op ty (atomNew op ty m b c) l).1, (atomFold op ty (atomNew op ty m b c) l).2)) ∧
  ∀ (ty m b c : Nat), ty < 4 → m < 2 ^ (8 * atomSize ty) → b < 2 ^ (8 * atomSize ty) →
  let w := 8 * atomSize ty
  let v := fun x => if ty = 0 ∨ ty = 2 then signed w x else (x : Int)
  atomNew 0 ty m b c = (m + b) % 2 ^ w ∧
  v (atomNew 1 ty m b c) = min (v m) (v b) ∧ v (atomNew 2 ty m b c) = max (v m) (v b) ∧
  (∀ i, bit (atomNew 3 ty m b c) i = (bit m i && bit b i)) ∧ (∀ i, bit (atomNew 4 ty m b c) i = (bit m i || bit b i)) ∧
  (∀ i, bit (atomNew 5 ty m b c) i = (bit m i != bit b i)) ∧ atomNew 6 ty m b c = b ∧
  atomNew 7 ty m b c = (if m = b then c else m) ∧ atomNew 8 ty m b c = (if b ≤ m then 0 else m + 1)

/-- R358 to R363: TXB, TXE and TXA complete when every thread's turn does: TXB where no thread is in a transaction, TXE where its team's
places lie in this package, TXA always; TXST leaves what it reads of each thread outstanding. -/
def Sys2Proof.Claims.TheTransactions : Prop := ∀ (h : Head) (f : FormR),
  TurnsDo (.txb h f) h (fun _ => accessOnly { dst := some { code := f.dst, acc := [.v], tag := 2 } })
    (fun c => c.txDue = true → c.s.tokenHeld = false) Ctx.eff
    (fun c => if c.txDue then { c.s with serial := some c.s.pod.id } else c.s) (fun c => c.txbAct (classOf f.dst).2) ∧
  TurnsDo (.txe h f) h (fun _ => accessOnly { dst := some { code := f.dst, acc := [.p, .zero] } }) (fun _ => True) Ctx.eff Ctx.s
    (fun c => c.txeAct (txePred f.dst)) ∧
  TurnsDo (.txa h f) h (fun _ => accessOnly { srcs := [{ field := 1, arg := .code f.a, acc := [.v, .k] }], smod := f.smod, mtgt := f.mtgt }) (fun _ => True) Ctx.eff Ctx.s
    Ctx.txaAct ∧
  TurnsComplete (.txb h f) h (fun _ => accessOnly { dst := some { code := f.dst, acc := [.v], tag := 2 } })
    (fun c => c.txThreads = [] ∧ (c.txDue = true → c.s.tokenHeld = false)) Ctx.eff
    (fun c => if c.txDue then { c.s with serial := some c.s.pod.id } else c.s) (fun c => c.txbAct (classOf f.dst).2) ∧
  TurnsComplete (.txe h f) h (fun _ => accessOnly { dst := some { code := f.dst, acc := [.p, .zero] } }) (fun c => Calm c ∨ c.txThreads = [])
    Ctx.eff Ctx.s (fun c => c.txeAct (txePred f.dst)) ∧
  TurnsComplete (.txa h f) h (fun _ => accessOnly { srcs := [{ field := 1, arg := .code f.a, acc := [.v, .k] }], smod := f.smod, mtgt := f.mtgt })
    (fun _ => True) Ctx.eff Ctx.s Ctx.txaAct ∧
  Does (.txst h f) h (fun _ => { dst := some { code := f.dst, acc := [.v], tag := 2 } }) (fun _ => True) (fun c t =>
    Retires c 0 (c.outstanding .load (c.eff.map fun u =>
      (u, { val := if c.s.pod.id.slice = .execute then 0 else c.s.pod.txStatus u })) c.s) t)

/-- R359 to R361: what a thread's turn does: TXB starts a transaction that resumes after it and reads 0; TXE of a thread outside a
transaction writes its predicate false; TXE commits a transaction whose reads still hold, with its writes in memory and its predicate true,
and aborts one that has lost, as TXA does: its destination holds the status, and it goes on after its TXB when the instruction completes. -/
def Sys2Proof.Claims.TheTransactionTurns : Prop := ∀ (c : Ctx) (t : Nat) (s : State), t < 128 →
  (∀ r, s.pod.inTx t = false → ∃ v, c.txbAct r t s = .ok v ∧ v.pod.inTx t = true ∧ v.pod.rdV t r = 0 ∧ v.pod.tagOf r = 2 ∧
    (∃ x, v.pod.txOf t = some x ∧ x.resume = c.this + 12 ∧ x.trap = s.pod.trapLevel ∧ x.reads = [] ∧ x.writes = []) ∧ (r < 1024 →
    ∀ u q, q < 1024 → (u, q) ≠ (t, r) → v.pod.rdV u q = s.pod.rdV u q) ∧ v = withPod s v.pod) ∧
  (∀ n, c.s.pod.inTx t = false → c.txeAct n t s = .ok (withPod s (s.pod.wrPred n (one t) 0))) ∧
  (∀ n x T, c.s.pod.inTx t = true → c.txClash t = false → s.pod.txOf t = some x → s.findTeam s.pod.id.team = some T → T.irrev = true →
    s.serial = none → s.pod.asking = false → (∀ l ∈ T.stash, l.dirty = 0) → s.txValid x = true → n ≠ 0 →
    c.txeAct n t s = .ok (s.txCommit t n x) ∧ ((s.txCommit t n x).pod.predMask n).getLsbD t = true ∧
      (s.txCommit t n x).pod.inTx t = false ∧ (x.writes = [] → (s.txCommit t n x).mem = s.mem)) ∧
  (∀ n x T, c.s.pod.inTx t = true → c.txClash t = false → s.pod.txOf t = some x → s.findTeam s.pod.id.team = some T → T.irrev = true →
    s.txValid x = false → c.txeAct n t s = .moved (s.abortTx t 2 0)) ∧
  (∀ n, c.s.pod.inTx t = true → c.txClash t = true → c.txeAct n t s = .moved (s.abortTx t 1 0)) ∧
  (s.pod.inTx t = true → c.txaAct t s = .moved (s.abortTx t 5 (c.val 0 t))) ∧
  (∀ x code extra, s.pod.txOf t = some x → x.dst < 1024 → code < 2 ^ 8 → let v := s.abortTx t code extra
    v.pod.inTx t = false ∧ (v.pod.rdV t x.dst).toNat % 2 ^ 8 = code % 2 ^ 8 ∧ (v.pod.rdV t x.dst).toNat / 2 ^ 8 % 2 ^ 8 = extra % 2 ^ 8 ∧
    v.pod.tagOf x.dst = 2 ∧ v.mem = s.mem ∧ v.pod.ctl = s.pod.ctl ∧
    (x.trap = s.pod.trapLevel → ∀ k, s.pod.ctl[t]? = some k → v.pod.leaveTx.ctl[t]? = some { k with pc := x.resume }))

/-- R370, R371: WRQ completes when every thread's turn does, and does so where its places lie in this package; a turn whose payload and
queue word lie in this package writes the payload, adds one to the queue word, and leaves the old queue word outstanding, after a release at
its scope. -/
def Sys2Proof.Claims.TheWriteWithEnqueue : Prop := ∀ (h : Head) (f : FormQ),
  let sp := fun _ : State =>
    accessOnly { srcs := [addrSrc 1 f.a, addrSrc 3 f.c] ++ wrqRun f, dst := some { code := f.dst, acc := [.v, .zero], tag := 2 } }
  let pay := fun c : Ctx => c.check (wrqReq (4 * wrqWords f)) (c.addr 0)
  let que := fun c : Ctx => ({ c with s := (pay c).2 } : Ctx).check (wrqReq 4) (c.addr 1)
  TurnsDo (.wrq h f) h sp AtRest (fun c => c.lanes) (fun c => (que c).2.noteStore) (fun c => c.wrqAct f (pay c).1 (que c).1) ∧
  TurnsComplete (.wrq h f) h sp (fun c => AtRest c ∧ Calm c ∧ PlacedHere c (pay c).1 ∧ PlacedHere c (que c).1) (fun c => c.lanes)
    (fun c => (que c).2.noteStore) (fun c => c.wrqAct f (pay c).1 (que c).1) ∧
  (∀ (c : Ctx) (chk ask : List (Nat × Dword × Checked)) (t : Nat) (s u : State) (ea eq : Dword) (a q : List Nat) (T : Team),
    let words := (List.range (wrqWords f)).map fun i => BitVec.ofNat 32 (c.val (2 + i) t)
    let bytes := words.flatMap fun w => toBytes 4 w.toNat
    checkedOf chk t = (ea, .ok (.mem a)) → checkedOf ask t = (eq, .ok (.mem q)) → s.serial = none → s.pod.asking = false →
    s.findTeam s.pod.id.team = some T → T.irrev = true → s.release s.pod.id.team (wrqScope f) = .ok u → u.pod.id.team = s.pod.id.team →
    (∀ pa ∈ a, (areaOf pa).isPeer = false) → (areaOf (q.headD 0)).isPeer = false → a.length = bytes.length →
    let v := u.writeHomeAll s.pod.id.team a bytes
    let old := ofBytes (v.rdAll (run (q.headD 0) 4))
    c.wrqAct f chk ask t s = .ok (c.loadLater .wrq (loadDest f.dst t 1) 2 4 t ea { value := old }
      (v.writeHomeAll s.pod.id.team (run (q.headD 0) 4) (toBytes 4 (old + 1))).tickle))

/-! ## Copies, rings and attached operations (R366 to R401) -/

namespace Sys2Proof.Claims

open Machine

/-- The old handle of a register stands in the way of no new one: it names no operation (R402). -/
def HandleFree (c : Ctx) (dst : Code) : Prop := c.s.opOf (c.s.pod.h.get (classOf dst).2) = none

/-- The state after a new operation of a kind is issued under a handle register (R400). -/
def issued (c : Ctx) (dst : Code) (setb : BitVec 4) (k : OpKind) (s : State) : State := (c.issueOp (some (classOf dst).2) setb k s).2

/-- The pushes of the threads of a context, in ascending order (R379, R391). -/
def pushAll (c : Ctx) (r : Nat) : State := c.s.onRing r fun x => c.lanes.foldl (fun y t => (y.reserve 1).fill y.prd (c.val 0 t)) x

/-- What the threads of a context find at the head of a ring, from an offset (R391). -/
def headElems (c : Ctx) (x : Ring) (off : Nat) : List (Nat × LaneRes) :=
  ((List.range c.lanes.length).zip c.lanes).map fun y => (y.2, { val := x.elem (x.con + BitVec.ofNat 32 (off + y.1)) })

end Sys2Proof.Claims

/-- R66, R400: a new operation joins the others under the next token, runs, holds its flags set until its events, and its handle register
holds its token; nothing else changes. -/
def Sys2Proof.Claims.TheOperationsStart : Prop := ∀ (c : Ctx) (reg : Option Nat) (setb : BitVec 4) (k : OpKind) (s : State),
  let o := (c.issueOp reg setb k s).1
  let u := (c.issueOp reg setb k s).2
  o.token = s.nextToken ∧ o.kind = k ∧ o.pod = s.pod.id ∧ o.state = .running ∧ o.fault = none ∧ u.ops = s.ops ++ [o] ∧
  u.nextToken = s.nextToken + 1 ∧ u = { s with pod := u.pod, ops := u.ops, nextToken := u.nextToken } ∧
  u.pod = { s.pod with h := u.pod.h, flags := u.pod.flags } ∧
  (∀ r, u.pod.h.get r = if reg = some r then BitVec.ofNat 32 s.nextToken else s.pod.h.get r) ∧
  (∀ f, f < 12 → u.pod.flags.get f = s.pod.flags.get f + (if c.head.seta.toNat = f then 1 else 0) + (if setb.toNat = f then 1 else 0))

/-- R366 to R369: CPY and TIERCP clear their tag and start a copy; they wait while a copy on the tag is in flight, and raise ILLEGAL_OP
where the phase is not irrevocable. TAGWA, TAGWN and TAGFF leave the tags that are set outstanding once they have what they wait for. -/
def Sys2Proof.Claims.TheCopies : Prop := ∀ (h : Head),
  (∀ f : FormQ, let sd := f.flags.getLsbD 8
    let ss := f.flags.getLsbD 7
    let n := copyTag f
    let sp := accessOnly { srcs := [copySrc 1 f.a sd, copySrc 2 f.b ss,
                                    { field := 3, arg := .code f.c, acc := [.v, .k, .zero], tags := [2] }] }
    let fits := fun c : Ctx => ∀ t ∈ c.lanes, (sd = true → c.s.team.sharedOk (c.copyPart t).dst.toNat (c.copyPart t).len = true) ∧
      (ss = true → c.s.team.sharedOk (c.copyPart t).src.toNat (c.copyPart t).len = true)
    Does (.cpy h f) h (fun _ => sp)
      (fun c => c.txThreads = [] ∧ c.s.inFlight c.s.pod.id.team n = false ∧ fits c ∧ (sd = false → c.s.copyBarred = false))
      (fun c t => Retires c 0 (c.issueOp none 15 (.cpy n (copyScope f) sd ss (c.lanes.map c.copyPart))
        (c.s.setTeam (c.s.team.setCtag n false)).noteStore).2 t) ∧
    Waits (.cpy h f) h (fun _ => sp) (fun _ => .tag) (fun c => c.txThreads = [] ∧ c.s.inFlight c.s.pod.id.team n = true) Ctx.s ∧
    Traps (.cpy h f) h (fun _ => sp)
      (fun c => c.txThreads = [] ∧ c.s.inFlight c.s.pod.id.team n = false ∧ fits c ∧ sd = false ∧ c.s.copyBarred = true)
      (fun c => c.s.pod.before .illegalOp 0 0 0)) ∧
  (∀ f : FormQ, let size := tierPageSize f
    let n := copyTag f
    let start := fun c : Ctx => c.issueOp (some (classOf f.dst).2) 15
      (.tiercp (c.addr 0 0) (c.addr 1 0) (c.val 2 0) size n (copyScope f)) (c.s.setTeam (c.s.team.setCtag n false)).noteStore
    let sp : Spec := { pod := true, dst := some (hDst f.dst)
                       srcs := [{ field := 1, arg := .code f.a, acc := [.k], regs := 2 }, { field := 2, arg := .code f.b, acc := [.k], regs := 2 },
                                { field := 3, arg := .code f.c, acc := [.k, .zero], tags := [2] }] }
    Does (.tiercp h f) h (fun _ => sp)
      (fun c => c.txThreads = [] ∧ (c.addr 0 0).toNat % size = 0 ∧ (c.addr 1 0).toNat % size = 0 ∧ c.s.copyBarred = false ∧
        c.s.inFlight c.s.pod.id.team n = false ∧ HandleFree c f.dst)
      (fun c t => Retires c 0 (if c.val 2 0 = 0 then (start c).2.finishTier (start c).1 n else (start c).2) t)) ∧
  (∀ f : FormRI, let sp : Spec := { pod := true, srcs := [tagMaskSrc (f.argB 64)], dst := some (tagDst f.dst 2) }
    let set := fun c : Ctx => c.addr 0 0 &&& c.s.team.ctag
    let later := fun (c : Ctx) (t : State) => Retires c 0 (c.outstanding .load [(c.lanes.headD 0, { val := (set c).toNat })] c.s) t
    Does (.tagwa h f) h (fun _ => sp) (fun c => c.txThreads = [] ∧ c.s.pod.tagFaults (c.addr 0 0) = [] ∧ set c = c.addr 0 0) later ∧
    Does (.tagwn h f) h (fun _ => sp)
      (fun c => c.txThreads = [] ∧ c.s.pod.tagFaults (c.addr 0 0) = [] ∧ (c.addr 0 0 = 0 ∨ set c ≠ 0)) later ∧
    Waits (.tagwa h f) h (fun _ => sp) (fun _ => .tag)
      (fun c => c.txThreads = [] ∧ c.s.pod.tagFaults (c.addr 0 0) = [] ∧ set c ≠ c.addr 0 0) Ctx.s) ∧
  (∀ f : FormR, Does (.tagff h f) h (fun _ => { pod := true, srcs := [tagMaskSrc (.code f.b)], dst := some (tagDst f.dst 1) })
    (fun c => c.txThreads = [] ∧ c.s.pod.tagFaults (c.addr 0 0) = []) fun c t =>
      Retires c 0 (c.outstanding .load [(c.lanes.headD 0, { val := lowestTag (c.addr 0 0 &&& c.s.team.ctag) })] c.s) t)

/-- R377: a push takes the slot at PRD, and PUB and PRD step when no other slot is open; a pop takes the slot at CON; a reservation opens
slots, and filling the first of them publishes it. The counts say what can be popped and pushed. -/
def Sys2Proof.Claims.TheRingCounts : Prop := ∀ (r : Ring) (v n : Nat) (w : Word),
  ((r.pub = r.prd → r.map = 0 → let y := (r.reserve 1).fill r.prd v
    y.prd = r.prd + 1 ∧ y.pub = r.pub + 1 ∧ y.con = r.con ∧ y.map = 0 ∧ y.elem r.prd = v % 2 ^ 128 ∧
    (w.toNat % r.depth ≠ r.prd.toNat % r.depth → y.elem w = r.elem w))) ∧
  ((r.pop n).con = r.con + BitVec.ofNat 32 n ∧ (r.pop n).prd = r.prd ∧ (r.pop n).pub = r.pub ∧ (r.pop n).elem w = r.elem w) ∧
  ((r.reserve n).prd = r.prd + BitVec.ofNat 32 n ∧ (r.reserve n).pub = r.pub ∧ (r.reserve n).con = r.con) ∧
  (n ≤ r.occ → (r.pop n).occ = r.occ - n) ∧
  (n ≤ r.room → (r.prd - r.con).toNat ≤ r.depth → r.depth < 2 ^ 32 → (r.reserve n).room = r.room - n)

/-- R388, R391 to R394: the ring instructions, where the port they name is bound and the ring is ready: QBIND and QFREE bind and free a
port, QFLUSH empties the ring, QPUSH, QPOP and QPEEK push, pop and read one element a thread, QSTAT reads a count, QRES reserves slots,
QPUB fills them, QWAIT reads the count it waits for. -/
def Sys2Proof.Claims.TheRingInstructions : Prop := ∀ (h : Head) (r : Nat) (x : Ring),
  (∀ f : FormQ, let m := bits f.desc.toNat 7 5
    let n := (classOf f.dst).2
    Does (.qbind h f) h (fun s => { pod := true, bad := (classOf f.dst).1 != .q || decide (s.team.rings.length ≤ m) }) (fun _ => True)
      (fun c t => Retires c 0 (withPod c.s { c.s.pod with q := (n, m) :: c.s.pod.q.filter fun x => x.1 ≠ n }) t) ∧
    Does (.qfree h f) h (fun _ => { pod := true, bad := (classOf f.dst).1 != .q }) (fun _ => True)
      (fun c t => Retires c 0 (withPod c.s { c.s.pod with q := c.s.pod.q.filter fun x => x.1 ≠ n }) t) ∧
    Does (.qflush h f) h (fun s => { pod := true, bad := portBad (s.portName f.a) fun _ => false })
      (fun c => c.s.portName f.a = some (r, x) ∧ c.s.ringBusy c.s.pod.id.team r = false ∧ x.att = false ∧ x.drn = false)
      (fun c t => Retires c 0 (c.s.onRing r fun x =>
        { x with con := x.prd, pub := x.prd, map := 0, void := 0, par := false, slots := [], bad := [] }) t) ∧
    Does (.qres h f) h
      (fun s => { pod := true, srcs := [uniSrc 2 (.code f.b)], dst := some { code := f.dst, acc := [.k] }
                  bad := portBad (s.portName f.a) fun x => x.att || s.argVal (.code f.b) == 0 || decide (64 < s.argVal (.code f.b)) ||
                    decide (x.depth < s.argVal (.code f.b)) })
      (fun c => c.s.portName f.a = some (r, x) ∧ x.takes (c.val 0 0) = true)
      (fun c t => Retires c 0 (c.put x.prd.toNat (c.s.onRing r fun x => x.reserve (c.val 0 0))) t ∧
        Wrote c 0 (onceRes c x.prd.toNat) t) ∧
    Does (.qpub h f) h
      (fun s => { srcs := [pushSrc f.b (portRingOf (s.portName f.a)), { field := 3, arg := .code f.c, acc := valAcc }]
                  bad := portBad (s.portName f.a) Ring.att, carries := true, lanewise := true })
      (fun c => c.s.portName f.a = some (r, x) ∧ (c.lanes.map fun t => BitVec.ofNat 32 (c.val 1 t)).Nodup ∧
        ∀ t ∈ c.lanes, x.openSlot (BitVec.ofNat 32 (c.val 1 t)) = true)
      (fun c t => Retires c 0 (c.s.onRing r fun x => c.lanes.foldl (fun y t => y.fill (BitVec.ofNat 32 (c.val 1 t)) (c.val 0 t)) x) t)) ∧
  (∀ f : FormR,
    let pushSp := fun s : State => ({ srcs := [pushSrc f.b (portRingOf (s.portName f.a))], dst := some { code := f.dst, acc := [.p, .zero] }
                                      smod := f.smod, mtgt := f.mtgt, carries := true
                                      bad := portBad (s.portName f.a) Ring.att ||
                                        (!f.flags.getLsbD 0 && (classOf f.dst).1 != .zero) } : Spec)
    let popSp := fun s : State => ({ dst := some (popDst f.dst (portRingOf (s.portName f.a))), smod := f.smod, mtgt := f.mtgt
                                     bad := portBad (s.portName f.a) Ring.drn || popBad f } : Spec)
    let peekSp := fun s : State => { popSp s with srcs := [uniSrc 2 (.code f.b)] }
    let n := fun c : Ctx => c.lanes.length
    let m := fun c : Ctx => (popThreads f c).lanes.length
    Does (.qpush h f) h pushSp (fun c => c.s.portName f.a = some (r, x) ∧ n c ≤ x.depth ∧ x.takes (n c) = true)
      (fun c t => Retires c 0 (c.outcome f.dst true (pushAll c r)) t) ∧
    Does (.qpush h f) h pushSp (fun c => c.s.portName f.a = some (r, x) ∧ n c ≤ x.depth ∧ x.takes (n c) = false ∧ f.flags.getLsbD 0 = true)
      (fun c t => Retires c 0 (c.outcome f.dst false c.s) t) ∧
    Waits (.qpush h f) h pushSp (fun _ => .ring r)
      (fun c => c.s.portName f.a = some (r, x) ∧ n c ≤ x.depth ∧ x.takes (n c) = false ∧ f.flags.getLsbD 0 = false) Ctx.s ∧
    Does (.qpop h f) h popSp
      (fun c => c.s.portName f.a = some (r, x) ∧ m c ≤ x.depth ∧ m c ≤ x.occ ∧ x.open_ ≤ 64 ∧ x.bad = [])
      (fun c t => Retires c 0 (c.outcome f.c true
        (((popThreads f c).write (headElems (popThreads f c) x 0) c.s).onRing r fun x => x.pop (m c))) t) ∧
    Does (.qpop h f) h popSp
      (fun c => c.s.portName f.a = some (r, x) ∧ m c ≤ x.depth ∧ x.occ < m c ∧ f.flags.getLsbD 0 = true)
      (fun c t => Retires c 0 ((popThreads f c).outcome f.c false c.s) t) ∧
    Waits (.qpop h f) h popSp (fun _ => .ring r)
      (fun c => c.s.portName f.a = some (r, x) ∧ m c ≤ x.depth ∧ x.occ < m c ∧ f.flags.getLsbD 0 = false) Ctx.s ∧
    Does (.qpeek h f) h peekSp
      (fun c => c.s.portName f.a = some (r, x) ∧ c.val 0 0 + m c ≤ x.depth ∧ c.val 0 0 + m c ≤ x.occ)
      (fun c t => Retires c 0 (c.outcome f.c true ((popThreads f c).write (headElems (popThreads f c) x (c.val 0 0)) c.s)) t) ∧
    Does (.qstat h f) h
      (fun s => { pod := isK f.dst, dst := some { code := f.dst, acc := [.v, .k], tag := 2 }, smod := f.smod, mtgt := f.mtgt
                  bad := portBad (s.portName f.a) fun _ => false })
      (fun c => c.s.portName f.a = some (r, x))
      (fun c t => Retires c 0 (c.write (c.lanes.map fun t => (t, { val := match f.flags.toNat % 8 with
          | 0 => (x.pub - x.con).toNat
          | 1 => x.depth - (x.prd - x.con).toNat
          | 2 => x.void.toNat
          | 3 => x.status
          | 4 => x.depth
          | _ => (x.prd - x.con).toNat }))
        (if f.flags.getLsbD 3 then c.s.onRing r fun x => { x with void := 0 } else c.s)) t)) ∧
  (∀ f : FormRI, let sp := fun s : State => ({ pod := true, srcs := [uniSrc 2 (f.argB 32)], dst := some (kDst f.dst), smod := f.smod
                                               mtgt := f.mtgt, bad := portBad (s.portName f.a) fun x =>
                                                 decide (x.depth < s.argVal (f.argB 32)) } : Spec)
    let room := match f with
      | .r f => f.flags.getLsbD 1
      | .i f => f.flags.getLsbD 1
    let count := if room then x.room else x.occ
    GatherDoesIf (fun c => c.s.portName f.a = some (r, x) ∧ c.val 0 0 ≤ count) (.qwait h f) h sp
      (fun c => onceRes c count) ∧
    Waits (.qwait h f) h sp (fun _ => .ring r)
      (fun c => c.s.portName f.a = some (r, x) ∧ count < c.val 0 0) Ctx.s)

/-- R395: LDQ and STQ complete when every thread's turn does, and do so where the places lie in this package. A turn of LDQ reserves the
next slot for its data; a turn of STQ stores the head element and pops it. -/
def Sys2Proof.Claims.TheGatherScatter : Prop := ∀ (h : Head) (f : FormM) (r : Nat) (x : Ring),
  let ldqSp := fun s : State => accessOnly { srcs := f.eaSrcs, lanewise := true
                                             bad := FormM_ringBad f (s.portName f.data) || portBad (s.portName f.data) Ring.att }
  let stqSp := fun s : State => accessOnly { srcs := f.eaSrcs, lanewise := true
                                             bad := FormM_ringBad f (s.portName f.data) || portBad (s.portName f.data) Ring.drn }
  let rd := fun c : Ctx => c.check { f.req .rd with mmio := true } (c.ea f 0)
  let wr := fun c : Ctx => c.check { f.req .wr with mmio := true } (c.ea f 0)
  let roomy := fun c : Ctx => c.s.portName f.data = some (r, x) ∧ c.lanes.length ≤ x.depth ∧ x.takes c.lanes.length = true
  let full := fun c : Ctx => c.s.portName f.data = some (r, x) ∧ c.lanes.length ≤ x.depth ∧ c.lanes.length ≤ x.occ
  TurnsDo (.ldq h f) h ldqSp (fun c => AtRest c ∧ roomy c) (fun c => c.lanes) (fun c => (rd c).2) (fun c => c.ldqTurn f r (rd c).1) ∧
  TurnsDo (.stq h f) h stqSp (fun c => AtRest c ∧ full c) (fun c => c.lanes) (fun c => (wr c).2.noteStore) (fun c => stqTurn f r (wr c).1) ∧
  TurnsComplete (.ldq h f) h ldqSp (fun c => AtRest c ∧ Calm c ∧ roomy c ∧ PlacedHere c (rd c).1 ∧ f.tag ≠ 17 ∧ f.tag ≠ 18)
    (fun c => c.lanes) (fun c => (rd c).2) (fun c => c.ldqTurn f r (rd c).1) ∧
  TurnsComplete (.stq h f) h stqSp (fun c => AtRest c ∧ Calm c ∧ full c ∧ x.bad = [] ∧ PlacedHere c (wr c).1)
    (fun c => c.lanes) (fun c => (wr c).2.noteStore) (fun c => stqTurn f r (wr c).1) ∧
  (∀ (c : Ctx) (chk : List (Nat × Dword × Checked)) (t : Nat) (s : State) (ea : Dword) (o : Nat), s.team.ring r = some x →
    checkedOf chk t = (ea, .ok (.shared o)) → (∀ y ∈ s.pod.pend, y.kind ≠ .check) →
    let data : Loaded := { value := ofBytes (s.team.rdShared o (sizeBytes f.size)), uncorr := s.team.sharedBad o (sizeBytes f.size) }
    (packedBad f.tag data = false →
      c.ldqTurn f r chk t s = .ok (c.loadLater (if f.nf then .ldqNf else .ldq) (.slot r x.prd.toNat) f.tag (sizeBytes f.size) t ea data
        (s.onRing r fun x => x.reserve 1) (f.order.getLsbD 0))) ∧
    (x.badAt x.con = false → f.order.getLsbD 1 = false → f.scope ≠ 5 →
      stqTurn f r chk t s = .ok ((s.wrShared o (toBytes (sizeBytes f.size) (x.elem x.con))).tickle.onRing r fun x => x.pop 1))) ∧
  (∀ (c : Ctx) (chk : List (Nat × Dword × Checked)) (t : Nat) (s : State) (ea a : Dword) (y : Cause) (arg : Word), s.team.ring r = some x →
    checkedOf chk t = (ea, .error (y, arg, a)) → f.nf = true → nfCause y = true →
    c.ldqTurn f r chk t s = .ok (s.onRing r fun x => ((x.reserve 1).fill x.prd (if x.tag = 20 then 0x40404040 else 0)).addVoid))

/-- R390, R396 to R398: RRDQ, SUBS and DRAINQ attach an operation to their ring under a handle, once the ring is free and their checks pass;
one of no element completes at once. -/
def Sys2Proof.Claims.TheAttachedOperations : Prop := ∀ (h : Head) (f : FormQ) (r : Nat) (x : Ring) (s v : State) (pa : Nat),
  let bound := fun c : Ctx => c.s.portName (descPort f) = some (r, x)
  let reg := (classOf f.dst).2
  let named := portBad (s.portName (descPort f)) fun _ => false
  let fills := fun o : Op × State => o.2.onRing r fun x => { x with att := true }
  let drains := fun o : Op × State => o.2.onRing r fun x => { x with drn := true }
  (let sp := accessOnly { pod := true, dst := some (hDst f.dst), bad := named
                          srcs := [kPair 1 f.a, uniSrc 2 (.code f.b), { field := 3, arg := .code f.c, acc := [.k, .zero] }] }
   let c := issueCtx s h sp
   let ue := f.desc.getLsbD 7
   let o := c.issueOp (some reg) 15 (.rrdq r (c.addr 0 0) (c.val 1 0) (if ue then some (c.val 2 0) else none)) v
   Ready (.rrdq h f) h sp s → bound c → (c.addr 0 0).toNat % x.esize = 0 →
   (if ue then v = c.s else onWindow (c.addr 0 0) = false ∧ c.s.translate c.s.team c.s.core (c.addr 0 0) .rd = (.ok pa, v) ∧
     (areaOf pa).isPeer = true ∧ v.pod = c.s.pod) → x.att = false → HandleFree { c with s := v } f.dst →
   v.irrevocable v.pod.id.team = .ok v →
   ∃ t, exec (.rrdq h f) s = .next t ∧
     Retires c 0 (if c.val 1 0 = 0 then (fills o).completeOp o.1
       else if ue && !(fills o).endpointOk (fills o).team (c.val 2 0) then (fills o).failOp o.1 .remoteFault 0 (c.addr 0 0)
       else fills o) t) ∧
  (let sp := accessOnly { pod := true, dst := some (hDst f.dst), bad := named, srcs := [kPair 1 f.a, uniSrc 2 (.code f.b)]
                          late := if s.copyBarred then some (.illegalOp, 0, 0) else none }
   let c := issueCtx s h sp
   let o := c.issueOp (some reg) 15 (.drainq r (c.addr 0 0) (c.val 1 0)) v
   Ready (.drainq h f) h sp s → bound c → (c.addr 0 0).toNat % x.esize = 0 → onWindow (c.addr 0 0) = false →
   c.s.translate c.s.team c.s.core (c.addr 0 0) .wr = (.ok pa, v) → x.drn = false → v.pod = c.s.pod →
   HandleFree { c with s := v } f.dst →
   ∃ t, exec (.drainq h f) s = .next t ∧ Retires c 0 (if c.val 1 0 = 0 then (drains o).completeOp o.1 else drains o) t) ∧
  (∀ lo hi u w, let sp := accessOnly { pod := true, dst := some (hDst f.dst), bad := named, srcs := [kPair 1 f.a] }
   let c := issueCtx s h sp
   let base := BitVec.ofNat 64 lo
   let o := c.issueOp (some reg) 15 (.subs r base (BitVec.ofNat 64 (bits lo 64 64)) (bits lo 128 32) (bits lo 160 32)) v
   Ready (.subs h f) h sp s → bound c → (c.addr 0 0).toNat % 64 = 0 → c.pollBytes (c.addr 0 0) 32 = .got lo u →
   ({ c with s := u } : Ctx).pollBytes (c.addr 0 0 + 32) 32 = .got hi w → streamBad x lo hi = false → x.att = false →
   w.pod.stepping = false → w.pod.halted = false → HandleFree { c with s := w } f.dst →
   w.translate w.team w.core base .rd = (.ok pa, v) → ((areaOf pa).isPeer = true → v.irrevocable v.pod.id.team = .ok v) → v.pod = w.pod →
   ∃ t, exec (.subs h f) s = .next t ∧ Retires c 0 (if bits lo 160 32 = 0 then (fills o).completeOp o.1 else fills o) t)

/-- R399: LCBR waits for the sequence word of its block and then writes its count and the word after it to the pair of its block address;
with a count of 0 the active threads branch. A block in the plain shared region is read there; one that is not 64-byte aligned raises
MISALIGNED. -/
def Sys2Proof.Claims.TheLoopCountBranch : Prop := ∀ (h : Head) (f : FormB),
  let sp : Spec := { pod := true, srcs := [blockSrc f.link, uniSrc 1 (.code f.a)] }
  let put := fun (u : State) (v : Nat) => withPod u (u.pod.wrKRun (classOf f.link).2 2 (bits v 32 64))
  let goes := fun (c : Ctx) (u : State) (v : Nat) (t : State) =>
    (bits v 32 32 ≠ 0 → Retires c 0 (put u v) t) ∧
    (bits v 32 32 = 0 → Retires c c.act (withPod (put u v) ((put u v).pod.branch c.this u.pod.depth
      ((threadsOf u.pod.width c.act).map fun t => (t, c.this + BitVec.ofInt 64 (12 * f.boff.toInt))))) t)
  (∀ (s u : State) (v : Nat), let c := issueCtx s h sp
    Ready (.lcbr h f) h sp s → (c.addr 0 0).toNat % 64 = 0 → s.pod.wait = none → c.pollBytes (c.addr 0 0) 16 = .got v u →
    u.pod.stepping = false → u.pod.halted = false → v % 2 ^ 32 = c.val 1 0 → ∃ t, exec (.lcbr h f) s = .next t ∧ goes c u v t) ∧
  (let v := fun c : Ctx => ofBytes (c.s.team.rdShared ((c.addr 0 0).toNat - windowBase) 16)
   Does (.lcbr h f) h (fun _ => sp) (fun c => (c.addr 0 0).toNat % 64 = 0 ∧ c.s.pod.wait = none ∧ (∀ x ∈ c.s.pod.pend, x.kind ≠ .poll) ∧
      onWindow (c.addr 0 0) = true ∧ c.s.team.sharedOk ((c.addr 0 0).toNat - windowBase) 16 = true ∧
      c.s.team.watched .rd (c.addr 0 0).toNat 16 = false ∧ c.s.team.sharedBad ((c.addr 0 0).toNat - windowBase) 16 = false ∧
      v c % 2 ^ 32 = c.val 1 0)
    (fun c t => goes c c.s (v c) t)) ∧
  Traps (.lcbr h f) h (fun _ => sp) (fun c => (c.addr 0 0).toNat % 64 ≠ 0) (fun c => c.s.pod.before .misaligned 0 0 (c.addr 0 0))

/-! ## Handles, engines and collectives (R401 to R432) -/

namespace Sys2Proof.Claims

open Machine

/-- An instruction of the issuing pod raises a cause after it has brought the state to `u` (R38, R266, R401). -/
def TrapsFrom (i : Instr) (h : Head) (sp : State → Spec) (pre : Ctx → Prop) (u : Ctx → State) (r : Ctx → TrapReq) : Prop :=
  ∀ s, Ready i h (sp s) s → pre (issueCtx s h (sp s)) → ∃ t, exec i s = .next t ∧
    t = { (u (issueCtx s h (sp s))).raise (r (issueCtx s h (sp s))) with ecnt := t.ecnt, free := t.free } ∧
    Counted s ((u (issueCtx s h (sp s))).raise (r (issueCtx s h (sp s)))) t

/-- The operation of a handle register of the issuing pod. -/
def Ctx.opAt (c : Ctx) (reg : Code) : Option Op := c.s.opOf (c.s.pod.h.get (classOf reg).2)

/-- The first completed read of an operation is on record (R401). -/
def seenOp (s : State) (o : Op) : State := s.onOp o.token fun o => { o with seen := true }

/-- An operation that can be discarded at once where it runs (R407): no collective, and no copy of a page that has begun. -/
def Discards (o : Op) : Prop :=
  match o.kind with
  | .coll _ | .gbar _ => False
  | .tiercp .. => o.part = 0 ∧ o.asks = []
  | _ => True

/-- The state in which the faulted operation of a handle is held, and its fault no longer deferred anywhere (R401). -/
def heldOp (s : State) (o : Op) : State :=
  (s.mapPods fun p => { p with deferred := p.deferred.filter fun d => d.op ≠ some o.token }).onOp o.token fun o => { o with state := .held }

end Sys2Proof.Claims

/-- R401, R406, R112: HWAIT completes at a complete operation, of a GBAR once the pod's loads have returned (R335), and waits at a running one;
at a faulted one it raises the fault, once, and the operation is held; a handle that names no operation raises HANDLE_INVALID. -/
def Sys2Proof.Claims.TheHandleReads : Prop := ∀ (h : Head) (f : FormR) (o : Op),
  let sp : Spec := { pod := true, srcs := [hSrc f.a] }
  let reg := (classOf f.a).2
  Does (.hwait h f) h (fun _ => sp) (fun c => Ctx.opAt c f.a = some o ∧ o.state = .complete ∧ (o.isGbar = true → c.s.pod.loading = false))
    (fun c t => Retires c 0 (seenOp c.s o) t) ∧
  Waits (.hwait h f) h (fun _ => sp) (fun _ => .handle)
    (fun c => Ctx.opAt c f.a = some o ∧ o.state = .complete ∧ o.isGbar = true ∧ c.s.pod.loading = true) Ctx.s ∧
  Waits (.hwait h f) h (fun _ => sp) (fun _ => .handle) (fun c => Ctx.opAt c f.a = some o ∧ o.state = .running ∧ ∀ a x, o.kind ≠ .rcsnap a x)
    (fun c => c.s.onOp o.token fun o => { o with readAt := some (o.readAt.getD c.s.cycle) }) ∧
  (∀ x a, TrapsFrom (.hwait h f) h (fun _ => sp) (fun c => Ctx.opAt c f.a = some o ∧ o.state = .faulted ∧ o.fault = some (x, a))
    (fun c => heldOp c.s o) (fun c => c.s.pod.before x 0 (BitVec.ofNat 32 (o.kpos * 2 ^ 16 + reg)) a)) ∧
  Traps (.hwait h f) h (fun _ => sp) (fun c => Ctx.opAt c f.a = none) (fun c => c.s.pod.before .handleInvalid 0 (BitVec.ofNat 32 reg) 0)

/-- R406, R407: HTEST reads the state of an operation, where a complete GBAR counts as running while loads of the pod are outstanding (R335);
HCAN makes a complete handle invalid and discards any other operation, but waits for a running collective and for a page that a TIERCP has
begun; HPASS moves a handle to a free slot of the exchange, and HTAKE takes it from there. -/
def Sys2Proof.Claims.TheHandleInstructions : Prop := ∀ (h : Head) (f : FormR) (o : Op),
  let one : Spec := { pod := true, srcs := [hSrc f.a] }
  let reg := (classOf f.a).2
  let test : Spec := { pod := true, srcs := [hSrc f.a], dst := some { code := f.dst, acc := [.p, .k] } }
  let shows := fun c : Ctx => if o.state = .complete && o.isGbar && c.s.pod.loading then OpState.running else o.state
  let seen := fun c : Ctx => if shows c = .complete then seenOp c.s o else c.s
  let pass := fun s : State => ({ pod := true, srcs := [hSrc f.a, slotSrc f.b], bad := decide (15 < s.argVal (.code f.b)) } : Spec)
  let take := fun s : State =>
    ({ pod := true, dst := some (hDst f.dst), srcs := [slotSrc f.b], bad := decide (15 < s.argVal (.code f.b)) } : Spec)
  let invalid := fun c : Ctx => c.s.pod.before .handleInvalid 0 (BitVec.ofNat 32 reg) 0
  let clear := fun s : State => s.setPod { s.pod with h := s.pod.h.set reg 0 }
  (∀ n, classOf f.dst = (.p, n) → Does (.htest h f) h (fun _ => test) (fun c => Ctx.opAt c f.a = some o) (fun c t =>
    Retires c 0 ((seen c).setPod ((seen c).pod.wrPred n c.act (if shows c = .complete then c.act else 0))) t)) ∧
  (∀ n, classOf f.dst = (.k, n) → Does (.htest h f) h (fun _ => test) (fun c => Ctx.opAt c f.a = some o) (fun c t =>
    Retires c 0 (c.put (shows c).code (seen c)) t ∧ t.pod.rdK n = BitVec.ofNat 32 (shows c).code)) ∧
  Traps (.htest h f) h (fun _ => test) (fun c => Ctx.opAt c f.a = none) invalid ∧
  Does (.hcan h f) h (fun _ => one) (fun c => Ctx.opAt c f.a = some o ∧ o.state = .complete) (fun c t => Retires c 0 (clear c.s) t) ∧
  Does (.hcan h f) h (fun _ => one) (fun c => Ctx.opAt c f.a = some o ∧ o.state ≠ .complete ∧ (o.state = .running → Discards o))
    (fun c t => Retires c 0 (clear (c.s.discardOp o)) t ∧ (∀ x ∈ t.ops, x.token ≠ o.token)) ∧
  Waits (.hcan h f) h (fun _ => one) (fun _ => .handle) (fun c => Ctx.opAt c f.a = some o ∧ o.state = .running ∧ ∃ n, o.kind = .coll n ∨ o.kind = .gbar n)
    (fun c => c.s.onOp o.token fun o => { o with readAt := some (o.readAt.getD c.s.cycle) }) ∧
  (∀ n a b l i j, Waits (.hcan h f) h (fun _ => one) (fun _ => .handle)
    (fun c => Ctx.opAt c f.a = some o ∧ o.state = .running ∧ o.kind = .tiercp n a b l i j ∧ ¬Discards o)
    (fun c => c.s.onOp o.token fun o => { o with cancel := true })) ∧
  Traps (.hcan h f) h (fun _ => one) (fun c => Ctx.opAt c f.a = none) invalid ∧
  Does (.hpass h f) h pass
    (fun c => Ctx.opAt c f.a = some o ∧ ∀ x ∈ c.s.team.xchg, x.1 ≠ c.val 1 0)
    (fun c t => Retires c 0 (clear (c.s.setTeam
      { c.s.team with xchg := c.s.team.xchg ++ [(c.val 1 0, c.s.pod.h.get reg, c.s.pod.id)] })).tickle t) ∧
  Traps (.hpass h f) h pass (fun c => Ctx.opAt c f.a = none) invalid ∧
  StopsOperand (.hpass h f) h pass ∧ StopsOperand (.htake h f) h take ∧
  Waits (.hpass h f) h pass (fun _ => .handle)
    (fun c => Ctx.opAt c f.a = some o ∧ ∃ x ∈ c.s.team.xchg, x.1 = c.val 1 0) Ctx.s ∧
  (∀ x, Does (.htake h f) h take
    (fun c => HandleFree c f.dst ∧ (c.s.team.xchg.find? fun y => y.1 = c.val 0 0) = some x)
    (fun c t => Retires c 0 (let s := c.s.setTeam { c.s.team with xchg := c.s.team.xchg.filter fun y => y.1 ≠ c.val 0 0 }
      s.setPod { s.pod with h := s.pod.h.set (classOf f.dst).2 x.2.1 }).tickle t)) ∧
  Waits (.htake h f) h take (fun _ => .handle)
    (fun c => HandleFree c f.dst ∧ ∀ y ∈ c.s.team.xchg, y.1 ≠ c.val 0 0) Ctx.s

/-- R409 to R411: TDEF puts a descriptor that keeps the rules of R410 into its slot once no operation names the slot, and refuses any other
with ILLEGAL_OPERAND; TDROP makes the slot undefined. -/
def Sys2Proof.Claims.TheTileSlots : Prop := ∀ (h : Head) (f : FormQ),
  let sp := fun s : State => ({ pod := true, exec := false, srcs := [{ field := 1, arg := .code f.a, acc := [.k], regs := 8 }]
                                bad := !descOk s.team.rings.length (BitVec.ofNat 256 (s.argVal (.code f.a) 8)) } : Spec)
  let d := fun c : Ctx => BitVec.ofNat 256 (c.val 0 0)
  let busy := fun c : Ctx => c.s.slotBusy c.s.pod.id.team (slotA f)
  Does (.tdef h f) h sp (fun c => busy c = false) (fun c t => Retires c 0 (c.s.setTile (slotA f) (d c)) t ∧
    t.team.tile (slotA f) = (if dKind (d c) = 0 then 0 else d c) ∧ (∀ n, n ≠ slotA f → t.team.tile n = c.s.team.tile n)) ∧
  Waits (.tdef h f) h sp (fun _ => .handle) (fun c => busy c = true) Ctx.s ∧
  StopsOperand (.tdef h f) h sp ∧
  Does (.tdrop h f) h (fun _ => { pod := true }) (fun c => busy c = false) (fun c t => Retires c 0 (c.s.setTile (slotA f) 0) t ∧
    t.team.tile (slotA f) = 0 ∧ (∀ n, n ≠ slotA f → t.team.tile n = c.s.team.tile n))

/-- R404, R412 to R418: MMA, MMAT and MMAS start an operation where their formats, bounds and arrays allow, wait while an array has eight in
its queue, and raise FORMAT_MISMATCH and STASH_BOUNDS otherwise. -/
def Sys2Proof.Claims.TheMatrixInstructions : Prop := ∀ (h : Head) (f : FormQ) (i : Instr) (v : Nat),
  ((i = .mma h f ∧ v = 0) ∨ (i = .mmat h f ∧ v = 1) ∨ (i = .mmas h f ∧ v = 2)) →
  let sp := fun s : State => s.matrixSpec f v
  let m := fun c : Ctx => c.s.newMatrix f v
  let room := fun c : Ctx => ∀ a ∈ c.s.arraysOf v, (c.s.queued a).length < 8
  let sound := fun c : Ctx => c.matrixBounds (m c) = none
  Does i h sp (fun c => sound c ∧ room c ∧ HandleFree c f.dst) (fun c t => Retires c 0 (issued c f.dst h.setb (.matrix (m c)) c.s) t) ∧
  Waits i h sp (fun _ => .handle) (fun c => sound c ∧ ¬room c) Ctx.s ∧
  StopsFormat i h sp (fun s => s.matrixTagFail (s.newMatrix f v)) ∧
  (∀ o, Traps i h sp (fun c => c.matrixBounds (m c) = some o)
    (fun c => c.s.pod.before .stashBounds 0 0 (BitVec.ofNat 64 o)))

/-- R422, R424: MVS and SVS start an operation of the stack engines where their tags and the format of the matrix allow, and raise
FORMAT_MISMATCH otherwise. -/
def Sys2Proof.Claims.TheStackInstructions : Prop := ∀ (h : Head) (f : FormQ) (i r : Nat) (x y : Ring),
  let d := fun s : State => s.team.tile (slotA f)
  let tagA := fun s : State => (portRingOf (s.portName f.a)).tag
  let tagB := fun s : State => (portRingOf (s.portName f.b)).tag
  let mvsField := fun s : State => if tagA s ≠ 3 ∧ tagA s ≠ 8 then some 1 else if tagB s ≠ 3 then some 2
    else if !denseFmts.contains (dFmt (d s)) then some 0 else none
  let svsField := fun s : State => if !csrFmts.contains (dFmt (d s)) then some 0
    else if tagB s ≠ (if dFmt (d s) = 0 then 4 else 3) then some 2 else none
  let fails := fun n : Option Nat => n.map fun n => (Cause.formatMismatch, n, (0 : Dword))
  let mvs := fun s : State => ({ pod := true, dst := some (hDst f.dst), illegal := decide (stackSat f = 2)
                                 bad := (portBad (s.portName f.a) fun x => x.drn || x.esize != 4 || decide (x.depth < xUnits x (dPitch (d s)))) ||
                                   (portBad (s.portName f.b) fun x => x.att || x.esize != 4) || dKind (d s) != 4
                                 late := fails (mvsField s) } : Spec)
  let svs := fun s : State =>
    ({ pod := true, dst := some (hDst f.dst), illegal := decide (stackSat f = 2)
       bad := (portBad (s.portName f.b) fun x => x.att || (csrFmts.contains (dFmt (d s)) && x.esize != (if dFmt (d s) = 0 then 8 else 4))) ||
         dKind (d s) != 5
       late := fails (svsField s) } : Spec)
  Does (.mvs h f) h mvs (fun c => c.s.portName f.a = some (i, x) ∧ c.s.portName f.b = some (r, y) ∧ HandleFree c f.dst)
    (fun c t => Retires c 0 (issued c f.dst 15 (.mvs (slotA f) (d c.s) i r (stackSat f) false [] 0) c.s) t) ∧
  StopsFormat (.mvs h f) h mvs mvsField ∧
  Does (.svs h f) h svs (fun c => c.s.portName f.b = some (r, y) ∧ HandleFree c f.dst)
    (fun c t => Retires c 0 (issued c f.dst 15 (.svs (slotA f) (d c.s) r (stackSat f) 0) c.s) t) ∧
  StopsFormat (.svs h f) h svs svsField

/-- R425, R427, R432: COLL and GBAR join the next instance of their channel, which they open if they are the first, and start an operation
that completes with it; a COLL whose pod receives nothing is complete at once; in a shadow team COLL raises IRREVOCABLE_ABORT. -/
def Sys2Proof.Claims.TheCollectiveInstructions : Prop := ∀ (h : Head) (f : FormQ) (u : State),
  let gsp := fun s : State => ({ pod := true, dst := some (hDst f.dst)
                                 illegal := f.span != 0 && !s.namesOwn s.team f.span f.channel } : Spec)
  let coll := fun c : Ctx => u.joinNext false f (u.collJoin f c.act)
  let gbar := fun c : Ctx => c.s.joinNext true f (c.s.gbarJoin f c.act)
  let start := fun c : Ctx => c.issueOp (some (classOf f.dst).2) 15 (.coll (coll c).1) (coll c).2
  let fine := fun c : Ctx => c.s.team.kernel.shadow = false ∧ HandleFree c f.dst ∧
    c.s.irrevocable c.s.pod.id.team = .ok u ∧ u.pod.stepping = false ∧ u.pod.halted = false
  Does (.coll h f) h (fun s => s.collSpec f) (fun c => fine c ∧ u.collReceives f = true) (fun c t => Retires c 0 (start c).2 t) ∧
  Does (.coll h f) h (fun s => s.collSpec f) (fun c => fine c ∧ u.collReceives f = false)
    (fun c t => Retires c 0 ((start c).2.completeOp (start c).1) t) ∧
  Traps (.coll h f) h (fun s => s.collSpec f) (fun c => c.s.team.kernel.shadow = true)
    (fun c => c.s.pod.before .irrevocableAbort 0 0 0) ∧
  StopsFormat (.coll h f) h (fun s => s.collSpec f)
    (fun s => s.pod.collTagBad f.collTy (classOf f.a).2 (if f.collSc then vOf f.c else none) (vOf f.b)) ∧
  Does (.gbar h f) h gsp (fun c => HandleFree c f.dst) (fun c t => Retires c 0 (issued c f.dst 15 (.gbar (gbar c).1) (gbar c).2) t)

/-- R425: a participant joins one instance: the open one of its kind, span, channel, key and number, or a new one. -/
def Sys2Proof.Claims.TheJoiningAnInstance : Prop := ∀ (s : State) (gbar : Bool) (span ch index : Nat) (sl : Slice) (j : CollJoin),
  (∀ c ∈ s.colls, c.id < s.nextColl) → (s.colls.map Collective.id).Nodup →
  let r := s.joinColl gbar span ch index sl j
  let fits := fun c : Collective => c.gbar = gbar ∧ c.span = span ∧ c.chan = ch ∧ c.key = s.collKey s.team span ch ∧ c.index = index ∧
    (gbar = true ∨ c.slice = sl)
  (∃ c ∈ r.2.colls, c.id = r.1 ∧ fits c ∧ j ∈ c.joins ∧ ∀ k ∈ c.joins, k = j ∨ ∃ d ∈ s.colls, d.id = c.id ∧ k ∈ d.joins) ∧
  (∀ c ∈ r.2.colls, c.id ≠ r.1 → c ∈ s.colls) ∧ (∀ c ∈ r.2.colls, c.id < r.2.nextColl) ∧ (r.2.colls.map Collective.id).Nodup ∧
  r.2 = { s with colls := r.2.colls, nextColl := r.2.nextColl }

/-- R229, R230: a pod that reaches TRED or TSCAN with every thread brings its effective threads' operands to the instance of its slice and
waits there; with a thread missing it raises ILLEGAL_OP. Its first arrival opens the instance. -/
def Sys2Proof.Claims.TheTeamReductions : Prop := ∀ (h : Head) (f : FormQ) (i : Instr) (scan : Bool),
  ((i = .tred h f ∧ scan = false) ∨ (i = .tscan h f ∧ scan = true)) →
  let sp : Spec := { gathers [xvSrc 1 f.a f.redRegs [f.redTag]]
      { code := f.dst, acc := if scan then [.v] else [.v, .k], regs := f.redRegs, tag := f.redTag } with cls := f.redCls, arrives := true }
  let sp := fun s : State => { sp with late := s.pod.lateUnless true }
  let part := fun c : Ctx => (⟨c.s.pod.id.idx, f.dst, c.mask, c.eff.map fun t => (t, c.val 0 t)⟩ : CollPart)
  let inst := fun c : Ctx => ({ slice := c.s.pod.id.slice, scan := scan, desc := f.desc, flags := f.flags, toK := isK f.dst
                                parts := [part c], dead := false } : CollInst)
  Waits i h sp (fun _ => .coll) (fun c => c.s.pod.atColl = false ∧ ∀ x ∈ c.s.team.insts, x.slice ≠ c.s.pod.id.slice)
    (fun c => (let s := c.s.setTeam (c.s.team.setInst c.s.pod.id.slice (some (inst c)))
      let s := s.countIssue s.core c.uni (if c.uni then some 0 else some c.eff.length)
      s.setPod { s.pod with arrived := true }).tickle) ∧
  Waits i h sp (fun _ => .coll) (fun c => c.s.pod.atColl = true) Ctx.s ∧
  StopsLate i h sp (fun s => s.pod.trapLevel = true ∨ s.pod.active ≠ full s.pod.width &&& ~~~s.pod.exited) .illegalOp

/-! ## Other teams, counters and debug (R254 to R259, R510 to R519) -/

namespace Sys2Proof.Claims

open Machine

/-- A status instruction completes with its status in its destination. -/
def Answers (c : Ctx) (x : Nat) (u t : State) : Prop := Retires c 0 (c.put x u) t ∧ Wrote c 0 (onceRes c x) t

/-- The state in which a pod waits for an action after which it writes status `x` (R258). -/
def awaiting (s : State) (x : Nat) : State := s.setPod { s.pod with wait := some ⟨.time, s.cycle, some (10 + x), s.progress⟩ }

end Sys2Proof.Claims

/-- R254: LAUNCH, where every named queue takes its packets, does its threads' turns after the phase is irrevocable and released: each enqueues
its packet, and its predicate becomes true; with .try and no room its predicates become false, and without it waits; at nesting depth 10 it
raises NEST_DEPTH, in a shadow team IRREVOCABLE_ABORT, and PROTECTION with reason 0x17 at the threads whose queue the team may not feed. -/
def Sys2Proof.Claims.TheLaunch : Prop := ∀ (h : Head) (f : FormQ) (u : State),
  let sp : Spec := { srcs := [{ field := 1, arg := .code f.a, acc := valAcc }, { field := 2, arg := .code f.b, acc := [.v, .k], regs := 2 }]
                     dst := some { code := f.dst, acc := [.p, .zero] } }
  let may := fun c : Ctx => c.txThreads = [] ∧ c.s.team.depth ≠ 10 ∧ c.s.team.kernel.shadow = false ∧
    ∀ t ∈ c.lanes, c.s.feedsQueue (c.val 0 t) = true
  let room := fun c : Ctx => c.s.launchRoom (c.lanes.map fun t => c.val 0 t)
  TurnsDo (.launch h f) h (fun _ => sp) (fun c => may c ∧ room c = true ∧
      ((c.s.irrevocable c.s.pod.id.team).then_ fun s => s.release s.pod.id.team 4) = .ok u)
    (fun c => c.lanes) (fun _ => u) (fun c => c.launchTurn f.dst) ∧
  Does (.launch h f) h (fun _ => sp) (fun c => may c ∧ room c = true ∧
      ((c.s.irrevocable c.s.pod.id.team).then_ fun s => s.release s.pod.id.team 4) = .ok u ∧ u.pod.stepping = false ∧ u.pod.halted = false ∧
      (∀ x ∈ u.pod.pend, x.kind ≠ .poll) ∧ (∀ t ∈ c.lanes, u.feedsQueue (c.val 0 t) = true) ∧
      u.team.watch = none ∧ ∀ t ∈ c.lanes, ∀ d ∈ [0, 32], let a := BitVec.ofNat 64 (c.val 1 t + d)
        onWindow a = true ∧ u.team.sharedOk (a.toNat - windowBase) 32 = true ∧ u.team.sharedBad (a.toNat - windowBase) 32 = false)
    (fun c t => Retires c u.pod.leavers (c.lanes.foldl (fun s t =>
      let half := fun d => u.team.rdShared ((BitVec.ofNat 64 (c.val 1 t + d)).toNat - windowBase) 32
      let s := s.enqueue (c.val 0 t) (half 0 ++ half 32)
      match classOf f.dst with
      | (.p, n) => s.setPod (s.pod.wrPred n (one t) (one t))
      | _ => s) u) t) ∧
  Does (.launch h f) h (fun _ => sp) (fun c => may c ∧ room c = false ∧ f.flags.getLsbD 0 = true)
    (fun c t => Retires c 0 (c.outcome f.dst false c.s) t) ∧
  Waits (.launch h f) h (fun _ => sp) (fun _ => .time) (fun c => may c ∧ room c = false ∧ f.flags.getLsbD 0 = false) Ctx.s ∧
  let stops := fun (c : Ctx) (x : Cause) (arg : Word) (ts : List Nat) =>
    if c.uni then c.s.pod.before x 0 arg 0 else c.s.pod.atThread x (ts.headD 0) (maskOf ts) arg 0
  let unfed := fun c : Ctx => c.lanes.filter fun t => !c.s.feedsQueue (c.val 0 t)
  Traps (.launch h f) h (fun _ => sp) (fun c => c.txThreads = [] ∧ c.s.team.depth = 10) (fun c => stops c .nestDepth 0 c.lanes) ∧
  Traps (.launch h f) h (fun _ => sp) (fun c => c.txThreads = [] ∧ c.s.team.depth ≠ 10 ∧ c.s.team.kernel.shadow = true)
    (fun c => stops c .irrevocableAbort 0 c.lanes) ∧
  Traps (.launch h f) h (fun _ => sp)
    (fun c => c.txThreads = [] ∧ c.s.team.depth ≠ 10 ∧ c.s.team.kernel.shadow = false ∧ unfed c ≠ [])
    (fun c => stops c .protection (xlateArg 0xFF 0x17) (unfed c))

/-- R254, R439: a turn of LAUNCH that has read its 64 bytes puts them, with the issuing pod's PRIO and the next DEPTH, into the slot of its
queue at TAIL, steps TAIL, and counts a child of the team and of its grid. -/
def Sys2Proof.Claims.TheEnqueue : Prop := ∀ (s : State) (q : Nat) (x : Queue) (bs : List Byte),
  s.findQueue q = some x → bs.length = 64 →
  let u := s.enqueue q bs
  (∃ y, u.findQueue q = some y ∧ y.tail = x.tail + 1 ∧ y.head = x.head ∧ y.ring = x.ring ∧ y.lsize = x.lsize ∧
    y.parents = x.parents ++ [(x.tail.toNat, s.team.id.grid, s.team.id.l, s.core)]) ∧
  (∀ p, p ≠ q → u.findQueue p = s.findQueue p) ∧ u.team.children = s.team.children + 1 ∧ u.pod = s.pod ∧ u.pods = s.pods ∧
  (∀ a, u.rdByte a =
    let at_ := x.ring + 64 * (x.tail.toNat % 2 ^ x.lsize)
    if a < at_ ∨ at_ + 64 ≤ a then s.rdByte a
    else if a - at_ = 0x3A then BitVec.ofNat 8 s.pod.prio.toNat
    else if a - at_ = 0x3B then BitVec.ofNat 8 (s.team.depth + 1) else bs.getD (a - at_) 0) ∧
  (∀ g ∈ u.grids, ∃ e ∈ s.grids, g = { e with children := e.children + (if e.id = s.team.id.grid then 1 else 0) })

/-- R255, R256: WAITCH answers the number of unretired children at once with .read, and 0 once there is none; FETCHW clears the flag of an
aligned mailbox in the shared region and opens its request. -/
def Sys2Proof.Claims.TheChildrenAndMailboxes : Prop := ∀ (h : Head) (f : FormR),
  let wsp : Spec := { pod := true, dst := some (kDst f.dst) }
  let fsp : Spec := { pod := true, srcs := [uniSrc 1 (.code f.a)] }
  let n := fun c : Ctx => c.s.team.children
  let o := fun c : Ctx => c.val 0 0
  Does (.waitch h f) h (fun _ => wsp) (fun c => f.flags.getLsbD 0 = true ∨ n c = 0) (fun c t => Answers c (n c) c.s t) ∧
  Waits (.waitch h f) h (fun _ => wsp) (fun _ => .time) (fun c => f.flags.getLsbD 0 = false ∧ n c ≠ 0) Ctx.s ∧
  Does (.fetchw h f) h (fun _ => fsp) (fun c => o c % 32 = 0 ∧ c.s.team.sharedOk (o c) 32 = true ∧ o c ∉ c.s.team.mailboxes)
    (fun c t => Retires c 0 ((let s := c.s.wrShared (o c) (toBytes 4 0)
      s.setTeam { s.team with mailboxes := s.team.mailboxes ++ [o c] }).tickle) t) ∧
  Does (.fetchw h f) h (fun _ => fsp) (fun c => o c % 32 = 0 ∧ c.s.team.sharedOk (o c) 32 = true ∧ o c ∈ c.s.team.mailboxes)
    (fun c t => Retires c 0 c.s t) ∧
  Traps (.fetchw h f) h (fun _ => fsp) (fun c => o c % 32 ≠ 0) (fun c => c.s.pod.before .misaligned 0 0 (BitVec.ofNat 64 (o c))) ∧
  Traps (.fetchw h f) h (fun _ => fsp) (fun c => o c % 32 = 0 ∧ c.s.team.sharedOk (o c) 32 = false)
    (fun c => c.s.pod.before .stashBounds 0 0 (BitVec.ofNat 64 (o c)))

/-- R258, R519: HALT halts the copies of a resident team and completes when all its pods are at a boundary, RESUME lets those of a halted one
go on, both with status 0; a team that does not exist gives 1, one that is not resident 2, one that is not halted 4. ABORTP and DSTEP act and
wait, and then complete with the status of their action. HALT, RESUME and ABORTP of the issuing team raise ILLEGAL_OPERAND. -/
def Sys2Proof.Claims.TheActingOnTeams : Prop := ∀ (h : Head) (f : FormR),
  let sp := fun (own : Bool) (s : State) => s.overTeam f own
  let ts := fun c : Ctx => c.s.namedTeams (c.val 0 0) (c.val 1 0)
  let there := fun c : Ctx => c.s.teamExists (c.val 0 0) (c.val 1 0)
  let halt := fun c : Ctx => (ts c).foldl (fun s t => s.haltTeam t.id) c.s
  let others := fun c : Ctx => ∀ t ∈ ts c, t.id ≠ c.s.pod.id.team
  let still := fun (c : Ctx) (s : State) => (ts c).all fun t => s.atBoundary t.id
  let begins := fun c : Ctx => c.s.pod.pendingStatus = none
  let gone := fun c : Ctx => ∀ t ∈ ts c, t.saving = none
  Does (.halt h f) h (sp true) (fun c => begins c ∧ there c = false) (fun c t => Answers c 1 c.s t) ∧
  Does (.halt h f) h (sp true) (fun c => begins c ∧ there c = true ∧ residentIn (ts c) = false) (fun c t => Answers c 2 c.s t) ∧
  Does (.halt h f) h (sp true) (fun c => begins c ∧ there c = true ∧ residentIn (ts c) = true ∧ others c ∧ still c (halt c) = true)
    (fun c t => Answers c 0 (halt c) t) ∧
  Waits (.halt h f) h (sp true) (fun _ => .time)
    (fun c => begins c ∧ there c = true ∧ residentIn (ts c) = true ∧ still c (halt c) = false) (fun c => awaiting (halt c) 0) ∧
  (∀ x, Does (.halt h f) h (sp true) (fun c => c.s.pod.pendingStatus = some x ∧ still c c.s = true) (fun c t => Answers c x c.s t)) ∧
  Does (.resume h f) h (sp true) (fun c => there c = false) (fun c t => Answers c 1 c.s t) ∧
  Does (.resume h f) h (sp true) (fun c => there c = true ∧ (ts c).any Team.halted = false) (fun c t => Answers c 4 c.s t) ∧
  Does (.resume h f) h (sp true) (fun c => there c = true ∧ (ts c).any Team.halted = true)
    (fun c t => Answers c 0 ((ts c).foldl (fun s t => s.unhaltTeam t.id) c.s) t) ∧
  (∀ x, Does (.abortp h f) h (sp true) (fun c => c.s.pod.pendingStatus = some x ∧ gone c) (fun c t => Answers c x c.s t)) ∧
  Does (.abortp h f) h (sp true) (fun c => begins c ∧ there c = false) (fun c t => Answers c 1 c.s t) ∧
  Does (.abortp h f) h (sp true) (fun c => begins c ∧ there c = true ∧ residentIn (ts c) = false) (fun c t => Answers c 2 c.s t) ∧
  Waits (.abortp h f) h (sp true) (fun _ => .time) (fun c => begins c ∧ there c = true ∧ residentIn (ts c) = true)
    (fun c => awaiting (c.s.requestAbort (ts c)).2 (c.s.requestAbort (ts c)).1) ∧
  (∀ i, i = .halt h f ∨ i = .resume h f ∨ i = .abortp h f → StopsOperand i h (sp true)) ∧
  (∀ x, Does (.dstep h f) h (sp false) (fun c => c.s.pod.pendingStatus = some x ∧ others c ∧
      ∀ p ∈ c.s.allPods, p.stepping = true → ∀ t ∈ ts c, t.id ≠ p.id.team)
    (fun c t => Answers c x (halt c) t)) ∧
  Does (.dstep h f) h (sp false) (fun c => begins c ∧ there c = false) (fun c t => Answers c 1 c.s t) ∧
  Does (.dstep h f) h (sp false) (fun c => begins c ∧ there c = true ∧ (residentIn (ts c) = false ∨ (ts c).any Team.halted = false))
    (fun c t => Answers c 4 c.s t) ∧
  Waits (.dstep h f) h (sp false) (fun _ => .time)
    (fun c => begins c ∧ there c = true ∧ residentIn (ts c) = true ∧ (ts c).any Team.halted = true)
    (fun c => awaiting ((ts c).foldl (fun s t => s.stepTeam t.id) c.s) 0)

/-- R258, R260, R271, R273: HALT halts every pod of the team that can still issue: one at a boundary stops there, holds DEBUG_HALT, waits for
nothing, and names in %tpc and %tix where it resumes; one inside an instruction goes on to its boundary; one whose trap entry is under way
holds DEBUG_HALT behind it. No pod of another team changes. -/
def Sys2Proof.Claims.TheHaltedTeams : Prop := ∀ (s : State) (t : TeamId) (p : Pod),
  p ∈ (s.haltTeam t).allPods → ∃ q ∈ s.allPods, q.id = p.id ∧
    (q.id.team = t → q.done = false → q.stepping = false → p.halted = true ∧ p.k = q.k ∧ p.p = q.p ∧ p.h = q.h ∧ p.flags = q.flags ∧
      (s.midway q = true → p = { q with halted := true }) ∧
      (s.midway q = false → p.cause = q.cause ||| BitVec.ofNat 64 (2 ^ 29)) ∧
      (s.midway q = false → q.raised = none → p.wait = none ∧ (∀ x ∈ p.tx, x.inTx = false) ∧
        (q.tx = [] → p.v = q.v ∧ p.user = q.user ∧ p.trap = q.trap ∧ (p.tpc, p.tix) = q.stopPoint))) ∧
    (q.id.team ≠ t ∨ q.done = true ∨ q.stepping = true → p = q)

/-- R259, R454 to R456: ACORN reads the flags of its core, blackens it, makes a ring white, or declares its termination; a ring above 64,
and ACORN.black with one, are refused with ILLEGAL_OPERAND. -/
def Sys2Proof.Claims.TheAcornInstruction : Prop := ∀ (h : Head) (f : FormRI),
  let op := f.low.toNat
  let sp := fun s : State => ({ pod := true, dst := some (kDst f.dst), srcs := [uniSrc 2 (f.argB 32)]
                                bad := decide (64 < s.argVal (f.argB 32)) || (op == 1 && s.argVal (f.argB 32) != 0)
                                priv := decide (2 ≤ op) && !s.team.kernel.super } : Spec)
  let r := fun c : Ctx => c.val 0 0
  (op = 0 → Does (.acorn h f) h sp (fun _ => True) (fun c t => Answers c (c.s.acornRead c.s.core (r c)) c.s t)) ∧
  (op = 1 → Does (.acorn h f) h sp (fun _ => True) (fun c t => Retires c 0 { c.s with acornBlack := t.acornBlack } t ∧
    ∀ n, n < 2048 → t.acornBlack.getLsbD n = (c.s.acornBlack.getLsbD n || decide (n = c.s.core)))) ∧
  (op = 2 → Does (.acorn h f) h sp (fun _ => True) (fun c t => Retires c 0 (c.s.acornWhite (r c)) t)) ∧
  (op = 3 → Does (.acorn h f) h sp (fun c => r c < 64) (fun c t => Retires c 0 { c.s with acornTerm := t.acornTerm } t ∧
    ∀ n, n < 64 → t.acornTerm.getLsbD n = (c.s.acornTerm.getLsbD n || decide (n = r c)))) ∧
  (op = 3 → Does (.acorn h f) h sp (fun c => r c = 64) (fun c t =>
    Retires c 0 { c.s.note .terminationInterrupt with dieTerm := true, acornst := true } t)) ∧
  StopsOperand (.acorn h f) h sp

/-- R511, R513 to R515: CNTSEL selects an event and clears its counter, CNTRD reads a counter or its snapshot, CNTSNAP copies the core's
counters, RCINC adds to routing counters modulo 2^32, and RCSNAP takes a bank, clears it, and has it written. -/
def Sys2Proof.Claims.TheCounters : Prop := ∀ (h : Head),
  (∀ f : FormRI, let sp := fun s : State => ({ pod := true, srcs := [uniSrc 1 (.code f.a), uniSrc 2 (f.argB 32)]
                                               bad := s.counterBad (.code f.a) (some (f.argB 32)) } : Spec)
    Does (.cntsel h f) h sp (fun _ => True) (fun c t =>
      Retires c 0 { c.s with esel := c.s.esel.set (c.s.core * 8 + c.val 0 0) (BitVec.ofNat 8 (c.val 1 0))
                             ecnt := c.s.ecnt.set (c.s.core * 8 + c.val 0 0) 0 } t) ∧
    StopsOperand (.cntsel h f) h sp) ∧
  (∀ f : FormR,
    let sp := fun s : State => ({ pod := true, srcs := [uniSrc 1 (.code f.a)], dst := some { code := f.dst, acc := [.v, .k], regs := 2, tag := 6 }
                                  bad := s.counterBad (.code f.a) none } : Spec)
    StopsOperand (.cntrd h f) h sp ∧
    GatherDoesIf (fun _ => True) (.cntrd h f) h sp (fun c =>
      c.eff.map fun t => (t, { val := (if f.flags.getLsbD 0 then c.s.esnap.get (c.s.core * 8 + c.val 0 0)
                                       else c.s.ecnt.get (c.s.core * 8 + c.val 0 0)).toNat }))) ∧
  (∀ f : FormR, Does (.cntsnap h f) h (fun _ => { pod := true }) (fun _ => True) (fun c t =>
    Retires c 0 { c.s with esnap := t.esnap } t ∧
    ∀ n, t.esnap.get n = if n / 8 = c.s.core then c.s.ecnt.get n else c.s.esnap.get n)) ∧
  (∀ f : FormRI,
    let a : Src := { field := 1, arg := .code f.a, acc := [.v, .k, .zero] }
    let b : Src := { field := 2, arg := f.argB 32, acc := [.v, .k, .zero] }
    Does (.rcinc h f) h (fun _ => { srcs := [a, b], smod := f.smod, mtgt := f.mtgt, bad := guardBad (a.uniform && b.uniform) h }) (fun _ => True) (fun c t =>
      Retires c 0 { c.s with rcnt := t.rcnt } t ∧ ∀ n, t.rcnt.get n =
        if c.s.team.kernel.shadow = true ∧ c.s.pod.id.team.copy = 1 then c.s.rcnt.get n
        else c.s.rcnt.get n + BitVec.ofNat 32 (((c.lanes.filter fun t => c.val 0 t % 1024 = n).map fun t => c.val 1 t).sum))) ∧
  (∀ f : FormQ,
    let bank := bits f.desc.toNat 10 2
    let sp : Spec := { pod := true, dst := some (hDst f.dst), srcs := [{ field := 1, arg := .code f.a, acc := [.k], regs := 2 }] }
    let o := fun c : Ctx => c.issueOp (some (classOf f.dst).2) 15 (.rcsnap (BitVec.ofNat 64 (c.val 0 0)) (c.s.rcBank bank)) c.s
    let u := fun c : Ctx => ((o c).2.rcClear bank).rcWrite (o c).1
    Does (.rcsnap h f) h (fun _ => sp) (fun c => (BitVec.ofNat 64 (c.val 0 0)).toNat % 128 = 0 ∧ c.s.copyBarred = false ∧
      c.s.pod.loading = false ∧ HandleFree c f.dst ∧ (u c).pod.stepping = false ∧ (u c).pod.halted = false) (fun c t => Retires c 0 (u c) t) ∧
    Traps (.rcsnap h f) h (fun _ => sp) (fun c => (BitVec.ofNat 64 (c.val 0 0)).toNat % 128 ≠ 0)
      (fun c => c.s.pod.before .misaligned 0 0 (BitVec.ofNat 64 (c.val 0 0))))

/-- R516 to R518: WPSET and BPSET set and take the watchpoint and the breakpoints of the resident copies of a team, BPSET only at a
multiple of 12; DMBOX queues a word for the debugger and takes the word that it left, and waits while the queue is full. -/
def Sys2Proof.Claims.TheDebugInstructions : Prop := ∀ (h : Head),
  let super := fun s : State => !s.team.kernel.super
  (∀ f : FormM,
    let sp := fun s : State => ({ pod := true, srcs := kPair 4 f.data :: f.eaSrcs.map fun x => { x with acc := x.acc.filter (· ≠ .v), uni := true }
                                  priv := super s } : Spec)
    Does (.wpset h f) h sp (fun _ => True) (fun c t => Retires c 0 (c.s.onNamed (c.val 0 0 % 2 ^ 32) (c.val 0 0 / 2 ^ 32) fun m =>
      { m with watch := if f.hint = 0 then none else some (f.hint.getLsbD 0, f.hint.getLsbD 1, c.ea f 1 0, sizeBytes f.size) }) t)) ∧
  (∀ f : FormB,
    let n := bits f.flags.toNat 1 2
    let a := fun s : State => if (classOf f.a).1 = .zero then target s.pod.pc f.boff else BitVec.ofNat 64 (s.argVal (.code f.a) 2)
    let sp := fun s : State => ({ pod := true, srcs := [kPair 5 f.link, { field := 1, arg := .code f.a, acc := [.k, .zero], regs := 2 }]
                                  priv := super s, late := if (a s).toNat % 12 ≠ 0 then some (.pcMisalign, 0, 0) else none } : Spec)
    Does (.bpset h f) h sp (fun _ => True) (fun c t =>
      Retires c 0 (c.s.onNamed (c.val 0 0 % 2 ^ 32) (c.val 0 0 / 2 ^ 32) fun m =>
        { m with bps := (m.bps.filter fun b => b.1 ≠ n) ++ if f.flags.getLsbD 0 then [] else [(n, a c.s)] }) t) ∧
    StopsLate (.bpset h f) h sp (fun s => (a s).toNat % 12 ≠ 0) .pcMisalign) ∧
  (∀ f : FormRI,
    let sp := fun s : State => ({ pod := true, dst := some (kDst f.dst), srcs := [uniSrc 2 (f.argB 32)], priv := super s } : Spec)
    Does (.dmbox h f) h sp (fun c => c.s.dbgFifo.length < 64) (fun c t => Answers c (c.s.dbgIn.elim 0 BitVec.toNat)
      { c.s with dbgFifo := c.s.dbgFifo ++ [BitVec.ofNat 32 (c.val 0 0)], dbgIn := none } t) ∧
    Waits (.dmbox h f) h sp (fun _ => .time) (fun c => 64 ≤ c.s.dbgFifo.length) Ctx.s)

/-! ## Events of pods and engines -/

namespace Sys2Proof.Claims

open Machine

/-- Outstanding result `n` of a pod, with all its data here (R345). -/
def Here (s : State) (p : PodId) (n : Nat) (q : Pod) (x : Pend) : Prop := s.findPod p = some q ∧ q.pend[n]? = some x ∧ x.reqs = []

/-- A pod whose outstanding result `n` has ended with its registers as in `q'` (R36). -/
def ended (q' : Pod) (n : Nat) (x : Pend) : Pod := { (q'.dropFlag x.seta).dropFlag x.setb with pend := q'.pend.eraseIdx n }

/-- A pod that has received an outstanding result (R35, R36, R206). -/
def received (s : State) (q : Pod) (x : Pend) : Pod := (q.atLevel x.trap fun q => s.putDest q x.dest x.tag x.value.toNat).raiseFl x.fl

/-- The fault of an outstanding result, kept for the instruction that waits for it or for the next one (R40). -/
def faultOf (x : Pend) (c : Cause) (arg : Nat) (next : Bool) : Deferred :=
  { cause := c, flags := flagBit x.seta, ctag := none, next := next, op := none, arg := BitVec.ofNat 32 arg, addr := x.addr }

/-- A pod becomes `q` and no other pod changes. -/
def OnlyPod (s t : State) (p : PodId) (q : Pod) : Prop := t.findPod p = some q ∧ ∀ r, r ≠ p → t.findPod r = s.findPod r

/-- A result is written where the pod has not written since the issue, and ends; one that it has overwritten keeps either value (R36). -/
def Lands (s t : State) (p : PodId) (n : Nat) (q : Pod) (x : Pend) : Prop :=
  OnlyPod s t p (ended (received s q x) n x) ∨ q.overwritten x = true ∧ OnlyPod s t p (ended (q.raiseFl x.fl) n x)

/-- A result ends without being written, and its fault is kept. -/
def Fails (s t : State) (p : PodId) (n : Nat) (q : Pod) (x : Pend) (c : Cause) (arg : Nat) (next : Bool) : Prop :=
  OnlyPod s t p (ended { q with deferred := q.deferred ++ [faultOf x c arg next] } n x)

end Sys2Proof.Claims

/-- R35, R36, R345, R350, R395: an outstanding result whose data are here is written, in the order of issue for class T, unless it comes
with an error, which is kept for a later instruction; an LDQ element goes to its slot; a peer's refusal is kept as REMOTE_FAULT; a WRQ whose
places lie with several homes goes on with its queue word (R371). -/
def Sys2Proof.Claims.TheResultsArrive : Prop := ∀ (s : State) (p : PodId) (n : Nat) (q : Pod) (x : Pend), Here s p n q x →
  (x.kind = .classT → (∀ y ∈ q.pend.take n, y.kind ≠ .classT) →
    ∃ t, exec (.classTResultWrite p n) s = .next t ∧ Lands s t p n q x) ∧
  (x.kind = .load ∨ x.kind = .wrq → ∀ w, x.todo = some w → exec (.loadDataReturn p n) s = .next (s.goEnqueue p n x (q.pend.take n) w)) ∧
  (x.kind = .load ∨ x.kind = .wrq → x.todo = none → x.refused = true → exec (.loadDataReturn p n) s = .next (s.refusePend p n x)) ∧
  (x.kind = .load ∨ x.kind = .wrq → x.todo = none → x.refused = false → ∃ t, exec (.loadDataReturn p n) s = .next t ∧
    if x.uncorr then Fails s t p n q x .memUncorrectable 0 false
    else if x.packedBad then Fails s t p n q x .formatMismatch 0 false else Lands s t p n q x) ∧
  (x.kind = .ldq ∨ x.kind = .ldqNf → x.refused = true → exec (.ldqSlotFill p n) s = .next (s.refusePend p n x)) ∧
  (x.kind = .ldq ∨ x.kind = .ldqNf → x.refused = false → ∃ t, exec (.ldqSlotFill p n) s = .next t ∧
    (x.uncorr = true → Fails s t p n q x .memUncorrectable 0 true) ∧
    (x.uncorr = false → x.packedBad = false → ∀ r c T y, x.dest = .slot r c → s.findTeam p.team = some T → T.ring r = some y →
      OnlyPod s t p (ended q n x) ∧ ∃ U, t.findTeam p.team = some U ∧ U.ring r = some (y.fill (BitVec.ofNat 32 c) x.value.toNat)))

/-- R320, R350: a refusal ends a load or the old word of a WRQ and keeps REMOTE_FAULT for the instruction that waits for it, and is noted in
data that a check awaits. An acknowledgement removes the entry of a remote combining buffer. -/
def Sys2Proof.Claims.ThePeersAnswer : Prop :=
  (∀ (s : State) (p : PodId) (n : Nat) (q : Pod) (x : Pend), s.findPod p = some q → q.pend[n]? = some x → x.reqs ≠ [] →
    x.kind = .load ∨ x.kind = .wrq → ∃ t, exec (.peerRefusalArrival p n) s = .next t ∧
      Claims.Fails s t p n q x .remoteFault (if x.kind = .wrq then x.thread else 0) false) ∧
  (∀ (s : State) (p : PodId) (n : Nat) (q : Pod) (x : Pend), s.findPod p = some q → q.pend[n]? = some x → x.reqs ≠ [] → x.kind = .check →
    ∃ t, exec (.peerRefusalArrival p n) s = .next t ∧
      Claims.OnlyPod s t p { q with pend := q.pend.set n { x with reqs := [], refused := true } }) ∧
  (∀ (s : State) (core line : Nat) (r : Remote), (s.rcbuf.find? fun r => r.core == core && r.line == line) = some r →
    ∃ t, exec (.peerAcknowledgement core line) s = .next t ∧
      t.rcbuf = s.rcbuf.filter (fun x => !(x.core == r.core && x.line == r.line && x.team == r.team)) ∧
      t = { s with rcbuf := t.rcbuf, outReq := t.outReq, progress := s.progress + 1 })

/-- R38, R266: a pod whose raised cause waits for the effects of lower threads enters its handler, or escalates, when no result of the
stopped instruction is outstanding and no copy of it runs. -/
def Sys2Proof.Claims.TheTrapsComeDue : Prop := ∀ (s : State) (p : PodId) (q : Pod) (r : TrapReq) (n : Nat),
  s.findPod p = some q → q.raised = some (r, n) → (∀ x ∈ q.pend, x.serial ≠ n) →
  (∀ o ∈ s.ops, o.pod = q.id → o.serial = n → o.state ≠ .running) →
  let u := (s.switchTo p).setPod { (s.switchTo p).pod with raised := none }
  exec (.trapEntry p) s = .next (u.enterTrap r) ∧ u.pod = { q with raised := none }

/-- R239, R245: the end of WAITF's time, of a SLEEP, of HOLDT's time and of the pause of a poll is noted in the pod that waits for it, so
that the instruction goes on. -/
def Sys2Proof.Claims.TheWaitsEnd : Prop := ∀ (s : State) (p : PodId) (q : Pod) (w : Wait) (u : Nat),
  s.findPod p = some q → q.wait = some w → w.until_ = some u → u ≠ 0 →
  let woken := { q with wait := some { w with until_ := some 0 } }
  (w.kind = .waitf → u ≤ s.cycle → ∃ t, exec (.waitfTimeout p) s = .next t ∧ OnlyPod s t p woken) ∧
  (w.kind = .sleep → u ≤ s.cycle → ∃ t, exec (.sleepExpiry p) s = .next t ∧ OnlyPod s t p woken) ∧
  (w.kind = .holdt → u ≤ s.time.toNat → ∃ t, exec (.holdtTimeReached p) s = .next t ∧ OnlyPod s t p woken) ∧
  (w.kind = .poll → u ≤ s.cycle → ∃ t, exec (.loopCountPoll p) s = .next t ∧ OnlyPod s t p woken)

/-- R12, R54 to R56: a pod held for 32 cycles leaves the active set for a ready pending pod; the oldest ready pending pod comes in after 256
cycles; a spin demotion ends; an issue hold of the MC keeps every pod from issuing, and the bounds of R55 and R383 do not count it. -/
def Sys2Proof.Claims.TheScheduling : Prop := ∀ (s : State) (p : PodId) (q : Pod), s.findPod p = some q →
  (∀ c, s.coreOfPod p = some c → s.swapDue q = true → exec (.podSwap p) s = .next (s.swapOut p c)) ∧
  (∀ c o, s.coreOfPod p = some c → s.promotionDue q = true → leastRecent (s.activeSet c p.slice) = some o →
    exec (.podPromotion p) s = .next (s.exchange c p.slice o.id p)) ∧
  (∀ u, q.sched.demoted = some u → u ≤ s.cycle → ∃ t, exec (.spinDemotionEnd p) s = .next t ∧
    OnlyPod s t p { q with sched := { q.sched with demoted := none } }) ∧
  (∀ n, ∃ t, exec (.mcIssueHold n) s = .next t ∧ t.hold = max s.hold s.cycle + n ∧ t.cycle = s.cycle ∧
    (∀ (u : State) T r, u.hold = t.hold → u.cycle < t.hold → u.canIssue T r = false) ∧
    t.findPod p = some { q with wait := q.wait.map fun w => { w with since := w.since + n }
                                sched := { q.sched with demoted := q.sched.demoted.map (· + n), pending := q.sched.pending + n } })

/-- R383: when every pod of a team has waited on rings for 4,096 cycles and nothing fills or drains them, QUEUE_DEADLOCK is raised in each pod
before the instruction at which it waits, and TARG is the ring, or 32. -/
def Sys2Proof.Claims.TheRingDeadlock : Prop := ∀ (s : State) (tid : TeamId) (x : Team), s.findTeam tid = some x → s.deadlockDue x = true →
  let u := s.onTeam tid fun x => { x with stuck := none }
  let ring := fun q : Pod => match q.wait with | some ⟨.ring r, _, _, _⟩ => r | _ => 32
  exec (.queueDeadlock tid) s = .next (((u.orderedPods tid).filter fun p => !p.done).foldl (fun s q =>
    let s := s.switchTo q.id
    if s.pod.id = q.id then s.raise (s.pod.before .queueDeadlock 0 (BitVec.ofNat 32 (ring q)) 0) else s) u)

/-! ## Engines -/

namespace Sys2Proof.Claims

open Machine

/-- A running operation and its team. -/
def Running (s : State) (h : Nat) (o : Op) (T : Team) : Prop :=
  s.opTok h = some o ∧ o.state = .running ∧ s.findTeam o.pod.team = some T

end Sys2Proof.Claims

/-- R338, R339, R367, R369: a copy moves piece by piece; when its last thread is done its tag sets if every thread's part is whole, and
otherwise the faults are kept for the instruction that waits for the tag; TIERCP moves page by page, ends with its tag and its handle, and
stops at a page that it has not begun where HCAN asks (R407). -/
def Obligations.CopiesProceed : Prop := ∀ (s : State) (h : Nat) (o : Op) (T : Team) (n sc : Nat), Running s h o T →
  (∀ sd ss parts, o.kind = .cpy n sc sd ss parts →
    (∀ x, parts.find? CopyPart.open_ = some x → o.answered = true →
      let move := s.copyBytes o T (x.dst + BitVec.ofNat 64 x.done) (x.src + BitVec.ofNat 64 x.done) sd ss x.pieceLen false
      (∀ u, move = .moved u → exec (.copyPiece h) s =
        .next (u.onOp h fun o => o.onOpen fun x => { x with done := x.done + x.pieceLen })) ∧
      (∀ c a u, move = .failed c a u → exec (.copyPiece h) s =
        .next (u.onOp h fun o => { o.onOpen (fun x => { x with fault := some (c, a) }) with asks := [] })) ∧
      (∀ u, move = .asked u → exec (.copyPiece h) s = .next u) ∧
      (move = .blocked → exec (.copyPiece h) s = .next s)) ∧
    ((∀ x ∈ parts, x.fault = none ∧ x.len ≤ x.done) → ∃ t, exec (.copyComplete h) s = .next t ∧
      (∀ x ∈ t.ops, x.token ≠ h) ∧ t.findTeam o.pod.team = some (T.setCtag n true)) ∧
    (∀ x c a, parts = [x] → x.fault = some (c, a) → ∃ t, exec (.copyComplete h) s = .next t ∧ (∀ x ∈ t.ops, x.token ≠ h) ∧
      t.findTeam o.pod.team = some T ∧ ∀ q, s.findPod o.pod = some q → ∃ u, t.findPod o.pod = some u ∧
        u.deferred = q.deferred ++ [{ cause := c, flags := flagBit o.seta, ctag := some n, next := false, op := none
                                      arg := BitVec.ofNat 32 (n + x.thread * 256), addr := a }])) ∧
  (∀ dst src count size, o.kind = .tiercp dst src count size n sc → o.answered = true → o.cancel = true → o.part = 0 → o.asks = [] →
    exec (.tiercpPage h) s = .next (s.completeOp o)) ∧
  (∀ dst src count size, o.kind = .tiercp dst src count size n sc → o.answered = true → o.cancel = false →
    (∀ u v, tierPage h (size / 4096) s = .moved u → u.opTok h = some v →
      exec (.tiercpPage h) s = .next (if v.progress < count then u else (u.onTeam v.pod.team fun t => t.setCtag n true).completeOp v)) ∧
    (∀ c a u, tierPage h (size / 4096) s = .failed c a u →
      exec (.tiercpPage h) s = .next ((u.failOp o c 0 a).onOp h fun o => { o with part := 0 })))

/-- R413, R414, R417: the first operation of its arrays starts when its ring operands are there; the array adds group after group, and ends
with the tags of the accumulator, the conditions in %fl, and the handle complete. -/
def Sys2Proof.Claims.TheMatrixOperations : Prop := ∀ (s : State) (h : Nat) (o : Op) (T : Team) (m : Matrix) (q : Pod),
  Running s h o T → o.kind = .matrix m → s.findPod o.pod = some q →
  (s.canFire o m T q.width = true → ∃ t v k, exec (.matrixOpFire h) s = .next t ∧ t.opTok h = some v ∧ v.kind = .matrix k ∧
    (k.fired = true ∧ v.state = .running ∨ k.fired = false ∧ v.state = .faulted ∧ v.fault = some (.memUncorrectable, 0)) ∧
    k = { m with fired := k.fired, dataA := k.dataA, scaleA := k.scaleA, dataB := k.dataB, scaleB := k.scaleB, held := [], shown := [], past := [] }) ∧
  (m.fired = true → o.progress < 8 → o.answered = true → dKind m.descB ≠ 3 →
    (∀ u ∈ s.earlier o, 8 ≤ u.progress ∧ ∀ x, u.kind = .matrix x → x.variant ≠ 1) →
    ∃ t v, exec (.matrixGroup h) s = .next t ∧ t.opTok h = some v ∧
      (v.state = .running ∧ v.progress = o.progress + 1 ∨
        v.state = .faulted ∧ v.progress = o.progress ∧ ∃ a, v.fault = some (.engineFault, a))) ∧
  (8 ≤ o.progress → ∃ t v u, exec (.matrixOpComplete h) s = .next t ∧ t.opTok h = some v ∧ v.state = .complete ∧
    t.findPod o.pod = some u ∧ u.fl = q.fl ||| m.cond ∧
    ∀ j < 8 * accRegs (mfmt (dFmt m.descA)).acc, u.tagOf (m.acc + j) = accTag (mfmt (dFmt m.descA)).acc)

/-- R144 to R146: an accumulator takes a group's exact sum and is rounded once, a float one to nearest, an integer one by wrapping or
clamping to 32 bits. -/
def Sys2Proof.Claims.TheAccumulatorSteps : Prop := ∀ (acc sat old : Nat) (terms : List (Machine.Num × BitVec 6)),
  (acc = 1 → sat = 0 → accStep acc sat old terms =
    (wrap 32 (signed 32 old + (sumNums (terms.map (·.1))).1.toInt), (accStep acc sat old terms).2)) ∧
  (acc ≠ 1 → (accStep acc sat old terms).1 =
    ((accFmt acc).round (accAdd ((accFmt acc).decode old) (sumNums (terms.map (·.1))).1).1 0 sat false 0).code)

/-- R422, R424: MVS takes x from its input ring once all of it is there, and a stack engine pushes its rows in runs. R396 to R398: an element
of a remote read is published, a tile of a stream is pushed whole, and an element of a ring is popped and written. -/
def Sys2Proof.Claims.TheStreamEngines : Prop := ∀ (s : State) (h : Nat) (o : Op) (T : Team), Running s h o T →
  (∀ slot d i r sat x0 cond x, o.kind = .mvs slot d i r sat false x0 cond → T.ring i = some x → xUnits x (dPitch d) ≤ x.occ →
    x.bad = [] → ∃ t v, exec (.mvsFire h) s = .next t ∧ t.opTok h = some v ∧
      v.kind = .mvs slot d i r sat true ((xElems (x.tag = 8) ((List.range (xUnits x (dPitch d))).map fun j =>
        field ((List.range (xUnits x (dPitch d))).flatMap fun k => toBytes x.esize (x.elem (x.con + BitVec.ofNat 32 k))) (4 * j) 4)).take
          (dPitch d)) cond ∧
      ∃ U, t.findTeam o.pod.team = some U ∧ U.ring i = some (x.pop (xUnits x (dPitch d)))) ∧
  (∀ slot d i r sat x cond, o.kind = .mvs slot d i r sat true x cond →
    exec (.stackEngineOutputRun h) s = .next (s.outputRun o T r fun n s => s.denseElem o T d x sat n)) ∧
  (∀ slot d r sat cond, o.kind = .svs slot d r sat cond →
    exec (.stackEngineOutputRun h) s = .next (s.outputRun o T r fun n s => s.csrElem o T d sat n)) ∧
  (∀ r a n x, o.kind = .rrdq r a n none → T.ring r = some x → x.nextFits = true → o.answered = true → o.refused = false → o.asks ≠ [] →
    exec (.rrdqElementArrival h none) s = .next (s.rrdqPush o r n (ofBytes (mergeAsks (List.replicate x.esize 0) o.asks)))) ∧
  (∀ r a n e x (v : BitVec 128), o.kind = .rrdq r a n (some e) → o.answered = true → T.ring r = some x → x.prd = x.pub → x.room ≠ 0 →
    o.progress + 1 < n →
    ∃ t w U, exec (.rrdqElementArrival h (some v)) s = .next t ∧ t.opTok h = some w ∧ w.progress = o.progress + 1 ∧
      t.findTeam o.pod.team = some U ∧ U.ring r = some ((x.reserve 1).fill x.prd (v.toNat % 2 ^ (8 * x.esize)))) ∧
  (∀ r base stride bytes n x want u pas u2, o.kind = .subs r base stride bytes n → T.ring r = some x → o.answered = true → o.refused = false →
    x.prd = x.pub → bytes / x.esize ≤ x.room → o.progress + 1 < n → s.stackAt T o.core base .rd = (want, u) →
    u.stackPlace T o.core .rd want (bytes / 4096 + 2) (base + stride * BitVec.ofNat 64 o.progress) bytes = (.ok pas, u2) →
    u2.poisoned pas = false → (o.asks = [] → ∀ pa ∈ pas, (areaOf pa).isPeer = false) →
    exec (.subsTilePush h) s = .next (((u2.engineBytes T pas o.asks).2.onTeam o.pod.team fun t => t.onRing r fun x =>
      (List.range (bytes / x.esize)).foldl (fun y i =>
        (y.reserve 1).fill y.prd (field (u2.engineBytes T pas o.asks).1 (i * x.esize) x.esize)) x).onOp h
          fun o => { o with progress := o.progress + 1, asks := [] }).tickle) ∧
  (∀ r a n x want u pas u2, o.kind = .drainq r a n → T.ring r = some x → x.occ ≠ 0 → x.badAt x.con = false → o.progress + 1 < n →
    s.stackAt T o.core a .wr = (want, u) →
    u.stackPlace T o.core .wr want 2 (a + BitVec.ofNat 64 (o.progress * x.esize)) x.esize = (.ok pas, u2) →
    (∀ pa ∈ pas, stackLocal pa = true ∧ u2.lockedLine (lineOf pa) = false) →
    exec (.drainqElementWrite h) s = .next (((u2.writeHomeAll T.id pas (toBytes x.esize (x.elem x.con))).onTeam T.id fun t =>
      t.onRing r fun x => x.pop 1).onOp h fun o => { o with progress := o.progress + 1 }).tickle)

/-- R428 to R432: a collective whose participants have all joined ends: each receives its results, and its handle completes. A complete TRED
or TSCAN instance is delivered to every pod of the slice. A team whose pod has waited 20 µs for a collective is parked for unplaced teams. -/
def Sys2Proof.Claims.TheCollectivesComplete : Prop := ∀ (s : State),
  (∀ n c js, (s.colls.find? fun c => c.id = n && !c.gbar) = some c → s.collOrder c = some js →
    ∃ t, exec (.collInstanceComplete n) s = .next t ∧ (∀ d ∈ t.colls, d.id ≠ n) ∧
      ∀ j ∈ js, ∀ o, s.opTok j.token = some o → o.state = .running → ∃ v, t.opTok j.token = some v ∧ v.state = .complete) ∧
  (∀ n c, (s.colls.find? fun c => c.id = n && c.gbar) = some c → s.gbarFull c = true →
    ∃ t, exec (.gbarComplete n) s = .next t ∧ (∀ d ∈ t.colls, d.id ≠ n) ∧
      ∀ j ∈ c.joins, ∀ o, s.opTok j.token = some o → o.state = .running → ∃ v, t.opTok j.token = some v ∧ v.state = .complete) ∧
  (∀ tid sl i, s.collReady tid sl = some i → exec (.tredInstanceDelivery tid sl) s = .next (s.deliverColl tid i)) ∧
  (∀ p q T, s.findPod p = some q → s.findTeam p.team = some T → s.parkDue q = true → T.place = .resident → T.saving = none →
    T.kernel.shadow = false → ∃ t, exec (.handleWaitPark p) s = .next t ∧ t.findTeam p.team = some { T with saving := some .park })

/-- R428, R429: a participant that receives gets, in each of its first sixteen threads that are active, every position's combination of all
contributions, under the tag of the type. -/
def Sys2Proof.Claims.TheCollectiveResults : Prop := ∀ (s : State) (js : List CollJoin) (j : CollJoin) (b : Nat) (q : Pod),
  j.gets = true → j.reg = some b → s.findPod j.pod = some q →
  let ty := collTyOf j.flags
  let w := collUnit ty
  let n := if collInt ty then 1 else collElems ty
  b + w * n ≤ 1024 → ∃ u, (s.deliver false js j).findPod j.pod = some u ∧
    (∀ t e, t ∈ collThreads q.width j.active → e < n → u.rdRun t (b + w * e) w =
      (collCombine (collOpOf j.desc) (collKindOf j.desc) ty (collExactOf j.flags) (collScOf j.flags)
        (js.map fun k => (k.vals.find? fun y => y.1 = t * 32 + e).map (·.2))).1 % 2 ^ (32 * w)) ∧
    (∀ t r, r < 1024 → t ∉ collThreads q.width j.active ∨ r < b ∨ b + w * n ≤ r → u.rdV t r = q.rdV t r) ∧
    (∀ i < w * n, u.tagOf (b + i) = collResTag ty)

/-! ## Events of the distributor -/

namespace Sys2Proof.Claims

open Machine

/-- A team becomes `y` and no other team changes. -/
def OnlyTeam (s t : State) (tid : TeamId) (y : Team) : Prop := t.findTeam tid = some y ∧ ∀ r, r ≠ tid → t.findTeam r = s.findTeam r

/-- The bytes of memory from an address on. -/
def Holds (t : State) (a : Nat) (bs : List Byte) : Prop := ∀ i, i < bs.length → t.rdByte (a + i) = bs.getD i 0

end Sys2Proof.Claims

/-- R44 to R53, R243: a pod whose threads have all exited is done; a phase ends with its record and its commit, and the next one waits for a
core with fresh rings, slots and tags; an exited team leaves with its commit, and its grid counts it. -/
def Sys2Proof.Claims.ThePhasesAndTeams : Prop := ∀ (s : State),
  (∀ p q, s.findPod p = some q → q.exitReady = true → ∃ t, exec (.podExit p) s = .next t ∧ OnlyPod s t p { q with done := true }) ∧
  (∀ tid x u, s.findTeam tid = some x → s.phaseOver x = true → x.uncompared = false → x.prec ≠ 0 →
    (s.writeSpan x x.core x.recordAt (x.recordBytes (s.orderedPods tid))).1 = some u →
    ∃ t y, exec (.phaseEnd tid) s = .next t ∧ t.findTeam tid = some y ∧ y.phase = x.phase + 1 ∧ (∃ n, y.place = .nextPhase n) ∧
      y.kernel = x.kernel ∧ y.irrev = !x.kernel.restart ∧ y.ctag = 0 ∧ y.shared = [] ∧ y.rings = x.kernel.rings.map freshRing ∧ y.tiles = [] ∧
      y.xchg = [] ∧ y.rcb = x.rcb ∧ y.start = 0 ∧ y.recorded = true ∧ ∀ l ∈ y.stash, l.dirty ≠ 0 ∧ l.explicit = false) ∧
  (∀ tid x, s.findTeam tid = some x → s.phaseOver x = true → x.uncompared = false →
    (x.prec = 0 ∨ (s.writeSpan x x.core x.recordAt (x.recordBytes (s.orderedPods tid))).1 = none) →
    ∃ u : State, exec (.phaseEnd tid) s = .next (u.phaseOverflow tid) ∧ u.pod = s.pod ∧ u.pods = s.pods) ∧
  (∀ tid x, s.findTeam tid = some x → s.placeLate x = true →
    ∃ t y, exec (.placementTimeout tid) s = .next t ∧ t.findTeam tid = some y ∧ y.place = x.place ∧
      ∀ l ∈ y.stash, l.dirty ≠ 0 ∧ l.explicit = false) ∧
  (∀ tid x, s.findTeam tid = some x → tid.grid ≠ 0 → s.exitDue x = true → x.uncompared = false →
    let u := ((s.commitLines tid).commitReductions tid).onTeam tid fun y => { y.keepDirty with place := .exiting }
    u.owesPeers tid = false → (∀ y, u.findTeam tid = some y → y.holdsDirty = false ∧ y.rcb = []) →
    ∃ t, exec (.teamExit tid) s = .next t ∧ (∀ y ∈ t.allTeams, y.id ≠ tid) ∧ (∀ p ∈ t.allPods, p.id.team ≠ tid) ∧
      (∀ o ∈ t.ops, o.pod.team ≠ tid) ∧ t.grids = ((s.countHanded x).onGrid tid.grid fun g =>
        let g := { g with unexited := g.unexited - 1 }
        if x.lost then g.lose else g).grids) ∧
  (∀ g, (s.grids.find? fun x => x.id = g.id) = some g → g.over = true →
    ∃ t u, exec (.gridRetirement g.id) s = .next t ∧ u = s.finishGrid g.id g.status g.asn g.ptroot g.queue g.packet ∧
      t = ({ u with grids := u.grids.filter fun x => x.id ≠ g.id
                    colls := u.colls.filter fun c => !(c.span == 0 && c.key == [g.id]) } : State).childDone g.parent)

/-- R51, R119, R449, R471 to R474: an abort discards the phase of a team, which waits to run again with the lines it began with; the two
copies of a shadow phase are compared, and where their checksums agree the phase ends, and otherwise runs again alone. -/
def Sys2Proof.Claims.TheAbortsAndShadows : Prop := ∀ (s : State) (tid : TeamId) (x : Team), s.findTeam tid = some x →
  (s.abortDue x = true → x.irrev = false → s.findTeam tid.other = none → exec (.phaseAbort tid) s = .next (s.abortPhase tid)) ∧
  (s.abortDue x = true → x.irrev = true → x.kernel.shadow = false → ∃ t, exec (.phaseAbort tid) s = .next t ∧
    OnlyTeam s t tid { x with saving := some .preempt }) ∧
  (∃ y, (s.abortPhase tid).findTeam tid = some y ∧ y.place = .rerun ∧ y.irrev = false ∧ y.stash = x.kept ∧ y.phase = x.phase ∧
    y.rings = x.kernel.rings.map freshRing ∧ y.ctag = 0 ∧ y.saving = none) ∧
  (∀ o ∈ (s.abortPhase tid).ops, o.pod.team ≠ tid) ∧
  (∀ p ∈ (s.abortPhase tid).allPods, p.id.team = tid → ∃ q ∈ s.allPods, q.id = p.id ∧ p = q.rerun) ∧
  (∀ a b y, x.place = .compared a → x.single = false → tid.copy = 0 → s.findTeam tid.other = some y → y.place = .compared b → a = b →
    exec (.shadowComparison tid) s = .next ((s.discardCopy tid.other).shadowCommit tid)) ∧
  (∀ a b y, x.place = .compared a → x.single = false → tid.copy = 0 → s.findTeam tid.other = some y → y.place = .compared b → a ≠ b →
    ∃ u, exec (.shadowComparison tid) s = .next u ∧ ∀ z, u.findTeam tid = some z → z.single = true ∧ z.sums = [a, b]) ∧
  (∀ a, x.place = .compared a → x.single = true → a ∈ x.sums → exec (.shadowComparison tid) s = .next (s.shadowCommit tid))

/-- R231, R246, R270 to R284, R508: a save stops the pods of a team, writes its context record at the lowest free entry of the pool, and parks
it; a restore brings it back to a core; an escalation record reaches its ring with the address of the context record. -/
def Obligations.SavesAndRestores : Prop := ∀ (s : State),
  (∀ tid x, s.findTeam tid = some x → s.saveDue x = true → x.kernel.shadow = false →
    let u := (s.orderedPods tid).foldl (fun s p => s.stopPod p.id) s
    exec (.savePreemption tid) s = .next (u.onTeam tid fun y => { y with stopped := true, insts := [] }).tickle) ∧
  (∀ tid x, s.findTeam tid = some x → s.saveDue x = true → x.kernel.shadow = true → (∀ k, x.saving ≠ some (.escalate k)) →
    ∃ t, exec (.savePreemption tid) s = .next t ∧ t.findTeam tid = some { x with saving := some .abort }) ∧
  (∀ tid x entry rec, s.findTeam tid = some x → s.poolEntry x.queue = some (entry, rec) → s.saveSettled x = true →
    let u := s.writeOut entry (toBytes 8 (s.rdNat entry 8 ||| 1))
    ∃ t y b, exec (.contextRecordWrite tid) s = .next t ∧ t.findTeam tid = some y ∧ y.saving = none ∧ y.stopped = false ∧
      y.place = (if x.saving = some .park then .resumed rec else .parked rec) ∧ Holds t rec (u.contextBytes x b) ∧
      (b = true ↔ ∃ k, x.saving = some (.escalate k))) ∧
  (∀ rec core T i, s.teamIn rec = some T → s.firstFor core = some i → i.team = T.id → i.kind = .context →
    exec (.contextRestore rec core) s = .next (match (s.restore T rec core).findGrid T.id.grid with
      | some g => (s.restore T rec core).acornPlace g core false
      | none => s.restore T rec core)) ∧
  (∀ e, s.nextEsc = some e → s.escRoom = true → let ctx := ((s.findTeam e.team).bind Team.recordOf).getD 0
    let bs := toBytes 8 (if field e.bytes 0x24 4 = 1 then 0 else ctx) ++ e.bytes.drop 8
    ∃ t, exec .escalationNotify s = .next t ∧ t.eschead = s.eschead + 1 ∧ t.escPending = s.escPending.erase e ∧
      t.log = s.log ++ [.escalationInterrupt] ∧ Holds t (s.escbase.toNat + 64 * (s.eschead.toNat % 2 ^ s.escsize)) bs) ∧
  (∀ e, s.nextEsc = some e → s.escRoom = false → ∃ t, exec .escalationNotify s = .next t ∧ t.eschead = s.eschead ∧
    t.log = s.log ++ [.escalationInterrupt])

namespace Sys2Proof.Claims

open Machine

/-- The state in which a queue's next packet has been taken (R434, R441, R446). -/
def packetTaken (s : State) (x : Queue) : State :=
  let n := x.head.toNat
  let s := s.onQueue x.q fun y => { y with head := y.head + 1, parents := y.parents.filter fun z => z.1 ≠ n }
  let s := s.writeOut (x.desc + 0x2C) (toBytes 4 ((n + 1) % 2 ^ 32))
  { s with nextGrid := s.gridId + 1 }

end Sys2Proof.Claims

/-- R434, R437, R439, R441, R443, R446: a doorbell in range moves TAIL; a mapped queue's packet is taken and HEAD steps: a packet whose fields,
header and privilege are in order starts a grid of NX·NY·NZ unplaced teams, any other is refused with status 2. -/
def Sys2Proof.Claims.TheWorkQueues : Prop := ∀ (s : State),
  (∀ q x (tail : Word), s.findQueue q = some x → x.enabled = true → 0 < (tail - x.tail).toNat → (tail - x.tail).toNat < 2 ^ 31 →
    (tail - x.head).toNat ≤ 2 ^ x.lsize → ∃ t y, exec (.doorbellWrite q tail) s = .next t ∧ t.findQueue q = some y ∧ y.tail = tail ∧
      y.head = x.head ∧ y.ring = x.ring ∧ t.pod = s.pod ∧ t.grids = s.grids) ∧
  (∀ q x k v, s.findQueue q = some x → s.takeDue x = true →
    let at_ := x.ring + 64 * (x.head.toNat % 2 ^ x.lsize)
    let child := x.parents.find? fun y => y.1 = x.head.toNat
    let pk := packetFrom (s.rdBytes at_ 64) child.isSome
    s.poisoned (run at_ 64) = false → packetOk (s.rdBytes at_ 64) pk (x.mode == 1) = true →
    (packetTaken s x).readKernel x pk.khdr = (some k, v) → privileged x k = true → (x.mode = 1 → k.super = true) →
    (∃ c < 2048, v.covers k c = true) → ∃ t g, exec (.packetTake q) s = .next t ∧ t.grids = s.grids ++ [g] ∧ g.queue = q ∧
      g.packet = pk ∧ g.kernel = k ∧ g.unplaced = List.range pk.teams ∧ g.unexited = pk.teams ∧ g.children = 0 ∧ g.status = 0 ∧
      (∀ e ∈ s.grids, e.id ≠ g.id) ∧ ∃ y, t.findQueue q = some y ∧ y.head = x.head + 1 ∧ y.tail = x.tail) ∧
  (∀ q x, s.findQueue q = some x → s.takeDue x = true →
    let at_ := x.ring + 64 * (x.head.toNat % 2 ^ x.lsize)
    let child := x.parents.find? fun y => y.1 = x.head.toNat
    let pk := packetFrom (s.rdBytes at_ 64) child.isSome
    s.poisoned (run at_ 64) = false → packetOk (s.rdBytes at_ 64) pk (x.mode == 1) = false →
    exec (.packetTake q) s = .next ((((packetTaken s x).finishGrid ((packetTaken s x).nextGrid - 1) 2 x.asn x.ptroot q pk).childDone
      (child.map fun y => (y.2.1, y.2.2.1))).tickle)) ∧
  (s.quantumDue = true → ∃ t, exec .queueMappingQuantum s = .next t ∧ t.queues = s.remap ∧ t.quantum = s.cycle / quantumCycles ∧
    t = { s with queues := t.queues, quantum := t.quantum, progress := s.progress + 1 })

/-- R436: the commands of WQCMD and their results: 0 done, 1 no such team or context, 2 no room, 3 not well formed, 4 not in a state for
it. -/
def Sys2Proof.Claims.TheQueueCommands : Prop := ∀ (s : State),
  let q := bits s.wqarg.toNat 0 14
  let b := s.rdBytes (s.wqbase.toNat + 64 * q) 64
  let on := (s.findQueue q).elim false Queue.enabled
  let split := (s.queues.filter fun x => x.enabled && x.mode == 1).length
  let ts := s.namedTeams (bits s.wqarg.toNat 32 32) (bits s.wqarg.toNat 0 32)
  let there := s.teamExists (bits s.wqarg.toNat 32 32) (bits s.wqarg.toNat 0 32)
  let addr := bits s.wqarg.toNat 0 52
  let result := fun (x : Nat) (u : State) => ({ u with wqstatus := BitVec.ofNat 3 x, progress := u.progress + 1 } : State)
  (on = true → exec .wqEnable s = .next (result 4 s)) ∧
  (on = false → descFits b = false → exec .wqEnable s = .next (result 3 s)) ∧
  (on = false → descFits b = true → (field b 10 1 = 1 → split < 256) → ∃ t x, exec .wqEnable s = .next t ∧ t.findQueue q = some x ∧
    x.enabled = true ∧ x.ring = field b 0 8 ∧ x.lsize = field b 8 1 ∧ x.pri = field b 9 1 ∧ x.head = (s.headTail q).1 ∧ x.tail = (s.headTail q).2 ∧
    x.mapped = none ∧ t.wqstatus = 0 ∧ (∀ r, r ≠ q → t.findQueue r = s.findQueue r)) ∧
  (on = false → descFits b = true → field b 10 1 = 1 → 256 ≤ split → exec .wqEnable s = .next (result 2 s)) ∧
  (on = true → ∃ t x, exec .wqDisable s = .next t ∧ t.findQueue q = some x ∧ x.enabled = false ∧ t.wqstatus = 0) ∧
  (on = false → exec .wqDisable s = .next (result 4 s)) ∧
  (there = false → exec .saveTeam s = .next (result 1 s) ∧ exec .abortTeam s = .next (result 1 s)) ∧
  (there = true → residentIn ts = false → exec .saveTeam s = .next (result 4 s) ∧ exec .abortTeam s = .next (result 4 s)) ∧
  (there = true → residentIn ts = true → exec .saveTeam s = .next (result 0 (s.requestSave ts)) ∧
    exec .abortTeam s = .next (result 0 (s.requestAbort ts).2)) ∧
  (s.teamIn addr = none → exec .resumeContext s = .next (result 1 s) ∧ exec .discardContext s = .next (result 1 s)) ∧
  (∀ T, s.teamIn addr = some T → T.place = .parked addr → T.id.grid ≠ 0 → T.kernel.shadow = false →
    ∃ t, exec .resumeContext s = .next t ∧ t.wqstatus = 0 ∧ ∀ y, t.findTeam T.id = some y → y.place = .resumed addr) ∧
  (∀ T, s.teamIn addr = some T → T.place = .resumed addr →
    exec .resumeContext s = .next (result 4 s) ∧ exec .discardContext s = .next (result 4 s)) ∧
  (∀ T, s.teamIn addr = some T → T.place = .parked addr → T.id.grid ≠ 0 → ∃ t, exec .discardContext s = .next t ∧ t.wqstatus = 0 ∧
    (∀ y ∈ t.allTeams, y.id ≠ T.id)) ∧
  (∀ op, exec (.wqcmdReserved op) s = .next (result 3 s))

/-- R440, R444, R447 to R450, R453: a core takes the first item that goes there: a new team with its pods at their entries, or one that waits
for its next phase; a START that has come lets its team issue; FETCHW's mailbox receives the lowest unplaced team of its kernel's grids. -/
def Sys2Proof.Claims.ThePlacingTeams : Prop := ∀ (s : State),
  (∀ core i g, s.firstFor core = some i → i.kind = .first → s.park.findGrid i.team.grid = some g →
    let x := g.newTeam i.team.l
    let u := s.park.onGrid g.id fun g => { g with unplaced := g.unplaced.drop 1 }
    exec (.teamPlacement i.team core) s = .next (({ u with
      ccache := u.ccache.filter fun y => y.1 / 2 ^ 52 ≠ clusterOf core
      teams := u.teams ++ [x], pods := u.pods ++ x.launchPods g.prio } : State).placeOn i core)) ∧
  (∀ core i x u v, s.firstFor core = some i → i.kind = .next → s.park.findTeam i.team = some x → s.park.leaveCore x core = (some u, v) →
    exec (.teamPlacement i.team core) s = .next (u.placeOn i core)) ∧
  (∀ i core x, s.findTeam i.team = some x → i.kernel.shadow = false → (∃ y, (s.placeOn i core).findTeam i.team = some y ∧ y.core = core ∧
    y.place = .resident ∧ y.kernel = x.kernel ∧ y.phase = x.phase ∧ y.placed = s.tick)) ∧
  (∀ (T : Team) prio p, p ∈ T.launchPods prio → p.id.team = T.id ∧ p.width = T.kernel.width ∧ p.exited = 0 ∧ p.v = [] ∧ p.tags = [] ∧
    p.cause = 0 ∧ (∀ c ∈ p.user, c.depth = 0 ∧ c.pc = (match p.id.slice with | .execute => T.kernel.xentry | .access => T.kernel.aentry)) ∧
    ∀ u < p.width, p.seed.get u = launchSeed T.id.l (sliceNo p.id.slice) p.id.idx u) ∧
  (∀ tid x, s.findTeam tid = some x → x.place = .resident → x.start.toNat ≤ s.time.toNat →
    ∃ t, exec (.startTimeReached tid) s = .next t ∧ t.findTeam tid = some { x with start := 0 }) ∧
  (∀ tid x o rest q g, s.findTeam tid = some x → x.mailboxes = o :: rest → s.findQueue x.queue = some q → s.findGrid tid.grid = some g →
    x.place = .resident → s.serves q = true →
    (q.mode = 1 → exec (.fetchwMailboxFill tid) s = .next (if x.fetched then s.answerFetch x o (toBytes 4 2)
      else s.answerFetch x o (splitBox x g.packet.args g.packet.iters g.packet.itpt)).tickle) ∧
    (q.mode ≠ 1 → s.fetchGrid x = none → exec (.fetchwMailboxFill tid) s = .next (s.answerFetch x o (toBytes 4 2)).tickle) ∧
    (q.mode ≠ 1 → ∀ e, s.fetchGrid x = some e → ∃ t y, exec (.fetchwMailboxFill tid) s = .next t ∧ t.findTeam tid = some y ∧ y.mailboxes = rest ∧
      y.handed = x.handed ++ [(e.id, e.unplaced.headD 0)] ∧ y.fetched = true))

/-- R454 to R456: a cluster's token passes its cores one by one and grows dark at a black or busy one; after a white round the cluster is
quiet; a white round of the die's token with no tracked work left declares termination; clearing TERM starts a new detection. -/
def Sys2Proof.Claims.TheTerminationTokens : Prop := ∀ (s : State),
  (∀ c, c < 64 → let i := (s.acornPos.get c).toNat % 32
    let core := 32 * c + i
    let dark := s.acornToken.getLsbD c || s.acornBlack.getLsbD core || !s.coreIdle core
    ∃ t, exec (.clusterTokenPass c) s = .next t ∧ t.acornPass.getLsbD core = dark ∧ t.acornBlack.getLsbD core = false ∧
      (t.acornPos.get c).toNat = (i + 1) % 32 ∧ t.acornToken.getLsbD c = (dark && decide (i < 31)) ∧
      (i = 31 → t.acornQuiet.getLsbD c = !dark) ∧ (i < 31 → t.acornQuiet = s.acornQuiet) ∧
      (∀ n, n ≠ core → t.acornBlack.getLsbD n = s.acornBlack.getLsbD n)) ∧
  (let c := s.diePos % 64
    let dark := s.dieToken || s.acornCBlack.getLsbD c || !s.acornQuiet.getLsbD c
    ∃ t, exec .dieTokenPass s = .next t ∧ t.diePass.getLsbD c = dark ∧ t.acornCBlack.getLsbD c = false ∧ t.diePos = (c + 1) % 64 ∧
      t.dieToken = (dark && decide (c < 63)) ∧
      (t.dieTerm = true ↔ s.dieTerm = true ∨ c = 63 ∧ dark = false ∧ { s with
        diePass := setBit s.diePass c dark, acornCBlack := setBit s.acornCBlack c false, diePos := 0, dieToken := false }.acornClear = true)) ∧
  (s.acornst = true → ∃ t, exec .acornstTermClear s = .next t ∧ t.acornst = false ∧ t.dieTerm = false ∧ t.acornBlack = 0 ∧
    t.acornToken = 0 ∧ t.acornTerm = 0 ∧ t.dieToken = false)

/-- R466, R468 to R470: a write of the MC sets a core's capability mask, where only known classes can be set; a failing Winnow result fences
its classes on its core; the MC writes a Winnow packet to an enabled supervisor queue with room, and saves the youngest team of a core that
keeps a Winnow grid waiting for 1 ms. -/
def Sys2Proof.Claims.TheFencing : Prop := ∀ (s : State),
  (∀ core i (v : Dword), core < 2048 → i < 4 → ∃ t, exec (.capmWrite true core i v) s = .next t ∧ ∀ c n, n < 256 →
    (t.capmOf c).getLsbD n = if c = core then (if n / 64 = i then v.getLsbD (n % 64) else (s.capmOf core).getLsbD n) && knownClasses.getLsbD n
      else (s.capmOf c).getLsbD n) ∧
  (∀ core failing, core < 2048 → ∃ t, exec (.winnowResultProcess core failing) s = .next t ∧
    (∀ c, t.capmOf c = if c = core then s.capmOf core &&& ~~~failing &&& knownClasses else s.capmOf c) ∧
    ∃ l, t.log = s.log ++ l ∧ ∀ n, .fenced core n ∈ l ↔ n < 256 ∧ failing.getLsbD n = true ∧ (s.capmOf core).getLsbD n = true) ∧
  (∀ core q x packet, s.findQueue q = some x → x.enabled = true → x.super = true → x.pri = 3 → x.untaken < 2 ^ x.lsize → x.lsize ≤ 16 →
    let u := s.writeOut (x.ring + 64 * (x.tail.toNat % 2 ^ x.lsize)) (padTo 64 (packet.take 64))
    exec (.winnowEnqueue core q packet) s = exec (.doorbellWrite q (x.tail + 1)) u ∧
      ∃ t y, exec (.winnowEnqueue core q packet) s = .next t ∧ t.findQueue q = some y ∧ y.tail = x.tail + 1) ∧
  (∀ core grid g T, s.findGrid grid = some g → s.youngest core = some T → g.kernel.winnow = true → g.kernel.pin = core → g.unplaced ≠ [] →
    g.taken + winnowWait ≤ s.cycle → exec (.winnowPlacementTimeout core grid) s = .next (s.requestSave (s.namedTeams T.id.grid T.id.l)))

/-! ## Events of memory, of the registers, of the Husk and of the fabric -/

/-- R298, R300, R312, R317, R337: a walker sets A in the leaf that it uses; an eviction writes a line back, but for uncorrectable data; a scrub
logs uncorrectable bytes; a write from outside reaches home, and one that reaches a peer's home leaves no filled copy of its lines here; an
invalidation drops the translations that it names from every cache of them and ends BUSY. -/
def Sys2Proof.Claims.TheMemoryEvents : Prop := ∀ (s : State),
  (∀ root asn va l, s.husk.c = 0 → canonical va = true → s.walk va 3 root = .ok l → withAD l.pte false ≠ l.pte →
    ∃ t, exec (.pageWalk root asn va) s = .next t ∧ Holds t l.at_ (toBytes 8 (withAD l.pte false)) ∧
      ∀ a, a < l.at_ ∨ l.at_ + 8 ≤ a → t.rdByte a = s.rdByte a) ∧
  (∀ line, let n := lineOf line
    (∃ x ∈ s.stale, lineOf x.1 = n) →
    ((∀ a ∈ s.poison, lineOf a ≠ n) → exec (.l2Eviction line) s = .next { s with stale := s.stale.filter fun x => lineOf x.1 ≠ n }) ∧
    ((∃ a ∈ s.poison, lineOf a = n) → ∃ t, exec (.l2Eviction line) s = .next t ∧ t.log = s.log ++ [.uncorrectable n] ∧
      (∀ x ∈ t.stale, lineOf x.1 ≠ n) ∧ (∀ a ∈ t.poison, lineOf a ≠ n) ∧
      ∀ a, (∀ x ∈ s.stale, x.1 = a → lineOf a ≠ n) → t.rdByte a = s.rdByte a)) ∧
  (∀ line found, let u := found.foldl State.upset s
    ∃ t, exec (.memoryScrub ⟨line, found⟩) s = .next t ∧
      t.log = s.log ++ (u.poison.filter fun a => lineOf a = lineOf line).map .uncorrectable ∧ t = { u with log := t.log } ∧ t.mem = s.mem) ∧
  (∀ pa bytes, s.writable (run pa bytes.length) = true → exec (.writeReachesHome pa bytes) s = .next (s.writeOut pa bytes).tickle ∧
    Holds (s.writeOut pa bytes) pa bytes) ∧
  (∀ pa bytes, s.husk.c = 0 → (areaOf pa).isPeer = true → s.writable (run pa bytes.length) = false → ∃ t,
    exec (.writeReachesHome pa bytes) s = .next t ∧ t.mem = s.mem ∧
      ∀ T ∈ t.allTeams, ∀ l ∈ T.stash, l.pa ∈ (run pa bytes.length).map lineOf → l.filled = false) ∧
  (∀ part pa bytes u, s.writable (run pa bytes.length) = true → s.accOk targetL2 part.toNat pa bytes.length false true = (true, u) →
    exec (.hostComplexAccess part pa (some bytes)) s = .next (u.writeOut pa bytes).tickle) ∧
  (∀ part pa u b, s.writable [pa] = true → s.accOk targetL2 part.toNat pa 1 true false = (b, u) →
    exec (.hostComplexAccess part pa none) s = .next u) ∧
  (s.xlbusy = false → ∀ asn va, (∃ t, exec (.xlinvPage asn va) s = .next t ∧ t.xlbusy = true ∧ t = { s with xlinv := t.xlinv, xlbusy := true } ∧
      bits t.xlinv.toNat 61 2 = 0 ∧ bits t.xlinv.toNat 44 12 = asn.toNat ∧ bits t.xlinv.toNat 0 44 = va.toNat) ∧
    (∃ t, exec (.xlinvAsn asn) s = .next t ∧ t = { s with xlinv := t.xlinv, xlbusy := true } ∧ bits t.xlinv.toNat 61 2 = 1 ∧
      bits t.xlinv.toNat 44 12 = asn.toNat) ∧
    (∃ t, exec .xlinvAll s = .next t ∧ t = { s with xlinv := t.xlinv, xlbusy := true } ∧ bits t.xlinv.toNat 61 2 = 2)) ∧
  exec .xlinvReserved s = .next s ∧
  (s.xlbusy = true → ∃ t, exec .xlinvComplete s = .next t ∧ 
    t = { s with tlb := t.tlb, ctlb := t.ctlb, wcache := t.wcache, xlbusy := false } ∧
    (∀ e, e ∈ t.tlb ↔ e ∈ s.tlb ∧ xlinvDrops s.xlinv e = false) ∧ (∀ e, e ∈ t.ctlb ↔ e ∈ s.ctlb ∧ xlinvDrops s.xlinv e = false) ∧
    ∀ e, e ∈ t.wcache ↔ e ∈ s.wcache ∧ xlinvDropsWalk s.xlinv e = false)

/-- R293, R466, R501, R502, R506 to R508, R510, R518: a register write by a master that it names reaches the register; a read-only register
keeps its value; the access tables take new regions when their update is done; the other registers and mailboxes do what R506 says. -/
def Sys2Proof.Claims.TheRegisterEvents : Prop := ∀ (s : State),
  let reaches := fun (master off size : Nat) (wr : Bool) (s u : State) =>
    s.accOk targetMmio master (mmioBase + off) size (!wr) wr = (true, u)
  (∀ target i r, i < 64 → target ≤ targetMmio → ∃ t, exec (.accessTableWrite target i r) s = .next t ∧ t.accBusy = true ∧ t.acc = s.acc ∧
    t = { s with accNew := t.accNew, accBusy := true } ∧ (target * 64 + i, r) ∈ t.accNew) ∧
  (∃ t, exec .accessTableUpdateDone s = .next t ∧ t = { s with acc := s.accAfter, accNew := [], accBusy := false }) ∧
  (∀ tail : Word, (tail - s.esctail).toNat ≤ (s.eschead - s.esctail).toNat → ∃ t, exec (.esctailWrite tail) s = .next t ∧ t.esctail = tail ∧
    t = { s with esctail := tail, progress := s.progress + 1 }) ∧
  (∀ w ws u, s.dbgFifo = w :: ws → reaches 65 0x10_0200 8 false s u →
    exec .dbgoutPop s = .next ({ u with dbgFifo := ws, progress := u.progress + 1 } : State)) ∧
  (∀ w ws u v, s.dbgFifo = w :: ws → s.accOk targetMmio 65 (mmioBase + 0x10_0200) 8 true false = (false, v) → reaches 64 0x10_0200 8 false v u →
    exec .dbgoutPop s = .next ({ u with dbgFifo := ws, progress := u.progress + 1 } : State)) ∧
  (∀ p, p < 16 → exec (.counterMmioClear (mmioBase + 0x10_0400 + 8 * p)) s =
    .next { s with stv1 := s.stv1.set p 0, stv2 := s.stv2.set p 0 }) ∧
  exec (.counterMmioClear (mmioBase + 0x10_0480)) s = .next { s with orph := 0 } ∧
  (∀ master addr size v r u, mmioBase ≤ addr → s.husk.h ≠ 3 → regAt (addr - mmioBase) = some r → s.reachesReg r master addr size = (true, u) →
    exec (.registerWrite master addr size v) s = u.regWrite r master addr size v) ∧
  (∀ master addr size v, s.husk.h ≠ 3 → 65 < master → exec (.registerWrite master addr size v) s = .next s) ∧
  (∀ (v : Dword) u, s.husk.h ≠ 3 → reaches 64 0x210 8 true s u →
    exec (.registerWrite 64 (mmioBase + 0x210) 8 v) s = .next ({ u with wqarg := v, progress := u.progress + 1 } : State)) ∧
  (∀ (v : Dword) u, s.husk.h ≠ 3 → reaches 64 0x208 8 true s u → bits v.toNat 0 3 = 1 →
    exec (.registerWrite 64 (mmioBase + 0x208) 8 v) s = exec .wqDisable u) ∧
  (∀ (v : Dword) u, s.husk.h ≠ 3 → reaches 64 0 8 true s u → exec (.registerWrite 64 mmioBase 8 v) s = .next u.tickle) ∧
  (∀ v : Dword, s.husk.h ≠ 3 → exec (.registerWrite 64 (mmioBase + 0x10_0018) 8 v) s =
    .next ({ s with husk := { s.husk with hold := v.setWidth 16 }, progress := s.progress + 1 } : State)) ∧
  (∀ c : BitVec 2, s.husk.mcOk = true → exec (.mcMailboxRequest 0 c) s = s.dieCommand c) ∧
  (∀ (part : BitVec 6) (c : BitVec 2), part ≠ 0 → exec (.mcMailboxRequest part c) s = .next s)

/-- R479, R480, R485, R494: the states of the Husk, and how it moves among them: H2 to H1 under verified firmware, H1 to H0 when the Ultra
Ethernet ports are up, and back; leaving them drops the links; a Husk reset keeps its state and its end-to-end record. -/
def Sys2Proof.Claims.TheHuskStates : Prop := ∀ (s : State),
  let at_ := fun (h : BitVec 2) (k : Husk) => ({ k with h := h, htgt := h } : Husk)
  (s.husk.h = 2 → s.husk.mcOk = true → exec .huskToH1 s = .next { s with husk := at_ 1 s.husk }) ∧
  (s.husk.h = 1 → exec .huskToH0 s = .next { s with husk := { s.husk with htgt := 0 } }) ∧
  (s.husk.h = 1 → s.husk.htgt = 0 → exec .uePortsUp s = .next { s with husk := { at_ 0 s.husk with ueUp := true } }) ∧
  (s.husk.h = 0 → exec .huskH0ToH1 s = .next { s with husk := { at_ 1 s.husk with ueUp := false } }) ∧
  (s.husk.h = 0 ∨ s.husk.h = 1 → ∃ t, exec .huskToH2 s = .next t ∧ t.links = [] ∧ t.xbar = [] ∧ t.husk.h = 2 ∧ t.husk.htgt = 2 ∧
    t.husk.ueUp = false ∧ t.husk.c = s.husk.c ∧ t = { s with links := [], xbar := [], replies := [], husk := t.husk }) ∧
  (s.husk.h = 2 → ∃ t, exec .huskToH3 s = .next t ∧ t.husk.h = 3 ∧ t.husk.mcOk = false ∧ t.husk.meas = [] ∧ t.links = [] ∧ t.acc = [] ∧
    t.e2eDone = [] ∧ t.husk.c = s.husk.c ∧ t.husk.rollback = s.husk.rollback ∧ t.husk.revoked = s.husk.revoked) ∧
  (s.husk.h ≠ 3 → ∃ t, exec .huskReset s = .next t ∧ t.husk.h = s.husk.h ∧ t.husk.htgt = s.husk.htgt ∧ t.links = [] ∧ t.husk.lstate = [] ∧
    t.stv1 = [] ∧ t.stv2 = [] ∧ t.e2eDone = s.e2eDone ∧ t.nextSeq = s.nextSeq ∧ t.outReq = s.outReq ∧ t.husk.mcOk = s.husk.mcOk) ∧
  (s.husk.h = 3 → ∃ t, exec .huskPowerApplied s = .next t ∧ t.husk.h = 2 ∧ t.husk.htgt = 2 ∧ t.husk.mcOk = false ∧ t.husk.c = s.husk.c ∧
    (s.husk.c = 0 → t.time = s.time)) ∧
  (∃ t, exec .huskPowerLost s = .next t ∧ t.husk.h = 3 ∧ t.links = [] ∧ t.acc = [] ∧ t.husk.rollback = s.husk.rollback)

/-- R481 to R486, R497, R503 to R505: the states of the die and its resets, heartbeats and the watchdog, the time base, the verification of
images, and the attestation report. -/
def Sys2Proof.Claims.TheDieStates : Prop := ∀ (s : State),
  (s.husk.c = 3 → s.husk.mcOk = true → exec .diePowerOn s = .next { s with husk := { s.husk with c := 2 } }) ∧
  (s.husk.c = 0 ∨ s.husk.c = 1 → ∃ t, exec .computeDieReset s = .next t ∧ t.husk.c = 2 ∧ t.husk.dgen = s.husk.dgen + 1 ∧ t.pods = [] ∧
    t.teams = [] ∧ t.ops = [] ∧ t.queues = [] ∧ t.grids = [] ∧ t.mem = s.memAfterReset ∧ t.time = s.time ∧ t.links = s.links ∧ t.acc = s.acc ∧
    t.husk.h = s.husk.h ∧ t.log = s.log) ∧
  (s.husk.c = 2 → s.husk.imagesOk = true → ∃ t, exec .dieResetRelease s = .next t ∧ t.husk.c = 0 ∧ (∀ core, t.capmOf core = Config.fenceFuses core) ∧
    t = { s with capm := [], husk := t.husk }) ∧
  (s.husk.c = 1 ∨ s.husk.c = 2 → ∃ t, exec .diePowerOff s = .next t ∧ t.husk.c = 3 ∧ t.husk.dgen = s.husk.dgen ∧ t.pods = [] ∧ t.queues = []) ∧
  (∀ c, s.husk.c = 0 → c < 64 → ∃ t, exec (.agentHeartbeat c) s = .next t ∧ t.husk.beat.get c = BitVec.ofNat 64 s.cycle ∧
    ∀ d, d ≠ c → t.husk.beat.get d = s.husk.beat.get d) ∧
  (s.silent = true → exec .watchdogExpiry s = .next { s with husk := { s.husk with c := 1, hungAt := s.cycle } }) ∧
  (s.husk.c = 1 → s.husk.hold ≠ 0 → s.husk.hungAt + s.husk.hold.toNat * msCycles ≤ s.cycle → exec .dieHoldExpiry s = exec .computeDieReset s) ∧
  (∃ t, exec .packageReset s = .next t ∧ t.husk = { Husk.reset with rollback := s.husk.rollback, revoked := s.husk.revoked } ∧ t.pods = [] ∧
    t.teams = [] ∧ t.queues = [] ∧ t.links = [] ∧ t.acc = [] ∧ t.time = 0) ∧
  (∀ n, s.husk.c ≠ 0 → s.husk.h ≠ 3 → exec (.timeBaseSync n) s = .next { s with time := BitVec.ofNat 64 n }) ∧
  (∀ n, s.husk.c = 0 → exec (.timeBaseSync n) s = .next s) ∧
  (∀ image key, s.husk.h ≠ 3 → (s.husk.mcOk = true ∨ field image 4 2 = 1) → s.husk.accepts image key = true → ∃ t,
    exec (.firmwareVerify image key) s = .next t ∧ t = { s with husk := t.husk } ∧ (field image 4 2 = 1 → t.husk.mcOk = true) ∧
    (field image 4 2 ≠ 1 → field image 4 2 ∈ t.husk.dieOk) ∧ t.husk.meas.length = s.husk.meas.length + 1) ∧
  (∀ image key, s.husk.accepts image key = false → exec (.firmwareVerify image key) s = .next s) ∧
  (∀ nonce, s.husk.h ≠ 3 → s.husk.mcOk = true → exec (.attestationRequest nonce) s = .next { s with
    husk := { s.husk with report := s.reportBody nonce ++ padTo sigBytes ((Config.slhSign (s.reportBody nonce)).take sigBytes) } })

/-- R490 to R494: an accepted flit steps what its link expects, acknowledges and returns credits; a slot goes to the strictest class that can
send, but for a starved tier's turn; a link that fails goes down, and one that has trained comes up, and the rows of the table follow. -/
def Sys2Proof.Claims.TheLinks : Prop := ∀ (s : State) (port : Nat),
  let l := s.linkOf port
  let own := fun (t : State) => t.husk.lstate.get Config.pkg.toNat
  (l.port = port) ∧
  (∀ f : Flit, l.up = true → s.husk.h.toNat < 2 → f.crcOk = true → f.lseq = l.expect → ∃ t, exec (.flitReceive port f) s = .next t ∧
    t.linkOf port = { l with expect := l.expect + 1, acked := f.lack, retries := 0
                             credits := l.credits.set f.cvc.toNat (l.credits.get f.cvc.toNat + f.cred.setWidth 16) } ∧
    ∀ p, p ≠ port → t.linkOf p = s.linkOf p) ∧
  (∀ f : Flit, l.up = true → s.husk.h.toNat < 2 → f.crcOk = false → ∃ t, exec (.flitReceive port f) s = .next t ∧
    t.linkOf port = { l with retries := l.retries + 1 }) ∧
  (∀ f : Flit, l.up = true → s.husk.h.toNat < 2 → f.crcOk = true → f.lseq ≠ l.expect → exec (.flitReceive port f) s = .next s) ∧
  (l.up = true → 16 ≤ l.retries → ∃ t, exec (.linkRetryLimit port) s = .next t ∧ t.linkOf port = Link.blank port ∧
    (port < 16 → (own t).getLsbD port = false)) ∧
  (l.up = true → ∃ t, exec (.linkNoProgressTimeout port) s = .next t ∧ t.linkOf port = Link.blank port ∧ (port < 16 → (own t).getLsbD port = false)) ∧
  (isPort port = true → s.husk.h.toNat < 2 → l.up = false → ∃ t, exec (.linkTrainingComplete port) s = .next t ∧
    t.linkOf port = { Link.blank port with up := true } ∧ (own t).getLsbD port = true) ∧
  (∀ row, isPort port = true → s.husk.h.toNat < 2 → ∃ t, exec (.lstateBroadcastReceive port row) s = .next t ∧ t.husk.lstate.get port = row ∧
    own t = own s) ∧
  (∀ ready c v, l.up = true → l.starved 1 = false → l.starved 2 = false → c < 4 → l.ofClass ready c = some v →
    (∀ d < c, l.ofClass ready d = none) → exec (.flitSlotGrant port ready) s = .next (s.grant (l.counted ready c) v)) ∧
  (∀ ready c v, c < 4 → l.ofClass ready c = some v → (v = c ∨ v = c + 4) ∧ l.canSend ready v = true ∧
    ∃ k : Link, (s.grant (l.counted ready c) v).linkOf port = { k with sent := l.sent + 1, credits := l.credits.set v (l.credits.get v - 1) }) ∧
  (∀ v, l.up = true → l.starved 1 = true → l.ofClass (-1) 2 = some v → ∃ t, exec (.starvationGrant port 1) s = .next t ∧
    t.stv1.get port = (if s.stv1.get port = -1 then -1 else s.stv1.get port + 1) ∧ (t.linkOf port).s1 = 0 ∧ (t.linkOf port).s2 = l.s2 + 1) ∧
  (∀ v, l.up = true → l.starved 2 = true → l.ofClass (-1) 3 = some v → ∃ t, exec (.starvationGrant port 2) s = .next t ∧
    t.stv2.get port = (if s.stv2.get port = -1 then -1 else s.stv2.get port + 1) ∧ (t.linkOf port).s2 = 0)

/-- R371, R479, R487, R488, R493, R495, R498, R502: a request of a peer is carried out once, and answered: from the record where it has been
before, TARGET_DOWN at a closed port, with a refusal where the access tables do not admit it; one whose line is locked is kept. A detoured one
is passed on or bounced; an answer settles its request, or counts as orphaned; a request is sent again three times before it has failed; Ultra
Ethernet reads and writes memory under the tables. -/
def Sys2Proof.Claims.TheMessages : Prop := ∀ (s : State),
  (∀ m, m.dst = Config.pkg.toNat → isPort m.src = true → s.husk.h.toNat < 2 →
    (∀ bs, s.doneBefore m.src m.seq = some bs → exec (.messageArrival m) s = .next (s.reply m (.done bs))) ∧
    (s.doneBefore m.src m.seq = none → s.portOpen = false → exec (.messageArrival m) s = .next (s.reply m .targetDown)) ∧
    (s.doneBefore m.src m.seq = none → s.portOpen = true → s.lockedParts m = true → m ∉ s.accepted →
      exec (.messageArrival m) s = .next { s with accepted := s.accepted ++ [m] }) ∧
    (∀ u, s.doneBefore m.src m.seq = none → s.portOpen = true → s.lockedParts m = false → s.admits (80 + m.src) (partsOf m) = (false, u) →
      exec (.messageArrival m) s = .next (u.reply m .refused)) ∧
    (∀ u, s.doneBefore m.src m.seq = none → s.portOpen = true → s.lockedParts m = false → s.admits (80 + m.src) (partsOf m) = (true, u) →
      (∀ n, m.kind = .load n → exec (.messageArrival m) s = .next (u.reply m (u.serve m).1).tickle) ∧
      (∀ bs, (∀ n, m.kind ≠ .load n ∧ m.kind ≠ .probe n) → (u.serve m).1 = .done bs → ∃ t, exec (.messageArrival m) s = .next t ∧
        t.doneBefore m.src m.seq = some bs ∧ t.mem = (u.serve m).2.mem ∧
        t.replies = (u.serve m).2.replies ++ [⟨m.src, m.seq, .done bs⟩]))) ∧
  (∀ m, s.husk.h.toNat < 2 → m.relay = some Config.pkg.toNat → m.bounced = false → m.dst ≠ Config.pkg.toNat → m.src ≠ Config.pkg.toNat →
    exec (.detourRelay m) s = .next { s with
      xbar := s.xbar ++ [if s.linkUp Config.pkg.toNat m.dst then (m.dst, m) else (m.src, { m with bounced := true })] }) ∧
  (∀ m r, m.relay = some r → m.src = Config.pkg.toNat → m.bounced = true → r < 16 → m.dst < 16 → r ≠ m.dst → ∃ t,
    exec (.bouncedMessageReturn m) s = .next t ∧ (t.husk.lstate.get r).getLsbD m.dst = false ∧ (t.husk.lstate.get m.dst).getLsbD r = false ∧
    t.outReq.length = s.outReq.length) ∧
  (∀ r : Response, (∀ o ∈ s.outReq, ¬(o.dst = r.src ∧ o.seq = r.seq)) → exec (.responseArrival r) s =
    .next (if (r.src, r.seq) ∈ s.spent then { s with orph := if s.orph = -1 then s.orph else s.orph + 1 } else s)) ∧
  (∀ (r : Response) o, (s.outReq.find? fun o => o.dst == r.src && o.seq == r.seq) = some o → o.dgen = s.husk.dgen → r.dgen = s.husk.dgen →
    exec (.responseArrival r) s = .next (s.settleRequest o r.refused r.data r.uncorr)) ∧
  (∀ (r : Response) o, (s.outReq.find? fun o => o.dst == r.src && o.seq == r.seq) = some o → (o.dgen ≠ s.husk.dgen ∨ r.dgen ≠ s.husk.dgen) →
    ∃ t, exec (.responseArrival r) s = .next t ∧ t.outReq = s.outReq.erase o ∧ t.orph = (if s.orph = -1 then s.orph else s.orph + 1)) ∧
  (∀ dst seq o, (s.outReq.find? fun o => o.dst == dst && o.seq == seq) = some o → o.resent < 3 → ∃ t,
    exec (.e2eResendTimeout dst seq) s = .next t ∧ t = { s with outReq := t.outReq } ∧ s.reroute { o with resent := o.resent + 1 } ∈ t.outReq) ∧
  (∀ dst seq o, (s.outReq.find? fun o => o.dst == dst && o.seq == seq) = some o → 3 ≤ o.resent →
    exec (.e2eResendTimeout dst seq) s = .next (({ s with spent := s.spent ++ [(dst, seq)] } : State).settleRequest o true [])) ∧
  (∀ u bs v, s.husk.h = 0 → s.husk.c = 0 → s.husk.ueUp = true → u.crcOk = true → u.write = some bs →
    (∀ pa ∈ run u.pa bs.length, s.lockedLine (lineOf pa) = false) →
    s.admits (96 + u.flow.toNat) [(u.pa, bs.length, false, true)] = (true, v) →
    exec (.uePacketReceive u) s = .next (v.writeOut u.pa bs).tickle ∧ Holds (v.writeOut u.pa bs) u.pa bs) ∧
  (∀ u b v, s.husk.h = 0 → s.husk.c = 0 → s.husk.ueUp = true → u.crcOk = true → u.write = none →
    s.admits (96 + u.flow.toNat) [(u.pa, u.len, true, false)] = (b, v) → exec (.uePacketReceive u) s = .next v) ∧
  (∀ u, s.husk.h = 0 → s.husk.c = 0 → s.husk.ueUp = true → u.crcOk = false → exec (.uePacketReceive u) s =
    .next { s with log := s.log ++ [.crcDiscard] })

/-! ## The machine as a whole: reset, decoding, the step -/

/-- R483, R486, R479 to R481: right after package reset the Husk is in H2 and the compute die in C2, no team and no pod exists, every queue
is disabled, no region of an access table is set, memory lists nothing, and time and every counter are 0. Where the manual gives no reset
value the value is the model's choice: what unwritten memory reads as (log 2), and time (log 3). -/
def Obligations.ResetState : Prop :=
  State.reset.husk.h = 2 ∧ State.reset.husk.c = 2 ∧ State.reset.pods = [] ∧ State.reset.teams = [] ∧ State.reset.grids = [] ∧
  State.reset.queues = [] ∧ State.reset.acc = [] ∧ State.reset.ops = [] ∧ State.reset.links = [] ∧
  State.reset.due = [] ∧ State.reset.selected = [] ∧ Memory.wf State.reset.mem = true ∧
  (∀ a, State.reset.rdByte a = Config.unwritten) ∧ State.reset.time = 0 ∧ (∀ n, State.reset.ecnt.get n = 0)

/-- R60 to R77, R84, R99: an instruction that keeps the rules of its form and of its opcode decodes from its word, with every field;
and a word that decodes is the word of its instruction, which keeps those rules. -/
def Obligations.DecodeAndEncodeAgree : Prop :=
  (∀ i, WellFormed i = true → i.legal = true → decode (encode i) = .ok i) ∧
  (∀ w i, decode w = .ok i → encode i = w ∧ WellFormed i = true ∧ i.legal = true)

/-- The words that the manual encodes field by field, at least one in most groups of the opcode map, and a word of a legacy set. No
opcode from 0x2E0 on is assigned. -/
def Obligations.WordsOfTheManual : Prop :=
  let h : Head := { neg := false, pred := 0, wait := 0, seta := 15, setb := 15 }
  decode 0x1006_0501_6060_00C0_7000_054F = .ok (.iadd { h with pred := 3, wait := 5, seta := 4 }
    (.r { dst := 10, a := 11, b := 12, c := 0, smod := 0x603, mtgt := 2, flags := 0 })) ∧
  decode 0x1680_0180_E000_0100_8400_00FF = .ok (.bfe h (.i { dst := 3, a := 7, imm := 0x804, interp := 0, flags := 64 })) ∧
  decode 0x0100_0A03_C000_0000_0000_00FF = .ok (.callx h { link := 20, a := 30, boff := 0, flags := 0 }) ∧
  decode 0x01C1_4100_0000_0000_6000_00FF = .ok (.loop h { link := 642, a := 0, boff := 3, flags := 0 }) ∧
  decode 0x04C0_0000_0002_0000_0400_00FF = .ok (.clrc h (.i { dst := 0, a := 0, imm := 0x10_0000, interp := 0, flags := 64 })) ∧
  decode 0x0480_0000_0000_0000_0010_00FF =
    .ok (.rtt h { dst := 0, a := 0, b := 0, c := 0, smod := 0, mtgt := 0, flags := 1 }) ∧
  decode 0x37C0_1404_0000_0091_8100_00FF =
    .ok (.cvt h { dst := 40, a := 32, b := 0, c := 0, desc := 0x48C, flags := 0x010 }) ∧
  decode 0x62C4_0300_B888_000C_0000_00FF =
    .ok (.gscan { h with pred := 2 } { dst := 6, a := 5, b := 785, c := 0, desc := 0x060, flags := 0 }) ∧
  decode 0x9241_6050_4010_C000_1180_00FF =
    .ok (.ldq h { data := 704, base := 642, index := 2, offset := 0x600, scope := 0, order := 0, atom := 0, size := 2, hint := 0
                  nf := true, typed := true, rsv := 0 }) ∧
  decode 0xA001_6904_1428_0032_3000_00FF =
    .ok (.mma h { dst := 722, a := 32, b := 645, c := 0, desc := 0x191, flags := 0x100 }) ∧
  decodeMode 2 0x2000_282C_3000_0000_0000_00FF =
    .ok (.iadd h (.r { dst := 10, a := 11, b := 12, c := 0, smod := 0, mtgt := 0, flags := 0 })) ∧
  (∀ w : IWord, 0x2E0 ≤ w.op.toNat → decode w = .error .unassigned)

/-- R61, R62, R238: a fetched word comes from the twelve bytes at the pod's program counter, translated for a fetch: each of its three pieces
that the team's stash holds is what a load of the team reads there, and one of this package's memory that the core's fetch line does not hold
is what home holds, first piece lowest. Beyond the translation, nothing but the instruction cache and the open values changes. -/
def Sys2Proof.Claims.TheFetching : Prop := ∀ (s u : State) (w : IWord), s.fetch = (.word w, u) → s.pod.pc.toNat % 12 = 0 →
  ∃ pas v, s.translateRange s.team (s.team.coreOf s.pod.id) s.pod.pc 12 .fetch = (.ok pas, v) ∧ v.poisoned pas = false ∧
    u = { v with icache := u.icache, free := u.free } ∧ u.pod = s.pod ∧ u.pods = s.pods ∧
    ∀ j < 3, let pa := pas.getD (4 * j) 0
      let piece := w.extractLsb' (32 * j) 32
      (v.team.holdsPiece pa = true → piece = BitVec.ofNat 32 (ofBytes ((run pa 4).map (v.loadByte v.team)))) ∧
      (v.team.holdsPiece pa = false → (areaOf pa).isMem = true →
        (∀ x ∈ v.icache, x.core = s.team.coreOf s.pod.id → x.va = fetchLineOf s.pod.pc → ∀ y ∈ x.pieces, y.1 ≠ pa) →
        piece = BitVec.ofNat 32 (ofBytes (v.rdBytes pa 4)))

/-- R60, R101, R475, R517: an issuing pod runs the instruction that its decoder reads from the fetched word, unless a breakpoint is planted
there or the fetch stops. A step first takes an event that the outside has left, and otherwise the move of its choice: a pod's issue, an event,
a placement, a restore, a heartbeat, or an accepted request of a peer. -/
def Sys2Proof.Claims.TheStepRunsTheDecodedInstruction : Prop := ∀ (s : State),
  (∀ i rest, s.advance.inputs = i :: rest → i.isEvent = true → step s = exec i { s.advance with inputs := rest }) ∧
  (∀ i rest, s.advance.inputs = i :: rest → i.isEvent = false → step s = .next { s.advance with inputs := rest }) ∧
  (s.advance.inputs = [] →
    (∀ p s₁ w s₂ i, s.advance.pick = (some (.pod p), s₁) → (s₁.switchTo p).planted = false →
      (s₁.switchTo p).fetch = (.word w, s₂) → decodeMode s₂.team.kernel.decode w = .ok i → step s = exec i s₂) ∧
    (∀ p s₁ w s₂ e, s.advance.pick = (some (.pod p), s₁) → (s₁.switchTo p).planted = false →
      (s₁.switchTo p).fetch = (.word w, s₂) → decodeMode s₂.team.kernel.decode w = .error e →
      step s = exec (.unassignedOpcode w) s₂) ∧
    (∀ p s₁, s.advance.pick = (some (.pod p), s₁) → (s₁.switchTo p).planted = true →
      step s = .next ((s₁.switchTo p).raise ((s₁.switchTo p).pod.before .breakpoint 0 0 0))) ∧
    (∀ p s₁ s₂ c arg a, s.advance.pick = (some (.pod p), s₁) → (s₁.switchTo p).planted = false →
      (s₁.switchTo p).fetch = (.fault c arg a, s₂) → step s = .next (s₂.raise (s₂.pod.before c 0 arg a))) ∧
    (∀ p s₁ s₂, s.advance.pick = (some (.pod p), s₁) → (s₁.switchTo p).planted = false →
      (s₁.switchTo p).fetch = (.wait, s₂) → step s = .next (s₂.holdPod .flag)) ∧
    (∀ i s₁, s.advance.pick = (some (.event i), s₁) → step s = exec i s₁) ∧
    (∀ t core s₁, s.advance.pick = (some (.place t core), s₁) → step s = execTeamPlacement t core s₁) ∧
    (∀ r core s₁, s.advance.pick = (some (.restore r core), s₁) → step s = execContextRestore r core s₁) ∧
    (∀ core s₁, s.advance.pick = (some (.beat core), s₁) → step s = execAgentHeartbeat core s₁) ∧
    (∀ m s₁, s.advance.pick = (some (.request m), s₁) → step s = execMessageArrival m s₁) ∧
    (∀ s₁, s.advance.pick = (none, s₁) → step s = .next s₁)) ∧
  (∀ m w, m ≠ 1 → m ≠ 2 → decodeMode m w = decode w)

/-- Every failure that the manual describes is an effect of its own (a trap, a status, a report, a state that waits): no instruction, no
event and no step ends the machine in a fault or a refusal. -/
def Obligations.EveryStepGoesOn : Prop := (∀ i s, ∃ t, exec i s = .next t) ∧ ∀ s, ∃ t, step s = .next t

/-- Memory keeps its canonical form in every step: addresses strictly rising, no entry that equals what an unlisted address reads as. -/
def Obligations.StepsKeepMemoryCanonical : Prop := ∀ (s t : State), Memory.wf s.mem = true → step s = .next t → Memory.wf t.mem = true

/-! ## Statements in several parts -/

/-- Integer arithmetic writes the fit of the exact result, which wraps or clamps: TheIntegerArithmetic, TheFitWrapsOrClamps. -/
def Obligations.IntegerArithmetic : Prop := TheIntegerArithmetic ∧ TheFitWrapsOrClamps

/-- Bitwise logic, bit fields, bit counts and byte permutation: TheBitwiseLogic, TheBitFields. -/
def Obligations.LogicAndBitFields : Prop := TheBitwiseLogic ∧ TheBitFields

/-- Rounding, fractions, exponents, minima, maxima, comparisons, signs and classes of floats: TheFloatCompareAndSign,
TheMinimumAndMaximum. -/
def Obligations.FloatCompareAndSign : Prop := TheFloatCompareAndSign ∧ TheMinimumAndMaximum

/-- Reads from other threads: SHFL, PERM, GBCAST, KGET; and CLFL: TheGroupsOfThreads, TheUniformReads, TheExchanges. -/
def Obligations.Exchanges : Prop := TheGroupsOfThreads ∧ TheUniformReads ∧ TheExchanges

/-- Votes, ballots, matches, elections and group masks: TheVotesAndMatches, TheGroupMasks. -/
def Obligations.VotesAndMasks : Prop := TheVotesAndMatches ∧ TheGroupMasks

/-- Reductions, scans and sorts of groups: TheGroupReductions, TheIntegerReductions, TheGroupSort. -/
def Obligations.GroupReductions : Prop := TheGroupReductions ∧ TheIntegerReductions ∧ TheGroupSort

/-- The frontier, branches, calls and returns: TheFrontier, TheThreadMoves, TheBranches, TheCallsAndReturns. -/
def Obligations.ControlFlow : Prop := TheFrontier ∧ TheThreadMoves ∧ TheBranches ∧ TheCallsAndReturns

/-- LOOP, LEAVE and the back-edge: TheLoopsOpenAndLeave, TheBackEdges. -/
def Obligations.Loops : Prop := TheLoopsOpenAndLeave ∧ TheBackEdges

/-- EXIT, PHASE and SYNC: TheExit, TheBarriers. -/
def Obligations.ExitAndBarriers : Prop := TheExit ∧ TheBarriers

/-- TRAP, BRK, RTT, CLRC, SETC, WRSR, TIME and PRIO: TheTrapInstructions, TheReturnFromTrap, TheCauseRegister,
TheSpecialRegisters. -/
def Obligations.TrapsAndSpecialRegisters : Prop := TheTrapInstructions ∧ TheReturnFromTrap ∧ TheCauseRegister ∧ TheSpecialRegisters

/-- A failed whole-pod check has no effect but its trap; the checks come in one order: TheCheckOrder, TheFailedChecksTrap. -/
def Obligations.FailedChecksTrap : Prop := TheCheckOrder ∧ TheFailedChecksTrap

/-- What trap entry saves and where it goes, and how an unclaimed cause escalates: TheTrapEntry, TheEscalation. -/
def Obligations.TrapEntry : Prop := TheTrapEntry ∧ TheEscalation

/-- Loads and stores of plain shared memory: TheSharedBytes, TheSharedLoads, TheSharedStores. -/
def Obligations.SharedMemory : Prop := TheSharedBytes ∧ TheSharedLoads ∧ TheSharedStores

/-- LD, LDS and LDC, thread by thread: TheLoads, TheLoadTurns. -/
def Obligations.Loads : Prop := TheLoads ∧ TheLoadTurns

/-- ST and STS, thread by thread: TheStores, TheStoreTurns. -/
def Obligations.Stores : Prop := TheStores ∧ TheStoreTurns

/-- Memory and the stash read back what was written, and a line goes home whole: TheMemoryReadsBack, TheStashStoreReadsBack,
TheLinesGoHome. -/
def Obligations.MemoryReadsBack : Prop := TheMemoryReadsBack ∧ TheStashStoreReadsBack ∧ TheLinesGoHome

/-- Fences, prefetch, cache control, and the control of stash lines: TheFencesAndCaches, TheStashControl. -/
def Obligations.FencesAndCaches : Prop := TheFencesAndCaches ∧ TheStashControl

/-- LOOPC and LCBR take their count from a block in memory: TheLoopCount, TheLoopCountBranch. -/
def Obligations.LoopCounts : Prop := TheLoopCount ∧ TheLoopCountBranch

/-- Atomics and reductions: TheAtomicOperations, TheAtomics, TheAtomicTurns. -/
def Obligations.Atomics : Prop := TheAtomicOperations ∧ TheAtomics ∧ TheAtomicTurns

/-- Transactions, and write with enqueue: TheTransactions, TheTransactionTurns, TheWriteWithEnqueue. -/
def Obligations.Transactions : Prop := TheTransactions ∧ TheTransactionTurns ∧ TheWriteWithEnqueue

/-- Operations and their handles; copies and their tags: TheOperationsStart, TheCopies. -/
def Obligations.Copies : Prop := TheOperationsStart ∧ TheCopies

/-- Operand rings: TheRingCounts, TheRingInstructions. -/
def Obligations.Rings : Prop := TheRingCounts ∧ TheRingInstructions

/-- Gathers, scatters, and operations attached to a ring: TheGatherScatter, TheAttachedOperations. -/
def Obligations.AccessSide : Prop := TheGatherScatter ∧ TheAttachedOperations

/-- Reading, testing, cancelling and passing handles: TheHandleReads, TheHandleInstructions. -/
def Obligations.Handles : Prop := TheHandleReads ∧ TheHandleInstructions

/-- Tile slots, matrix operations and the stack engines: TheTileSlots, TheMatrixInstructions, TheStackInstructions. -/
def Obligations.EngineInstructions : Prop := TheTileSlots ∧ TheMatrixInstructions ∧ TheStackInstructions

/-- Joining collectives, grid barriers and team reductions: TheJoiningAnInstance, TheCollectiveInstructions, TheTeamReductions. -/
def Obligations.Collectives : Prop := TheJoiningAnInstance ∧ TheCollectiveInstructions ∧ TheTeamReductions

/-- LAUNCH, WAITCH and FETCHW: TheEnqueue, TheLaunch, TheChildrenAndMailboxes. -/
def Obligations.LaunchAndChildren : Prop := TheEnqueue ∧ TheLaunch ∧ TheChildrenAndMailboxes

/-- HALT, RESUME, ABORTP, DSTEP and ACORN: TheHaltedTeams, TheActingOnTeams, TheAcornInstruction. -/
def Obligations.Supervision : Prop := TheHaltedTeams ∧ TheActingOnTeams ∧ TheAcornInstruction

/-- Counters, watchpoints, breakpoints and the debug mailbox: TheCounters, TheDebugInstructions. -/
def Obligations.CountersAndDebug : Prop := TheCounters ∧ TheDebugInstructions

/-- Outstanding results are written, or keep their fault: TheResultsArrive, ThePeersAnswer. -/
def Obligations.ResultsArrive : Prop := TheResultsArrive ∧ ThePeersAnswer

/-- Due traps, the ends of waits, scheduling, and ring deadlock: TheTrapsComeDue, TheWaitsEnd, TheScheduling, TheRingDeadlock. -/
def Obligations.PodsWaitAndGoOn : Prop := TheTrapsComeDue ∧ TheWaitsEnd ∧ TheScheduling ∧ TheRingDeadlock

/-- Matrix operations, stack engines and streams proceed and complete: TheAccumulatorSteps, TheMatrixOperations, TheStreamEngines.
-/
def Obligations.EnginesProceed : Prop := TheAccumulatorSteps ∧ TheMatrixOperations ∧ TheStreamEngines

/-- Collectives complete with their results: TheCollectivesComplete, TheCollectiveResults. -/
def Obligations.CollectivesComplete : Prop := TheCollectivesComplete ∧ TheCollectiveResults

/-- The ends of pods, phases, teams and grids; aborts and shadow phases: ThePhasesAndTeams, TheAbortsAndShadows. -/
def Obligations.PhasesAndTeams : Prop := ThePhasesAndTeams ∧ TheAbortsAndShadows

/-- Work queues, their commands, and the placing of teams: TheWorkQueues, TheQueueCommands, ThePlacingTeams. -/
def Obligations.QueuesAndPlacement : Prop := TheWorkQueues ∧ TheQueueCommands ∧ ThePlacingTeams

/-- Termination tokens, capability fencing, and Winnow: TheTerminationTokens, TheFencing. -/
def Obligations.TerminationAndFencing : Prop := TheTerminationTokens ∧ TheFencing

/-- Walks, write-backs, scrubs, outside accesses, and register writes: TheMemoryEvents, TheRegisterEvents. -/
def Obligations.MemoryAndRegisterEvents : Prop := TheMemoryEvents ∧ TheRegisterEvents

/-- The states of the Husk and the die, resets, time and images: TheHuskStates, TheDieStates. -/
def Obligations.HuskAndDie : Prop := TheHuskStates ∧ TheDieStates

/-- Links and messages between packages: TheLinks, TheMessages. -/
def Obligations.Fabric : Prop := TheLinks ∧ TheMessages

/-- A step runs the instruction that the word at the program counter decodes to: TheFetching, TheStepRunsTheDecodedInstruction. -/
def Obligations.StepRunsTheDecodedInstruction : Prop := TheFetching ∧ TheStepRunsTheDecodedInstruction
end

