-- ==== Sys2Proof/Laws/Cells.lean ====
section
/-! SUPPORT. Laws of sparse maps: a read after a write, and the canonical form. -/
namespace Sys2Proof.Machine

theorem look_erase_same {α : Type} (d : α) (i : Nat) (c : List (Nat × α)) : look d (erase i c) i = d := by
  induction c with
  | nil => rfl
  | cons x c ih =>
    obtain ⟨j, x⟩ := x
    simp only [erase]
    split
    · exact ih
    · simp only [look]; split
      · contradiction
      · exact ih

theorem look_erase_ne {α : Type} (d : α) {i k : Nat} (h : k ≠ i) (c : List (Nat × α)) : look d (erase i c) k = look d c k := by
  induction c with
  | nil => rfl
  | cons x c ih =>
    obtain ⟨j, x⟩ := x
    simp only [erase]
    split
    · subst_vars; simp only [look, if_neg h]; exact ih
    · simp only [look]; split
      · rfl
      · exact ih

/-- A read after a write to the same index gives what was written. -/
theorem look_store_same {α : Type} [DecidableEq α] (d : α) (c : List (Nat × α)) (i : Nat) (y : α) :
    look d (store d c i y) i = y := by
  induction c with
  | nil => simp only [store]; split
           · subst_vars; rfl
           · simp [look]
  | cons x c ih =>
    obtain ⟨j, x⟩ := x
    simp only [store]
    split
    · subst_vars; exact look_erase_same ..
    · split
      · simp [look]
      · split
        · simp [look]
        · simp only [look]; split
          · contradiction
          · exact ih

/-- A write leaves every other index alone. -/
theorem look_store_ne {α : Type} [DecidableEq α] (d : α) (c : List (Nat × α)) {i k : Nat} (h : k ≠ i) (y : α) :
    look d (store d c i y) k = look d c k := by
  induction c with
  | nil => simp only [store]; split <;> simp [look, h]
  | cons x c ih =>
    obtain ⟨j, x⟩ := x
    simp only [store]
    split
    · exact look_erase_ne d h _
    · split
      · simp [look, h]
      · split
        · subst_vars; simp [look, h]
        · simp only [look]; rw [ih]

theorem look_store {α : Type} [DecidableEq α] (d : α) (c : List (Nat × α)) (i k : Nat) (y : α) :
    look d (store d c i y) k = if k = i then y else look d c k := by
  split
  · subst_vars; exact look_store_same ..
  · exact look_store_ne d c ‹_› y

@[simp] theorem Cells.get_set {w : Nat} (c : Cells w) (i k : Nat) (y : BitVec w) :
    (c.set i y).get k = if k = i then y else c.get k := look_store ..

theorem sortedFrom_mono {α : Type} [DecidableEq α] (d : α) {lo hi : Nat} (c : List (Nat × α)) (h : lo ≤ hi)
    (w : sortedFrom d hi c = true) : sortedFrom d lo c = true := by
  cases c with
  | nil => rfl
  | cons x c =>
    simp only [sortedFrom, Bool.and_eq_true, decide_eq_true_eq] at *
    exact ⟨⟨by omega, w.1.2⟩, w.2⟩

theorem erase_above {α : Type} [DecidableEq α] (d : α) {i lo : Nat} (c : List (Nat × α)) (h : i < lo)
    (w : sortedFrom d lo c = true) : erase i c = c := by
  induction c generalizing lo with
  | nil => rfl
  | cons x c ih =>
    obtain ⟨j, x⟩ := x
    simp only [sortedFrom, Bool.and_eq_true, decide_eq_true_eq] at w
    simp only [erase, if_neg (show i ≠ j by omega), ih (show i < j + 1 by omega) w.2]

theorem sortedFrom_erase {α : Type} [DecidableEq α] (d : α) {i lo : Nat} (c : List (Nat × α))
    (w : sortedFrom d lo c = true) : sortedFrom d lo (erase i c) = true := by
  induction c generalizing lo with
  | nil => rfl
  | cons x c ih =>
    obtain ⟨j, x⟩ := x
    have w' := w
    simp only [sortedFrom, Bool.and_eq_true, decide_eq_true_eq] at w
    simp only [erase]
    split
    · exact ih (sortedFrom_mono d c (by omega) w.2)
    · simp only [sortedFrom, Bool.and_eq_true, decide_eq_true_eq]
      exact ⟨w.1, ih w.2⟩

/-- A write keeps the canonical form. -/
theorem sortedFrom_store {α : Type} [DecidableEq α] (d : α) {i lo : Nat} (c : List (Nat × α)) (y : α) (hi : lo ≤ i)
    (w : sortedFrom d lo c = true) : sortedFrom d lo (store d c i y) = true := by
  induction c generalizing lo with
  | nil => simp only [store]; split <;> simp_all [sortedFrom]
  | cons x c ih =>
    obtain ⟨j, x⟩ := x
    have w' := w
    simp only [sortedFrom, Bool.and_eq_true, decide_eq_true_eq] at w
    simp only [store]
    split
    · exact sortedFrom_erase d _ w'
    · split
      · simp only [sortedFrom, Bool.and_eq_true, decide_eq_true_eq]
        exact ⟨⟨hi, ‹_›⟩, ⟨by omega, w.1.2⟩, w.2⟩
      · split
        · subst_vars; simp only [sortedFrom, Bool.and_eq_true, decide_eq_true_eq]; exact ⟨⟨hi, ‹_›⟩, w.2⟩
        · simp only [sortedFrom, Bool.and_eq_true, decide_eq_true_eq]
          exact ⟨w.1, ih (by omega) w.2⟩

end Sys2Proof.Machine
end

