-- ==== Sys2Proof/Laws/State.lean ====
section
/-! SUPPORT. What each named update of the state, of a pod and of a team leaves and changes, field by field. -/
namespace Sys2Proof.Machine

@[simp] theorem State.setPod_pod (s : State) (p : Pod) : (s.setPod p).pod = p := rfl
@[simp] theorem State.setPod_team (s : State) (p : Pod) : (s.setPod p).team = s.team := rfl
@[simp] theorem State.setPod_pods (s : State) (p : Pod) : (s.setPod p).pods = s.pods := rfl
@[simp] theorem State.setPod_teams (s : State) (p : Pod) : (s.setPod p).teams = s.teams := rfl
@[simp] theorem State.setPod_mem (s : State) (p : Pod) : (s.setPod p).mem = s.mem := rfl
@[simp] theorem State.setPod_stale (s : State) (p : Pod) : (s.setPod p).stale = s.stale := rfl
@[simp] theorem State.setPod_poison (s : State) (p : Pod) : (s.setPod p).poison = s.poison := rfl
@[simp] theorem State.setPod_tlb (s : State) (p : Pod) : (s.setPod p).tlb = s.tlb := rfl
@[simp] theorem State.setPod_ctlb (s : State) (p : Pod) : (s.setPod p).ctlb = s.ctlb := rfl
@[simp] theorem State.setPod_wcache (s : State) (p : Pod) : (s.setPod p).wcache = s.wcache := rfl
@[simp] theorem State.setPod_icache (s : State) (p : Pod) : (s.setPod p).icache = s.icache := rfl
@[simp] theorem State.setPod_l1 (s : State) (p : Pod) : (s.setPod p).l1 = s.l1 := rfl
@[simp] theorem State.setPod_ccache (s : State) (p : Pod) : (s.setPod p).ccache = s.ccache := rfl
@[simp] theorem State.setPod_rcbuf (s : State) (p : Pod) : (s.setPod p).rcbuf = s.rcbuf := rfl
@[simp] theorem State.setPod_capm (s : State) (p : Pod) : (s.setPod p).capm = s.capm := rfl
@[simp] theorem State.setPod_ecnt (s : State) (p : Pod) : (s.setPod p).ecnt = s.ecnt := rfl
@[simp] theorem State.setPod_esel (s : State) (p : Pod) : (s.setPod p).esel = s.esel := rfl
@[simp] theorem State.setPod_esnap (s : State) (p : Pod) : (s.setPod p).esnap = s.esnap := rfl
@[simp] theorem State.setPod_fcnt (s : State) (p : Pod) : (s.setPod p).fcnt = s.fcnt := rfl
@[simp] theorem State.setPod_fsel (s : State) (p : Pod) : (s.setPod p).fsel = s.fsel := rfl
@[simp] theorem State.setPod_rcnt (s : State) (p : Pod) : (s.setPod p).rcnt = s.rcnt := rfl
@[simp] theorem State.setPod_acornBlack (s : State) (p : Pod) : (s.setPod p).acornBlack = s.acornBlack := rfl
@[simp] theorem State.setPod_acornPass (s : State) (p : Pod) : (s.setPod p).acornPass = s.acornPass := rfl
@[simp] theorem State.setPod_acornToken (s : State) (p : Pod) : (s.setPod p).acornToken = s.acornToken := rfl
@[simp] theorem State.setPod_acornCBlack (s : State) (p : Pod) : (s.setPod p).acornCBlack = s.acornCBlack := rfl
@[simp] theorem State.setPod_acornQuiet (s : State) (p : Pod) : (s.setPod p).acornQuiet = s.acornQuiet := rfl
@[simp] theorem State.setPod_acornTerm (s : State) (p : Pod) : (s.setPod p).acornTerm = s.acornTerm := rfl
@[simp] theorem State.setPod_acornPos (s : State) (p : Pod) : (s.setPod p).acornPos = s.acornPos := rfl
@[simp] theorem State.setPod_dieToken (s : State) (p : Pod) : (s.setPod p).dieToken = s.dieToken := rfl
@[simp] theorem State.setPod_diePos (s : State) (p : Pod) : (s.setPod p).diePos = s.diePos := rfl
@[simp] theorem State.setPod_diePass (s : State) (p : Pod) : (s.setPod p).diePass = s.diePass := rfl
@[simp] theorem State.setPod_dieTerm (s : State) (p : Pod) : (s.setPod p).dieTerm = s.dieTerm := rfl
@[simp] theorem State.setPod_acornst (s : State) (p : Pod) : (s.setPod p).acornst = s.acornst := rfl
@[simp] theorem State.setPod_serial (s : State) (p : Pod) : (s.setPod p).serial = s.serial := rfl
@[simp] theorem State.setPod_ops (s : State) (p : Pod) : (s.setPod p).ops = s.ops := rfl
@[simp] theorem State.setPod_nextToken (s : State) (p : Pod) : (s.setPod p).nextToken = s.nextToken := rfl
@[simp] theorem State.setPod_colls (s : State) (p : Pod) : (s.setPod p).colls = s.colls := rfl
@[simp] theorem State.setPod_nextColl (s : State) (p : Pod) : (s.setPod p).nextColl = s.nextColl := rfl
@[simp] theorem State.setPod_grids (s : State) (p : Pod) : (s.setPod p).grids = s.grids := rfl
@[simp] theorem State.setPod_nextGrid (s : State) (p : Pod) : (s.setPod p).nextGrid = s.nextGrid := rfl
@[simp] theorem State.setPod_queues (s : State) (p : Pod) : (s.setPod p).queues = s.queues := rfl
@[simp] theorem State.setPod_wqbase (s : State) (p : Pod) : (s.setPod p).wqbase = s.wqbase := rfl
@[simp] theorem State.setPod_wqarg (s : State) (p : Pod) : (s.setPod p).wqarg = s.wqarg := rfl
@[simp] theorem State.setPod_wqstatus (s : State) (p : Pod) : (s.setPod p).wqstatus = s.wqstatus := rfl
@[simp] theorem State.setPod_xlinv (s : State) (p : Pod) : (s.setPod p).xlinv = s.xlinv := rfl
@[simp] theorem State.setPod_xlbusy (s : State) (p : Pod) : (s.setPod p).xlbusy = s.xlbusy := rfl
@[simp] theorem State.setPod_escPending (s : State) (p : Pod) : (s.setPod p).escPending = s.escPending := rfl
@[simp] theorem State.setPod_escbase (s : State) (p : Pod) : (s.setPod p).escbase = s.escbase := rfl
@[simp] theorem State.setPod_escsize (s : State) (p : Pod) : (s.setPod p).escsize = s.escsize := rfl
@[simp] theorem State.setPod_eschead (s : State) (p : Pod) : (s.setPod p).eschead = s.eschead := rfl
@[simp] theorem State.setPod_esctail (s : State) (p : Pod) : (s.setPod p).esctail = s.esctail := rfl
@[simp] theorem State.setPod_dbgFifo (s : State) (p : Pod) : (s.setPod p).dbgFifo = s.dbgFifo := rfl
@[simp] theorem State.setPod_dbgIn (s : State) (p : Pod) : (s.setPod p).dbgIn = s.dbgIn := rfl
@[simp] theorem State.setPod_quantum (s : State) (p : Pod) : (s.setPod p).quantum = s.quantum := rfl
@[simp] theorem State.setPod_hold (s : State) (p : Pod) : (s.setPod p).hold = s.hold := rfl
@[simp] theorem State.setPod_husk (s : State) (p : Pod) : (s.setPod p).husk = s.husk := rfl
@[simp] theorem State.setPod_links (s : State) (p : Pod) : (s.setPod p).links = s.links := rfl
@[simp] theorem State.setPod_stv1 (s : State) (p : Pod) : (s.setPod p).stv1 = s.stv1 := rfl
@[simp] theorem State.setPod_stv2 (s : State) (p : Pod) : (s.setPod p).stv2 = s.stv2 := rfl
@[simp] theorem State.setPod_orph (s : State) (p : Pod) : (s.setPod p).orph = s.orph := rfl
@[simp] theorem State.setPod_outReq (s : State) (p : Pod) : (s.setPod p).outReq = s.outReq := rfl
@[simp] theorem State.setPod_nextSeq (s : State) (p : Pod) : (s.setPod p).nextSeq = s.nextSeq := rfl
@[simp] theorem State.setPod_xbar (s : State) (p : Pod) : (s.setPod p).xbar = s.xbar := rfl
@[simp] theorem State.setPod_e2eDone (s : State) (p : Pod) : (s.setPod p).e2eDone = s.e2eDone := rfl
@[simp] theorem State.setPod_replies (s : State) (p : Pod) : (s.setPod p).replies = s.replies := rfl
@[simp] theorem State.setPod_spent (s : State) (p : Pod) : (s.setPod p).spent = s.spent := rfl
@[simp] theorem State.setPod_accepted (s : State) (p : Pod) : (s.setPod p).accepted = s.accepted := rfl
@[simp] theorem State.setPod_acc (s : State) (p : Pod) : (s.setPod p).acc = s.acc := rfl
@[simp] theorem State.setPod_accNew (s : State) (p : Pod) : (s.setPod p).accNew = s.accNew := rfl
@[simp] theorem State.setPod_accBusy (s : State) (p : Pod) : (s.setPod p).accBusy = s.accBusy := rfl
@[simp] theorem State.setPod_wqpart (s : State) (p : Pod) : (s.setPod p).wqpart = s.wqpart := rfl
@[simp] theorem State.setPod_ueep (s : State) (p : Pod) : (s.setPod p).ueep = s.ueep := rfl
@[simp] theorem State.setPod_uefg (s : State) (p : Pod) : (s.setPod p).uefg = s.uefg := rfl
@[simp] theorem State.setPod_log (s : State) (p : Pod) : (s.setPod p).log = s.log := rfl
@[simp] theorem State.setPod_cycle (s : State) (p : Pod) : (s.setPod p).cycle = s.cycle := rfl
@[simp] theorem State.setPod_tick (s : State) (p : Pod) : (s.setPod p).tick = s.tick := rfl
@[simp] theorem State.setPod_time (s : State) (p : Pod) : (s.setPod p).time = s.time := rfl
@[simp] theorem State.setPod_free (s : State) (p : Pod) : (s.setPod p).free = s.free := rfl
@[simp] theorem State.setPod_progress (s : State) (p : Pod) : (s.setPod p).progress = s.progress := rfl
@[simp] theorem State.setPod_inputs (s : State) (p : Pod) : (s.setPod p).inputs = s.inputs := rfl

@[simp] theorem State.setTeam_pod (s : State) (x : Team) : (s.setTeam x).pod = s.pod := rfl
@[simp] theorem State.setTeam_team (s : State) (x : Team) : (s.setTeam x).team = x := rfl
@[simp] theorem State.setTeam_pods (s : State) (x : Team) : (s.setTeam x).pods = s.pods := rfl
@[simp] theorem State.setTeam_teams (s : State) (x : Team) : (s.setTeam x).teams = s.teams := rfl
@[simp] theorem State.setTeam_mem (s : State) (x : Team) : (s.setTeam x).mem = s.mem := rfl
@[simp] theorem State.setTeam_stale (s : State) (x : Team) : (s.setTeam x).stale = s.stale := rfl
@[simp] theorem State.setTeam_poison (s : State) (x : Team) : (s.setTeam x).poison = s.poison := rfl
@[simp] theorem State.setTeam_tlb (s : State) (x : Team) : (s.setTeam x).tlb = s.tlb := rfl
@[simp] theorem State.setTeam_ctlb (s : State) (x : Team) : (s.setTeam x).ctlb = s.ctlb := rfl
@[simp] theorem State.setTeam_wcache (s : State) (x : Team) : (s.setTeam x).wcache = s.wcache := rfl
@[simp] theorem State.setTeam_icache (s : State) (x : Team) : (s.setTeam x).icache = s.icache := rfl
@[simp] theorem State.setTeam_l1 (s : State) (x : Team) : (s.setTeam x).l1 = s.l1 := rfl
@[simp] theorem State.setTeam_ccache (s : State) (x : Team) : (s.setTeam x).ccache = s.ccache := rfl
@[simp] theorem State.setTeam_rcbuf (s : State) (x : Team) : (s.setTeam x).rcbuf = s.rcbuf := rfl
@[simp] theorem State.setTeam_capm (s : State) (x : Team) : (s.setTeam x).capm = s.capm := rfl
@[simp] theorem State.setTeam_ecnt (s : State) (x : Team) : (s.setTeam x).ecnt = s.ecnt := rfl
@[simp] theorem State.setTeam_esel (s : State) (x : Team) : (s.setTeam x).esel = s.esel := rfl
@[simp] theorem State.setTeam_esnap (s : State) (x : Team) : (s.setTeam x).esnap = s.esnap := rfl
@[simp] theorem State.setTeam_fcnt (s : State) (x : Team) : (s.setTeam x).fcnt = s.fcnt := rfl
@[simp] theorem State.setTeam_fsel (s : State) (x : Team) : (s.setTeam x).fsel = s.fsel := rfl
@[simp] theorem State.setTeam_rcnt (s : State) (x : Team) : (s.setTeam x).rcnt = s.rcnt := rfl
@[simp] theorem State.setTeam_acornBlack (s : State) (x : Team) : (s.setTeam x).acornBlack = s.acornBlack := rfl
@[simp] theorem State.setTeam_acornPass (s : State) (x : Team) : (s.setTeam x).acornPass = s.acornPass := rfl
@[simp] theorem State.setTeam_acornToken (s : State) (x : Team) : (s.setTeam x).acornToken = s.acornToken := rfl
@[simp] theorem State.setTeam_acornCBlack (s : State) (x : Team) : (s.setTeam x).acornCBlack = s.acornCBlack := rfl
@[simp] theorem State.setTeam_acornQuiet (s : State) (x : Team) : (s.setTeam x).acornQuiet = s.acornQuiet := rfl
@[simp] theorem State.setTeam_acornTerm (s : State) (x : Team) : (s.setTeam x).acornTerm = s.acornTerm := rfl
@[simp] theorem State.setTeam_acornPos (s : State) (x : Team) : (s.setTeam x).acornPos = s.acornPos := rfl
@[simp] theorem State.setTeam_dieToken (s : State) (x : Team) : (s.setTeam x).dieToken = s.dieToken := rfl
@[simp] theorem State.setTeam_diePos (s : State) (x : Team) : (s.setTeam x).diePos = s.diePos := rfl
@[simp] theorem State.setTeam_diePass (s : State) (x : Team) : (s.setTeam x).diePass = s.diePass := rfl
@[simp] theorem State.setTeam_dieTerm (s : State) (x : Team) : (s.setTeam x).dieTerm = s.dieTerm := rfl
@[simp] theorem State.setTeam_acornst (s : State) (x : Team) : (s.setTeam x).acornst = s.acornst := rfl
@[simp] theorem State.setTeam_serial (s : State) (x : Team) : (s.setTeam x).serial = s.serial := rfl
@[simp] theorem State.setTeam_ops (s : State) (x : Team) : (s.setTeam x).ops = s.ops := rfl
@[simp] theorem State.setTeam_nextToken (s : State) (x : Team) : (s.setTeam x).nextToken = s.nextToken := rfl
@[simp] theorem State.setTeam_colls (s : State) (x : Team) : (s.setTeam x).colls = s.colls := rfl
@[simp] theorem State.setTeam_nextColl (s : State) (x : Team) : (s.setTeam x).nextColl = s.nextColl := rfl
@[simp] theorem State.setTeam_grids (s : State) (x : Team) : (s.setTeam x).grids = s.grids := rfl
@[simp] theorem State.setTeam_nextGrid (s : State) (x : Team) : (s.setTeam x).nextGrid = s.nextGrid := rfl
@[simp] theorem State.setTeam_queues (s : State) (x : Team) : (s.setTeam x).queues = s.queues := rfl
@[simp] theorem State.setTeam_wqbase (s : State) (x : Team) : (s.setTeam x).wqbase = s.wqbase := rfl
@[simp] theorem State.setTeam_wqarg (s : State) (x : Team) : (s.setTeam x).wqarg = s.wqarg := rfl
@[simp] theorem State.setTeam_wqstatus (s : State) (x : Team) : (s.setTeam x).wqstatus = s.wqstatus := rfl
@[simp] theorem State.setTeam_xlinv (s : State) (x : Team) : (s.setTeam x).xlinv = s.xlinv := rfl
@[simp] theorem State.setTeam_xlbusy (s : State) (x : Team) : (s.setTeam x).xlbusy = s.xlbusy := rfl
@[simp] theorem State.setTeam_escPending (s : State) (x : Team) : (s.setTeam x).escPending = s.escPending := rfl
@[simp] theorem State.setTeam_escbase (s : State) (x : Team) : (s.setTeam x).escbase = s.escbase := rfl
@[simp] theorem State.setTeam_escsize (s : State) (x : Team) : (s.setTeam x).escsize = s.escsize := rfl
@[simp] theorem State.setTeam_eschead (s : State) (x : Team) : (s.setTeam x).eschead = s.eschead := rfl
@[simp] theorem State.setTeam_esctail (s : State) (x : Team) : (s.setTeam x).esctail = s.esctail := rfl
@[simp] theorem State.setTeam_dbgFifo (s : State) (x : Team) : (s.setTeam x).dbgFifo = s.dbgFifo := rfl
@[simp] theorem State.setTeam_dbgIn (s : State) (x : Team) : (s.setTeam x).dbgIn = s.dbgIn := rfl
@[simp] theorem State.setTeam_quantum (s : State) (x : Team) : (s.setTeam x).quantum = s.quantum := rfl
@[simp] theorem State.setTeam_hold (s : State) (x : Team) : (s.setTeam x).hold = s.hold := rfl
@[simp] theorem State.setTeam_husk (s : State) (x : Team) : (s.setTeam x).husk = s.husk := rfl
@[simp] theorem State.setTeam_links (s : State) (x : Team) : (s.setTeam x).links = s.links := rfl
@[simp] theorem State.setTeam_stv1 (s : State) (x : Team) : (s.setTeam x).stv1 = s.stv1 := rfl
@[simp] theorem State.setTeam_stv2 (s : State) (x : Team) : (s.setTeam x).stv2 = s.stv2 := rfl
@[simp] theorem State.setTeam_orph (s : State) (x : Team) : (s.setTeam x).orph = s.orph := rfl
@[simp] theorem State.setTeam_outReq (s : State) (x : Team) : (s.setTeam x).outReq = s.outReq := rfl
@[simp] theorem State.setTeam_nextSeq (s : State) (x : Team) : (s.setTeam x).nextSeq = s.nextSeq := rfl
@[simp] theorem State.setTeam_xbar (s : State) (x : Team) : (s.setTeam x).xbar = s.xbar := rfl
@[simp] theorem State.setTeam_e2eDone (s : State) (x : Team) : (s.setTeam x).e2eDone = s.e2eDone := rfl
@[simp] theorem State.setTeam_replies (s : State) (x : Team) : (s.setTeam x).replies = s.replies := rfl
@[simp] theorem State.setTeam_spent (s : State) (x : Team) : (s.setTeam x).spent = s.spent := rfl
@[simp] theorem State.setTeam_accepted (s : State) (x : Team) : (s.setTeam x).accepted = s.accepted := rfl
@[simp] theorem State.setTeam_acc (s : State) (x : Team) : (s.setTeam x).acc = s.acc := rfl
@[simp] theorem State.setTeam_accNew (s : State) (x : Team) : (s.setTeam x).accNew = s.accNew := rfl
@[simp] theorem State.setTeam_accBusy (s : State) (x : Team) : (s.setTeam x).accBusy = s.accBusy := rfl
@[simp] theorem State.setTeam_wqpart (s : State) (x : Team) : (s.setTeam x).wqpart = s.wqpart := rfl
@[simp] theorem State.setTeam_ueep (s : State) (x : Team) : (s.setTeam x).ueep = s.ueep := rfl
@[simp] theorem State.setTeam_uefg (s : State) (x : Team) : (s.setTeam x).uefg = s.uefg := rfl
@[simp] theorem State.setTeam_log (s : State) (x : Team) : (s.setTeam x).log = s.log := rfl
@[simp] theorem State.setTeam_cycle (s : State) (x : Team) : (s.setTeam x).cycle = s.cycle := rfl
@[simp] theorem State.setTeam_tick (s : State) (x : Team) : (s.setTeam x).tick = s.tick := rfl
@[simp] theorem State.setTeam_time (s : State) (x : Team) : (s.setTeam x).time = s.time := rfl
@[simp] theorem State.setTeam_free (s : State) (x : Team) : (s.setTeam x).free = s.free := rfl
@[simp] theorem State.setTeam_progress (s : State) (x : Team) : (s.setTeam x).progress = s.progress := rfl
@[simp] theorem State.setTeam_inputs (s : State) (x : Team) : (s.setTeam x).inputs = s.inputs := rfl

@[simp] theorem State.tickle_pod (s : State) : (s.tickle).pod = s.pod := rfl
@[simp] theorem State.tickle_team (s : State) : (s.tickle).team = s.team := rfl
@[simp] theorem State.tickle_pods (s : State) : (s.tickle).pods = s.pods := rfl
@[simp] theorem State.tickle_teams (s : State) : (s.tickle).teams = s.teams := rfl
@[simp] theorem State.tickle_mem (s : State) : (s.tickle).mem = s.mem := rfl
@[simp] theorem State.tickle_stale (s : State) : (s.tickle).stale = s.stale := rfl
@[simp] theorem State.tickle_poison (s : State) : (s.tickle).poison = s.poison := rfl
@[simp] theorem State.tickle_tlb (s : State) : (s.tickle).tlb = s.tlb := rfl
@[simp] theorem State.tickle_ctlb (s : State) : (s.tickle).ctlb = s.ctlb := rfl
@[simp] theorem State.tickle_wcache (s : State) : (s.tickle).wcache = s.wcache := rfl
@[simp] theorem State.tickle_icache (s : State) : (s.tickle).icache = s.icache := rfl
@[simp] theorem State.tickle_l1 (s : State) : (s.tickle).l1 = s.l1 := rfl
@[simp] theorem State.tickle_ccache (s : State) : (s.tickle).ccache = s.ccache := rfl
@[simp] theorem State.tickle_rcbuf (s : State) : (s.tickle).rcbuf = s.rcbuf := rfl
@[simp] theorem State.tickle_capm (s : State) : (s.tickle).capm = s.capm := rfl
@[simp] theorem State.tickle_ecnt (s : State) : (s.tickle).ecnt = s.ecnt := rfl
@[simp] theorem State.tickle_esel (s : State) : (s.tickle).esel = s.esel := rfl
@[simp] theorem State.tickle_esnap (s : State) : (s.tickle).esnap = s.esnap := rfl
@[simp] theorem State.tickle_fcnt (s : State) : (s.tickle).fcnt = s.fcnt := rfl
@[simp] theorem State.tickle_fsel (s : State) : (s.tickle).fsel = s.fsel := rfl
@[simp] theorem State.tickle_rcnt (s : State) : (s.tickle).rcnt = s.rcnt := rfl
@[simp] theorem State.tickle_acornBlack (s : State) : (s.tickle).acornBlack = s.acornBlack := rfl
@[simp] theorem State.tickle_acornPass (s : State) : (s.tickle).acornPass = s.acornPass := rfl
@[simp] theorem State.tickle_acornToken (s : State) : (s.tickle).acornToken = s.acornToken := rfl
@[simp] theorem State.tickle_acornCBlack (s : State) : (s.tickle).acornCBlack = s.acornCBlack := rfl
@[simp] theorem State.tickle_acornQuiet (s : State) : (s.tickle).acornQuiet = s.acornQuiet := rfl
@[simp] theorem State.tickle_acornTerm (s : State) : (s.tickle).acornTerm = s.acornTerm := rfl
@[simp] theorem State.tickle_acornPos (s : State) : (s.tickle).acornPos = s.acornPos := rfl
@[simp] theorem State.tickle_dieToken (s : State) : (s.tickle).dieToken = s.dieToken := rfl
@[simp] theorem State.tickle_diePos (s : State) : (s.tickle).diePos = s.diePos := rfl
@[simp] theorem State.tickle_diePass (s : State) : (s.tickle).diePass = s.diePass := rfl
@[simp] theorem State.tickle_dieTerm (s : State) : (s.tickle).dieTerm = s.dieTerm := rfl
@[simp] theorem State.tickle_acornst (s : State) : (s.tickle).acornst = s.acornst := rfl
@[simp] theorem State.tickle_serial (s : State) : (s.tickle).serial = s.serial := rfl
@[simp] theorem State.tickle_ops (s : State) : (s.tickle).ops = s.ops := rfl
@[simp] theorem State.tickle_nextToken (s : State) : (s.tickle).nextToken = s.nextToken := rfl
@[simp] theorem State.tickle_colls (s : State) : (s.tickle).colls = s.colls := rfl
@[simp] theorem State.tickle_nextColl (s : State) : (s.tickle).nextColl = s.nextColl := rfl
@[simp] theorem State.tickle_grids (s : State) : (s.tickle).grids = s.grids := rfl
@[simp] theorem State.tickle_nextGrid (s : State) : (s.tickle).nextGrid = s.nextGrid := rfl
@[simp] theorem State.tickle_queues (s : State) : (s.tickle).queues = s.queues := rfl
@[simp] theorem State.tickle_wqbase (s : State) : (s.tickle).wqbase = s.wqbase := rfl
@[simp] theorem State.tickle_wqarg (s : State) : (s.tickle).wqarg = s.wqarg := rfl
@[simp] theorem State.tickle_wqstatus (s : State) : (s.tickle).wqstatus = s.wqstatus := rfl
@[simp] theorem State.tickle_xlinv (s : State) : (s.tickle).xlinv = s.xlinv := rfl
@[simp] theorem State.tickle_xlbusy (s : State) : (s.tickle).xlbusy = s.xlbusy := rfl
@[simp] theorem State.tickle_escPending (s : State) : (s.tickle).escPending = s.escPending := rfl
@[simp] theorem State.tickle_escbase (s : State) : (s.tickle).escbase = s.escbase := rfl
@[simp] theorem State.tickle_escsize (s : State) : (s.tickle).escsize = s.escsize := rfl
@[simp] theorem State.tickle_eschead (s : State) : (s.tickle).eschead = s.eschead := rfl
@[simp] theorem State.tickle_esctail (s : State) : (s.tickle).esctail = s.esctail := rfl
@[simp] theorem State.tickle_dbgFifo (s : State) : (s.tickle).dbgFifo = s.dbgFifo := rfl
@[simp] theorem State.tickle_dbgIn (s : State) : (s.tickle).dbgIn = s.dbgIn := rfl
@[simp] theorem State.tickle_quantum (s : State) : (s.tickle).quantum = s.quantum := rfl
@[simp] theorem State.tickle_hold (s : State) : (s.tickle).hold = s.hold := rfl
@[simp] theorem State.tickle_husk (s : State) : (s.tickle).husk = s.husk := rfl
@[simp] theorem State.tickle_links (s : State) : (s.tickle).links = s.links := rfl
@[simp] theorem State.tickle_stv1 (s : State) : (s.tickle).stv1 = s.stv1 := rfl
@[simp] theorem State.tickle_stv2 (s : State) : (s.tickle).stv2 = s.stv2 := rfl
@[simp] theorem State.tickle_orph (s : State) : (s.tickle).orph = s.orph := rfl
@[simp] theorem State.tickle_outReq (s : State) : (s.tickle).outReq = s.outReq := rfl
@[simp] theorem State.tickle_nextSeq (s : State) : (s.tickle).nextSeq = s.nextSeq := rfl
@[simp] theorem State.tickle_xbar (s : State) : (s.tickle).xbar = s.xbar := rfl
@[simp] theorem State.tickle_e2eDone (s : State) : (s.tickle).e2eDone = s.e2eDone := rfl
@[simp] theorem State.tickle_replies (s : State) : (s.tickle).replies = s.replies := rfl
@[simp] theorem State.tickle_spent (s : State) : (s.tickle).spent = s.spent := rfl
@[simp] theorem State.tickle_accepted (s : State) : (s.tickle).accepted = s.accepted := rfl
@[simp] theorem State.tickle_acc (s : State) : (s.tickle).acc = s.acc := rfl
@[simp] theorem State.tickle_accNew (s : State) : (s.tickle).accNew = s.accNew := rfl
@[simp] theorem State.tickle_accBusy (s : State) : (s.tickle).accBusy = s.accBusy := rfl
@[simp] theorem State.tickle_wqpart (s : State) : (s.tickle).wqpart = s.wqpart := rfl
@[simp] theorem State.tickle_ueep (s : State) : (s.tickle).ueep = s.ueep := rfl
@[simp] theorem State.tickle_uefg (s : State) : (s.tickle).uefg = s.uefg := rfl
@[simp] theorem State.tickle_log (s : State) : (s.tickle).log = s.log := rfl
@[simp] theorem State.tickle_cycle (s : State) : (s.tickle).cycle = s.cycle := rfl
@[simp] theorem State.tickle_tick (s : State) : (s.tickle).tick = s.tick := rfl
@[simp] theorem State.tickle_time (s : State) : (s.tickle).time = s.time := rfl
@[simp] theorem State.tickle_free (s : State) : (s.tickle).free = s.free := rfl
@[simp] theorem State.tickle_progress (s : State) : (s.tickle).progress = s.progress + 1 := rfl
@[simp] theorem State.tickle_inputs (s : State) : (s.tickle).inputs = s.inputs := rfl

@[simp] theorem State.note_pod (s : State) (e : LogEntry) : (s.note e).pod = s.pod := rfl
@[simp] theorem State.note_team (s : State) (e : LogEntry) : (s.note e).team = s.team := rfl
@[simp] theorem State.note_pods (s : State) (e : LogEntry) : (s.note e).pods = s.pods := rfl
@[simp] theorem State.note_teams (s : State) (e : LogEntry) : (s.note e).teams = s.teams := rfl
@[simp] theorem State.note_mem (s : State) (e : LogEntry) : (s.note e).mem = s.mem := rfl
@[simp] theorem State.note_stale (s : State) (e : LogEntry) : (s.note e).stale = s.stale := rfl
@[simp] theorem State.note_poison (s : State) (e : LogEntry) : (s.note e).poison = s.poison := rfl
@[simp] theorem State.note_tlb (s : State) (e : LogEntry) : (s.note e).tlb = s.tlb := rfl
@[simp] theorem State.note_ctlb (s : State) (e : LogEntry) : (s.note e).ctlb = s.ctlb := rfl
@[simp] theorem State.note_wcache (s : State) (e : LogEntry) : (s.note e).wcache = s.wcache := rfl
@[simp] theorem State.note_icache (s : State) (e : LogEntry) : (s.note e).icache = s.icache := rfl
@[simp] theorem State.note_l1 (s : State) (e : LogEntry) : (s.note e).l1 = s.l1 := rfl
@[simp] theorem State.note_ccache (s : State) (e : LogEntry) : (s.note e).ccache = s.ccache := rfl
@[simp] theorem State.note_rcbuf (s : State) (e : LogEntry) : (s.note e).rcbuf = s.rcbuf := rfl
@[simp] theorem State.note_capm (s : State) (e : LogEntry) : (s.note e).capm = s.capm := rfl
@[simp] theorem State.note_ecnt (s : State) (e : LogEntry) : (s.note e).ecnt = s.ecnt := rfl
@[simp] theorem State.note_esel (s : State) (e : LogEntry) : (s.note e).esel = s.esel := rfl
@[simp] theorem State.note_esnap (s : State) (e : LogEntry) : (s.note e).esnap = s.esnap := rfl
@[simp] theorem State.note_fcnt (s : State) (e : LogEntry) : (s.note e).fcnt = s.fcnt := rfl
@[simp] theorem State.note_fsel (s : State) (e : LogEntry) : (s.note e).fsel = s.fsel := rfl
@[simp] theorem State.note_rcnt (s : State) (e : LogEntry) : (s.note e).rcnt = s.rcnt := rfl
@[simp] theorem State.note_acornBlack (s : State) (e : LogEntry) : (s.note e).acornBlack = s.acornBlack := rfl
@[simp] theorem State.note_acornPass (s : State) (e : LogEntry) : (s.note e).acornPass = s.acornPass := rfl
@[simp] theorem State.note_acornToken (s : State) (e : LogEntry) : (s.note e).acornToken = s.acornToken := rfl
@[simp] theorem State.note_acornCBlack (s : State) (e : LogEntry) : (s.note e).acornCBlack = s.acornCBlack := rfl
@[simp] theorem State.note_acornQuiet (s : State) (e : LogEntry) : (s.note e).acornQuiet = s.acornQuiet := rfl
@[simp] theorem State.note_acornTerm (s : State) (e : LogEntry) : (s.note e).acornTerm = s.acornTerm := rfl
@[simp] theorem State.note_acornPos (s : State) (e : LogEntry) : (s.note e).acornPos = s.acornPos := rfl
@[simp] theorem State.note_dieToken (s : State) (e : LogEntry) : (s.note e).dieToken = s.dieToken := rfl
@[simp] theorem State.note_diePos (s : State) (e : LogEntry) : (s.note e).diePos = s.diePos := rfl
@[simp] theorem State.note_diePass (s : State) (e : LogEntry) : (s.note e).diePass = s.diePass := rfl
@[simp] theorem State.note_dieTerm (s : State) (e : LogEntry) : (s.note e).dieTerm = s.dieTerm := rfl
@[simp] theorem State.note_acornst (s : State) (e : LogEntry) : (s.note e).acornst = s.acornst := rfl
@[simp] theorem State.note_serial (s : State) (e : LogEntry) : (s.note e).serial = s.serial := rfl
@[simp] theorem State.note_ops (s : State) (e : LogEntry) : (s.note e).ops = s.ops := rfl
@[simp] theorem State.note_nextToken (s : State) (e : LogEntry) : (s.note e).nextToken = s.nextToken := rfl
@[simp] theorem State.note_colls (s : State) (e : LogEntry) : (s.note e).colls = s.colls := rfl
@[simp] theorem State.note_nextColl (s : State) (e : LogEntry) : (s.note e).nextColl = s.nextColl := rfl
@[simp] theorem State.note_grids (s : State) (e : LogEntry) : (s.note e).grids = s.grids := rfl
@[simp] theorem State.note_nextGrid (s : State) (e : LogEntry) : (s.note e).nextGrid = s.nextGrid := rfl
@[simp] theorem State.note_queues (s : State) (e : LogEntry) : (s.note e).queues = s.queues := rfl
@[simp] theorem State.note_wqbase (s : State) (e : LogEntry) : (s.note e).wqbase = s.wqbase := rfl
@[simp] theorem State.note_wqarg (s : State) (e : LogEntry) : (s.note e).wqarg = s.wqarg := rfl
@[simp] theorem State.note_wqstatus (s : State) (e : LogEntry) : (s.note e).wqstatus = s.wqstatus := rfl
@[simp] theorem State.note_xlinv (s : State) (e : LogEntry) : (s.note e).xlinv = s.xlinv := rfl
@[simp] theorem State.note_xlbusy (s : State) (e : LogEntry) : (s.note e).xlbusy = s.xlbusy := rfl
@[simp] theorem State.note_escPending (s : State) (e : LogEntry) : (s.note e).escPending = s.escPending := rfl
@[simp] theorem State.note_escbase (s : State) (e : LogEntry) : (s.note e).escbase = s.escbase := rfl
@[simp] theorem State.note_escsize (s : State) (e : LogEntry) : (s.note e).escsize = s.escsize := rfl
@[simp] theorem State.note_eschead (s : State) (e : LogEntry) : (s.note e).eschead = s.eschead := rfl
@[simp] theorem State.note_esctail (s : State) (e : LogEntry) : (s.note e).esctail = s.esctail := rfl
@[simp] theorem State.note_dbgFifo (s : State) (e : LogEntry) : (s.note e).dbgFifo = s.dbgFifo := rfl
@[simp] theorem State.note_dbgIn (s : State) (e : LogEntry) : (s.note e).dbgIn = s.dbgIn := rfl
@[simp] theorem State.note_quantum (s : State) (e : LogEntry) : (s.note e).quantum = s.quantum := rfl
@[simp] theorem State.note_hold (s : State) (e : LogEntry) : (s.note e).hold = s.hold := rfl
@[simp] theorem State.note_husk (s : State) (e : LogEntry) : (s.note e).husk = s.husk := rfl
@[simp] theorem State.note_links (s : State) (e : LogEntry) : (s.note e).links = s.links := rfl
@[simp] theorem State.note_stv1 (s : State) (e : LogEntry) : (s.note e).stv1 = s.stv1 := rfl
@[simp] theorem State.note_stv2 (s : State) (e : LogEntry) : (s.note e).stv2 = s.stv2 := rfl
@[simp] theorem State.note_orph (s : State) (e : LogEntry) : (s.note e).orph = s.orph := rfl
@[simp] theorem State.note_outReq (s : State) (e : LogEntry) : (s.note e).outReq = s.outReq := rfl
@[simp] theorem State.note_nextSeq (s : State) (e : LogEntry) : (s.note e).nextSeq = s.nextSeq := rfl
@[simp] theorem State.note_xbar (s : State) (e : LogEntry) : (s.note e).xbar = s.xbar := rfl
@[simp] theorem State.note_e2eDone (s : State) (e : LogEntry) : (s.note e).e2eDone = s.e2eDone := rfl
@[simp] theorem State.note_replies (s : State) (e : LogEntry) : (s.note e).replies = s.replies := rfl
@[simp] theorem State.note_spent (s : State) (e : LogEntry) : (s.note e).spent = s.spent := rfl
@[simp] theorem State.note_accepted (s : State) (e : LogEntry) : (s.note e).accepted = s.accepted := rfl
@[simp] theorem State.note_acc (s : State) (e : LogEntry) : (s.note e).acc = s.acc := rfl
@[simp] theorem State.note_accNew (s : State) (e : LogEntry) : (s.note e).accNew = s.accNew := rfl
@[simp] theorem State.note_accBusy (s : State) (e : LogEntry) : (s.note e).accBusy = s.accBusy := rfl
@[simp] theorem State.note_wqpart (s : State) (e : LogEntry) : (s.note e).wqpart = s.wqpart := rfl
@[simp] theorem State.note_ueep (s : State) (e : LogEntry) : (s.note e).ueep = s.ueep := rfl
@[simp] theorem State.note_uefg (s : State) (e : LogEntry) : (s.note e).uefg = s.uefg := rfl
@[simp] theorem State.note_log (s : State) (e : LogEntry) : (s.note e).log = s.log ++ [e] := rfl
@[simp] theorem State.note_cycle (s : State) (e : LogEntry) : (s.note e).cycle = s.cycle := rfl
@[simp] theorem State.note_tick (s : State) (e : LogEntry) : (s.note e).tick = s.tick := rfl
@[simp] theorem State.note_time (s : State) (e : LogEntry) : (s.note e).time = s.time := rfl
@[simp] theorem State.note_free (s : State) (e : LogEntry) : (s.note e).free = s.free := rfl
@[simp] theorem State.note_progress (s : State) (e : LogEntry) : (s.note e).progress = s.progress := rfl
@[simp] theorem State.note_inputs (s : State) (e : LogEntry) : (s.note e).inputs = s.inputs := rfl

@[simp] theorem State.begin_pod (s : State) : (s.begin).pod = { s.pod with serial := s.pod.serial + 1 } := rfl
@[simp] theorem State.begin_team (s : State) : (s.begin).team = s.team := rfl
@[simp] theorem State.begin_pods (s : State) : (s.begin).pods = s.pods := rfl
@[simp] theorem State.begin_teams (s : State) : (s.begin).teams = s.teams := rfl
@[simp] theorem State.begin_mem (s : State) : (s.begin).mem = s.mem := rfl
@[simp] theorem State.begin_stale (s : State) : (s.begin).stale = s.stale := rfl
@[simp] theorem State.begin_poison (s : State) : (s.begin).poison = s.poison := rfl
@[simp] theorem State.begin_tlb (s : State) : (s.begin).tlb = s.tlb := rfl
@[simp] theorem State.begin_ctlb (s : State) : (s.begin).ctlb = s.ctlb := rfl
@[simp] theorem State.begin_wcache (s : State) : (s.begin).wcache = s.wcache := rfl
@[simp] theorem State.begin_icache (s : State) : (s.begin).icache = s.icache := rfl
@[simp] theorem State.begin_l1 (s : State) : (s.begin).l1 = s.l1 := rfl
@[simp] theorem State.begin_ccache (s : State) : (s.begin).ccache = s.ccache := rfl
@[simp] theorem State.begin_rcbuf (s : State) : (s.begin).rcbuf = s.rcbuf := rfl
@[simp] theorem State.begin_capm (s : State) : (s.begin).capm = s.capm := rfl
@[simp] theorem State.begin_ecnt (s : State) : (s.begin).ecnt = s.ecnt := rfl
@[simp] theorem State.begin_esel (s : State) : (s.begin).esel = s.esel := rfl
@[simp] theorem State.begin_esnap (s : State) : (s.begin).esnap = s.esnap := rfl
@[simp] theorem State.begin_fcnt (s : State) : (s.begin).fcnt = s.fcnt := rfl
@[simp] theorem State.begin_fsel (s : State) : (s.begin).fsel = s.fsel := rfl
@[simp] theorem State.begin_rcnt (s : State) : (s.begin).rcnt = s.rcnt := rfl
@[simp] theorem State.begin_acornBlack (s : State) : (s.begin).acornBlack = s.acornBlack := rfl
@[simp] theorem State.begin_acornPass (s : State) : (s.begin).acornPass = s.acornPass := rfl
@[simp] theorem State.begin_acornToken (s : State) : (s.begin).acornToken = s.acornToken := rfl
@[simp] theorem State.begin_acornCBlack (s : State) : (s.begin).acornCBlack = s.acornCBlack := rfl
@[simp] theorem State.begin_acornQuiet (s : State) : (s.begin).acornQuiet = s.acornQuiet := rfl
@[simp] theorem State.begin_acornTerm (s : State) : (s.begin).acornTerm = s.acornTerm := rfl
@[simp] theorem State.begin_acornPos (s : State) : (s.begin).acornPos = s.acornPos := rfl
@[simp] theorem State.begin_dieToken (s : State) : (s.begin).dieToken = s.dieToken := rfl
@[simp] theorem State.begin_diePos (s : State) : (s.begin).diePos = s.diePos := rfl
@[simp] theorem State.begin_diePass (s : State) : (s.begin).diePass = s.diePass := rfl
@[simp] theorem State.begin_dieTerm (s : State) : (s.begin).dieTerm = s.dieTerm := rfl
@[simp] theorem State.begin_acornst (s : State) : (s.begin).acornst = s.acornst := rfl
@[simp] theorem State.begin_serial (s : State) : (s.begin).serial = s.serial := rfl
@[simp] theorem State.begin_ops (s : State) : (s.begin).ops = s.ops := rfl
@[simp] theorem State.begin_nextToken (s : State) : (s.begin).nextToken = s.nextToken := rfl
@[simp] theorem State.begin_colls (s : State) : (s.begin).colls = s.colls := rfl
@[simp] theorem State.begin_nextColl (s : State) : (s.begin).nextColl = s.nextColl := rfl
@[simp] theorem State.begin_grids (s : State) : (s.begin).grids = s.grids := rfl
@[simp] theorem State.begin_nextGrid (s : State) : (s.begin).nextGrid = s.nextGrid := rfl
@[simp] theorem State.begin_queues (s : State) : (s.begin).queues = s.queues := rfl
@[simp] theorem State.begin_wqbase (s : State) : (s.begin).wqbase = s.wqbase := rfl
@[simp] theorem State.begin_wqarg (s : State) : (s.begin).wqarg = s.wqarg := rfl
@[simp] theorem State.begin_wqstatus (s : State) : (s.begin).wqstatus = s.wqstatus := rfl
@[simp] theorem State.begin_xlinv (s : State) : (s.begin).xlinv = s.xlinv := rfl
@[simp] theorem State.begin_xlbusy (s : State) : (s.begin).xlbusy = s.xlbusy := rfl
@[simp] theorem State.begin_escPending (s : State) : (s.begin).escPending = s.escPending := rfl
@[simp] theorem State.begin_escbase (s : State) : (s.begin).escbase = s.escbase := rfl
@[simp] theorem State.begin_escsize (s : State) : (s.begin).escsize = s.escsize := rfl
@[simp] theorem State.begin_eschead (s : State) : (s.begin).eschead = s.eschead := rfl
@[simp] theorem State.begin_esctail (s : State) : (s.begin).esctail = s.esctail := rfl
@[simp] theorem State.begin_dbgFifo (s : State) : (s.begin).dbgFifo = s.dbgFifo := rfl
@[simp] theorem State.begin_dbgIn (s : State) : (s.begin).dbgIn = s.dbgIn := rfl
@[simp] theorem State.begin_quantum (s : State) : (s.begin).quantum = s.quantum := rfl
@[simp] theorem State.begin_hold (s : State) : (s.begin).hold = s.hold := rfl
@[simp] theorem State.begin_husk (s : State) : (s.begin).husk = s.husk := rfl
@[simp] theorem State.begin_links (s : State) : (s.begin).links = s.links := rfl
@[simp] theorem State.begin_stv1 (s : State) : (s.begin).stv1 = s.stv1 := rfl
@[simp] theorem State.begin_stv2 (s : State) : (s.begin).stv2 = s.stv2 := rfl
@[simp] theorem State.begin_orph (s : State) : (s.begin).orph = s.orph := rfl
@[simp] theorem State.begin_outReq (s : State) : (s.begin).outReq = s.outReq := rfl
@[simp] theorem State.begin_nextSeq (s : State) : (s.begin).nextSeq = s.nextSeq := rfl
@[simp] theorem State.begin_xbar (s : State) : (s.begin).xbar = s.xbar := rfl
@[simp] theorem State.begin_e2eDone (s : State) : (s.begin).e2eDone = s.e2eDone := rfl
@[simp] theorem State.begin_replies (s : State) : (s.begin).replies = s.replies := rfl
@[simp] theorem State.begin_spent (s : State) : (s.begin).spent = s.spent := rfl
@[simp] theorem State.begin_accepted (s : State) : (s.begin).accepted = s.accepted := rfl
@[simp] theorem State.begin_acc (s : State) : (s.begin).acc = s.acc := rfl
@[simp] theorem State.begin_accNew (s : State) : (s.begin).accNew = s.accNew := rfl
@[simp] theorem State.begin_accBusy (s : State) : (s.begin).accBusy = s.accBusy := rfl
@[simp] theorem State.begin_wqpart (s : State) : (s.begin).wqpart = s.wqpart := rfl
@[simp] theorem State.begin_ueep (s : State) : (s.begin).ueep = s.ueep := rfl
@[simp] theorem State.begin_uefg (s : State) : (s.begin).uefg = s.uefg := rfl
@[simp] theorem State.begin_log (s : State) : (s.begin).log = s.log := rfl
@[simp] theorem State.begin_cycle (s : State) : (s.begin).cycle = s.cycle := rfl
@[simp] theorem State.begin_tick (s : State) : (s.begin).tick = s.tick := rfl
@[simp] theorem State.begin_time (s : State) : (s.begin).time = s.time := rfl
@[simp] theorem State.begin_free (s : State) : (s.begin).free = s.free := rfl
@[simp] theorem State.begin_progress (s : State) : (s.begin).progress = s.progress := rfl
@[simp] theorem State.begin_inputs (s : State) : (s.begin).inputs = s.inputs := rfl

@[simp] theorem State.mapPods_pod (s : State) (f : Pod → Pod) : (s.mapPods f).pod = f s.pod := rfl
@[simp] theorem State.mapPods_team (s : State) (f : Pod → Pod) : (s.mapPods f).team = s.team := rfl
@[simp] theorem State.mapPods_pods (s : State) (f : Pod → Pod) : (s.mapPods f).pods = s.pods.map f := rfl
@[simp] theorem State.mapPods_teams (s : State) (f : Pod → Pod) : (s.mapPods f).teams = s.teams := rfl
@[simp] theorem State.mapPods_mem (s : State) (f : Pod → Pod) : (s.mapPods f).mem = s.mem := rfl
@[simp] theorem State.mapPods_stale (s : State) (f : Pod → Pod) : (s.mapPods f).stale = s.stale := rfl
@[simp] theorem State.mapPods_poison (s : State) (f : Pod → Pod) : (s.mapPods f).poison = s.poison := rfl
@[simp] theorem State.mapPods_tlb (s : State) (f : Pod → Pod) : (s.mapPods f).tlb = s.tlb := rfl
@[simp] theorem State.mapPods_ctlb (s : State) (f : Pod → Pod) : (s.mapPods f).ctlb = s.ctlb := rfl
@[simp] theorem State.mapPods_wcache (s : State) (f : Pod → Pod) : (s.mapPods f).wcache = s.wcache := rfl
@[simp] theorem State.mapPods_icache (s : State) (f : Pod → Pod) : (s.mapPods f).icache = s.icache := rfl
@[simp] theorem State.mapPods_l1 (s : State) (f : Pod → Pod) : (s.mapPods f).l1 = s.l1 := rfl
@[simp] theorem State.mapPods_ccache (s : State) (f : Pod → Pod) : (s.mapPods f).ccache = s.ccache := rfl
@[simp] theorem State.mapPods_rcbuf (s : State) (f : Pod → Pod) : (s.mapPods f).rcbuf = s.rcbuf := rfl
@[simp] theorem State.mapPods_capm (s : State) (f : Pod → Pod) : (s.mapPods f).capm = s.capm := rfl
@[simp] theorem State.mapPods_ecnt (s : State) (f : Pod → Pod) : (s.mapPods f).ecnt = s.ecnt := rfl
@[simp] theorem State.mapPods_esel (s : State) (f : Pod → Pod) : (s.mapPods f).esel = s.esel := rfl
@[simp] theorem State.mapPods_esnap (s : State) (f : Pod → Pod) : (s.mapPods f).esnap = s.esnap := rfl
@[simp] theorem State.mapPods_fcnt (s : State) (f : Pod → Pod) : (s.mapPods f).fcnt = s.fcnt := rfl
@[simp] theorem State.mapPods_fsel (s : State) (f : Pod → Pod) : (s.mapPods f).fsel = s.fsel := rfl
@[simp] theorem State.mapPods_rcnt (s : State) (f : Pod → Pod) : (s.mapPods f).rcnt = s.rcnt := rfl
@[simp] theorem State.mapPods_acornBlack (s : State) (f : Pod → Pod) : (s.mapPods f).acornBlack = s.acornBlack := rfl
@[simp] theorem State.mapPods_acornPass (s : State) (f : Pod → Pod) : (s.mapPods f).acornPass = s.acornPass := rfl
@[simp] theorem State.mapPods_acornToken (s : State) (f : Pod → Pod) : (s.mapPods f).acornToken = s.acornToken := rfl
@[simp] theorem State.mapPods_acornCBlack (s : State) (f : Pod → Pod) : (s.mapPods f).acornCBlack = s.acornCBlack := rfl
@[simp] theorem State.mapPods_acornQuiet (s : State) (f : Pod → Pod) : (s.mapPods f).acornQuiet = s.acornQuiet := rfl
@[simp] theorem State.mapPods_acornTerm (s : State) (f : Pod → Pod) : (s.mapPods f).acornTerm = s.acornTerm := rfl
@[simp] theorem State.mapPods_acornPos (s : State) (f : Pod → Pod) : (s.mapPods f).acornPos = s.acornPos := rfl
@[simp] theorem State.mapPods_dieToken (s : State) (f : Pod → Pod) : (s.mapPods f).dieToken = s.dieToken := rfl
@[simp] theorem State.mapPods_diePos (s : State) (f : Pod → Pod) : (s.mapPods f).diePos = s.diePos := rfl
@[simp] theorem State.mapPods_diePass (s : State) (f : Pod → Pod) : (s.mapPods f).diePass = s.diePass := rfl
@[simp] theorem State.mapPods_dieTerm (s : State) (f : Pod → Pod) : (s.mapPods f).dieTerm = s.dieTerm := rfl
@[simp] theorem State.mapPods_acornst (s : State) (f : Pod → Pod) : (s.mapPods f).acornst = s.acornst := rfl
@[simp] theorem State.mapPods_serial (s : State) (f : Pod → Pod) : (s.mapPods f).serial = s.serial := rfl
@[simp] theorem State.mapPods_ops (s : State) (f : Pod → Pod) : (s.mapPods f).ops = s.ops := rfl
@[simp] theorem State.mapPods_nextToken (s : State) (f : Pod → Pod) : (s.mapPods f).nextToken = s.nextToken := rfl
@[simp] theorem State.mapPods_colls (s : State) (f : Pod → Pod) : (s.mapPods f).colls = s.colls := rfl
@[simp] theorem State.mapPods_nextColl (s : State) (f : Pod → Pod) : (s.mapPods f).nextColl = s.nextColl := rfl
@[simp] theorem State.mapPods_grids (s : State) (f : Pod → Pod) : (s.mapPods f).grids = s.grids := rfl
@[simp] theorem State.mapPods_nextGrid (s : State) (f : Pod → Pod) : (s.mapPods f).nextGrid = s.nextGrid := rfl
@[simp] theorem State.mapPods_queues (s : State) (f : Pod → Pod) : (s.mapPods f).queues = s.queues := rfl
@[simp] theorem State.mapPods_wqbase (s : State) (f : Pod → Pod) : (s.mapPods f).wqbase = s.wqbase := rfl
@[simp] theorem State.mapPods_wqarg (s : State) (f : Pod → Pod) : (s.mapPods f).wqarg = s.wqarg := rfl
@[simp] theorem State.mapPods_wqstatus (s : State) (f : Pod → Pod) : (s.mapPods f).wqstatus = s.wqstatus := rfl
@[simp] theorem State.mapPods_xlinv (s : State) (f : Pod → Pod) : (s.mapPods f).xlinv = s.xlinv := rfl
@[simp] theorem State.mapPods_xlbusy (s : State) (f : Pod → Pod) : (s.mapPods f).xlbusy = s.xlbusy := rfl
@[simp] theorem State.mapPods_escPending (s : State) (f : Pod → Pod) : (s.mapPods f).escPending = s.escPending := rfl
@[simp] theorem State.mapPods_escbase (s : State) (f : Pod → Pod) : (s.mapPods f).escbase = s.escbase := rfl
@[simp] theorem State.mapPods_escsize (s : State) (f : Pod → Pod) : (s.mapPods f).escsize = s.escsize := rfl
@[simp] theorem State.mapPods_eschead (s : State) (f : Pod → Pod) : (s.mapPods f).eschead = s.eschead := rfl
@[simp] theorem State.mapPods_esctail (s : State) (f : Pod → Pod) : (s.mapPods f).esctail = s.esctail := rfl
@[simp] theorem State.mapPods_dbgFifo (s : State) (f : Pod → Pod) : (s.mapPods f).dbgFifo = s.dbgFifo := rfl
@[simp] theorem State.mapPods_dbgIn (s : State) (f : Pod → Pod) : (s.mapPods f).dbgIn = s.dbgIn := rfl
@[simp] theorem State.mapPods_quantum (s : State) (f : Pod → Pod) : (s.mapPods f).quantum = s.quantum := rfl
@[simp] theorem State.mapPods_hold (s : State) (f : Pod → Pod) : (s.mapPods f).hold = s.hold := rfl
@[simp] theorem State.mapPods_husk (s : State) (f : Pod → Pod) : (s.mapPods f).husk = s.husk := rfl
@[simp] theorem State.mapPods_links (s : State) (f : Pod → Pod) : (s.mapPods f).links = s.links := rfl
@[simp] theorem State.mapPods_stv1 (s : State) (f : Pod → Pod) : (s.mapPods f).stv1 = s.stv1 := rfl
@[simp] theorem State.mapPods_stv2 (s : State) (f : Pod → Pod) : (s.mapPods f).stv2 = s.stv2 := rfl
@[simp] theorem State.mapPods_orph (s : State) (f : Pod → Pod) : (s.mapPods f).orph = s.orph := rfl
@[simp] theorem State.mapPods_outReq (s : State) (f : Pod → Pod) : (s.mapPods f).outReq = s.outReq := rfl
@[simp] theorem State.mapPods_nextSeq (s : State) (f : Pod → Pod) : (s.mapPods f).nextSeq = s.nextSeq := rfl
@[simp] theorem State.mapPods_xbar (s : State) (f : Pod → Pod) : (s.mapPods f).xbar = s.xbar := rfl
@[simp] theorem State.mapPods_e2eDone (s : State) (f : Pod → Pod) : (s.mapPods f).e2eDone = s.e2eDone := rfl
@[simp] theorem State.mapPods_replies (s : State) (f : Pod → Pod) : (s.mapPods f).replies = s.replies := rfl
@[simp] theorem State.mapPods_spent (s : State) (f : Pod → Pod) : (s.mapPods f).spent = s.spent := rfl
@[simp] theorem State.mapPods_accepted (s : State) (f : Pod → Pod) : (s.mapPods f).accepted = s.accepted := rfl
@[simp] theorem State.mapPods_acc (s : State) (f : Pod → Pod) : (s.mapPods f).acc = s.acc := rfl
@[simp] theorem State.mapPods_accNew (s : State) (f : Pod → Pod) : (s.mapPods f).accNew = s.accNew := rfl
@[simp] theorem State.mapPods_accBusy (s : State) (f : Pod → Pod) : (s.mapPods f).accBusy = s.accBusy := rfl
@[simp] theorem State.mapPods_wqpart (s : State) (f : Pod → Pod) : (s.mapPods f).wqpart = s.wqpart := rfl
@[simp] theorem State.mapPods_ueep (s : State) (f : Pod → Pod) : (s.mapPods f).ueep = s.ueep := rfl
@[simp] theorem State.mapPods_uefg (s : State) (f : Pod → Pod) : (s.mapPods f).uefg = s.uefg := rfl
@[simp] theorem State.mapPods_log (s : State) (f : Pod → Pod) : (s.mapPods f).log = s.log := rfl
@[simp] theorem State.mapPods_cycle (s : State) (f : Pod → Pod) : (s.mapPods f).cycle = s.cycle := rfl
@[simp] theorem State.mapPods_tick (s : State) (f : Pod → Pod) : (s.mapPods f).tick = s.tick := rfl
@[simp] theorem State.mapPods_time (s : State) (f : Pod → Pod) : (s.mapPods f).time = s.time := rfl
@[simp] theorem State.mapPods_free (s : State) (f : Pod → Pod) : (s.mapPods f).free = s.free := rfl
@[simp] theorem State.mapPods_progress (s : State) (f : Pod → Pod) : (s.mapPods f).progress = s.progress := rfl
@[simp] theorem State.mapPods_inputs (s : State) (f : Pod → Pod) : (s.mapPods f).inputs = s.inputs := rfl

@[simp] theorem State.mapTeams_pod (s : State) (f : Team → Team) : (s.mapTeams f).pod = s.pod := rfl
@[simp] theorem State.mapTeams_team (s : State) (f : Team → Team) : (s.mapTeams f).team = f s.team := rfl
@[simp] theorem State.mapTeams_pods (s : State) (f : Team → Team) : (s.mapTeams f).pods = s.pods := rfl
@[simp] theorem State.mapTeams_teams (s : State) (f : Team → Team) : (s.mapTeams f).teams = s.teams.map f := rfl
@[simp] theorem State.mapTeams_mem (s : State) (f : Team → Team) : (s.mapTeams f).mem = s.mem := rfl
@[simp] theorem State.mapTeams_stale (s : State) (f : Team → Team) : (s.mapTeams f).stale = s.stale := rfl
@[simp] theorem State.mapTeams_poison (s : State) (f : Team → Team) : (s.mapTeams f).poison = s.poison := rfl
@[simp] theorem State.mapTeams_tlb (s : State) (f : Team → Team) : (s.mapTeams f).tlb = s.tlb := rfl
@[simp] theorem State.mapTeams_ctlb (s : State) (f : Team → Team) : (s.mapTeams f).ctlb = s.ctlb := rfl
@[simp] theorem State.mapTeams_wcache (s : State) (f : Team → Team) : (s.mapTeams f).wcache = s.wcache := rfl
@[simp] theorem State.mapTeams_icache (s : State) (f : Team → Team) : (s.mapTeams f).icache = s.icache := rfl
@[simp] theorem State.mapTeams_l1 (s : State) (f : Team → Team) : (s.mapTeams f).l1 = s.l1 := rfl
@[simp] theorem State.mapTeams_ccache (s : State) (f : Team → Team) : (s.mapTeams f).ccache = s.ccache := rfl
@[simp] theorem State.mapTeams_rcbuf (s : State) (f : Team → Team) : (s.mapTeams f).rcbuf = s.rcbuf := rfl
@[simp] theorem State.mapTeams_capm (s : State) (f : Team → Team) : (s.mapTeams f).capm = s.capm := rfl
@[simp] theorem State.mapTeams_ecnt (s : State) (f : Team → Team) : (s.mapTeams f).ecnt = s.ecnt := rfl
@[simp] theorem State.mapTeams_esel (s : State) (f : Team → Team) : (s.mapTeams f).esel = s.esel := rfl
@[simp] theorem State.mapTeams_esnap (s : State) (f : Team → Team) : (s.mapTeams f).esnap = s.esnap := rfl
@[simp] theorem State.mapTeams_fcnt (s : State) (f : Team → Team) : (s.mapTeams f).fcnt = s.fcnt := rfl
@[simp] theorem State.mapTeams_fsel (s : State) (f : Team → Team) : (s.mapTeams f).fsel = s.fsel := rfl
@[simp] theorem State.mapTeams_rcnt (s : State) (f : Team → Team) : (s.mapTeams f).rcnt = s.rcnt := rfl
@[simp] theorem State.mapTeams_acornBlack (s : State) (f : Team → Team) : (s.mapTeams f).acornBlack = s.acornBlack := rfl
@[simp] theorem State.mapTeams_acornPass (s : State) (f : Team → Team) : (s.mapTeams f).acornPass = s.acornPass := rfl
@[simp] theorem State.mapTeams_acornToken (s : State) (f : Team → Team) : (s.mapTeams f).acornToken = s.acornToken := rfl
@[simp] theorem State.mapTeams_acornCBlack (s : State) (f : Team → Team) : (s.mapTeams f).acornCBlack = s.acornCBlack := rfl
@[simp] theorem State.mapTeams_acornQuiet (s : State) (f : Team → Team) : (s.mapTeams f).acornQuiet = s.acornQuiet := rfl
@[simp] theorem State.mapTeams_acornTerm (s : State) (f : Team → Team) : (s.mapTeams f).acornTerm = s.acornTerm := rfl
@[simp] theorem State.mapTeams_acornPos (s : State) (f : Team → Team) : (s.mapTeams f).acornPos = s.acornPos := rfl
@[simp] theorem State.mapTeams_dieToken (s : State) (f : Team → Team) : (s.mapTeams f).dieToken = s.dieToken := rfl
@[simp] theorem State.mapTeams_diePos (s : State) (f : Team → Team) : (s.mapTeams f).diePos = s.diePos := rfl
@[simp] theorem State.mapTeams_diePass (s : State) (f : Team → Team) : (s.mapTeams f).diePass = s.diePass := rfl
@[simp] theorem State.mapTeams_dieTerm (s : State) (f : Team → Team) : (s.mapTeams f).dieTerm = s.dieTerm := rfl
@[simp] theorem State.mapTeams_acornst (s : State) (f : Team → Team) : (s.mapTeams f).acornst = s.acornst := rfl
@[simp] theorem State.mapTeams_serial (s : State) (f : Team → Team) : (s.mapTeams f).serial = s.serial := rfl
@[simp] theorem State.mapTeams_ops (s : State) (f : Team → Team) : (s.mapTeams f).ops = s.ops := rfl
@[simp] theorem State.mapTeams_nextToken (s : State) (f : Team → Team) : (s.mapTeams f).nextToken = s.nextToken := rfl
@[simp] theorem State.mapTeams_colls (s : State) (f : Team → Team) : (s.mapTeams f).colls = s.colls := rfl
@[simp] theorem State.mapTeams_nextColl (s : State) (f : Team → Team) : (s.mapTeams f).nextColl = s.nextColl := rfl
@[simp] theorem State.mapTeams_grids (s : State) (f : Team → Team) : (s.mapTeams f).grids = s.grids := rfl
@[simp] theorem State.mapTeams_nextGrid (s : State) (f : Team → Team) : (s.mapTeams f).nextGrid = s.nextGrid := rfl
@[simp] theorem State.mapTeams_queues (s : State) (f : Team → Team) : (s.mapTeams f).queues = s.queues := rfl
@[simp] theorem State.mapTeams_wqbase (s : State) (f : Team → Team) : (s.mapTeams f).wqbase = s.wqbase := rfl
@[simp] theorem State.mapTeams_wqarg (s : State) (f : Team → Team) : (s.mapTeams f).wqarg = s.wqarg := rfl
@[simp] theorem State.mapTeams_wqstatus (s : State) (f : Team → Team) : (s.mapTeams f).wqstatus = s.wqstatus := rfl
@[simp] theorem State.mapTeams_xlinv (s : State) (f : Team → Team) : (s.mapTeams f).xlinv = s.xlinv := rfl
@[simp] theorem State.mapTeams_xlbusy (s : State) (f : Team → Team) : (s.mapTeams f).xlbusy = s.xlbusy := rfl
@[simp] theorem State.mapTeams_escPending (s : State) (f : Team → Team) : (s.mapTeams f).escPending = s.escPending := rfl
@[simp] theorem State.mapTeams_escbase (s : State) (f : Team → Team) : (s.mapTeams f).escbase = s.escbase := rfl
@[simp] theorem State.mapTeams_escsize (s : State) (f : Team → Team) : (s.mapTeams f).escsize = s.escsize := rfl
@[simp] theorem State.mapTeams_eschead (s : State) (f : Team → Team) : (s.mapTeams f).eschead = s.eschead := rfl
@[simp] theorem State.mapTeams_esctail (s : State) (f : Team → Team) : (s.mapTeams f).esctail = s.esctail := rfl
@[simp] theorem State.mapTeams_dbgFifo (s : State) (f : Team → Team) : (s.mapTeams f).dbgFifo = s.dbgFifo := rfl
@[simp] theorem State.mapTeams_dbgIn (s : State) (f : Team → Team) : (s.mapTeams f).dbgIn = s.dbgIn := rfl
@[simp] theorem State.mapTeams_quantum (s : State) (f : Team → Team) : (s.mapTeams f).quantum = s.quantum := rfl
@[simp] theorem State.mapTeams_hold (s : State) (f : Team → Team) : (s.mapTeams f).hold = s.hold := rfl
@[simp] theorem State.mapTeams_husk (s : State) (f : Team → Team) : (s.mapTeams f).husk = s.husk := rfl
@[simp] theorem State.mapTeams_links (s : State) (f : Team → Team) : (s.mapTeams f).links = s.links := rfl
@[simp] theorem State.mapTeams_stv1 (s : State) (f : Team → Team) : (s.mapTeams f).stv1 = s.stv1 := rfl
@[simp] theorem State.mapTeams_stv2 (s : State) (f : Team → Team) : (s.mapTeams f).stv2 = s.stv2 := rfl
@[simp] theorem State.mapTeams_orph (s : State) (f : Team → Team) : (s.mapTeams f).orph = s.orph := rfl
@[simp] theorem State.mapTeams_outReq (s : State) (f : Team → Team) : (s.mapTeams f).outReq = s.outReq := rfl
@[simp] theorem State.mapTeams_nextSeq (s : State) (f : Team → Team) : (s.mapTeams f).nextSeq = s.nextSeq := rfl
@[simp] theorem State.mapTeams_xbar (s : State) (f : Team → Team) : (s.mapTeams f).xbar = s.xbar := rfl
@[simp] theorem State.mapTeams_e2eDone (s : State) (f : Team → Team) : (s.mapTeams f).e2eDone = s.e2eDone := rfl
@[simp] theorem State.mapTeams_replies (s : State) (f : Team → Team) : (s.mapTeams f).replies = s.replies := rfl
@[simp] theorem State.mapTeams_spent (s : State) (f : Team → Team) : (s.mapTeams f).spent = s.spent := rfl
@[simp] theorem State.mapTeams_accepted (s : State) (f : Team → Team) : (s.mapTeams f).accepted = s.accepted := rfl
@[simp] theorem State.mapTeams_acc (s : State) (f : Team → Team) : (s.mapTeams f).acc = s.acc := rfl
@[simp] theorem State.mapTeams_accNew (s : State) (f : Team → Team) : (s.mapTeams f).accNew = s.accNew := rfl
@[simp] theorem State.mapTeams_accBusy (s : State) (f : Team → Team) : (s.mapTeams f).accBusy = s.accBusy := rfl
@[simp] theorem State.mapTeams_wqpart (s : State) (f : Team → Team) : (s.mapTeams f).wqpart = s.wqpart := rfl
@[simp] theorem State.mapTeams_ueep (s : State) (f : Team → Team) : (s.mapTeams f).ueep = s.ueep := rfl
@[simp] theorem State.mapTeams_uefg (s : State) (f : Team → Team) : (s.mapTeams f).uefg = s.uefg := rfl
@[simp] theorem State.mapTeams_log (s : State) (f : Team → Team) : (s.mapTeams f).log = s.log := rfl
@[simp] theorem State.mapTeams_cycle (s : State) (f : Team → Team) : (s.mapTeams f).cycle = s.cycle := rfl
@[simp] theorem State.mapTeams_tick (s : State) (f : Team → Team) : (s.mapTeams f).tick = s.tick := rfl
@[simp] theorem State.mapTeams_time (s : State) (f : Team → Team) : (s.mapTeams f).time = s.time := rfl
@[simp] theorem State.mapTeams_free (s : State) (f : Team → Team) : (s.mapTeams f).free = s.free := rfl
@[simp] theorem State.mapTeams_progress (s : State) (f : Team → Team) : (s.mapTeams f).progress = s.progress := rfl
@[simp] theorem State.mapTeams_inputs (s : State) (f : Team → Team) : (s.mapTeams f).inputs = s.inputs := rfl

@[simp] theorem Pod.wrV_id (p : Pod) (t r : Nat) (x : Word) : (p.wrV t r x).id = p.id := rfl
@[simp] theorem Pod.wrV_width (p : Pod) (t r : Nat) (x : Word) : (p.wrV t r x).width = p.width := rfl
@[simp] theorem Pod.wrV_v (p : Pod) (t r : Nat) (x : Word) : (p.wrV t r x).v = p.v.set (t * 1024 + r) x := rfl
@[simp] theorem Pod.wrV_tags (p : Pod) (t r : Nat) (x : Word) : (p.wrV t r x).tags = p.tags := rfl
@[simp] theorem Pod.wrV_k (p : Pod) (t r : Nat) (x : Word) : (p.wrV t r x).k = p.k := rfl
@[simp] theorem Pod.wrV_p (p : Pod) (t r : Nat) (x : Word) : (p.wrV t r x).p = p.p := rfl
@[simp] theorem Pod.wrV_g (p : Pod) (t r : Nat) (x : Word) : (p.wrV t r x).g = p.g := rfl
@[simp] theorem Pod.wrV_h (p : Pod) (t r : Nat) (x : Word) : (p.wrV t r x).h = p.h := rfl
@[simp] theorem Pod.wrV_q (p : Pod) (t r : Nat) (x : Word) : (p.wrV t r x).q = p.q := rfl
@[simp] theorem Pod.wrV_flags (p : Pod) (t r : Nat) (x : Word) : (p.wrV t r x).flags = p.flags := rfl
@[simp] theorem Pod.wrV_fl (p : Pod) (t r : Nat) (x : Word) : (p.wrV t r x).fl = p.fl := rfl
@[simp] theorem Pod.wrV_cause (p : Pod) (t r : Nat) (x : Word) : (p.wrV t r x).cause = p.cause := rfl
@[simp] theorem Pod.wrV_tix (p : Pod) (t r : Nat) (x : Word) : (p.wrV t r x).tix = p.tix := rfl
@[simp] theorem Pod.wrV_tpc (p : Pod) (t r : Nat) (x : Word) : (p.wrV t r x).tpc = p.tpc := rfl
@[simp] theorem Pod.wrV_seed (p : Pod) (t r : Nat) (x : Word) : (p.wrV t r x).seed = p.seed := rfl
@[simp] theorem Pod.wrV_prio (p : Pod) (t r : Nat) (x : Word) : (p.wrV t r x).prio = p.prio := rfl
@[simp] theorem Pod.wrV_prioMax (p : Pod) (t r : Nat) (x : Word) : (p.wrV t r x).prioMax = p.prioMax := rfl
@[simp] theorem Pod.wrV_user (p : Pod) (t r : Nat) (x : Word) : (p.wrV t r x).user = p.user := rfl
@[simp] theorem Pod.wrV_loops (p : Pod) (t r : Nat) (x : Word) : (p.wrV t r x).loops = p.loops := rfl
@[simp] theorem Pod.wrV_trap (p : Pod) (t r : Nat) (x : Word) : (p.wrV t r x).trap = p.trap := rfl
@[simp] theorem Pod.wrV_trapLoops (p : Pod) (t r : Nat) (x : Word) : (p.wrV t r x).trapLoops = p.trapLoops := rfl
@[simp] theorem Pod.wrV_exited (p : Pod) (t r : Nat) (x : Word) : (p.wrV t r x).exited = p.exited := rfl
@[simp] theorem Pod.wrV_handlers (p : Pod) (t r : Nat) (x : Word) : (p.wrV t r x).handlers = p.handlers := rfl
@[simp] theorem Pod.wrV_trapLevel (p : Pod) (t r : Nat) (x : Word) : (p.wrV t r x).trapLevel = p.trapLevel := rfl
@[simp] theorem Pod.wrV_bank (p : Pod) (t r : Nat) (x : Word) : (p.wrV t r x).bank = p.bank := rfl
@[simp] theorem Pod.wrV_tx (p : Pod) (t r : Nat) (x : Word) : (p.wrV t r x).tx = p.tx := rfl
@[simp] theorem Pod.wrV_pend (p : Pod) (t r : Nat) (x : Word) : (p.wrV t r x).pend = p.pend := rfl
@[simp] theorem Pod.wrV_deferred (p : Pod) (t r : Nat) (x : Word) : (p.wrV t r x).deferred = p.deferred := rfl
@[simp] theorem Pod.wrV_serial (p : Pod) (t r : Nat) (x : Word) : (p.wrV t r x).serial = p.serial := rfl
@[simp] theorem Pod.wrV_wait (p : Pod) (t r : Nat) (x : Word) : (p.wrV t r x).wait = p.wait := rfl
@[simp] theorem Pod.wrV_raised (p : Pod) (t r : Nat) (x : Word) : (p.wrV t r x).raised = p.raised := rfl
@[simp] theorem Pod.wrV_reasons (p : Pod) (t r : Nat) (x : Word) : (p.wrV t r x).reasons = p.reasons := rfl
@[simp] theorem Pod.wrV_resumeAt (p : Pod) (t r : Nat) (x : Word) : (p.wrV t r x).resumeAt = p.resumeAt := rfl
@[simp] theorem Pod.wrV_inside (p : Pod) (t r : Nat) (x : Word) : (p.wrV t r x).inside = p.inside := rfl
@[simp] theorem Pod.wrV_syncDone (p : Pod) (t r : Nat) (x : Word) : (p.wrV t r x).syncDone = p.syncDone := rfl
@[simp] theorem Pod.wrV_arrived (p : Pod) (t r : Nat) (x : Word) : (p.wrV t r x).arrived = p.arrived := rfl
@[simp] theorem Pod.wrV_collDone (p : Pod) (t r : Nat) (x : Word) : (p.wrV t r x).collDone = p.collDone := rfl
@[simp] theorem Pod.wrV_joined (p : Pod) (t r : Nat) (x : Word) : (p.wrV t r x).joined = p.joined := rfl
@[simp] theorem Pod.wrV_joinedAt (p : Pod) (t r : Nat) (x : Word) : (p.wrV t r x).joinedAt = p.joinedAt := rfl
@[simp] theorem Pod.wrV_startCtl (p : Pod) (t r : Nat) (x : Word) : (p.wrV t r x).startCtl = p.startCtl := rfl
@[simp] theorem Pod.wrV_waited (p : Pod) (t r : Nat) (x : Word) : (p.wrV t r x).waited = p.waited := rfl
@[simp] theorem Pod.wrV_phased (p : Pod) (t r : Nat) (x : Word) : (p.wrV t r x).phased = p.phased := rfl
@[simp] theorem Pod.wrV_done (p : Pod) (t r : Nat) (x : Word) : (p.wrV t r x).done = p.done := rfl
@[simp] theorem Pod.wrV_halted (p : Pod) (t r : Nat) (x : Word) : (p.wrV t r x).halted = p.halted := rfl
@[simp] theorem Pod.wrV_stepping (p : Pod) (t r : Nat) (x : Word) : (p.wrV t r x).stepping = p.stepping := rfl
@[simp] theorem Pod.wrV_bpPass (p : Pod) (t r : Nat) (x : Word) : (p.wrV t r x).bpPass = p.bpPass := rfl
@[simp] theorem Pod.wrV_ofence (p : Pod) (t r : Nat) (x : Word) : (p.wrV t r x).ofence = p.ofence := rfl
@[simp] theorem Pod.wrV_bad (p : Pod) (t r : Nat) (x : Word) : (p.wrV t r x).bad = p.bad.filter (· != t * 1024 + r) := rfl
@[simp] theorem Pod.wrV_sched (p : Pod) (t r : Nat) (x : Word) : (p.wrV t r x).sched = p.sched := rfl

@[simp] theorem Pod.wrG_id (p : Pod) (n : Nat) (x : Mask) : (p.wrG n x).id = p.id := rfl
@[simp] theorem Pod.wrG_width (p : Pod) (n : Nat) (x : Mask) : (p.wrG n x).width = p.width := rfl
@[simp] theorem Pod.wrG_v (p : Pod) (n : Nat) (x : Mask) : (p.wrG n x).v = p.v := rfl
@[simp] theorem Pod.wrG_tags (p : Pod) (n : Nat) (x : Mask) : (p.wrG n x).tags = p.tags := rfl
@[simp] theorem Pod.wrG_k (p : Pod) (n : Nat) (x : Mask) : (p.wrG n x).k = p.k := rfl
@[simp] theorem Pod.wrG_p (p : Pod) (n : Nat) (x : Mask) : (p.wrG n x).p = p.p := rfl
@[simp] theorem Pod.wrG_g (p : Pod) (n : Nat) (x : Mask) : (p.wrG n x).g = p.g.set n (x &&& full p.width) := rfl
@[simp] theorem Pod.wrG_h (p : Pod) (n : Nat) (x : Mask) : (p.wrG n x).h = p.h := rfl
@[simp] theorem Pod.wrG_q (p : Pod) (n : Nat) (x : Mask) : (p.wrG n x).q = p.q := rfl
@[simp] theorem Pod.wrG_flags (p : Pod) (n : Nat) (x : Mask) : (p.wrG n x).flags = p.flags := rfl
@[simp] theorem Pod.wrG_fl (p : Pod) (n : Nat) (x : Mask) : (p.wrG n x).fl = p.fl := rfl
@[simp] theorem Pod.wrG_cause (p : Pod) (n : Nat) (x : Mask) : (p.wrG n x).cause = p.cause := rfl
@[simp] theorem Pod.wrG_tix (p : Pod) (n : Nat) (x : Mask) : (p.wrG n x).tix = p.tix := rfl
@[simp] theorem Pod.wrG_tpc (p : Pod) (n : Nat) (x : Mask) : (p.wrG n x).tpc = p.tpc := rfl
@[simp] theorem Pod.wrG_seed (p : Pod) (n : Nat) (x : Mask) : (p.wrG n x).seed = p.seed := rfl
@[simp] theorem Pod.wrG_prio (p : Pod) (n : Nat) (x : Mask) : (p.wrG n x).prio = p.prio := rfl
@[simp] theorem Pod.wrG_prioMax (p : Pod) (n : Nat) (x : Mask) : (p.wrG n x).prioMax = p.prioMax := rfl
@[simp] theorem Pod.wrG_user (p : Pod) (n : Nat) (x : Mask) : (p.wrG n x).user = p.user := rfl
@[simp] theorem Pod.wrG_loops (p : Pod) (n : Nat) (x : Mask) : (p.wrG n x).loops = p.loops := rfl
@[simp] theorem Pod.wrG_trap (p : Pod) (n : Nat) (x : Mask) : (p.wrG n x).trap = p.trap := rfl
@[simp] theorem Pod.wrG_trapLoops (p : Pod) (n : Nat) (x : Mask) : (p.wrG n x).trapLoops = p.trapLoops := rfl
@[simp] theorem Pod.wrG_exited (p : Pod) (n : Nat) (x : Mask) : (p.wrG n x).exited = p.exited := rfl
@[simp] theorem Pod.wrG_handlers (p : Pod) (n : Nat) (x : Mask) : (p.wrG n x).handlers = p.handlers := rfl
@[simp] theorem Pod.wrG_trapLevel (p : Pod) (n : Nat) (x : Mask) : (p.wrG n x).trapLevel = p.trapLevel := rfl
@[simp] theorem Pod.wrG_bank (p : Pod) (n : Nat) (x : Mask) : (p.wrG n x).bank = p.bank := rfl
@[simp] theorem Pod.wrG_tx (p : Pod) (n : Nat) (x : Mask) : (p.wrG n x).tx = p.tx := rfl
@[simp] theorem Pod.wrG_pend (p : Pod) (n : Nat) (x : Mask) : (p.wrG n x).pend = p.pend := rfl
@[simp] theorem Pod.wrG_deferred (p : Pod) (n : Nat) (x : Mask) : (p.wrG n x).deferred = p.deferred := rfl
@[simp] theorem Pod.wrG_serial (p : Pod) (n : Nat) (x : Mask) : (p.wrG n x).serial = p.serial := rfl
@[simp] theorem Pod.wrG_wait (p : Pod) (n : Nat) (x : Mask) : (p.wrG n x).wait = p.wait := rfl
@[simp] theorem Pod.wrG_raised (p : Pod) (n : Nat) (x : Mask) : (p.wrG n x).raised = p.raised := rfl
@[simp] theorem Pod.wrG_reasons (p : Pod) (n : Nat) (x : Mask) : (p.wrG n x).reasons = p.reasons := rfl
@[simp] theorem Pod.wrG_resumeAt (p : Pod) (n : Nat) (x : Mask) : (p.wrG n x).resumeAt = p.resumeAt := rfl
@[simp] theorem Pod.wrG_inside (p : Pod) (n : Nat) (x : Mask) : (p.wrG n x).inside = p.inside := rfl
@[simp] theorem Pod.wrG_syncDone (p : Pod) (n : Nat) (x : Mask) : (p.wrG n x).syncDone = p.syncDone := rfl
@[simp] theorem Pod.wrG_arrived (p : Pod) (n : Nat) (x : Mask) : (p.wrG n x).arrived = p.arrived := rfl
@[simp] theorem Pod.wrG_collDone (p : Pod) (n : Nat) (x : Mask) : (p.wrG n x).collDone = p.collDone := rfl
@[simp] theorem Pod.wrG_joined (p : Pod) (n : Nat) (x : Mask) : (p.wrG n x).joined = p.joined := rfl
@[simp] theorem Pod.wrG_joinedAt (p : Pod) (n : Nat) (x : Mask) : (p.wrG n x).joinedAt = p.joinedAt := rfl
@[simp] theorem Pod.wrG_startCtl (p : Pod) (n : Nat) (x : Mask) : (p.wrG n x).startCtl = p.startCtl := rfl
@[simp] theorem Pod.wrG_waited (p : Pod) (n : Nat) (x : Mask) : (p.wrG n x).waited = p.waited := rfl
@[simp] theorem Pod.wrG_phased (p : Pod) (n : Nat) (x : Mask) : (p.wrG n x).phased = p.phased := rfl
@[simp] theorem Pod.wrG_done (p : Pod) (n : Nat) (x : Mask) : (p.wrG n x).done = p.done := rfl
@[simp] theorem Pod.wrG_halted (p : Pod) (n : Nat) (x : Mask) : (p.wrG n x).halted = p.halted := rfl
@[simp] theorem Pod.wrG_stepping (p : Pod) (n : Nat) (x : Mask) : (p.wrG n x).stepping = p.stepping := rfl
@[simp] theorem Pod.wrG_bpPass (p : Pod) (n : Nat) (x : Mask) : (p.wrG n x).bpPass = p.bpPass := rfl
@[simp] theorem Pod.wrG_ofence (p : Pod) (n : Nat) (x : Mask) : (p.wrG n x).ofence = p.ofence := rfl
@[simp] theorem Pod.wrG_bad (p : Pod) (n : Nat) (x : Mask) : (p.wrG n x).bad = p.bad := rfl
@[simp] theorem Pod.wrG_sched (p : Pod) (n : Nat) (x : Mask) : (p.wrG n x).sched = p.sched := rfl

@[simp] theorem Pod.raiseFl_id (p : Pod) (c : BitVec 6) : (p.raiseFl c).id = p.id := rfl
@[simp] theorem Pod.raiseFl_width (p : Pod) (c : BitVec 6) : (p.raiseFl c).width = p.width := rfl
@[simp] theorem Pod.raiseFl_v (p : Pod) (c : BitVec 6) : (p.raiseFl c).v = p.v := rfl
@[simp] theorem Pod.raiseFl_tags (p : Pod) (c : BitVec 6) : (p.raiseFl c).tags = p.tags := rfl
@[simp] theorem Pod.raiseFl_k (p : Pod) (c : BitVec 6) : (p.raiseFl c).k = p.k := rfl
@[simp] theorem Pod.raiseFl_p (p : Pod) (c : BitVec 6) : (p.raiseFl c).p = p.p := rfl
@[simp] theorem Pod.raiseFl_g (p : Pod) (c : BitVec 6) : (p.raiseFl c).g = p.g := rfl
@[simp] theorem Pod.raiseFl_h (p : Pod) (c : BitVec 6) : (p.raiseFl c).h = p.h := rfl
@[simp] theorem Pod.raiseFl_q (p : Pod) (c : BitVec 6) : (p.raiseFl c).q = p.q := rfl
@[simp] theorem Pod.raiseFl_flags (p : Pod) (c : BitVec 6) : (p.raiseFl c).flags = p.flags := rfl
@[simp] theorem Pod.raiseFl_fl (p : Pod) (c : BitVec 6) : (p.raiseFl c).fl = p.fl ||| c := rfl
@[simp] theorem Pod.raiseFl_cause (p : Pod) (c : BitVec 6) : (p.raiseFl c).cause = p.cause := rfl
@[simp] theorem Pod.raiseFl_tix (p : Pod) (c : BitVec 6) : (p.raiseFl c).tix = p.tix := rfl
@[simp] theorem Pod.raiseFl_tpc (p : Pod) (c : BitVec 6) : (p.raiseFl c).tpc = p.tpc := rfl
@[simp] theorem Pod.raiseFl_seed (p : Pod) (c : BitVec 6) : (p.raiseFl c).seed = p.seed := rfl
@[simp] theorem Pod.raiseFl_prio (p : Pod) (c : BitVec 6) : (p.raiseFl c).prio = p.prio := rfl
@[simp] theorem Pod.raiseFl_prioMax (p : Pod) (c : BitVec 6) : (p.raiseFl c).prioMax = p.prioMax := rfl
@[simp] theorem Pod.raiseFl_user (p : Pod) (c : BitVec 6) : (p.raiseFl c).user = p.user := rfl
@[simp] theorem Pod.raiseFl_loops (p : Pod) (c : BitVec 6) : (p.raiseFl c).loops = p.loops := rfl
@[simp] theorem Pod.raiseFl_trap (p : Pod) (c : BitVec 6) : (p.raiseFl c).trap = p.trap := rfl
@[simp] theorem Pod.raiseFl_trapLoops (p : Pod) (c : BitVec 6) : (p.raiseFl c).trapLoops = p.trapLoops := rfl
@[simp] theorem Pod.raiseFl_exited (p : Pod) (c : BitVec 6) : (p.raiseFl c).exited = p.exited := rfl
@[simp] theorem Pod.raiseFl_handlers (p : Pod) (c : BitVec 6) : (p.raiseFl c).handlers = p.handlers := rfl
@[simp] theorem Pod.raiseFl_trapLevel (p : Pod) (c : BitVec 6) : (p.raiseFl c).trapLevel = p.trapLevel := rfl
@[simp] theorem Pod.raiseFl_bank (p : Pod) (c : BitVec 6) : (p.raiseFl c).bank = p.bank := rfl
@[simp] theorem Pod.raiseFl_tx (p : Pod) (c : BitVec 6) : (p.raiseFl c).tx = p.tx := rfl
@[simp] theorem Pod.raiseFl_pend (p : Pod) (c : BitVec 6) : (p.raiseFl c).pend = p.pend := rfl
@[simp] theorem Pod.raiseFl_deferred (p : Pod) (c : BitVec 6) : (p.raiseFl c).deferred = p.deferred := rfl
@[simp] theorem Pod.raiseFl_serial (p : Pod) (c : BitVec 6) : (p.raiseFl c).serial = p.serial := rfl
@[simp] theorem Pod.raiseFl_wait (p : Pod) (c : BitVec 6) : (p.raiseFl c).wait = p.wait := rfl
@[simp] theorem Pod.raiseFl_raised (p : Pod) (c : BitVec 6) : (p.raiseFl c).raised = p.raised := rfl
@[simp] theorem Pod.raiseFl_reasons (p : Pod) (c : BitVec 6) : (p.raiseFl c).reasons = p.reasons := rfl
@[simp] theorem Pod.raiseFl_resumeAt (p : Pod) (c : BitVec 6) : (p.raiseFl c).resumeAt = p.resumeAt := rfl
@[simp] theorem Pod.raiseFl_inside (p : Pod) (c : BitVec 6) : (p.raiseFl c).inside = p.inside := rfl
@[simp] theorem Pod.raiseFl_syncDone (p : Pod) (c : BitVec 6) : (p.raiseFl c).syncDone = p.syncDone := rfl
@[simp] theorem Pod.raiseFl_arrived (p : Pod) (c : BitVec 6) : (p.raiseFl c).arrived = p.arrived := rfl
@[simp] theorem Pod.raiseFl_collDone (p : Pod) (c : BitVec 6) : (p.raiseFl c).collDone = p.collDone := rfl
@[simp] theorem Pod.raiseFl_joined (p : Pod) (c : BitVec 6) : (p.raiseFl c).joined = p.joined := rfl
@[simp] theorem Pod.raiseFl_joinedAt (p : Pod) (c : BitVec 6) : (p.raiseFl c).joinedAt = p.joinedAt := rfl
@[simp] theorem Pod.raiseFl_startCtl (p : Pod) (c : BitVec 6) : (p.raiseFl c).startCtl = p.startCtl := rfl
@[simp] theorem Pod.raiseFl_waited (p : Pod) (c : BitVec 6) : (p.raiseFl c).waited = p.waited := rfl
@[simp] theorem Pod.raiseFl_phased (p : Pod) (c : BitVec 6) : (p.raiseFl c).phased = p.phased := rfl
@[simp] theorem Pod.raiseFl_done (p : Pod) (c : BitVec 6) : (p.raiseFl c).done = p.done := rfl
@[simp] theorem Pod.raiseFl_halted (p : Pod) (c : BitVec 6) : (p.raiseFl c).halted = p.halted := rfl
@[simp] theorem Pod.raiseFl_stepping (p : Pod) (c : BitVec 6) : (p.raiseFl c).stepping = p.stepping := rfl
@[simp] theorem Pod.raiseFl_bpPass (p : Pod) (c : BitVec 6) : (p.raiseFl c).bpPass = p.bpPass := rfl
@[simp] theorem Pod.raiseFl_ofence (p : Pod) (c : BitVec 6) : (p.raiseFl c).ofence = p.ofence := rfl
@[simp] theorem Pod.raiseFl_bad (p : Pod) (c : BitVec 6) : (p.raiseFl c).bad = p.bad := rfl
@[simp] theorem Pod.raiseFl_sched (p : Pod) (c : BitVec 6) : (p.raiseFl c).sched = p.sched := rfl

@[simp] theorem Pod.stopAt_id (p : Pod) (pc : Dword) (t : Nat) : (p.stopAt pc t).id = p.id := rfl
@[simp] theorem Pod.stopAt_width (p : Pod) (pc : Dword) (t : Nat) : (p.stopAt pc t).width = p.width := rfl
@[simp] theorem Pod.stopAt_v (p : Pod) (pc : Dword) (t : Nat) : (p.stopAt pc t).v = p.v := rfl
@[simp] theorem Pod.stopAt_tags (p : Pod) (pc : Dword) (t : Nat) : (p.stopAt pc t).tags = p.tags := rfl
@[simp] theorem Pod.stopAt_k (p : Pod) (pc : Dword) (t : Nat) : (p.stopAt pc t).k = p.k := rfl
@[simp] theorem Pod.stopAt_p (p : Pod) (pc : Dword) (t : Nat) : (p.stopAt pc t).p = p.p := rfl
@[simp] theorem Pod.stopAt_g (p : Pod) (pc : Dword) (t : Nat) : (p.stopAt pc t).g = p.g := rfl
@[simp] theorem Pod.stopAt_h (p : Pod) (pc : Dword) (t : Nat) : (p.stopAt pc t).h = p.h := rfl
@[simp] theorem Pod.stopAt_q (p : Pod) (pc : Dword) (t : Nat) : (p.stopAt pc t).q = p.q := rfl
@[simp] theorem Pod.stopAt_flags (p : Pod) (pc : Dword) (t : Nat) : (p.stopAt pc t).flags = p.flags := rfl
@[simp] theorem Pod.stopAt_fl (p : Pod) (pc : Dword) (t : Nat) : (p.stopAt pc t).fl = p.fl := rfl
@[simp] theorem Pod.stopAt_cause (p : Pod) (pc : Dword) (t : Nat) : (p.stopAt pc t).cause = p.cause := rfl
@[simp] theorem Pod.stopAt_tix (p : Pod) (pc : Dword) (t : Nat) : (p.stopAt pc t).tix = p.tix := rfl
@[simp] theorem Pod.stopAt_tpc (p : Pod) (pc : Dword) (t : Nat) : (p.stopAt pc t).tpc = p.tpc := rfl
@[simp] theorem Pod.stopAt_seed (p : Pod) (pc : Dword) (t : Nat) : (p.stopAt pc t).seed = p.seed := rfl
@[simp] theorem Pod.stopAt_prio (p : Pod) (pc : Dword) (t : Nat) : (p.stopAt pc t).prio = p.prio := rfl
@[simp] theorem Pod.stopAt_prioMax (p : Pod) (pc : Dword) (t : Nat) : (p.stopAt pc t).prioMax = p.prioMax := rfl
@[simp] theorem Pod.stopAt_user (p : Pod) (pc : Dword) (t : Nat) : (p.stopAt pc t).user = p.user := rfl
@[simp] theorem Pod.stopAt_loops (p : Pod) (pc : Dword) (t : Nat) : (p.stopAt pc t).loops = p.loops := rfl
@[simp] theorem Pod.stopAt_trap (p : Pod) (pc : Dword) (t : Nat) : (p.stopAt pc t).trap = p.trap := rfl
@[simp] theorem Pod.stopAt_trapLoops (p : Pod) (pc : Dword) (t : Nat) : (p.stopAt pc t).trapLoops = p.trapLoops := rfl
@[simp] theorem Pod.stopAt_exited (p : Pod) (pc : Dword) (t : Nat) : (p.stopAt pc t).exited = p.exited := rfl
@[simp] theorem Pod.stopAt_handlers (p : Pod) (pc : Dword) (t : Nat) : (p.stopAt pc t).handlers = p.handlers := rfl
@[simp] theorem Pod.stopAt_trapLevel (p : Pod) (pc : Dword) (t : Nat) : (p.stopAt pc t).trapLevel = p.trapLevel := rfl
@[simp] theorem Pod.stopAt_bank (p : Pod) (pc : Dword) (t : Nat) : (p.stopAt pc t).bank = p.bank := rfl
@[simp] theorem Pod.stopAt_tx (p : Pod) (pc : Dword) (t : Nat) : (p.stopAt pc t).tx = p.tx := rfl
@[simp] theorem Pod.stopAt_pend (p : Pod) (pc : Dword) (t : Nat) : (p.stopAt pc t).pend = p.pend := rfl
@[simp] theorem Pod.stopAt_deferred (p : Pod) (pc : Dword) (t : Nat) : (p.stopAt pc t).deferred = p.deferred := rfl
@[simp] theorem Pod.stopAt_serial (p : Pod) (pc : Dword) (t : Nat) : (p.stopAt pc t).serial = p.serial := rfl
@[simp] theorem Pod.stopAt_wait (p : Pod) (pc : Dword) (t : Nat) : (p.stopAt pc t).wait = p.wait := rfl
@[simp] theorem Pod.stopAt_raised (p : Pod) (pc : Dword) (t : Nat) : (p.stopAt pc t).raised = p.raised := rfl
@[simp] theorem Pod.stopAt_reasons (p : Pod) (pc : Dword) (t : Nat) : (p.stopAt pc t).reasons = p.reasons := rfl
@[simp] theorem Pod.stopAt_resumeAt (p : Pod) (pc : Dword) (t : Nat) : (p.stopAt pc t).resumeAt = if t = 0 then none else some (pc, t) := rfl
@[simp] theorem Pod.stopAt_inside (p : Pod) (pc : Dword) (t : Nat) : (p.stopAt pc t).inside = p.inside := rfl
@[simp] theorem Pod.stopAt_syncDone (p : Pod) (pc : Dword) (t : Nat) : (p.stopAt pc t).syncDone = p.syncDone := rfl
@[simp] theorem Pod.stopAt_arrived (p : Pod) (pc : Dword) (t : Nat) : (p.stopAt pc t).arrived = p.arrived := rfl
@[simp] theorem Pod.stopAt_collDone (p : Pod) (pc : Dword) (t : Nat) : (p.stopAt pc t).collDone = p.collDone := rfl
@[simp] theorem Pod.stopAt_joined (p : Pod) (pc : Dword) (t : Nat) : (p.stopAt pc t).joined = p.joined := rfl
@[simp] theorem Pod.stopAt_joinedAt (p : Pod) (pc : Dword) (t : Nat) : (p.stopAt pc t).joinedAt = p.joinedAt := rfl
@[simp] theorem Pod.stopAt_startCtl (p : Pod) (pc : Dword) (t : Nat) : (p.stopAt pc t).startCtl = p.startCtl := rfl
@[simp] theorem Pod.stopAt_waited (p : Pod) (pc : Dword) (t : Nat) : (p.stopAt pc t).waited = p.waited := rfl
@[simp] theorem Pod.stopAt_phased (p : Pod) (pc : Dword) (t : Nat) : (p.stopAt pc t).phased = p.phased := rfl
@[simp] theorem Pod.stopAt_done (p : Pod) (pc : Dword) (t : Nat) : (p.stopAt pc t).done = p.done := rfl
@[simp] theorem Pod.stopAt_halted (p : Pod) (pc : Dword) (t : Nat) : (p.stopAt pc t).halted = p.halted := rfl
@[simp] theorem Pod.stopAt_stepping (p : Pod) (pc : Dword) (t : Nat) : (p.stopAt pc t).stepping = p.stepping := rfl
@[simp] theorem Pod.stopAt_bpPass (p : Pod) (pc : Dword) (t : Nat) : (p.stopAt pc t).bpPass = p.bpPass := rfl
@[simp] theorem Pod.stopAt_ofence (p : Pod) (pc : Dword) (t : Nat) : (p.stopAt pc t).ofence = p.ofence := rfl
@[simp] theorem Pod.stopAt_bad (p : Pod) (pc : Dword) (t : Nat) : (p.stopAt pc t).bad = p.bad := rfl
@[simp] theorem Pod.stopAt_sched (p : Pod) (pc : Dword) (t : Nat) : (p.stopAt pc t).sched = p.sched := rfl

@[simp] theorem Pod.unwait_id (p : Pod) : (p.unwait).id = p.id := rfl
@[simp] theorem Pod.unwait_width (p : Pod) : (p.unwait).width = p.width := rfl
@[simp] theorem Pod.unwait_v (p : Pod) : (p.unwait).v = p.v := rfl
@[simp] theorem Pod.unwait_tags (p : Pod) : (p.unwait).tags = p.tags := rfl
@[simp] theorem Pod.unwait_k (p : Pod) : (p.unwait).k = p.k := rfl
@[simp] theorem Pod.unwait_p (p : Pod) : (p.unwait).p = p.p := rfl
@[simp] theorem Pod.unwait_g (p : Pod) : (p.unwait).g = p.g := rfl
@[simp] theorem Pod.unwait_h (p : Pod) : (p.unwait).h = p.h := rfl
@[simp] theorem Pod.unwait_q (p : Pod) : (p.unwait).q = p.q := rfl
@[simp] theorem Pod.unwait_flags (p : Pod) : (p.unwait).flags = p.flags := rfl
@[simp] theorem Pod.unwait_fl (p : Pod) : (p.unwait).fl = p.fl := rfl
@[simp] theorem Pod.unwait_cause (p : Pod) : (p.unwait).cause = p.cause := rfl
@[simp] theorem Pod.unwait_tix (p : Pod) : (p.unwait).tix = p.tix := rfl
@[simp] theorem Pod.unwait_tpc (p : Pod) : (p.unwait).tpc = p.tpc := rfl
@[simp] theorem Pod.unwait_seed (p : Pod) : (p.unwait).seed = p.seed := rfl
@[simp] theorem Pod.unwait_prio (p : Pod) : (p.unwait).prio = p.prio := rfl
@[simp] theorem Pod.unwait_prioMax (p : Pod) : (p.unwait).prioMax = p.prioMax := rfl
@[simp] theorem Pod.unwait_user (p : Pod) : (p.unwait).user = p.user := rfl
@[simp] theorem Pod.unwait_loops (p : Pod) : (p.unwait).loops = p.loops := rfl
@[simp] theorem Pod.unwait_trap (p : Pod) : (p.unwait).trap = p.trap := rfl
@[simp] theorem Pod.unwait_trapLoops (p : Pod) : (p.unwait).trapLoops = p.trapLoops := rfl
@[simp] theorem Pod.unwait_exited (p : Pod) : (p.unwait).exited = p.exited := rfl
@[simp] theorem Pod.unwait_handlers (p : Pod) : (p.unwait).handlers = p.handlers := rfl
@[simp] theorem Pod.unwait_trapLevel (p : Pod) : (p.unwait).trapLevel = p.trapLevel := rfl
@[simp] theorem Pod.unwait_bank (p : Pod) : (p.unwait).bank = p.bank := rfl
@[simp] theorem Pod.unwait_tx (p : Pod) : (p.unwait).tx = p.tx := rfl
@[simp] theorem Pod.unwait_pend (p : Pod) : (p.unwait).pend = p.pend.filter fun x => x.kind ≠ .poll && x.kind ≠ .check := rfl
@[simp] theorem Pod.unwait_deferred (p : Pod) : (p.unwait).deferred = p.deferred := rfl
@[simp] theorem Pod.unwait_serial (p : Pod) : (p.unwait).serial = p.serial := rfl
@[simp] theorem Pod.unwait_wait (p : Pod) : (p.unwait).wait = none := rfl
@[simp] theorem Pod.unwait_raised (p : Pod) : (p.unwait).raised = p.raised := rfl
@[simp] theorem Pod.unwait_reasons (p : Pod) : (p.unwait).reasons = p.reasons := rfl
@[simp] theorem Pod.unwait_resumeAt (p : Pod) : (p.unwait).resumeAt = p.resumeAt := rfl
@[simp] theorem Pod.unwait_inside (p : Pod) : (p.unwait).inside = p.inside := rfl
@[simp] theorem Pod.unwait_syncDone (p : Pod) : (p.unwait).syncDone = p.syncDone := rfl
@[simp] theorem Pod.unwait_arrived (p : Pod) : (p.unwait).arrived = false := rfl
@[simp] theorem Pod.unwait_collDone (p : Pod) : (p.unwait).collDone = p.collDone := rfl
@[simp] theorem Pod.unwait_joined (p : Pod) : (p.unwait).joined = p.joined := rfl
@[simp] theorem Pod.unwait_joinedAt (p : Pod) : (p.unwait).joinedAt = p.joinedAt := rfl
@[simp] theorem Pod.unwait_startCtl (p : Pod) : (p.unwait).startCtl = p.startCtl := rfl
@[simp] theorem Pod.unwait_waited (p : Pod) : (p.unwait).waited = p.waited := rfl
@[simp] theorem Pod.unwait_phased (p : Pod) : (p.unwait).phased = false := rfl
@[simp] theorem Pod.unwait_done (p : Pod) : (p.unwait).done = p.done := rfl
@[simp] theorem Pod.unwait_halted (p : Pod) : (p.unwait).halted = p.halted := rfl
@[simp] theorem Pod.unwait_stepping (p : Pod) : (p.unwait).stepping = p.stepping := rfl
@[simp] theorem Pod.unwait_bpPass (p : Pod) : (p.unwait).bpPass = p.bpPass := rfl
@[simp] theorem Pod.unwait_ofence (p : Pod) : (p.unwait).ofence = p.ofence := rfl
@[simp] theorem Pod.unwait_bad (p : Pod) : (p.unwait).bad = p.bad := rfl
@[simp] theorem Pod.unwait_sched (p : Pod) : (p.unwait).sched = p.sched := rfl

@[simp] theorem Team.setRing_id (t : Team) (r : Nat) (x : Ring) : (t.setRing r x).id = t.id := rfl
@[simp] theorem Team.setRing_kernel (t : Team) (r : Nat) (x : Ring) : (t.setRing r x).kernel = t.kernel := rfl
@[simp] theorem Team.setRing_x (t : Team) (r : Nat) (x : Ring) : (t.setRing r x).x = t.x := rfl
@[simp] theorem Team.setRing_y (t : Team) (r : Nat) (x : Ring) : (t.setRing r x).y = t.y := rfl
@[simp] theorem Team.setRing_z (t : Team) (r : Nat) (x : Ring) : (t.setRing r x).z = t.z := rfl
@[simp] theorem Team.setRing_nteam (t : Team) (r : Nat) (x : Ring) : (t.setRing r x).nteam = t.nteam := rfl
@[simp] theorem Team.setRing_depth (t : Team) (r : Nat) (x : Ring) : (t.setRing r x).depth = t.depth := rfl
@[simp] theorem Team.setRing_queue (t : Team) (r : Nat) (x : Ring) : (t.setRing r x).queue = t.queue := rfl
@[simp] theorem Team.setRing_asn (t : Team) (r : Nat) (x : Ring) : (t.setRing r x).asn = t.asn := rfl
@[simp] theorem Team.setRing_ptroot (t : Team) (r : Nat) (x : Ring) : (t.setRing r x).ptroot = t.ptroot := rfl
@[simp] theorem Team.setRing_args (t : Team) (r : Nat) (x : Ring) : (t.setRing r x).args = t.args := rfl
@[simp] theorem Team.setRing_prec (t : Team) (r : Nat) (x : Ring) : (t.setRing r x).prec = t.prec := rfl
@[simp] theorem Team.setRing_core (t : Team) (r : Nat) (x : Ring) : (t.setRing r x).core = t.core := rfl
@[simp] theorem Team.setRing_place (t : Team) (r : Nat) (x : Ring) : (t.setRing r x).place = t.place := rfl
@[simp] theorem Team.setRing_start (t : Team) (r : Nat) (x : Ring) : (t.setRing r x).start = t.start := rfl
@[simp] theorem Team.setRing_phase (t : Team) (r : Nat) (x : Ring) : (t.setRing r x).phase = t.phase := rfl
@[simp] theorem Team.setRing_irrev (t : Team) (r : Nat) (x : Ring) : (t.setRing r x).irrev = t.irrev := rfl
@[simp] theorem Team.setRing_ctag (t : Team) (r : Nat) (x : Ring) : (t.setRing r x).ctag = t.ctag := rfl
@[simp] theorem Team.setRing_shared (t : Team) (r : Nat) (x : Ring) : (t.setRing r x).shared = t.shared := rfl
@[simp] theorem Team.setRing_badShared (t : Team) (r : Nat) (x : Ring) : (t.setRing r x).badShared = t.badShared := rfl
@[simp] theorem Team.setRing_stash (t : Team) (r : Nat) (x : Ring) : (t.setRing r x).stash = t.stash := rfl
@[simp] theorem Team.setRing_rcb (t : Team) (r : Nat) (x : Ring) : (t.setRing r x).rcb = t.rcb := rfl
@[simp] theorem Team.setRing_tiles (t : Team) (r : Nat) (x : Ring) : (t.setRing r x).tiles = t.tiles := rfl
@[simp] theorem Team.setRing_tileAt (t : Team) (r : Nat) (x : Ring) : (t.setRing r x).tileAt = t.tileAt := rfl
@[simp] theorem Team.setRing_oldShared (t : Team) (r : Nat) (x : Ring) : (t.setRing r x).oldShared = t.oldShared := rfl
@[simp] theorem Team.setRing_xchg (t : Team) (r : Nat) (x : Ring) : (t.setRing r x).xchg = t.xchg := rfl
@[simp] theorem Team.setRing_insts (t : Team) (r : Nat) (x : Ring) : (t.setRing r x).insts = t.insts := rfl
@[simp] theorem Team.setRing_syncN (t : Team) (r : Nat) (x : Ring) : (t.setRing r x).syncN = t.syncN := rfl
@[simp] theorem Team.setRing_trxN (t : Team) (r : Nat) (x : Ring) : (t.setRing r x).trxN = t.trxN := rfl
@[simp] theorem Team.setRing_tranN (t : Team) (r : Nat) (x : Ring) : (t.setRing r x).tranN = t.tranN := rfl
@[simp] theorem Team.setRing_children (t : Team) (r : Nat) (x : Ring) : (t.setRing r x).children = t.children := rfl
@[simp] theorem Team.setRing_mailboxes (t : Team) (r : Nat) (x : Ring) : (t.setRing r x).mailboxes = t.mailboxes := rfl
@[simp] theorem Team.setRing_fetched (t : Team) (r : Nat) (x : Ring) : (t.setRing r x).fetched = t.fetched := rfl
@[simp] theorem Team.setRing_handed (t : Team) (r : Nat) (x : Ring) : (t.setRing r x).handed = t.handed := rfl
@[simp] theorem Team.setRing_watch (t : Team) (r : Nat) (x : Ring) : (t.setRing r x).watch = t.watch := rfl
@[simp] theorem Team.setRing_bps (t : Team) (r : Nat) (x : Ring) : (t.setRing r x).bps = t.bps := rfl
@[simp] theorem Team.setRing_halted (t : Team) (r : Nat) (x : Ring) : (t.setRing r x).halted = t.halted := rfl
@[simp] theorem Team.setRing_saving (t : Team) (r : Nat) (x : Ring) : (t.setRing r x).saving = t.saving := rfl
@[simp] theorem Team.setRing_stopped (t : Team) (r : Nat) (x : Ring) : (t.setRing r x).stopped = t.stopped := rfl
@[simp] theorem Team.setRing_lost (t : Team) (r : Nat) (x : Ring) : (t.setRing r x).lost = t.lost := rfl
@[simp] theorem Team.setRing_sums (t : Team) (r : Nat) (x : Ring) : (t.setRing r x).sums = t.sums := rfl
@[simp] theorem Team.setRing_single (t : Team) (r : Nat) (x : Ring) : (t.setRing r x).single = t.single := rfl
@[simp] theorem Team.setRing_matched (t : Team) (r : Nat) (x : Ring) : (t.setRing r x).matched = t.matched := rfl
@[simp] theorem Team.setRing_avoid (t : Team) (r : Nat) (x : Ring) : (t.setRing r x).avoid = t.avoid := rfl
@[simp] theorem Team.setRing_kept (t : Team) (r : Nat) (x : Ring) : (t.setRing r x).kept = t.kept := rfl
@[simp] theorem Team.setRing_placed (t : Team) (r : Nat) (x : Ring) : (t.setRing r x).placed = t.placed := rfl
@[simp] theorem Team.setRing_outstanding (t : Team) (r : Nat) (x : Ring) : (t.setRing r x).outstanding = t.outstanding := rfl
@[simp] theorem Team.setRing_recorded (t : Team) (r : Nat) (x : Ring) : (t.setRing r x).recorded = t.recorded := rfl
@[simp] theorem Team.setRing_rings (t : Team) (r : Nat) (x : Ring) : (t.setRing r x).rings = t.rings.set r x := rfl

end Sys2Proof.Machine
end

