-- ==== Sys2Proof/Laws/Registers.lean ====
section
/-! SUPPORT. Laws of registers, tags, predicates and masks: what a write leaves and what a read after it gives. -/
namespace Sys2Proof.Machine

/-! ## v registers -/

theorem Pod.wrRun_v (p : Pod) (t r n x : Nat) : p.wrRun t r n x = { p with v := (p.wrRun t r n x).v, bad := (p.wrRun t r n x).bad } := by
  induction n generalizing p r x with
  | zero => rfl
  | succ n ih => rw [Pod.wrRun, ih]; rfl

/-- A write takes the marks of uncorrectable data of its registers alone. -/
theorem Pod.wrRun_bad (p : Pod) (t r n x i : Nat) (h : ¬ (t * 1024 + r ≤ i ∧ i < t * 1024 + r + n)) :
    i ∈ (p.wrRun t r n x).bad ↔ i ∈ p.bad := by
  induction n generalizing p r x with
  | zero => rfl
  | succ n ih =>
    rw [Pod.wrRun, ih _ _ _ (by omega), Pod.wrV_bad, List.mem_filter]
    have : i ≠ t * 1024 + r := by omega
    simp [this]

theorem Pod.wrRun_get (p : Pod) (t r n x i : Nat) :
    (p.wrRun t r n x).v.get i =
      if t * 1024 + r ≤ i ∧ i < t * 1024 + r + n then BitVec.ofNat 32 (x / 2 ^ (32 * (i - (t * 1024 + r)))) else p.v.get i := by
  induction n generalizing p r x with
  | zero => simp only [Pod.wrRun]; rw [if_neg (by omega)]
  | succ n ih =>
    simp only [Pod.wrRun, ih, Pod.wrV_v, Cells.get_set]
    by_cases h : i = t * 1024 + r
    · subst h
      rw [if_neg (by omega), if_pos rfl, if_pos (by omega)]; simp
    · rw [if_neg h]
      by_cases h2 : t * 1024 + (r + 1) ≤ i ∧ i < t * 1024 + (r + 1) + n
      · rw [if_pos h2, if_pos (show t * 1024 + r ≤ i ∧ i < t * 1024 + r + (n + 1) by omega), Nat.div_div_eq_div_mul,
          ← Nat.pow_add, show 32 + 32 * (i - (t * 1024 + (r + 1))) = 32 * (i - (t * 1024 + r)) by omega]
      · rw [if_neg h2, if_neg (show ¬ (t * 1024 + r ≤ i ∧ i < t * 1024 + r + (n + 1)) by omega)]

theorem ofNat32_run (x n : Nat) : ∀ k, ((List.range' k n).foldr (fun j a => (BitVec.ofNat 32 (x / 2 ^ (32 * j))).toNat + 2 ^ 32 * a) 0) =
    x / 2 ^ (32 * k) % 2 ^ (32 * n) := by
  induction n with
  | zero => intro k; simp [Nat.mod_one]
  | succ n ih =>
    intro k
    rw [List.range'_succ, List.foldr_cons, ih, BitVec.toNat_ofNat]
    rw [show 32 * (k + 1) = 32 * k + 32 by omega, Nat.pow_add, ← Nat.div_div_eq_div_mul,
      show 32 * (n + 1) = 32 + 32 * n by omega, Nat.pow_add 2 32, Nat.mod_mul]

theorem Pod.rdRun_of_get (p : Pod) (t r n x k : Nat)
    (h : ∀ j < n, p.v.get (t * 1024 + r + j) = BitVec.ofNat 32 (x / 2 ^ (32 * (k + j)))) :
    p.rdRun t r n = x / 2 ^ (32 * k) % 2 ^ (32 * n) := by
  rw [← ofNat32_run]
  induction n generalizing r k with
  | zero => rfl
  | succ n ih =>
    simp only [Pod.rdRun, List.range'_succ, List.foldr_cons, Pod.rdV]
    have h0 := h 0 (by omega)
    simp only [Nat.add_zero] at h0
    rw [h0, ih (r + 1) (k + 1)]
    intro j hj
    have := h (j + 1) (by omega)
    rw [show t * 1024 + (r + 1) + j = t * 1024 + r + (j + 1) by omega, this]
    congr 4; omega

theorem Pod.rdRun_congr {p q : Pod} (h : p.v = q.v) (t r n : Nat) : p.rdRun t r n = q.rdRun t r n := by
  induction n generalizing r with
  | zero => rfl
  | succ n ih => simp only [Pod.rdRun, Pod.rdV, h, ih]

/-- The runs that the results of some threads write, in one destination. -/
def wrRuns (p : Pod) (r n : Nat) (rs : List (Nat × Nat)) : Pod := rs.foldl (fun p x => p.wrRun x.1 r n x.2) p

theorem wrRuns_v (p : Pod) (r n : Nat) (rs : List (Nat × Nat)) :
    wrRuns p r n rs = { p with v := (wrRuns p r n rs).v, bad := (wrRuns p r n rs).bad } := by
  induction rs generalizing p with
  | nil => rfl
  | cons x rs ih => rw [wrRuns, List.foldl_cons, ← wrRuns, ih, Pod.wrRun_v]

theorem wrRuns_bad (p : Pod) (r n : Nat) (rs : List (Nat × Nat)) (i : Nat)
    (h : ∀ x ∈ rs, ¬ (x.1 * 1024 + r ≤ i ∧ i < x.1 * 1024 + r + n)) : i ∈ (wrRuns p r n rs).bad ↔ i ∈ p.bad := by
  induction rs generalizing p with
  | nil => rfl
  | cons x rs ih =>
    rw [wrRuns, List.foldl_cons, ← wrRuns, ih _ (fun y hy => h y (List.mem_cons_of_mem _ hy)),
      Pod.wrRun_bad _ _ _ _ _ _ (h x List.mem_cons_self)]

theorem wrRuns_other (p : Pod) (r n : Nat) (rs : List (Nat × Nat)) (i : Nat)
    (h : ∀ x ∈ rs, ¬ (x.1 * 1024 + r ≤ i ∧ i < x.1 * 1024 + r + n)) : (wrRuns p r n rs).v.get i = p.v.get i := by
  induction rs generalizing p with
  | nil => rfl
  | cons x rs ih =>
    rw [wrRuns, List.foldl_cons, ← wrRuns, ih _ (fun y hy => h y (List.mem_cons_of_mem _ hy)), Pod.wrRun_get,
      if_neg (h x List.mem_cons_self)]

theorem wrRuns_rdRun (p : Pod) (r n : Nat) (rs : List (Nat × Nat)) (hn : r + n ≤ 1024) (hd : (rs.map (·.1)).Nodup)
    (x : Nat × Nat) (hx : x ∈ rs) : (wrRuns p r n rs).rdRun x.1 r n = x.2 % 2 ^ (32 * n) := by
  rw [Pod.rdRun_of_get _ x.1 r n x.2 0]
  · simp
  · intro j hj
    induction rs generalizing p with
    | nil => cases hx
    | cons y rs ih =>
      rw [wrRuns, List.foldl_cons, ← wrRuns]
      simp only [List.map_cons, List.nodup_cons] at hd
      rcases List.mem_cons.mp hx with h | h
      · subst h
        rw [wrRuns_other, Pod.wrRun_get, if_pos (by omega)]
        · congr 3; omega
        · intro z hz hh
          have : z.1 ≠ x.1 := fun e => hd.1 (e ▸ List.mem_map_of_mem hz)
          omega
      · exact ih _ hd.2 h

theorem Pod.wrTags_tags (p : Pod) (tag : BitVec 5) (r n : Nat) : p.wrTags tag r n = { p with tags := (p.wrTags tag r n).tags } := by
  induction n with
  | zero => rfl
  | succ n ih => rw [Pod.wrTags, ih]

theorem Pod.wrTags_rdRun (p : Pod) (tag : BitVec 5) (r n t q m : Nat) : (p.wrTags tag r n).rdRun t q m = p.rdRun t q m :=
  Pod.rdRun_congr (by rw [Pod.wrTags_tags]) ..

theorem Pod.wrTags_get (p : Pod) (tag : BitVec 5) (r n i : Nat) :
    (p.wrTags tag r n).tags.get i = if r ≤ i ∧ i < r + n then tag else p.tags.get i := by
  induction n with
  | zero => simp only [Pod.wrTags]; rw [if_neg (by omega)]
  | succ n ih =>
    simp only [Pod.wrTags, Cells.get_set, ih]
    by_cases h : i = r + n
    · rw [if_pos h, if_pos (by omega)]
    · rw [if_neg h]; by_cases h2 : r ≤ i ∧ i < r + n
      · rw [if_pos h2, if_pos (by omega)]
      · rw [if_neg h2, if_neg (by omega)]

/-! ## k registers -/

theorem Pod.wrK_kb (p : Pod) (r : Nat) (x : Word) :
    p.wrK r x = { p with k := (p.wrK r x).k, bank := (p.wrK r x).bank, bad := (p.wrK r x).bad } := by
  unfold Pod.wrK; split <;> rfl

theorem Pod.wrKRun_kb (p : Pod) (r n x : Nat) :
    p.wrKRun r n x = { p with k := (p.wrKRun r n x).k, bank := (p.wrKRun r n x).bank, bad := (p.wrKRun r n x).bad } := by
  induction n generalizing p r x with
  | zero => rfl
  | succ n ih => rw [Pod.wrKRun, ih, Pod.wrK_kb]

theorem Pod.wrK_bad (p : Pod) (r : Nat) (x : Word) (i : Nat) (h : i ≠ 2 ^ 20 + r) : i ∈ (p.wrK r x).bad ↔ i ∈ p.bad := by
  unfold Pod.wrK; split
  · rfl
  · rw [List.mem_filter]; exact and_iff_left (bne_iff_ne.mpr h)

theorem Pod.wrKRun_bad (p : Pod) (r n x i : Nat) (h : ¬ (2 ^ 20 + r ≤ i ∧ i < 2 ^ 20 + r + n)) :
    i ∈ (p.wrKRun r n x).bad ↔ i ∈ p.bad := by
  induction n generalizing p r x with
  | zero => rfl
  | succ n ih => rw [Pod.wrKRun, ih _ _ _ (by omega), Pod.wrK_bad _ _ _ _ (by omega)]

theorem Pod.rdK_wrK (p : Pod) (r j : Nat) (x : Word) : (p.wrK r x).rdK j = if j = r then x else p.rdK j := by
  unfold Pod.wrK Pod.rdK
  by_cases ht : p.trapLevel = true <;> by_cases hr : 60 ≤ r <;> by_cases hj : 60 ≤ j <;> simp [ht, hr, hj]
  · by_cases h : j = r
    · subst h; simp
    · rw [if_neg (by omega), if_neg h]
  · intro h; omega
  · intro h; omega

theorem Pod.wrK_bank (p : Pod) (r : Nat) (x : Word) (h : p.trapLevel = false) : (p.wrK r x).bank = p.bank := by
  simp [Pod.wrK, h]

theorem Pod.wrK_hidden (p : Pod) (r j : Nat) (x : Word) (h : p.trapLevel = true) (hj : 60 ≤ j) : (p.wrK r x).k.get j = p.k.get j := by
  unfold Pod.wrK; split
  · rfl
  · rename_i hn; simp only [Bool.and_eq_true, decide_eq_true_eq, not_and, h, true_implies] at hn
    simp only [Cells.get_set]; rw [if_neg (by omega)]

theorem Pod.wrK_trapLevel (p : Pod) (r : Nat) (x : Word) : (p.wrK r x).trapLevel = p.trapLevel := by rw [Pod.wrK_kb]

theorem Pod.rdK_wrKRun (p : Pod) (r n x j : Nat) :
    (p.wrKRun r n x).rdK j = if r ≤ j ∧ j < r + n then BitVec.ofNat 32 (x / 2 ^ (32 * (j - r))) else p.rdK j := by
  induction n generalizing p r x with
  | zero => simp only [Pod.wrKRun]; rw [if_neg (by omega)]
  | succ n ih =>
    simp only [Pod.wrKRun, ih, Pod.rdK_wrK]
    by_cases h : j = r
    · subst h
      rw [if_neg (by omega), if_pos rfl, if_pos (by omega)]; simp
    · rw [if_neg h]
      by_cases h2 : r + 1 ≤ j ∧ j < r + 1 + n
      · rw [if_pos h2, if_pos (show r ≤ j ∧ j < r + (n + 1) by omega), Nat.div_div_eq_div_mul, ← Nat.pow_add,
          show 32 + 32 * (j - (r + 1)) = 32 * (j - r) by omega]
      · rw [if_neg h2, if_neg (show ¬ (r ≤ j ∧ j < r + (n + 1)) by omega)]

theorem Pod.wrKRun_bank (p : Pod) (r n x : Nat) (h : p.trapLevel = false) : (p.wrKRun r n x).bank = p.bank := by
  induction n generalizing p r x with
  | zero => rfl
  | succ n ih => rw [Pod.wrKRun, ih _ _ _ (by rw [Pod.wrK_trapLevel]; exact h), Pod.wrK_bank _ _ _ h]

theorem Pod.wrKRun_hidden (p : Pod) (r n x j : Nat) (h : p.trapLevel = true) (hj : 60 ≤ j) :
    (p.wrKRun r n x).k.get j = p.k.get j := by
  induction n generalizing p r x with
  | zero => rfl
  | succ n ih => rw [Pod.wrKRun, ih _ _ _ (by rw [Pod.wrK_trapLevel]; exact h), Pod.wrK_hidden _ _ _ _ h hj]

theorem Pod.rdKRun_wrKRun (p : Pod) (r n x : Nat) : (p.wrKRun r n x).rdKRun r n = x % 2 ^ (32 * n) := by
  suffices h : ∀ (q : Pod) (r n k : Nat), (∀ j < n, q.rdK (r + j) = BitVec.ofNat 32 (x / 2 ^ (32 * (k + j)))) →
      q.rdKRun r n = x / 2 ^ (32 * k) % 2 ^ (32 * n) by
    rw [h _ r n 0]
    · simp
    · intro j hj; rw [Pod.rdK_wrKRun, if_pos (by omega)]; congr 3; omega
  intro q r n k h
  rw [← ofNat32_run]
  induction n generalizing r k with
  | zero => rfl
  | succ n ih =>
    simp only [Pod.rdKRun, List.range'_succ, List.foldr_cons]
    have h0 := h 0 (by omega)
    simp only [Nat.add_zero] at h0
    rw [h0, ih (r + 1) (k + 1)]
    intro j hj
    have := h (j + 1) (by omega)
    rw [show r + 1 + j = r + (j + 1) by omega, this]
    congr 4; omega

/-! ## Sets of threads -/

theorem one_getLsbD (t i : Nat) (h : i < 128) : (one t).getLsbD i = decide (t = i) := by
  simp only [one, BitVec.getLsbD_ofNat, h, decide_true, Bool.true_and]
  rw [Nat.testBit_two_pow]

theorem foldl_or_getLsbD (l : List Nat) (m : Mask) (i : Nat) (h : i < 128) :
    (l.foldl (fun m t => m ||| one t) m).getLsbD i = (m.getLsbD i || decide (i ∈ l)) := by
  induction l generalizing m with
  | nil => simp
  | cons t l ih =>
    rw [List.foldl_cons, ih, BitVec.getLsbD_or, one_getLsbD _ _ h]
    by_cases e : t = i
    · subst e; simp
    · have e' : i ≠ t := fun h => e h.symm
      simp [e, e']

/-- Bit `i` of the set of a list of threads. -/
theorem maskOf_getLsbD (l : List Nat) (i : Nat) (h : i < 128) : (maskOf l).getLsbD i = decide (i ∈ l) := by
  rw [maskOf, foldl_or_getLsbD _ _ _ h]; simp

theorem threadsOf_lt (w : Nat) (m : Mask) (t : Nat) (h : t ∈ threadsOf w m) : t < 128 := by
  simp only [threadsOf, List.mem_filter] at h
  exact BitVec.lt_of_getLsbD h.2

theorem threadsOf_nodup (w : Nat) (m : Mask) : (threadsOf w m).Nodup := List.nodup_range.filter _

/-! ## Predicates and group masks -/

theorem Pod.wrPred_p (p : Pod) (n : Nat) (m x : Mask) : p.wrPred n m x = { p with p := (p.wrPred n m x).p } := by
  unfold Pod.wrPred; split <;> rfl

/-- Predicate `j` of a thread after a write of predicate `n` in the threads of `m`. -/
theorem Pod.predMask_wrPred (p : Pod) (n j : Nat) (m x : Mask) (u : Nat) :
    ((p.wrPred n m x).predMask j).getLsbD u =
      if j = n ∧ n ≠ 0 ∧ m.getLsbD u = true then x.getLsbD u else (p.predMask j).getLsbD u := by
  unfold Pod.wrPred
  by_cases hn : n = 0
  · rw [if_pos hn, if_neg (by omega)]
  · rw [if_neg hn]
    unfold Pod.predMask
    by_cases hj : j = 0
    · subst hj; rw [if_pos rfl, if_pos rfl, if_neg (by omega)]
    · rw [if_neg hj, if_neg hj]
      simp only [Cells.get_set]
      by_cases e : j = n
      · subst e
        by_cases hm : m.getLsbD u = true
        · have hu : u < 128 := BitVec.lt_of_getLsbD hm
          simp only [hn, hm, ne_eq, not_false_eq_true, and_self, if_true, BitVec.getLsbD_or, BitVec.getLsbD_and, BitVec.getLsbD_not, hu, decide_true, Bool.not_true, Bool.and_false, Bool.and_true, Bool.false_or]
        · simp only [Bool.not_eq_true] at hm
          simp [hn, hm]
          intro h
          exact BitVec.lt_of_getLsbD h
      · simp [e]

theorem Pod.rdG_wrG (p : Pod) (n j : Nat) (x : Mask) :
    (p.wrG n x).rdG j = if j = n then x &&& full p.width else p.rdG j := by
  simp only [Pod.rdG, Pod.wrG_g, Pod.wrG_width, Cells.get_set]
  split
  · rw [BitVec.and_assoc, BitVec.and_self]
  · rfl

end Sys2Proof.Machine
end

