-- ==== Sys2Proof/Laws/Issue.lean ====
section
/-! SUPPORT. Laws of one issue: event counters, retirement, the claim of popped elements, and the effect of an instruction whose pod can
issue it. -/
namespace Sys2Proof.Machine

open Claims

/-! ## Event counters (R511) -/

/-- What counting can change. -/
def CountsOnly (core : Nat) (s t : State) : Prop :=
  t = { s with ecnt := t.ecnt, free := t.free } ∧ ∀ n, n / 8 ≠ core → t.ecnt.get n = s.ecnt.get n

theorem CountsOnly.refl (core : Nat) (s : State) : CountsOnly core s s := ⟨rfl, fun _ _ => rfl⟩

theorem CountsOnly.trans {core : Nat} {s t u : State} (a : CountsOnly core s t) (b : CountsOnly core t u) : CountsOnly core s u := by
  refine ⟨?_, fun n h => (b.2 n h).trans (a.2 n h)⟩
  rw [b.1, a.1]

theorem foldl_countsOnly (core : Nat) (f : State → Nat → State) (l : List Nat) (s : State)
    (h : ∀ s, ∀ i ∈ l, CountsOnly core s (f s i)) : CountsOnly core s (l.foldl f s) := by
  induction l generalizing s with
  | nil => exact .refl ..
  | cons i l ih =>
    exact (h s i List.mem_cons_self).trans (ih _ fun s j hj => h s j (List.mem_cons_of_mem _ hj))

theorem State.countEvent_only (s : State) (core code : Nat) : CountsOnly core s (s.countEvent core code) := by
  refine foldl_countsOnly core _ _ _ fun s i hi => ?_
  have hi := List.mem_range.mp hi
  split
  · refine ⟨rfl, fun n hn => ?_⟩
    simp only [Cells.get_set]; rw [if_neg]; omega
  · exact .refl ..

theorem State.countOpen_only (s : State) (core code : Nat) : CountsOnly core s (s.countOpen core code) := by
  refine foldl_countsOnly core _ _ _ fun s i hi => ?_
  have hi := List.mem_range.mp hi
  split
  · refine ⟨rfl, fun n hn => ?_⟩
    simp only [Cells.get_set]; rw [if_neg]; omega
  · exact .refl ..

theorem State.countLanes_only (s : State) (core : Nat) (use : Option Nat) : CountsOnly core s (s.countLanes core use) := by
  unfold State.countLanes
  split
  · exact State.countOpen_only ..
  · refine foldl_countsOnly core _ _ _ fun s i hi => ?_
    have hi := List.mem_range.mp hi
    split
    · refine ⟨rfl, fun n hn => ?_⟩
      simp only [Cells.get_set]; rw [if_neg]; omega
    · exact .refl ..

theorem State.countIssue_only (s : State) (core : Nat) (uni : Bool) (use : Option Nat) :
    CountsOnly core s (s.countIssue core uni use) := by
  unfold State.countIssue
  split
  · exact .refl ..
  · exact (((State.countEvent_only ..).trans (State.countLanes_only ..)).trans (State.countOpen_only ..)).trans
      (State.countOpen_only ..)

theorem State.countIssue_off (s : State) (core : Nat) (uni : Bool) (use : Option Nat) (h : s.esel = []) :
    s.countIssue core uni use = s := by
  simp [State.countIssue, h]

/-! ## Retirement -/

theorem Pod.setCtl_frame (p : Pod) (c : List ThreadCtl) :
    p.setCtl c = { p with user := (p.setCtl c).user, trap := (p.setCtl c).trap } := by unfold Pod.setCtl; split <;> rfl

theorem Pod.setLoops_frame (p : Pod) (l : List LoopEntry) :
    p.setLoops l = { p with loops := (p.setLoops l).loops, trapLoops := (p.setLoops l).trapLoops } := by
  unfold Pod.setLoops; split <;> rfl

/-- Retirement changes the control state of the current level only. -/
theorem Pod.retire_frame (p : Pod) (this : Dword) (d : Nat) (act moved : Mask) :
    p.retire this d act moved = { p with
      user := (p.retire this d act moved).user, loops := (p.retire this d act moved).loops
      trap := (p.retire this d act moved).trap, trapLoops := (p.retire this d act moved).trapLoops } := by
  have h1 : ∀ (q : Pod) (m : Mask) (a : Dword), q.goto m a = { q with user := (q.goto m a).user, trap := (q.goto m a).trap } :=
    fun q m a => Pod.setCtl_frame q _
  have h2 : ∀ q : Pod, q.popEmpty = { q with loops := q.popEmpty.loops, trapLoops := q.popEmpty.trapLoops } :=
    fun q => Pod.setLoops_frame q _
  unfold Pod.retire
  dsimp only
  split
  · rw [h2]
  · split <;> (rw [h2, h1, Pod.setLoops_frame])

/-- What moving threads can change. -/
def CtlOnly (p q : Pod) : Prop := q = { p with user := q.user, trap := q.trap }

theorem Pod.goto_ctl (p : Pod) (m : Mask) (a : Dword) : CtlOnly p (p.goto m a) := Pod.setCtl_frame p _

theorem Pod.gotos_ctl (l : List TxThread) (p : Pod) :
    CtlOnly p (l.foldl (fun (q : Pod) x => q.goto (one x.thread) x.resume) p) := by
  induction l generalizing p with
  | nil => rfl
  | cons x l ih =>
    have a := Pod.goto_ctl p (one x.thread) x.resume
    have b := ih (p.goto (one x.thread) x.resume)
    simp only [List.foldl_cons]
    unfold CtlOnly at a b ⊢
    rw [b, a]

/-- A pod of which threads have aborted their transactions changes their control and transaction state only (R262). -/
theorem Pod.leaveTx_frame (p : Pod) : p.leaveTx = { p with user := p.leaveTx.user, trap := p.leaveTx.trap, tx := p.leaveTx.tx } := by
  unfold Pod.leaveTx
  split
  · rfl
  · have h := Pod.gotos_ctl (p.tx.filter fun x => x.leaving && x.trap == p.trapLevel) p
    dsimp only
    generalize (p.tx.filter fun x => x.leaving && x.trap == p.trapLevel).foldl
      (fun (q : Pod) x => q.goto (one x.thread) x.resume) p = q at h ⊢
    unfold CtlOnly at h
    rw [h]

/-- What retirement leaves. -/
theorem Pod.gone_frame (p : Pod) (this : Dword) (d : Nat) (act moved : Mask) :
    (p.retire this d act moved).leaveTx = { p with
      user := (p.retire this d act moved).leaveTx.user, loops := (p.retire this d act moved).leaveTx.loops
      trap := (p.retire this d act moved).leaveTx.trap, trapLoops := (p.retire this d act moved).leaveTx.trapLoops
      tx := (p.retire this d act moved).leaveTx.tx } := by
  rw [Pod.leaveTx_frame, Pod.retire_frame]

/-- A completion of a pod that is neither stepped nor halted, whole (R41, R262). -/
theorem State.complete_eq (c : Ctx) (u : State) (moved : Mask) (h : u.pod.stepping = false) (hh : u.pod.halted = false) :
    u.complete c.this c.s.pod.depth c.act moved = { u with pod := retired c moved u, progress := u.progress + 1 } := by
  have h1 : (u.pod.retire c.this c.s.pod.depth c.act moved).leaveTx.stepping = false := by rw [Pod.gone_frame]; exact h
  have h2 : (u.pod.retire c.this c.s.pod.depth c.act moved).leaveTx.halted = false := by rw [Pod.gone_frame]; exact hh
  exact (if_neg (by rw [h1]; exact Bool.false_ne_true)).trans (if_neg (by rw [h2]; exact Bool.false_ne_true))

theorem retires_of (c : Ctx) (moved : Mask) (u : State) (uni : Bool) (use : Option Nat) (hs : u.pod.stepping = false)
    (hh : u.pod.halted = false) : Retires c moved u ((u.complete c.this c.s.pod.depth c.act moved).countIssue c.s.core uni use) := by
  have hc := State.complete_eq c u moved hs hh
  have ho := State.countIssue_only (u.complete c.this c.s.pod.depth c.act moved) c.s.core uni use
  generalize hx : (u.complete c.this c.s.pod.depth c.act moved).countIssue c.s.core uni use = t at ho ⊢
  have h1 := ho.1
  have h2 := ho.2
  rw [hc] at h1 h2
  refine ⟨h1, ⟨fun h0 => ?_, h2⟩, ?_⟩
  · rw [State.countIssue_off _ _ _ _ (by rw [hc]; exact h0), hc] at hx
    rw [← hx]; exact ⟨rfl, rfl⟩
  · intro a; rw [h1]; rfl

/-! ## The effect of an issue -/

theorem issue_of_ready {i : Instr} {h : Head} {sp : Spec} {s : State} (r : Ready i h sp s) (body : Ctx → Eff) :
    issue i h sp body s = .next (if (body (issueCtx s h sp)).holds then s.begin.finish (issueCtx s h sp) (body (issueCtx s h sp))
      else (s.begin.finish (issueCtx s h sp) (body (issueCtx s h sp))).countIssue s.core (issueCtx s h sp).uni
        ((issueCtx s h sp).laneUse i (body (issueCtx s h sp)))) := by
  have h1 : s.begin.pod.waitsOn h = false := r.unflagged
  have h2 : s.begin.pod.dueFaults h.wait = [] := r.quiet
  have h3 : s.begin.podCheck i h sp = none := r.passes
  have h5 : s.begin.readsBad h sp = false := r.sound
  have h6 : s.begin.accView sp = (s.begin.pod, s.begin) := by
    have : s.begin.accTouched sp = false := r.apart
    unfold State.accView; rw [this]; rfl
  have h4 : (s.begin.ctx h sp).eff.isEmpty = false := by
    have := r.effective; unfold issueCtx at this; revert this
    cases (s.begin.ctx h sp).eff <;> simp
  unfold issue
  simp only [h1, h2, h3, r.legal, h5, h6, Bool.false_eq_true, if_false]
  have h4' : (({ s.begin.ctx h sp with view := s.begin.pod } : Ctx)).eff.isEmpty = false := h4
  simp only [h4', Bool.false_and, Bool.false_eq_true, if_false]
  rfl

/-- An instruction that completes (R41). -/
theorem issue_done {i : Instr} {h : Head} {sp : Spec} {s : State} (r : Ready i h sp s) {body : Ctx → Eff} {u : State} {moved : Mask}
    (hb : body (issueCtx s h sp) = .done u moved) (hs : u.pod.stepping = false) (hh : u.pod.halted = false) :
    ∃ t, issue i h sp body s = .next t ∧ Retires (issueCtx s h sp) moved u t := by
  rw [issue_of_ready r, hb]
  refine ⟨_, rfl, ?_⟩
  exact retires_of (issueCtx s h sp) moved u (issueCtx s h sp).uni _ hs hh

end Sys2Proof.Machine
end

