-- ==== Sys2Proof/Laws/Lane.lean ====
section
/-! SUPPORT. The law of lane instructions: what a lane instruction whose pod can issue it, and whose ports are ready, does. -/
namespace Sys2Proof.Machine

open Claims

/-! ## What writes may touch -/

/-- The parts of the state in which the results of a lane instruction lie. -/
structure Local (s t : State) : Prop where
  state : t = { s with pod := t.pod, team := t.team }
  team : t.team = { s.team with rings := t.team.rings, stuck := t.team.stuck }
  pod : t.pod = { s.pod with v := t.pod.v, tags := t.pod.tags, k := t.pod.k, bank := t.pod.bank, p := t.pod.p, g := t.pod.g,
                             fl := t.pod.fl, seed := t.pod.seed, bad := t.pod.bad }

theorem Local.refl (s : State) : Local s s := ⟨rfl, rfl, rfl⟩

theorem Local.trans {s t u : State} (a : Local s t) (b : Local t u) : Local s u := by
  refine ⟨?_, ?_, ?_⟩
  · rw [b.state, a.state]
  · rw [b.team, a.team]
  · rw [b.pod, a.pod]

/-! ## Rings -/

theorem setRing_local (s : State) (n : Nat) (x : Ring) : Local s (s.setTeam (s.team.setRing n x)) := ⟨rfl, rfl, rfl⟩

theorem Ring.pop_zero (x : Ring) : x.pop 0 = x := by simp [Ring.pop]

/-- One pop from a list of rings. -/
def popList (f : Nat → Nat) (l : List Nat) (s : State) : State :=
  l.foldl (fun s r => match s.team.ring r with | none => s | some x => s.setTeam (s.team.setRing r (x.pop (f r)))) s

theorem Ctx.claim_eq (c : Ctx) (n : Nat) (s : State) : c.claim n s = popList (fun r => c.s.popsOf c.sp r * n) (c.s.ringsOf c.sp) s := rfl

theorem popList_pod (f : Nat → Nat) (l : List Nat) (s : State) : (popList f l s).pod = s.pod := by
  induction l generalizing s with
  | nil => rfl
  | cons r l ih =>
    rw [popList, List.foldl_cons, ← popList, ih]
    split <;> rfl

theorem popList_local (f : Nat → Nat) (l : List Nat) (s : State) : Local s (popList f l s) := by
  induction l generalizing s with
  | nil => exact .refl _
  | cons r l ih =>
    rw [popList, List.foldl_cons, ← popList]
    refine Local.trans ?_ (ih _)
    split
    · exact .refl _
    · exact setRing_local ..

theorem Team.ring_setRing (t : Team) (r m : Nat) (x : Ring) :
    (t.setRing r x).ring m = if r = m ∧ m < t.rings.length then some x else t.ring m := by
  simp only [Team.ring, Team.setRing_rings, List.getElem?_set]
  by_cases h : r = m
  · subst h
    by_cases h2 : r < t.rings.length
    · simp [h2]
    · simp [h2]
  · simp [h]

theorem ring_lt {t : Team} {m : Nat} {x : Ring} (h : t.ring m = some x) : m < t.rings.length :=
  (List.getElem?_eq_some_iff.mp h).1

theorem popList_ring (f : Nat → Nat) (l : List Nat) (s : State) (hl : l.Nodup) (m : Nat) :
    (popList f l s).team.ring m = if m ∈ l then (s.team.ring m).map (·.pop (f m)) else s.team.ring m := by
  induction l generalizing s with
  | nil => simp [popList]
  | cons r l ih =>
    rw [popList, List.foldl_cons, ← popList, ih _ (List.nodup_cons.mp hl).2]
    have hr := (List.nodup_cons.mp hl).1
    by_cases h : m = r
    · subst h
      rw [if_neg hr, if_pos List.mem_cons_self]
      cases e : s.team.ring m with
      | none => simp [e]
      | some x =>
        have hlt := ring_lt e
        simp [Team.ring_setRing, hlt]
    · have hm : (match s.team.ring r with | none => s | some x => s.setTeam (s.team.setRing r (x.pop (f r)))).team.ring m
          = s.team.ring m := by
        split
        · rfl
        · simp only [State.setTeam_team, Team.ring_setRing]; rw [if_neg (fun hh => h hh.1.symm)]
      rw [hm]; simp [h]

/-- Every ring after the claim of what `n` threads pop (R379). -/
theorem Ctx.claim_ring (c : Ctx) (n m : Nat) :
    (c.claim n c.s).team.ring m = (c.s.team.ring m).map fun x => x.pop (c.s.popsOf c.sp m * n) := by
  rw [Ctx.claim_eq, popList_ring _ _ _ (show (c.s.ringsOf c.sp).Nodup from List.nodup_range.filter _)]
  split
  · rfl
  · rename_i h
    cases e : c.s.team.ring m with
    | none => rfl
    | some x =>
      have hlt := ring_lt e
      have h0 : c.s.popsOf c.sp m = 0 := by
        refine Classical.byContradiction fun hp => h ?_
        rw [State.ringsOf, List.mem_filter]
        exact ⟨List.mem_range.mpr hlt, by simp [Nat.pos_of_ne_zero hp]⟩
      simp [h0, Ring.pop_zero]

theorem Ctx.claim_pod (c : Ctx) (n : Nat) (s : State) : (c.claim n s).pod = s.pod := popList_pod ..

theorem Ctx.claim_local (c : Ctx) (n : Nat) (s : State) : Local s (c.claim n s) := popList_local ..

/-! ## Writing the destination -/

theorem foldl_wrRun (p : Pod) (r n : Nat) (rs : List (Nat × LaneRes)) :
    rs.foldl (fun p x => p.wrRun x.1 r n x.2.val) p = wrRuns p r n (rs.map fun x => (x.1, x.2.val)) := by
  induction rs generalizing p with
  | nil => rfl
  | cons x rs ih => rw [List.foldl_cons, ih]; rfl

theorem setPod_local (s : State) (p : Pod)
    (h : p = { s.pod with
      v := p.v, tags := p.tags, k := p.k, bank := p.bank, p := p.p, g := p.g, fl := p.fl, seed := p.seed, bad := p.bad }) : Local s (s.setPod p) := ⟨rfl, rfl, h⟩

theorem wrTags_frame (l : List Nat) (q : Pod) (f : Pod → Nat → Bool) (tag : BitVec 5) (r : Nat) :
    let x := l.foldl (fun (p : Pod) i => if f p i then p else p.wrTags tag (r + i) 1) q
    x = { q with tags := x.tags } := by
  induction l generalizing q with
  | nil => rfl
  | cons i l ih =>
    simp only [List.foldl_cons] at ih ⊢
    rw [ih]
    split <;> rfl

/-- Tags written under held accumulators are tags alone. -/
theorem State.tagRun_tags (s : State) (p : Pod) (tag : BitVec 5) (r n : Nat) :
    s.tagRun p tag r n = { p with tags := (s.tagRun p tag r n).tags } := by
  unfold State.tagRun
  split
  · exact wrTags_frame (List.range n) p (fun p i => s.accHolds p.id (r + i) 1) tag r
  · exact Pod.wrTags_tags ..

/-- The destination of a context is no accumulator of a matrix operation that runs (R342). -/
def Apart (c : Ctx) : Prop :=
  ∀ d r, c.sp.dst = some d → classOf d.code = (.v, r) → c.s.accHolds c.s.pod.id r d.regs = false

theorem accHolds_congr {s t : State} (h : s.ops = t.ops) (p : PodId) (r n : Nat) : s.accHolds p r n = t.accHolds p r n := by
  unfold State.accHolds State.accOps; rw [h]

theorem Ctx.write_local (c : Ctx) (rs : List (Nat × LaneRes)) (s : State) : Local s (c.write rs s) := by
  unfold Ctx.write
  split
  · exact .refl _
  · split
    · split
      · exact .refl _
      · refine setPod_local _ _ ?_
        rw [State.tagRun_tags, foldl_wrRun, wrRuns_v]
    · split
      · exact .refl _
      · refine setPod_local _ _ ?_
        rw [Pod.wrKRun_kb]
    · refine setPod_local _ _ ?_
      rw [Pod.wrPred_p]
    · split
      · exact .refl _
      · exact setPod_local _ _ rfl
    · split
      · exact .refl _
      · exact setRing_local ..
    · exact .refl _

/-- Writes several predicates in the threads of `m`. -/
def wrPreds (m : Mask) (x : Nat → Mask) (also : List Nat) (p : Pod) : Pod := also.foldl (fun p n => p.wrPred n m (x n)) p

theorem wrPreds_p (m : Mask) (x : Nat → Mask) (also : List Nat) (p : Pod) :
    wrPreds m x also p = { p with p := (wrPreds m x also p).p } := by
  induction also generalizing p with
  | nil => rfl
  | cons n l ih => rw [wrPreds, List.foldl_cons, ← wrPreds, ih, Pod.wrPred_p]

theorem wrPreds_get (m : Mask) (x : Nat → Mask) (also : List Nat) (p : Pod) (j u : Nat) :
    ((wrPreds m x also p).predMask j).getLsbD u =
      if j ∈ also ∧ j ≠ 0 ∧ m.getLsbD u = true then (x j).getLsbD u else (p.predMask j).getLsbD u := by
  induction also generalizing p with
  | nil => simp [wrPreds]
  | cons n l ih =>
    rw [wrPreds, List.foldl_cons, ← wrPreds, ih, Pod.predMask_wrPred]
    by_cases hm : m.getLsbD u = true <;> by_cases h0 : j = 0 <;> by_cases h1 : j ∈ l <;> by_cases h2 : j = n <;> simp_all

/-- The threads of some results in which a predicate of the result holds. -/
def predsOf (preds : Nat → LaneRes → Bool) (rs : List (Nat × LaneRes)) (n : Nat) : Mask :=
  maskOf ((rs.filter fun x => preds n x.2).map (·.1))

/-- The predicates that an instruction writes besides its destination. -/
def alsoPreds (also : List Nat) (preds : Nat → LaneRes → Bool) (rs : List (Nat × LaneRes)) (s : State) : State :=
  s.setPod (wrPreds (maskOf (rs.map (·.1))) (predsOf preds rs) also s.pod)

theorem alsoPreds_pod (also : List Nat) (preds : Nat → LaneRes → Bool) (rs : List (Nat × LaneRes)) (s : State) :
    (alsoPreds also preds rs s).pod = wrPreds (maskOf (rs.map (·.1))) (predsOf preds rs) also s.pod := rfl

theorem alsoPreds_local (also : List Nat) (preds : Nat → LaneRes → Bool) (rs : List (Nat × LaneRes)) (s : State) :
    Local s (alsoPreds also preds rs s) := by
  refine setPod_local _ _ ?_
  rw [wrPreds_p]

theorem conditions_frame (rs : List (Nat × LaneRes)) (p : Pod) :
    Machine.conditions rs p = { p with fl := (Machine.conditions rs p).fl, seed := (Machine.conditions rs p).seed } := by
  induction rs generalizing p with
  | nil => rfl
  | cons x rs ih =>
    rw [Machine.conditions, List.foldl_cons, ← Machine.conditions, ih]
    cases x.2.seed <;> rfl

theorem conditions_fl (rs : List (Nat × LaneRes)) (p : Pod) :
    (Machine.conditions rs p).fl = rs.foldl (fun f x => f ||| x.2.fl) p.fl := by
  induction rs generalizing p with
  | nil => rfl
  | cons x rs ih =>
    rw [Machine.conditions, List.foldl_cons, ← Machine.conditions, ih, List.foldl_cons]
    congr 1; cases x.2.seed <;> rfl

theorem conditions_seed (rs : List (Nat × LaneRes)) (p : Pod) (hd : (rs.map (·.1)).Nodup) (u : Nat) :
    (Machine.conditions rs p).seed.get u = ((rs.find? fun x => x.1 = u).bind fun x => x.2.seed).getD (p.seed.get u) := by
  induction rs generalizing p with
  | nil => rfl
  | cons x rs ih =>
    rw [Machine.conditions, List.foldl_cons, ← Machine.conditions, ih _ (List.nodup_cons.mp hd).2]
    have hn := (List.nodup_cons.mp hd).1
    by_cases h : x.1 = u
    · have hf : rs.find? (fun x => decide (x.1 = u)) = none := by
        rw [List.find?_eq_none]
        intro y hy
        simp only [decide_eq_true_eq]
        intro e
        exact hn (List.mem_map.mpr ⟨y, hy, e.trans h.symm⟩)
      rw [hf, List.find?_cons_of_pos (by simp [h])]
      cases e : x.2.seed <;> simp [e, h]
    · rw [List.find?_cons_of_neg (by simp [h])]
      congr 1
      cases e : x.2.seed with
      | none => rfl
      | some w => simp [Pod.raiseFl_seed]; intro e'; exact absurd e'.symm h

theorem conditions_local (rs : List (Nat × LaneRes)) (s : State) : Local s (s.setPod (Machine.conditions rs s.pod)) := by
  refine setPod_local _ _ ?_
  rw [conditions_frame]

/-! ## The law -/

theorem classOf_v {cd : Code} {r : Nat} (h : classOf cd = (.v, r)) : r < 640 := by
  unfold classOf at h; dsimp only at h
  repeat' split at h
  all_goals simp_all

theorem inDst_of {c : Ctx} {d : Dst} (hd : c.sp.dst = some d) {cl : OpClass} {a : Nat} (h : classOf d.code = (cl, a)) (r : Nat) :
    inDst c cl r = (decide (a ≤ r) && decide (r < a + d.regs)) := by simp [inDst, dstIn, hd, h]

theorem mem_maskOf_fst {rs : List (Nat × LaneRes)} {u : Nat} (hu : u < 128) :
    (maskOf (rs.map (·.1))).getLsbD u = decide (u ∈ rs.map (·.1)) := maskOf_getLsbD _ _ hu

/-- Which bit the threads of a filtered list give, when no thread occurs twice. -/
theorem maskOf_filter {rs : List (Nat × LaneRes)} (hd : (rs.map (·.1)).Nodup) (f : LaneRes → Bool) {x : Nat × LaneRes} (hx : x ∈ rs)
    (hu : x.1 < 128) : (maskOf ((rs.filter fun y => f y.2).map (·.1))).getLsbD x.1 = f x.2 := by
  rw [maskOf_getLsbD _ _ hu]
  rw [Bool.eq_iff_iff, decide_eq_true_eq, List.mem_map]
  constructor
  · rintro ⟨y, hy0, e⟩
    obtain ⟨hy, hf⟩ := List.mem_filter.mp hy0
    have : y = x := by
      clear hu hy0
      induction rs with
      | nil => cases hx
      | cons z l ih =>
        simp only [List.map_cons, List.nodup_cons, List.mem_map, not_exists, not_and] at hd
        rcases List.mem_cons.mp hx with h1 | h1 <;> rcases List.mem_cons.mp hy with h2 | h2
        · rw [h1, h2]
        · subst h1; exact absurd e (hd.1 y h2)
        · subst h2; exact absurd e.symm (hd.1 x h1)
        · exact ih hd.2 h1 h2
    rw [← this]; exact hf
  · intro h
    exact ⟨x, List.mem_filter.mpr ⟨hx, h⟩, rfl⟩

/-- The registers after a write of the results of some threads. -/
structure WriteEffect (c : Ctx) (n : Nat) (rs : List (Nat × LaneRes)) (t : State) : Prop where
  wrote : Wrote c n rs t
  kept : KeptRegs c n (rs.map (·.1)) [] t

theorem keptRegs_of_eq (c : Ctx) (n : Nat) (ts also : List Nat) (s t : State) (h : KeptRegs c n ts also s) (hv : t.pod.v = s.pod.v)
    (htag : t.pod.tags = s.pod.tags) (hk : t.pod.k = s.pod.k) (hb : t.pod.bank = s.pod.bank) (hp : t.pod.p = s.pod.p)
    (hg : t.pod.g = s.pod.g) (hw : t.pod.width = s.pod.width) (hl : t.pod.trapLevel = s.pod.trapLevel)
    (hr : t.team.rings = s.team.rings) (hbad : t.pod.bad = s.pod.bad) : KeptRegs c n ts also t := by
  have ek : ∀ r, t.pod.rdK r = s.pod.rdK r := fun r => by simp [Pod.rdK, hl, hk, hb]
  have ep : ∀ n, t.pod.predMask n = s.pod.predMask n := fun n => by simp [Pod.predMask, hw, hp]
  exact ⟨fun u r h1 h2 => by simpa [Pod.rdV, hv] using h.v u r h1 h2, fun r h1 => by simpa [Pod.tagOf, htag] using h.tags r h1,
    fun r h1 => by rw [ek]; exact h.k r h1, fun h1 => by rw [hb]; exact h.bank h1, fun h1 r h2 => by rw [hk]; exact h.hidden h1 r h2,
    fun n u h1 => by rw [ep]; exact h.p n u h1, fun n h1 => by simpa [Pod.rdG, hg, hw] using h.g n h1,
    fun n h1 => by simpa [Team.ring, hr] using h.rings n h1, fun i h1 h2 => by rw [hbad]; exact h.bad i h1 h2⟩

/-- A state that differs in what the rings have had popped keeps every register. -/
theorem kept_start (c : Ctx) (n : Nat) (ts : List Nat) (s0 : State) (hpod : s0.pod = c.s.pod)
    (hring : ∀ m, s0.team.ring m = (c.s.team.ring m).map fun x => x.pop (c.s.popsOf c.sp m * n)) : KeptRegs c n ts [] s0 := by
  refine ⟨?_, ?_, ?_, ?_, ?_, ?_, ?_, fun m _ => hring m, ?_⟩ <;> intros <;> rw [hpod]

/-- What the write of a lane instruction does, after its claim (R78, R107, R379). -/
theorem write_effect (c : Ctx) (n : Nat) (s0 : State) (hpod : s0.pod = c.s.pod)
    (hring : ∀ m, s0.team.ring m = (c.s.team.ring m).map fun x => x.pop (c.s.popsOf c.sp m * n))
    (rs : List (Nat × LaneRes)) (hd : (rs.map (·.1)).Nodup) (hlt : ∀ x ∈ rs, x.1 < 128)
    (hreg : ∀ d, c.sp.dst = some d → d.regs ≤ 384) (hp0 : ∀ d, c.sp.dst = some d → classOf d.code ≠ (.p, 0))
    (hp1 : ∀ d r, c.sp.dst = some d → classOf d.code = (.p, r) → d.regs = 1)
    (hg1 : ∀ d r, c.sp.dst = some d → classOf d.code = (.g, r) → 0 < d.regs) (hops : s0.ops = c.s.ops) (hap : Apart c) :
    WriteEffect c n rs (c.write rs s0) := by
  have kc := kept_start c n (rs.map (·.1)) s0 hpod hring
  unfold Ctx.write
  cases hdst : c.sp.dst with
  | none => exact ⟨by simp [Wrote, hdst], kc⟩
  | some d =>
    dsimp only
    have h16 := hreg d hdst
    obtain ⟨cl, r, hcl⟩ : ∃ cl r, classOf d.code = (cl, r) := ⟨_, _, rfl⟩
    rw [hcl]
    have hin := fun q => inDst_of hdst hcl q
    cases cl <;> dsimp only
    case v =>
      have h640 := classOf_v hcl
      split
      · rename_i he
        have : rs = [] := by cases rs <;> simp_all
        subst this
        exact ⟨by simp [Wrote, hdst, hcl], kc⟩
      · rename_i he
        have htr : ∀ q : Pod, q.id = c.s.pod.id → s0.tagRun q d.tag r d.regs = q.wrTags d.tag r d.regs := by
          intro q hq
          unfold State.tagRun
          rw [hq, accHolds_congr hops, hap d r hdst hcl]
          simp
        have hbad : ∀ i, (∀ u ∈ rs.map (·.1), ∀ q, inDst c .v q = true → i ≠ u * 1024 + q) →
            (i ∈ (wrRuns c.s.pod r d.regs (rs.map fun x => (x.1, x.2.val))).bad ↔ i ∈ c.s.pod.bad) := by
          intro i h1
          refine wrRuns_bad _ _ _ _ _ ?_
          intro x hx hh
          obtain ⟨y, hy, e⟩ := List.mem_map.mp hx
          subst e
          dsimp only at hh
          refine h1 y.1 (List.mem_map.mpr ⟨y, hy, rfl⟩) (i - y.1 * 1024) ?_ (by omega)
          rw [hin]
          simp only [Bool.and_eq_true, decide_eq_true_eq]
          omega
        rw [foldl_wrRun, hpod, htr _ (by rw [wrRuns_v])]
        constructor
        · simp only [Wrote, hdst, hcl]
          refine ⟨fun x hx => ?_, fun _ j hj => ?_⟩
          · have := wrRuns_rdRun c.s.pod r d.regs (rs.map fun x => (x.1, x.2.val)) (by omega) (by simpa [Function.comp_def] using hd) (x.1, x.2.val)
              (List.mem_map.mpr ⟨x, hx, rfl⟩)
            rw [State.setPod_pod, Pod.wrTags_rdRun]
            exact this
          · simp only [State.setPod_pod, Pod.tagOf, Pod.wrTags_get]; rw [if_pos (by omega)]
        · refine ⟨fun u q hq h => ?_, fun q h => ?_, ?_, ?_, ?_, ?_, ?_, ?_,
            fun i h1 _ => by rw [State.setPod_pod, Pod.wrTags_tags]; exact hbad i h1⟩
          · rw [State.setPod_pod, Pod.wrTags_tags]
            simp only [Pod.rdV]
            refine wrRuns_other _ _ _ _ _ ?_
            intro x hx hh
            obtain ⟨y, hy, e⟩ := List.mem_map.mp hx
            subst e
            dsimp only at hh
            rcases h with h | h
            · have : u = y.1 := by omega
              exact h (this ▸ List.mem_map.mpr ⟨y, hy, rfl⟩)
            · rw [hin] at h
              simp only [Bool.and_eq_false_iff, decide_eq_false_iff_not] at h
              omega
          · simp only [State.setPod_pod, Pod.tagOf, Pod.wrTags_get]
            rcases h with h | h
            · simp_all
            · rw [hin] at h
              simp only [Bool.and_eq_false_iff, decide_eq_false_iff_not] at h
              rw [if_neg (by omega), wrRuns_v]
          all_goals rw [Pod.wrTags_tags, wrRuns_v]
          · intros; rfl
          · intros; rfl
          · intros; rfl
          · intros; rfl
          · intros; rfl
          · exact fun n h => kc.rings n h
    case k =>
      cases rs with
      | nil => exact ⟨by simp [Wrote, hdst, hcl], kc⟩
      | cons x l =>
        dsimp only; rw [hpod]
        constructor
        · simp only [Wrote, hdst, hcl, List.head?_cons, Option.mem_def, Option.some.injEq, forall_eq', State.setPod_pod]
          exact Pod.rdKRun_wrKRun ..
        · refine ⟨?_, ?_, fun q h => ?_, fun h => Pod.wrKRun_bank _ _ _ _ h, fun h q hq => Pod.wrKRun_hidden _ _ _ _ _ h hq, ?_, ?_,
            fun n h => kc.rings n h, fun i _ h2 => ?_⟩
          · intros; rw [State.setPod_pod, Pod.wrKRun_kb]; rfl
          · intros; rw [State.setPod_pod, Pod.wrKRun_kb]; rfl
          · rw [hin] at h
            simp only [Bool.and_eq_false_iff, decide_eq_false_iff_not] at h
            rw [State.setPod_pod, Pod.rdK_wrKRun, if_neg (by omega)]
          · intros; rw [State.setPod_pod, Pod.wrKRun_kb]; rfl
          · intros; rw [State.setPod_pod, Pod.wrKRun_kb]; rfl
          · refine Pod.wrKRun_bad _ _ _ _ _ ?_
            intro hh
            refine h2 (i - 2 ^ 20) ?_ (by omega)
            rw [hin]
            simp only [Bool.and_eq_true, decide_eq_true_eq]
            omega
    case p =>
      rw [hpod]
      have hr0 : r ≠ 0 := fun e => hp0 d hdst (by rw [hcl, e])
      constructor
      · simp only [Wrote, hdst, hcl]
        intro x hx
        have hm : (maskOf (rs.map (·.1))).getLsbD x.1 = true := by
          rw [mem_maskOf_fst (hlt x hx), decide_eq_true_eq]; exact List.mem_map.mpr ⟨x, hx, rfl⟩
        rw [State.setPod_pod, Pod.predMask_wrPred, if_pos ⟨rfl, hr0, hm⟩]
        exact maskOf_filter hd (·.pred) hx (hlt x hx)
      · refine ⟨?_, ?_, ?_, ?_, ?_, fun n u h => ?_, ?_, fun n h => kc.rings n h, ?_⟩
        · intros; rw [State.setPod_pod, Pod.wrPred_p]; rfl
        · intros; rw [State.setPod_pod, Pod.wrPred_p]; rfl
        · intros; rw [State.setPod_pod, Pod.wrPred_p]; rfl
        · intros; rw [State.setPod_pod, Pod.wrPred_p]
        · intros; rw [State.setPod_pod, Pod.wrPred_p]
        · rw [State.setPod_pod, Pod.predMask_wrPred]
          rw [if_neg]
          rintro ⟨e, -, hm⟩
          have hu := BitVec.lt_of_getLsbD hm
          rw [mem_maskOf_fst hu, decide_eq_true_eq] at hm
          rcases h with h | h
          · exact h hm
          · have := h.1
            rw [hin, hp1 d r hdst hcl] at this
            simp only [Bool.and_eq_false_iff, decide_eq_false_iff_not] at this
            omega
        · intros; rw [State.setPod_pod, Pod.wrPred_p]; rfl
        · intros; rw [State.setPod_pod, Pod.wrPred_p]
    case g =>
      cases rs with
      | nil => exact ⟨by simp [Wrote, hdst, hcl], kc⟩
      | cons x l =>
        dsimp only; rw [hpod]
        constructor
        · simp only [Wrote, hdst, hcl, List.head?_cons, Option.mem_def, Option.some.injEq, forall_eq', State.setPod_pod]
          rw [Pod.rdG_wrG, if_pos rfl]
        · refine ⟨?_, ?_, ?_, ?_, ?_, ?_, fun n h => ?_, fun n h => kc.rings n h, fun _ _ _ => Iff.rfl⟩
          · intros; rfl
          · intros; rfl
          · intros; rfl
          · intros; rfl
          · intros; rfl
          · intros; rfl
          · rw [State.setPod_pod, Pod.rdG_wrG, if_neg]
            intro e
            rw [hin] at h
            simp only [Bool.and_eq_false_iff, decide_eq_false_iff_not] at h
            have := hg1 d r hdst hcl
            omega
    case q =>
      have hport : s0.portRing r = (c.s.pod.ringOf r).bind fun n => (s0.team.ring n).map fun x => (n, x) := by
        unfold State.portRing; rw [hpod]; cases c.s.pod.ringOf r <;> rfl
      cases ho : c.s.pod.ringOf r with
      | none =>
        rw [hport, ho]
        exact ⟨by simp [Wrote, hdst, hcl, State.portRing, ho], kc⟩
      | some k =>
        rw [hport, ho]
        cases hx : c.s.team.ring k with
        | none =>
          have : s0.team.ring k = none := by rw [hring, hx]; rfl
          simp only [Option.bind_some, this, Option.map_none]
          exact ⟨by simp [Wrote, hdst, hcl, State.portRing, ho, hx], kc⟩
        | some x =>
          have hy : s0.team.ring k = some (x.pop (c.s.popsOf c.sp k * n)) := by rw [hring, hx]; rfl
          simp only [Option.bind_some, hy, Option.map_some]
          constructor
          · simp only [Wrote, hdst, hcl]
            intro m y hm
            simp only [State.portRing, ho, hx, Option.map_some, Option.some.injEq, Prod.mk.injEq] at hm
            obtain ⟨rfl, rfl⟩ := hm
            rw [State.setTeam_team, Team.ring_setRing, if_pos ⟨rfl, ring_lt hy⟩]
            rfl
          · refine ⟨?_, ?_, ?_, ?_, ?_, ?_, ?_, fun m h => ?_, fun i h1 h2 => kc.bad i h1 h2⟩
            · intro u q hq h; exact kc.v u q hq h
            · intro q h; exact kc.tags q h
            · intro q h; exact kc.k q h
            · intro h; exact kc.bank h
            · intro h q hq; exact kc.hidden h q hq
            · intro m u h; exact kc.p m u h
            · intro m h; exact kc.g m h
            · rw [State.setTeam_team, Team.ring_setRing, if_neg]
              · exact kc.rings m h
              · rintro ⟨e, -⟩
                apply h
                simp [State.pushRing, hdst, hcl, ho, e]
    all_goals exact ⟨by simp [Wrote, hdst, hcl], kc⟩

theorem Pod.setLoops_local (q : Pod) (v : Cells 32) (tags : Cells 5) (k : Cells 32) (bank : Cells 32) (pp g : Cells 128) (fl : BitVec 6)
    (seed : Cells 32) (bad : List Nat) (l : List LoopEntry) :
    ({ q with v := v, tags := tags, k := k, bank := bank, p := pp, g := g, fl := fl, seed := seed, bad := bad } : Pod).setLoops l =
      { q.setLoops l with v := v, tags := tags, k := k, bank := bank, p := pp, g := g, fl := fl, seed := seed, bad := bad } := by
  unfold Pod.setLoops; dsimp only; split <;> rfl

theorem Pod.goto_local (q : Pod) (v : Cells 32) (tags : Cells 5) (k : Cells 32) (bank : Cells 32) (pp g : Cells 128) (fl : BitVec 6)
    (seed : Cells 32) (bad : List Nat) (m : Mask) (a : Dword) :
    ({ q with v := v, tags := tags, k := k, bank := bank, p := pp, g := g, fl := fl, seed := seed, bad := bad } : Pod).goto m a =
      { q.goto m a with v := v, tags := tags, k := k, bank := bank, p := pp, g := g, fl := fl, seed := seed, bad := bad } := by
  unfold Pod.goto Pod.onCtl Pod.setCtl Pod.ctl; dsimp only; split <;> rfl

theorem Pod.popEmpty_local (q : Pod) (v : Cells 32) (tags : Cells 5) (k : Cells 32) (bank : Cells 32) (pp g : Cells 128) (fl : BitVec 6)
    (seed : Cells 32) (bad : List Nat) :
    ({ q with v := v, tags := tags, k := k, bank := bank, p := pp, g := g, fl := fl, seed := seed, bad := bad } : Pod).popEmpty =
      { q.popEmpty with v := v, tags := tags, k := k, bank := bank, p := pp, g := g, fl := fl, seed := seed, bad := bad } := by
  unfold Pod.popEmpty; rw [Pod.setLoops_local]; rfl

/-- Retirement reads none of the registers that a lane instruction writes. -/
theorem Pod.retire_local (q : Pod) (v : Cells 32) (tags : Cells 5) (k : Cells 32) (bank : Cells 32) (pp g : Cells 128) (fl : BitVec 6)
    (seed : Cells 32) (bad : List Nat) (this : Dword) (d : Nat) (act moved : Mask) :
    ({ q with v := v, tags := tags, k := k, bank := bank, p := pp, g := g, fl := fl, seed := seed, bad := bad } : Pod).retire this d act moved =
      { q.retire this d act moved with
        v := v, tags := tags, k := k, bank := bank, p := pp, g := g, fl := fl, seed := seed, bad := bad } := by
  have hl : ({ q with v := v, tags := tags, k := k, bank := bank, p := pp, g := g, fl := fl, seed := seed, bad := bad } : Pod).loopStack =
      q.loopStack := rfl
  unfold Pod.retire
  dsimp only
  rw [hl]
  split
  · rw [Pod.popEmpty_local]
  · split <;> rw [Pod.setLoops_local, Pod.goto_local, Pod.popEmpty_local]

/-- What a thread that leaves its transaction changes reads none of them either. -/
theorem Pod.leaveTx_local (q : Pod) (v : Cells 32) (tags : Cells 5) (k : Cells 32) (bank : Cells 32) (pp g : Cells 128) (fl : BitVec 6)
    (seed : Cells 32) (bad : List Nat) :
    ({ q with v := v, tags := tags, k := k, bank := bank, p := pp, g := g, fl := fl, seed := seed, bad := bad } : Pod).leaveTx =
      { q.leaveTx with v := v, tags := tags, k := k, bank := bank, p := pp, g := g, fl := fl, seed := seed, bad := bad } := by
  have h : ∀ (l : List TxThread) (q : Pod),
      l.foldl (fun (q : Pod) x => q.goto (one x.thread) x.resume)
        ({ q with v := v, tags := tags, k := k, bank := bank, p := pp, g := g, fl := fl, seed := seed, bad := bad } : Pod) =
      { l.foldl (fun (q : Pod) x => q.goto (one x.thread) x.resume) q with
        v := v, tags := tags, k := k, bank := bank, p := pp, g := g, fl := fl, seed := seed, bad := bad } := by
    intro l
    induction l with
    | nil => intro q; rfl
    | cons x l ih => intro q; simp only [List.foldl_cons, Pod.goto_local, ih]
  unfold Pod.leaveTx
  dsimp only
  split
  · rfl
  · rw [h]

theorem retired_local (c : Ctx) (moved : Mask) (s : State) (v : Cells 32) (tags : Cells 5) (k : Cells 32) (bank : Cells 32)
    (pp g : Cells 128) (fl : BitVec 6) (seed : Cells 32) (bad : List Nat) (u : State) (hc : u.cycle = s.cycle)
    (hu : u.pod = { s.pod with v := v, tags := tags, k := k, bank := bank, p := pp, g := g, fl := fl, seed := seed, bad := bad }) :
    retired c moved u =
      { retired c moved s with v := v, tags := tags, k := k, bank := bank, p := pp, g := g, fl := fl, seed := seed, bad := bad } := by
  unfold retired
  rw [hu, hc, Pod.retire_local, Pod.leaveTx_local]

theorem perThread_s (each : Bool) (c : Ctx) : (perThread each c).s = c.s := by unfold perThread; split <;> rfl
theorem perThread_sp (each : Bool) (c : Ctx) : (perThread each c).sp = c.sp := by unfold perThread; split <;> rfl
theorem perThread_this (each : Bool) (c : Ctx) : (perThread each c).this = c.this := by unfold perThread; split <;> rfl
theorem perThread_act (each : Bool) (c : Ctx) : (perThread each c).act = c.act := by unfold perThread; split <;> rfl
theorem perThread_eff (each : Bool) (c : Ctx) : (perThread each c).eff = c.eff := by unfold perThread; split <;> rfl

theorem lanes_sub (c : Ctx) : c.lanes.Sublist c.eff := by
  unfold Ctx.lanes; split
  · exact List.take_sublist ..
  · exact List.Sublist.refl _

theorem issueCtx_eff_nodup (s : State) (h : Head) (sp : Spec) : (issueCtx s h sp).eff.Nodup := threadsOf_nodup ..

theorem issueCtx_eff_lt (s : State) (h : Head) (sp : Spec) (t : Nat) (ht : t ∈ (issueCtx s h sp).eff) : t < 128 :=
  threadsOf_lt _ _ _ ht

/-- A context over whose lanes the law of lane instructions speaks. -/
structure GoodLanes (c : Ctx) : Prop where
  nodup : c.lanes.Nodup
  low : ∀ t ∈ c.lanes, t < 128

theorem goodLanes (each : Bool) (s : State) (h : Head) (sp : Spec) : GoodLanes (perThread each (issueCtx s h sp)) := by
  have e := perThread_eff each (issueCtx s h sp)
  refine ⟨(lanes_sub _).nodup (e ▸ issueCtx_eff_nodup s h sp), fun t ht => ?_⟩
  exact issueCtx_eff_lt s h sp t (e ▸ (lanes_sub _).subset ht)

/-- The destination is one that the whole-pod checks accept, and at most 384 registers long. -/
structure GoodDst (sp : Spec) : Prop where
  regs : ∀ d, sp.dst = some d → d.regs ≤ 384
  p0 : ∀ d, sp.dst = some d → classOf d.code ≠ (.p, 0)
  pOne : ∀ d r, sp.dst = some d → classOf d.code = (.p, r) → d.regs = 1
  gSome : ∀ d r, sp.dst = some d → classOf d.code = (.g, r) → 0 < d.regs

/-- The state of a lane instruction before it retires, from the state after its pops. -/
def afterResults (c : Ctx) (also : List Nat) (preds : Nat → LaneRes → Bool) (rs : List (Nat × LaneRes)) (s0 : State) : State :=
  let s := alsoPreds also preds rs (c.write rs s0)
  s.setPod (Machine.conditions rs s.pod)

theorem afterResults_local (c : Ctx) (also : List Nat) (preds : Nat → LaneRes → Bool) (rs : List (Nat × LaneRes)) (s0 : State) :
    Local s0 (afterResults c also preds rs s0) :=
  ((Ctx.write_local ..).trans (alsoPreds_local ..)).trans (conditions_local ..)

theorem lane_eq (c : Ctx) (hf : Fed c) (also : List Nat) (preds : Nat → LaneRes → Bool) (res : Nat → LaneRes) :
    c.lane res (alsoPreds also preds) = .done (afterResults c also preds (results c res) (c.claim (results c res).length c.s)) 0 := by
  have h1 : (c.lanes.filter fun t => (c.readFault t).isSome) = [] := by
    rw [List.filter_eq_nil_iff]; intro t ht; simp [hf.sound t ht]
  unfold Ctx.lane Ctx.laneWith Ctx.ports
  simp only [hf.fits, hf.ready, h1, Bool.not_true, Bool.false_eq_true, if_false]
  have hl : (results c res).length = c.lanes.length := List.length_map ..
  rw [hl]
  rfl

theorem framed_of (c : Ctx) (u : State) (uni : Bool) (use : Option Nat) (hl : Local c.s u) (hs : c.s.pod.stepping = false)
    (hh : c.s.pod.halted = false) : Framed c ((u.complete c.this c.s.pod.depth c.act 0).countIssue c.s.core uni use) := by
  have hus : u.pod.stepping = false := by rw [hl.pod]; exact hs
  have huh : u.pod.halted = false := by rw [hl.pod]; exact hh
  have hue : u.esel = c.s.esel := by rw [hl.state]
  have r := retires_of c 0 u uni use hus huh
  generalize (u.complete c.this c.s.pod.depth c.act 0).countIssue c.s.core uni use = t at r ⊢
  have hpod := congrArg State.pod r.state
  have hteam := congrArg State.team r.state
  dsimp only at hpod hteam
  have hmem : t.mem = c.s.mem := by
    have := congrArg State.mem r.state; dsimp only at this; rw [this, hl.state]
  refine ⟨?_, ?_, ?_, ⟨fun h0 => ?_, fun n hn => ?_⟩, ?_⟩
  · have e := r.state
    rw [e]; rw [hl.state]
  · rw [hteam]; exact hl.team
  · rw [hpod, retired_local c 0 c.s _ _ _ _ _ _ _ _ _ u (by rw [hl.state]) hl.pod]
  · have := r.counted.off (hue.trans h0)
    rw [hl.state] at this; exact this
  · have := r.counted.others n hn
    rw [hl.state] at this; exact this
  · intro a; simp only [State.rdByte, hmem]

/-- What two states share when they hold the same registers and rings. -/
structure SameRegs (s t : State) : Prop where
  v : t.pod.v = s.pod.v
  tags : t.pod.tags = s.pod.tags
  k : t.pod.k = s.pod.k
  bank : t.pod.bank = s.pod.bank
  g : t.pod.g = s.pod.g
  width : t.pod.width = s.pod.width
  trapLevel : t.pod.trapLevel = s.pod.trapLevel
  rings : t.team.rings = s.team.rings
  bad : t.pod.bad = s.pod.bad

theorem Pod.rdKRun_congr {p q : Pod} (hk : p.k = q.k) (hb : p.bank = q.bank) (hl : p.trapLevel = q.trapLevel) (r n : Nat) :
    p.rdKRun r n = q.rdKRun r n := by
  induction n generalizing r with
  | zero => rfl
  | succ n ih => simp only [Pod.rdKRun, Pod.rdK, hk, hb, hl, ih]

theorem wrote_of_same (c : Ctx) (n : Nat) (rs : List (Nat × LaneRes)) {s t : State} (e : SameRegs s t)
    (hp : dstIn c .p = none ∨ t.pod.p = s.pod.p) (h : Wrote c n rs s) : Wrote c n rs t := by
  unfold Wrote at *
  cases hd : c.sp.dst with
  | none => trivial
  | some d =>
    rw [hd] at h
    dsimp only at h ⊢
    obtain ⟨cl, r, hcl⟩ : ∃ cl r, classOf d.code = (cl, r) := ⟨_, _, rfl⟩
    rw [hcl] at h ⊢
    cases cl <;> dsimp only at h ⊢
    case v =>
      exact ⟨fun x hx => (Pod.rdRun_congr e.v ..).trans (h.1 x hx), fun hr j hj => by
        have := h.2 hr j hj; simpa [Pod.tagOf, e.tags] using this⟩
    case k => exact fun x hx => (Pod.rdKRun_congr e.k e.bank e.trapLevel ..).trans (h x hx)
    case p =>
      have hp : t.pod.p = s.pod.p := by
        rcases hp with hp | hp
        · simp [dstIn, hd, hcl] at hp
        · exact hp
      intro x hx
      have := h x hx
      simpa [Pod.predMask, hp, e.width] using this
    case g =>
      intro x hx
      have := h x hx
      simpa [Pod.rdG, e.g, e.width] using this
    case q =>
      intro n x hx
      have := h n x hx
      simpa [Team.ring, e.rings] using this

/-- A write of results raises no condition and draws nothing. -/
theorem Ctx.write_conditions (c : Ctx) (rs : List (Nat × LaneRes)) (s : State) :
    (c.write rs s).pod.fl = s.pod.fl ∧ (c.write rs s).pod.seed = s.pod.seed := by
  unfold Ctx.write
  split
  · exact ⟨rfl, rfl⟩
  · split
    · split
      · exact ⟨rfl, rfl⟩
      · rw [State.setPod_pod, State.tagRun_tags, foldl_wrRun, wrRuns_v]; exact ⟨rfl, rfl⟩
    · split
      · exact ⟨rfl, rfl⟩
      · rw [State.setPod_pod, Pod.wrKRun_kb]; exact ⟨rfl, rfl⟩
    · rw [State.setPod_pod, Pod.wrPred_p]; exact ⟨rfl, rfl⟩
    · split <;> exact ⟨rfl, rfl⟩
    · split <;> exact ⟨rfl, rfl⟩
    · exact ⟨rfl, rfl⟩

theorem sameRegs_of_p {s t : State} (h : t.pod = { s.pod with p := t.pod.p }) (ht : t.team = s.team) : SameRegs s t := by
  constructor <;> first | rw [h] | rw [ht]

theorem sameRegs_conditions (rs : List (Nat × LaneRes)) (s : State) : SameRegs s (s.setPod (Machine.conditions rs s.pod)) := by
  have hc := conditions_frame rs s.pod
  constructor <;> (first | rw [State.setPod_pod, hc] | rw [State.setPod_team])

theorem keptRegs_of_same (c : Ctx) (n : Nat) (ts also : List Nat) {s t : State} (e : SameRegs s t) (hp : t.pod.p = s.pod.p)
    (h : KeptRegs c n ts also s) : KeptRegs c n ts also t :=
  keptRegs_of_eq c n ts also s t h e.v e.tags e.k e.bank hp e.g e.width e.trapLevel e.rings e.bad

/-- Predicates written besides the destination keep everything else. -/
theorem keptRegs_alsoPreds (c : Ctx) (n : Nat) (also : List Nat) (preds : Nat → LaneRes → Bool) (rs : List (Nat × LaneRes)) (s : State)
    (kw : KeptRegs c n (rs.map (·.1)) [] s) : KeptRegs c n (rs.map (·.1)) also (alsoPreds also preds rs s) := by
  have ha := fun j u => wrPreds_get (maskOf (rs.map (·.1))) (predsOf preds rs) also s.pod j u
  rw [← alsoPreds_pod] at ha
  have e : SameRegs s (alsoPreds also preds rs s) := sameRegs_of_p (by
    have := wrPreds_p (maskOf (rs.map (·.1))) (predsOf preds rs) also s.pod
    rwa [← alsoPreds_pod] at this) rfl
  generalize alsoPreds also preds rs s = t at ha e
  refine ⟨fun u r h1 h2 => ?_, fun r h1 => ?_, fun r h1 => ?_, fun h1 => ?_, fun h1 r h2 => ?_, fun n u h1 => ?_, fun n h1 => ?_,
    fun n h1 => ?_, fun i h1 h2 => by rw [e.bad]; exact kw.bad i h1 h2⟩
  · exact (congrArg (fun x => Cells.get x _) e.v).trans (kw.v u r h1 h2)
  · exact (congrArg (fun x => Cells.get x _) e.tags).trans (kw.tags r h1)
  · rw [← kw.k r h1]; simp only [Pod.rdK, e.k, e.bank, e.trapLevel]
  · rw [e.bank]; exact kw.bank h1
  · rw [e.k]; exact kw.hidden h1 r h2
  · rw [ha, if_neg]
    · refine kw.p n u ?_
      rcases h1 with h1 | h1
      · exact .inl h1
      · exact .inr ⟨h1.1, List.not_mem_nil⟩
    · rintro ⟨h2, -, h3⟩
      rcases h1 with h1 | h1
      · rw [mem_maskOf_fst (BitVec.lt_of_getLsbD h3), decide_eq_true_eq] at h3; exact h1 h3
      · exact h1.2 h2
  · rw [← kw.g n h1]; simp only [Pod.rdG, e.g, e.width]
  · rw [← kw.rings n h1]; simp only [Team.ring, e.rings]

/-- The registers of a lane instruction before it retires. -/
theorem afterResults_effect (c : Ctx) (n : Nat) (s0 : State) (hpod : s0.pod = c.s.pod)
    (hring : ∀ m, s0.team.ring m = (c.s.team.ring m).map fun x => x.pop (c.s.popsOf c.sp m * n)) (gd : GoodDst c.sp) (also : List Nat) (preds : Nat → LaneRes → Bool)
    (rs : List (Nat × LaneRes)) (hnd : (rs.map (·.1)).Nodup) (hlt : ∀ x ∈ rs, x.1 < 128) (hops : s0.ops = c.s.ops) (hap : Apart c) :
    ((dstIn c .p = none ∨ also = []) → Wrote c n rs (afterResults c also preds rs s0)) ∧ AlsoWrote rs also preds (afterResults c also preds rs s0) ∧
      KeptRegs c n (rs.map (·.1)) also (afterResults c also preds rs s0) ∧ Conditions c rs (afterResults c also preds rs s0) := by
  have w := write_effect c n s0 hpod hring rs hnd hlt gd.regs gd.p0 gd.pOne gd.gSome hops hap
  have hfs : (c.write rs s0).pod.fl = c.s.pod.fl ∧ (c.write rs s0).pod.seed = c.s.pod.seed := by
    have hw := Ctx.write_conditions c rs s0
    rwa [hpod] at hw
  unfold afterResults
  generalize c.write rs s0 = s1 at w hfs ⊢
  dsimp only
  have ka := keptRegs_alsoPreds c n also preds rs s1 w.kept
  have ha := fun j u => wrPreds_get (maskOf (rs.map (·.1))) (predsOf preds rs) also s1.pod j u
  rw [← alsoPreds_pod] at ha
  have hs2 := wrPreds_p (maskOf (rs.map (·.1))) (predsOf preds rs) also s1.pod
  rw [← alsoPreds_pod] at hs2
  have hnil : also = [] → (alsoPreds also preds rs s1).pod.p = s1.pod.p := by intro e; subst e; rfl
  have same12 : SameRegs s1 (alsoPreds also preds rs s1) := sameRegs_of_p hs2 rfl
  generalize alsoPreds also preds rs s1 = s2 at ka ha hs2 hnil same12 ⊢
  have same23 := sameRegs_conditions rs s2
  have hp23 : (s2.setPod (Machine.conditions rs s2.pod)).pod.p = s2.pod.p := by rw [State.setPod_pod, conditions_frame]
  have hfl : s2.pod.fl = c.s.pod.fl := by rw [hs2]; exact hfs.1
  have hse : s2.pod.seed = c.s.pod.seed := by rw [hs2]; exact hfs.2
  refine ⟨fun h => ?_, ?_, keptRegs_of_same c n _ also same23 hp23 ka, ⟨?_, fun u => ?_⟩⟩
  · refine wrote_of_same c n rs same23 (.inr hp23) (wrote_of_same c n rs same12 ?_ w.wrote)
    rcases h with h | h
    · exact .inl h
    · exact .inr (hnil h)
  · intro n hn h0 x hx
    have e : (s2.setPod (Machine.conditions rs s2.pod)).pod.predMask n = s2.pod.predMask n := by
      simp only [Pod.predMask, hp23, same23.width]
    have hm : (maskOf (rs.map (·.1))).getLsbD x.1 = true := by
      rw [mem_maskOf_fst (hlt x hx), decide_eq_true_eq]; exact List.mem_map.mpr ⟨x, hx, rfl⟩
    rw [e, ha, if_pos ⟨hn, h0, hm⟩]
    exact maskOf_filter hnd (preds n) hx (hlt x hx)
  · rw [State.setPod_pod, conditions_fl, hfl]
  · rw [State.setPod_pod, conditions_seed _ _ hnd, hse]

/-- The part of the law that lane and cross-thread instructions share: results written after the pops of `n` threads. -/
theorem finish_results (c : Ctx) (n : Nat) (s0 : State) (hloc : Local c.s s0) (hpod : s0.pod = c.s.pod)
    (hring : ∀ m, s0.team.ring m = (c.s.team.ring m).map fun x => x.pop (c.s.popsOf c.sp m * n))
    (gd : GoodDst c.sp) (also : List Nat) (preds : Nat → LaneRes → Bool) (rs : List (Nat × LaneRes))
    (hnd : (rs.map (·.1)).Nodup) (hlt : ∀ x ∈ rs, x.1 < 128) (hst : c.s.pod.stepping = false)
    (hha : c.s.pod.halted = false) (hap : Apart c) (uni : Bool) (use : Option Nat) {t : State}
    (ht : ((afterResults c also preds rs s0).complete c.this c.s.pod.depth c.act 0).countIssue c.s.core uni use = t) :
    ((dstIn c .p = none ∨ also = []) → Wrote c n rs t) ∧ AlsoWrote rs also preds t ∧ KeptRegs c n (rs.map (·.1)) also t ∧
      Conditions c rs t ∧ Framed c t := by
  have le := afterResults_effect c n s0 hpod hring gd also preds rs hnd hlt (by rw [hloc.state]) hap
  have hl := hloc.trans (afterResults_local c also preds rs s0)
  have fr := framed_of c (afterResults c also preds rs s0) uni use hl hst hha
  have hus : (afterResults c also preds rs s0).pod.stepping = false := by rw [hl.pod]; exact hst
  have huh : (afterResults c also preds rs s0).pod.halted = false := by rw [hl.pod]; exact hha
  have ret := retires_of c 0 (afterResults c also preds rs s0) uni use hus huh
  rw [ht] at fr ret
  generalize afterResults c also preds rs s0 = u at le ret
  have hp := congrArg State.pod ret.state
  have hteam := congrArg State.team ret.state
  dsimp only at hp hteam
  rw [retired, Pod.gone_frame] at hp
  have same : SameRegs u t := by
    constructor <;> first | rw [hp] | rw [hteam]
  have hpp : t.pod.p = u.pod.p := by rw [hp]
  have hfl : t.pod.fl = u.pod.fl := by rw [hp]
  have hse : t.pod.seed = u.pod.seed := by rw [hp]
  refine ⟨fun h0 => wrote_of_same c n rs same (.inr hpp) (le.1 h0), fun n hn h0 x hx => ?_,
    keptRegs_of_same c n _ also same hpp le.2.2.1, ⟨?_, fun u => ?_⟩, fr⟩
  · have e : t.pod.predMask n = u.pod.predMask n := by simp only [Pod.predMask, hpp, same.width]
    rw [e]; exact le.2.1 n hn h0 x hx
  · rw [hfl]; exact le.2.2.2.fl
  · rw [hse]; exact le.2.2.2.seed u

/-- The destination of an instruction whose pod can issue it is no accumulator of a matrix operation that runs. -/
theorem apart_of_ready {i : Instr} {h : Head} {sp : Spec} {s : State} (r : Ready i h sp s) (d : Dst) (a : Nat) (hd : sp.dst = some d)
    (hc : classOf d.code = (.v, a)) : s.begin.accHolds s.begin.pod.id a d.regs = false := by
  have h := r.apart
  unfold State.accTouched at h
  simp only [hd, hc, Bool.or_eq_false_iff] at h
  exact h.2

/-- The law of lane instructions: an instruction whose body is a lane computation, which its pod can issue and whose ports are ready,
completes with its results in its destination and leaves everything else alone. -/
theorem issue_lane (each : Bool) (also : List Nat) (preds : Nat → LaneRes → Bool) {i : Instr} {h : Head} {sp : Spec} {s : State}
    (res : Ctx → Nat → LaneRes) (r : Ready i h sp s) (gd : GoodDst sp) (hf : Fed (perThread each (issueCtx s h sp)))
    {body : Ctx → Eff} (hb : body (issueCtx s h sp) =
      (perThread each (issueCtx s h sp)).lane (res (issueCtx s h sp)) (alsoPreds also preds)) :
    ∃ t, issue i h sp body s = .next t ∧ LaneEffect (perThread each (issueCtx s h sp))
      (results (perThread each (issueCtx s h sp)) (res (issueCtx s h sp))) also preds t := by
  have gl := goodLanes each s h sp
  have hsp := perThread_sp each (issueCtx s h sp)
  have hss := perThread_s each (issueCtx s h sp)
  have hth := perThread_this each (issueCtx s h sp)
  have hac := perThread_act each (issueCtx s h sp)
  rw [issue_of_ready r, hb, lane_eq _ hf]
  generalize hc : perThread each (issueCtx s h sp) = c at *
  have hrs : (results c (res (issueCtx s h sp))).map (·.1) = c.lanes := by
    simp [results, List.map_map, Function.comp_def]
  generalize results c (res (issueCtx s h sp)) = rs at hrs ⊢
  have e : ∀ u : State, s.begin.finish (issueCtx s h sp) (Eff.done u 0) = u.complete c.this c.s.pod.depth c.act 0 := by
    intro u
    show u.complete (issueCtx s h sp).this s.begin.pod.depth (issueCtx s h sp).act 0 = _
    rw [hth, hac, hss]; rfl
  have ec : s.core = c.s.core := by rw [hss]; rfl
  simp only [Eff.holds, Bool.false_eq_true, if_false]
  rw [e, ec]
  refine ⟨_, rfl, ?_⟩
  generalize (issueCtx s h sp).laneUse i (.done (afterResults c also preds rs (c.claim rs.length c.s)) 0) = use
  have f := finish_results c rs.length _ (Ctx.claim_local c rs.length c.s) (Ctx.claim_pod ..) (Ctx.claim_ring c rs.length)
    (by rw [hsp]; exact gd) also preds rs (hrs ▸ gl.nodup) (fun x hx => gl.low _ (hrs ▸ List.mem_map.mpr ⟨x, hx, rfl⟩))
    (by rw [hss]; exact r.unstepped) (by rw [hss]; exact r.unhalted)
    (fun d a h1 h2 => by rw [hss]; exact apart_of_ready r d a ((congrArg Spec.dst hsp).symm.trans h1) h2) (issueCtx s h sp).uni use rfl
  exact ⟨f.1, f.2.1, f.2.2.1, f.2.2.2.1, f.2.2.2.2⟩

/-- The law of cross-thread instructions. -/
theorem issue_gather {i : Instr} {h : Head} {sp : Spec} {s : State} (rs : List (Nat × LaneRes)) (r : Ready i h sp s) (gd : GoodDst sp)
    (hnd : (rs.map (·.1)).Nodup) (hlt : ∀ x ∈ rs, x.1 < 128) {body : Ctx → Eff}
    (hb : body (issueCtx s h sp) =
      .done (afterResults (issueCtx s h sp) [] (fun _ _ => false) rs (issueCtx s h sp).s) 0) :
    ∃ t, issue i h sp body s = .next t ∧ Wrote (issueCtx s h sp) 0 rs t ∧ KeptRegs (issueCtx s h sp) 0 (rs.map (·.1)) [] t ∧
      Conditions (issueCtx s h sp) rs t ∧ Framed (issueCtx s h sp) t := by
  rw [issue_of_ready r, hb]
  refine ⟨_, rfl, ?_⟩
  generalize (issueCtx s h sp).laneUse i (.done (afterResults (issueCtx s h sp) [] (fun _ _ => false) rs (issueCtx s h sp).s) 0) = use
  have f := finish_results (issueCtx s h sp) 0 (issueCtx s h sp).s (.refl _) rfl
    (fun m => by cases (issueCtx s h sp).s.team.ring m <;> simp [Ring.pop_zero]) gd [] (fun _ _ => false) rs hnd hlt r.unstepped
    r.unhalted (apart_of_ready r) (issueCtx s h sp).uni use rfl
  exact ⟨f.1 (.inr rfl), f.2.2.1, f.2.2.2.1, f.2.2.2.2⟩

/-- The operand widths of a destination that the law of lane instructions needs. -/
def dstFits (d : Dst) : Prop :=
  d.regs ≤ 384 ∧ (d.acc.contains .g = true → 0 < d.regs) ∧ (d.acc.contains .p = true → d.regs = 1)

theorem dstOk_of_ready {i : Instr} {h : Head} {sp : Spec} {s : State} (r : Ready i h sp s) {d : Dst} (hd : sp.dst = some d) :
    s.dstOk d = true := by
  have hp := r.passes
  cases hk : s.dstOk d with
  | true => rfl
  | false =>
    exfalso
    unfold State.podCheck at hp
    simp only [hd, hk, Bool.not_false, Bool.or_true, Bool.true_or, if_true] at hp
    split at hp
    · cases hp
    · split at hp <;> cases hp

theorem goodDst_of_ready {i : Instr} {h : Head} {sp : Spec} {s : State} (r : Ready i h sp s)
    (hd : ∀ d, sp.dst = some d → dstFits d) : GoodDst sp := by
  refine ⟨fun d e => (hd d e).1, fun d e hc => ?_, fun d a e hc => ?_, fun d a e hc => ?_⟩
  · have := dstOk_of_ready r e
    simp [State.dstOk, hc] at this
  · have := dstOk_of_ready r e
    simp only [State.dstOk, hc, Bool.and_eq_true] at this
    exact (hd d e).2.2 this.1
  · have := dstOk_of_ready r e
    simp only [State.dstOk, hc, Bool.and_eq_true] at this
    exact (hd d e).2.1 this.1

theorem alsoPreds_nil (preds : Nat → LaneRes → Bool) : alsoPreds [] preds = noMore := rfl

/-- The same for an instruction that also writes predicates, or acts in every effective thread. -/
theorem laneDoesWith_of {i : Instr} {h : Head} {sp : State → Spec} {res : Ctx → Nat → LaneRes} {each : Bool} {also : List Nat}
    {preds : Nat → LaneRes → Bool}
    (he : ∀ s, exec i s = issue i h (sp s) (fun c => (perThread each c).lane (res c) (alsoPreds also preds)) s)
    (hd : ∀ s d, (sp s).dst = some d → dstFits d) : LaneDoesWith each also preds i h sp res := by
  intro s r hf
  rw [he]
  exact issue_lane each also preds res r (goodDst_of_ready r (hd s)) hf rfl

/-- An instruction whose meaning issues a lane computation does what the law of lane instructions says. -/
theorem laneDoes_of {i : Instr} {h : Head} {sp : State → Spec} {res : Ctx → Nat → LaneRes}
    (he : ∀ s, exec i s = issue i h (sp s) (fun c => c.lane (res c) noMore) s)
    (hd : ∀ s d, (sp s).dst = some d → dstFits d) : LaneDoes i h sp res := by
  intro s r hf
  rw [he]
  exact issue_lane false [] _ res r (goodDst_of_ready r (hd s)) hf rfl

/-! ## Results that come later (R35, R36) -/

/-- The state of a class T instruction with a set-A flag before it retires. -/
def laterState (c : Ctx) (d : Dst) (rs : List (Nat × LaneRes)) (s : State) : State :=
  s.setPod { s.pod with
    pend := s.pod.pend ++ outstandingOf c d rs
    flags := s.pod.flags.set c.head.seta.toNat (s.pod.flags.get c.head.seta.toNat + BitVec.ofNat 16 rs.length)
    seed := (Machine.conditions (rs.map fun (x : Nat × LaneRes) => (x.1, { x.2 with fl := 0 })) s.pod).seed }

theorem foldl_or_zero (l : List (Nat × LaneRes)) (f : BitVec 6) :
    (l.map fun (x : Nat × LaneRes) => (x.1, { x.2 with fl := 0 })).foldl (fun f x => f ||| x.2.fl) f = f := by
  induction l with
  | nil => rfl
  | cons x l ih =>
    simp only [List.map_cons, List.foldl_cons]
    rw [show f ||| (0 : BitVec 6) = f from BitVec.or_zero]
    exact ih

theorem nameFlag_eq (p : Pod) (f : BitVec 4) (n : Nat) (h : f.toNat < 12) :
    p.nameFlag f n = { p with flags := p.flags.set f.toNat (p.flags.get f.toNat + BitVec.ofNat 16 n) } := by
  unfold Pod.nameFlag; rw [if_pos h]

/-- The outstanding results of a class T instruction to one destination. -/
def pendsOf (c : Ctx) (d : Dst) (rs : List (Nat × LaneRes)) (dest : Nat → Dest) : List Pend :=
  rs.map fun x =>
    { kind := .classT, serial := c.s.pod.serial, dest := dest x.1, tag := d.tag, value := BitVec.ofNat 256 x.2.val, reqs := []
      size := 4 * d.regs, seta := c.head.seta, setb := 15, thread := x.1, addr := 0, uncorr := false, fl := x.2.fl
      was := (c.s.pod.destNow (dest x.1)).1, wasTag := (c.s.pod.destNow (dest x.1)).2, trap := c.s.pod.trapLevel }

theorem outstandingOf_v (c : Ctx) (d : Dst) (rs : List (Nat × LaneRes)) (r : Nat) (h : classOf d.code = (.v, r)) :
    outstandingOf c d rs = pendsOf c d rs fun t => .vregs t r d.regs := by
  unfold outstandingOf; simp only [h]; rfl

theorem outstandingOf_k (c : Ctx) (d : Dst) (rs : List (Nat × LaneRes)) (r : Nat) (h : classOf d.code = (.k, r)) :
    outstandingOf c d rs = pendsOf c d rs fun _ => .kregs r d.regs := by
  unfold outstandingOf; simp only [h]; rfl

theorem writeLater_eq (c : Ctx) (d : Dst) (rs : List (Nat × LaneRes)) (s : State) (hd : c.sp.dst = some d)
    (hc : (classOf d.code).1 = .v ∨ (classOf d.code).1 = .k) (hf : c.head.seta.toNat < 12) (hpod : s.pod = c.s.pod) :
    c.writeLater rs s = laterState c d rs s := by
  have hcf := conditions_frame (rs.map fun (x : Nat × LaneRes) => (x.1, { x.2 with fl := 0 })) s.pod
  have hfl := conditions_fl (rs.map fun (x : Nat × LaneRes) => (x.1, { x.2 with fl := 0 })) s.pod
  rw [foldl_or_zero] at hfl
  rw [hfl] at hcf
  have hw : ∀ l, { (Machine.conditions (rs.map fun (x : Nat × LaneRes) => (x.1, { x.2 with fl := 0 })) s.pod).nameFlag c.head.seta rs.length with
      pend := (Machine.conditions (rs.map fun (x : Nat × LaneRes) => (x.1, { x.2 with fl := 0 })) s.pod).pend ++ l } = { s.pod with
      pend := s.pod.pend ++ l
      flags := s.pod.flags.set c.head.seta.toNat (s.pod.flags.get c.head.seta.toNat + BitVec.ofNat 16 rs.length)
      seed := (Machine.conditions (rs.map fun (x : Nat × LaneRes) => (x.1, { x.2 with fl := 0 })) s.pod).seed } := by
    intro l
    rw [nameFlag_eq _ _ _ hf]
    generalize Machine.conditions (rs.map fun (x : Nat × LaneRes) => (x.1, { x.2 with fl := 0 })) s.pod = q at hcf ⊢
    rw [hcf]
  obtain ⟨cl, r, hcl⟩ : ∃ cl r, classOf d.code = (cl, r) := ⟨_, _, rfl⟩
  rw [laterState]
  unfold Ctx.writeLater Ctx.outstanding
  dsimp only
  rw [hd]
  dsimp only
  rw [hcl] at hc ⊢
  rcases hc with hc | hc <;> (dsimp only at hc; subst hc; dsimp only; rw [hw])
  · rw [outstandingOf_v c d rs r hcl, pendsOf, hpod]
  · rw [outstandingOf_k c d rs r hcl, pendsOf, hpod]

theorem Pod.retire_later (q : Pod) (pend : List Pend) (flags : Cells 16) (seed : Cells 32) (this : Dword) (d : Nat) (act moved : Mask) :
    ({ q with pend := pend, flags := flags, seed := seed } : Pod).retire this d act moved =
      { q.retire this d act moved with pend := pend, flags := flags, seed := seed } := by
  have h1 : ∀ (q : Pod) (l : List LoopEntry), ({ q with pend := pend, flags := flags, seed := seed } : Pod).setLoops l =
      { q.setLoops l with pend := pend, flags := flags, seed := seed } := by
    intro q l; unfold Pod.setLoops; dsimp only; split <;> rfl
  have h2 : ∀ (q : Pod) (m : Mask) (a : Dword), ({ q with pend := pend, flags := flags, seed := seed } : Pod).goto m a =
      { q.goto m a with pend := pend, flags := flags, seed := seed } := by
    intro q m a; unfold Pod.goto Pod.onCtl Pod.setCtl Pod.ctl; dsimp only; split <;> rfl
  have h3 : ∀ q : Pod, ({ q with pend := pend, flags := flags, seed := seed } : Pod).popEmpty =
      { q.popEmpty with pend := pend, flags := flags, seed := seed } := by
    intro q; unfold Pod.popEmpty; rw [h1]; rfl
  have hl : ({ q with pend := pend, flags := flags, seed := seed } : Pod).loopStack = q.loopStack := rfl
  unfold Pod.retire
  dsimp only
  rw [hl]
  split
  · rw [h3]
  · split <;> rw [h1, h2, h3]

theorem Pod.leaveTx_later (q : Pod) (pend : List Pend) (flags : Cells 16) (seed : Cells 32) :
    ({ q with pend := pend, flags := flags, seed := seed } : Pod).leaveTx =
      { q.leaveTx with pend := pend, flags := flags, seed := seed } := by
  have h2 : ∀ (q : Pod) (m : Mask) (a : Dword), ({ q with pend := pend, flags := flags, seed := seed } : Pod).goto m a =
      { q.goto m a with pend := pend, flags := flags, seed := seed } := by
    intro q m a; unfold Pod.goto Pod.onCtl Pod.setCtl Pod.ctl; dsimp only; split <;> rfl
  have h : ∀ (l : List TxThread) (q : Pod),
      l.foldl (fun (q : Pod) x => q.goto (one x.thread) x.resume) ({ q with pend := pend, flags := flags, seed := seed } : Pod) =
      { l.foldl (fun (q : Pod) x => q.goto (one x.thread) x.resume) q with pend := pend, flags := flags, seed := seed } := by
    intro l
    induction l with
    | nil => intro q; rfl
    | cons x l ih => intro q; simp only [List.foldl_cons, h2, ih]
  unfold Pod.leaveTx
  dsimp only
  split
  · rfl
  · rw [h]

theorem retired_later (c : Ctx) (moved : Mask) (s : State) (pend : List Pend) (flags : Cells 16) (seed : Cells 32) (u : State)
    (hc : u.cycle = s.cycle) (hu : u.pod = { s.pod with pend := pend, flags := flags, seed := seed }) :
    retired c moved u = { retired c moved s with pend := pend, flags := flags, seed := seed } := by
  unfold retired
  rw [hu, hc, Pod.retire_later, Pod.leaveTx_later]

theorem find_map_fl (rs : List (Nat × LaneRes)) (u : Nat) :
    (((rs.map fun (x : Nat × LaneRes) => (x.1, { x.2 with fl := 0 })).find? fun x => x.1 = u).bind fun x => x.2.seed) =
      (rs.find? fun x => x.1 = u).bind fun x => x.2.seed := by
  induction rs with
  | nil => rfl
  | cons x l ih =>
    by_cases h : x.1 = u
    · simp [h]
    · simp only [List.map_cons]
      rw [List.find?_cons_of_neg (by simp [h]), List.find?_cons_of_neg (by simp [h]), ih]

/-- The law of class T instructions whose results come later. -/
theorem issue_later {i : Instr} {h : Head} {sp : Spec} {s : State} (res : Ctx → Nat → LaneRes) {d : Dst} (r : Ready i h sp s)
    (hd : sp.dst = some d) (hc : (classOf d.code).1 = .v ∨ (classOf d.code).1 = .k) (hsf : h.seta.toNat < 12)
    (hf : Fed (issueCtx s h sp)) {body : Ctx → Eff}
    (hb : body (issueCtx s h sp) = (issueCtx s h sp).laneWith (issueCtx s h sp).writeLater (res (issueCtx s h sp))) :
    ∃ t, issue i h sp body s = .next t ∧
      LaterEffect (issueCtx s h sp) d (results (issueCtx s h sp) (res (issueCtx s h sp))) t := by
  have gl := goodLanes false s h sp
  have hst : (issueCtx s h sp).s.pod.stepping = false := r.unstepped
  have hha : (issueCtx s h sp).s.pod.halted = false := r.unhalted
  rw [issue_of_ready r, hb]
  have hdc : (issueCtx s h sp).sp.dst = some d := hd
  have hhead : (issueCtx s h sp).head.seta.toNat < 12 := hsf
  have e : ∀ u : State, s.begin.finish (issueCtx s h sp) (Eff.done u 0) =
      u.complete (issueCtx s h sp).this (issueCtx s h sp).s.pod.depth (issueCtx s h sp).act 0 := fun _ => rfl
  have ec : s.core = (issueCtx s h sp).s.core := rfl
  rw [perThread, if_neg (by simp)] at gl
  generalize issueCtx s h sp = c at *
  have hrs : (results c (res c)).map (·.1) = c.lanes := by simp [results, List.map_map, Function.comp_def]
  have hlen : (results c (res c)).length = c.lanes.length := List.length_map ..
  have h1 : (c.lanes.filter fun t => (c.readFault t).isSome) = [] := by
    rw [List.filter_eq_nil_iff]; intro t ht; simp [hf.sound t ht]
  have hl : c.laneWith c.writeLater (res c) = .done (c.writeLater (results c (res c)) (c.claim (results c (res c)).length c.s)) 0 := by
    unfold Ctx.laneWith Ctx.ports
    simp only [hf.fits, hf.ready, h1, Bool.not_true, Bool.false_eq_true, if_false]
    rw [hlen]; rfl
  rw [hl]
  simp only [Eff.holds, Bool.false_eq_true, if_false]
  rw [e, ec]
  refine ⟨_, rfl, ?_⟩
  generalize results c (res c) = rs at *
  have hcl := Ctx.claim_local c rs.length c.s
  have hcp := Ctx.claim_pod c rs.length c.s
  have hcr := Ctx.claim_ring c rs.length
  rw [writeLater_eq c d rs _ hdc hc hhead hcp]
  generalize c.claim rs.length c.s = s0 at hcl hcp hcr
  have hus : (laterState c d rs s0).pod.stepping = false := by
    show s0.pod.stepping = false
    rw [hcp]; exact hst
  have huh : (laterState c d rs s0).pod.halted = false := by
    show s0.pod.halted = false
    rw [hcp]; exact hha
  have hstate : (laterState c d rs s0) = { c.s with pod := (laterState c d rs s0).pod, team := s0.team } := by
    have := hcl.state
    unfold laterState State.setPod
    dsimp only
    rw [this]
  have hnd : ((rs.map fun (x : Nat × LaneRes) => (x.1, { x.2 with fl := 0 })).map (·.1)).Nodup := by
    simpa [List.map_map, Function.comp_def, hrs] using gl.nodup
  have hse := conditions_seed (rs.map fun (x : Nat × LaneRes) => (x.1, { x.2 with fl := 0 })) c.s.pod hnd
  generalize c.laneUse i (.done (laterState c d rs s0) 0) = use
  have ret := retires_of c 0 (laterState c d rs s0) c.uni use hus huh
  generalize ((laterState c d rs s0).complete c.this c.s.pod.depth c.act 0).countIssue c.s.core c.uni use = t at ret
  have hpod : (laterState c d rs s0).pod = { c.s.pod with
    pend := c.s.pod.pend ++ outstandingOf c d rs
    flags := c.s.pod.flags.set c.head.seta.toNat (c.s.pod.flags.get c.head.seta.toNat + BitVec.ofNat 16 rs.length)
    seed := (Machine.conditions (rs.map fun (x : Nat × LaneRes) => (x.1, { x.2 with fl := 0 })) c.s.pod).seed } := by
    unfold laterState; rw [State.setPod_pod, hcp]
  have h1 := congrArg State.pod ret.state
  have h2 := congrArg State.team ret.state
  have h3 := congrArg State.mem ret.state
  dsimp only at h1 h2 h3
  have hcy : (laterState c d rs s0).cycle = c.s.cycle := by rw [hstate]
  rw [retired_later c 0 c.s _ _ _ _ hcy hpod] at h1
  have hteam : (laterState c d rs s0).team = s0.team := rfl
  have h4 : t.pod.seed = (Machine.conditions (rs.map fun (x : Nat × LaneRes) => (x.1, { x.2 with fl := 0 })) c.s.pod).seed := by rw [h1]
  refine ⟨?_, ?_, fun m => ?_, ?_, fun u => ?_, ⟨fun h0 => ?_, fun n hn => ?_⟩, fun a => ?_⟩
  · rw [ret.state, hstate]
  · rw [h2, hteam]; exact hcl.team
  · rw [h2, hteam]; exact hcr m
  · rw [h4]; exact h1
  · rw [h4, hse, find_map_fl]
  · have := ret.counted.off ((congrArg State.esel hstate).trans h0)
    rw [hstate] at this; exact this
  · have := ret.counted.others n hn
    rw [hstate] at this; exact this
  · have : t.mem = c.s.mem := by rw [h3, hstate]
    simp only [State.rdByte, this]

/-- An instruction whose meaning issues a class T lane computation does what its law says. -/
theorem laneTDoes_of {i : Instr} {h : Head} {sp : State → Spec} {res : Ctx → Nat → LaneRes}
    (he : ∀ s, exec i s = issue i h (sp s) (fun c => c.laneT (res c)) s)
    (hd : ∀ s d, (sp s).dst = some d → dstFits d) : LaneTDoes i h sp res := by
  intro s r hf
  rw [he]
  have hhead : (issueCtx s h (sp s)).head = h := rfl
  by_cases hk : h.seta.toNat < 12
  · by_cases hv : ∃ d, (sp s).dst = some d ∧ ((classOf d.code).1 = .v ∨ (classOf d.code).1 = .k)
    · obtain ⟨d, h1, h2⟩ := hv
      obtain ⟨t, ht, hl⟩ := issue_later res r h1 h2 hk hf (body := fun c => c.laneT (res c)) (by
        unfold Ctx.laneT; rw [hhead, if_pos hk])
      exact ⟨t, ht, .inl ⟨d, h1, hk, h2, hl⟩⟩
    · have hn : ∀ d, (sp s).dst = some d → (classOf d.code).1 ≠ .v ∧ (classOf d.code).1 ≠ .k := by
        intro d h1
        exact ⟨fun e => hv ⟨d, h1, .inl e⟩, fun e => hv ⟨d, h1, .inr e⟩⟩
      obtain ⟨t, ht, hl⟩ := issue_lane false [] (fun _ _ => false) res r (goodDst_of_ready r (hd s)) hf
        (body := fun c => c.laneT (res c)) (by
        unfold Ctx.laneT Ctx.lane
        rw [hhead, if_pos hk]
        simp only [perThread, Bool.false_eq_true, if_false]
        congr 1
        funext rs u
        unfold Ctx.writeLater Ctx.outstanding
        dsimp only
        have hsp : (issueCtx s h (sp s)).sp.dst = (sp s).dst := rfl
        rw [hsp]
        cases hd' : (sp s).dst with
        | none => rfl
        | some d =>
          dsimp only
          have h3 := hn d hd'
          obtain ⟨cl, a, hcl⟩ : ∃ cl a, classOf d.code = (cl, a) := ⟨_, _, rfl⟩
          rw [hcl] at h3 ⊢
          cases cl <;> first | rfl | exact absurd rfl h3.1 | exact absurd rfl h3.2)
      exact ⟨t, ht, .inr ⟨fun _ => hn, hl⟩⟩
  · obtain ⟨t, ht, hl⟩ := issue_lane false [] (fun _ _ => false) res r (goodDst_of_ready r (hd s)) hf
      (body := fun c => c.laneT (res c)) (by
      unfold Ctx.laneT
      rw [hhead, if_neg hk]; rfl)
    exact ⟨t, ht, .inr ⟨fun e => absurd e hk, hl⟩⟩

end Sys2Proof.Machine
end

