-- ==== Sys2Proof/Laws/Does.lean ====
section
/-! SUPPORT. How a meaning that is one issue gives what an instruction does: completions, results of several threads, traps and waits; and
the operand widths of the usual destinations. -/
namespace Sys2Proof.Machine

open Sys2Proof.Claims

/-! ## Destinations -/

theorem tyRegs_le (ty : BitVec 3) : tyRegs ty ≤ 2 ∧ 0 < tyRegs ty := by unfold tyRegs; split <;> omega

theorem wRegs_le (l : BitVec 3) : wRegs l ≤ 8 ∧ 0 < wRegs l := by unfold wRegs; repeat' (first | omega | split)

theorem fits_int (c : Code) (ty : BitVec 3) : dstFits (intDst c ty) :=
  ⟨by have := tyRegs_le ty; simp only [intDst]; omega, fun _ => (tyRegs_le ty).2, by simp [intDst, anyDst]⟩

theorem fits_w (c : Code) (w : BitVec 3) (tag : BitVec 5) : dstFits { code := c, acc := anyDst, regs := wRegs w, tag := tag } :=
  ⟨by have := wRegs_le w; simp only; omega, fun _ => (wRegs_le w).2, by simp [anyDst]⟩

theorem fits_1 (c : Code) (acc : List OpClass) (tag : BitVec 5) : dstFits { code := c, acc := acc, regs := 1, tag := tag } :=
  ⟨by simp, by simp, by simp⟩

theorem fits_p (c : Code) : dstFits (predDst c) := ⟨by simp [predDst], by simp [predDst], by simp [predDst]⟩

theorem fits_flt (c : Code) (w : Bool) : dstFits (fltDst c w) := by
  cases w <;> exact ⟨by simp [fltDst, scalarRegs], by simp [fltDst, scalarRegs], by simp [fltDst, anyDst]⟩

theorem fits_v (c : Code) (n : Nat) (tag : BitVec 5) (h : n ≤ 384) : dstFits (vDst c n tag) := ⟨h, by simp [vDst], by simp [vDst]⟩

theorem fits_g (c : Code) : dstFits (gDst c) := ⟨by simp [gDst], by simp [gDst], by simp [gDst]⟩

/-! ## Contexts -/

theorem lanes_headD_lt (c : Ctx) (h : ∀ t ∈ c.eff, t < 128) : c.lanes.headD 0 < 128 := by
  cases hl : c.lanes with
  | nil => simp
  | cons t l => exact h t ((lanes_sub c).subset (hl ▸ List.mem_cons_self ..))

/-! ## Effects -/

/-- An instruction whose meaning issues a body that completes does what its completion says. -/
theorem does_of {i : Instr} {h : Head} {sp : State → Spec} {pre : Ctx → Prop} {post : Ctx → State → Prop} {body : Ctx → Eff}
    {u : Ctx → State} {moved : Ctx → Mask}
    (he : ∀ s, exec i s = issue i h (sp s) body s)
    (hb : ∀ c, pre c → body c = .done (u c) (moved c))
    (hs : ∀ c, (u c).pod.stepping = c.s.pod.stepping) (hh : ∀ c, (u c).pod.halted = c.s.pod.halted)
    (hp : ∀ c t, Retires c (moved c) (u c) t → post c t) : Does i h sp pre post := by
  intro s r hpre
  rw [he]
  obtain ⟨t, ht, hr⟩ := issue_done r (hb _ hpre) ((hs _).trans r.unstepped) ((hh _).trans r.unhalted)
  exact ⟨t, ht, hp _ _ hr⟩

/-- A cross-thread instruction whose meaning delivers its results does what the law of cross-thread instructions says. -/
theorem gatherDoesIf_of {pre : Ctx → Prop} {i : Instr} {h : Head} {sp : State → Spec} {rs : Ctx → List (Nat × LaneRes)}
    {body : State → Ctx → Eff} (he : ∀ s, exec i s = issue i h (sp s) (body s) s) (hd : ∀ s d, (sp s).dst = some d → dstFits d)
    (hb : ∀ s c, pre c → body s c = .done (c.deliver (rs c) c.s) 0)
    (hn : ∀ c : Ctx, c.eff.Nodup → ((rs c).map (·.1)).Nodup)
    (hlt : ∀ c : Ctx, (∀ t ∈ c.eff, t < 128) → ∀ x ∈ rs c, x.1 < 128) : GatherDoesIf pre i h sp rs := by
  intro s r hpre
  rw [he]
  exact issue_gather _ r (goodDst_of_ready r (hd s)) (hn _ (issueCtx_eff_nodup ..)) (hlt _ (issueCtx_eff_lt s h (sp s)))
    (hb s _ hpre)

/-- A uniform result is delivered by writing it once: it raises no condition. -/
theorem deliver_onceRes (c : Ctx) (x : Nat) : c.deliver (onceRes c x) c.s = c.put x c.s := by
  unfold Ctx.deliver Ctx.put onceRes Machine.conditions
  simp only [List.foldl_cons, List.foldl_nil, Pod.raiseFl]
  rw [show ((c.write [(c.lanes.headD 0, { val := x })] c.s).pod.fl ||| (0 : BitVec 6)) =
    (c.write [(c.lanes.headD 0, { val := x })] c.s).pod.fl from BitVec.or_zero]
  rfl

theorem nodup_map_self {l : List Nat} {α : Type} {f : Nat → Nat × α} (hf : ∀ t, (f t).1 = t) (h : l.Nodup) :
    ((l.map f).map (·.1)).Nodup := by
  rw [List.map_map, show ((fun x : Nat × α => x.1) ∘ f) = id from funext hf, List.map_id]
  exact h

/-- An instruction whose meaning raises a cause does what the trap says. -/
theorem traps_of {i : Instr} {h : Head} {sp : State → Spec} {pre : Ctx → Prop} {r : Ctx → TrapReq} {body : Ctx → Eff}
    (he : ∀ s, exec i s = issue i h (sp s) body s)
    (hb : ∀ c, pre c → body c = .raise (r c) c.s) : Traps i h sp pre r := by
  intro s rd hpre
  rw [he, issue_of_ready rd, hb _ hpre]
  generalize (issueCtx s h (sp s)).laneUse i (.raise (r (issueCtx s h (sp s))) (issueCtx s h (sp s)).s) = use
  have ho := State.countIssue_only ((issueCtx s h (sp s)).s.raise (r (issueCtx s h (sp s)))) s.core (issueCtx s h (sp s)).uni use
  refine ⟨_, rfl, ho.1, fun h0 => ?_, ho.2⟩
  have e : State.countIssue _ s.core (issueCtx s h (sp s)).uni use = _ :=
    State.countIssue_off ((issueCtx s h (sp s)).s.raise (r (issueCtx s h (sp s)))) s.core (issueCtx s h (sp s)).uni _ h0
  exact ⟨congrArg State.ecnt e, congrArg State.free e⟩

/-- An instruction whose meaning waits does what the wait says. -/
theorem waits_of {i : Instr} {h : Head} {sp : State → Spec} {k : Ctx → WaitKind} {pre : Ctx → Prop} {u : Ctx → State} {body : Ctx → Eff}
    (he : ∀ s, exec i s = issue i h (sp s) body s)
    (hb : ∀ c, pre c → body c = .hold (k c) (u c)) : Waits i h sp k pre u := by
  intro s r hpre hs
  rw [he, issue_of_ready r, hb _ hpre]
  simp only [Eff.holds, if_true, State.finish, hs, Bool.false_and, Bool.false_eq_true, if_false]

/-! ## Threads in turn -/

theorem runThreads_done (c : Ctx) (act : Nat → State → Act) (ts : List Nat) (m : Mask) (s : State) (m' : Mask) (u : State)
    (h : inTurn act ts m s = some (m', u)) : c.runThreads act ts m s = .done u m' := by
  induction ts generalizing m s with
  | nil => cases h; rfl
  | cons t ts ih =>
    simp only [inTurn] at h
    simp only [Ctx.runThreads]
    split at h
    · next e => rw [e]; exact ih _ _ h
    · next e => rw [e]; exact ih _ _ h
    · cases h

theorem turns_done (c : Ctx) (s : State) (act : Nat → State → Act) (m : Mask) (u : State) (hl : c.s.pod.lingers = false)
    (h : inTurn act c.lanes 0 s = some (m, u)) : c.turns s act = .done u m := by
  unfold Ctx.turns
  rw [hl]
  exact runThreads_done c act c.lanes 0 s m u h

theorem outsideTx_of (c : Ctx) (go : Eff) (h : c.txThreads = []) : c.outsideTx go = go := by unfold Ctx.outsideTx; rw [h]

/-- An instruction whose meaning runs its threads in turn does what they do. -/
theorem turnsDo_of {i : Instr} {h : Head} {sp : State → Spec} {pre : Ctx → Prop} {threads : Ctx → List Nat} {start : Ctx → State}
    {act : Ctx → Nat → State → Act} {body : Ctx → Eff} (he : ∀ s, exec i s = issue i h (sp s) body s)
    (hb : ∀ c m u, pre c → inTurn (act c) (threads c) 0 (start c) = some (m, u) → body c = .done u m) :
    TurnsDo i h sp pre threads start act := by
  intro s m u c r hp ht hs hh
  rw [he]
  exact issue_done r (hb c m u hp ht) hs hh

end Sys2Proof.Machine
end

