-- ==== Sys2Proof/Laws/Encoding.lean ====
section
/-! SUPPORT. Laws of the encoder: the fields of an assembled word are the ones it was assembled from. -/
namespace Sys2Proof

/-- The high part of an appended word. -/
theorem extract_high {m n : Nat} (x : BitVec m) (y : BitVec n) (s len : Nat) (h : n ≤ s) :
    (x ++ y).extractLsb' s len = x.extractLsb' (s - n) len := BitVec.extractLsb'_append_eq_of_le h

/-- The low part of an appended word. -/
theorem extract_low {m n : Nat} (x : BitVec m) (y : BitVec n) (s len : Nat) (h : s + len ≤ n) :
    (x ++ y).extractLsb' s len = y.extractLsb' s len := BitVec.extractLsb'_append_eq_of_add_le h

/-- The whole of a word. -/
theorem extract_all {n : Nat} (x : BitVec n) : x.extractLsb' 0 n = x := BitVec.extractLsb'_eq_self

theorem op_encWord (op : BitVec 10) (h : Head) (b : BitVec 61) : (encWord op h b).op = op := by
  unfold IWord.op encWord
  repeat (first | rw [extract_high _ _ _ _ (by omega)] | rw [extract_low _ _ _ _ (by omega)])
  exact extract_all _

theorem head_encWord (op : BitVec 10) (h : Head) (b : BitVec 61) : (encWord op h b).head = h := by
  obtain ⟨n, p, w, a, b'⟩ := h
  simp only [IWord.head, encWord, Head.mk.injEq]
  refine ⟨?_, ?_, ?_, ?_, ?_⟩
  · simp only [BitVec.getLsbD_append, Nat.reduceSub, Nat.reduceLT, reduceIte]; simp
  all_goals
    repeat (first | rw [extract_high _ _ _ _ (by omega)] | rw [extract_low _ _ _ _ (by omega)])
    exact extract_all _

/-- The body of an assembled word, by ranges. -/
theorem body_encWord (op : BitVec 10) (h : Head) (b : BitVec 61) (s len : Nat) (h1 : 20 ≤ s) (h2 : s + len ≤ 81) :
    (encWord op h b).extractLsb' s len = b.extractLsb' (s - 20) len := by
  unfold encWord
  rw [extract_high _ _ _ _ (by omega), extract_high _ _ _ _ (by omega), extract_high _ _ _ _ (by omega),
    extract_low _ _ _ _ (by omega)]
  congr 1

theorem formR_encR (op : BitVec 10) (h : Head) (f : FormR) : (encR op h f).formR = f := by
  obtain ⟨d, a, b, c, s, m, g⟩ := f
  simp only [IWord.formR, encR, FormR.mk.injEq]
  refine ⟨?_, ?_, ?_, ?_, ?_, ?_, ?_⟩
  all_goals
    rw [body_encWord _ _ _ _ _ (by omega) (by omega)]
    repeat (first | rw [extract_high _ _ _ _ (by omega)] | rw [extract_low _ _ _ _ (by omega)])
    exact extract_all _

theorem formI_encI (op : BitVec 10) (h : Head) (f : FormI) : (encI op h f).formI = f := by
  obtain ⟨d, a, i, m, g⟩ := f
  simp only [IWord.formI, encI, FormI.mk.injEq]
  refine ⟨?_, ?_, ?_, ?_, ?_⟩
  all_goals
    rw [body_encWord _ _ _ _ _ (by omega) (by omega)]
    repeat (first | rw [extract_high _ _ _ _ (by omega)] | rw [extract_low _ _ _ _ (by omega)])
    exact extract_all _

theorem formQ_encQ (op : BitVec 10) (h : Head) (f : FormQ) : (encQ op h f).formQ = f := by
  obtain ⟨d, a, b, c, s, g⟩ := f
  simp only [IWord.formQ, encQ, FormQ.mk.injEq]
  refine ⟨?_, ?_, ?_, ?_, ?_, ?_⟩
  all_goals
    rw [body_encWord _ _ _ _ _ (by omega) (by omega)]
    repeat (first | rw [extract_high _ _ _ _ (by omega)] | rw [extract_low _ _ _ _ (by omega)])
    exact extract_all _

theorem formB_encB (op : BitVec 10) (h : Head) (f : FormB) : (encB op h f).formB = f := by
  obtain ⟨l, a, o, g⟩ := f
  simp only [IWord.formB, encB, FormB.mk.injEq]
  refine ⟨?_, ?_, ?_, ?_⟩
  all_goals
    rw [body_encWord _ _ _ _ _ (by omega) (by omega)]
    repeat (first | rw [extract_high _ _ _ _ (by omega)] | rw [extract_low _ _ _ _ (by omega)])
    exact extract_all _

/-- One bit of the body of an assembled word. -/
theorem bodyBit_encWord (op : BitVec 10) (h : Head) (b : BitVec 61) (i : Nat) (h1 : 20 ≤ i) (h2 : i < 81) :
    (encWord op h b).getLsbD i = b.getLsbD (i - 20) := by
  simp only [encWord, BitVec.getLsbD_append]
  rw [if_neg (by omega), if_neg (by omega), if_neg (by omega), if_pos (by omega)]
  congr 1

theorem formM_encM (op : BitVec 10) (h : Head) (f : FormM) : (encM op h f).formM = f := by
  obtain ⟨d, b, i, o, sc, od, at_, sz, hi, nf, ty, r⟩ := f
  simp only [IWord.formM, encM, FormM.mk.injEq]
  refine ⟨?_, ?_, ?_, ?_, ?_, ?_, ?_, ?_, ?_, ?_, ?_, ?_⟩
  case refine_10 | refine_11 =>
    rw [bodyBit_encWord _ _ _ _ (by omega) (by omega)]
    simp only [BitVec.getLsbD_append, Nat.reduceSub, Nat.reduceLT, reduceIte]; simp
  all_goals
    rw [body_encWord _ _ _ _ _ (by omega) (by omega)]
    repeat (first | rw [extract_high _ _ _ _ (by omega)] | rw [extract_low _ _ _ _ (by omega)])
    exact extract_all _

/-- Form flag [26] of an assembled word is bit 6 of its flags. -/
theorem flag26_encR (op : BitVec 10) (h : Head) (f : FormR) : (encR op h f).getLsbD 26 = f.flags.getLsbD 6 := by
  rw [encR, bodyBit_encWord _ _ _ _ (by omega) (by omega)]
  simp only [BitVec.getLsbD_append, Nat.reduceSub, Nat.reduceLT, reduceIte]

theorem flag26_encI (op : BitVec 10) (h : Head) (f : FormI) : (encI op h f).getLsbD 26 = f.flags.getLsbD 6 := by
  rw [encI, bodyBit_encWord _ _ _ _ (by omega) (by omega)]
  simp only [BitVec.getLsbD_append, Nat.reduceSub, Nat.reduceLT, reduceIte]

/-- An R/I form that keeps R67 comes back from its word. -/
theorem formRI_encRI (op : BitVec 10) (h : Head) (f : FormRI) (w : f.wf = true) : (encRI op h f).formRI = f := by
  cases f with
  | r f =>
    simp only [FormRI.wf, Bool.and_eq_true, Bool.not_eq_true'] at w
    rw [encRI, IWord.formRI, flag26_encR, w.2, formR_encR]; rfl
  | i f => rw [encRI, IWord.formRI, flag26_encI, show f.flags.getLsbD 6 = true from w, formI_encI]; rfl

@[simp] theorem op_encR (op : BitVec 10) (h : Head) (f : FormR) : (encR op h f).op = op := op_encWord ..
@[simp] theorem op_encI (op : BitVec 10) (h : Head) (f : FormI) : (encI op h f).op = op := op_encWord ..
@[simp] theorem op_encQ (op : BitVec 10) (h : Head) (f : FormQ) : (encQ op h f).op = op := op_encWord ..
@[simp] theorem op_encB (op : BitVec 10) (h : Head) (f : FormB) : (encB op h f).op = op := op_encWord ..
@[simp] theorem op_encM (op : BitVec 10) (h : Head) (f : FormM) : (encM op h f).op = op := op_encWord ..
@[simp] theorem op_encRI (op : BitVec 10) (h : Head) (f : FormRI) : (encRI op h f).op = op := by cases f <;> exact op_encWord ..
@[simp] theorem head_encR (op : BitVec 10) (h : Head) (f : FormR) : (encR op h f).head = h := head_encWord ..
@[simp] theorem head_encI (op : BitVec 10) (h : Head) (f : FormI) : (encI op h f).head = h := head_encWord ..
@[simp] theorem head_encQ (op : BitVec 10) (h : Head) (f : FormQ) : (encQ op h f).head = h := head_encWord ..
@[simp] theorem head_encB (op : BitVec 10) (h : Head) (f : FormB) : (encB op h f).head = h := head_encWord ..
@[simp] theorem head_encM (op : BitVec 10) (h : Head) (f : FormM) : (encM op h f).head = h := head_encWord ..
@[simp] theorem head_encRI (op : BitVec 10) (h : Head) (f : FormRI) : (encRI op h f).head = h := by cases f <;> exact head_encWord ..

end Sys2Proof
end

