-- ==== Sys2Proof/Laws/Memory.lean ====
section
/-! SUPPORT. Laws of memory: every operation that writes it keeps its canonical form, and a read after a write. -/
namespace Sys2Proof.Machine

/-- One byte read after one byte was written. -/
@[simp] theorem State.rdByte_wrByte (s : State) (pa a : Nat) (b : Byte) :
    (s.wrByte pa b).rdByte a = if a = pa then b else s.rdByte a := look_store ..

/-- Writing one byte keeps the canonical form. -/
theorem State.wrByte_wf (s : State) (pa : Nat) (b : Byte) (w : Memory.wf s.mem = true) :
    Memory.wf (s.wrByte pa b).mem = true := sortedFrom_store _ _ _ (Nat.zero_le _) w

/-- Writing bytes keeps the canonical form. -/
theorem State.wrAll_wf (s : State) (pas : List Nat) (bs : List Byte) (w : Memory.wf s.mem = true) :
    Memory.wf (s.wrAll pas bs).mem = true := by
  induction pas generalizing s bs with
  | nil => simpa [State.wrAll] using w
  | cons pa pas ih =>
    cases bs with
    | nil => simpa [State.wrAll] using w
    | cons b bs => exact ih _ _ (s.wrByte_wf pa b w)

/-- A write at home keeps the canonical form: the invalidation of stash lines touches no memory. -/
theorem State.writeHome_wf (s : State) (t : TeamId) (pas : List Nat) (bs : List Byte) (w : Memory.wf s.mem = true) :
    Memory.wf (s.writeHome t pas bs).mem = true := s.wrAll_wf pas bs w

/-- A write of a party without a team keeps the canonical form. -/
theorem State.writeOut_wf (s : State) (pa : Nat) (bs : List Byte) (w : Memory.wf s.mem = true) :
    Memory.wf (s.writeOut pa bs).mem = true := s.writeHome_wf _ _ _ w

/-- Stores of a list of cells keep the canonical form. -/
theorem Memory.wf_foldl (l m : List Host.Cell) (w : Memory.wf m = true) :
    Memory.wf (l.foldl (fun m (x : Host.Cell) => store Config.unwritten m x.1 x.2) m) = true := by
  induction l generalizing m with
  | nil => exact w
  | cons x l ih => exact ih _ (sortedFrom_store _ _ _ (Nat.zero_le _) w)

/-- Memory after a reset of the compute die is canonical. -/
theorem State.memAfterReset_wf (s : State) (w : Memory.wf s.mem = true) : Memory.wf s.memAfterReset = true :=
  Memory.wf_foldl _ _ w

/-- Memory after a package reset is canonical. -/
theorem execPackageReset_wf (s t : State) (h : execPackageReset s = .next t) : Memory.wf t.mem = true := by
  obtain rfl : _ = t := by simpa [execPackageReset] using h
  exact Memory.wf_foldl _ [] rfl

/-- A line that leaves L2 keeps the canonical form. -/
theorem State.l2WriteBack_wf (s : State) (line : Nat) (w : Memory.wf s.mem = true) : Memory.wf (s.l2WriteBack line).mem = true := by
  unfold State.l2WriteBack
  dsimp only
  split
  · exact w
  · split
    · exact w
    · exact Memory.wf_foldl _ _ w

/-- An eviction keeps the canonical form. -/
theorem execL2Eviction_wf (line : Nat) (s t : State) (h : execL2Eviction line s = .next t) (w : Memory.wf s.mem = true) :
    Memory.wf t.mem = true := by
  obtain rfl : _ = t := by simpa [execL2Eviction] using h
  exact s.l2WriteBack_wf _ w

/-- The placement of an instruction keeps the canonical form. -/
theorem State.withFetchWord_wf (s : State) (n w : Nat) (h : Memory.wf s.mem = true) : Memory.wf (s.withFetchWord n w).mem = true :=
  State.wrAll_wf _ _ _ (State.wrAll_wf _ _ _ (State.wrAll_wf _ _ _ h))

end Sys2Proof.Machine
end

