-- ==== Sys2Proof/Laws/PerInstr.lean ====
section
/-! SUPPORT. For every instruction: the decoder's opcode map gives it back from its word. -/
namespace Sys2Proof.Laws.Encodes

/-- A well-formed instruction is what the opcode map and the fields of its word give; an event has no word. -/
def Statement (i : Instr) : Prop := WellFormed i = true → i.isEvent = false → decodeOp (encode i) = some i

/-- The form's part of well-formedness. -/
theorem form_wf {a b : Bool} (w : (a && b) = true) : b = true := (Bool.and_eq_true_iff.mp w).2

theorem op_A (w : IWord) (k : Nat) (h : w.op.toNat = k) (b : k < 0x40) : decodeOp w = decodeGroupA w w.head k := by
  simp only [decodeOp, h, if_pos b]

theorem op_B (w : IWord) (k : Nat) (h : w.op.toNat = 0x040 + k) (b : k < 0x80) :
    decodeOp w = decodeGroupB w w.head k := by
  simp only [decodeOp, h]
  rw [if_neg (show ¬0x040 + k < 0x040 by omega), if_pos (show 0x040 + k < 0x0C0 by omega), Nat.add_sub_cancel_left]

theorem op_C (w : IWord) (k : Nat) (h : w.op.toNat = 0x0C0 + k) (b : k < 0xC0) :
    decodeOp w = decodeGroupC w w.head k := by
  simp only [decodeOp, h]
  rw [if_neg (show ¬0x0C0 + k < 0x040 by omega), if_neg (show ¬0x0C0 + k < 0x0C0 by omega), if_pos (show 0x0C0 + k < 0x180 by omega), Nat.add_sub_cancel_left]

theorem op_D (w : IWord) (k : Nat) (h : w.op.toNat = 0x180 + k) (b : k < 0x40) :
    decodeOp w = decodeGroupD w w.head k := by
  simp only [decodeOp, h]
  rw [if_neg (show ¬0x180 + k < 0x040 by omega), if_neg (show ¬0x180 + k < 0x0C0 by omega), if_neg (show ¬0x180 + k < 0x180 by omega), if_pos (show 0x180 + k < 0x1C0 by omega), Nat.add_sub_cancel_left]

theorem op_E (w : IWord) (k : Nat) (h : w.op.toNat = 0x1C0 + k) (b : k < 0x80) :
    decodeOp w = decodeGroupE w w.head k := by
  simp only [decodeOp, h]
  rw [if_neg (show ¬0x1C0 + k < 0x040 by omega), if_neg (show ¬0x1C0 + k < 0x0C0 by omega), if_neg (show ¬0x1C0 + k < 0x180 by omega), if_neg (show ¬0x1C0 + k < 0x1C0 by omega), if_pos (show 0x1C0 + k < 0x240 by omega), Nat.add_sub_cancel_left]

theorem op_F (w : IWord) (k : Nat) (h : w.op.toNat = 0x240 + k) (b : k < 0x40) :
    decodeOp w = decodeGroupF w w.head k := by
  simp only [decodeOp, h]
  rw [if_neg (show ¬0x240 + k < 0x040 by omega), if_neg (show ¬0x240 + k < 0x0C0 by omega), if_neg (show ¬0x240 + k < 0x180 by omega), if_neg (show ¬0x240 + k < 0x1C0 by omega), if_neg (show ¬0x240 + k < 0x240 by omega), if_pos (show 0x240 + k < 0x280 by omega), Nat.add_sub_cancel_left]

theorem op_G (w : IWord) (k : Nat) (h : w.op.toNat = 0x280 + k) (b : k < 0x40) :
    decodeOp w = decodeGroupG w w.head k := by
  simp only [decodeOp, h]
  rw [if_neg (show ¬0x280 + k < 0x040 by omega), if_neg (show ¬0x280 + k < 0x0C0 by omega), if_neg (show ¬0x280 + k < 0x180 by omega), if_neg (show ¬0x280 + k < 0x1C0 by omega), if_neg (show ¬0x280 + k < 0x240 by omega), if_neg (show ¬0x280 + k < 0x280 by omega), if_pos (show 0x280 + k < 0x2C0 by omega), Nat.add_sub_cancel_left]

theorem op_H (w : IWord) (k : Nat) (h : w.op.toNat = 0x2C0 + k) (b : k < 0x20) :
    decodeOp w = decodeGroupH w w.head k := by
  simp only [decodeOp, h]
  rw [if_neg (show ¬0x2C0 + k < 0x040 by omega), if_neg (show ¬0x2C0 + k < 0x0C0 by omega), if_neg (show ¬0x2C0 + k < 0x180 by omega), if_neg (show ¬0x2C0 + k < 0x1C0 by omega), if_neg (show ¬0x2C0 + k < 0x240 by omega), if_neg (show ¬0x2C0 + k < 0x280 by omega), if_neg (show ¬0x2C0 + k < 0x2C0 by omega), if_pos (show 0x2C0 + k < 0x2E0 by omega), Nat.add_sub_cancel_left]

theorem nop (h : Head) (f : FormR) : Statement (.nop h f) := fun _ _ => by
  show decodeOp (encR 0x000 h f) = some (.nop h f)
  rw [op_A _ 0 (by rw [op_encR]; rfl) (by decide)]
  show some (Instr.nop (encR 0x000 h f).head (encR 0x000 h f).formR) = _
  rw [head_encR, formR_encR]
theorem bra (h : Head) (f : FormB) : Statement (.bra h f) := fun _ _ => by
  show decodeOp (encB 0x001 h f) = some (.bra h f)
  rw [op_A _ 1 (by rw [op_encB]; rfl) (by decide)]
  show some (Instr.bra (encB 0x001 h f).head (encB 0x001 h f).formB) = _
  rw [head_encB, formB_encB]
theorem brx (h : Head) (f : FormB) : Statement (.brx h f) := fun _ _ => by
  show decodeOp (encB 0x002 h f) = some (.brx h f)
  rw [op_A _ 2 (by rw [op_encB]; rfl) (by decide)]
  show some (Instr.brx (encB 0x002 h f).head (encB 0x002 h f).formB) = _
  rw [head_encB, formB_encB]
theorem call (h : Head) (f : FormB) : Statement (.call h f) := fun _ _ => by
  show decodeOp (encB 0x003 h f) = some (.call h f)
  rw [op_A _ 3 (by rw [op_encB]; rfl) (by decide)]
  show some (Instr.call (encB 0x003 h f).head (encB 0x003 h f).formB) = _
  rw [head_encB, formB_encB]
theorem callx (h : Head) (f : FormB) : Statement (.callx h f) := fun _ _ => by
  show decodeOp (encB 0x004 h f) = some (.callx h f)
  rw [op_A _ 4 (by rw [op_encB]; rfl) (by decide)]
  show some (Instr.callx (encB 0x004 h f).head (encB 0x004 h f).formB) = _
  rw [head_encB, formB_encB]
theorem ret (h : Head) (f : FormB) : Statement (.ret h f) := fun _ _ => by
  show decodeOp (encB 0x005 h f) = some (.ret h f)
  rw [op_A _ 5 (by rw [op_encB]; rfl) (by decide)]
  show some (Instr.ret (encB 0x005 h f).head (encB 0x005 h f).formB) = _
  rw [head_encB, formB_encB]
theorem exitT (h : Head) (f : FormR) : Statement (.exitT h f) := fun _ _ => by
  show decodeOp (encR 0x006 h f) = some (.exitT h f)
  rw [op_A _ 6 (by rw [op_encR]; rfl) (by decide)]
  show some (Instr.exitT (encR 0x006 h f).head (encR 0x006 h f).formR) = _
  rw [head_encR, formR_encR]
theorem loop (h : Head) (f : FormB) : Statement (.loop h f) := fun _ _ => by
  show decodeOp (encB 0x007 h f) = some (.loop h f)
  rw [op_A _ 7 (by rw [op_encB]; rfl) (by decide)]
  show some (Instr.loop (encB 0x007 h f).head (encB 0x007 h f).formB) = _
  rw [head_encB, formB_encB]
theorem loopc (h : Head) (f : FormB) : Statement (.loopc h f) := fun _ _ => by
  show decodeOp (encB 0x008 h f) = some (.loopc h f)
  rw [op_A _ 8 (by rw [op_encB]; rfl) (by decide)]
  show some (Instr.loopc (encB 0x008 h f).head (encB 0x008 h f).formB) = _
  rw [head_encB, formB_encB]
theorem leave (h : Head) (f : FormB) : Statement (.leave h f) := fun _ _ => by
  show decodeOp (encB 0x009 h f) = some (.leave h f)
  rw [op_A _ 9 (by rw [op_encB]; rfl) (by decide)]
  show some (Instr.leave (encB 0x009 h f).head (encB 0x009 h f).formB) = _
  rw [head_encB, formB_encB]
theorem phase (h : Head) (f : FormR) : Statement (.phase h f) := fun _ _ => by
  show decodeOp (encR 0x00A h f) = some (.phase h f)
  rw [op_A _ 10 (by rw [op_encR]; rfl) (by decide)]
  show some (Instr.phase (encR 0x00A h f).head (encR 0x00A h f).formR) = _
  rw [head_encR, formR_encR]
theorem sync (h : Head) (f : FormR) : Statement (.sync h f) := fun _ _ => by
  show decodeOp (encR 0x00B h f) = some (.sync h f)
  rw [op_A _ 11 (by rw [op_encR]; rfl) (by decide)]
  show some (Instr.sync (encR 0x00B h f).head (encR 0x00B h f).formR) = _
  rw [head_encR, formR_encR]
theorem waitf (h : Head) (f : FormRI) : Statement (.waitf h f) := fun w _ => by
  show decodeOp (encRI 0x00C h f) = some (.waitf h f)
  rw [op_A _ 12 (by rw [op_encRI]; rfl) (by decide)]
  show some (Instr.waitf (encRI 0x00C h f).head (encRI 0x00C h f).formRI) = _
  rw [head_encRI, formRI_encRI _ _ _ (form_wf w)]
theorem yield (h : Head) (f : FormR) : Statement (.yield h f) := fun _ _ => by
  show decodeOp (encR 0x00D h f) = some (.yield h f)
  rw [op_A _ 13 (by rw [op_encR]; rfl) (by decide)]
  show some (Instr.yield (encR 0x00D h f).head (encR 0x00D h f).formR) = _
  rw [head_encR, formR_encR]
theorem sleep (h : Head) (f : FormI) : Statement (.sleep h f) := fun _ _ => by
  show decodeOp (encI 0x00E h f) = some (.sleep h f)
  rw [op_A _ 14 (by rw [op_encI]; rfl) (by decide)]
  show some (Instr.sleep (encI 0x00E h f).head (encI 0x00E h f).formI) = _
  rw [head_encI, formI_encI]
theorem holdt (h : Head) (f : FormI) : Statement (.holdt h f) := fun _ _ => by
  show decodeOp (encI 0x00F h f) = some (.holdt h f)
  rw [op_A _ 15 (by rw [op_encI]; rfl) (by decide)]
  show some (Instr.holdt (encI 0x00F h f).head (encI 0x00F h f).formI) = _
  rw [head_encI, formI_encI]
theorem trap (h : Head) (f : FormI) : Statement (.trap h f) := fun _ _ => by
  show decodeOp (encI 0x010 h f) = some (.trap h f)
  rw [op_A _ 16 (by rw [op_encI]; rfl) (by decide)]
  show some (Instr.trap (encI 0x010 h f).head (encI 0x010 h f).formI) = _
  rw [head_encI, formI_encI]
theorem brk (h : Head) (f : FormI) : Statement (.brk h f) := fun _ _ => by
  show decodeOp (encI 0x011 h f) = some (.brk h f)
  rw [op_A _ 17 (by rw [op_encI]; rfl) (by decide)]
  show some (Instr.brk (encI 0x011 h f).head (encI 0x011 h f).formI) = _
  rw [head_encI, formI_encI]
theorem rtt (h : Head) (f : FormR) : Statement (.rtt h f) := fun _ _ => by
  show decodeOp (encR 0x012 h f) = some (.rtt h f)
  rw [op_A _ 18 (by rw [op_encR]; rfl) (by decide)]
  show some (Instr.rtt (encR 0x012 h f).head (encR 0x012 h f).formR) = _
  rw [head_encR, formR_encR]
theorem clrc (h : Head) (f : FormRI) : Statement (.clrc h f) := fun w _ => by
  show decodeOp (encRI 0x013 h f) = some (.clrc h f)
  rw [op_A _ 19 (by rw [op_encRI]; rfl) (by decide)]
  show some (Instr.clrc (encRI 0x013 h f).head (encRI 0x013 h f).formRI) = _
  rw [head_encRI, formRI_encRI _ _ _ (form_wf w)]
theorem setc (h : Head) (f : FormRI) : Statement (.setc h f) := fun w _ => by
  show decodeOp (encRI 0x014 h f) = some (.setc h f)
  rw [op_A _ 20 (by rw [op_encRI]; rfl) (by decide)]
  show some (Instr.setc (encRI 0x014 h f).head (encRI 0x014 h f).formRI) = _
  rw [head_encRI, formRI_encRI _ _ _ (form_wf w)]
theorem rdsr (h : Head) (f : FormR) : Statement (.rdsr h f) := fun _ _ => by
  show decodeOp (encR 0x015 h f) = some (.rdsr h f)
  rw [op_A _ 21 (by rw [op_encR]; rfl) (by decide)]
  show some (Instr.rdsr (encR 0x015 h f).head (encR 0x015 h f).formR) = _
  rw [head_encR, formR_encR]
theorem wrsr (h : Head) (f : FormRI) : Statement (.wrsr h f) := fun w _ => by
  show decodeOp (encRI 0x016 h f) = some (.wrsr h f)
  rw [op_A _ 22 (by rw [op_encRI]; rfl) (by decide)]
  show some (Instr.wrsr (encRI 0x016 h f).head (encRI 0x016 h f).formRI) = _
  rw [head_encRI, formRI_encRI _ _ _ (form_wf w)]
theorem launch (h : Head) (f : FormQ) : Statement (.launch h f) := fun _ _ => by
  show decodeOp (encQ 0x017 h f) = some (.launch h f)
  rw [op_A _ 23 (by rw [op_encQ]; rfl) (by decide)]
  show some (Instr.launch (encQ 0x017 h f).head (encQ 0x017 h f).formQ) = _
  rw [head_encQ, formQ_encQ]
theorem waitch (h : Head) (f : FormR) : Statement (.waitch h f) := fun _ _ => by
  show decodeOp (encR 0x018 h f) = some (.waitch h f)
  rw [op_A _ 24 (by rw [op_encR]; rfl) (by decide)]
  show some (Instr.waitch (encR 0x018 h f).head (encR 0x018 h f).formR) = _
  rw [head_encR, formR_encR]
theorem fetchw (h : Head) (f : FormR) : Statement (.fetchw h f) := fun _ _ => by
  show decodeOp (encR 0x019 h f) = some (.fetchw h f)
  rw [op_A _ 25 (by rw [op_encR]; rfl) (by decide)]
  show some (Instr.fetchw (encR 0x019 h f).head (encR 0x019 h f).formR) = _
  rw [head_encR, formR_encR]
theorem time (h : Head) (f : FormR) : Statement (.time h f) := fun _ _ => by
  show decodeOp (encR 0x01A h f) = some (.time h f)
  rw [op_A _ 26 (by rw [op_encR]; rfl) (by decide)]
  show some (Instr.time (encR 0x01A h f).head (encR 0x01A h f).formR) = _
  rw [head_encR, formR_encR]
theorem icinv (h : Head) (f : FormM) : Statement (.icinv h f) := fun _ _ => by
  show decodeOp (encM 0x01B h f) = some (.icinv h f)
  rw [op_A _ 27 (by rw [op_encM]; rfl) (by decide)]
  show some (Instr.icinv (encM 0x01B h f).head (encM 0x01B h f).formM) = _
  rw [head_encM, formM_encM]
theorem prio (h : Head) (f : FormRI) : Statement (.prio h f) := fun w _ => by
  show decodeOp (encRI 0x01C h f) = some (.prio h f)
  rw [op_A _ 28 (by rw [op_encRI]; rfl) (by decide)]
  show some (Instr.prio (encRI 0x01C h f).head (encRI 0x01C h f).formRI) = _
  rw [head_encRI, formRI_encRI _ _ _ (form_wf w)]
theorem halt (h : Head) (f : FormR) : Statement (.halt h f) := fun _ _ => by
  show decodeOp (encR 0x01D h f) = some (.halt h f)
  rw [op_A _ 29 (by rw [op_encR]; rfl) (by decide)]
  show some (Instr.halt (encR 0x01D h f).head (encR 0x01D h f).formR) = _
  rw [head_encR, formR_encR]
theorem resume (h : Head) (f : FormR) : Statement (.resume h f) := fun _ _ => by
  show decodeOp (encR 0x01E h f) = some (.resume h f)
  rw [op_A _ 30 (by rw [op_encR]; rfl) (by decide)]
  show some (Instr.resume (encR 0x01E h f).head (encR 0x01E h f).formR) = _
  rw [head_encR, formR_encR]
theorem abortp (h : Head) (f : FormR) : Statement (.abortp h f) := fun _ _ => by
  show decodeOp (encR 0x01F h f) = some (.abortp h f)
  rw [op_A _ 31 (by rw [op_encR]; rfl) (by decide)]
  show some (Instr.abortp (encR 0x01F h f).head (encR 0x01F h f).formR) = _
  rw [head_encR, formR_encR]
theorem acorn (h : Head) (f : FormRI) : Statement (.acorn h f) := fun w _ => by
  show decodeOp (encRI 0x020 h f) = some (.acorn h f)
  rw [op_A _ 32 (by rw [op_encRI]; rfl) (by decide)]
  show some (Instr.acorn (encRI 0x020 h f).head (encRI 0x020 h f).formRI) = _
  rw [head_encRI, formRI_encRI _ _ _ (form_wf w)]
theorem iadd (h : Head) (f : FormRI) : Statement (.iadd h f) := fun w _ => by
  show decodeOp (encRI 0x040 h f) = some (.iadd h f)
  rw [op_B _ 0 (by rw [op_encRI]; rfl) (by decide)]
  show some (Instr.iadd (encRI 0x040 h f).head (encRI 0x040 h f).formRI) = _
  rw [head_encRI, formRI_encRI _ _ _ (form_wf w)]
theorem isub (h : Head) (f : FormRI) : Statement (.isub h f) := fun w _ => by
  show decodeOp (encRI 0x041 h f) = some (.isub h f)
  rw [op_B _ 1 (by rw [op_encRI]; rfl) (by decide)]
  show some (Instr.isub (encRI 0x041 h f).head (encRI 0x041 h f).formRI) = _
  rw [head_encRI, formRI_encRI _ _ _ (form_wf w)]
theorem iaddc (h : Head) (f : FormRI) : Statement (.iaddc h f) := fun w _ => by
  show decodeOp (encRI 0x042 h f) = some (.iaddc h f)
  rw [op_B _ 2 (by rw [op_encRI]; rfl) (by decide)]
  show some (Instr.iaddc (encRI 0x042 h f).head (encRI 0x042 h f).formRI) = _
  rw [head_encRI, formRI_encRI _ _ _ (form_wf w)]
theorem isubb (h : Head) (f : FormRI) : Statement (.isubb h f) := fun w _ => by
  show decodeOp (encRI 0x043 h f) = some (.isubb h f)
  rw [op_B _ 3 (by rw [op_encRI]; rfl) (by decide)]
  show some (Instr.isubb (encRI 0x043 h f).head (encRI 0x043 h f).formRI) = _
  rw [head_encRI, formRI_encRI _ _ _ (form_wf w)]
theorem imul (h : Head) (f : FormRI) : Statement (.imul h f) := fun w _ => by
  show decodeOp (encRI 0x044 h f) = some (.imul h f)
  rw [op_B _ 4 (by rw [op_encRI]; rfl) (by decide)]
  show some (Instr.imul (encRI 0x044 h f).head (encRI 0x044 h f).formRI) = _
  rw [head_encRI, formRI_encRI _ _ _ (form_wf w)]
theorem imulh (h : Head) (f : FormRI) : Statement (.imulh h f) := fun w _ => by
  show decodeOp (encRI 0x045 h f) = some (.imulh h f)
  rw [op_B _ 5 (by rw [op_encRI]; rfl) (by decide)]
  show some (Instr.imulh (encRI 0x045 h f).head (encRI 0x045 h f).formRI) = _
  rw [head_encRI, formRI_encRI _ _ _ (form_wf w)]
theorem imad (h : Head) (f : FormRI) : Statement (.imad h f) := fun w _ => by
  show decodeOp (encRI 0x046 h f) = some (.imad h f)
  rw [op_B _ 6 (by rw [op_encRI]; rfl) (by decide)]
  show some (Instr.imad (encRI 0x046 h f).head (encRI 0x046 h f).formRI) = _
  rw [head_encRI, formRI_encRI _ _ _ (form_wf w)]
theorem idiv (h : Head) (f : FormRI) : Statement (.idiv h f) := fun w _ => by
  show decodeOp (encRI 0x047 h f) = some (.idiv h f)
  rw [op_B _ 7 (by rw [op_encRI]; rfl) (by decide)]
  show some (Instr.idiv (encRI 0x047 h f).head (encRI 0x047 h f).formRI) = _
  rw [head_encRI, formRI_encRI _ _ _ (form_wf w)]
theorem irem (h : Head) (f : FormRI) : Statement (.irem h f) := fun w _ => by
  show decodeOp (encRI 0x048 h f) = some (.irem h f)
  rw [op_B _ 8 (by rw [op_encRI]; rfl) (by decide)]
  show some (Instr.irem (encRI 0x048 h f).head (encRI 0x048 h f).formRI) = _
  rw [head_encRI, formRI_encRI _ _ _ (form_wf w)]
theorem ineg (h : Head) (f : FormR) : Statement (.ineg h f) := fun _ _ => by
  show decodeOp (encR 0x049 h f) = some (.ineg h f)
  rw [op_B _ 9 (by rw [op_encR]; rfl) (by decide)]
  show some (Instr.ineg (encR 0x049 h f).head (encR 0x049 h f).formR) = _
  rw [head_encR, formR_encR]
theorem iabs (h : Head) (f : FormR) : Statement (.iabs h f) := fun _ _ => by
  show decodeOp (encR 0x04A h f) = some (.iabs h f)
  rw [op_B _ 10 (by rw [op_encR]; rfl) (by decide)]
  show some (Instr.iabs (encR 0x04A h f).head (encR 0x04A h f).formR) = _
  rw [head_encR, formR_encR]
theorem imin (h : Head) (f : FormRI) : Statement (.imin h f) := fun w _ => by
  show decodeOp (encRI 0x04B h f) = some (.imin h f)
  rw [op_B _ 11 (by rw [op_encRI]; rfl) (by decide)]
  show some (Instr.imin (encRI 0x04B h f).head (encRI 0x04B h f).formRI) = _
  rw [head_encRI, formRI_encRI _ _ _ (form_wf w)]
theorem imax (h : Head) (f : FormRI) : Statement (.imax h f) := fun w _ => by
  show decodeOp (encRI 0x04C h f) = some (.imax h f)
  rw [op_B _ 12 (by rw [op_encRI]; rfl) (by decide)]
  show some (Instr.imax (encRI 0x04C h f).head (encRI 0x04C h f).formRI) = _
  rw [head_encRI, formRI_encRI _ _ _ (form_wf w)]
theorem iclamp (h : Head) (f : FormRI) : Statement (.iclamp h f) := fun w _ => by
  show decodeOp (encRI 0x04D h f) = some (.iclamp h f)
  rw [op_B _ 13 (by rw [op_encRI]; rfl) (by decide)]
  show some (Instr.iclamp (encRI 0x04D h f).head (encRI 0x04D h f).formRI) = _
  rw [head_encRI, formRI_encRI _ _ _ (form_wf w)]
theorem isad (h : Head) (f : FormRI) : Statement (.isad h f) := fun w _ => by
  show decodeOp (encRI 0x04E h f) = some (.isad h f)
  rw [op_B _ 14 (by rw [op_encRI]; rfl) (by decide)]
  show some (Instr.isad (encRI 0x04E h f).head (encRI 0x04E h f).formRI) = _
  rw [head_encRI, formRI_encRI _ _ _ (form_wf w)]
theorem shl (h : Head) (f : FormRI) : Statement (.shl h f) := fun w _ => by
  show decodeOp (encRI 0x04F h f) = some (.shl h f)
  rw [op_B _ 15 (by rw [op_encRI]; rfl) (by decide)]
  show some (Instr.shl (encRI 0x04F h f).head (encRI 0x04F h f).formRI) = _
  rw [head_encRI, formRI_encRI _ _ _ (form_wf w)]
theorem shr (h : Head) (f : FormRI) : Statement (.shr h f) := fun w _ => by
  show decodeOp (encRI 0x050 h f) = some (.shr h f)
  rw [op_B _ 16 (by rw [op_encRI]; rfl) (by decide)]
  show some (Instr.shr (encRI 0x050 h f).head (encRI 0x050 h f).formRI) = _
  rw [head_encRI, formRI_encRI _ _ _ (form_wf w)]
theorem shra (h : Head) (f : FormRI) : Statement (.shra h f) := fun w _ => by
  show decodeOp (encRI 0x051 h f) = some (.shra h f)
  rw [op_B _ 17 (by rw [op_encRI]; rfl) (by decide)]
  show some (Instr.shra (encRI 0x051 h f).head (encRI 0x051 h f).formRI) = _
  rw [head_encRI, formRI_encRI _ _ _ (form_wf w)]
theorem rotl (h : Head) (f : FormRI) : Statement (.rotl h f) := fun w _ => by
  show decodeOp (encRI 0x052 h f) = some (.rotl h f)
  rw [op_B _ 18 (by rw [op_encRI]; rfl) (by decide)]
  show some (Instr.rotl (encRI 0x052 h f).head (encRI 0x052 h f).formRI) = _
  rw [head_encRI, formRI_encRI _ _ _ (form_wf w)]
theorem shfd (h : Head) (f : FormRI) : Statement (.shfd h f) := fun w _ => by
  show decodeOp (encRI 0x053 h f) = some (.shfd h f)
  rw [op_B _ 19 (by rw [op_encRI]; rfl) (by decide)]
  show some (Instr.shfd (encRI 0x053 h f).head (encRI 0x053 h f).formRI) = _
  rw [head_encRI, formRI_encRI _ _ _ (form_wf w)]
theorem andB (h : Head) (f : FormRI) : Statement (.andB h f) := fun w _ => by
  show decodeOp (encRI 0x054 h f) = some (.andB h f)
  rw [op_B _ 20 (by rw [op_encRI]; rfl) (by decide)]
  show some (Instr.andB (encRI 0x054 h f).head (encRI 0x054 h f).formRI) = _
  rw [head_encRI, formRI_encRI _ _ _ (form_wf w)]
theorem orB (h : Head) (f : FormRI) : Statement (.orB h f) := fun w _ => by
  show decodeOp (encRI 0x055 h f) = some (.orB h f)
  rw [op_B _ 21 (by rw [op_encRI]; rfl) (by decide)]
  show some (Instr.orB (encRI 0x055 h f).head (encRI 0x055 h f).formRI) = _
  rw [head_encRI, formRI_encRI _ _ _ (form_wf w)]
theorem xorB (h : Head) (f : FormRI) : Statement (.xorB h f) := fun w _ => by
  show decodeOp (encRI 0x056 h f) = some (.xorB h f)
  rw [op_B _ 22 (by rw [op_encRI]; rfl) (by decide)]
  show some (Instr.xorB (encRI 0x056 h f).head (encRI 0x056 h f).formRI) = _
  rw [head_encRI, formRI_encRI _ _ _ (form_wf w)]
theorem andn (h : Head) (f : FormRI) : Statement (.andn h f) := fun w _ => by
  show decodeOp (encRI 0x057 h f) = some (.andn h f)
  rw [op_B _ 23 (by rw [op_encRI]; rfl) (by decide)]
  show some (Instr.andn (encRI 0x057 h f).head (encRI 0x057 h f).formRI) = _
  rw [head_encRI, formRI_encRI _ _ _ (form_wf w)]
theorem notB (h : Head) (f : FormR) : Statement (.notB h f) := fun _ _ => by
  show decodeOp (encR 0x058 h f) = some (.notB h f)
  rw [op_B _ 24 (by rw [op_encR]; rfl) (by decide)]
  show some (Instr.notB (encR 0x058 h f).head (encR 0x058 h f).formR) = _
  rw [head_encR, formR_encR]
theorem lop3 (h : Head) (f : FormQ) : Statement (.lop3 h f) := fun _ _ => by
  show decodeOp (encQ 0x059 h f) = some (.lop3 h f)
  rw [op_B _ 25 (by rw [op_encQ]; rfl) (by decide)]
  show some (Instr.lop3 (encQ 0x059 h f).head (encQ 0x059 h f).formQ) = _
  rw [head_encQ, formQ_encQ]
theorem bfe (h : Head) (f : FormRI) : Statement (.bfe h f) := fun w _ => by
  show decodeOp (encRI 0x05A h f) = some (.bfe h f)
  rw [op_B _ 26 (by rw [op_encRI]; rfl) (by decide)]
  show some (Instr.bfe (encRI 0x05A h f).head (encRI 0x05A h f).formRI) = _
  rw [head_encRI, formRI_encRI _ _ _ (form_wf w)]
theorem bfi (h : Head) (f : FormRI) : Statement (.bfi h f) := fun w _ => by
  show decodeOp (encRI 0x05B h f) = some (.bfi h f)
  rw [op_B _ 27 (by rw [op_encRI]; rfl) (by decide)]
  show some (Instr.bfi (encRI 0x05B h f).head (encRI 0x05B h f).formRI) = _
  rw [head_encRI, formRI_encRI _ _ _ (form_wf w)]
theorem brev (h : Head) (f : FormR) : Statement (.brev h f) := fun _ _ => by
  show decodeOp (encR 0x05C h f) = some (.brev h f)
  rw [op_B _ 28 (by rw [op_encR]; rfl) (by decide)]
  show some (Instr.brev (encR 0x05C h f).head (encR 0x05C h f).formR) = _
  rw [head_encR, formR_encR]
theorem popc (h : Head) (f : FormR) : Statement (.popc h f) := fun _ _ => by
  show decodeOp (encR 0x05D h f) = some (.popc h f)
  rw [op_B _ 29 (by rw [op_encR]; rfl) (by decide)]
  show some (Instr.popc (encR 0x05D h f).head (encR 0x05D h f).formR) = _
  rw [head_encR, formR_encR]
theorem clz (h : Head) (f : FormR) : Statement (.clz h f) := fun _ _ => by
  show decodeOp (encR 0x05E h f) = some (.clz h f)
  rw [op_B _ 30 (by rw [op_encR]; rfl) (by decide)]
  show some (Instr.clz (encR 0x05E h f).head (encR 0x05E h f).formR) = _
  rw [head_encR, formR_encR]
theorem ctz (h : Head) (f : FormR) : Statement (.ctz h f) := fun _ _ => by
  show decodeOp (encR 0x05F h f) = some (.ctz h f)
  rw [op_B _ 31 (by rw [op_encR]; rfl) (by decide)]
  show some (Instr.ctz (encR 0x05F h f).head (encR 0x05F h f).formR) = _
  rw [head_encR, formR_encR]
theorem bytep (h : Head) (f : FormRI) : Statement (.bytep h f) := fun w _ => by
  show decodeOp (encRI 0x060 h f) = some (.bytep h f)
  rw [op_B _ 32 (by rw [op_encRI]; rfl) (by decide)]
  show some (Instr.bytep (encRI 0x060 h f).head (encRI 0x060 h f).formRI) = _
  rw [head_encRI, formRI_encRI _ _ _ (form_wf w)]
theorem isetp (h : Head) (f : FormRI) : Statement (.isetp h f) := fun w _ => by
  show decodeOp (encRI 0x061 h f) = some (.isetp h f)
  rw [op_B _ 33 (by rw [op_encRI]; rfl) (by decide)]
  show some (Instr.isetp (encRI 0x061 h f).head (encRI 0x061 h f).formRI) = _
  rw [head_encRI, formRI_encRI _ _ _ (form_wf w)]
theorem isel (h : Head) (f : FormR) : Statement (.isel h f) := fun _ _ => by
  show decodeOp (encR 0x062 h f) = some (.isel h f)
  rw [op_B _ 34 (by rw [op_encR]; rfl) (by decide)]
  show some (Instr.isel (encR 0x062 h f).head (encR 0x062 h f).formR) = _
  rw [head_encR, formR_encR]
theorem plop (h : Head) (f : FormR) : Statement (.plop h f) := fun _ _ => by
  show decodeOp (encR 0x063 h f) = some (.plop h f)
  rw [op_B _ 35 (by rw [op_encR]; rfl) (by decide)]
  show some (Instr.plop (encR 0x063 h f).head (encR 0x063 h f).formR) = _
  rw [head_encR, formR_encR]
theorem ptov (h : Head) (f : FormR) : Statement (.ptov h f) := fun _ _ => by
  show decodeOp (encR 0x064 h f) = some (.ptov h f)
  rw [op_B _ 36 (by rw [op_encR]; rfl) (by decide)]
  show some (Instr.ptov (encR 0x064 h f).head (encR 0x064 h f).formR) = _
  rw [head_encR, formR_encR]
theorem vtop (h : Head) (f : FormR) : Statement (.vtop h f) := fun _ _ => by
  show decodeOp (encR 0x065 h f) = some (.vtop h f)
  rw [op_B _ 37 (by rw [op_encR]; rfl) (by decide)]
  show some (Instr.vtop (encR 0x065 h f).head (encR 0x065 h f).formR) = _
  rw [head_encR, formR_encR]
theorem mov (h : Head) (f : FormR) : Statement (.mov h f) := fun _ _ => by
  show decodeOp (encR 0x066 h f) = some (.mov h f)
  rw [op_B _ 38 (by rw [op_encR]; rfl) (by decide)]
  show some (Instr.mov (encR 0x066 h f).head (encR 0x066 h f).formR) = _
  rw [head_encR, formR_encR]
theorem movi (h : Head) (f : FormI) : Statement (.movi h f) := fun _ _ => by
  show decodeOp (encI 0x067 h f) = some (.movi h f)
  rw [op_B _ 39 (by rw [op_encI]; rfl) (by decide)]
  show some (Instr.movi (encI 0x067 h f).head (encI 0x067 h f).formI) = _
  rw [head_encI, formI_encI]
theorem kget (h : Head) (f : FormR) : Statement (.kget h f) := fun _ _ => by
  show decodeOp (encR 0x068 h f) = some (.kget h f)
  rw [op_B _ 40 (by rw [op_encR]; rfl) (by decide)]
  show some (Instr.kget (encR 0x068 h f).head (encR 0x068 h f).formR) = _
  rw [head_encR, formR_encR]
theorem lea (h : Head) (f : FormRI) : Statement (.lea h f) := fun w _ => by
  show decodeOp (encRI 0x069 h f) = some (.lea h f)
  rw [op_B _ 41 (by rw [op_encRI]; rfl) (by decide)]
  show some (Instr.lea (encRI 0x069 h f).head (encRI 0x069 h f).formRI) = _
  rw [head_encRI, formRI_encRI _ _ _ (form_wf w)]
theorem tagOp (h : Head) (f : FormRI) : Statement (.tagOp h f) := fun w _ => by
  show decodeOp (encRI 0x06A h f) = some (.tagOp h f)
  rw [op_B _ 42 (by rw [op_encRI]; rfl) (by decide)]
  show some (Instr.tagOp (encRI 0x06A h f).head (encRI 0x06A h f).formRI) = _
  rw [head_encRI, formRI_encRI _ _ _ (form_wf w)]
theorem fadd (h : Head) (f : FormRI) : Statement (.fadd h f) := fun w _ => by
  show decodeOp (encRI 0x0C0 h f) = some (.fadd h f)
  rw [op_C _ 0 (by rw [op_encRI]; rfl) (by decide)]
  show some (Instr.fadd (encRI 0x0C0 h f).head (encRI 0x0C0 h f).formRI) = _
  rw [head_encRI, formRI_encRI _ _ _ (form_wf w)]
theorem fsub (h : Head) (f : FormRI) : Statement (.fsub h f) := fun w _ => by
  show decodeOp (encRI 0x0C1 h f) = some (.fsub h f)
  rw [op_C _ 1 (by rw [op_encRI]; rfl) (by decide)]
  show some (Instr.fsub (encRI 0x0C1 h f).head (encRI 0x0C1 h f).formRI) = _
  rw [head_encRI, formRI_encRI _ _ _ (form_wf w)]
theorem fmul (h : Head) (f : FormRI) : Statement (.fmul h f) := fun w _ => by
  show decodeOp (encRI 0x0C2 h f) = some (.fmul h f)
  rw [op_C _ 2 (by rw [op_encRI]; rfl) (by decide)]
  show some (Instr.fmul (encRI 0x0C2 h f).head (encRI 0x0C2 h f).formRI) = _
  rw [head_encRI, formRI_encRI _ _ _ (form_wf w)]
theorem ffma (h : Head) (f : FormRI) : Statement (.ffma h f) := fun w _ => by
  show decodeOp (encRI 0x0C3 h f) = some (.ffma h f)
  rw [op_C _ 3 (by rw [op_encRI]; rfl) (by decide)]
  show some (Instr.ffma (encRI 0x0C3 h f).head (encRI 0x0C3 h f).formRI) = _
  rw [head_encRI, formRI_encRI _ _ _ (form_wf w)]
theorem fmin (h : Head) (f : FormRI) : Statement (.fmin h f) := fun w _ => by
  show decodeOp (encRI 0x0C4 h f) = some (.fmin h f)
  rw [op_C _ 4 (by rw [op_encRI]; rfl) (by decide)]
  show some (Instr.fmin (encRI 0x0C4 h f).head (encRI 0x0C4 h f).formRI) = _
  rw [head_encRI, formRI_encRI _ _ _ (form_wf w)]
theorem fmax (h : Head) (f : FormRI) : Statement (.fmax h f) := fun w _ => by
  show decodeOp (encRI 0x0C5 h f) = some (.fmax h f)
  rw [op_C _ 5 (by rw [op_encRI]; rfl) (by decide)]
  show some (Instr.fmax (encRI 0x0C5 h f).head (encRI 0x0C5 h f).formRI) = _
  rw [head_encRI, formRI_encRI _ _ _ (form_wf w)]
theorem fminn (h : Head) (f : FormRI) : Statement (.fminn h f) := fun w _ => by
  show decodeOp (encRI 0x0C6 h f) = some (.fminn h f)
  rw [op_C _ 6 (by rw [op_encRI]; rfl) (by decide)]
  show some (Instr.fminn (encRI 0x0C6 h f).head (encRI 0x0C6 h f).formRI) = _
  rw [head_encRI, formRI_encRI _ _ _ (form_wf w)]
theorem fmaxn (h : Head) (f : FormRI) : Statement (.fmaxn h f) := fun w _ => by
  show decodeOp (encRI 0x0C7 h f) = some (.fmaxn h f)
  rw [op_C _ 7 (by rw [op_encRI]; rfl) (by decide)]
  show some (Instr.fmaxn (encRI 0x0C7 h f).head (encRI 0x0C7 h f).formRI) = _
  rw [head_encRI, formRI_encRI _ _ _ (form_wf w)]
theorem fabs (h : Head) (f : FormR) : Statement (.fabs h f) := fun _ _ => by
  show decodeOp (encR 0x0C8 h f) = some (.fabs h f)
  rw [op_C _ 8 (by rw [op_encR]; rfl) (by decide)]
  show some (Instr.fabs (encR 0x0C8 h f).head (encR 0x0C8 h f).formR) = _
  rw [head_encR, formR_encR]
theorem fneg (h : Head) (f : FormR) : Statement (.fneg h f) := fun _ _ => by
  show decodeOp (encR 0x0C9 h f) = some (.fneg h f)
  rw [op_C _ 9 (by rw [op_encR]; rfl) (by decide)]
  show some (Instr.fneg (encR 0x0C9 h f).head (encR 0x0C9 h f).formR) = _
  rw [head_encR, formR_encR]
theorem fsgn (h : Head) (f : FormR) : Statement (.fsgn h f) := fun _ _ => by
  show decodeOp (encR 0x0CA h f) = some (.fsgn h f)
  rw [op_C _ 10 (by rw [op_encR]; rfl) (by decide)]
  show some (Instr.fsgn (encR 0x0CA h f).head (encR 0x0CA h f).formR) = _
  rw [head_encR, formR_encR]
theorem fsetp (h : Head) (f : FormRI) : Statement (.fsetp h f) := fun w _ => by
  show decodeOp (encRI 0x0CB h f) = some (.fsetp h f)
  rw [op_C _ 11 (by rw [op_encRI]; rfl) (by decide)]
  show some (Instr.fsetp (encRI 0x0CB h f).head (encRI 0x0CB h f).formRI) = _
  rw [head_encRI, formRI_encRI _ _ _ (form_wf w)]
theorem fclass (h : Head) (f : FormR) : Statement (.fclass h f) := fun _ _ => by
  show decodeOp (encR 0x0CC h f) = some (.fclass h f)
  rw [op_C _ 12 (by rw [op_encR]; rfl) (by decide)]
  show some (Instr.fclass (encR 0x0CC h f).head (encR 0x0CC h f).formR) = _
  rw [head_encR, formR_encR]
theorem frcp (h : Head) (f : FormR) : Statement (.frcp h f) := fun _ _ => by
  show decodeOp (encR 0x0CD h f) = some (.frcp h f)
  rw [op_C _ 13 (by rw [op_encR]; rfl) (by decide)]
  show some (Instr.frcp (encR 0x0CD h f).head (encR 0x0CD h f).formR) = _
  rw [head_encR, formR_encR]
theorem frsq (h : Head) (f : FormR) : Statement (.frsq h f) := fun _ _ => by
  show decodeOp (encR 0x0CE h f) = some (.frsq h f)
  rw [op_C _ 14 (by rw [op_encR]; rfl) (by decide)]
  show some (Instr.frsq (encR 0x0CE h f).head (encR 0x0CE h f).formR) = _
  rw [head_encR, formR_encR]
theorem fsqrt (h : Head) (f : FormR) : Statement (.fsqrt h f) := fun _ _ => by
  show decodeOp (encR 0x0CF h f) = some (.fsqrt h f)
  rw [op_C _ 15 (by rw [op_encR]; rfl) (by decide)]
  show some (Instr.fsqrt (encR 0x0CF h f).head (encR 0x0CF h f).formR) = _
  rw [head_encR, formR_encR]
theorem fdiv (h : Head) (f : FormRI) : Statement (.fdiv h f) := fun w _ => by
  show decodeOp (encRI 0x0D0 h f) = some (.fdiv h f)
  rw [op_C _ 16 (by rw [op_encRI]; rfl) (by decide)]
  show some (Instr.fdiv (encRI 0x0D0 h f).head (encRI 0x0D0 h f).formRI) = _
  rw [head_encRI, formRI_encRI _ _ _ (form_wf w)]
theorem fexp2 (h : Head) (f : FormR) : Statement (.fexp2 h f) := fun _ _ => by
  show decodeOp (encR 0x0D1 h f) = some (.fexp2 h f)
  rw [op_C _ 17 (by rw [op_encR]; rfl) (by decide)]
  show some (Instr.fexp2 (encR 0x0D1 h f).head (encR 0x0D1 h f).formR) = _
  rw [head_encR, formR_encR]
theorem flog2 (h : Head) (f : FormR) : Statement (.flog2 h f) := fun _ _ => by
  show decodeOp (encR 0x0D2 h f) = some (.flog2 h f)
  rw [op_C _ 18 (by rw [op_encR]; rfl) (by decide)]
  show some (Instr.flog2 (encR 0x0D2 h f).head (encR 0x0D2 h f).formR) = _
  rw [head_encR, formR_encR]
theorem fsin (h : Head) (f : FormR) : Statement (.fsin h f) := fun _ _ => by
  show decodeOp (encR 0x0D3 h f) = some (.fsin h f)
  rw [op_C _ 19 (by rw [op_encR]; rfl) (by decide)]
  show some (Instr.fsin (encR 0x0D3 h f).head (encR 0x0D3 h f).formR) = _
  rw [head_encR, formR_encR]
theorem fcos (h : Head) (f : FormR) : Statement (.fcos h f) := fun _ _ => by
  show decodeOp (encR 0x0D4 h f) = some (.fcos h f)
  rw [op_C _ 20 (by rw [op_encR]; rfl) (by decide)]
  show some (Instr.fcos (encR 0x0D4 h f).head (encR 0x0D4 h f).formR) = _
  rw [head_encR, formR_encR]
theorem ftanh (h : Head) (f : FormR) : Statement (.ftanh h f) := fun _ _ => by
  show decodeOp (encR 0x0D5 h f) = some (.ftanh h f)
  rw [op_C _ 21 (by rw [op_encR]; rfl) (by decide)]
  show some (Instr.ftanh (encR 0x0D5 h f).head (encR 0x0D5 h f).formR) = _
  rw [head_encR, formR_encR]
theorem frnd (h : Head) (f : FormR) : Statement (.frnd h f) := fun _ _ => by
  show decodeOp (encR 0x0D6 h f) = some (.frnd h f)
  rw [op_C _ 22 (by rw [op_encR]; rfl) (by decide)]
  show some (Instr.frnd (encR 0x0D6 h f).head (encR 0x0D6 h f).formR) = _
  rw [head_encR, formR_encR]
theorem ffrc (h : Head) (f : FormR) : Statement (.ffrc h f) := fun _ _ => by
  show decodeOp (encR 0x0D7 h f) = some (.ffrc h f)
  rw [op_C _ 23 (by rw [op_encR]; rfl) (by decide)]
  show some (Instr.ffrc (encR 0x0D7 h f).head (encR 0x0D7 h f).formR) = _
  rw [head_encR, formR_encR]
theorem fscale (h : Head) (f : FormRI) : Statement (.fscale h f) := fun w _ => by
  show decodeOp (encRI 0x0D8 h f) = some (.fscale h f)
  rw [op_C _ 24 (by rw [op_encRI]; rfl) (by decide)]
  show some (Instr.fscale (encRI 0x0D8 h f).head (encRI 0x0D8 h f).formRI) = _
  rw [head_encRI, formRI_encRI _ _ _ (form_wf w)]
theorem fgetx (h : Head) (f : FormR) : Statement (.fgetx h f) := fun _ _ => by
  show decodeOp (encR 0x0D9 h f) = some (.fgetx h f)
  rw [op_C _ 25 (by rw [op_encR]; rfl) (by decide)]
  show some (Instr.fgetx (encR 0x0D9 h f).head (encR 0x0D9 h f).formR) = _
  rw [head_encR, formR_encR]
theorem hadd2 (h : Head) (f : FormRI) : Statement (.hadd2 h f) := fun w _ => by
  show decodeOp (encRI 0x0DA h f) = some (.hadd2 h f)
  rw [op_C _ 26 (by rw [op_encRI]; rfl) (by decide)]
  show some (Instr.hadd2 (encRI 0x0DA h f).head (encRI 0x0DA h f).formRI) = _
  rw [head_encRI, formRI_encRI _ _ _ (form_wf w)]
theorem hmul2 (h : Head) (f : FormRI) : Statement (.hmul2 h f) := fun w _ => by
  show decodeOp (encRI 0x0DB h f) = some (.hmul2 h f)
  rw [op_C _ 27 (by rw [op_encRI]; rfl) (by decide)]
  show some (Instr.hmul2 (encRI 0x0DB h f).head (encRI 0x0DB h f).formRI) = _
  rw [head_encRI, formRI_encRI _ _ _ (form_wf w)]
theorem hfma2 (h : Head) (f : FormRI) : Statement (.hfma2 h f) := fun w _ => by
  show decodeOp (encRI 0x0DC h f) = some (.hfma2 h f)
  rw [op_C _ 28 (by rw [op_encRI]; rfl) (by decide)]
  show some (Instr.hfma2 (encRI 0x0DC h f).head (encRI 0x0DC h f).formRI) = _
  rw [head_encRI, formRI_encRI _ _ _ (form_wf w)]
theorem hmin2 (h : Head) (f : FormRI) : Statement (.hmin2 h f) := fun w _ => by
  show decodeOp (encRI 0x0DD h f) = some (.hmin2 h f)
  rw [op_C _ 29 (by rw [op_encRI]; rfl) (by decide)]
  show some (Instr.hmin2 (encRI 0x0DD h f).head (encRI 0x0DD h f).formRI) = _
  rw [head_encRI, formRI_encRI _ _ _ (form_wf w)]
theorem hmax2 (h : Head) (f : FormRI) : Statement (.hmax2 h f) := fun w _ => by
  show decodeOp (encRI 0x0DE h f) = some (.hmax2 h f)
  rw [op_C _ 30 (by rw [op_encRI]; rfl) (by decide)]
  show some (Instr.hmax2 (encRI 0x0DE h f).head (encRI 0x0DE h f).formRI) = _
  rw [head_encRI, formRI_encRI _ _ _ (form_wf w)]
theorem cvt (h : Head) (f : FormQ) : Statement (.cvt h f) := fun _ _ => by
  show decodeOp (encQ 0x0DF h f) = some (.cvt h f)
  rw [op_C _ 31 (by rw [op_encQ]; rfl) (by decide)]
  show some (Instr.cvt (encQ 0x0DF h f).head (encQ 0x0DF h f).formQ) = _
  rw [head_encQ, formQ_encQ]
theorem cvti (h : Head) (f : FormQ) : Statement (.cvti h f) := fun _ _ => by
  show decodeOp (encQ 0x0E0 h f) = some (.cvti h f)
  rw [op_C _ 32 (by rw [op_encQ]; rfl) (by decide)]
  show some (Instr.cvti (encQ 0x0E0 h f).head (encQ 0x0E0 h f).formQ) = _
  rw [head_encQ, formQ_encQ]
theorem cvtf (h : Head) (f : FormQ) : Statement (.cvtf h f) := fun _ _ => by
  show decodeOp (encQ 0x0E1 h f) = some (.cvtf h f)
  rw [op_C _ 33 (by rw [op_encQ]; rfl) (by decide)]
  show some (Instr.cvtf (encQ 0x0E1 h f).head (encQ 0x0E1 h f).formQ) = _
  rw [head_encQ, formQ_encQ]
theorem pack (h : Head) (f : FormQ) : Statement (.pack h f) := fun _ _ => by
  show decodeOp (encQ 0x0E2 h f) = some (.pack h f)
  rw [op_C _ 34 (by rw [op_encQ]; rfl) (by decide)]
  show some (Instr.pack (encQ 0x0E2 h f).head (encQ 0x0E2 h f).formQ) = _
  rw [head_encQ, formQ_encQ]
theorem unpk (h : Head) (f : FormQ) : Statement (.unpk h f) := fun _ _ => by
  show decodeOp (encQ 0x0E3 h f) = some (.unpk h f)
  rw [op_C _ 35 (by rw [op_encQ]; rfl) (by decide)]
  show some (Instr.unpk (encQ 0x0E3 h f).head (encQ 0x0E3 h f).formQ) = _
  rw [head_encQ, formQ_encQ]
theorem pk6 (h : Head) (f : FormQ) : Statement (.pk6 h f) := fun _ _ => by
  show decodeOp (encQ 0x0E4 h f) = some (.pk6 h f)
  rw [op_C _ 36 (by rw [op_encQ]; rfl) (by decide)]
  show some (Instr.pk6 (encQ 0x0E4 h f).head (encQ 0x0E4 h f).formQ) = _
  rw [head_encQ, formQ_encQ]
theorem upk6 (h : Head) (f : FormQ) : Statement (.upk6 h f) := fun _ _ => by
  show decodeOp (encQ 0x0E5 h f) = some (.upk6 h f)
  rw [op_C _ 37 (by rw [op_encQ]; rfl) (by decide)]
  show some (Instr.upk6 (encQ 0x0E5 h f).head (encQ 0x0E5 h f).formQ) = _
  rw [head_encQ, formQ_encQ]
theorem dot2 (h : Head) (f : FormR) : Statement (.dot2 h f) := fun _ _ => by
  show decodeOp (encR 0x0E6 h f) = some (.dot2 h f)
  rw [op_C _ 38 (by rw [op_encR]; rfl) (by decide)]
  show some (Instr.dot2 (encR 0x0E6 h f).head (encR 0x0E6 h f).formR) = _
  rw [head_encR, formR_encR]
theorem dot4 (h : Head) (f : FormR) : Statement (.dot4 h f) := fun _ _ => by
  show decodeOp (encR 0x0E7 h f) = some (.dot4 h f)
  rw [op_C _ 39 (by rw [op_encR]; rfl) (by decide)]
  show some (Instr.dot4 (encR 0x0E7 h f).head (encR 0x0E7 h f).formR) = _
  rw [head_encR, formR_encR]
theorem dot8 (h : Head) (f : FormR) : Statement (.dot8 h f) := fun _ _ => by
  show decodeOp (encR 0x0E8 h f) = some (.dot8 h f)
  rw [op_C _ 40 (by rw [op_encR]; rfl) (by decide)]
  show some (Instr.dot8 (encR 0x0E8 h f).head (encR 0x0E8 h f).formR) = _
  rw [head_encR, formR_encR]
theorem dott (h : Head) (f : FormR) : Statement (.dott h f) := fun _ _ => by
  show decodeOp (encR 0x0E9 h f) = some (.dott h f)
  rw [op_C _ 41 (by rw [op_encR]; rfl) (by decide)]
  show some (Instr.dott (encR 0x0E9 h f).head (encR 0x0E9 h f).formR) = _
  rw [head_encR, formR_encR]
theorem rdfl (h : Head) (f : FormR) : Statement (.rdfl h f) := fun _ _ => by
  show decodeOp (encR 0x0EA h f) = some (.rdfl h f)
  rw [op_C _ 42 (by rw [op_encR]; rfl) (by decide)]
  show some (Instr.rdfl (encR 0x0EA h f).head (encR 0x0EA h f).formR) = _
  rw [head_encR, formR_encR]
theorem clfl (h : Head) (f : FormRI) : Statement (.clfl h f) := fun w _ => by
  show decodeOp (encRI 0x0EB h f) = some (.clfl h f)
  rw [op_C _ 43 (by rw [op_encRI]; rfl) (by decide)]
  show some (Instr.clfl (encRI 0x0EB h f).head (encRI 0x0EB h f).formRI) = _
  rw [head_encRI, formRI_encRI _ _ _ (form_wf w)]
theorem shfl (h : Head) (f : FormRI) : Statement (.shfl h f) := fun w _ => by
  show decodeOp (encRI 0x180 h f) = some (.shfl h f)
  rw [op_D _ 0 (by rw [op_encRI]; rfl) (by decide)]
  show some (Instr.shfl (encRI 0x180 h f).head (encRI 0x180 h f).formRI) = _
  rw [head_encRI, formRI_encRI _ _ _ (form_wf w)]
theorem perm (h : Head) (f : FormR) : Statement (.perm h f) := fun _ _ => by
  show decodeOp (encR 0x181 h f) = some (.perm h f)
  rw [op_D _ 1 (by rw [op_encR]; rfl) (by decide)]
  show some (Instr.perm (encR 0x181 h f).head (encR 0x181 h f).formR) = _
  rw [head_encR, formR_encR]
theorem votea (h : Head) (f : FormR) : Statement (.votea h f) := fun _ _ => by
  show decodeOp (encR 0x182 h f) = some (.votea h f)
  rw [op_D _ 2 (by rw [op_encR]; rfl) (by decide)]
  show some (Instr.votea (encR 0x182 h f).head (encR 0x182 h f).formR) = _
  rw [head_encR, formR_encR]
theorem voten (h : Head) (f : FormR) : Statement (.voten h f) := fun _ _ => by
  show decodeOp (encR 0x183 h f) = some (.voten h f)
  rw [op_D _ 3 (by rw [op_encR]; rfl) (by decide)]
  show some (Instr.voten (encR 0x183 h f).head (encR 0x183 h f).formR) = _
  rw [head_encR, formR_encR]
theorem ballot (h : Head) (f : FormR) : Statement (.ballot h f) := fun _ _ => by
  show decodeOp (encR 0x184 h f) = some (.ballot h f)
  rw [op_D _ 4 (by rw [op_encR]; rfl) (by decide)]
  show some (Instr.ballot (encR 0x184 h f).head (encR 0x184 h f).formR) = _
  rw [head_encR, formR_encR]
theorem matchOp (h : Head) (f : FormR) : Statement (.matchOp h f) := fun _ _ => by
  show decodeOp (encR 0x185 h f) = some (.matchOp h f)
  rw [op_D _ 5 (by rw [op_encR]; rfl) (by decide)]
  show some (Instr.matchOp (encR 0x185 h f).head (encR 0x185 h f).formR) = _
  rw [head_encR, formR_encR]
theorem elect (h : Head) (f : FormR) : Statement (.elect h f) := fun _ _ => by
  show decodeOp (encR 0x186 h f) = some (.elect h f)
  rw [op_D _ 6 (by rw [op_encR]; rfl) (by decide)]
  show some (Instr.elect (encR 0x186 h f).head (encR 0x186 h f).formR) = _
  rw [head_encR, formR_encR]
theorem part (h : Head) (f : FormR) : Statement (.part h f) := fun _ _ => by
  show decodeOp (encR 0x187 h f) = some (.part h f)
  rw [op_D _ 7 (by rw [op_encR]; rfl) (by decide)]
  show some (Instr.part (encR 0x187 h f).head (encR 0x187 h f).formR) = _
  rw [head_encR, formR_encR]
theorem gmask (h : Head) (f : FormRI) : Statement (.gmask h f) := fun w _ => by
  show decodeOp (encRI 0x188 h f) = some (.gmask h f)
  rw [op_D _ 8 (by rw [op_encRI]; rfl) (by decide)]
  show some (Instr.gmask (encRI 0x188 h f).head (encRI 0x188 h f).formRI) = _
  rw [head_encRI, formRI_encRI _ _ _ (form_wf w)]
theorem amask (h : Head) (f : FormR) : Statement (.amask h f) := fun _ _ => by
  show decodeOp (encR 0x189 h f) = some (.amask h f)
  rw [op_D _ 9 (by rw [op_encR]; rfl) (by decide)]
  show some (Instr.amask (encR 0x189 h f).head (encR 0x189 h f).formR) = _
  rw [head_encR, formR_encR]
theorem gred (h : Head) (f : FormQ) : Statement (.gred h f) := fun _ _ => by
  show decodeOp (encQ 0x18A h f) = some (.gred h f)
  rw [op_D _ 10 (by rw [op_encQ]; rfl) (by decide)]
  show some (Instr.gred (encQ 0x18A h f).head (encQ 0x18A h f).formQ) = _
  rw [head_encQ, formQ_encQ]
theorem gscan (h : Head) (f : FormQ) : Statement (.gscan h f) := fun _ _ => by
  show decodeOp (encQ 0x18B h f) = some (.gscan h f)
  rw [op_D _ 11 (by rw [op_encQ]; rfl) (by decide)]
  show some (Instr.gscan (encQ 0x18B h f).head (encQ 0x18B h f).formQ) = _
  rw [head_encQ, formQ_encQ]
theorem gbcast (h : Head) (f : FormR) : Statement (.gbcast h f) := fun _ _ => by
  show decodeOp (encR 0x18C h f) = some (.gbcast h f)
  rw [op_D _ 12 (by rw [op_encR]; rfl) (by decide)]
  show some (Instr.gbcast (encR 0x18C h f).head (encR 0x18C h f).formR) = _
  rw [head_encR, formR_encR]
theorem gsort (h : Head) (f : FormQ) : Statement (.gsort h f) := fun _ _ => by
  show decodeOp (encQ 0x18D h f) = some (.gsort h f)
  rw [op_D _ 13 (by rw [op_encQ]; rfl) (by decide)]
  show some (Instr.gsort (encQ 0x18D h f).head (encQ 0x18D h f).formQ) = _
  rw [head_encQ, formQ_encQ]
theorem tred (h : Head) (f : FormQ) : Statement (.tred h f) := fun _ _ => by
  show decodeOp (encQ 0x18E h f) = some (.tred h f)
  rw [op_D _ 14 (by rw [op_encQ]; rfl) (by decide)]
  show some (Instr.tred (encQ 0x18E h f).head (encQ 0x18E h f).formQ) = _
  rw [head_encQ, formQ_encQ]
theorem tscan (h : Head) (f : FormQ) : Statement (.tscan h f) := fun _ _ => by
  show decodeOp (encQ 0x18F h f) = some (.tscan h f)
  rw [op_D _ 15 (by rw [op_encQ]; rfl) (by decide)]
  show some (Instr.tscan (encQ 0x18F h f).head (encQ 0x18F h f).formQ) = _
  rw [head_encQ, formQ_encQ]
theorem ld (h : Head) (f : FormM) : Statement (.ld h f) := fun _ _ => by
  show decodeOp (encM 0x1C0 h f) = some (.ld h f)
  rw [op_E _ 0 (by rw [op_encM]; rfl) (by decide)]
  show some (Instr.ld (encM 0x1C0 h f).head (encM 0x1C0 h f).formM) = _
  rw [head_encM, formM_encM]
theorem st (h : Head) (f : FormM) : Statement (.st h f) := fun _ _ => by
  show decodeOp (encM 0x1C1 h f) = some (.st h f)
  rw [op_E _ 1 (by rw [op_encM]; rfl) (by decide)]
  show some (Instr.st (encM 0x1C1 h f).head (encM 0x1C1 h f).formM) = _
  rw [head_encM, formM_encM]
theorem lds (h : Head) (f : FormM) : Statement (.lds h f) := fun _ _ => by
  show decodeOp (encM 0x1C2 h f) = some (.lds h f)
  rw [op_E _ 2 (by rw [op_encM]; rfl) (by decide)]
  show some (Instr.lds (encM 0x1C2 h f).head (encM 0x1C2 h f).formM) = _
  rw [head_encM, formM_encM]
theorem sts (h : Head) (f : FormM) : Statement (.sts h f) := fun _ _ => by
  show decodeOp (encM 0x1C3 h f) = some (.sts h f)
  rw [op_E _ 3 (by rw [op_encM]; rfl) (by decide)]
  show some (Instr.sts (encM 0x1C3 h f).head (encM 0x1C3 h f).formM) = _
  rw [head_encM, formM_encM]
theorem ldc (h : Head) (f : FormM) : Statement (.ldc h f) := fun _ _ => by
  show decodeOp (encM 0x1C4 h f) = some (.ldc h f)
  rw [op_E _ 4 (by rw [op_encM]; rfl) (by decide)]
  show some (Instr.ldc (encM 0x1C4 h f).head (encM 0x1C4 h f).formM) = _
  rw [head_encM, formM_encM]
theorem prf (h : Head) (f : FormM) : Statement (.prf h f) := fun _ _ => by
  show decodeOp (encM 0x1C5 h f) = some (.prf h f)
  rw [op_E _ 5 (by rw [op_encM]; rfl) (by decide)]
  show some (Instr.prf (encM 0x1C5 h f).head (encM 0x1C5 h f).formM) = _
  rw [head_encM, formM_encM]
theorem atom (h : Head) (f : FormQ) : Statement (.atom h f) := fun _ _ => by
  show decodeOp (encQ 0x1C6 h f) = some (.atom h f)
  rw [op_E _ 6 (by rw [op_encQ]; rfl) (by decide)]
  show some (Instr.atom (encQ 0x1C6 h f).head (encQ 0x1C6 h f).formQ) = _
  rw [head_encQ, formQ_encQ]
theorem red (h : Head) (f : FormQ) : Statement (.red h f) := fun _ _ => by
  show decodeOp (encQ 0x1C7 h f) = some (.red h f)
  rw [op_E _ 7 (by rw [op_encQ]; rfl) (by decide)]
  show some (Instr.red (encQ 0x1C7 h f).head (encQ 0x1C7 h f).formQ) = _
  rw [head_encQ, formQ_encQ]
theorem atoms (h : Head) (f : FormQ) : Statement (.atoms h f) := fun _ _ => by
  show decodeOp (encQ 0x1C8 h f) = some (.atoms h f)
  rw [op_E _ 8 (by rw [op_encQ]; rfl) (by decide)]
  show some (Instr.atoms (encQ 0x1C8 h f).head (encQ 0x1C8 h f).formQ) = _
  rw [head_encQ, formQ_encQ]
theorem reds (h : Head) (f : FormQ) : Statement (.reds h f) := fun _ _ => by
  show decodeOp (encQ 0x1C9 h f) = some (.reds h f)
  rw [op_E _ 9 (by rw [op_encQ]; rfl) (by decide)]
  show some (Instr.reds (encQ 0x1C9 h f).head (encQ 0x1C9 h f).formQ) = _
  rw [head_encQ, formQ_encQ]
theorem txb (h : Head) (f : FormR) : Statement (.txb h f) := fun _ _ => by
  show decodeOp (encR 0x1CA h f) = some (.txb h f)
  rw [op_E _ 10 (by rw [op_encR]; rfl) (by decide)]
  show some (Instr.txb (encR 0x1CA h f).head (encR 0x1CA h f).formR) = _
  rw [head_encR, formR_encR]
theorem txe (h : Head) (f : FormR) : Statement (.txe h f) := fun _ _ => by
  show decodeOp (encR 0x1CB h f) = some (.txe h f)
  rw [op_E _ 11 (by rw [op_encR]; rfl) (by decide)]
  show some (Instr.txe (encR 0x1CB h f).head (encR 0x1CB h f).formR) = _
  rw [head_encR, formR_encR]
theorem txa (h : Head) (f : FormR) : Statement (.txa h f) := fun _ _ => by
  show decodeOp (encR 0x1CC h f) = some (.txa h f)
  rw [op_E _ 12 (by rw [op_encR]; rfl) (by decide)]
  show some (Instr.txa (encR 0x1CC h f).head (encR 0x1CC h f).formR) = _
  rw [head_encR, formR_encR]
theorem txst (h : Head) (f : FormR) : Statement (.txst h f) := fun _ _ => by
  show decodeOp (encR 0x1CD h f) = some (.txst h f)
  rw [op_E _ 13 (by rw [op_encR]; rfl) (by decide)]
  show some (Instr.txst (encR 0x1CD h f).head (encR 0x1CD h f).formR) = _
  rw [head_encR, formR_encR]
theorem fence (h : Head) (f : FormM) : Statement (.fence h f) := fun _ _ => by
  show decodeOp (encM 0x1CE h f) = some (.fence h f)
  rw [op_E _ 14 (by rw [op_encM]; rfl) (by decide)]
  show some (Instr.fence (encM 0x1CE h f).head (encM 0x1CE h f).formM) = _
  rw [head_encM, formM_encM]
theorem ofence (h : Head) (f : FormR) : Statement (.ofence h f) := fun _ _ => by
  show decodeOp (encR 0x1CF h f) = some (.ofence h f)
  rw [op_E _ 15 (by rw [op_encR]; rfl) (by decide)]
  show some (Instr.ofence (encR 0x1CF h f).head (encR 0x1CF h f).formR) = _
  rw [head_encR, formR_encR]
theorem cpy (h : Head) (f : FormQ) : Statement (.cpy h f) := fun _ _ => by
  show decodeOp (encQ 0x1D0 h f) = some (.cpy h f)
  rw [op_E _ 16 (by rw [op_encQ]; rfl) (by decide)]
  show some (Instr.cpy (encQ 0x1D0 h f).head (encQ 0x1D0 h f).formQ) = _
  rw [head_encQ, formQ_encQ]
theorem tagwa (h : Head) (f : FormRI) : Statement (.tagwa h f) := fun w _ => by
  show decodeOp (encRI 0x1D1 h f) = some (.tagwa h f)
  rw [op_E _ 17 (by rw [op_encRI]; rfl) (by decide)]
  show some (Instr.tagwa (encRI 0x1D1 h f).head (encRI 0x1D1 h f).formRI) = _
  rw [head_encRI, formRI_encRI _ _ _ (form_wf w)]
theorem tagwn (h : Head) (f : FormRI) : Statement (.tagwn h f) := fun w _ => by
  show decodeOp (encRI 0x1D2 h f) = some (.tagwn h f)
  rw [op_E _ 18 (by rw [op_encRI]; rfl) (by decide)]
  show some (Instr.tagwn (encRI 0x1D2 h f).head (encRI 0x1D2 h f).formRI) = _
  rw [head_encRI, formRI_encRI _ _ _ (form_wf w)]
theorem tagff (h : Head) (f : FormR) : Statement (.tagff h f) := fun _ _ => by
  show decodeOp (encR 0x1D3 h f) = some (.tagff h f)
  rw [op_E _ 19 (by rw [op_encR]; rfl) (by decide)]
  show some (Instr.tagff (encR 0x1D3 h f).head (encR 0x1D3 h f).formR) = _
  rw [head_encR, formR_encR]
theorem wrq (h : Head) (f : FormQ) : Statement (.wrq h f) := fun _ _ => by
  show decodeOp (encQ 0x1D4 h f) = some (.wrq h f)
  rw [op_E _ 20 (by rw [op_encQ]; rfl) (by decide)]
  show some (Instr.wrq (encQ 0x1D4 h f).head (encQ 0x1D4 h f).formQ) = _
  rw [head_encQ, formQ_encQ]
theorem smap (h : Head) (f : FormM) : Statement (.smap h f) := fun _ _ => by
  show decodeOp (encM 0x1D5 h f) = some (.smap h f)
  rw [op_E _ 21 (by rw [op_encM]; rfl) (by decide)]
  show some (Instr.smap (encM 0x1D5 h f).head (encM 0x1D5 h f).formM) = _
  rw [head_encM, formM_encM]
theorem sdrop (h : Head) (f : FormM) : Statement (.sdrop h f) := fun _ _ => by
  show decodeOp (encM 0x1D6 h f) = some (.sdrop h f)
  rw [op_E _ 22 (by rw [op_encM]; rfl) (by decide)]
  show some (Instr.sdrop (encM 0x1D6 h f).head (encM 0x1D6 h f).formM) = _
  rw [head_encM, formM_encM]
theorem spub (h : Head) (f : FormM) : Statement (.spub h f) := fun _ _ => by
  show decodeOp (encM 0x1D7 h f) = some (.spub h f)
  rw [op_E _ 23 (by rw [op_encM]; rfl) (by decide)]
  show some (Instr.spub (encM 0x1D7 h f).head (encM 0x1D7 h f).formM) = _
  rw [head_encM, formM_encM]
theorem cctl (h : Head) (f : FormM) : Statement (.cctl h f) := fun _ _ => by
  show decodeOp (encM 0x1D8 h f) = some (.cctl h f)
  rw [op_E _ 24 (by rw [op_encM]; rfl) (by decide)]
  show some (Instr.cctl (encM 0x1D8 h f).head (encM 0x1D8 h f).formM) = _
  rw [head_encM, formM_encM]
theorem tiercp (h : Head) (f : FormQ) : Statement (.tiercp h f) := fun _ _ => by
  show decodeOp (encQ 0x1D9 h f) = some (.tiercp h f)
  rw [op_E _ 25 (by rw [op_encQ]; rfl) (by decide)]
  show some (Instr.tiercp (encQ 0x1D9 h f).head (encQ 0x1D9 h f).formQ) = _
  rw [head_encQ, formQ_encQ]
theorem qbind (h : Head) (f : FormQ) : Statement (.qbind h f) := fun _ _ => by
  show decodeOp (encQ 0x240 h f) = some (.qbind h f)
  rw [op_F _ 0 (by rw [op_encQ]; rfl) (by decide)]
  show some (Instr.qbind (encQ 0x240 h f).head (encQ 0x240 h f).formQ) = _
  rw [head_encQ, formQ_encQ]
theorem qfree (h : Head) (f : FormQ) : Statement (.qfree h f) := fun _ _ => by
  show decodeOp (encQ 0x241 h f) = some (.qfree h f)
  rw [op_F _ 1 (by rw [op_encQ]; rfl) (by decide)]
  show some (Instr.qfree (encQ 0x241 h f).head (encQ 0x241 h f).formQ) = _
  rw [head_encQ, formQ_encQ]
theorem qpush (h : Head) (f : FormR) : Statement (.qpush h f) := fun _ _ => by
  show decodeOp (encR 0x242 h f) = some (.qpush h f)
  rw [op_F _ 2 (by rw [op_encR]; rfl) (by decide)]
  show some (Instr.qpush (encR 0x242 h f).head (encR 0x242 h f).formR) = _
  rw [head_encR, formR_encR]
theorem qpop (h : Head) (f : FormR) : Statement (.qpop h f) := fun _ _ => by
  show decodeOp (encR 0x243 h f) = some (.qpop h f)
  rw [op_F _ 3 (by rw [op_encR]; rfl) (by decide)]
  show some (Instr.qpop (encR 0x243 h f).head (encR 0x243 h f).formR) = _
  rw [head_encR, formR_encR]
theorem qpeek (h : Head) (f : FormR) : Statement (.qpeek h f) := fun _ _ => by
  show decodeOp (encR 0x244 h f) = some (.qpeek h f)
  rw [op_F _ 4 (by rw [op_encR]; rfl) (by decide)]
  show some (Instr.qpeek (encR 0x244 h f).head (encR 0x244 h f).formR) = _
  rw [head_encR, formR_encR]
theorem qstat (h : Head) (f : FormR) : Statement (.qstat h f) := fun _ _ => by
  show decodeOp (encR 0x245 h f) = some (.qstat h f)
  rw [op_F _ 5 (by rw [op_encR]; rfl) (by decide)]
  show some (Instr.qstat (encR 0x245 h f).head (encR 0x245 h f).formR) = _
  rw [head_encR, formR_encR]
theorem qres (h : Head) (f : FormQ) : Statement (.qres h f) := fun _ _ => by
  show decodeOp (encQ 0x246 h f) = some (.qres h f)
  rw [op_F _ 6 (by rw [op_encQ]; rfl) (by decide)]
  show some (Instr.qres (encQ 0x246 h f).head (encQ 0x246 h f).formQ) = _
  rw [head_encQ, formQ_encQ]
theorem qpub (h : Head) (f : FormQ) : Statement (.qpub h f) := fun _ _ => by
  show decodeOp (encQ 0x247 h f) = some (.qpub h f)
  rw [op_F _ 7 (by rw [op_encQ]; rfl) (by decide)]
  show some (Instr.qpub (encQ 0x247 h f).head (encQ 0x247 h f).formQ) = _
  rw [head_encQ, formQ_encQ]
theorem qwait (h : Head) (f : FormRI) : Statement (.qwait h f) := fun w _ => by
  show decodeOp (encRI 0x248 h f) = some (.qwait h f)
  rw [op_F _ 8 (by rw [op_encRI]; rfl) (by decide)]
  show some (Instr.qwait (encRI 0x248 h f).head (encRI 0x248 h f).formRI) = _
  rw [head_encRI, formRI_encRI _ _ _ (form_wf w)]
theorem ldq (h : Head) (f : FormM) : Statement (.ldq h f) := fun _ _ => by
  show decodeOp (encM 0x249 h f) = some (.ldq h f)
  rw [op_F _ 9 (by rw [op_encM]; rfl) (by decide)]
  show some (Instr.ldq (encM 0x249 h f).head (encM 0x249 h f).formM) = _
  rw [head_encM, formM_encM]
theorem stq (h : Head) (f : FormM) : Statement (.stq h f) := fun _ _ => by
  show decodeOp (encM 0x24A h f) = some (.stq h f)
  rw [op_F _ 10 (by rw [op_encM]; rfl) (by decide)]
  show some (Instr.stq (encM 0x24A h f).head (encM 0x24A h f).formM) = _
  rw [head_encM, formM_encM]
theorem rrdq (h : Head) (f : FormQ) : Statement (.rrdq h f) := fun _ _ => by
  show decodeOp (encQ 0x24B h f) = some (.rrdq h f)
  rw [op_F _ 11 (by rw [op_encQ]; rfl) (by decide)]
  show some (Instr.rrdq (encQ 0x24B h f).head (encQ 0x24B h f).formQ) = _
  rw [head_encQ, formQ_encQ]
theorem subs (h : Head) (f : FormQ) : Statement (.subs h f) := fun _ _ => by
  show decodeOp (encQ 0x24C h f) = some (.subs h f)
  rw [op_F _ 12 (by rw [op_encQ]; rfl) (by decide)]
  show some (Instr.subs (encQ 0x24C h f).head (encQ 0x24C h f).formQ) = _
  rw [head_encQ, formQ_encQ]
theorem drainq (h : Head) (f : FormQ) : Statement (.drainq h f) := fun _ _ => by
  show decodeOp (encQ 0x24D h f) = some (.drainq h f)
  rw [op_F _ 13 (by rw [op_encQ]; rfl) (by decide)]
  show some (Instr.drainq (encQ 0x24D h f).head (encQ 0x24D h f).formQ) = _
  rw [head_encQ, formQ_encQ]
theorem lcbr (h : Head) (f : FormB) : Statement (.lcbr h f) := fun _ _ => by
  show decodeOp (encB 0x24E h f) = some (.lcbr h f)
  rw [op_F _ 14 (by rw [op_encB]; rfl) (by decide)]
  show some (Instr.lcbr (encB 0x24E h f).head (encB 0x24E h f).formB) = _
  rw [head_encB, formB_encB]
theorem qflush (h : Head) (f : FormQ) : Statement (.qflush h f) := fun _ _ => by
  show decodeOp (encQ 0x24F h f) = some (.qflush h f)
  rw [op_F _ 15 (by rw [op_encQ]; rfl) (by decide)]
  show some (Instr.qflush (encQ 0x24F h f).head (encQ 0x24F h f).formQ) = _
  rw [head_encQ, formQ_encQ]
theorem mma (h : Head) (f : FormQ) : Statement (.mma h f) := fun _ _ => by
  show decodeOp (encQ 0x280 h f) = some (.mma h f)
  rw [op_G _ 0 (by rw [op_encQ]; rfl) (by decide)]
  show some (Instr.mma (encQ 0x280 h f).head (encQ 0x280 h f).formQ) = _
  rw [head_encQ, formQ_encQ]
theorem mmat (h : Head) (f : FormQ) : Statement (.mmat h f) := fun _ _ => by
  show decodeOp (encQ 0x281 h f) = some (.mmat h f)
  rw [op_G _ 1 (by rw [op_encQ]; rfl) (by decide)]
  show some (Instr.mmat (encQ 0x281 h f).head (encQ 0x281 h f).formQ) = _
  rw [head_encQ, formQ_encQ]
theorem mmas (h : Head) (f : FormQ) : Statement (.mmas h f) := fun _ _ => by
  show decodeOp (encQ 0x282 h f) = some (.mmas h f)
  rw [op_G _ 2 (by rw [op_encQ]; rfl) (by decide)]
  show some (Instr.mmas (encQ 0x282 h f).head (encQ 0x282 h f).formQ) = _
  rw [head_encQ, formQ_encQ]
theorem tdef (h : Head) (f : FormQ) : Statement (.tdef h f) := fun _ _ => by
  show decodeOp (encQ 0x283 h f) = some (.tdef h f)
  rw [op_G _ 3 (by rw [op_encQ]; rfl) (by decide)]
  show some (Instr.tdef (encQ 0x283 h f).head (encQ 0x283 h f).formQ) = _
  rw [head_encQ, formQ_encQ]
theorem tdrop (h : Head) (f : FormQ) : Statement (.tdrop h f) := fun _ _ => by
  show decodeOp (encQ 0x284 h f) = some (.tdrop h f)
  rw [op_G _ 4 (by rw [op_encQ]; rfl) (by decide)]
  show some (Instr.tdrop (encQ 0x284 h f).head (encQ 0x284 h f).formQ) = _
  rw [head_encQ, formQ_encQ]
theorem mvs (h : Head) (f : FormQ) : Statement (.mvs h f) := fun _ _ => by
  show decodeOp (encQ 0x285 h f) = some (.mvs h f)
  rw [op_G _ 5 (by rw [op_encQ]; rfl) (by decide)]
  show some (Instr.mvs (encQ 0x285 h f).head (encQ 0x285 h f).formQ) = _
  rw [head_encQ, formQ_encQ]
theorem svs (h : Head) (f : FormQ) : Statement (.svs h f) := fun _ _ => by
  show decodeOp (encQ 0x286 h f) = some (.svs h f)
  rw [op_G _ 6 (by rw [op_encQ]; rfl) (by decide)]
  show some (Instr.svs (encQ 0x286 h f).head (encQ 0x286 h f).formQ) = _
  rw [head_encQ, formQ_encQ]
theorem coll (h : Head) (f : FormQ) : Statement (.coll h f) := fun _ _ => by
  show decodeOp (encQ 0x287 h f) = some (.coll h f)
  rw [op_G _ 7 (by rw [op_encQ]; rfl) (by decide)]
  show some (Instr.coll (encQ 0x287 h f).head (encQ 0x287 h f).formQ) = _
  rw [head_encQ, formQ_encQ]
theorem gbar (h : Head) (f : FormQ) : Statement (.gbar h f) := fun _ _ => by
  show decodeOp (encQ 0x288 h f) = some (.gbar h f)
  rw [op_G _ 8 (by rw [op_encQ]; rfl) (by decide)]
  show some (Instr.gbar (encQ 0x288 h f).head (encQ 0x288 h f).formQ) = _
  rw [head_encQ, formQ_encQ]
theorem hwait (h : Head) (f : FormR) : Statement (.hwait h f) := fun _ _ => by
  show decodeOp (encR 0x289 h f) = some (.hwait h f)
  rw [op_G _ 9 (by rw [op_encR]; rfl) (by decide)]
  show some (Instr.hwait (encR 0x289 h f).head (encR 0x289 h f).formR) = _
  rw [head_encR, formR_encR]
theorem htest (h : Head) (f : FormR) : Statement (.htest h f) := fun _ _ => by
  show decodeOp (encR 0x28A h f) = some (.htest h f)
  rw [op_G _ 10 (by rw [op_encR]; rfl) (by decide)]
  show some (Instr.htest (encR 0x28A h f).head (encR 0x28A h f).formR) = _
  rw [head_encR, formR_encR]
theorem hcan (h : Head) (f : FormR) : Statement (.hcan h f) := fun _ _ => by
  show decodeOp (encR 0x28B h f) = some (.hcan h f)
  rw [op_G _ 11 (by rw [op_encR]; rfl) (by decide)]
  show some (Instr.hcan (encR 0x28B h f).head (encR 0x28B h f).formR) = _
  rw [head_encR, formR_encR]
theorem hpass (h : Head) (f : FormR) : Statement (.hpass h f) := fun _ _ => by
  show decodeOp (encR 0x28C h f) = some (.hpass h f)
  rw [op_G _ 12 (by rw [op_encR]; rfl) (by decide)]
  show some (Instr.hpass (encR 0x28C h f).head (encR 0x28C h f).formR) = _
  rw [head_encR, formR_encR]
theorem htake (h : Head) (f : FormR) : Statement (.htake h f) := fun _ _ => by
  show decodeOp (encR 0x28D h f) = some (.htake h f)
  rw [op_G _ 13 (by rw [op_encR]; rfl) (by decide)]
  show some (Instr.htake (encR 0x28D h f).head (encR 0x28D h f).formR) = _
  rw [head_encR, formR_encR]
theorem cntsel (h : Head) (f : FormRI) : Statement (.cntsel h f) := fun w _ => by
  show decodeOp (encRI 0x2C0 h f) = some (.cntsel h f)
  rw [op_H _ 0 (by rw [op_encRI]; rfl) (by decide)]
  show some (Instr.cntsel (encRI 0x2C0 h f).head (encRI 0x2C0 h f).formRI) = _
  rw [head_encRI, formRI_encRI _ _ _ (form_wf w)]
theorem cntrd (h : Head) (f : FormR) : Statement (.cntrd h f) := fun _ _ => by
  show decodeOp (encR 0x2C1 h f) = some (.cntrd h f)
  rw [op_H _ 1 (by rw [op_encR]; rfl) (by decide)]
  show some (Instr.cntrd (encR 0x2C1 h f).head (encR 0x2C1 h f).formR) = _
  rw [head_encR, formR_encR]
theorem cntsnap (h : Head) (f : FormR) : Statement (.cntsnap h f) := fun _ _ => by
  show decodeOp (encR 0x2C2 h f) = some (.cntsnap h f)
  rw [op_H _ 2 (by rw [op_encR]; rfl) (by decide)]
  show some (Instr.cntsnap (encR 0x2C2 h f).head (encR 0x2C2 h f).formR) = _
  rw [head_encR, formR_encR]
theorem rcinc (h : Head) (f : FormRI) : Statement (.rcinc h f) := fun w _ => by
  show decodeOp (encRI 0x2C3 h f) = some (.rcinc h f)
  rw [op_H _ 3 (by rw [op_encRI]; rfl) (by decide)]
  show some (Instr.rcinc (encRI 0x2C3 h f).head (encRI 0x2C3 h f).formRI) = _
  rw [head_encRI, formRI_encRI _ _ _ (form_wf w)]
theorem rcsnap (h : Head) (f : FormQ) : Statement (.rcsnap h f) := fun _ _ => by
  show decodeOp (encQ 0x2C4 h f) = some (.rcsnap h f)
  rw [op_H _ 4 (by rw [op_encQ]; rfl) (by decide)]
  show some (Instr.rcsnap (encQ 0x2C4 h f).head (encQ 0x2C4 h f).formQ) = _
  rw [head_encQ, formQ_encQ]
theorem wpset (h : Head) (f : FormM) : Statement (.wpset h f) := fun _ _ => by
  show decodeOp (encM 0x2C5 h f) = some (.wpset h f)
  rw [op_H _ 5 (by rw [op_encM]; rfl) (by decide)]
  show some (Instr.wpset (encM 0x2C5 h f).head (encM 0x2C5 h f).formM) = _
  rw [head_encM, formM_encM]
theorem bpset (h : Head) (f : FormB) : Statement (.bpset h f) := fun _ _ => by
  show decodeOp (encB 0x2C6 h f) = some (.bpset h f)
  rw [op_H _ 6 (by rw [op_encB]; rfl) (by decide)]
  show some (Instr.bpset (encB 0x2C6 h f).head (encB 0x2C6 h f).formB) = _
  rw [head_encB, formB_encB]
theorem dmbox (h : Head) (f : FormRI) : Statement (.dmbox h f) := fun w _ => by
  show decodeOp (encRI 0x2C7 h f) = some (.dmbox h f)
  rw [op_H _ 7 (by rw [op_encRI]; rfl) (by decide)]
  show some (Instr.dmbox (encRI 0x2C7 h f).head (encRI 0x2C7 h f).formRI) = _
  rw [head_encRI, formRI_encRI _ _ _ (form_wf w)]
theorem dstep (h : Head) (f : FormR) : Statement (.dstep h f) := fun _ _ => by
  show decodeOp (encR 0x2C8 h f) = some (.dstep h f)
  rw [op_H _ 8 (by rw [op_encR]; rfl) (by decide)]
  show some (Instr.dstep (encR 0x2C8 h f).head (encR 0x2C8 h f).formR) = _
  rw [head_encR, formR_encR]
theorem unassignedOpcode : ∀ x0, Statement (.unassignedOpcode x0) := fun _ _ e => nomatch e
theorem trapEntry : ∀ x0, Statement (.trapEntry x0) := fun _ _ e => nomatch e
theorem classTResultWrite : ∀ x0 x1, Statement (.classTResultWrite x0 x1) := fun _ _ _ e => nomatch e
theorem loadDataReturn : ∀ x0 x1, Statement (.loadDataReturn x0 x1) := fun _ _ _ e => nomatch e
theorem ldqSlotFill : ∀ x0 x1, Statement (.ldqSlotFill x0 x1) := fun _ _ _ e => nomatch e
theorem copyPiece : ∀ x0, Statement (.copyPiece x0) := fun _ _ e => nomatch e
theorem copyComplete : ∀ x0, Statement (.copyComplete x0) := fun _ _ e => nomatch e
theorem tiercpPage : ∀ x0, Statement (.tiercpPage x0) := fun _ _ e => nomatch e
theorem matrixOpFire : ∀ x0, Statement (.matrixOpFire x0) := fun _ _ e => nomatch e
theorem matrixGroup : ∀ x0, Statement (.matrixGroup x0) := fun _ _ e => nomatch e
theorem matrixOpComplete : ∀ x0, Statement (.matrixOpComplete x0) := fun _ _ e => nomatch e
theorem mvsFire : ∀ x0, Statement (.mvsFire x0) := fun _ _ e => nomatch e
theorem stackEngineOutputRun : ∀ x0, Statement (.stackEngineOutputRun x0) := fun _ _ e => nomatch e
theorem subsTilePush : ∀ x0, Statement (.subsTilePush x0) := fun _ _ e => nomatch e
theorem drainqElementWrite : ∀ x0, Statement (.drainqElementWrite x0) := fun _ _ e => nomatch e
theorem rrdqElementArrival : ∀ x0 x1, Statement (.rrdqElementArrival x0 x1) := fun _ _ _ e => nomatch e
theorem collInstanceComplete : ∀ x0, Statement (.collInstanceComplete x0) := fun _ _ e => nomatch e
theorem gbarComplete : ∀ x0, Statement (.gbarComplete x0) := fun _ _ e => nomatch e
theorem tredInstanceDelivery : ∀ x0 x1, Statement (.tredInstanceDelivery x0 x1) := fun _ _ _ e => nomatch e
theorem handleWaitPark : ∀ x0, Statement (.handleWaitPark x0) := fun _ _ e => nomatch e
theorem waitfTimeout : ∀ x0, Statement (.waitfTimeout x0) := fun _ _ e => nomatch e
theorem sleepExpiry : ∀ x0, Statement (.sleepExpiry x0) := fun _ _ e => nomatch e
theorem holdtTimeReached : ∀ x0, Statement (.holdtTimeReached x0) := fun _ _ e => nomatch e
theorem loopCountPoll : ∀ x0, Statement (.loopCountPoll x0) := fun _ _ e => nomatch e
theorem podSwap : ∀ x0, Statement (.podSwap x0) := fun _ _ e => nomatch e
theorem podPromotion : ∀ x0, Statement (.podPromotion x0) := fun _ _ e => nomatch e
theorem spinDemotionEnd : ∀ x0, Statement (.spinDemotionEnd x0) := fun _ _ e => nomatch e
theorem queueDeadlock : ∀ x0, Statement (.queueDeadlock x0) := fun _ _ e => nomatch e
theorem podExit : ∀ x0, Statement (.podExit x0) := fun _ _ e => nomatch e
theorem phaseEnd : ∀ x0, Statement (.phaseEnd x0) := fun _ _ e => nomatch e
theorem placementTimeout : ∀ x0, Statement (.placementTimeout x0) := fun _ _ e => nomatch e
theorem shadowComparison : ∀ x0, Statement (.shadowComparison x0) := fun _ _ e => nomatch e
theorem teamExit : ∀ x0, Statement (.teamExit x0) := fun _ _ e => nomatch e
theorem gridRetirement : ∀ x0, Statement (.gridRetirement x0) := fun _ _ e => nomatch e
theorem packetTake : ∀ x0, Statement (.packetTake x0) := fun _ _ e => nomatch e
theorem teamPlacement : ∀ x0 x1, Statement (.teamPlacement x0 x1) := fun _ _ _ e => nomatch e
theorem startTimeReached : ∀ x0, Statement (.startTimeReached x0) := fun _ _ e => nomatch e
theorem fetchwMailboxFill : ∀ x0, Statement (.fetchwMailboxFill x0) := fun _ _ e => nomatch e
theorem savePreemption : ∀ x0, Statement (.savePreemption x0) := fun _ _ e => nomatch e
theorem contextRecordWrite : ∀ x0, Statement (.contextRecordWrite x0) := fun _ _ e => nomatch e
theorem phaseAbort : ∀ x0, Statement (.phaseAbort x0) := fun _ _ e => nomatch e
theorem clusterTokenPass : ∀ x0, Statement (.clusterTokenPass x0) := fun _ _ e => nomatch e
theorem escalationNotify : Statement .escalationNotify := fun _ e => nomatch e
theorem peerRefusalArrival : ∀ x0 x1, Statement (.peerRefusalArrival x0 x1) := fun _ _ _ e => nomatch e
theorem peerAcknowledgement : ∀ x0 x1, Statement (.peerAcknowledgement x0 x1) := fun _ _ _ e => nomatch e
theorem mcIssueHold : ∀ x0, Statement (.mcIssueHold x0) := fun _ _ e => nomatch e
theorem queueMappingQuantum : Statement .queueMappingQuantum := fun _ e => nomatch e
theorem contextRestore : ∀ x0 x1, Statement (.contextRestore x0 x1) := fun _ _ _ e => nomatch e
theorem pageWalk : ∀ x0 x1 x2, Statement (.pageWalk x0 x1 x2) := fun _ _ _ _ e => nomatch e
theorem l2Eviction : ∀ x0, Statement (.l2Eviction x0) := fun _ _ e => nomatch e
theorem memoryScrub : ∀ x0, Statement (.memoryScrub x0) := fun _ _ e => nomatch e
theorem dieTokenPass : Statement .dieTokenPass := fun _ e => nomatch e
theorem wqEnable : Statement .wqEnable := fun _ e => nomatch e
theorem wqDisable : Statement .wqDisable := fun _ e => nomatch e
theorem saveTeam : Statement .saveTeam := fun _ e => nomatch e
theorem abortTeam : Statement .abortTeam := fun _ e => nomatch e
theorem resumeContext : Statement .resumeContext := fun _ e => nomatch e
theorem discardContext : Statement .discardContext := fun _ e => nomatch e
theorem wqcmdReserved : ∀ x0, Statement (.wqcmdReserved x0) := fun _ _ e => nomatch e
theorem doorbellWrite : ∀ x0 x1, Statement (.doorbellWrite x0 x1) := fun _ _ _ e => nomatch e
theorem acornstTermClear : Statement .acornstTermClear := fun _ e => nomatch e
theorem xlinvPage : ∀ x0 x1, Statement (.xlinvPage x0 x1) := fun _ _ _ e => nomatch e
theorem xlinvAsn : ∀ x0, Statement (.xlinvAsn x0) := fun _ _ e => nomatch e
theorem xlinvAll : Statement .xlinvAll := fun _ e => nomatch e
theorem xlinvReserved : Statement .xlinvReserved := fun _ e => nomatch e
theorem xlinvComplete : Statement .xlinvComplete := fun _ e => nomatch e
theorem capmWrite : ∀ x0 x1 x2 x3, Statement (.capmWrite x0 x1 x2 x3) := fun _ _ _ _ _ e => nomatch e
theorem accessTableWrite : ∀ x0 x1 x2, Statement (.accessTableWrite x0 x1 x2) := fun _ _ _ _ e => nomatch e
theorem accessTableUpdateDone : Statement .accessTableUpdateDone := fun _ e => nomatch e
theorem esctailWrite : ∀ x0, Statement (.esctailWrite x0) := fun _ _ e => nomatch e
theorem dbgoutPop : Statement .dbgoutPop := fun _ e => nomatch e
theorem mcMailboxRequest : ∀ x0 x1, Statement (.mcMailboxRequest x0 x1) := fun _ _ _ e => nomatch e
theorem registerWrite : ∀ x0 x1 x2 x3, Statement (.registerWrite x0 x1 x2 x3) := fun _ _ _ _ _ e => nomatch e
theorem huskToH1 : Statement .huskToH1 := fun _ e => nomatch e
theorem huskToH0 : Statement .huskToH0 := fun _ e => nomatch e
theorem huskH0ToH1 : Statement .huskH0ToH1 := fun _ e => nomatch e
theorem huskToH2 : Statement .huskToH2 := fun _ e => nomatch e
theorem huskToH3 : Statement .huskToH3 := fun _ e => nomatch e
theorem huskReset : Statement .huskReset := fun _ e => nomatch e
theorem huskPowerApplied : Statement .huskPowerApplied := fun _ e => nomatch e
theorem huskPowerLost : Statement .huskPowerLost := fun _ e => nomatch e
theorem packageReset : Statement .packageReset := fun _ e => nomatch e
theorem firmwareVerify : ∀ x0 x1, Statement (.firmwareVerify x0 x1) := fun _ _ _ e => nomatch e
theorem attestationRequest : ∀ x0, Statement (.attestationRequest x0) := fun _ _ e => nomatch e
theorem diePowerOn : Statement .diePowerOn := fun _ e => nomatch e
theorem computeDieReset : Statement .computeDieReset := fun _ e => nomatch e
theorem dieResetRelease : Statement .dieResetRelease := fun _ e => nomatch e
theorem diePowerOff : Statement .diePowerOff := fun _ e => nomatch e
theorem agentHeartbeat : ∀ x0, Statement (.agentHeartbeat x0) := fun _ _ e => nomatch e
theorem watchdogExpiry : Statement .watchdogExpiry := fun _ e => nomatch e
theorem dieHoldExpiry : Statement .dieHoldExpiry := fun _ e => nomatch e
theorem winnowEnqueue : ∀ x0 x1 x2, Statement (.winnowEnqueue x0 x1 x2) := fun _ _ _ _ e => nomatch e
theorem winnowPlacementTimeout : ∀ x0 x1, Statement (.winnowPlacementTimeout x0 x1) := fun _ _ _ e => nomatch e
theorem winnowResultProcess : ∀ x0 x1, Statement (.winnowResultProcess x0 x1) := fun _ _ _ e => nomatch e
theorem timeBaseSync : ∀ x0, Statement (.timeBaseSync x0) := fun _ _ e => nomatch e
theorem flitReceive : ∀ x0 x1, Statement (.flitReceive x0 x1) := fun _ _ _ e => nomatch e
theorem starvationGrant : ∀ x0 x1, Statement (.starvationGrant x0 x1) := fun _ _ _ e => nomatch e
theorem linkRetryLimit : ∀ x0, Statement (.linkRetryLimit x0) := fun _ _ e => nomatch e
theorem linkNoProgressTimeout : ∀ x0, Statement (.linkNoProgressTimeout x0) := fun _ _ e => nomatch e
theorem linkTrainingComplete : ∀ x0, Statement (.linkTrainingComplete x0) := fun _ _ e => nomatch e
theorem lstateBroadcastReceive : ∀ x0 x1, Statement (.lstateBroadcastReceive x0 x1) := fun _ _ _ e => nomatch e
theorem uePortsUp : Statement .uePortsUp := fun _ e => nomatch e
theorem messageArrival : ∀ x0, Statement (.messageArrival x0) := fun _ _ e => nomatch e
theorem detourRelay : ∀ x0, Statement (.detourRelay x0) := fun _ _ e => nomatch e
theorem bouncedMessageReturn : ∀ x0, Statement (.bouncedMessageReturn x0) := fun _ _ e => nomatch e
theorem responseArrival : ∀ x0, Statement (.responseArrival x0) := fun _ _ e => nomatch e
theorem e2eResendTimeout : ∀ x0 x1, Statement (.e2eResendTimeout x0 x1) := fun _ _ _ e => nomatch e
theorem uePacketReceive : ∀ x0, Statement (.uePacketReceive x0) := fun _ _ e => nomatch e
theorem writeReachesHome : ∀ x0 x1, Statement (.writeReachesHome x0 x1) := fun _ _ _ e => nomatch e
theorem hostComplexAccess : ∀ x0 x1 x2, Statement (.hostComplexAccess x0 x1 x2) := fun _ _ _ _ e => nomatch e
theorem flitSlotGrant : ∀ x0 x1, Statement (.flitSlotGrant x0 x1) := fun _ _ _ e => nomatch e
theorem counterMmioClear : ∀ x0, Statement (.counterMmioClear x0) := fun _ _ e => nomatch e

end Sys2Proof.Laws.Encodes
end

