-- ==== Sys2Proof/Tests/Slice0.lean ====
section
/-! SUPPORT. Tests: well-formedness, decoding, worked examples of the manual, and witnesses of the hypotheses of the statements. -/
namespace Sys2Proof.Tests

set_option Elab.async false

open Machine Claims

/-! ## A machine to test on -/

/-- No guard and no hints. -/
def h0 : Head := { neg := false, pred := 0, wait := 0, seta := 15, setb := 15 }

/-- A form R of four operands. -/
def fr (dst a b c : Code) (flags : BitVec 7) : FormR := { dst := dst, a := a, b := b, c := c, smod := 0, mtgt := 0, flags := flags }

/-- A form Q of four operands. -/
def fq (dst a b c : Code) (desc : BitVec 12) (flags : BitVec 9) : FormQ := { dst := dst, a := a, b := b, c := c, desc := desc, flags := flags }

/-- v10 or v20, and the zero code. -/
def z : Code := 1023

/-- The program of `withFetchWord` with an access pod, at %phase with 16 threads. -/
def base : State := State.reset.withFetchWord 96 0

/-- Tag k on registers 100 + 8 k to 107 + 8 k; an f32 and a scale on 300 and 301. -/
def tagged : Cells 5 := ((List.range 21).map fun k => (List.range 8).map fun j => (108 + 8 * k + j, BitVec.ofNat 5 (k + 1))).flatten ++ [(300, 3), (301, 21)]

/-- The access pod, with tagged registers. -/
def accS : State := { base with pod := { base.pod with tags := tagged } }

/-- The same pod in the execute slice. -/
def exeS : State :=
  { accS with
    pod := { accS.pod with id := ⟨⟨1, 0, 0⟩, .execute, 0⟩ }
    team := { accS.team with kernel := { accS.team.kernel with xpods := 1, xregs := 640, xkregs := 64 } } }

/-- A register of eight that carry a tag. -/
def vt (tag : Nat) : Code := BitVec.ofNat 10 (100 + 8 * tag)

/-- What `Ready` asks, as a test. -/
def readyB (i : Instr) (h : Head) (sp : Spec) (s : State) : Bool :=
  !s.pod.waitsOn h && (s.pod.dueFaults h.wait).isEmpty && (s.podCheck i h sp).isNone && sp.late.isNone && !s.readsBad h sp && !s.accTouched sp &&
    !(issueCtx s h sp).eff.isEmpty && !s.pod.stepping && !s.pod.halted

theorem ready_of {i : Instr} {h : Head} {sp : Spec} {s : State} (w : readyB i h sp s = true) : Ready i h sp s := by
  simp only [readyB, Bool.and_eq_true, Bool.not_eq_true', List.isEmpty_iff, Option.isNone_iff_eq_none] at w
  obtain ⟨⟨⟨⟨⟨⟨⟨⟨a, b⟩, c⟩, d⟩, e⟩, f⟩, g⟩, h⟩, i⟩ := w
  exact ⟨a, b, c, d, e, f, by simpa using g, h, i⟩

/-- What `StopsLate` asks of the checks, as a test. -/
def checkedB (i : Instr) (h : Head) (sp : Spec) (s : State) : Bool :=
  !s.pod.waitsOn h && (s.pod.dueFaults h.wait).isEmpty && (s.podCheck i h sp).isNone

/-- What `Fed` asks, as a test. -/
def fedB (c : Ctx) : Bool :=
  c.s.portsFit c.sp c.lanes.length && (c.s.portsWait c.sp c.lanes.length).isNone && c.lanes.all fun t => (c.readFault t).isNone

theorem fed_of {c : Ctx} (w : fedB c = true) : Fed c := by
  simp only [fedB, Bool.and_eq_true, Option.isNone_iff_eq_none, List.all_eq_true] at w
  exact ⟨w.1.1, w.1.2, w.2⟩

/-- Each of some lane instructions can be issued and is fed. -/
def lanesOk (s : State) (h : Head) (l : List (Instr × Spec)) : Bool :=
  l.all fun x => readyB x.1 h x.2 s && fedB (issueCtx s h x.2)

/-- Each of some instructions can be issued. -/
def issueOk (s : State) (h : Head) (l : List (Instr × Spec)) : Bool := l.all fun x => readyB x.1 h x.2 s

theorem lanes_of {s : State} {h : Head} {l : List (Instr × Spec)} (w : lanesOk s h l = true) :
    ∀ x ∈ l, Ready x.1 h x.2 s ∧ Fed (issueCtx s h x.2) := fun x m => by
  have := List.all_eq_true.mp w x m
  rw [Bool.and_eq_true] at this
  exact ⟨ready_of this.1, fed_of this.2⟩

theorem issue_of {s : State} {h : Head} {l : List (Instr × Spec)} (w : issueOk s h l = true) : ∀ x ∈ l, Ready x.1 h x.2 s :=
  fun x m => ready_of (List.all_eq_true.mp w x m)

/-! ## Witnesses: integer, logic, predicates and moves -/

def ri : FormRI := .r (fr 10 z z 0 0)
def ri3 : FormRI := .r (fr 10 z z z 0)

theorem witness_integer : lanesOk accS h0
    [(.iadd h0 ri, specAB ri none), (.isub h0 ri, specAB ri none), (.imul h0 ri, specAB ri (mulCls ri.ty)),
     (.imulh h0 ri, specAB ri (mulCls ri.ty)), (.imad h0 ri3, specABC ri3 (mulCls ri.ty)), (.imin h0 ri, specAB ri none),
     (.imax h0 ri, specAB ri none), (.iclamp h0 ri3, specABC ri3 none), (.isad h0 ri3, specABC ri3 none),
     (.ineg h0 (fr 10 z 0 0 0), specR (fr 10 z 0 0 0) [intSrc 1 (.code z) 0] (intDst 10 0)),
     (.iabs h0 (fr 10 z 0 0 0), specR (fr 10 z 0 0 0) [intSrc 1 (.code z) 0] (intDst 10 0))] = true := by decide +kernel

theorem witness_carries : let f : FormRI := .r (fr 10 z z 0 (8 + 1))
    lanesOk accS h0 [(.iaddc h0 f, specRI f [intSrc 1 (.code f.a) f.ty, intSrc 2 (FormRI.argTy f f.ty) f.ty, predSrc 5 (768 + f.low.setWidth 10)]
      (intDst f.dst f.ty)), (.isubb h0 f, specRI f [intSrc 1 (.code f.a) f.ty, intSrc 2 (FormRI.argTy f f.ty) f.ty,
      predSrc 5 (768 + f.low.setWidth 10)] (intDst f.dst f.ty))] = true := by decide +kernel

theorem witness_division : lanesOk accS h0 [(.idiv h0 ri, specAB ri (divCls ri.ty)), (.irem h0 ri, specAB ri (divCls ri.ty))] = true := by
  decide +kernel

theorem witness_shifts : lanesOk accS h0 [(.shl h0 ri, specACnt ri), (.shr h0 ri, specACnt ri), (.shra h0 ri, specACnt ri),
    (.rotl h0 ri, specACnt ri), (.shfd h0 ri3, specACntC ri3)] = true := by decide +kernel

theorem witness_logic : lanesOk accS h0 [(.andB h0 ri, specBitsAB ri accS), (.orB h0 ri, specBitsAB ri accS),
    (.xorB h0 ri, specBitsAB ri accS), (.andn h0 ri, specBitsAB ri accS), (.notB h0 (fr 10 z 0 0 0), specBitsA (fr 10 z 0 0 0) false accS),
    (.brev h0 (fr 10 z 0 0 0), specBitsA (fr 10 z 0 0 0) false accS), (.popc h0 (fr 10 z 0 0 0), specBitsA (fr 10 z 0 0 0) true accS),
    (.clz h0 (fr 10 z 0 0 0), specBitsA (fr 10 z 0 0 0) true accS), (.ctz h0 (fr 10 z 0 0 0), specBitsA (fr 10 z 0 0 0) true accS),
    (.bfe h0 ri, specACnt ri), (.bfi h0 ri3, specACntC ri3)] = true := by decide +kernel

theorem witness_lop3 : let f := fq 10 z z z 0x96 0
    let os := [bitsSrc 1 (.code f.a) 1, bitsSrc 2 (.code f.b) 1, bitsSrc 3 (.code f.c) 1]
    lanesOk accS h0 [(.lop3 h0 f, { srcs := os, dst := some { code := f.dst, acc := anyDst, regs := 1, tag := accS.commonTag os } })] = true := by
  decide +kernel

theorem witness_bytep : let os := [bitsSrc 1 (.code ri3.a) 1, countSrc 2 (ri3.argB 32), bitsSrc 3 (.code ri3.c) 1]
    lanesOk accS h0 [(.bytep h0 ri3, specRI ri3 os { code := ri3.dst, acc := anyDst, tag := accS.commonTag os })] = true := by decide +kernel

theorem witness_predicates : lanesOk accS h0
    [(.isetp h0 (.r (fr 769 z z 0 0)), specRI (.r (fr 769 z z 0 0)) [intSrc 1 (.code z) 0, intSrc 2 (.code z) 0] (predDst 769)),
     (.isel h0 (fr 10 z z 769 0), specR (fr 10 z z 769 0) [bitsSrc 1 (.code z) 1, bitsSrc 2 (.code z) 1, predSrc 3 769]
       { code := 10, acc := anyDst, regs := 1, tag := accS.commonTag [bitsSrc 1 (.code z) 1, bitsSrc 2 (.code z) 1] }),
     (.plop h0 (fr 769 770 771 0 0), specR (fr 769 770 771 0 0) [predSrc 1 770, predSrc 2 771] (predDst 769)),
     (.ptov h0 (fr 10 769 0 0 0), { specR (fr 10 769 0 0 0) [predSrc 1 769] { code := 10, acc := anyDst, tag := 2 } with bad := false }),
     (.vtop h0 (fr 769 z 0 0 0), specR (fr 769 z 0 0 0) [bitsSrc 1 (.code z) 1] { code := 769, acc := [.p] })] = true := by decide +kernel

/-- VTOP.all acts in every effective thread whatever its operand. -/
theorem witness_vtopAll : let sp := specR (fr z z 0 0 4) [bitsSrc 1 (.code z) 1] { code := z, acc := [.zero] }
    (readyB (.vtop h0 (fr z z 0 0 4)) h0 sp accS && fedB (perThread true (issueCtx accS h0 sp))) = true := by decide +kernel

theorem witness_moves : lanesOk accS h0
    [(.mov h0 (fr 10 12 0 0 0), { specR (fr 10 12 0 0 0) [({ field := 1, arg := .code 12, acc := movAcc 10 1, regs := 1 } : Src)]
        { code := 10, acc := [.v, .k, .q, .g, .zero], regs := 1, tag := accS.commonTag [{ field := 1, arg := .code 12, acc := movAcc 10 1 }] } with
        bad := false, carries := true }),
     (.movi h0 { dst := 10, a := 0, imm := 5, interp := 0, flags := 0 },
        { dst := some { code := 10, acc := [.v, .k], regs := 1, tag := tyTag 0 } }),
     (.lea h0 ri, specRI ri [{ field := 1, arg := .code z, acc := [.v, .k, .zero], regs := 2 }, bitsSrc 2 (ri.argB 64) 1]
        { code := 10, acc := anyDst, regs := 2, tag := 6 }),
     (.rdsr h0 (fr 10 736 0 0 0), { srcs := [{ field := 1, arg := .code 736, acc := [.special], regs := 1 }]
                                    dst := some { code := 10, acc := [.v, .k], regs := 1, tag := 2 } })] = true := by decide +kernel

theorem witness_tag : let f : FormRI := .i { dst := 10, a := 12, imm := 2, interp := 0, flags := 64 }
    lanesOk accS h0 [(.tagOp h0 f, { specRI f [{ field := 1, arg := .code f.a, acc := [.v, .zero], regs := groupRegs 2 },
      { field := 2, arg := f.argB 32, acc := [.k, .zero] }] { code := f.dst, acc := [.v], regs := groupRegs 2, tag := 2 } with
      bad := false, carries := true })] = true := by decide +kernel

theorem witness_rdfl : lanesOk exeS h0 [(.rdfl h0 (fr 10 0 0 0 0), execOnly (specR (fr 10 0 0 0 0) [] { code := 10, acc := anyDst, tag := 2 }))]
    = true := by decide +kernel

/-! ## Witnesses: floating point -/

theorem witness_floatArithmetic : lanesOk exeS h0
    [(.fadd h0 ri, specF2 ri (fmaCls false)), (.fsub h0 ri, specF2 ri (fmaCls false)), (.fmul h0 ri, specF2 ri (fmaCls false)),
     (.ffma h0 ri3, execOnly (specRI ri3 [fltSrc 1 (.code z) false, fltSrc 2 (argFlt ri3 false) false, fltSrc 3 (.code z) false]
       (fltDst 10 false) (fmaCls false))),
     (.fscale h0 ri, execOnly (specRI ri [fltSrc 1 (.code z) false, countSrc 2 (ri.argB 32)] (fltDst 10 false) (fmaCls false)))]
    = true := by decide +kernel

def r1 : FormR := fr 10 z 0 0 0

theorem witness_floatFunctions : lanesOk exeS h0
    [(.fdiv h0 ri, specF2 ri (fdivCls false)), (.fsqrt h0 r1, specF1 r1 (fdivCls false)), (.frcp h0 r1, specF1 r1 (fdivCls false)),
     (.frsq h0 r1, specF1 r1 (fdivCls false)), (.fexp2 h0 r1, specF1 r1 (fexpCls false)), (.flog2 h0 r1, specF1 r1 (fexpCls false)),
     (.fsin h0 r1, specF1 r1 (fexpCls false)), (.fcos h0 r1, specF1 r1 (fexpCls false)), (.ftanh h0 r1, specF1 r1 (fexpCls false))]
    = true := by decide +kernel

theorem witness_floatCompare : lanesOk exeS h0
    [(.frnd h0 r1, specF1 r1 none), (.ffrc h0 r1, specF1 r1 none), (.fabs h0 r1, specF1 r1 none), (.fneg h0 r1, specF1 r1 none),
     (.fgetx h0 r1, execOnly (specR r1 [fltSrc 1 (.code z) false] { code := 10, acc := anyDst, tag := 1 })),
     (.fclass h0 r1, execOnly (specR r1 [fltSrc 1 (.code z) false] { code := 10, acc := anyDst, tag := 2 })),
     (.fmin h0 ri, specF2 ri none), (.fmax h0 ri, specF2 ri none), (.fminn h0 ri, specF2 ri none), (.fmaxn h0 ri, specF2 ri none),
     (.fsetp h0 (.r (fr 769 z z 0 0)), execOnly (specRI (.r (fr 769 z z 0 0)) [fltSrc 1 (.code z) false, fltSrc 2 (.code z) false] (predDst 769))),
     (.fsgn h0 (fr 10 z z 0 0), execOnly (specR (fr 10 z z 0 0) [fltSrc 1 (.code z) false, fltSrc 2 (.code z) false] (fltDst 10 false)))]
    = true := by decide +kernel

theorem witness_packedHalves : lanesOk exeS h0
    [(.hadd2 h0 ri, specH ri false (hfmaCls false)), (.hmul2 h0 ri, specH ri false (hfmaCls false)),
     (.hfma2 h0 ri3, specH ri3 true (hfmaCls false)), (.hmin2 h0 ri, specH ri false none), (.hmax2 h0 ri, specH ri false none)]
    = true := by decide +kernel

/-- CVT from f32 to f16, and the .o6 form that unpacks; CVTI, CVTF, PACK, UNPK, PK6 and UPK6. -/
theorem witness_conversions :
    let sp := fun (st dt : Nat) =>
      let a := elemOf st
      let d := elemOf dt
      let n := max (a.perUnit st) (d.perUnit dt)
      convSpec (fq 10 z 0 0 0 0) (unitRegs st) (n / a.perUnit st) st (unitRegs dt) (n / d.perUnit dt) dt false (a.narrow || d.narrow) true
    let f := fun (st dt : Nat) => fq (if dt = 17 then 12 else 10) z 0 0 (BitVec.ofNat 12 (dt * 128 + st * 4)) 0
    let o := fq 10 z 0 0 (BitVec.ofNat 12 (8 * 128 + 17 * 4)) 2
    (lanesOk exeS h0 [(.cvt h0 (f 3 7), sp 3 7), (.cvti h0 (f 3 1), sp 3 1), (.cvtf h0 (f 1 3), sp 1 3),
      (.cvt h0 o, convSpec o 1 6 17 1 16 8 false true true),
      (.pack h0 (f 1 12), convSpec (f 1 12) 1 (32 / (elemOf 12).width) 1 1 1 12 false (elemOf 12).narrow false),
      (.unpk h0 (f 12 1), convSpec (f 12 1) 1 1 12 1 (32 / (elemOf 12).width) 1 false (elemOf 12).narrow false),
      (.pk6 h0 (f 8 17), convSpec (f 8 17) 1 11 8 4 1 17 false true false),
      (.upk6 h0 (f 17 8), convSpec (f 17 8) 4 1 17 1 11 8 false true false)]) = true := by decide +kernel

theorem witness_dotProducts : let f := fun (fl : BitVec 7) => fr 10 z z z fl
    lanesOk exeS h0 [(.dot2 h0 (f 0), dotSpec (f 0) [halfTag false] false false 13), (.dot4 h0 (f 0), dotSpec (f 0) [9, 10, 11] false false 15),
      (.dot4 h0 (f 32), dotSpec (f 32) [12, 13] false true 16), (.dot4 h0 (f 64), dotSpec (f 64) [20] false false 17),
      (.dot4 h0 { f 96 with c := 300 }, dotSpec { f 96 with c := 300 } [9, 10, 11] true false 15), (.dot8 h0 (f 32), dotSpec (f 32) [15, 16] false true 19),
      (.dot8 h0 (f 0), dotSpec (f 0) [14] false false 18), (.dott h0 (f 0), dotSpec (f 0) [19] false true 20)] = true := by decide +kernel

/-! ## Witnesses: other threads -/

theorem witness_uniformReads : let f := fr 642 12 z 0 0
    let sp : Spec := { srcs := [{ field := 1, arg := .code f.a, acc := [.v], regs := 1 }, { field := 2, arg := .code f.b, acc := uniAcc, uni := true }]
                       dst := some { code := f.dst, acc := [.k], regs := 1 }, smod := f.smod, mtgt := f.mtgt, pod := true }
    let cl : FormRI := .i { dst := 0, a := 0, imm := 3, interp := 0, flags := 64 }
    (readyB (.kget h0 f) h0 sp accS && !(issueCtx accS h0 sp).bad131 0 0 &&
      readyB (.clfl h0 cl) h0 { srcs := [{ field := 1, acc := uniAcc, uni := true, arg := .imm 3 }], pod := true, access := false } exeS) = true := by
  decide +kernel

theorem witness_exchanges : let a := xvSrc 1 12 1 []
    issueOk accS h0
      [(.shfl h0 (.r (fr 10 12 z 0 8)), { gathers [a, { field := 2, arg := .code z, acc := valAcc, tags := [1, 2] }]
          (vDst 10 1 (accS.commonTag [a])) with smod := 0, mtgt := 0 }),
       (.perm h0 (fr 10 12 z 0 0), gathersR (fr 10 12 z 0 0) [a, { field := 2, arg := .code z, acc := valAcc, tags := [1, 2] }]
          (vDst 10 1 (accS.commonTag [a]))),
       (.gbcast h0 (fr 10 12 784 z 0), gathersR (fr 10 12 784 z 0) [a, partSrc 2 784, { field := 3, arg := .code z, acc := uniAcc, uni := true }]
          (vDst 10 1 (accS.commonTag [a])))] = true := by decide +kernel

theorem witness_votes : let v := fr 769 770 0 z 0
    let vs := gathersR v [predSrc 1 770, partSrc 3 z] (predDst 769)
    issueOk accS h0
      [(.votea h0 v, vs), (.voten h0 v, vs),
       (.ballot h0 (fr 10 770 0 0 0), gathersR (fr 10 770 0 0 0) [predSrc 1 770] { code := 10, acc := [.v, .k], tag := 2 }),
       (.matchOp h0 (fr 10 12 0 0 0), gathersR (fr 10 12 0 0 0) [xvSrc 1 12 1 []] (vDst 10 1 2)),
       (.elect h0 (fr 769 z 0 0 0), gathersR (fr 769 z 0 0 0) [partSrc 1 z] (predDst 769))] = true := by decide +kernel

/-- GMASK.seg with segments of four, and GMASK.and. -/
theorem witness_groupMasks : let g (op : BitVec 7) : FormRI := if op = 0 then .i { dst := 785, a := z, imm := 4, interp := 0, flags := 64 } else .r (fr 785 784 786 0 op)
    let sp (op : BitVec 7) : Spec :=
      { srcs := [{ partSrc 1 (g op).a with acc := if op = 0 then [.zero] else [.g, .zero] },
                 if op = 0 then { field := 2, arg := .imm 4, acc := uniAcc, uni := true } else { field := 2, arg := .code 786, acc := [.g, .zero] }]
        dst := some (gDst 785), smod := (g op).smod, mtgt := (g op).mtgt, pod := true }
    let c := issueCtx accS h0 (sp 0)
    (issueOk accS h0 [(.part h0 (fr 785 12 0 0 0), gathersR (fr 785 12 0 0 0) [xvSrc 1 12 1 []] (gDst 785)),
      (.gmask h0 (g 0), sp 0), (.gmask h0 (g 2), sp 2), (.amask h0 (fr 785 0 0 0 0), { dst := some (gDst 785), pod := true })] &&
      decide (c.val 1 0 ∈ [2, 4, 8, 16, 32, 64, 128])) = true := by decide +kernel

theorem witness_reductions : let f := fq 10 (vt 2) 784 0 0x040 0
    issueOk accS h0
      [(.gred h0 f, { gathers [xvSrc 1 f.a f.redRegs [f.redTag], partSrc 2 f.b] { code := f.dst, acc := [.v, .k], regs := f.redRegs, tag := f.redTag } with
          cls := f.redCls, bad := false }),
       (.gscan h0 f, { gathers [xvSrc 1 f.a f.redRegs [f.redTag], partSrc 2 f.b] (vDst f.dst f.redRegs f.redTag) with cls := f.redCls }),
       (.gsort h0 (fq 10 (vt 1) z 784 0 0), gathers [xvSrc 1 (vt 1) 1 [1], xvSrc 2 z 1 [], partSrc 3 784] (vDst 10 2 1))] = true := by decide +kernel

/-! ## Witnesses: control and system instructions -/

/-- One load that is outstanding. -/
def onePend : Pend :=
  { kind := .load, serial := 0, dest := .vregs 0 10 1, tag := 2, value := 0, reqs := [(1, 0, [])], size := 4, seta := 15, setb := 15, thread := 0
    addr := 0, uncorr := false, fl := 0 }

/-- The access pod with another issuing pod record. -/
def podS (f : Pod → Pod) : State := { accS with pod := f accS.pod }

/-- Every thread at one address and depth. -/
def at_ (pc : Dword) (d : Nat) : Pod → Pod := fun p => { p with user := (List.range 16).map fun _ => ⟨pc, d⟩ }

def b0 (link a : Code) (off : Word) (flags : BitVec 9) : FormB := { link := link, a := a, boff := off, flags := flags }

theorem witness_branches :
    let sp : Spec := { srcs := [tgtSrc 642] }
    let sk : Spec := { srcs := [tgtSrc 642] }
    let s4 := podS fun p => { p with k := [(2, 4)] }
    (issueOk accS h0 [(.nop h0 (fr 0 0 0 0 0), {}), (.bra h0 (b0 0 0 3 0), {}), (.brx h0 (b0 0 642 0 0), sp)] &&
      ((issueCtx accS h0 sp).eff.all fun t => decide ((BitVec.ofNat 64 ((issueCtx accS h0 sp).val 0 t)).toNat % 12 = 0)) &&
      readyB (.brx h0 (b0 0 642 0 0)) h0 sk s4 &&
      ((issueCtx s4 h0 sk).eff.any fun t => decide ((BitVec.ofNat 64 ((issueCtx s4 h0 sk).val 0 t)).toNat % 12 ≠ 0))) = true := by
  decide +kernel

/-- CALL, CALLX, and RET at depth 1; CALL at depth 255, RET at depth 0, and targets that are no multiple of 12. -/
theorem witness_calls :
    let call (s : State) : Spec := s.callSpec h0 (b0 10 0 3 0)
    let callx (s : State) : Spec := { s.callSpec h0 (b0 10 642 0 0) with srcs := [tgtSrc 642] }
    let ret (s : State) : Spec := { srcs := [tgtSrc 642], late := if s.pod.depth = 0 then some (.illegalOp, 0, 0) else none }
    let clear := fun (s : State) (x : Spec) => (issueCtx s h0 x).txThreads.isEmpty && !(issueCtx s h0 x).s.accHolds s.pod.id 10 2
    let off := fun (s : State) (x : Spec) => (issueCtx s h0 x).eff.map fun t => (BitVec.ofNat 64 ((issueCtx s h0 x).val 0 t)).toNat % 12
    let deep := podS (at_ 0 255)
    let one := podS (at_ 0 1)
    let bent := podS fun p => { (at_ 0 1 p) with k := [(2, 4)] }
    (readyB (.call h0 (b0 10 0 3 0)) h0 (call accS) accS && clear accS (call accS) && accS.pod.depth != 255 &&
      readyB (.callx h0 (b0 10 642 0 0)) h0 (callx accS) accS && clear accS (callx accS) && (off accS (callx accS)).all (· == 0) &&
      readyB (.ret h0 (b0 0 642 0 0)) h0 (ret one) one && clear one (ret one) && (off one (ret one)).all (· == 0) &&
      checkedB (.call h0 (b0 10 0 3 0)) h0 (call deep) deep && checkedB (.callx h0 (b0 10 642 0 0)) h0 (callx deep) deep &&
      deep.pod.depth == 255 && checkedB (.ret h0 (b0 0 642 0 0)) h0 (ret accS) accS && accS.pod.depth == 0 &&
      readyB (.callx h0 (b0 10 642 0 0)) h0 (callx bent) bent && (off bent (callx bent)).all (· == 4) &&
      readyB (.ret h0 (b0 0 642 0 0)) h0 (ret bent) bent && (off bent (ret bent)).all (· == 4)) = true := by decide +kernel

/-- LOOP with a count of 3, with a count of 0, with four loops open and at the end of the innermost one; LEAVE with and without a loop. -/
theorem witness_loops :
    let imm (s : State) : Spec := { pod := true, late := s.pod.loopLate, srcs := [] }
    let reg (s : State) : Spec := { pod := true, late := s.pod.loopLate, srcs := [{ field := 5, arg := .code z, acc := uniAcc, uni := true }] }
    let mine := fun s : State => s.pod.loopStack.find? fun x => decide (x.depth = s.pod.depth)
    let leave (s : State) : Spec := { late := if (mine s).isNone then some (.illegalOp, 0, 0) else none }
    let e : LoopEntry := ⟨12, 24, 2, 0⟩
    let four := podS fun p => { p with loops := [e, e, e, e] }
    let ends := podS fun p => { p with loops := [{ e with last := p.pc }] }
    let inLoop := podS fun p => { p with loops := [e] }
    (readyB (.loop h0 (b0 0 3 3 1)) h0 (imm accS) accS && (issueCtx accS h0 (imm accS)).txThreads.isEmpty &&
      readyB (.loop h0 (b0 z 0 3 0)) h0 (reg accS) accS && (issueCtx accS h0 (reg accS)).val 0 0 == 0 &&
      checkedB (.loop h0 (b0 0 3 3 1)) h0 (imm four) four && four.pod.loopLate.isSome &&
      checkedB (.loop h0 (b0 0 3 3 1)) h0 (imm ends) ends && ends.pod.loopLate.isSome &&
      readyB (.leave h0 (b0 0 0 0 0)) h0 (leave inLoop) inLoop && mine inLoop == some e &&
      checkedB (.leave h0 (b0 0 0 0 0)) h0 (leave accS) accS && accS.pod.loopStack.isEmpty) = true := by decide +kernel

/-- A pass of the back-edge under an entry that does not match, and its last one with and without a new top that matches. -/
theorem witness_backEdges : let e : LoopEntry := ⟨12, 24, 2, 0⟩
    backEdge 24 0 ([⟨12, 36, 5, 0⟩] ++ e :: []) = ([⟨12, 36, 5, 0⟩, ⟨12, 24, 1, 0⟩], some 12) ∧ backEdge 24 0 [{ e with count := 1 }] = ([], none) ∧
      backEdge 24 0 [{ e with count := 1 }, { e with start := 0 }] = ([⟨0, 24, 1, 0⟩], some 0) := by decide +kernel

/-- p1 is true in thread 0 alone. -/
def guarded : State := podS fun p => { p with p := [(1, 1)] }

/-- EXIT of one thread, and of the last ones. -/
theorem witness_exit :
    let c := issueCtx guarded { h0 with pred := 1 } {}
    let d := issueCtx accS h0 {}
    (readyB (.exitT { h0 with pred := 1 } (fr 0 0 0 0 0)) { h0 with pred := 1 } {} guarded &&
      full c.s.pod.width &&& ~~~(c.s.pod.exited ||| c.mask) != 0 && readyB (.exitT h0 (fr 0 0 0 0 0)) h0 {} accS &&
      full d.s.pod.width &&& ~~~(d.s.pod.exited ||| d.mask) == 0 && d.s.pod.deferred.isEmpty && !d.s.copying && d.s.pod.pend.isEmpty &&
      d.s.ownHandles.isEmpty) = true := by decide +kernel

/-- PHASE and SYNC with every thread; a SYNC that another pod of the team has not reached, and one with a load outstanding; both at trap
level. -/
theorem witness_barriers :
    let ready := fun p : Pod => p.depth == 0 && p.loops.isEmpty && !p.tx.any fun x => x.inTx
    let phase (s : State) : Spec := { pod := true, late := s.pod.lateUnless (ready s.pod) }
    let sync (s : State) : Spec := { pod := true, late := s.pod.lateUnless true }
    let c := issueCtx accS h0 (phase accS)
    let other := { accS with pods := [{ accS.pod with id := ⟨⟨1, 0, 0⟩, .access, 1⟩ }] }
    let passed := { accS with team := { accS.team with syncN := 1 } }
    let late := podS fun p => { p with pend := [{ onePend with serial := p.serial }] }
    let trap := podS fun p => { p with trapLevel := true, handlers := 1, trap := p.user }
    let awayB := fun s : State => !s.pod.loading && !s.redsAway s.pod.id.team
    (readyB (.phase h0 (fr 0 0 0 0 0)) h0 (phase accS) accS && c.s.pod.deferred.isEmpty && !c.s.copying &&
      c.s.pod.pend.isEmpty && c.s.ownHandles.isEmpty && !c.s.pod.stepping &&
      readyB (.sync h0 (fr 0 0 0 0 0)) h0 (sync accS) accS && awayB accS && accS.pod.syncDone == accS.team.syncN &&
      ((c.s.podsOf c.s.pod.id.team).all fun q => q.id == c.s.pod.id) &&
      readyB (.sync h0 (fr 0 0 0 0 0)) h0 (sync passed) passed && awayB passed && decide (passed.pod.syncDone < passed.team.syncN) &&
      readyB (.sync h0 (fr 0 0 0 0 0)) h0 (sync other) other && awayB other && !other.pod.arrived &&
      ((other.podsOf other.pod.id.team).any fun q => q.id != other.pod.id && !q.done && !q.arrived) &&
      readyB (.sync h0 (fr 0 0 0 0 0)) h0 (sync late) late && late.pod.loading && !late.pod.arrived &&
      checkedB (.sync h0 (fr 0 0 0 0 0)) h0 (sync trap) trap && checkedB (.phase h0 (fr 0 0 0 0 0)) h0 (phase trap) trap &&
      trap.pod.trapLevel) = true := by decide +kernel

/-- YIELD; SLEEP of 0 and of 2000, and at its end; HOLDT at a time that has passed and at one that has not; WAITF with nothing to wait
for, and at the end of its time with .trap. -/
theorem witness_waiting :
    let sp : Spec := { pod := true }
    let i := fun (n : Word) => ({ dst := 0, a := 0, imm := n, interp := 0, flags := 0 } : FormI)
    let hs : Spec := { pod := true, srcs := [{ field := 1, arg := .code 644, acc := [.k], regs := 2 }] }
    let slept := podS fun p => { p with wait := some ⟨.sleep, 0, some 0, 0⟩ }
    let early := podS fun p => { p with k := [(4, 100)] }
    let w : FormRI := .i { dst := 643, a := z, imm := 4, interp := 0, flags := 64 + 2 }
    let ws : Spec := { pod := true, dst := some (kDst 643), srcs := [uniSrc 1 (.code z), uniSrc 2 (.imm 4)] }
    let ended := podS fun p => { p with wait := some ⟨.waitf, 0, some 0, 0⟩, flags := [(2, 1)] }
    (issueOk accS h0 [(.yield h0 (fr 0 0 0 0 0), sp), (.sleep h0 (i 0), sp), (.sleep h0 (i 2000), sp), (.waitf h0 w, ws)] &&
      accS.pod.wait.isNone && accS.pod.flagMask == 0 && readyB (.sleep h0 (i 2000)) h0 sp slept && slept.pod.ended .sleep &&
      readyB (.holdt h0 { (i 500) with a := 644 }) h0 hs accS &&
      readyB (.holdt h0 { (i 0) with a := 644 }) h0 hs early && (issueCtx early h0 hs).val 0 0 == 100 && early.time == 0 &&
      readyB (.waitf h0 w) h0 ws ended && ended.pod.ended .waitf && ended.pod.flagMask == 4) = true := by decide +kernel

theorem witness_trapInstructions : issueOk accS h0 [(.trap h0 { dst := 0, a := 0, imm := 7, interp := 0, flags := 0 }, {}),
    (.brk h0 { dst := 0, a := 0, imm := 0, interp := 0, flags := 0 }, {})] = true := by decide +kernel

/-- A pod at trap level, its threads in a handler at 0 and stopped at user address 24. -/
def trapped : State := podS fun p => { (at_ 24 0 p) with trapLevel := true, handlers := full 16, trap := (List.range 16).map fun _ => ⟨0, 0⟩, tpc := 24 }

/-- RTT with no cause left and with one, outside trap level, and to an address that is no multiple of 12. -/
theorem witness_returnFromTrap :
    let sp (s : State) : Spec := { pod := true
                                   late := if !s.pod.trapLevel then some (.illegalOp, 0, 0)
                                     else if s.pod.tpc.toNat % 12 ≠ 0 then some (.pcMisalign, 0, 0) else none }
    let left := { trapped with pod := { trapped.pod with cause := 4 } }
    let user := { left.pod with trapLevel := false, handlers := 0, trap := [], trapLoops := [], bank := [], inside := false }
    let again := ({ (issueCtx left h0 (sp left)).s with pod := user } : State).enterTrap
      (user.reenter (((List.range 64).filter fun i => left.pod.cause.getLsbD i).map causeOfBit) left.tick)
    let bent := { trapped with pod := { trapped.pod with tpc := 4 } }
    (readyB (.rtt h0 (fr 0 0 0 0 1)) h0 (sp trapped) trapped && trapped.pod.cause == 0 &&
      readyB (.rtt h0 (fr 0 0 0 0 1)) h0 (sp left) left && !again.pod.stepping && !again.pod.halted &&
      checkedB (.rtt h0 (fr 0 0 0 0 0)) h0 (sp accS) accS && !accS.pod.trapLevel &&
      checkedB (.rtt h0 (fr 0 0 0 0 0)) h0 (sp bent) bent) = true := by decide +kernel

/-- CLRC; SETC at trap level, and of a cause at user level. -/
theorem witness_causeRegister :
    let f : FormRI := .i { dst := 0, a := 0, imm := 0x10, interp := 0, flags := 64 }
    let g : FormRI := .i { dst := 0, a := 0, imm := 0x10000, interp := 3, flags := 64 }
    let sp : Spec := { pod := true, srcs := [maskSrc f] }
    let setSp := fun (s : State) (f : FormRI) => ({ pod := true, srcs := [maskSrc f], bad := s.maskVal f &&& 0x0000_FFFF_8000_0000 != 0
                                                    priv := !s.pod.trapLevel && s.maskVal f &&& 0x7FFF_FFFF != 0 } : Spec)
    (readyB (.clrc h0 f) h0 sp accS && readyB (.setc h0 f) h0 (setSp trapped f) trapped && readyB (.setc h0 g) h0 (setSp accS g) accS &&
      BitVec.ofNat 64 ((issueCtx accS h0 (setSp accS g)).val 0 0) &&& ~~~accS.pod.cause != 0) = true := by decide +kernel

/-- WRSR of %tix and %tpc at trap level, of %seed and %prio; TIME; PRIO. -/
theorem witness_specialRegisters :
    let f := fun (r : Code) => (.i { dst := 736 + r, a := 0, imm := 12, interp := 0, flags := 64 } : FormRI)
    let sp := fun (s : State) (r : Code) => ({ srcs := [wrsrSrc (f r)], smod := 0, mtgt := 0, bad := false, priv := !s.pod.trapLevel && (r == 22 || r == 23) } : Spec)
    let t : Spec := { dst := some { code := 10, acc := [.v, .k], regs := 2, tag := 6 } }
    let p : FormRI := .i { dst := 644, a := 0, imm := 1, interp := 0, flags := 64 }
    (issueOk trapped h0 [(.wrsr h0 (f 22), sp trapped 22), (.wrsr h0 (f 23), sp trapped 23)] &&
      issueOk accS h0 [(.wrsr h0 (f 26), sp accS 26), (.wrsr h0 (f 27), sp accS 27), (.time h0 (fr 10 0 0 0 0), t),
        (.prio h0 p, { pod := true, dst := some (kDst 644), srcs := [uniSrc 2 (.imm 1)] })] && fedB (issueCtx accS h0 t) &&
      [22, 23, 26, 27].all fun r => (classOf (736 + BitVec.ofNat 10 r)).2 == r) = true := by decide +kernel

/-! ## Witnesses: traps -/

/-- An instruction whose odd pair fails the whole-pod checks, one with a late check, one with an uncorrectable source, and one with no
effective thread. -/
theorem witness_failedChecks : let f : FormRI := .r (fr 11 z z 0 16)
    let n := { h0 with neg := true }
    let bad := podS fun p => { p with bad := [12] }
    let mv := specR (fr 10 12 0 0 0) [{ field := 1, arg := .code 12, acc := anyDst }] { code := 10, acc := anyDst }
    (!accS.pod.waitsOn h0 && (accS.pod.dueFaults h0.wait).isEmpty &&
      accS.podCheck (.iadd h0 f) h0 (specAB f none) == some (.illegalOperand, 0) &&
      checkedB (.leave h0 (b0 0 0 0 0)) h0 { late := some (.illegalOp, 0, 0) } accS &&
      checkedB (.mov h0 (fr 10 12 0 0 0)) h0 mv bad && mv.late.isNone && bad.readsBad h0 mv &&
      checkedB (.nop n (fr 0 0 0 0 0)) n {} accS && !accS.readsBad n {} && !accS.accTouched {} && (issueCtx accS n {}).eff.isEmpty &&
      !accS.pod.stepping && !accS.pod.halted) = true := by decide +kernel

/-- A kernel with a handler for TRAP_INSTR, and one without. -/
theorem witness_trapEntry :
    let r := accS.pod.before .trapInstr 0 0 0
    let s := { accS with team := { accS.team with kernel := { accS.team.kernel with vectors := List.replicate 65 0x120 } } }
    (r.causes == [.trapInstr] && !s.pod.trapLevel && s.pod.pend.isEmpty && s.ops.isEmpty && s.team.kernel.claims s.pod.id.slice .trapInstr &&
      (s.team.kernel.vector .trapInstr).toNat % 12 == 0 && !s.pod.halted && !accS.team.kernel.claims accS.pod.id.slice .trapInstr &&
      Cause.cls .access .trapInstr != .h && accS.team.id == accS.pod.id.team) = true := by decide +kernel
/-! ## Witnesses: memory -/

/-- An empty ring of 32 slots. -/
def ring (tag : BitVec 5) : Ring :=
  { ldepth := 5, tag := tag, prd := 0, pub := 0, con := 0, void := 0, par := false, flt := false, drn := false, att := false, map := 0
    slots := [], bad := [] }

/-- The access pod of a team with shared memory, a stash, two rings, and the address 0x100000 in k2:k3. -/
def memS : State :=
  { accS with
    pod := { accS.pod with k := [(2, 0x100000)], q := [(0, 0), (1, 1)] }
    team := { accS.team with kernel := { accS.team.kernel with shared := 4096, stash := 1024, rings := [(3, 5), (1, 5)] }
                             rings := [ring 3, ring 1] } }

/-- A form M of 32 bits: v10 or v20 as data, k2:k3 or nothing as base. -/
def fm (data base : Code) (off : BitVec 14) : FormM :=
  { data := data, base := base, index := 1023, offset := off, scope := 0, order := 0, atom := 0, size := 2, hint := 0, nf := false
    typed := false, rsv := 0 }

/-- An attempt that succeeds in a state where a test holds. -/
def okB (x : Try) (p : State → Bool) : Bool := match x with
  | .ok s => p s
  | _ => false

/-- The threads of an instruction act in turn and complete. -/
def turnsB (i : Instr) (h : Head) (sp : Spec) (s : State) (threads : List Nat) (start : State) (act : Nat → State → Act) : Bool :=
  readyB i h sp s && match inTurn act threads 0 start with
    | some (_, u) => !u.pod.stepping && !u.pod.halted
    | none => false

/-- What `AtRest` asks. -/
def restB (c : Ctx) : Bool := c.txThreads.isEmpty && !c.s.pod.lingers && c.s.pod.pend.all (·.kind != .check)

/-- What `Calm` asks beside `Fresh`. -/
def calmB (c : Ctx) : Bool :=
  c.s.serial.isNone && (c.s.allTeams.all fun t => t.id != c.s.pod.id.team || (t.irrev && t.stash.all fun l => (areaOf l.pa).isMem)) &&
    !c.s.hasRemote c.s.pod.id.team && !c.s.pod.asking

/-- What `PlacedHere` asks. -/
def placedB (c : Ctx) (chk : List (Nat × Dword × Checked)) : Bool := c.lanes.all fun t => match (checkedOf chk t).2 with
  | .ok (.shared _) => true
  | .ok (.mem pas) => pas.all fun pa => (areaOf pa).isMem
  | _ => false

theorem witness_loads :
    let f := fm 10 642 0
    let g := fm 10 1023 4
    let c := issueCtx memS h0 (loadSpec h0 f)
    let d := issueCtx memS h0 (loadSpec h0 g)
    let r := { f.req .rd with mmio := true }
    let q := { g.req .rd with shared := true }
    let k := { f.req .rd with window := false }
    (turnsB (.ld h0 f) h0 (loadSpec h0 f) memS c.lanes (loadStart f r c) (c.loadTurn f false (loadChecks f r c).1) && restB c && restB d &&
      calmB c && placedB c (loadChecks f r c).1 && placedB c (loadChecks f k c).1 && f.tag == 0 &&
      turnsB (.lds h0 g) h0 (loadSpec h0 g) memS d.lanes (loadStart g q d) (d.loadTurn g false (loadChecks g q d).1) &&
      turnsB (.ldc h0 f) h0 (loadSpec h0 f) memS c.lanes (loadChecks f k c).2 (c.loadTurn f true (loadChecks f k c).1)) = true := by
  decide +kernel

/-- LDS at offset 16, and LD on the window. -/
theorem witness_sharedLoads :
    let g := fm 10 1023 4
    let w := fm 10 644 0
    let s := { memS with pod := { memS.pod with k := [(2, 0x100000), (4, 0xFFE00000), (5, 0xFFFFFFFF)] } }
    let c := issueCtx s h0 (loadSpec h0 g)
    let d := issueCtx s h0 (loadSpec h0 w)
    (readyB (.lds h0 g) h0 (loadSpec h0 g) s && readyB (.ld h0 w) h0 (loadSpec h0 w) s && restB c && restB d &&
      (c.lanes.all fun t => (c.ea g 0 t).toNat == 16) && (d.lanes.all fun t => onWindow (d.ea w 0 t) && !d.s.pod.inTx t) &&
      c.s.team.sharedOk 16 4 && !c.s.team.watched .rd (windowBase + 16) 4 && d.s.team.sharedOk 0 4 &&
      !packedBad g.tag { value := ofBytes (c.s.team.rdShared 16 4) }) = true := by decide +kernel

/-- A turn of a load in shared memory, at home, past a failed check, and in a transaction; and of a load of sextets with a spare bit set. -/
theorem witness_loadTurns :
    let tx : TxThread := { thread := 0, inTx := true, serial := false, due := false, count := 0, clashes := 0, status := 0, resume := 0, dst := 9
                           reads := [], writes := [], trap := false }
    let s := memS.setPod { memS.pod with tx := [tx] }
    let f := fm 10 642 0
    let g := { f with typed := true, offset := 17 * 512, size := 4 }
    let w := (memS.setTeam (memS.team.putShared 0 31 [0xFF])).wrByte 271 0xFF
    checkedOf [(0, 4, .ok (.shared 4))] 0 = (4, .ok (.shared 4)) ∧ checkedOf [(0, 4, .ok (.mem (run 256 4)))] 0 = (4, .ok (.mem (run 256 4))) ∧
    checkedOf [(0, 4, .error (.protection, 1, 4))] 0 = (4, .error (.protection, 1, 4)) ∧
    (!memS.pod.inTx 0 && memS.ccache.isEmpty && memS.pod.pend.isEmpty && !packedBad f.tag { value := ofBytes (memS.rdAll (run 256 4)) } &&
      (run 256 4).all (fun pa => (areaOf pa).isMem && !(areaOf pa).isPeer && memS.allTeams.all (fun t => (t.lineAt pa).isNone)) &&
      memS.rcbuf.isEmpty && s.pod.txOf 0 == some tx && (s.txRefuses 0 false (.ok (.mem (run 256 4)))).isNone && !g.tagBad &&
      packedBad g.tag { value := ofBytes (w.team.rdShared 16 16) } && !w.team.sharedBad 16 16 &&
      packedBad g.tag { value := ofBytes (w.rdAll (run 256 16)) } && !w.poisoned (run 256 16) && w.rcbuf.isEmpty &&
      packedBad g.tag { value := ofBytes ((run 256 16).map (tx.byte w)) }) = true :=
  ⟨rfl, rfl, rfl, by decide +kernel⟩

/-- The same machine where p1 is true in thread 0 alone, and the guard p1. -/
def oneS : State := memS.setPod { memS.pod with p := [(1, 1)] }
def h1 : Head := { h0 with pred := 1 }

theorem witness_stores :
    let f := fm 10 642 0
    let g := fm 10 1023 4
    let c := issueCtx oneS h1 (storeSpec h1 f)
    let d := issueCtx oneS h1 (storeSpec h1 g)
    let r := { f.req .wr with mmio := true }
    let q := { g.req .wr with shared := true }
    (turnsB (.st h1 f) h1 (storeSpec h1 f) oneS c.lanes (c.check r (c.ea f 1)).2.noteStore (storeTurn f (c.val 0) 15 (c.check r (c.ea f 1)).1) &&
      turnsB (.sts h1 g) h1 (storeSpec h1 g) oneS d.lanes (d.check q (d.ea g 1)).2.noteStore (storeTurn g (d.val 0) 15 (d.check q (d.ea g 1)).1) &&
      restB c && calmB c && placedB c (c.check r (c.ea f 1)).1 && restB d && (d.lanes.all fun t => (d.ea g 1 t).toNat == 16) && d.s.team.sharedOk 16 4 &&
      !d.s.team.watched .wr (windowBase + 16) 4) = true := by decide +kernel

/-- Plain stores into the stash and past it to their home, and a release. -/
theorem witness_storeTurns :
    let tid := memS.pod.id.team
    let bs : List Byte := [1, 2, 3, 4]
    checkedOf [(0, 4, .ok (.mem (run 256 4)))] 0 = (4, .ok (.mem (run 256 4))) ∧
    (!memS.pod.inTx 0 && okB (memS.stashStore tid 256 (run 256 4) bs) (fun _ => true) &&
      okB (memS.homeStore tid 256 (run 256 4) bs) (fun _ => true) && okB (memS.irrevocable tid) (· == memS) &&
      okB (memS.release tid 3) fun u => okB (u.homeStore tid 256 (run 256 4) bs) fun _ => true) = true := ⟨rfl, by decide +kernel⟩

/-- A store into a free stash line. -/
theorem witness_stashStore :
    let t := memS.team
    (memS.findTeam t.id == some t && ((run 256 4).all fun a => lineOf a == 256) && decide (run 256 4).Nodup && !memS.hasRemote t.id &&
      t.stash.isEmpty && (t.lineAt 256).isNone && memS.rcbuf.isEmpty && 0 < t.kernel.stash && !(t.freeLines (t.lineHalf 256)).isEmpty &&
      okB (memS.stashLine t.id 256 (run 256 4) [1, 2, 3, 4]) fun _ => true) = true := by decide +kernel

/-- A dirty line that goes home. -/
theorem witness_linesGoHome :
    let l : Line := { roff := 0, half := 0, va := 256, pa := 256, explicit := false, filled := true, dirty := 1, bytes := 7, written := 0 }
    (!(areaOf l.pa).isPeer && l.pa % 128 == 0 && l.dirty != 0 &&
      ((memS.setTeam { memS.team with stash := [l] }).lineHome memS.team.id 0 l).isSome) = true := by decide +kernel

theorem witness_fences :
    let p := { fm 1023 644 0 with hint := 1 }
    let w := { memS with pod := { memS.pod with k := [(4, 0xFFE00000), (5, 0xFFFFFFFF)] } }
    let ps := accessOnly { srcs := p.eaSrcs }
    let c := issueCtx w h0 ps
    let fe := { fm 1023 1023 0 with order := 2, scope := 3 }
    let busy := memS.setPod { memS.pod with pend := [{ kind := .load, serial := 0, dest := .none, tag := 0, value := 0, reqs := [], size := 4
                                                       seta := 15, setb := 15, thread := 0, addr := 0, uncorr := false, fl := 0 }] }
    let cc := { fm 1023 1023 0 with hint := 3 }
    let cd := { fm 1023 642 0 with hint := 2 }
    let sent := { memS with rcbuf := [{ core := memS.core, team := memS.pod.id.team, line := 0, mask := 1, bytes := 0 }] }
    (readyB (.prf h0 p) h0 ps w && readyB (.ofence h0 (fr 0 0 0 0 0)) h0 { pod := true } sent && (c.lanes.all fun t => onWindow (c.ea p 0 t)) && readyB (.fence h0 fe) h0 { pod := true } memS &&
      !memS.pod.loading && !memS.redsAway memS.pod.id.team && busy.pod.loading && readyB (.fence h0 fe) h0 { pod := true } busy && memS.rcbuf.isEmpty &&
      readyB (.ofence h0 (fr 0 0 0 0 0)) h0 { pod := true } memS &&
      readyB (.cctl h0 cc) h0 { srcs := cc.eaSrcs, exec := true, pod := true } memS &&
      readyB (.cctl h0 cd) h0 { srcs := cd.eaSrcs, exec := false, pod := false } memS &&
      okB (memS.release memS.pod.id.team 3) fun u => !u.pod.stepping) = true := by decide +kernel

theorem witness_stashControl :
    let mapReq : AccReq := { size := 1, access := .rd, window := false, watch := false }
    let icReq : AccReq := { size := 1, access := .fetch, window := false, watch := false }
    -- thread 0 maps its line, and later drops it
    let m := fm z 642 0
    let ms := accessOnly { srcs := m.offSrc [.v, .k, .zero] :: m.eaSrcs, bad := m.kDataBad h1 }
    let c := issueCtx oneS h1 ms
    let l : Line := { roff := 0, half := 0, va := 0x100000, pa := 0x100000, explicit := true, filled := true, dirty := 0, bytes := 7, written := 0 }
    let held := oneS.setTeam { oneS.team with stash := [l] }
    let ds := accessOnly { srcs := [m.offSrc [.v, .k, .zero]], bad := m.kDataBad h1 }
    let d := issueCtx held h1 ds
    let i := fm z 642 0
    let e := issueCtx memS h0 { srcs := i.eaSrcs }
    let sp : Spec := { srcs := [(fm z z 0).offSrc [.k, .zero]], pod := true }
    (turnsB (.smap h1 m) h1 ms oneS c.lanes (c.check mapReq (c.ea m 1)).2 (c.smapAct (c.check mapReq (c.ea m 1)).1) && restB c &&
      calmB c && placedB c (c.check mapReq (c.ea m 1)).1 && (c.lanes.all fun t => (c.s.team.offsetBad (c.val 0 t)).isNone) &&
      turnsB (.sdrop h1 m) h1 ds held d.lanes d.s (d.sdropAct m) && restB d && (d.lanes.all fun t => (d.s.team.offsetBad (d.val 0 t)).isNone) &&
      placedB e (e.check icReq (e.ea i 0)).1 && !e.s.pod.lingers &&
      turnsB (.icinv h0 i) h0 { srcs := i.eaSrcs } memS e.lanes (e.check icReq (e.ea i 0)).2 (icinvAct i (e.check icReq (e.ea i 0)).1) &&
      readyB (.spub h0 { fm z z 0 with order := 2, scope := 3 }) h0 sp memS && (issueCtx memS h0 sp).val 0 0 == 0 && memS.team.stash.isEmpty &&
      okB (memS.publish memS.pod.id.team fun _ => true) (fun u => !u.pod.stepping && !u.pod.halted && !u.hasRemote memS.pod.id.team) &&
      !memS.hasRemote memS.pod.id.team) = true := by decide +kernel

/-- LOOPC and LCBR at a block whose sequence word is 0, LOOPC where another is awaited, at a block in shared memory, and at one that is not
aligned. -/
theorem witness_loopCounts :
    let sp (link : Code) (s : State) : Spec := { pod := true, late := s.pod.loopLate, srcs := [blockSrc link, uniSrc 1 (.code z)] }
    let lp : Spec := { pod := true, srcs := [blockSrc 642, uniSrc 1 (.code z)] }
    let c := issueCtx memS h0 (sp 642 memS)
    let w := { memS with pod := { memS.pod with k := [(4, 0xFFE00000), (5, 0xFFFFFFFF), (6, 0x100004)] } }
    let d := issueCtx w h0 (sp 644 w)
    let e := issueCtx w h0 (sp 646 w)
    let block := fun (c : Ctx) => BitVec.ofNat 64 (c.val 0 0)
    let got (p : Nat → Bool) (x : Polled) : Bool := match x with
      | .got v u => p v && !u.pod.stepping && !u.pod.halted
      | _ => false
    let x := memS.wrByte 0x100000 1
    let y := issueCtx x h0 (sp 642 x)
    (readyB (.loopc h0 (b0 642 z 3 0)) h0 (sp 642 memS) memS && readyB (.lcbr h0 (b0 642 z 3 0)) h0 lp memS && c.txThreads.isEmpty &&
      (block c).toNat % 64 == 0 && memS.pod.wait.isNone && c.val 1 0 == 0 && got (fun v => v % 2 ^ 32 == 0) (c.pollBytes (block c) 16) &&
      readyB (.loopc h0 (b0 642 z 3 0)) h0 (sp 642 x) x && got (fun v => v % 2 ^ 32 == 1) (y.pollBytes (block y) 16) &&
      readyB (.loopc h0 (b0 644 z 3 0)) h0 (sp 644 w) w && w.pod.pend.isEmpty && onWindow (block d) && w.team.sharedOk 0 16 &&
      !w.team.watched .rd windowBase 16 && !w.team.sharedBad 0 16 && ofBytes (w.team.rdShared 0 16) == 0 &&
      readyB (.loopc h0 (b0 646 z 3 0)) h0 (sp 646 w) w && e.txThreads.isEmpty && (block e).toNat % 64 != 0) = true := by decide +kernel

/-- An address that the tables map, with no entry cached, and one that they do not map. -/
theorem witness_translation : ((match memS.translateX memS.team 0 0x100000 .rd false with
    | (.ok pa, _) => pa == 0x100000
    | _ => false) && memS.wcache.isEmpty && memS.tlb.isEmpty && memS.ctlb.isEmpty &&
    (match memS.walk 0x100000 3 memS.team.ptroot with
      | .ok l => l.level != 0 || !bit l.pte 53
      | _ => false) &&
    match (State.reset).walk 0x100000 3 0 with
      | .error _ => true
      | _ => false) = true := by decide +kernel

theorem witness_fetching : (match memS.fetch with
    | (.word _, _) => true
    | _ => false) = true := by decide +kernel

/-! ## Witnesses: atomics, transactions and write with enqueue -/

/-- ATOM.add.n32 at cluster scope or below on the address in k2:k3, and the same in shared memory. -/
theorem witness_atomics :
    let f := fq 10 642 12 0 0x030 0
    let a := fq 10 644 12 0 0x030 0
    let sp := fun (f : FormQ) (shared : Bool) => accessOnly { srcs := [FormQ.placeSrc f shared, f.atomSrc 2 f.b] ++ f.casSrc, dst := some f.atomDst }
    let rp := fun (f : FormQ) (shared : Bool) => accessOnly { srcs := [FormQ.placeSrc f shared, f.atomSrc 2 f.b] }
    let s := memS.setPod { memS.pod with tags := store 0 memS.pod.tags 12 2 }
    let chk := fun (f : FormQ) (shared : Bool) (c : Ctx) => c.check { f.atomReq with shared := shared } (c.addr 0)
    let c := issueCtx s h0 (sp f false)
    let d := issueCtx s h0 (sp a true)
    let e := issueCtx s h0 (rp f false)
    let g := issueCtx s h0 (rp a true)
    (turnsB (.atom h0 f) h0 (sp f false) s c.lanes (chk f false c).2.noteStore (c.atomAct f false (chk f false c).1) && restB c &&
      turnsB (.atoms h0 a) h0 (sp a true) s d.lanes (chk a true d).2.noteStore (d.atomAct a false (chk a true d).1) && restB d &&
      turnsB (.red h0 f) h0 (rp f false) s e.lanes (chk f false e).2.noteStore (e.redAct f (chk f false e).1) && restB e &&
      turnsB (.reds h0 a) h0 (rp a true) s g.lanes (chk a true g).2.noteStore (g.redAct a (chk a true g).1) && restB g &&
      calmB c && placedB c (chk f false c).1 && placedB d (chk a true d).1 && placedB e (chk f false e).1 && placedB g (chk a true g).1) = true := by
  decide +kernel

/-- ATOMS.g on a line that is explicit in the stash. -/
theorem witness_globalAtomics :
    let l : Line := { roff := 0, half := 0, va := 0x100000, pa := 0x100000, explicit := true, filled := true, dirty := 0, bytes := 7, written := 0 }
    let s := memS.setPod { memS.pod with tags := store 0 memS.pod.tags 12 2 }
    let s := s.setTeam { s.team with stash := [l] }
    let f := fq 10 642 12 0 0x030 256
    let sp := accessOnly { srcs := [FormQ.placeSrc f false, f.atomSrc 2 f.b] ++ f.casSrc, dst := some f.atomDst }
    let c := issueCtx s h0 sp
    let k := c.check { f.atomReq with shared := false } (c.addr 0)
    let chk := k.1.map c.explicitOnly
    (turnsB (.atoms h0 f) h0 sp s c.lanes k.2.noteStore (c.atomAct f true chk) && restB c && calmB c && placedB c chk) = true := by decide +kernel

/-- What an atomic meets at home and in shared memory, and room in the combining buffer for a reduction. -/
theorem witness_atomicTurns : (memS.findTeam memS.pod.id.team == some memS.team && memS.team.irrev && !(fq 10 642 12 0 0x030 0).publishes &&
    memS.serial.isNone && !memS.poisoned (run 256 4) && (memS.team.lineAt 256).isNone && !memS.team.sharedBad 0 4 && !memS.pod.asking &&
    !memS.hasRemote memS.pod.id.team && (mergeRed ⟨256, 0, 3, 1⟩ [⟨512, 0, 3, 1⟩]).isNone && 0 < memS.team.kernel.stash &&
    (fq 10 642 12 0 0x030 0).atomScope != 5) = true := by decide +kernel

theorem witness_transactions :
    let f := fr 10 0 0 0 0
    let bs := accessOnly { dst := some { code := 10, acc := [.v], tag := 2 } }
    let es := accessOnly { dst := some { code := 769, acc := [.p, .zero] } }
    let as_ := accessOnly { srcs := [{ field := 1, arg := .code 12, acc := [.v, .k] }] }
    let ss : Spec := { dst := some { code := 10, acc := [.v], tag := 2 } }
    let tx := fun n => ({ thread := n, inTx := true, serial := false, due := false, count := 0, clashes := 0, status := 0, resume := 0, dst := 9
                          reads := [], writes := [] } : TxThread)
    let inTx := memS.setPod { memS.pod with tx := (List.range 16).map tx }
    let c := issueCtx memS h0 bs
    let e := issueCtx inTx h0 es
    let a := issueCtx inTx h0 as_
    let wr := fun n => { tx n with writes := [(0, 0, 1)] }
    let both := issueCtx (memS.setPod { memS.pod with tx := [wr 0, wr 1] }) h0 es
    (turnsB (.txb h0 f) h0 bs memS c.eff (if c.txDue then { c.s with serial := some c.s.pod.id } else c.s) (c.txbAct 10) && !c.s.tokenHeld &&
      turnsB (.txe h0 (fr 769 0 0 0 0)) h0 es inTx e.eff e.s (e.txeAct (txePred 769)) && !e.txClash 0 &&
      turnsB (.txa h0 (fr 0 12 0 0 0)) h0 as_ inTx a.eff a.s a.txaAct && readyB (.txst h0 f) h0 ss memS && restB c && calmB e &&
      memS.findTeam memS.pod.id.team == some memS.team && memS.team.stash.isEmpty && both.txClash 1 &&
      inTx.pod.txOf 0 == some (tx 0) && inTx.txValid (tx 0)) = true := by decide +kernel

theorem witness_wrq :
    let f := fq 10 642 12 644 0x010 0
    let s := memS.setPod { memS.pod with k := [(2, 0x100000), (4, 0x100400)] }
    let sp := accessOnly { srcs := [addrSrc 1 f.a, addrSrc 3 f.c] ++ wrqRun f, dst := some { code := f.dst, acc := [.v, .zero], tag := 2 } }
    let c := issueCtx s h0 sp
    let pay := c.check (wrqReq (4 * wrqWords f)) (c.addr 0)
    let que := ({ c with s := pay.2 } : Ctx).check (wrqReq 4) (c.addr 1)
    (turnsB (.wrq h0 f) h0 sp s c.lanes que.2.noteStore (c.wrqAct f pay.1 que.1) && restB c && calmB c &&
      placedB c pay.1 && placedB c que.1 &&
      okB (s.release s.pod.id.team (wrqScope f)) fun u => u.pod.id.team == s.pod.id.team) = true := by decide +kernel

/-! ## Witnesses: copies, rings and attached operations -/

/-- No operation under a handle register. -/
def freeB (c : Ctx) (dst : Code) : Bool := (c.s.opOf (c.s.pod.h.get (classOf dst).2)).isNone

/-- A copy of the team on tag 0 in flight. -/
def copyOp : Op :=
  { token := 1, kind := .cpy 0 0 false false [], pod := memS.pod.id, state := .running, progress := 0, fault := none, kpos := 0, seta := 15
    setb := 15, core := 0, cancel := false, readAt := none, seen := false, asks := [], part := 0 }

theorem witness_copies :
    let f := fq 0 642 644 z 0 0
    let s := memS.setPod { memS.pod with k := [(2, 0x100000), (4, 0x200000), (6, 1)] }
    let sp := accessOnly { srcs := [copySrc 1 f.a false, copySrc 2 f.b false, { field := 3, arg := .code f.c, acc := [.v, .k, .zero], tags := [2] }] }
    let c := issueCtx s h0 sp
    let busy := { s with ops := [copyOp] }
    let b := fq 0 12 12 z 0 0x180
    let bp := accessOnly { srcs := [copySrc 1 b.a true, copySrc 2 b.b true, { field := 3, arg := .code b.c, acc := [.v, .k, .zero], tags := [2] }] }
    let e := issueCtx s h0 bp
    let rev := s.setTeam { s.team with irrev := false }
    let g := fq 720 642 644 646 0 0
    let ts : Spec := { pod := true, dst := some (hDst g.dst)
                       srcs := [{ field := 1, arg := .code g.a, acc := [.k], regs := 2 }, { field := 2, arg := .code g.b, acc := [.k], regs := 2 },
                                { field := 3, arg := .code g.c, acc := [.k, .zero], tags := [2] }] }
    let d := issueCtx s h0 ts
    (readyB (.cpy h0 f) h0 sp s && c.txThreads.isEmpty && !c.s.inFlight c.s.pod.id.team 0 && !c.s.copyBarred &&
      readyB (.cpy h0 f) h0 sp busy && busy.inFlight busy.pod.id.team 0 && readyB (.cpy h0 f) h0 sp rev && rev.copyBarred &&
      readyB (.cpy h0 b) h0 bp s && e.txThreads.isEmpty && !e.s.inFlight e.s.pod.id.team (copyTag b) &&
      (e.lanes.all fun t => e.s.team.sharedOk (e.copyPart t).dst.toNat (e.copyPart t).len &&
        e.s.team.sharedOk (e.copyPart t).src.toNat (e.copyPart t).len) &&
      readyB (.tiercp h0 g) h0 ts s && (d.addr 0 0).toNat % 4096 == 0 && (d.addr 1 0).toNat % 4096 == 0 && d.val 2 0 == 1 && tierPageSize g == 4096 && !d.s.copyBarred && !d.s.inFlight d.s.pod.id.team (copyTag g) &&
      freeB d g.dst) = true := by decide +kernel

/-- TAGWA with its tags set and clear, TAGWN, TAGFF. -/
theorem witness_tagWaits :
    let f : FormRI := .r (fr 648 0 642 0 0)
    let s := memS.setTeam { memS.team with ctag := 0x100000 }
    let sp : Spec := { pod := true, srcs := [tagMaskSrc (f.argB 64)], dst := some (tagDst f.dst 2) }
    let tf : Spec := { pod := true, srcs := [tagMaskSrc (.code 642)], dst := some (tagDst 648 1) }
    let c := issueCtx s h0 sp
    (issueOk s h0 [(.tagwa h0 f, sp), (.tagwn h0 f, sp), (.tagff h0 (fr 648 0 642 0 0), tf)] && (c.s.pod.tagFaults (c.addr 0 0)).isEmpty &&
      c.addr 0 0 &&& c.s.team.ctag == c.addr 0 0 && c.addr 0 0 != 0 && c.addr 0 0 &&& c.s.team.ctag != 0 &&
      readyB (.tagwa h0 f) h0 sp memS && memS.team.ctag == 0 && (memS.pod.tagFaults (c.addr 0 0)).isEmpty) = true := by decide +kernel

/-- A ring of 32 with 16 elements. -/
def fullRing (tag : BitVec 5) : Ring := { ring tag with prd := 16, pub := 16, slots := [(0, 7), (1, 8)] }

/-- Port 0 bound to the empty ring 0 of f32, port 1 to ring 1 with 16 elements. -/
def ringS : State := memS.setTeam { memS.team with rings := [ring 3, fullRing 1] }

theorem witness_ringCounts : let r := ring 3
    r.pub = r.prd ∧ r.map = 0 ∧ 16 ≤ (fullRing 1).occ ∧ 1 ≤ r.room ∧ (r.prd - r.con).toNat ≤ r.depth ∧ r.depth < 2 ^ 32 := by decide +kernel

theorem witness_ringInstructions :
    let c (i : Instr) (sp : Spec) := readyB i h0 sp ringS
    let b := fq 704 0 0 0 0x080 0
    let q := fq 644 704 z 0 0 0
    let k := ringS.setPod { ringS.pod with k := [(4, 2)] }
    let rs : Spec :=
      { pod := true, srcs := [uniSrc 2 (.code 644)], dst := some { code := 646, acc := [.k] }
        bad := portBad (k.portName 704) fun x => x.att || k.argVal (.code 644) == 0 || decide (64 < k.argVal (.code 644)) ||
          decide (x.depth < k.argVal (.code 644)) }
    (c (.qbind h0 b) { pod := true, bad := (classOf b.dst).1 != .q || decide (ringS.team.rings.length ≤ 1) } &&
      c (.qfree h0 b) { pod := true, bad := (classOf b.dst).1 != .q } &&
      c (.qflush h0 q) { pod := true, bad := portBad (ringS.portName q.a) fun _ => false } && !ringS.ringBusy ringS.pod.id.team 0 &&
      !(ring 3).att && !(ring 3).drn &&
      readyB (.qres h0 (fq 646 704 644 0 0 0)) h0 rs k && (issueCtx k h0 rs).val 0 0 == 2 && (ring 3).takes 2 &&
      ringS.portName 704 == some (0, ring 3) && ringS.portName 705 == some (1, fullRing 1)) = true := by decide +kernel

/-- QPUB of thread 0 into the open slot 0. -/
theorem witness_qpub :
    let s := ringS.setPod { ringS.pod with p := [(1, 1)] }
    let s := s.setTeam { s.team with rings := [(ring 3).reserve 1, fullRing 1] }
    let f := fq 0 704 z z 0 0
    let sp : Spec := { srcs := [pushSrc f.b (portRingOf (s.portName f.a)), { field := 3, arg := .code f.c, acc := valAcc }]
                       bad := portBad (s.portName f.a) Ring.att, carries := true, lanewise := true }
    let c := issueCtx s h1 sp
    (readyB (.qpub h0 f) h1 sp s && c.lanes == [0] && c.val 1 0 == 0 && ((ring 3).reserve 1).openSlot 0) = true := by decide +kernel

/-- QPUSH into the empty ring, with .try into a full one, and in wait of one; QPOP, QPOP in wait, QPEEK and QSTAT. -/
theorem witness_pushPop :
    let full : Ring := { ring 3 with prd := 32, pub := 32 }
    let fullS := ringS.setTeam { ringS.team with rings := [full, fullRing 1] }
    let push (s : State) (f : FormR) : Spec :=
      { srcs := [pushSrc f.b (portRingOf (s.portName f.a))], dst := some { code := f.dst, acc := [.p, .zero] }, smod := f.smod, mtgt := f.mtgt
        carries := true, bad := portBad (s.portName f.a) Ring.att || (!f.flags.getLsbD 0 && (classOf f.dst).1 != .zero) }
    let pop (s : State) (f : FormR) : Spec :=
      { dst := some (popDst f.dst (portRingOf (s.portName f.a))), smod := f.smod, mtgt := f.mtgt, bad := portBad (s.portName f.a) Ring.drn || popBad f }
    let f := fr z 704 (vt 3) 0 0
    let t := fr 769 704 (vt 3) 0 1
    let g := fr 10 705 z z 0
    let e := fr 10 704 z z 0
    let et := fr 10 704 z 769 1
    let c := issueCtx ringS h0 (push ringS f)
    let d := issueCtx ringS h0 (pop ringS g)
    let st : Spec := { pod := isK 10, dst := some { code := 10, acc := [.v, .k], tag := 2 }, bad := portBad (ringS.portName 705) fun _ => false }
    (readyB (.qpush h0 f) h0 (push ringS f) ringS && c.lanes.length == 16 && (ring 3).takes 16 && (fullRing 1).bad.isEmpty && decide ((fullRing 1).open_ ≤ 64) &&
      readyB (.qpush h0 t) h0 (push fullS t) fullS && !full.takes 16 && readyB (.qpush h0 f) h0 (push fullS f) fullS &&
      readyB (.qpop h0 g) h0 (pop ringS g) ringS && (popThreads g d).lanes.length == 16 && (fullRing 1).occ == 16 &&
      readyB (.qpop h0 e) h0 (pop ringS e) ringS && (ring 3).occ == 0 && readyB (.qpop h0 et) h0 (pop ringS et) ringS &&
      readyB (.qpeek h0 g) h0 { pop ringS g with srcs := [uniSrc 2 (.code g.b)] } ringS && readyB (.qstat h0 (fr 10 705 0 0 0)) h0 st ringS) = true := by
  decide +kernel

/-- QWAIT for 4 elements of ring 1, and of the empty ring 0. -/
theorem witness_qwait :
    let f (port : Code) : FormRI := .i { dst := 644, a := port, imm := 4, interp := 0, flags := 64 }
    let sp (port : Code) : Spec :=
      { pod := true, srcs := [uniSrc 2 (.imm 4)], dst := some (kDst 644)
        bad := portBad (ringS.portName port) fun x => decide (x.depth < ringS.argVal (.imm 4)) }
    issueOk ringS h0 [(.qwait h0 (f 705), sp 705), (.qwait h0 (f 704), sp 704)] = true := by decide +kernel

/-- LDQ and STQ of thread 0. -/
theorem witness_gatherScatter :
    let s := ringS.setPod { ringS.pod with p := [(1, 1)] }
    let l := { fm 704 642 0 with typed := false }
    let t := fm 705 642 0
    let ls := accessOnly { srcs := l.eaSrcs, bad := FormM_ringBad l (s.portName l.data) || portBad (s.portName l.data) Ring.att, lanewise := true }
    let ts := accessOnly { srcs := t.eaSrcs, bad := FormM_ringBad t (s.portName t.data) || portBad (s.portName t.data) Ring.drn, lanewise := true }
    let c := issueCtx s h1 ls
    let d := issueCtx s h1 ts
    let r := { l.req .rd with mmio := true }
    let q := { t.req .wr with mmio := true }
    (turnsB (.ldq h1 l) h1 ls s c.lanes (c.check r (c.ea l 0)).2 (c.ldqTurn l 0 (c.check r (c.ea l 0)).1) && restB c && calmB c &&
      placedB c (c.check r (c.ea l 0)).1 && placedB d (d.check q (d.ea t 0)).1 && (fullRing 1).bad.isEmpty && !(fullRing 1).badAt 0 &&
      (ring 3).takes 1 && l.tag == 0 && t.scope != 5 && !t.order.getLsbD 1 && !packedBad l.tag { value := ofBytes (s.team.rdShared 16 4) } &&
      nfCause .xlateFault &&
      turnsB (.stq h1 t) h1 ts s d.lanes (d.check q (d.ea t 0)).2.noteStore (stqTurn t 1 (d.check q (d.ea t 0)).1) && restB d) = true := by
  decide +kernel

/-- DRAINQ of ring 1, and SUBS of a stream of two tiles of 128 bytes at 0x200000. -/
theorem witness_attached :
    let f := fq 720 642 644 z 0x100 0
    let s := ringS.setPod { ringS.pod with k := [(2, 0x100000), (4, 2)] }
    let sp := accessOnly { pod := true, dst := some (hDst f.dst), bad := portBad (s.portName (descPort f)) fun _ => false
                           srcs := [kPair 1 f.a, uniSrc 2 (.code f.b)]
                           late := if s.copyBarred then some (.illegalOp, 0, 0) else none }
    let c := issueCtx s h0 sp
    let g := fq 720 642 0 0 0 0
    let blk := ringS.wrAll (run 0x100000 24) (toBytes 8 0x200000 ++ toBytes 8 128 ++ toBytes 4 128 ++ toBytes 4 2)
    let gs := accessOnly { pod := true, dst := some (hDst g.dst), bad := portBad (blk.portName (descPort g)) fun _ => false, srcs := [kPair 1 g.a] }
    let d := issueCtx blk h0 gs
    (readyB (.drainq h0 f) h0 sp s && c.s.portName (descPort f) == some (1, fullRing 1) && !(fullRing 1).drn &&
      (c.addr 0 0).toNat % 4 == 0 && !onWindow (c.addr 0 0) &&
      (match c.s.translate c.s.team c.s.core (c.addr 0 0) .wr with | (.ok pa, v) => pa == 0x100000 && v.pod == c.s.pod | _ => false) &&
      freeB c f.dst && c.val 1 0 == 2 && readyB (.subs h0 g) h0 gs blk &&
      match d.pollBytes (d.addr 0 0) 32 with
      | .got lo u => bits lo 160 32 == 2 && (match ({ d with s := u } : Ctx).pollBytes (d.addr 0 0 + 32) 32 with
          | .got hi w => !streamBad (ring 3) lo hi && !w.pod.stepping && !w.pod.halted && freeB { d with s := w } g.dst &&
            (match w.translate w.team w.core (BitVec.ofNat 64 lo) .rd with
              | (.ok pa, v) => !(areaOf pa).isPeer && v.pod == w.pod
              | _ => false)
          | _ => false)
      | _ => false) = true := by decide +kernel

/-! ## Witnesses: handles, engines and collectives -/

/-- An operation under h2 in a state. -/
def opS (k : OpKind) (st : OpState) (fault : Option (Cause × Dword)) : State :=
  let s := ringS.setPod { ringS.pod with h := [(2, 1)] }
  { s with ops := [{ copyOp with kind := k, state := st, fault := fault, pod := s.pod.id }], nextToken := 2 }

def drain : OpKind := .drainq 1 0x100000 2

theorem witness_handles :
    let one : Spec := { pod := true, srcs := [hSrc 722] }
    let f := fr 0 722 0 0 0
    let done := opS drain .complete none
    let busy := opS drain .running none
    let bad := opS drain .faulted (some (.protection, 0x100000))
    let coll := opS (.coll 1) .running none
    let gbar := opS (.gbar 1) .complete none
    let loads := gbar.setPod { gbar.pod with pend := [onePend] }
    let tier := { busy with ops := [{ copyOp with kind := .tiercp 0 4096 1 4096 0 0, pod := busy.pod.id, part := 1 }] }
    let t (d : Code) : Spec := { pod := true, srcs := [hSrc 722], dst := some { code := d, acc := [.p, .k] } }
    (readyB (.hwait h0 f) h0 one done && readyB (.hwait h0 f) h0 one busy && readyB (.hwait h0 f) h0 one bad && readyB (.hwait h0 f) h0 one ringS &&
      (Ctx.opAt (issueCtx done h0 one) 722).map Op.state == some .complete && (Ctx.opAt (issueCtx busy h0 one) 722).map Op.state == some .running &&
      ((Ctx.opAt (issueCtx bad h0 one) 722).bind Op.fault).isSome && (Ctx.opAt (issueCtx ringS h0 one) 722).isNone &&
      readyB (.htest h0 (fr 769 722 0 0 0)) h0 (t 769) done && readyB (.htest h0 (fr 644 722 0 0 0)) h0 (t 644) busy &&
      readyB (.hcan h0 f) h0 one done && readyB (.hcan h0 f) h0 one busy && readyB (.hcan h0 f) h0 one coll &&
      readyB (.hcan h0 f) h0 one ringS && (Ctx.opAt (issueCtx coll h0 one) 722).map Op.state == some .running &&
      readyB (.hwait h0 f) h0 one gbar && !gbar.pod.loading && readyB (.hwait h0 f) h0 one loads && loads.pod.loading &&
      (Ctx.opAt (issueCtx loads h0 one) 722).any Op.isGbar && readyB (.htest h0 (fr 769 722 0 0 0)) h0 (t 769) loads &&
      readyB (.htest h0 (fr 769 722 0 0 0)) h0 (t 769) ringS && readyB (.hcan h0 f) h0 one tier && tier.ops.all (·.part == 1)) = true ∧ Discards { copyOp with kind := drain } := ⟨by decide +kernel, trivial⟩

/-- HPASS into the free slot 0 and into a full one, HTAKE from the full one and from the free one, and both of a slot that is not there. -/
theorem witness_handlePassing :
    let p (s : State) (b : Code) : Spec := { pod := true, srcs := [hSrc 722, slotSrc b], bad := decide (15 < s.argVal (.code b)) }
    let t (s : State) (b : Code) : Spec := { pod := true, dst := some (hDst 723), srcs := [slotSrc b], bad := decide (15 < s.argVal (.code b)) }
    let done := opS drain .complete none
    let full := done.setTeam { done.team with xchg := [(0, 1, done.pod.id)] }
    let high := done.setPod { done.pod with k := [(4, 16)] }
    let quiet := !high.pod.waitsOn h0 && (high.pod.dueFaults h0.wait).isEmpty
    (readyB (.hpass h0 (fr 0 722 z 0 0)) h0 (p done z) done && (issueCtx done h0 (p done z)).val 1 0 == 0 && done.team.xchg.isEmpty &&
      readyB (.hpass h0 (fr 0 722 z 0 0)) h0 (p full z) full && readyB (.hpass h0 (fr 0 722 z 0 0)) h0 (p ringS z) ringS &&
      (Ctx.opAt (issueCtx ringS h0 (p ringS z)) 722).isNone &&
      readyB (.htake h0 (fr 723 0 z 0 0)) h0 (t full z) full && freeB (issueCtx full h0 (t full z)) 723 &&
      readyB (.htake h0 (fr 723 0 z 0 0)) h0 (t ringS z) ringS && quiet && (p high 644).bad && (t high 644).bad) = true := by
  decide +kernel

/-- TDEF of a shared tile descriptor, of one that breaks R410, and of a busy slot; TDROP. -/
theorem witness_tileSlots :
    let f := fq 0 648 0 0 0x080 0
    let sp (s : State) : Spec := { pod := true, exec := false, srcs := [{ field := 1, arg := .code f.a, acc := [.k], regs := 8 }]
                                   bad := !descOk s.team.rings.length (BitVec.ofNat 256 (s.argVal (.code f.a) 8)) }
    let good := memS.setPod { memS.pod with k := [(8, 0x0101), (9, 512)] }
    let wrong := memS.setPod { memS.pod with k := [(8, 0x0006)] }
    let busy := { good with ops := [{ copyOp with kind := .svs 1 0 0 0 0 }] }
    (readyB (.tdef h0 f) h0 (sp good) good && !wrong.pod.waitsOn h0 && (wrong.pod.dueFaults h0.wait).isEmpty && (sp wrong).bad &&
      readyB (.tdef h0 f) h0 (sp busy) busy && busy.slotBusy busy.pod.id.team 1 && readyB (.tdrop h0 f) h0 { pod := true } good &&
      !good.slotBusy good.pod.id.team 1) = true := by decide +kernel

/-- Slots 3 and 4 hold f16 tiles of shared memory, whose eight chunks fit. -/
def tileD : BitVec 256 := BitVec.ofNat 256 (1 + 2 * 256 + 512 * 2 ^ 32)

/-- The execute pod 0 of a team whose declared operations are all present, with two tiles. -/
def matS : State :=
  { exeS with
    capm := [(0, BitVec.ofNat 256 (2 ^ 256 - 1)), (1, BitVec.ofNat 256 (2 ^ 256 - 1))]
    team := { exeS.team with kernel := { exeS.team.kernel with shared := 131072, xpods := 4, twin := true }, tiles := [(3, tileD), (4, tileD)] } }

/-- MMA.z on h2, and with an accumulator whose tags are raw; beside a full queue, past the end of shared memory, and of a tile of another
format; MMAT, MMAS. -/
theorem witness_matrix :
    let f := fq 722 32 z 0 0x190 0x100
    let g := fq 722 64 z 0 0x190 0x100
    let c (v : Nat) := issueCtx matS h0 (matS.matrixSpec f v)
    let m := matS.newMatrix f 0
    let deep := { matS with ops := List.replicate 8 { copyOp with kind := .matrix m, pod := matS.pod.id } }
    let d := issueCtx deep h0 (deep.matrixSpec g 0)
    let short := matS.setTeam { matS.team with kernel := { matS.team.kernel with shared := 1024 } }
    let other := matS.setTeam { matS.team with tiles := [(3, tileD), (4, tileD + 512)] }
    (readyB (.mma h0 f) h0 (matS.matrixSpec f 0) matS && readyB (.mmat h0 f) h0 (matS.matrixSpec f 1) matS &&
      readyB (.mmas h0 f) h0 (matS.matrixSpec f 2) matS && ((c 0).matrixBounds m).isNone &&
      ((c 1).matrixBounds (matS.newMatrix f 1)).isNone && ((c 2).matrixBounds (matS.newMatrix f 2)).isNone &&
      ((matS.arraysOf 1).all fun a => (matS.queued a).length < 8) && freeB (c 0) 722 &&
      readyB (.mma h0 g) h0 (deep.matrixSpec g 0) deep && ((deep.arraysOf 0).any fun a => 8 ≤ (deep.queued a).length) &&
      readyB (.mma h0 f) h0 (short.matrixSpec f 0) short && ((issueCtx short h0 (short.matrixSpec f 0)).matrixBounds (short.newMatrix f 0)).isSome &&
      checkedB (.mma h0 f) h0 (other.matrixSpec f 0) other && (other.matrixTagFail (other.newMatrix f 0)).isSome &&
      (d.matrixBounds (deep.newMatrix g 0)).isNone) = true := by decide +kernel

/-- MVS and SVS with a dense f16 and a CSR f32 matrix; MVS whose input port is i32, SVS whose format has no CSR form. -/
theorem witness_stack :
    let f := fq 722 704 705 0 0x080 0
    let dense : BitVec 256 := BitVec.ofNat 256 (4 + 2 * 256 + 2 ^ 16 + 4 * 2 ^ 32 + 2 ^ 192)
    let csr : BitVec 256 := BitVec.ofNat 256 (5 + 256 + 2 ^ 16)
    let odd : BitVec 256 := BitVec.ofNat 256 (5 + 2 * 256 + 2 ^ 16)
    let s (d : BitVec 256) (a : BitVec 5) := ringS.setTeam { ringS.team with tiles := [(1, d)], rings := [ring a, ring 3] }
    let d := fun s : State => s.team.tile (slotA f)
    let tagA := fun s : State => (portRingOf (s.portName f.a)).tag
    let tagB := fun s : State => (portRingOf (s.portName f.b)).tag
    let mvsField := fun s : State => if tagA s ≠ 3 ∧ tagA s ≠ 8 then some 1 else if tagB s ≠ 3 then some 2
      else if !denseFmts.contains (dFmt (d s)) then some 0 else none
    let svsField := fun s : State => if !csrFmts.contains (dFmt (d s)) then some 0
      else if tagB s ≠ (if dFmt (d s) = 0 then 4 else 3) then some 2 else none
    let fails := fun n : Option Nat => n.map fun n => (Cause.formatMismatch, n, (0 : Dword))
    let mvs := fun s : State => ({ pod := true, dst := some (hDst f.dst), illegal := decide (stackSat f = 2)
                                   bad := (portBad (s.portName f.a) fun x => x.drn || x.esize != 4 || decide (x.depth < xUnits x (dPitch (d s)))) ||
                                     (portBad (s.portName f.b) fun x => x.att || x.esize != 4) || dKind (d s) != 4
                                   late := fails (mvsField s) } : Spec)
    let svs := fun s : State =>
      ({ pod := true, dst := some (hDst f.dst), illegal := decide (stackSat f = 2)
         bad := (portBad (s.portName f.b) fun x => x.att || (csrFmts.contains (dFmt (d s)) && x.esize != (if dFmt (d s) = 0 then 8 else 4))) ||
           dKind (d s) != 5
         late := fails (svsField s) } : Spec)
    (readyB (.mvs h0 f) h0 (mvs (s dense 3)) (s dense 3) && checkedB (.mvs h0 f) h0 (mvs (s dense 1)) (s dense 1) &&
      mvsField (s dense 1) == some 1 && readyB (.svs h0 f) h0 (svs (s csr 3)) (s csr 3) && checkedB (.svs h0 f) h0 (svs (s odd 3)) (s odd 3) &&
      svsField (s odd 3) == some 0 && (s csr 3).portName f.b == some (1, ring 3) && (s dense 3).portName f.a == some (0, ring 3) &&
      freeB (issueCtx (s dense 3) h0 (mvs (s dense 3))) 722 && freeB (issueCtx (s csr 3) h0 (svs (s csr 3))) 722) = true := by decide +kernel

/-- COLL.add of f32 by an execute pod of a team of one, a COLL that gives all, one in a shadow team, and GBAR. -/
theorem witness_collectives :
    let s := exeS
    let f := fq 722 (vt 3) (vt 3 + 1) z 0x080 0
    let shadow := s.setTeam { s.team with kernel := { s.team.kernel with shadow := true } }
    let sp := s.collSpec f
    let c := issueCtx s h0 sp
    let later := s.setTeam { s.team with id := ⟨1, 1, 0⟩ }
    let g := fq 722 (vt 3) z z 0 0
    let raw := fq 722 12 13 z 0x080 0
    (readyB (.coll h0 f) h0 sp s && freeB c 722 && checkedB (.coll h0 raw) h0 (s.collSpec raw) s &&
      (s.pod.collTagBad raw.collTy 12 none (vOf raw.b)).isSome && !raw.collSc && okB (c.s.irrevocable c.s.pod.id.team) (fun u => u.collReceives f && !u.pod.stepping && !u.pod.halted) &&
      readyB (.coll h0 g) h0 (later.collSpec g) later && !later.collReceives g && readyB (.coll h0 f) h0 (shadow.collSpec f) shadow &&
      readyB (.gbar h0 (fq 722 0 0 0 0 0)) h0 { pod := true, dst := some (hDst 722), illegal := false } s) = true := by decide +kernel

/-- No instance is open, and none has an identifier that is still to come. -/
theorem witness_joining : (∀ c ∈ exeS.colls, c.id < exeS.nextColl) ∧ (exeS.colls.map Collective.id).Nodup := by decide +kernel

/-- TRED and TSCAN with every thread, at an instance, and with a thread that has not come. -/
theorem witness_teamReductions :
    let f := fq 10 (vt 2) 0 0 0x040 0
    let sp (scan : Bool) (s : State) : Spec := { gathers [xvSrc 1 f.a f.redRegs [f.redTag]]
      { code := f.dst, acc := if scan then [.v] else [.v, .k], regs := f.redRegs, tag := f.redTag } with cls := f.redCls, arrives := true, late := s.pod.lateUnless true }
    let c := issueCtx accS h0 (sp false accS)
    let split := podS fun p => { p with user := ⟨12, 0⟩ :: (List.range 15).map fun _ => ⟨0, 0⟩ }
    let there := accS.setPod { accS.pod with arrived := true, wait := some ⟨.coll, 0, none, 0⟩ }
    (readyB (.tred h0 f) h0 (sp false accS) accS && readyB (.tscan h0 f) h0 (sp true accS) accS && !c.s.pod.atColl && accS.team.insts.isEmpty &&
      checkedB (.tred h0 f) h0 (sp false split) split && split.pod.active != full 16 && split.pod.width == 16 && split.pod.exited == 0 &&
      readyB (.tred h0 f) h0 (sp false there) there && there.pod.atColl) = true := by decide +kernel

/-! ## Witnesses: other teams, counters and debug -/

/-- A queue of 256 packets at 0x300000. -/
def queue0 : Queue :=
  { q := 0, desc := 0x380000, enabled := true, ring := 0x300000, lsize := 8, pri := 0, mode := 0, devfeed := true, acorn := false, super := true
    asn := 0, ctxn := 16, ptroot := 0x1000, topo := 0, entries := [], ctxpool := 0x400000, ctxsz := 0x10000, head := 0, tail := 0
    mapped := none, waiting := 0, parents := [] }

def queueS : State := { memS with queues := [queue0], wqbase := 0x380000 }

/-- LAUNCH with room, of a packet in shared memory, with no room and .try, in wait, at nesting depth 10, in a shadow team, and to a queue that
the team may not feed. -/
theorem witness_launch :
    let sp : Spec := { srcs := [{ field := 1, arg := .code z, acc := valAcc }, { field := 2, arg := .code 642, acc := [.v, .k], regs := 2 }]
                       dst := some { code := z, acc := [.p, .zero] } }
    let f := fq z z 642 0 0 0
    let t := fq 769 z 642 0 0 1
    let st : Spec := { sp with dst := some { code := 769, acc := [.p, .zero] } }
    let one := queueS.setPod { queueS.pod with p := [(1, 1)] }
    let c := issueCtx one h1 sp
    let full := { one with queues := [{ queue0 with tail := 256 }] }
    let d := issueCtx full h1 sp
    let deep := queueS.setTeam { queueS.team with depth := 10 }
    let dark := queueS.setTeam { queueS.team with kernel := { queueS.team.kernel with shadow := true } }
    let closed := { one with queues := [{ queue0 with devfeed := false }] }
    let e := issueCtx closed h1 sp
    let g := fq 769 z 644 0 0 0
    let win := one.setPod { one.pod with k := [(4, 0xFFE00000), (5, 0xFFFFFFFF)] }
    let ws : Spec := { srcs := [{ field := 1, arg := .code z, acc := valAcc }, { field := 2, arg := .code 644, acc := [.v, .k], regs := 2 }]
                       dst := some { code := 769, acc := [.p, .zero] } }
    let w := issueCtx win h1 ws
    let start (c : Ctx) := (c.s.irrevocable c.s.pod.id.team).then_ fun s => s.release s.pod.id.team 4
    (readyB (.launch h1 f) h1 sp one && c.txThreads.isEmpty && c.s.team.depth != 10 && !c.s.team.kernel.shadow &&
      (c.lanes.all fun t => c.s.feedsQueue (c.val 0 t)) && c.s.launchRoom (c.lanes.map fun t => c.val 0 t) &&
      okB (start c) (fun u => turnsB (.launch h1 f) h1 sp one c.lanes u (c.launchTurn z)) &&
      readyB (.launch h1 g) h1 ws win && w.txThreads.isEmpty && (w.lanes.all fun t => w.s.feedsQueue (w.val 0 t)) &&
      w.s.launchRoom (w.lanes.map fun t => w.val 0 t) &&
      okB (start w) (fun u => !u.pod.stepping && !u.pod.halted && u.pod.pend.isEmpty && u.team.watch.isNone && w.lanes.all fun t =>
        u.feedsQueue (w.val 0 t) && [0, 32].all fun d => let a := BitVec.ofNat 64 (w.val 1 t + d)
          onWindow a && u.team.sharedOk (a.toNat - windowBase) 32 && !u.team.sharedBad (a.toNat - windowBase) 32) &&
      readyB (.launch h0 f) h0 sp dark && readyB (.launch h1 f) h1 sp closed && e.txThreads.isEmpty && e.s.team.depth != 10 &&
      (e.lanes.any fun t => !e.s.feedsQueue (e.val 0 t)) &&
      readyB (.launch h1 f) h1 sp full && !d.s.launchRoom (d.lanes.map fun t => d.val 0 t) && readyB (.launch h1 t) h1 st full &&
      readyB (.launch h0 f) h0 sp deep && (issueCtx deep h0 sp).uni && queueS.findQueue 0 == some queue0) = true := by decide +kernel

theorem witness_children :
    let w : Spec := { pod := true, dst := some (kDst 644) }
    let sp (a : Code) : Spec := { pod := true, srcs := [uniSrc 1 (.code a)] }
    let parent := memS.setTeam { memS.team with children := 2 }
    let asked := memS.setTeam { memS.team with mailboxes := [0] }
    let s := memS.setPod { memS.pod with k := [(4, 8), (5, 0x100000)] }
    (readyB (.waitch h0 (fr 644 0 0 0 0)) h0 w memS && memS.team.children == 0 && readyB (.waitch h0 (fr 644 0 0 0 0)) h0 w parent &&
      readyB (.fetchw h0 (fr 0 z 0 0 0)) h0 (sp z) memS && memS.team.sharedOk 0 32 && readyB (.fetchw h0 (fr 0 z 0 0 0)) h0 (sp z) asked &&
      readyB (.fetchw h0 (fr 0 644 0 0 0)) h0 (sp 644) s && (issueCtx s h0 (sp 644)).val 0 0 == 8 &&
      readyB (.fetchw h0 (fr 0 645 0 0 0)) h0 (sp 645) s && !s.team.sharedOk 0x100000 32) = true := by decide +kernel

/-- Grid 7 does not exist; the team of grid 2 is resident, halted, inside an instruction, or not resident; the action has been taken. -/
theorem witness_acting :
    let f := fr 646 644 645 0 0
    let at_ (g : Word) (t : Team → Team) : State :=
      { memS.setPod { memS.pod with k := [(4, g), (5, 0)] } with teams := [t { memS.team with id := ⟨2, 0, 0⟩ }] }
    let none_ := at_ 7 id
    let here := at_ 2 id
    let away := at_ 2 fun t => { t with place := .parked 0 }
    let halted := at_ 2 fun t => { t with halted := true }
    let busy := { here with pods := [{ memS.pod with id := ⟨⟨2, 0, 0⟩, .access, 0⟩, inside := true }] }
    let own := at_ 1 id
    let done := here.setPod { here.pod with wait := some ⟨.time, 0, some 10, 0⟩ }
    let sp := fun s : State => s.overTeam f true
    let c (s : State) := issueCtx s h0 (sp s)
    let ts (s : State) := (c s).s.namedTeams ((c s).val 0 0) ((c s).val 1 0)
    let there (s : State) := (c s).s.teamExists ((c s).val 0 0) ((c s).val 1 0)
    let halt (s : State) := (ts s).foldl (fun s t => s.haltTeam t.id) (c s).s
    let still (s u : State) := (ts s).all fun t => u.atBoundary t.id
    let begins (s : State) := (c s).s.pod.pendingStatus.isNone
    let others (s : State) := (ts s).all fun t => t.id != s.pod.id.team
    (readyB (.halt h0 f) h0 (sp none_) none_ && begins none_ && !there none_ && readyB (.halt h0 f) h0 (sp away) away && begins away && there away &&
      !residentIn (ts away) && readyB (.halt h0 f) h0 (sp here) here && begins here && there here && residentIn (ts here) && others here &&
      still here (halt here) && readyB (.halt h0 f) h0 (sp busy) busy && begins busy && there busy && residentIn (ts busy) &&
      !still busy (halt busy) && !((halt busy).setPod { (halt busy).pod with wait := none }).pod.stepping &&
      readyB (.halt h0 f) h0 (sp done) done && (c done).s.pod.pendingStatus == some 0 && still done (c done).s &&
      readyB (.resume h0 f) h0 (sp none_) none_ && readyB (.resume h0 f) h0 (sp here) here && !(ts here).any Team.halted &&
      readyB (.resume h0 f) h0 (sp halted) halted && (ts halted).any Team.halted && there halted &&
      readyB (.abortp h0 f) h0 (sp none_) none_ && readyB (.abortp h0 f) h0 (sp away) away && readyB (.abortp h0 f) h0 (sp here) here &&
      readyB (.abortp h0 f) h0 (sp done) done && ((ts done).all fun t => t.saving.isNone) && !own.pod.waitsOn h0 &&
      (own.pod.dueFaults h0.wait).isEmpty && (sp own).bad) = true := by decide +kernel

theorem witness_stepping :
    let f := fr 646 644 645 0 0
    let at_ (g : Word) (t : Team → Team) : State :=
      { memS.setPod { memS.pod with k := [(4, g), (5, 0)] } with teams := [t { memS.team with id := ⟨2, 0, 0⟩ }] }
    let none_ := at_ 7 id
    let here := at_ 2 id
    let halted := at_ 2 fun t => { t with halted := true }
    let done := halted.setPod { halted.pod with wait := some ⟨.time, 0, some 10, 0⟩ }
    let sp := fun s : State => s.overTeam f false
    let c (s : State) := issueCtx s h0 (sp s)
    let ts (s : State) := (c s).s.namedTeams ((c s).val 0 0) ((c s).val 1 0)
    (readyB (.dstep h0 f) h0 (sp none_) none_ && (c none_).s.pod.pendingStatus.isNone &&
      !(c none_).s.teamExists ((c none_).val 0 0) ((c none_).val 1 0) && readyB (.dstep h0 f) h0 (sp here) here &&
      !(ts here).any Team.halted && (c here).s.teamExists ((c here).val 0 0) ((c here).val 1 0) &&
      readyB (.dstep h0 f) h0 (sp halted) halted && residentIn (ts halted) && (ts halted).any Team.halted &&
      !((ts halted).foldl (fun s t => s.stepTeam t.id) (c halted).s).pod.stepping &&
      readyB (.dstep h0 f) h0 (sp done) done && (c done).s.pod.pendingStatus == some 0 && ((ts done).all fun t => t.id != done.pod.id.team) &&
      done.allPods.all fun p => !p.stepping) = true := by decide +kernel

/-- A pod of a halted team. -/
theorem witness_halted : memS.pod.id.team = ⟨1, 0, 0⟩ ∧ memS.pod.done = false ∧ memS.pod.stepping = false ∧ memS.midway memS.pod = false ∧
    memS.pod.raised = none ∧ memS.pod ∈ memS.allPods ∧ memS.midway { memS.pod with inside := true } = true ∧
    ((memS.haltTeam ⟨1, 0, 0⟩).allPods.any fun p => p.halted) = true := by decide +kernel

theorem witness_acorn :
    let f (op : BitVec 7) (r : Word) : FormRI := .i { dst := 644, a := 0, imm := r, interp := 0, flags := 64 + op }
    let b (op : BitVec 7) (r : Word) := accS.argVal ((f op r).argB 32)
    let sp (op : BitVec 7) (r : Word) : Spec :=
      { pod := true, dst := some (kDst 644), srcs := [uniSrc 2 ((f op r).argB 32)]
        bad := decide (64 < b op r) || (op == 1 && b op r != 0), priv := decide (2 ≤ op) && !accS.team.kernel.super }
    (issueOk accS h0 [(.acorn h0 (f 0 64), sp 0 64), (.acorn h0 (f 1 0), sp 1 0), (.acorn h0 (f 2 64), sp 2 64), (.acorn h0 (f 3 63), sp 3 63),
      (.acorn h0 (f 3 64), sp 3 64)] && (issueCtx accS h0 (sp 3 64)).val 0 0 == 64 && (sp 0 65).bad && (sp 1 1).bad) = true := by decide +kernel

theorem witness_counters :
    let f (b : Word) : FormRI := .i { dst := 0, a := 644, imm := b, interp := 0, flags := 64 }
    let s (n : Word) := memS.setPod { memS.pod with k := [(2, 0x100000), (4, n)] }
    let cs (b : Word) (s : State) : Spec :=
      { pod := true, srcs := [uniSrc 1 (.code 644), uniSrc 2 ((f b).argB 32)], bad := s.counterBad (.code 644) (some ((f b).argB 32)) }
    let rd (s : State) : Spec := { pod := true, srcs := [uniSrc 1 (.code 644)], dst := some { code := 10, acc := [.v, .k], regs := 2, tag := 6 }
                                   bad := s.counterBad (.code 644) none }
    let a : Src := { field := 1, arg := .code 12, acc := [.v, .k, .zero] }
    let b : Src := { field := 2, arg := .imm 6, acc := [.v, .k, .zero] }
    let g : FormRI := .i { dst := 0, a := 12, imm := 6, interp := 0, flags := 64 }
    let q := fq 722 642 0 0 0 0
    let qs : Spec := { pod := true, dst := some (hDst 722), srcs := [{ field := 1, arg := .code 642, acc := [.k], regs := 2 }] }
    let c := issueCtx memS h0 qs
    let off := memS.setPod { memS.pod with k := [(2, 0x100004)] }
    (readyB (.cntsel h0 (f 255)) h0 (cs 255 (s 7)) (s 7) && !(s 8).pod.waitsOn h0 && ((s 8).pod.dueFaults h0.wait).isEmpty && (cs 1 (s 8)).bad &&
      (cs 256 (s 7)).bad && (rd (s 8)).bad && readyB (.cntrd h0 (fr 10 644 0 0 0)) h0 (rd (s 7)) (s 7) && readyB (.cntsnap h0 (fr 0 0 0 0 0)) h0 { pod := true } memS &&
      readyB (.rcinc h0 g) h0 { srcs := [a, b], bad := guardBad (a.uniform && b.uniform) h0 } memS &&
      readyB (.rcsnap h0 q) h0 qs memS && (BitVec.ofNat 64 (c.val 0 0)).toNat % 128 == 0 && !c.s.copyBarred && !c.s.pod.loading && freeB c 722 &&
      (let o := c.issueOp (some 2) 15 (.rcsnap (BitVec.ofNat 64 (c.val 0 0)) (c.s.rcBank 0)) c.s
       let u := (o.2.rcClear 0).rcWrite o.1
       !u.pod.stepping && !u.pod.halted) && readyB (.rcsnap h0 q) h0 qs off) = true := by decide +kernel

theorem witness_debug :
    let w := { fm 644 642 0 with hint := 3, scope := 0 }
    let ws : Spec := { pod := true, srcs := kPair 4 w.data :: w.eaSrcs.map fun x => { x with acc := x.acc.filter (· ≠ .v), uni := true }, priv := false }
    let b (off : Word) (a : Code) : FormB := { link := 644, a := a, boff := off, flags := 2 }
    let s := memS.setPod { memS.pod with k := [(2, 0x100000), (4, 1), (6, 0x1200C)] }
    let at_ (off : Word) (a : Code) := if (classOf a).1 = .zero then target s.pod.pc off else BitVec.ofNat 64 (s.argVal (.code a) 2)
    let bs (off : Word) (a : Code) : Spec :=
      { pod := true, srcs := [kPair 5 644, { field := 1, arg := .code a, acc := [.k, .zero], regs := 2 }]
        late := if (at_ off a).toNat % 12 ≠ 0 then some (.pcMisalign, 0, 0) else none }
    let d : FormRI := .i { dst := 648, a := 0, imm := 5, interp := 0, flags := 64 }
    let ds : Spec := { pod := true, dst := some (kDst 648), srcs := [uniSrc 2 (.imm 5)], priv := false }
    let full := { s with dbgFifo := List.replicate 64 0 }
    (issueOk s h0 [(.wpset h0 w, ws), (.bpset h0 (b 3 z), bs 3 z), (.bpset h0 (b 0 646), bs 0 646), (.dmbox h0 d, ds)] &&
      checkedB (.bpset h0 (b 0 642)) h0 (bs 0 642) s && (at_ 0 642).toNat % 12 != 0 && readyB (.dmbox h0 d) h0 ds full) = true := by
  decide +kernel

/-! ## Witnesses: events of pods and engines -/

/-- Each of some tests holds. -/
def allOk (l : List Bool) : Bool := l.all id

/-- An outstanding result with all its data, for v10 of thread 0. -/
def result (k : PendKind) : Pend :=
  { kind := k, serial := 0, dest := .vregs 0 10 1, tag := 1, value := 5, reqs := [], size := 4, seta := 15, setb := 15, thread := 0, addr := 0
    uncorr := false, fl := 0 }

def pendS (x : Pend) : State := memS.setPod { memS.pod with pend := [x] }

/-- What `Here` asks of result 0, and a test of it. -/
def hereB (x : Pend) (p : Pend → Bool) : Bool :=
  match ((pendS x).findPod memS.pod.id).bind fun q => q.pend[0]? with
  | some y => y.reqs.isEmpty && p y
  | none => false

theorem witness_results : allOk [hereB (result .classT) fun y => y.kind == .classT,
    hereB (result .load) fun y => y.kind == .load && y.todo.isNone && !y.refused && !y.uncorr && !y.packedBad,
    hereB { result .wrq with todo := some ⟨[], 256, false⟩ } fun y => y.kind == .wrq && y.todo.isSome,
    hereB { result .load with refused := true } fun y => y.kind == .load && y.todo.isNone && y.refused,
    hereB { result .ldqNf with refused := true } fun y => y.kind == .ldqNf && y.refused,
    hereB { result .ldq with uncorr := true } fun y => y.kind == .ldq && !y.refused && y.uncorr,
    hereB { result .wrq with uncorr := true } fun y => y.kind == .wrq && y.uncorr, hereB { result .load with tag := 17, value := 2 ^ 127 } Pend.packedBad,
    hereB { result .ldq with dest := .slot 0 0 } fun y => y.kind == .ldq && y.dest == .slot 0 0 && !y.packedBad && !y.uncorr,
    ((memS.findTeam memS.pod.id.team).bind fun t => t.ring 0).isSome] = true := by decide +kernel

theorem witness_peerAnswers :
    let x (k : PendKind) := { result k with reqs := [(1, 0, [])] }
    let ok (k : PendKind) := match ((pendS (x k)).findPod memS.pod.id).bind fun q => q.pend[0]? with
      | some y => y.kind == k && !y.reqs.isEmpty
      | none => false
    let r : Remote := { core := 0, line := 256, mask := 1, bytes := 7, team := memS.team.id }
    allOk [ok .load, ok .wrq, ok .check, (({ memS with rcbuf := [r] } : State).rcbuf.find? fun r => r.core == 0 && r.line == 256) == some r] = true := by decide +kernel

/-- A raised trap with nothing outstanding and no operation. -/
theorem witness_trapDue :
    let s := accS.setPod { accS.pod with raised := some (accS.pod.before .trapInstr 0 0 0, 5) }
    (s.findPod s.pod.id).map Pod.raised = some (some (accS.pod.before .trapInstr 0 0 0, 5)) ∧ s.pod.pend = [] ∧ s.ops = [] := by decide +kernel

theorem witness_waitsEnd :
    let ok (k : WaitKind) : Bool :=
      let s := { accS with pod := { accS.pod with wait := some ⟨k, 0, some 10, 0⟩ }, cycle := 20, time := 20 }
      match (s.findPod s.pod.id).bind Pod.wait with
      | some w => w.kind == k && w.until_ == some 10 && 10 ≤ s.cycle && 10 ≤ s.time.toNat
      | none => false
    allOk [ok .waitf, ok .sleep, ok .holdt, ok .poll] = true := by decide +kernel

/-- Pod 0 held since cycle 0, pods 1 to 3 active, pod 4 ready and pending. -/
def fiveS : State :=
  let s := accS.setTeam { accS.team with kernel := { accS.team.kernel with apods := 5 } }
  let p (i : Nat) : Pod := { s.pod with id := { s.pod.id with idx := i }, sched := { s.pod.sched with active := decide (i ≠ 4) } }
  { s with pod := { p 0 with wait := some ⟨.flag, 0, none, 0⟩ }, pods := [p 1, p 2, p 3, p 4], cycle := 1000 }

theorem witness_scheduling :
    let p (i : Nat) : PodId := { fiveS.pod.id with idx := i }
    let d := { accS with pod := { accS.pod with sched := { accS.pod.sched with demoted := some 5 } }, cycle := 1000 }
    allOk [fiveS.coreOfPod (p 0) == some 0, ((fiveS.findPod (p 0)).map fiveS.swapDue) == some true, fiveS.coreOfPod (p 4) == some 0,
      ((fiveS.findPod (p 4)).map fiveS.promotionDue) == some true, (leastRecent (fiveS.activeSet 0 (p 4).slice)).isSome,
      ((d.findPod d.pod.id).bind fun q => q.sched.demoted) == some 5, 5 ≤ d.cycle] = true := by decide +kernel

/-- The only pod of a team waits on ring 1 since cycle 0. -/
theorem witness_deadlock :
    let s := { memS with pod := { memS.pod with wait := some ⟨.ring 1, 0, none, 0⟩ }, team := { memS.team with stuck := some 0 }, cycle := 5000 }
    (s.findTeam s.team.id).map s.deadlockDue = some true := by decide +kernel

/-- A machine in which one operation runs, and a test of what `Running` names. -/
def runS (s : State) (k : OpKind) (progress : Nat) : State :=
  { s with ops := [{ copyOp with kind := k, progress := progress, pod := s.pod.id }], nextToken := 2 }

def runB (s : State) (k : OpKind) (progress : Nat) (p : State → Op → Team → Bool) : Bool :=
  let s := runS s k progress
  match s.opTok 1 with
  | none => false
  | some o => match s.findTeam o.pod.team with
    | none => false
    | some t => o.state == .running && o.answered && !o.cancel && !o.refused && p s o t

theorem witness_copiesMove :
    let part (dst src : Dword) (done : Nat) (f : Option (Cause × Dword)) : CopyPart := { thread := 0, dst := dst, src := src, len := 8, done := done, fault := f }
    let cpy (l : List CopyPart) : OpKind := .cpy 3 0 false false l
    let move (dst : Dword) (s : State) (o : Op) (t : Team) : Piece :=
      let x := part dst 0x100000 0 none
      s.copyBytes o t (x.dst + BitVec.ofNat 64 x.done) (x.src + BitVec.ofNat 64 x.done) false false x.pieceLen false
    let tier : OpKind := .tiercp 0x200000 0x300000 1 4096 0 0
    let far : OpKind := .tiercp 0x200000 0xFFFFFFFFFFFFF000 1 4096 0 0
    let lockTx : TxThread := { thread := 0, inTx := true, serial := true, due := false, count := 0, clashes := 0, status := 0, resume := 0, dst := 9
                               reads := [(0x200000, 0, 0)], writes := [] }
    let locked := { memS with pod := { memS.pod with tx := [lockTx] }, serial := some memS.pod.id }
    let answered (p : State → Op → Team → Bool) : Bool :=
      let s := runS memS tier 0
      let s := { s with ops := s.ops.map fun o : Op => { o with asks := [{ peer := 1, seq := 0, wr := true, off := 0, answer := some (false, []) }] } }
      match s.opTok 1, s.findTeam memS.pod.id.team with
      | some o, some t => o.state == .running && o.answered && !o.cancel && p s o t
      | _, _ => false
    let stop : State := { runS memS tier 0 with ops := (runS memS tier 0).ops.map fun o : Op => { o with cancel := true } }
    allOk [(match stop.opTok 1 with | some o => o.answered && o.cancel && o.part == 0 && o.asks.isEmpty | none => false),
      runB memS (cpy [part 0x200000 0x100000 0 none]) 0 fun s o t => match move 0x200000 s o t with | .moved _ => true | _ => false,
      runB memS (cpy [part 0xFFFFFFFFFFFFF000 0x100000 0 none]) 0 fun s o t => match move 0xFFFFFFFFFFFFF000 s o t with | .failed _ _ _ => true | _ => false,
      runB locked (cpy [part 0x200000 0x100000 0 none]) 0 fun s o t => match move 0x200000 s o t with | .blocked => true | _ => false,
      ([part 0x200000 0x100000 8 none].all fun x => x.fault.isNone && decide (x.len ≤ x.done)),
      ([part 0x200000 0x100000 0 none].find? CopyPart.open_).isSome,
      runB memS (cpy [part 0x200000 0x100000 0 (some (.protection, 0x200000))]) 0 fun _ _ _ => true,
      answered fun s _ _ => match tierPage 1 1 s with | .moved u => (u.opTok 1).isSome | _ => false,
      runB memS far 0 fun s _ _ => match tierPage 1 1 s with | .failed _ _ _ => true | _ => false] = true := by decide +kernel

theorem witness_matrixOperations :
    let f := fq 722 32 z 0 0x190 0x100
    let m := matS.newMatrix f 0
    let g := { m with fired := true }
    allOk [runB matS (.matrix m) 0 fun s o t => s.canFire o m t 16 && (s.findPod o.pod).isSome,
      runB matS (.matrix g) 0 fun s o _ => (s.earlier o).isEmpty && dKind g.descB != 3, runB matS (.matrix g) 8 fun _ _ _ => true] = true := by
  decide +kernel

theorem witness_streams :
    let dense : BitVec 256 := BitVec.ofNat 256 (4 + 2 * 256 + 2 ^ 16 + 4 * 2 ^ 32 + 2 ^ 192)
    let full := ringS.setTeam { ringS.team with rings := [fullRing 3, fullRing 1] }
    let local_ : State := { ringS.wrAll (run 0x2008 8) (toBytes 8 0x40_0000_0373) with acc := ringS.acc ++ ringS.acc.map fun x => (targetStack 0 * 64, x.2) }
    let rrdq : OpKind := .rrdq 0 0x100000 2 none
    let rrdqUe : OpKind := .rrdq 0 0x100000 2 (some 1)
    let asked : State := { runS ringS rrdq 0 with ops := (runS ringS rrdq 0).ops.map fun o : Op =>
      { o with asks := [{ peer := 1, seq := 0, wr := false, off := 0, answer := some (false, [1, 2, 3, 4]) }] } }
    let subs : OpKind := .subs 0 0x4000_0000 8 8 2
    let drainOp : OpKind := .drainq 1 0x4000_0000 2
    let okAnd {α : Type} (x : Except (Cause × Dword) α) (p : α → Bool) : Bool := match x with | .ok y => p y | .error _ => false
    allOk [runB full (.mvs 1 dense 0 1 0 false [] 0) 0 fun _ _ t => (match t.ring 0 with
        | some x => decide (xUnits x (dPitch dense) ≤ x.occ) && x.bad.isEmpty
        | none => false),
      runB full (.mvs 1 dense 0 1 0 true [0, 0] 0) 0 fun _ _ _ => true, runB full (.svs 1 dense 1 0 0) 0 fun _ _ _ => true,
      (match asked.opTok 1 with | some o => o.answered && !o.refused && !o.asks.isEmpty | none => false),
      runB ringS rrdq 0 fun _ _ t => (match t.ring 0 with | some x => x.nextFits | none => false),
      runB ringS rrdqUe 0 fun _ _ t => (match t.ring 0 with | some x => x.prd == x.pub && x.room != 0 | none => false),
      runB local_ subs 0 fun s o t => (match t.ring 0 with
        | some x =>
          let w := s.stackAt t o.core 0x4000_0000 .rd
          let u := w.2.stackPlace t o.core .rd w.1 (8 / 4096 + 2) 0x4000_0000 8
          decide (8 / x.esize ≤ x.room) && okAnd u.1 fun pas => !u.2.poisoned pas && pas.all fun pa => !(areaOf pa).isPeer
        | none => false),
      runB local_ drainOp 0 fun s o t => (match t.ring 1 with
        | some x =>
          let w := s.stackAt t o.core 0x4000_0000 .wr
          let u := w.2.stackPlace t o.core .wr w.1 2 0x4000_0000 x.esize
          x.occ != 0 && !x.badAt x.con && okAnd u.1 fun pas => pas.all fun pa => stackLocal pa && !u.2.lockedLine (lineOf pa)
        | none => false)] = true := by decide +kernel

/-- A grid of one team, all of it placed. -/
def grid1 : Grid :=
  { id := 1, parent := none, depth := 0, queue := 0, prio := 0, asn := 0, ptroot := 0x1000, acorn := false, taken := 0
    packet := { khdr := 0x10000, nx := 1, ny := 1, nz := 1, args := 0, start := 0, compl := 0, prec := 0, iters := 0, itpt := 0, barrier := false
                intr := false, fetch := false, prio := 0, depth := 0 }
    kernel := memS.team.kernel, unplaced := [], unexited := 1, children := 0, status := 0, source := none }

def gridS : State := { queueS with grids := [grid1], nextGrid := 2 }

def coll1 (gbar : Bool) : Collective :=
  { id := 5, gbar := gbar, span := 0, chan := 0, key := [1], index := 0, slice := .access
    joins := [{ pod := gridS.pod.id, token := 1, desc := 0x080, flags := 0, gets := true, reg := some 10, active := full 16, vals := [] }] }

theorem witness_collectivesComplete :
    let s (g : Bool) : State := { runS gridS (if g then .gbar 5 else .coll 5) 0 with colls := [coll1 g] }
    let i : CollInst := { slice := .access, scan := false, desc := 0x040, flags := 0, toK := false
                          parts := [{ pod := 0, dst := 10, eff := full 16, vals := [] }], dead := false }
    let atI : State := { gridS with pod := { gridS.pod with arrived := true, wait := some ⟨.coll, 0, none, 0⟩ }, team := { gridS.team with insts := [i] } }
    let wait : State := { (runS gridS (.coll 5) 0 : State) with pod := { gridS.pod with h := [(2, 1)], wait := some ⟨.handle, 0, none, 0⟩ }, grids := [{ grid1 with unplaced := [1] }], cycle := 10 ^ 6 }
    let late : State := { wait with ops := wait.ops.map fun o : Op => { o with readAt := some 0 } }
    allOk [((s false).colls.find? fun c => c.id = 5 && !c.gbar) == some (coll1 false), ((s false).collOrder (coll1 false)).isSome,
      ((s true).colls.find? fun c => c.id = 5 && c.gbar) == some (coll1 true), (s true).gbarFull (coll1 true),
      ((s true).opTok 1).map Op.state == some .running,
      (atI.collReady atI.team.id .access).isSome, (late.findPod late.pod.id).map late.parkDue == some true,
      late.team.place == .resident && late.team.saving.isNone && !late.team.kernel.shadow,
      (gridS.findPod gridS.pod.id).isSome && 10 + collUnit (collTyOf 0) * (if collInt (collTyOf 0) then 1 else collElems (collTyOf 0)) ≤ 1024] = true := by
  decide +kernel

/-! ## Witnesses: events of the distributor -/

/-- A dirty line at 0x100. -/
def line1 : Line := { roff := 0, half := 0, va := 256, pa := 256, explicit := false, filled := true, dirty := 1, bytes := 7, written := 0 }

theorem witness_phases :
    let put (p : Pod) (t : Team) (c : Nat) : State := { gridS with pod := p, team := t, cycle := c }
    let gone := { memS.pod with exited := full 16 }
    let phased := { memS.pod with phased := true }
    let closing (prec : Dword) := put phased { memS.team with prec := prec } 0
    let late := put memS.pod { memS.team with place := .nextPhase 0, stash := [line1] } 5000
    let left := put { gone with done := true } memS.team 0
    let ends (s : State) := match s.findTeam memS.team.id with
      | some x => s.phaseOver x && !x.uncompared && (x.prec == 0 || (s.writeSpan x x.core x.recordAt (x.recordBytes (s.orderedPods x.id))).1.isSome)
      | none => false
    let exits (s : State) := match s.findTeam memS.team.id with
      | some x =>
        let u := ((s.commitLines x.id).commitReductions x.id).onTeam x.id fun y => { y.keepDirty with place := .exiting }
        s.exitDue x && !x.uncompared && !u.owesPeers x.id && (match u.findTeam x.id with
          | some y => !y.holdsDirty && y.rcb.isEmpty
          | none => true)
      | none => false
    let retired := { gridS with grids := [{ grid1 with unexited := 0 }] }
    allOk [gone.exitReady, ends (closing 0x100000), ends (closing 0), (closing 0).team.prec == 0, (late.findTeam late.team.id).map late.placeLate == some true,
      exits left, (retired.grids.find? fun x => x.id = 1).map Grid.over == some true] = true := by decide +kernel

theorem witness_aborts :
    let t (irrev : Bool) : Team := { memS.team with irrev := irrev, saving := some .abort }
    let copy (c : Nat) (sum : Dword) (single : Bool) (sums : List Dword) : Team :=
      { memS.team with id := { memS.team.id with copy := c }, kernel := { memS.team.kernel with shadow := true, restart := true }
                       place := .compared sum, single := single, sums := sums }
    let two (b : Dword) : State := { memS with team := copy 0 7 false [], teams := [copy 1 b false []] }
    let id := memS.team.id
    let same (s : State) (e : Bool) := match s.findTeam id, s.findTeam id.other with
      | some x, some y => (match x.place, y.place with
        | .compared a, .compared b => !x.single && decide (id.copy = 0) && (a == b) == e
        | _, _ => false)
      | _, _ => false
    let put (x : Team) : State := { memS with team := x }
    allOk [(put (t false)).abortDue (t false), (memS.findTeam id.other).isNone, (put (t true)).abortDue (t true) && !(t true).kernel.shadow, same (two 7) true, same (two 8) false,
      (copy 0 7 true [7, 8]).sums.contains 7, memS.allPods.any fun p => p.id.team == id] = true := by decide +kernel

theorem witness_saves :
    let t (s : Saving) : Team := { memS.team with saving := some s }
    let s1 := { queueS with team := t .preempt }
    let shadow := { t .preempt with kernel := { memS.team.kernel with shadow := true, restart := true } }
    let stopped : State := { queueS with team := { t .park with stopped := true } }
    let empty : State := { gridS with team := Team.blank noTeam Kernel.blank, pod := Pod.blank ⟨noTeam, .access, 0⟩ 0
                                      teams := [{ memS.team with place := .resumed 0x400000 }] }
    let e (n : Nat) : EscRecord := { team := memS.team.id, bytes := List.replicate 36 0 ++ toBytes 4 n ++ List.replicate 24 0 }
    let esc (n : Nat) (head : Word) : State := { memS with escPending := [e n], escbase := 0x500000, escsize := 2, eschead := head }
    allOk [s1.saveDue s1.team && !s1.team.kernel.shadow, ({ queueS with team := shadow } : State).saveDue shadow && shadow.kernel.shadow, (stopped.poolEntry stopped.team.queue).isSome && stopped.saveSettled stopped.team,
      (empty.teamIn 0x400000).isSome && (match empty.teamIn 0x400000, empty.firstFor 0 with
        | some x, some i => i.team == x.id && i.kind == .context
        | _, _ => false),
      (esc 1 3).nextEsc == some (e 1) && (esc 1 3).escRoom, (esc 1 4).nextEsc == some (e 1) && !(esc 1 4).escRoom] = true := by decide +kernel

/-- A kernel header at 0x10000: an access pod of 16 threads whose code is 48 bytes at 48000. -/
def headerBytes : List Byte :=
  toBytes 4 0x4B334844 ++ toBytes 2 3 ++ [3, 16] ++ toBytes 6 0 ++ [0, 1] ++ toBytes 4 0 ++ toBytes 2 32 ++ toBytes 10 0 ++ toBytes 8 48000 ++
    toBytes 8 48000 ++ toBytes 4 48

/-- A queue that is mapped and whose packet at 0x300000 names that kernel with so many teams. -/
def packetS (nx : Nat) : State :=
  let s := queueS.wrAll (run 0x10000 52) headerBytes
  let s := s.wrAll (run 0x300000 16) (toBytes 8 0x10000 ++ toBytes 4 nx ++ toBytes 2 1 ++ toBytes 2 1)
  { s with queues := [{ queue0 with tail := 1, mapped := some 0 }] }

theorem witness_workQueues :
    let takes (nx : Nat) (ok : Bool) := match (packetS nx).findQueue 0 with
      | some x =>
        let s := packetS nx
        let b := s.rdBytes 0x300000 64
        let pk := packetFrom b false
        let r := (packetTaken s x).readKernel x pk.khdr
        s.takeDue x && !s.poisoned (run 0x300000 64) && x.parents.isEmpty && packetOk b pk (x.mode == 1) == ok &&
          (!ok || match r.1 with
            | some k => privileged x k && x.mode != 1 && r.2.covers k 0
            | none => false)
      | none => false
    let q := queueS.findQueue 0
    allOk [(match q with | some x => x.enabled && 0 < ((1 : Word) - x.tail).toNat && ((1 : Word) - x.head).toNat ≤ 2 ^ x.lsize | none => false),
      takes 4 true, takes 0 false, ({ queueS with cycle := 2 * quantumCycles } : State).quantumDue] = true := by decide +kernel

theorem witness_queueCommands :
    let desc (mode : Byte) (n : Nat) : State :=
      let s := memS.wrAll (run 0x380000 11) (toBytes 8 0x300000 ++ [8, 0, mode])
      { s with wqbase := 0x380000, queues := List.replicate n { queue0 with q := 1, mode := 1 } }
    let ok (s : State) := (s.findQueue 0).isNone && descFits (s.rdBytes 0x380000 64)
    let split (s : State) := (s.queues.filter fun x => x.enabled && x.mode == 1).length
    let named (s : State) := s.namedTeams 1 0
    let away : State := { memS with team := { memS.team with place := .parked 0x400000 } }
    let back : State := { memS with team := { memS.team with place := .resumed 0x400000 } }
    allOk [(queueS.findQueue 0).elim false Queue.enabled, (memS.findQueue 0).isNone && !descFits (memS.rdBytes 0x380000 64), ok (desc 0 0),
      ok (desc 1 2) && split (desc 1 2) == 2, ok (desc 1 256) && split (desc 1 256) == 256, (named memS).any (fun _ => true) && memS.teamExists 1 0,
      residentIn (named memS), away.teamExists 1 0 && !residentIn (named away), !memS.teamExists 7 0, (memS.teamIn 0x400000).isNone,
      (away.teamIn 0x400000).isSome && away.team.id.grid != 0 && !away.team.kernel.shadow, (back.teamIn 0x400000).isSome] = true := by decide +kernel

theorem witness_placing :
    let q := { queue0 with mapped := some 0 }
    let empty (g : Grid) (ts : List Team) : State :=
      { queueS with queues := [q], grids := [g], nextGrid := 3, team := Team.blank noTeam Kernel.blank, pod := Pod.blank ⟨noTeam, .access, 0⟩ 0, teams := ts }
    let first := empty { grid1 with unplaced := [0] } []
    let next := empty grid1 [{ memS.team with place := .nextPhase 0 }]
    let f : State := { queueS with queues := [q], team := { memS.team with mailboxes := [32] }, grids := [grid1] }
    let g : State := { f with grids := [grid1, { grid1 with id := 2, unplaced := [0], packet := { grid1.packet with fetch := true, khdr := memS.team.kernel.khdr } }] }
    let split : State := { f with queues := [{ q with mode := 1 }] }
    let asks (s : State) (m : Nat) := match s.findTeam memS.team.id with
      | some x => x.place == .resident && x.mailboxes == [32] && (s.findGrid 1).isSome && match s.findQueue x.queue with
        | some y => s.serves y && y.mode == m
        | none => false
      | none => false
    allOk [(match first.firstFor 0 with | some i => i.kind == .first && (first.park.findGrid i.team.grid).isSome | none => false),
      (match next.firstFor 0 with
        | some i => i.kind == .next && (match next.park.findTeam i.team with
          | some x => (next.park.leaveCore x 0).1.isSome
          | none => false)
        | none => false), (memS.findTeam memS.team.id).isSome && memS.team.start.toNat ≤ memS.time.toNat && memS.team.place == .resident, asks f 0, asks split 1,
      (f.fetchGrid f.team).isNone, asks g 0, (g.fetchGrid g.team).isSome] = true := by decide +kernel

/-- ACORNST reads 1; a pod at its launch. -/
theorem witness_tokens : ({ memS with acornst := true } : State).acornst = true ∧ memS.team.launchPods 0 ≠ [] := by decide +kernel

theorem witness_fencing :
    let q := { queue0 with pri := 3 }
    let k := { memS.team.kernel with winnow := true, pinned := true }
    let late : State := { gridS with grids := [{ grid1 with id := 2, kernel := k, unplaced := [0] }], cycle := 2 * winnowWait }
    allOk [q.enabled && q.super && decide (q.untaken < 2 ^ q.lsize) && decide (q.lsize ≤ 16), (late.youngest 0).isSome,
      (match late.findGrid 2 with
        | some g => g.kernel.winnow && g.kernel.pin == 0 && !g.unplaced.isEmpty && decide (g.taken + winnowWait ≤ late.cycle)
        | none => false)] = true := by decide +kernel

/-! ## Witnesses: events of memory, of the registers, of the Husk and of the fabric -/

theorem witness_memoryEvents :
    let s := accS.wrAll (run 0x2000 8) (toBytes 8 0x73)
    let stale (p : List Nat) : State := { accS with stale := [(256, 5)], poison := p }
    allOk [decide (s.husk.c = 0) && canonical 0x100000, (match s.walk 0x100000 3 0x1000 with
        | .ok l => withAD l.pte false != l.pte
        | .error _ => false),
      (stale []).stale.any fun x => lineOf x.1 == 256, (stale [260]).poison.any fun a => lineOf a == 256, accS.writable (run 256 4),
      (areaOf (peerBase + peerSize)).isPeer && !accS.writable (run (peerBase + peerSize) 4),
      (accS.accOk targetL2 3 256 4 false true).1, (accS.accOk targetL2 3 256 1 true false).1, !accS.xlbusy,
      ({ accS with xlbusy := true } : State).xlbusy] = true := by decide +kernel

/-- The access tables admit everyone to the registers, or the MC alone. -/
theorem witness_registerEvents :
    let all : Region := { base := 0, limit := BitVec.ofNat 64 (2 ^ 52 - 1), rmask := BitVec.ofNat 128 (2 ^ 128 - 1)
                          wmask := BitVec.ofNat 128 (2 ^ 128 - 1) }
    let open_ : State := { accS with acc := accS.acc ++ [(targetMmio * 64, all)], dbgFifo := [7] }
    let mc : State := { open_ with acc := accS.acc ++ [(targetMmio * 64, { all with rmask := 2 ^ 64, wmask := 2 ^ 64 })] }
    let ok : State := { accS with husk := { accS.husk with mcOk := true } }
    let may (s : State) (master off : Nat) (wr : Bool) := (s.accOk targetMmio master (mmioBase + off) 8 (!wr) wr).1
    allOk [decide (((0 : Word) - accS.esctail).toNat ≤ (accS.eschead - accS.esctail).toNat), open_.dbgFifo == [7], may open_ 65 0x10_0200 false,
      !may mc 65 0x10_0200 false, may mc 64 0x10_0200 false, may open_ 64 0x210 true, may open_ 64 0x208 true, may open_ 64 0 true,
      (match regAt 0x210 with | some r => (open_.reachesReg r 64 (mmioBase + 0x210) 8).1 | none => false), open_.husk.h != 3,
      bits (1 : Dword).toNat 0 3 == 1, ok.husk.mcOk] = true := by decide +kernel

/-- The Husk in each state with verified firmware, and a target of H0. -/
theorem witness_huskStates :
    let s (h t : BitVec 2) : State := { accS with husk := { accS.husk with h := h, htgt := t, mcOk := true } }
    allOk [(s 2 2).husk.h == 2 && (s 2 2).husk.mcOk, (s 1 1).husk.h == 1, (s 1 0).husk.htgt == 0, (s 0 0).husk.h == 0, (s 3 3).husk.h == 3] = true := by
  decide +kernel

theorem witness_dieStates :
    let s (c : BitVec 2) : State := { accS with husk := { accS.husk with c := c, mcOk := true, dieOk := [2, 3, 4], hold := 1 }, cycle := 2 * msCycles }
    allOk [decide ((s 3).husk.c = 3) && (s 3).husk.mcOk, decide ((s 0).husk.c = 0), decide ((s 2).husk.c = 2) && (s 2).husk.imagesOk, (s 0).silent,
      decide ((s 1).husk.c = 1) && (s 1).husk.hold != 0 && decide ((s 1).husk.hungAt + (s 1).husk.hold.toNat * msCycles ≤ (s 1).cycle),
      (s 0).husk.h != 3, !(s 0).husk.accepts [] []] = true := by decide +kernel

/-- The header of firmware of the MC with an empty payload, whose digest is a given one, and an image of it. -/
def header0 : List Byte := toBytes 4 0x4A4D4657 ++ toBytes 2 1 ++ toBytes 18 0
def image0 (digest : Nat) : List Byte := (header0 ++ (toBytes 32 digest ++ toBytes 8 0)) ++ List.replicate sigBytes 0

theorem ofBytes_of_toBytes (n v : Nat) : ofBytes (toBytes n v) = v % 256 ^ n := by
  induction n generalizing v with
  | zero => simp [toBytes, ofBytes, Nat.mod_one]
  | succ n ih => rw [toBytes, ofBytes, ih, BitVec.toNat_ofNat, show 2 ^ 8 = 256 from rfl, show 256 ^ (n + 1) = 256 * 256 ^ n from Nat.pow_succ', Nat.mod_mul]

theorem length_of_toBytes (n v : Nat) : (toBytes n v).length = n := by induction n generalizing v <;> simp [toBytes, *]

/-- That image is accepted where the verifier and the digests, which the manual takes from elsewhere, agree with it. -/
theorem witness_images (key : List Byte) (n : key.length = 32) (d : Config.sha256 key = Config.keyDigest 0)
    (v : Config.slhVerify key ((image0 (Config.sha256 []).toNat).take 64) (((image0 (Config.sha256 []).toNat).drop 0x40).take sigBytes) = true) :
    accS.husk.accepts (image0 (Config.sha256 []).toNat) key = true := by
  have l0 : header0.length = 24 := rfl
  have head : ∀ x, (image0 x).take 64 = header0 ++ (toBytes 32 x ++ toBytes 8 0) := fun x => List.take_left' (by simp [l0, length_of_toBytes])
  have size : ∀ x, (image0 x).length = 0x1EF0 := fun x => by
    simp only [image0, List.length_append, length_of_toBytes, List.length_replicate, l0, sigBytes]
  have low : ∀ x o m, o + m ≤ 24 → field ((image0 x).take 64) o m = field header0 o m := fun x o m h => by
    rw [head, field, field, List.drop_append_of_le_length (by omega), List.take_append_of_le_length (by simp [l0]; omega)]
  have after : ∀ x o, 24 ≤ o → ((image0 x).take 64).drop o = (toBytes 32 x ++ toBytes 8 0).drop (o - 24) := fun x o h => by
    rw [head, List.drop_append, List.drop_of_length_le (by omega), l0, List.nil_append]
  have last : ∀ x o, 56 ≤ o → ((image0 x).take 64).drop o = (toBytes 8 0).drop (o - 56) := fun x o h => by
    rw [after x o (by omega), List.drop_append, List.drop_of_length_le (by rw [length_of_toBytes]; omega), length_of_toBytes, List.nil_append]
    exact congrArg (fun n => List.drop n _) (by omega)
  have digest : ∀ x : BitVec 256, field ((image0 x.toNat).take 64) 0x18 32 = x.toNat := fun x => by
    rw [field, after _ _ (by decide), List.drop_zero, List.take_left' (length_of_toBytes 32 _), ofBytes_of_toBytes]
    exact Nat.mod_eq_of_lt x.isLt
  have body : ∀ x, (image0 x).drop 0x1EF0 = [] := fun x => List.drop_of_length_le ((Nat.le_of_eq (size x)))
  have req : ∀ x, field ((image0 x).take 64) 0x38 4 = 0 := fun x => by rw [field, last _ _ (by decide)]; rfl
  have spare : ∀ x, zeros ((image0 x).take 64) 0x3C 4 = true := fun x => by rw [zeros, last _ _ (by decide)]; rfl
  unfold Husk.accepts
  simp only [low _ 0x10 8 (by decide), low _ 0 4 (by decide), low _ 4 2 (by decide), low _ 6 2 (by decide), low _ 0xC 4 (by decide), digest, size, body,
    req, spare, List.take_nil, v, n]
  rw [show field header0 6 2 = 0 by decide +kernel, d, BitVec.ofNat_toNat, BitVec.setWidth_eq]
  simp only [beq_self_eq_true, Bool.and_true]
  decide +kernel

/-- A link that is up, with credit in every channel. -/
def link0 : Link := { Link.blank 0 with up := true, credits := (List.range 8).map fun v => (v, 4) }

def linkS (l : Link) : State := { accS with links := [l], husk := { accS.husk with h := 0 } }

theorem witness_links :
    let f (ok : Bool) (n : BitVec 11) : Flit := { lseq := n, lack := 0, vc := 0, cvc := 1, cred := 2, crcOk := ok, payload := true }
    let l := (linkS link0).linkOf 0
    allOk [l == link0, l.up, decide ((linkS link0).husk.h.toNat < 2), (f true 0).lseq == l.expect, (f true 1).lseq != l.expect, !(f false 0).crcOk,
      !((accS.linkOf 0).up), 16 ≤ ((linkS { link0 with retries := 16 }).linkOf 0).retries, !l.starved 1 && !l.starved 2,
      l.ofClass 1 0 == some 0, l.ofClass 2 0 == none && (l.ofClass 2 1).isSome,
      ({ link0 with s1 := 32 } : Link).starved 1 && (({ link0 with s1 := 32 } : Link).ofClass (-1) 2).isSome,
      ({ link0 with s2 := 128 } : Link).starved 2 && (({ link0 with s2 := 128 } : Link).ofClass (-1) 3).isSome] = true := by decide +kernel

/-- The number of another package of the group. -/
def peer : Nat := if Config.pkg.toNat = 0 then 1 else 0

theorem witness_peer : isPort peer = true ∧ peer < 16 ∧ peer ≠ Config.pkg.toNat ∧ (peer = 0 ∨ peer = 1) := by
  unfold isPort peer
  split <;> simp_all <;> omega

/-- A request of peer `p`, at an address of the window. -/
def request (p : Nat) (k : ReqKind) : Message := { src := p, dst := Config.pkg.toNat, seq := 1, vc := 0, relay := none, bounced := false, pa := 0x100000, kind := k }

/-- A load and a store of a peer that are admitted, one of them again, at a closed port, at a locked line, and where no table admits it. -/
theorem witness_requests : ∀ p, p = 0 ∨ p = 1 →
    let s := linkS link0
    let a := request p (.load 4)
    let b := request p (.store [1, 2, 3, 4] [true, true, true, true])
    let tx : TxThread := { thread := 0, inTx := true, serial := true, due := false, count := 0, clashes := 0, status := 0, resume := 0, dst := 9
                           reads := [(0x100000, 0, 0)], writes := [] }
    let locked : State := { s with pod := { s.pod with tx := [tx] }, serial := some s.pod.id }
    let closed : State := { s with husk := { s.husk with c := 1 } }
    allOk [s.portOpen, decide (s.husk.h.toNat < 2), (s.doneBefore a.src a.seq).isNone, !s.lockedParts a, !s.lockedParts b,
      locked.lockedParts b && locked.accepted.isEmpty, !closed.portOpen && decide (closed.husk.h.toNat < 2) && (closed.doneBefore a.src a.seq).isNone,
      (s.admits (80 + a.src) (partsOf a)).1, (s.admits (80 + b.src) (partsOf b)).1, !(({ s with acc := [] } : State).admits (80 + a.src) (partsOf a)).1,
      (match (s.serve b).1 with | .done _ => true | _ => false),
      ({ s with e2eDone := [(p, 1, [], s.cycle)] } : State).doneBefore a.src a.seq == some []] = true := by
  rintro p (rfl | rfl) <;> decide +kernel

/-- Requests to peer 1 that are outstanding, of this generation and of an earlier one, with one retry and with all of them; an Ultra Ethernet packet
that writes. -/
theorem witness_responses :
    let o (n : Nat) (g : Word) : OutReq := { dst := 1, seq := 5, dgen := g, resent := n, pa := 256, vc := 0, relay := none, pod := none, team := none, kind := .load 4 }
    let s (n : Nat) (g : Word) : State := { linkS link0 with outReq := [o n g] }
    let r : Response := { src := 1, seq := 5, dgen := accS.husk.dgen, refused := false, data := [1, 2, 3, 4] }
    let u : UePacket := { flow := 1, crcOk := true, pa := 256, write := some [1, 2, 3, 4], len := 4 }
    let ue : State := { linkS link0 with husk := { (linkS link0).husk with ueUp := true } }
    allOk [(accS.outReq.isEmpty), ((s 1 accS.husk.dgen).outReq.find? fun o => o.dst == r.src && o.seq == r.seq) == some (o 1 accS.husk.dgen),
      (o 1 accS.husk.dgen).dgen == (s 1 accS.husk.dgen).husk.dgen && r.dgen == (s 1 accS.husk.dgen).husk.dgen, (o 3 7).dgen != (s 3 7).husk.dgen,
      3 ≤ (o 3 7).resent, ue.husk.ueUp && ue.husk.h == 0 && ue.husk.c == 0, (run u.pa 4).all fun pa => !ue.lockedLine (lineOf pa),
      (ue.admits (96 + u.flow.toNat) [(u.pa, 4, false, true)]).1, !({ u with crcOk := false } : UePacket).crcOk] = true := by decide +kernel

/-! ## Witnesses: the machine as a whole -/

/-- A machine whose one queue is mapped and that no pod runs on. -/
def vacant (g : Grid) (ts : List Team) : State :=
  { queueS with queues := [{ queue0 with mapped := some 0 }], grids := [g], nextGrid := 3, team := Team.blank noTeam Kernel.blank
                pod := Pod.blank ⟨noTeam, .access, 0⟩ 0, teams := ts }

/-- An event from outside, and each kind of move of a step. -/
theorem witness_steps :
    let ev : State := { accS with inputs := [.timeBaseSync 5] }
    let k := { memS.team.kernel with pinned := true }
    let beats : State := { State.reset with husk := { State.reset.husk with c := 0, beat := (List.range 63).map fun i => (i, 1000000) }, cycle := 1000000 }
    let picks (s : State) (m : Option Move) := s.advance.inputs.isEmpty && s.advance.pick.1 == m
    allOk [ev.advance.inputs.length == 1 && (Instr.timeBaseSync 5).isEvent, picks accS (some (.pod accS.pod.id)),
      picks { State.reset with accBusy := true } (some (.event .accessTableUpdateDone)),
      picks (vacant { grid1 with unplaced := [0], kernel := k } []) (some (.place ⟨1, 0, 0⟩ 0)),
      picks (vacant { grid1 with kernel := k } [{ memS.team with place := .resumed 0x400000, kernel := k }]) (some (.restore 0x400000 0)),
      picks beats (some (.beat 63)), picks State.reset none] = true := by decide +kernel

/-- A word that decodes, and one of an opcode that is not assigned. -/
theorem witness_fetch :
    let ok (s : State) (w : IWord) (e : Bool) := match (s.switchTo s.pod.id).fetch with
      | (.word x, u) => x == w && !(s.switchTo s.pod.id).planted && s.pod.pc.toNat % 12 == 0 && (decodeMode u.team.kernel.decode w).toOption.isSome == e
      | _ => false
    allOk [ok accS 0 true, ok (State.reset.withFetchWord 96 (0x2E0 * 2 ^ 86)) (BitVec.ofNat 96 (0x2E0 * 2 ^ 86)) false] = true := by decide +kernel

theorem witness_memoryStep : Memory.wf accS.mem = true ∧ (match step accS with | .next t => Memory.wf t.mem | _ => false) = true := by
  decide +kernel

/-- The address 0x40000000 in k2:k3, on a page of the window of peer `p`, and a count of 2 in k4. -/
def peerS (p : Nat) : State :=
  (ringS.wrAll (run 0x2008 8) (toBytes 8 (peerBase + p * peerSize + 0x373))).setPod { ringS.pod with k := [(2, 0x4000_0000), (4, 2)] }

def rrdqForm : FormQ := fq 720 642 644 z 0 0

def rrdqSpec (s : State) : Spec := accessOnly { pod := true, dst := some (hDst rrdqForm.dst), bad := portBad (s.portName (descPort rrdqForm)) fun _ => false
                                                srcs := [kPair 1 rrdqForm.a, uniSrc 2 (.code rrdqForm.b), { field := 3, arg := .code rrdqForm.c, acc := [.k, .zero] }] }

def rrdqCtx (p : Nat) : Ctx := issueCtx (peerS p) h0 (rrdqSpec (peerS p))

/-- A read of a page of another package's window, by a core with no cached entry of it. -/
theorem translates (s : State) (t : Team) (core at_ pa pte p off : Nat) (va : Dword) (w : s.walk va 3 t.ptroot = .ok ⟨2, pte, at_⟩)
    (ws : s.walks t.asn va t.ptroot = [.ok ⟨2, pte, at_⟩]) (old : s.oldLeaves t.asn core va .rd (.ok ⟨2, pte, at_⟩) = [])
    (flat : canonical va = true) (l : leafPa 2 pte va = pa) (a : areaOf pa = .peer p off) (r : bit pte 4 = true) (u : bit pte 7 = false)
    (d : withAD pte false = pte) (n : p ≠ Config.pkg.toNat) :
    s.translate t core va .rd = (.ok pa, (s.fillWalks t.asn va 3 t.ptroot).fillTlb core t.asn va 2 pte) := by
  simp [State.translate, State.translateX, State.useLeaf, State.leafCheck, Access.reads, Access.writes, w, ws, old, flat, l, a, r, u, d, n]

/-- The state after that read: its entries are cached. -/
def rdDone (p : Nat) : State :=
  let c := rrdqCtx p
  (c.s.fillWalks c.s.team.asn (c.addr 0 0) 3 c.s.team.ptroot).fillTlb c.s.core c.s.team.asn (c.addr 0 0) 2 (peerBase + p * peerSize + 0x373)

theorem witness_peerPage (p : Nat) (hp : p = 0 ∨ p = 1) (n : p ≠ Config.pkg.toNat) :
    let c := rrdqCtx p
    c.s.translate c.s.team c.s.core (c.addr 0 0) .rd = (.ok (peerBase + p * peerSize), rdDone p) := by
  have walk : (match (rrdqCtx p).s.walk ((rrdqCtx p).addr 0 0) 3 (rrdqCtx p).s.team.ptroot with
      | .ok l => decide (l = ⟨2, peerBase + p * peerSize + 0x373, 0x2008⟩)
      | .error _ => false) = true := by rcases hp with rfl | rfl <;> decide +kernel
  have walks : (match (rrdqCtx p).s.walks (rrdqCtx p).s.team.asn ((rrdqCtx p).addr 0 0) (rrdqCtx p).s.team.ptroot with
      | [.ok l] => decide (l = ⟨2, peerBase + p * peerSize + 0x373, 0x2008⟩)
      | _ => false) = true := by rcases hp with rfl | rfl <;> decide +kernel
  have old : (rrdqCtx p).s.oldLeaves (rrdqCtx p).s.team.asn (rrdqCtx p).s.core ((rrdqCtx p).addr 0 0) .rd
      (.ok ⟨2, peerBase + p * peerSize + 0x373, 0x2008⟩) = [] := by rcases hp with rfl | rfl <;> decide +kernel
  have flat : canonical ((rrdqCtx p).addr 0 0) = true ∧
      leafPa 2 (peerBase + p * peerSize + 0x373) ((rrdqCtx p).addr 0 0) = peerBase + p * peerSize ∧
      areaOf (peerBase + p * peerSize) = .peer p 0 ∧ bit (peerBase + p * peerSize + 0x373) 4 = true ∧
      bit (peerBase + p * peerSize + 0x373) 7 = false ∧ withAD (peerBase + p * peerSize + 0x373) false = peerBase + p * peerSize + 0x373 := by
    rcases hp with rfl | rfl <;> decide +kernel
  unfold rdDone
  generalize rrdqCtx p = c at *
  generalize peerBase + p * peerSize + 0x373 = pte at *
  generalize peerBase + p * peerSize = pa at *
  split at walk
  · rename_i l e
    split at walks
    · rename_i l' e'
      exact translates _ _ _ _ _ _ _ _ _ (e.trans (congrArg Except.ok (of_decide_eq_true walk)))
        (e'.trans (congrArg (fun x => [Except.ok x]) (of_decide_eq_true walks))) old flat.1 flat.2.1 flat.2.2.1 flat.2.2.2.1 flat.2.2.2.2.1
        flat.2.2.2.2.2 n
    · exact absurd walks (by decide)
  · exact absurd walk (by decide)

theorem witness_remoteRead (p : Nat) (hp : p = 0 ∨ p = 1) :
    let c := rrdqCtx p
    let v := rdDone p
    allOk [readyB (.rrdq h0 rrdqForm) h0 (rrdqSpec (peerS p)) (peerS p), c.s.portName (descPort rrdqForm) == some (0, ring 3),
      (c.addr 0 0).toNat % (ring 3).esize == 0 && !onWindow (c.addr 0 0), (areaOf (peerBase + p * peerSize)).isPeer, !(ring 3).att, v.pod == c.s.pod,
      freeB { c with s := v } rrdqForm.dst, okB (v.irrevocable v.pod.id.team) fun u => u.pod == v.pod && u.team == v.team && u.tlb == v.tlb, c.val 1 0 == 2] = true := by
  rcases hp with rfl | rfl <;> decide +kernel

/-! ## Decoding: one word of each opcode, laid out by the tables of R64 to R77 from the opcode map R99 -/

/-- Each of some words decodes to its instruction. -/
def wordsOk (l : List (IWord × Instr)) : Bool := l.all fun x => (decode x.1).toOption == some x.2

theorem test_decodeControlWords : wordsOk
   [(0x0000000000000000000000FF, .nop h0 { dst := 0, a := 0, b := 0, c := 0, smod := 0, mtgt := 0, flags := 0 }),
    (0x0040000000000000600000FF, .bra h0 { link := 0, a := 0, boff := 3, flags := 0 }),
    (0x0080000160000000000000FF, .brx h0 { link := 0, a := 11, boff := 0, flags := 0 }),
    (0x00C0050000000000600000FF, .call h0 { link := 10, a := 0, boff := 3, flags := 0 }),
    (0x0100050160000000000000FF, .callx h0 { link := 10, a := 11, boff := 0, flags := 0 }),
    (0x0140000160000000000000FF, .ret h0 { link := 0, a := 11, boff := 0, flags := 0 }),
    (0x0180000000000000000000FF, .exitT h0 { dst := 0, a := 0, b := 0, c := 0, smod := 0, mtgt := 0, flags := 0 }),
    (0x01C1410000000000600000FF, .loop h0 { link := 642, a := 0, boff := 3, flags := 0 }),
    (0x0200050160000000600000FF, .loopc h0 { link := 10, a := 11, boff := 3, flags := 0 }),
    (0x0240000000000000000000FF, .leave h0 { link := 0, a := 0, boff := 0, flags := 0 }),
    (0x0280000000000000000000FF, .phase h0 { dst := 0, a := 0, b := 0, c := 0, smod := 0, mtgt := 0, flags := 0 }),
    (0x02C0000000000000000000FF, .sync h0 { dst := 0, a := 0, b := 0, c := 0, smod := 0, mtgt := 0, flags := 0 }),
    (0x0300050160600000000000FF, .waitf h0 (.r { dst := 10, a := 11, b := 12, c := 0, smod := 0, mtgt := 0, flags := 0 })),
    (0x0340000000000000000000FF, .yield h0 { dst := 0, a := 0, b := 0, c := 0, smod := 0, mtgt := 0, flags := 0 }),
    (0x0380000000000000A80000FF, .sleep h0 { dst := 0, a := 0, imm := 5, interp := 1, flags := 0 }),
    (0x03C0000160000000A00000FF, .holdt h0 { dst := 0, a := 11, imm := 5, interp := 0, flags := 0 }),
    (0x0400000000000000A80000FF, .trap h0 { dst := 0, a := 0, imm := 5, interp := 1, flags := 0 }),
    (0x0440000000000000A80000FF, .brk h0 { dst := 0, a := 0, imm := 5, interp := 1, flags := 0 }),
    (0x0480000000000000000000FF, .rtt h0 { dst := 0, a := 0, b := 0, c := 0, smod := 0, mtgt := 0, flags := 0 }),
    (0x04C0000000600000000000FF, .clrc h0 (.r { dst := 0, a := 0, b := 12, c := 0, smod := 0, mtgt := 0, flags := 0 })),
    (0x0500000000600000000000FF, .setc h0 (.r { dst := 0, a := 0, b := 12, c := 0, smod := 0, mtgt := 0, flags := 0 })),
    (0x0540050160000000000000FF, .rdsr h0 { dst := 10, a := 11, b := 0, c := 0, smod := 0, mtgt := 0, flags := 0 }),
    (0x0580050000600000000000FF, .wrsr h0 (.r { dst := 10, a := 0, b := 12, c := 0, smod := 0, mtgt := 0, flags := 0 })),
    (0x05C0050160600000000000FF, .launch h0 { dst := 10, a := 11, b := 12, c := 0, desc := 0, flags := 0 }),
    (0x0600050000000000000000FF, .waitch h0 { dst := 10, a := 0, b := 0, c := 0, smod := 0, mtgt := 0, flags := 0 }),
    (0x0640000160000000000000FF, .fetchw h0 { dst := 0, a := 11, b := 0, c := 0, smod := 0, mtgt := 0, flags := 0 }),
    (0x0680050000000000000000FF, .time h0 { dst := 10, a := 0, b := 0, c := 0, smod := 0, mtgt := 0, flags := 0 }),
    (0x06C1FFD080700060000000FF, .icinv h0 { data := 1023, base := 644, index := 14, offset := 3, scope := 0, order := 0, atom := 0, size := 0, hint := 0, nf := false, typed := false, rsv := 0 }),
    (0x0700050000600000000000FF, .prio h0 (.r { dst := 10, a := 0, b := 12, c := 0, smod := 0, mtgt := 0, flags := 0 })),
    (0x0740050160600000000000FF, .halt h0 { dst := 10, a := 11, b := 12, c := 0, smod := 0, mtgt := 0, flags := 0 }),
    (0x0780050160600000000000FF, .resume h0 { dst := 10, a := 11, b := 12, c := 0, smod := 0, mtgt := 0, flags := 0 }),
    (0x07C0050160600000000000FF, .abortp h0 { dst := 10, a := 11, b := 12, c := 0, smod := 0, mtgt := 0, flags := 0 }),
    (0x0800050000600000000000FF, .acorn h0 (.r { dst := 10, a := 0, b := 12, c := 0, smod := 0, mtgt := 0, flags := 0 }))] = true := by decide +kernel

theorem test_decodeIntegerWords : wordsOk
   [(0x1000050160600000000000FF, .iadd h0 (.r { dst := 10, a := 11, b := 12, c := 0, smod := 0, mtgt := 0, flags := 0 })),
    (0x1040050160600000000000FF, .isub h0 (.r { dst := 10, a := 11, b := 12, c := 0, smod := 0, mtgt := 0, flags := 0 })),
    (0x1080050160600000009000FF, .iaddc h0 (.r { dst := 10, a := 11, b := 12, c := 0, smod := 0, mtgt := 0, flags := 9 })),
    (0x10C005016060000000A000FF, .isubb h0 (.r { dst := 10, a := 11, b := 12, c := 0, smod := 0, mtgt := 0, flags := 10 })),
    (0x1100050160600000000000FF, .imul h0 (.r { dst := 10, a := 11, b := 12, c := 0, smod := 0, mtgt := 0, flags := 0 })),
    (0x1140050160600000000000FF, .imulh h0 (.r { dst := 10, a := 11, b := 12, c := 0, smod := 0, mtgt := 0, flags := 0 })),
    (0x1180050160601A00000000FF, .imad h0 (.r { dst := 10, a := 11, b := 12, c := 13, smod := 0, mtgt := 0, flags := 0 })),
    (0x11C0050160600000000000FF, .idiv h0 (.r { dst := 10, a := 11, b := 12, c := 0, smod := 0, mtgt := 0, flags := 0 })),
    (0x1200050160600000000000FF, .irem h0 (.r { dst := 10, a := 11, b := 12, c := 0, smod := 0, mtgt := 0, flags := 0 })),
    (0x1240050160000000000000FF, .ineg h0 { dst := 10, a := 11, b := 0, c := 0, smod := 0, mtgt := 0, flags := 0 }),
    (0x1280050160000000000000FF, .iabs h0 { dst := 10, a := 11, b := 0, c := 0, smod := 0, mtgt := 0, flags := 0 }),
    (0x12C0050160600000000000FF, .imin h0 (.r { dst := 10, a := 11, b := 12, c := 0, smod := 0, mtgt := 0, flags := 0 })),
    (0x1300050160600000000000FF, .imax h0 (.r { dst := 10, a := 11, b := 12, c := 0, smod := 0, mtgt := 0, flags := 0 })),
    (0x1340050160601A00000000FF, .iclamp h0 (.r { dst := 10, a := 11, b := 12, c := 13, smod := 0, mtgt := 0, flags := 0 })),
    (0x1380050160601A00000000FF, .isad h0 (.r { dst := 10, a := 11, b := 12, c := 13, smod := 0, mtgt := 0, flags := 0 })),
    (0x13C0050160600000000000FF, .shl h0 (.r { dst := 10, a := 11, b := 12, c := 0, smod := 0, mtgt := 0, flags := 0 })),
    (0x1400050160600000000000FF, .shr h0 (.r { dst := 10, a := 11, b := 12, c := 0, smod := 0, mtgt := 0, flags := 0 })),
    (0x1440050160600000000000FF, .shra h0 (.r { dst := 10, a := 11, b := 12, c := 0, smod := 0, mtgt := 0, flags := 0 })),
    (0x1480050160600000000000FF, .rotl h0 (.r { dst := 10, a := 11, b := 12, c := 0, smod := 0, mtgt := 0, flags := 0 })),
    (0x14C0050160601A00000000FF, .shfd h0 (.r { dst := 10, a := 11, b := 12, c := 13, smod := 0, mtgt := 0, flags := 0 })),
    (0x1500050160600000000000FF, .andB h0 (.r { dst := 10, a := 11, b := 12, c := 0, smod := 0, mtgt := 0, flags := 0 })),
    (0x1540050160600000000000FF, .orB h0 (.r { dst := 10, a := 11, b := 12, c := 0, smod := 0, mtgt := 0, flags := 0 })),
    (0x1580050160600000000000FF, .xorB h0 (.r { dst := 10, a := 11, b := 12, c := 0, smod := 0, mtgt := 0, flags := 0 })),
    (0x15C0050160600000000000FF, .andn h0 (.r { dst := 10, a := 11, b := 12, c := 0, smod := 0, mtgt := 0, flags := 0 })),
    (0x1600050160000000000000FF, .notB h0 { dst := 10, a := 11, b := 0, c := 0, smod := 0, mtgt := 0, flags := 0 }),
    (0x1640050160601A00000000FF, .lop3 h0 { dst := 10, a := 11, b := 12, c := 13, desc := 0, flags := 0 }),
    (0x1680050160600000000000FF, .bfe h0 (.r { dst := 10, a := 11, b := 12, c := 0, smod := 0, mtgt := 0, flags := 0 })),
    (0x16C0050160601A00000000FF, .bfi h0 (.r { dst := 10, a := 11, b := 12, c := 13, smod := 0, mtgt := 0, flags := 0 })),
    (0x1700050160000000000000FF, .brev h0 { dst := 10, a := 11, b := 0, c := 0, smod := 0, mtgt := 0, flags := 0 }),
    (0x1740050160000000000000FF, .popc h0 { dst := 10, a := 11, b := 0, c := 0, smod := 0, mtgt := 0, flags := 0 }),
    (0x1780050160000000000000FF, .clz h0 { dst := 10, a := 11, b := 0, c := 0, smod := 0, mtgt := 0, flags := 0 }),
    (0x17C0050160000000000000FF, .ctz h0 { dst := 10, a := 11, b := 0, c := 0, smod := 0, mtgt := 0, flags := 0 })] = true := by decide +kernel

theorem test_decodeMoveWords : wordsOk
   [(0x1800050160601A00000000FF, .bytep h0 (.r { dst := 10, a := 11, b := 12, c := 13, smod := 0, mtgt := 0, flags := 0 })),
    (0x1840050160600000000000FF, .isetp h0 (.r { dst := 10, a := 11, b := 12, c := 0, smod := 0, mtgt := 0, flags := 0 })),
    (0x1880050160601A00000000FF, .isel h0 { dst := 10, a := 11, b := 12, c := 13, smod := 0, mtgt := 0, flags := 0 }),
    (0x18C0050160600000000000FF, .plop h0 { dst := 10, a := 11, b := 12, c := 0, smod := 0, mtgt := 0, flags := 0 }),
    (0x1900050160000000000000FF, .ptov h0 { dst := 10, a := 11, b := 0, c := 0, smod := 0, mtgt := 0, flags := 0 }),
    (0x1940050160000000000000FF, .vtop h0 { dst := 10, a := 11, b := 0, c := 0, smod := 0, mtgt := 0, flags := 0 }),
    (0x1980050160000000000000FF, .mov h0 { dst := 10, a := 11, b := 0, c := 0, smod := 0, mtgt := 0, flags := 0 }),
    (0x19C0050000000000A00000FF, .movi h0 { dst := 10, a := 0, imm := 5, interp := 0, flags := 0 }),
    (0x1A00050160600000000000FF, .kget h0 { dst := 10, a := 11, b := 12, c := 0, smod := 0, mtgt := 0, flags := 0 }),
    (0x1A40050160600000000000FF, .lea h0 (.r { dst := 10, a := 11, b := 12, c := 0, smod := 0, mtgt := 0, flags := 0 })),
    (0x1A80050160600000000000FF, .tagOp h0 (.r { dst := 10, a := 11, b := 12, c := 0, smod := 0, mtgt := 0, flags := 0 }))] = true := by decide +kernel

theorem test_decodeFloatWords : wordsOk
   [(0x3000050160600000000000FF, .fadd h0 (.r { dst := 10, a := 11, b := 12, c := 0, smod := 0, mtgt := 0, flags := 0 })),
    (0x3040050160600000000000FF, .fsub h0 (.r { dst := 10, a := 11, b := 12, c := 0, smod := 0, mtgt := 0, flags := 0 })),
    (0x3080050160600000000000FF, .fmul h0 (.r { dst := 10, a := 11, b := 12, c := 0, smod := 0, mtgt := 0, flags := 0 })),
    (0x30C0050160601A00000000FF, .ffma h0 (.r { dst := 10, a := 11, b := 12, c := 13, smod := 0, mtgt := 0, flags := 0 })),
    (0x3100050160600000000000FF, .fmin h0 (.r { dst := 10, a := 11, b := 12, c := 0, smod := 0, mtgt := 0, flags := 0 })),
    (0x3140050160600000000000FF, .fmax h0 (.r { dst := 10, a := 11, b := 12, c := 0, smod := 0, mtgt := 0, flags := 0 })),
    (0x3180050160600000000000FF, .fminn h0 (.r { dst := 10, a := 11, b := 12, c := 0, smod := 0, mtgt := 0, flags := 0 })),
    (0x31C0050160600000000000FF, .fmaxn h0 (.r { dst := 10, a := 11, b := 12, c := 0, smod := 0, mtgt := 0, flags := 0 })),
    (0x3200050160000000000000FF, .fabs h0 { dst := 10, a := 11, b := 0, c := 0, smod := 0, mtgt := 0, flags := 0 }),
    (0x3240050160000000000000FF, .fneg h0 { dst := 10, a := 11, b := 0, c := 0, smod := 0, mtgt := 0, flags := 0 }),
    (0x3280050160600000000000FF, .fsgn h0 { dst := 10, a := 11, b := 12, c := 0, smod := 0, mtgt := 0, flags := 0 }),
    (0x32C0050160600000000000FF, .fsetp h0 (.r { dst := 10, a := 11, b := 12, c := 0, smod := 0, mtgt := 0, flags := 0 })),
    (0x3300050160000000000000FF, .fclass h0 { dst := 10, a := 11, b := 0, c := 0, smod := 0, mtgt := 0, flags := 0 }),
    (0x3340050160000000000000FF, .frcp h0 { dst := 10, a := 11, b := 0, c := 0, smod := 0, mtgt := 0, flags := 0 }),
    (0x3380050160000000000000FF, .frsq h0 { dst := 10, a := 11, b := 0, c := 0, smod := 0, mtgt := 0, flags := 0 }),
    (0x33C0050160000000000000FF, .fsqrt h0 { dst := 10, a := 11, b := 0, c := 0, smod := 0, mtgt := 0, flags := 0 }),
    (0x3400050160600000000000FF, .fdiv h0 (.r { dst := 10, a := 11, b := 12, c := 0, smod := 0, mtgt := 0, flags := 0 })),
    (0x3440050160000000000000FF, .fexp2 h0 { dst := 10, a := 11, b := 0, c := 0, smod := 0, mtgt := 0, flags := 0 }),
    (0x3480050160000000000000FF, .flog2 h0 { dst := 10, a := 11, b := 0, c := 0, smod := 0, mtgt := 0, flags := 0 }),
    (0x34C0050160000000000000FF, .fsin h0 { dst := 10, a := 11, b := 0, c := 0, smod := 0, mtgt := 0, flags := 0 }),
    (0x3500050160000000000000FF, .fcos h0 { dst := 10, a := 11, b := 0, c := 0, smod := 0, mtgt := 0, flags := 0 }),
    (0x3540050160000000000000FF, .ftanh h0 { dst := 10, a := 11, b := 0, c := 0, smod := 0, mtgt := 0, flags := 0 }),
    (0x3580050160000000000000FF, .frnd h0 { dst := 10, a := 11, b := 0, c := 0, smod := 0, mtgt := 0, flags := 0 }),
    (0x35C0050160000000000000FF, .ffrc h0 { dst := 10, a := 11, b := 0, c := 0, smod := 0, mtgt := 0, flags := 0 })] = true := by decide +kernel

theorem test_decodePackedWords : wordsOk
   [(0x3600050160600000000000FF, .fscale h0 (.r { dst := 10, a := 11, b := 12, c := 0, smod := 0, mtgt := 0, flags := 0 })),
    (0x3640050160000000000000FF, .fgetx h0 { dst := 10, a := 11, b := 0, c := 0, smod := 0, mtgt := 0, flags := 0 }),
    (0x3680050160600000000000FF, .hadd2 h0 (.r { dst := 10, a := 11, b := 12, c := 0, smod := 0, mtgt := 0, flags := 0 })),
    (0x36C0050160600000000000FF, .hmul2 h0 (.r { dst := 10, a := 11, b := 12, c := 0, smod := 0, mtgt := 0, flags := 0 })),
    (0x3700050160601A00000000FF, .hfma2 h0 (.r { dst := 10, a := 11, b := 12, c := 13, smod := 0, mtgt := 0, flags := 0 })),
    (0x3740050160600000000000FF, .hmin2 h0 (.r { dst := 10, a := 11, b := 12, c := 0, smod := 0, mtgt := 0, flags := 0 })),
    (0x3780050160600000000000FF, .hmax2 h0 (.r { dst := 10, a := 11, b := 12, c := 0, smod := 0, mtgt := 0, flags := 0 })),
    (0x37C0050160000071800000FF, .cvt h0 { dst := 10, a := 11, b := 0, c := 0, desc := 908, flags := 0 }),
    (0x3800050160000011800000FF, .cvti h0 { dst := 10, a := 11, b := 0, c := 0, desc := 140, flags := 0 }),
    (0x3840050160000030800000FF, .cvtf h0 { dst := 10, a := 11, b := 0, c := 0, desc := 388, flags := 0 }),
    (0x38800501600000C0800000FF, .pack h0 { dst := 10, a := 11, b := 0, c := 0, desc := 1540, flags := 0 }),
    (0x38C0050160000016000000FF, .unpk h0 { dst := 10, a := 11, b := 0, c := 0, desc := 176, flags := 0 }),
    (0x3900060160000114000000FF, .pk6 h0 { dst := 12, a := 11, b := 0, c := 0, desc := 2208, flags := 0 }),
    (0x3940050180000088800000FF, .upk6 h0 { dst := 10, a := 12, b := 0, c := 0, desc := 1092, flags := 0 }),
    (0x3980050160601A00000000FF, .dot2 h0 { dst := 10, a := 11, b := 12, c := 13, smod := 0, mtgt := 0, flags := 0 }),
    (0x39C0050160601A00000000FF, .dot4 h0 { dst := 10, a := 11, b := 12, c := 13, smod := 0, mtgt := 0, flags := 0 }),
    (0x3A00050160601A00000000FF, .dot8 h0 { dst := 10, a := 11, b := 12, c := 13, smod := 0, mtgt := 0, flags := 0 }),
    (0x3A40050160601A00000000FF, .dott h0 { dst := 10, a := 11, b := 12, c := 13, smod := 0, mtgt := 0, flags := 0 }),
    (0x3A80050000000000000000FF, .rdfl h0 { dst := 10, a := 0, b := 0, c := 0, smod := 0, mtgt := 0, flags := 0 }),
    (0x3AC0000160000000000000FF, .clfl h0 (.r { dst := 0, a := 11, b := 0, c := 0, smod := 0, mtgt := 0, flags := 0 }))] = true := by decide +kernel

theorem test_decodeCrossThreadWords : wordsOk
   [(0x6000050160600000008000FF, .shfl h0 (.r { dst := 10, a := 11, b := 12, c := 0, smod := 0, mtgt := 0, flags := 8 })),
    (0x6040050160600000000000FF, .perm h0 { dst := 10, a := 11, b := 12, c := 0, smod := 0, mtgt := 0, flags := 0 }),
    (0x6080050160001A00000000FF, .votea h0 { dst := 10, a := 11, b := 0, c := 13, smod := 0, mtgt := 0, flags := 0 }),
    (0x60C0050160001A00000000FF, .voten h0 { dst := 10, a := 11, b := 0, c := 13, smod := 0, mtgt := 0, flags := 0 }),
    (0x6100050160000000000000FF, .ballot h0 { dst := 10, a := 11, b := 0, c := 0, smod := 0, mtgt := 0, flags := 0 }),
    (0x6140050160000000000000FF, .matchOp h0 { dst := 10, a := 11, b := 0, c := 0, smod := 0, mtgt := 0, flags := 0 }),
    (0x6180050160000000000000FF, .elect h0 { dst := 10, a := 11, b := 0, c := 0, smod := 0, mtgt := 0, flags := 0 }),
    (0x61C0050160000000000000FF, .part h0 { dst := 10, a := 11, b := 0, c := 0, smod := 0, mtgt := 0, flags := 0 }),
    (0x6200050160600000000000FF, .gmask h0 (.r { dst := 10, a := 11, b := 12, c := 0, smod := 0, mtgt := 0, flags := 0 })),
    (0x6240050000000000000000FF, .amask h0 { dst := 10, a := 0, b := 0, c := 0, smod := 0, mtgt := 0, flags := 0 }),
    (0x6280050160600000000000FF, .gred h0 { dst := 10, a := 11, b := 12, c := 0, desc := 0, flags := 0 }),
    (0x62C0050160600000000000FF, .gscan h0 { dst := 10, a := 11, b := 12, c := 0, desc := 0, flags := 0 }),
    (0x6300050160601A00000000FF, .gbcast h0 { dst := 10, a := 11, b := 12, c := 13, smod := 0, mtgt := 0, flags := 0 }),
    (0x6340050160601A00000000FF, .gsort h0 { dst := 10, a := 11, b := 12, c := 13, desc := 0, flags := 0 }),
    (0x6380050160000000000000FF, .tred h0 { dst := 10, a := 11, b := 0, c := 0, desc := 0, flags := 0 }),
    (0x63C0050160000000000000FF, .tscan h0 { dst := 10, a := 11, b := 0, c := 0, desc := 0, flags := 0 })] = true := by decide +kernel

theorem test_decodeMemoryWords : wordsOk
   [(0x7000055080700060100000FF, .ld h0 { data := 10, base := 644, index := 14, offset := 3, scope := 0, order := 0, atom := 0, size := 2, hint := 0, nf := false, typed := false, rsv := 0 }),
    (0x7040055080700060100000FF, .st h0 { data := 10, base := 644, index := 14, offset := 3, scope := 0, order := 0, atom := 0, size := 2, hint := 0, nf := false, typed := false, rsv := 0 }),
    (0x7080055080700060100000FF, .lds h0 { data := 10, base := 644, index := 14, offset := 3, scope := 0, order := 0, atom := 0, size := 2, hint := 0, nf := false, typed := false, rsv := 0 }),
    (0x70C0055080700060100000FF, .sts h0 { data := 10, base := 644, index := 14, offset := 3, scope := 0, order := 0, atom := 0, size := 2, hint := 0, nf := false, typed := false, rsv := 0 }),
    (0x7100055080700060100000FF, .ldc h0 { data := 10, base := 644, index := 14, offset := 3, scope := 0, order := 0, atom := 0, size := 2, hint := 0, nf := false, typed := false, rsv := 0 }),
    (0x7141FFD080700060000000FF, .prf h0 { data := 1023, base := 644, index := 14, offset := 3, scope := 0, order := 0, atom := 0, size := 0, hint := 0, nf := false, typed := false, rsv := 0 }),
    (0x7180050160600000000000FF, .atom h0 { dst := 10, a := 11, b := 12, c := 0, desc := 0, flags := 0 }),
    (0x71C0000160600000000000FF, .red h0 { dst := 0, a := 11, b := 12, c := 0, desc := 0, flags := 0 }),
    (0x7200050160600000000000FF, .atoms h0 { dst := 10, a := 11, b := 12, c := 0, desc := 0, flags := 0 }),
    (0x7240000160600000000000FF, .reds h0 { dst := 0, a := 11, b := 12, c := 0, desc := 0, flags := 0 }),
    (0x7280050000000000000000FF, .txb h0 { dst := 10, a := 0, b := 0, c := 0, smod := 0, mtgt := 0, flags := 0 }),
    (0x72C0050000000000000000FF, .txe h0 { dst := 10, a := 0, b := 0, c := 0, smod := 0, mtgt := 0, flags := 0 }),
    (0x7300000160000000000000FF, .txa h0 { dst := 0, a := 11, b := 0, c := 0, smod := 0, mtgt := 0, flags := 0 }),
    (0x7340050000000000000000FF, .txst h0 { dst := 10, a := 0, b := 0, c := 0, smod := 0, mtgt := 0, flags := 0 }),
    (0x7381FFFFFFF80000000000FF, .fence h0 { data := 1023, base := 1023, index := 1023, offset := 0, scope := 0, order := 0, atom := 0, size := 0, hint := 0, nf := false, typed := false, rsv := 0 }),
    (0x73C0000000000000000000FF, .ofence h0 { dst := 0, a := 0, b := 0, c := 0, smod := 0, mtgt := 0, flags := 0 }),
    (0x7400000160601A00000000FF, .cpy h0 { dst := 0, a := 11, b := 12, c := 13, desc := 0, flags := 0 }),
    (0x7440050000600000000000FF, .tagwa h0 (.r { dst := 10, a := 0, b := 12, c := 0, smod := 0, mtgt := 0, flags := 0 })),
    (0x7480050000600000000000FF, .tagwn h0 (.r { dst := 10, a := 0, b := 12, c := 0, smod := 0, mtgt := 0, flags := 0 })),
    (0x74C0050000600000000000FF, .tagff h0 { dst := 10, a := 0, b := 12, c := 0, smod := 0, mtgt := 0, flags := 0 }),
    (0x7500050160601A02000000FF, .wrq h0 { dst := 10, a := 11, b := 12, c := 13, desc := 16, flags := 0 }),
    (0x7540055080700060000000FF, .smap h0 { data := 10, base := 644, index := 14, offset := 3, scope := 0, order := 0, atom := 0, size := 0, hint := 0, nf := false, typed := false, rsv := 0 }),
    (0x7580057FFFF80000000000FF, .sdrop h0 { data := 10, base := 1023, index := 1023, offset := 0, scope := 0, order := 0, atom := 0, size := 0, hint := 0, nf := false, typed := false, rsv := 0 }),
    (0x75C0057FFFF80060000000FF, .spub h0 { data := 10, base := 1023, index := 1023, offset := 3, scope := 0, order := 0, atom := 0, size := 0, hint := 0, nf := false, typed := false, rsv := 0 }),
    (0x7601FFD080700060000000FF, .cctl h0 { data := 1023, base := 644, index := 14, offset := 3, scope := 0, order := 0, atom := 0, size := 0, hint := 0, nf := false, typed := false, rsv := 0 }),
    (0x7640050160601A00000000FF, .tiercp h0 { dst := 10, a := 11, b := 12, c := 13, desc := 0, flags := 0 })] = true := by decide +kernel

theorem test_decodeQueueWords : wordsOk
   [(0x9000050000000000000000FF, .qbind h0 { dst := 10, a := 0, b := 0, c := 0, desc := 0, flags := 0 }),
    (0x9040050000000000000000FF, .qfree h0 { dst := 10, a := 0, b := 0, c := 0, desc := 0, flags := 0 }),
    (0x9080050160600000000000FF, .qpush h0 { dst := 10, a := 11, b := 12, c := 0, smod := 0, mtgt := 0, flags := 0 }),
    (0x90C0050160001A00000000FF, .qpop h0 { dst := 10, a := 11, b := 0, c := 13, smod := 0, mtgt := 0, flags := 0 }),
    (0x9100050160601A00000000FF, .qpeek h0 { dst := 10, a := 11, b := 12, c := 13, smod := 0, mtgt := 0, flags := 0 }),
    (0x9140050160000000000000FF, .qstat h0 { dst := 10, a := 11, b := 0, c := 0, smod := 0, mtgt := 0, flags := 0 }),
    (0x9180050160600000000000FF, .qres h0 { dst := 10, a := 11, b := 12, c := 0, desc := 0, flags := 0 }),
    (0x91C0000160601A00000000FF, .qpub h0 { dst := 0, a := 11, b := 12, c := 13, desc := 0, flags := 0 }),
    (0x9200050160600000000000FF, .qwait h0 (.r { dst := 10, a := 11, b := 12, c := 0, smod := 0, mtgt := 0, flags := 0 })),
    (0x9240055080700060100000FF, .ldq h0 { data := 10, base := 644, index := 14, offset := 3, scope := 0, order := 0, atom := 0, size := 2, hint := 0, nf := false, typed := false, rsv := 0 }),
    (0x9280055080700060100000FF, .stq h0 { data := 10, base := 644, index := 14, offset := 3, scope := 0, order := 0, atom := 0, size := 2, hint := 0, nf := false, typed := false, rsv := 0 }),
    (0x92C0050160601A00000000FF, .rrdq h0 { dst := 10, a := 11, b := 12, c := 13, desc := 0, flags := 0 }),
    (0x9300050160000000000000FF, .subs h0 { dst := 10, a := 11, b := 0, c := 0, desc := 0, flags := 0 }),
    (0x9340050160600000000000FF, .drainq h0 { dst := 10, a := 11, b := 12, c := 0, desc := 0, flags := 0 }),
    (0x9380050160000000600000FF, .lcbr h0 { link := 10, a := 11, boff := 3, flags := 0 }),
    (0x93C0000160000000000000FF, .qflush h0 { dst := 0, a := 11, b := 0, c := 0, desc := 0, flags := 0 })] = true := by decide +kernel

theorem test_decodeEngineWords : wordsOk
   [(0xA000050160600032000000FF, .mma h0 { dst := 10, a := 11, b := 12, c := 0, desc := 400, flags := 0 }),
    (0xA040050160600032000000FF, .mmat h0 { dst := 10, a := 11, b := 12, c := 0, desc := 400, flags := 0 }),
    (0xA080050160600032000000FF, .mmas h0 { dst := 10, a := 11, b := 12, c := 0, desc := 400, flags := 0 }),
    (0xA0C0000160000000000000FF, .tdef h0 { dst := 0, a := 11, b := 0, c := 0, desc := 0, flags := 0 }),
    (0xA100000000000000000000FF, .tdrop h0 { dst := 0, a := 0, b := 0, c := 0, desc := 0, flags := 0 }),
    (0xA140050160600000000000FF, .mvs h0 { dst := 10, a := 11, b := 12, c := 0, desc := 0, flags := 0 }),
    (0xA180050000600000000000FF, .svs h0 { dst := 10, a := 0, b := 12, c := 0, desc := 0, flags := 0 }),
    (0xA1C0050160601A00000000FF, .coll h0 { dst := 10, a := 11, b := 12, c := 13, desc := 0, flags := 0 }),
    (0xA200050000000000000000FF, .gbar h0 { dst := 10, a := 0, b := 0, c := 0, desc := 0, flags := 0 }),
    (0xA240000160000000000000FF, .hwait h0 { dst := 0, a := 11, b := 0, c := 0, smod := 0, mtgt := 0, flags := 0 }),
    (0xA280050160000000000000FF, .htest h0 { dst := 10, a := 11, b := 0, c := 0, smod := 0, mtgt := 0, flags := 0 }),
    (0xA2C0000160000000000000FF, .hcan h0 { dst := 0, a := 11, b := 0, c := 0, smod := 0, mtgt := 0, flags := 0 }),
    (0xA300000160600000000000FF, .hpass h0 { dst := 0, a := 11, b := 12, c := 0, smod := 0, mtgt := 0, flags := 0 }),
    (0xA340050000600000000000FF, .htake h0 { dst := 10, a := 0, b := 12, c := 0, smod := 0, mtgt := 0, flags := 0 })] = true := by decide +kernel

theorem test_decodeCounterWords : wordsOk
   [(0xB000000160600000000000FF, .cntsel h0 (.r { dst := 0, a := 11, b := 12, c := 0, smod := 0, mtgt := 0, flags := 0 })),
    (0xB040050160000000000000FF, .cntrd h0 { dst := 10, a := 11, b := 0, c := 0, smod := 0, mtgt := 0, flags := 0 }),
    (0xB080000000000000000000FF, .cntsnap h0 { dst := 0, a := 0, b := 0, c := 0, smod := 0, mtgt := 0, flags := 0 }),
    (0xB0C0000160600000000000FF, .rcinc h0 (.r { dst := 0, a := 11, b := 12, c := 0, smod := 0, mtgt := 0, flags := 0 })),
    (0xB100050160000000000000FF, .rcsnap h0 { dst := 10, a := 11, b := 0, c := 0, desc := 0, flags := 0 }),
    (0xB140055080700060100000FF, .wpset h0 { data := 10, base := 644, index := 14, offset := 3, scope := 0, order := 0, atom := 0, size := 2, hint := 0, nf := false, typed := false, rsv := 0 }),
    (0xB180050160000000600000FF, .bpset h0 { link := 10, a := 11, boff := 3, flags := 0 }),
    (0xB1C0050000600000000000FF, .dmbox h0 (.r { dst := 10, a := 0, b := 12, c := 0, smod := 0, mtgt := 0, flags := 0 })),
    (0xB200050160600000000000FF, .dstep h0 { dst := 10, a := 11, b := 12, c := 0, smod := 0, mtgt := 0, flags := 0 })] = true := by decide +kernel

/-! ## Decoding: what is refused -/

/-- A word that no instruction has, and a NOP whose unused field is not 0, whose seta is reserved, and whose modifier has no target. -/
theorem test_decodeRefusals :
    let is (w : IWord) (e : DecodeError) := match decode w with
      | .error x => x == e
      | .ok _ => false
    allOk [is (BitVec.ofNat 96 (0x2E0 * 2 ^ 86 + 0xFF)) .unassigned, is (BitVec.ofNat 96 (2 ^ 71 + 0xFF)) .reservedField, is 0xDF .reservedHint,
      is (BitVec.ofNat 96 (2 ^ 29 + 0xFF)) .reservedForm] = true := by decide +kernel

/-! ## Well-formedness: a term that each check refuses -/

theorem smoke_hints : (WellFormed (.nop { h0 with seta := 12 } (fr 0 0 0 0 0)) || WellFormed (.nop { h0 with setb := 13 } (fr 0 0 0 0 0))) = false := by
  decide

theorem smoke_modifiers : (WellFormed (.nop h0 { fr 0 0 0 0 0 with smod := 1 }) || WellFormed (.nop h0 { fr 0 0 0 0 0 with mtgt := 1 }) ||
    WellFormed (.nop h0 { fr 0 0 0 0 0 with mtgt := 1, smod := 0x400 }) || WellFormed (.nop h0 { fr 0 0 0 0 0 with mtgt := 1, smod := 0x080 })) = false := by
  decide

theorem smoke_immediates : (WellFormed (.iadd h0 (.r (fr 1 2 3 0 64))) || WellFormed (.iadd h0 (.i { dst := 1, a := 2, imm := 3, interp := 0, flags := 0 })))
    = false := by decide

theorem smoke_memory : (WellFormed (.ld h0 { fm 1 2 0 with scope := 6 }) || WellFormed (.ld h0 { fm 1 2 0 with atom := 3 }) ||
    WellFormed (.ld h0 { fm 1 2 0 with size := 6 }) || WellFormed (.ld h0 { fm 1 2 0 with rsv := 1 })) = false := by decide

theorem smoke_events : (WellFormed (.clusterTokenPass 64) || WellFormed (.doorbellWrite 16384 0) || WellFormed (.teamPlacement ⟨1, 0, 0⟩ 2048) ||
    WellFormed (.linkRetryLimit 16) || WellFormed (.gridRetirement (2 ^ 32)) || WellFormed (.capmWrite true 0 4 0) || WellFormed (.lstateBroadcastReceive 16 0)) = false := by
  decide

theorem smoke_wellFormed : (WellFormed (.nop h0 (fr 0 0 0 0 0)) && WellFormed (.nop h0 { fr 0 0 0 0 0 with mtgt := 1, smod := 0x603 }) &&
    WellFormed (.ld h0 (fm 1 2 0)) && WellFormed (.iadd h0 ri) && WellFormed (.clusterTokenPass 63)) = true := by decide

/-! ## Results: the worked examples of the manual -/

/-- What the next state of an instruction is tested for. -/
def next (i : Instr) (s : State) (p : State → Bool) : Bool := match exec i s with
  | .next t => p t
  | _ => false

/-- The machine `s` with values in v registers, by thread and register, and tags. -/
def withV (s : State) (v : List (Nat × Nat × Word)) (tags : Cells 5) : State :=
  s.setPod { s.pod with v := v.foldl (fun c x => c.set (x.1 * 1024 + x.2.1) x.2.2) [], tags := tags }

/-- R161: IDIV.i32 and IREM.i32 of the five pairs of its table, in threads 0 to 4 of v10 and v11. -/
theorem test_division :
    let s := withV exeS [(0, 10, 7), (0, 11, -2), (1, 10, -7), (1, 11, 2), (2, 10, 0x8000_0000), (2, 11, -1), (3, 10, -5), (3, 11, 0)] [(10, 1), (11, 1)]
    let f : FormRI := .r (fr 12 10 11 0 0)
    (next (.idiv h0 f) s (fun t => (List.range 5).map (t.pod.rdV · 12) == [-3, -3, 0x8000_0000, 0x8000_0000, 0x7FFF_FFFF] && t.pod.fl == 2) &&
      next (.irem h0 f) s fun t => (List.range 5).map (t.pod.rdV · 12) == [1, -1, 0, -5, 0]) = true := by decide +kernel

/-- R160: the low and high limbs of its 128-bit addition, in thread 0. -/
theorem test_carries :
    let s := withV exeS [(0, 10, -1), (0, 11, -1), (0, 14, 2), (0, 12, 3), (0, 16, 5)] ((List.range 8).map fun i => (10 + i, 6))
    let f (d a b : Code) : FormRI := .r (fr d a b 0 (0x18 + 1))
    next (.iaddc h0 (f 10 10 14)) s (fun t => t.pod.rdV 0 10 == 1 && t.pod.rdV 0 11 == 0 && (t.pod.p.get 1).getLsbD 0 &&
      next (.iaddc h0 (f 12 12 16)) t fun u => u.pod.rdV 0 12 == 9 && u.pod.rdV 0 13 == 0 && !(u.pod.p.get 1).getLsbD 0) = true := by decide +kernel

/-- R195: four f32 to e4m3 with saturation. -/
theorem test_cvt : next (.cvt h0 (fq 40 32 0 0 0x48C 0x010))
    (withV exeS [(0, 32, 0x3F80_0000), (0, 33, 0x43FA_0000), (0, 34, 0xC053_3333), (0, 35, 0x7FC0_0000)] [(32, 3), (33, 3), (34, 3), (35, 3)])
    (fun t => t.pod.rdV 0 40 == 0x7FC5_7E38 && t.pod.fl == cOVF ||| cINX ||| cSAT) = true := by decide +kernel

/-- R183: 1.0 divided by +0 in thread 2 and by 2.0 in the others. -/
theorem test_fdiv : next (.fdiv h0 (.r (fr 6 4 5 0 0)))
    (withV exeS ((List.range 16).flatMap fun t => [(t, 4, 0x3F80_0000), (t, 5, if t = 2 then 0 else 0x4000_0000)]) [(4, 3), (5, 3)])
    (fun t => t.pod.rdV 2 6 == 0x7F80_0000 && t.pod.rdV 3 6 == 0x3F00_0000 && t.pod.fl == cDZ && t.pod.tagOf 6 == 3) = true := by decide +kernel

/-- R218: the guarded exclusive scan within groups of four. -/
theorem test_gscan :
    let s := withV exeS ((List.range 16).map fun t => (t, 5, BitVec.ofNat 32 (t + 1))) [(5, 2)]
    let s := s.setPod { s.pod with g := [(1, 0x1111)], p := [(2, 0xCF7B)] }
    next (.gscan { h0 with pred := 2 } (fq 6 5 785 0 0x060 0)) s (fun t =>
      (List.range 16).map (t.pod.rdV · 6) == [0, 1, 0, 3, 0, 5, 11, 0, 0, 9, 19, 30, 0, 0, 0, 15]) = true := by decide +kernel

/-- R264, R266: TRAP 7 in threads 2, 5 and 11 at 0x3000, with a handler. -/
theorem test_trap :
    let s := accS.setPod { at_ 0x3000 0 accS.pod with p := [(4, 0x0824)] }
    let s := s.setTeam { s.team with kernel := { s.team.kernel with vectors := List.replicate 65 0x120 } }
    next (.trap { h0 with pred := 4 } { dst := 0, a := 0, imm := 7, interp := 0, flags := 0 }) s (fun t =>
      t.pod.tpc == 0x3000 && t.pod.tix == 2 && (t.pod.bank.get 0) == 0x0824_0014 && t.pod.bank.get 1 == 7 && t.pod.bank.get 2 == 0 &&
        t.pod.handlers == 0x0824 && t.pod.cause.getLsbD 20) = true := by decide +kernel

/-- R116, R136: the seed at launch, its next value, and the stochastic rounding of 1 + 3 / 2^9 to bf16. -/
theorem test_stochasticRounding : launchSeed 0 0 0 0 = 0x5EED_0001 ∧ lfsr 0x5EED_0001 = 0xAF56_8003 ∧
    (Fmt.bf16.round (Fmt.f32.decode 0x3F80_C000) 5 0 false 0x5EED_0001).code = 0x3F81 ∧
    (Fmt.bf16.round (Fmt.f32.decode 0x3F80_C000) 5 0 false 0x5EED_0001).fl = cINX := by decide +kernel

/-- R144: four products of 0.5 and 1.0 added to 2^24 as one sum; and 0 times NaN. -/
theorem test_accumulator : accStep 0 0 0x4B80_0000 (List.replicate 4 (elemMul (elemOf 9) (elemOf 9) 0x30 0x38)) = (0x4B80_0001, 0) ∧
    (accStep 0 0 0x4B80_0000 [elemMul (elemOf 9) (elemOf 9) 0 0x7F]) = (0x7FC0_0000, 0) := by decide +kernel

/-- R291, R294, R296, R298: the worked translation. -/
theorem test_translation : leafPa 1 0x1A40_0133 0x12_3456_7ABC = 0x1A56_7ABC ∧ stackOf 0x1A56_7ABC = 7 ∧ homeSlice 0x1A56_7ABC = 127 ∧
    withAD 0x1A40_0133 true = 0x1A40_0333 ∧ levelIndex 0x12_3456_7ABC 3 = 0 ∧ levelIndex 0x12_3456_7ABC 2 = 72 ∧
    levelIndex 0x12_3456_7ABC 1 = 418 := by decide +kernel

/-- R41, R240: three passes of a loop end in two jumps back. -/
theorem test_loop : backEdge 0x1030 0 [⟨0x1018, 0x1030, 3, 0⟩] = ([⟨0x1018, 0x1030, 2, 0⟩], some 0x1018) ∧
    backEdge 0x1030 0 [⟨0x1018, 0x1030, 1, 0⟩] = ([], none) := by decide +kernel

/-- R355: the pod-wide fetch-and-add on an n32 that holds 100. -/
theorem test_atom :
    let s := withV accS ((List.range 16).map fun t => (t, 12, BitVec.ofNat 32 (t + 1))) [(12, 2)]
    let s := (s.setPod { s.pod with k := [(4, 0x100000)] }).wrAll (run 0x100000 4) (toBytes 4 100)
    next (.atom h0 (fq 10 644 12 0 0x030 0)) s (fun t =>
      t.pod.pend.map (fun x => (x.dest, x.value, x.tag)) ==
        (List.range 16).map (fun t => (Dest.vregs t 10 1, BitVec.ofNat 256 (100 + t * (t + 1) / 2), 2)) &&
        t.rdNat 0x100000 4 == 236) = true := by decide +kernel

/-- R429: the exact scaled sum of 1.0, 2^-9, -1.0 and 2^-9 in e4m3, each with scale 2^20. -/
theorem test_exactSum : (collCombine 0 0 8 true true ([0x38, 0x01, 0xB8, 0x01].map fun x => some (BitVec.ofNat 64 (x + 147 * 2 ^ 32)))).1 = 0x4580_0000 := by
  decide +kernel

/-- R123, R138: −∞ to e4m3 without saturation is the NaN of e4m3, with its sign clear, and INV. -/
theorem test_infinityToE4m3 : (Fmt.e4m3.round (Fmt.f32.decode 0xFF80_0000) 0 0 false 0).code = 0x7F ∧
    (Fmt.e4m3.round (Fmt.f32.decode 0xFF80_0000) 0 0 false 0).fl = cINV := by decide +kernel

end Sys2Proof.Tests
end

/-! SUPPORT. No instruction, no event and no step ends in a fault or a refusal. -/
namespace Sys2Proof.Machine

/-- An outcome that is a next state, neither a fault nor a refusal. -/
def GoesOn (o : Host.Outcome State Fault Refusal) : Prop := ∃ t, o = .next t

/-! ## Instructions: each is one issue, and every way that an issue can end is a next state -/

theorem issue_goesOn (i : Instr) (h : Head) (sp : Spec) (body : Ctx → Eff) (s : State) : GoesOn (issue i h sp body s) := by
  dsimp only [issue]
  repeat' split
  all_goals exact ⟨_, rfl⟩

theorem instruction_goesOn (i : Instr) (hi : i.isEvent = false) (s : State) : GoesOn (exec i s) := by
  cases i with
  -- Control and system instructions (R233 to R259).
  | nop | bra | brx | call | callx | ret | exitT | loop | loopc | leave | phase | sync | waitf | yield | sleep | holdt | trap
    | brk | rtt | clrc | setc | rdsr | wrsr | launch | waitch | fetchw | time | icinv | prio | halt | resume | abortp | acorn =>
    dsimp only [exec, execNop, execBra, execBrx, execCall, execCallx, execRet, execExitT, execLoop, execLoopc, execLeave,
      execPhase, execSync, execWaitf, execYield, execSleep, execHoldt, execTrap, execBrk, execRtt, execClrc, execSetc,
      execRdsr, execWrsr, execLaunch, execWaitch, execFetchw, execTime, execIcinv, execPrio, execHalt, execResume, execAbortp,
      execAcorn]
    exact issue_goesOn ..
  -- Integers, logic, predicates and moves (R149 to R175).
  | iadd | isub | iaddc | isubb | imul | imulh | imad | idiv | irem | ineg | iabs | imin | imax | iclamp | isad | shl | shr
    | shra | rotl | shfd | andB | orB | xorB | andn | notB | lop3 | bfe | bfi | brev | popc | clz | ctz | bytep | isetp | isel
    | plop | ptov | vtop | mov | movi | kget | lea | tagOp =>
    dsimp only [exec, execIadd, execIsub, execIaddc, execIsubb, execImul, execImulh, execImad, execIdiv, execIrem, execIneg,
      execIabs, execImin, execImax, execIclamp, execIsad, execShl, execShr, execShra, execRotl, execShfd, execAndB, execOrB,
      execXorB, execAndn, execNotB, execLop3, execBfe, execBfi, execBrev, execPopc, execClz, execCtz, execBytep, execIsetp,
      execIsel, execPlop, execPtov, execVtop, execMov, execMovi, execKget, execLea, execTagOp, int2, int3, int1, intCarry,
      intDivRem, intShift, logic2, logic1]
    exact issue_goesOn ..
  -- Floating point, conversions and dot products (R176 to R206).
  | fadd | fsub | fmul | ffma | fmin | fmax | fminn | fmaxn | fabs | fneg | fsgn | fsetp | fclass | frcp | frsq | fsqrt | fdiv
    | fexp2 | flog2 | fsin | fcos | ftanh | frnd | ffrc | fscale | fgetx | hadd2 | hmul2 | hfma2 | hmin2 | hmax2 | cvti | cvtf
    | pack | unpk | pk6 | upk6 | dot2 | dott | rdfl | clfl =>
    dsimp only [exec, execFadd, execFsub, execFmul, execFfma, execFmin, execFmax, execFminn, execFmaxn, execFabs, execFneg,
      execFsgn, execFsetp, execFclass, execFrcp, execFrsq, execFsqrt, execFdiv, execFexp2, execFlog2, execFsin, execFcos,
      execFtanh, execFrnd, execFfrc, execFscale, execFgetx, execHadd2, execHmul2, execHfma2, execHmin2, execHmax2, execCvti,
      execCvtf, execPack, execUnpk, execPk6, execUpk6, execDot2, execDott, execRdfl, execClfl, flt2, fltFunc, fltMinMax,
      half3, halfMinMax, conv, dot]
    exact issue_goesOn ..
  -- Exchange between threads (R207 to R231).
  | shfl | perm | votea | voten | ballot | matchOp | elect | part | gmask | amask | gred | gscan | gbcast | gsort | tred
    | tscan =>
    dsimp only [exec, execShfl, execPerm, execVotea, execVoten, execBallot, execMatchOp, execElect, execPart, execGmask,
      execAmask, execGred, execGscan, execGbcast, execGsort, execTred, execTscan, vote, collArrive]
    exact issue_goesOn ..
  -- Memory, atomics, transactions and copies (R343 to R375).
  | ld | st | lds | sts | ldc | prf | atom | red | atoms | reds | txb | txe | txa | txst | fence | ofence | cpy | tagwa
    | tagwn | tagff | wrq | smap | sdrop | spub | cctl | tiercp =>
    dsimp only [exec, execLd, execSt, execLds, execSts, execLdc, execPrf, execAtom, execRed, execAtoms, execReds, execTxb,
      execTxe, execTxa, execTxst, execFence, execOfence, execCpy, execTagwa, execTagwn, execTagff, execWrq, execSmap,
      execSdrop, execSpub, execCctl, execTiercp, load, storeOp, atomOp, redOp]
    exact issue_goesOn ..
  -- Rings, engines, collectives and handles (R376 to R432).
  | qbind | qfree | qpush | qpop | qpeek | qstat | qres | qpub | qwait | ldq | stq | rrdq | subs | drainq | lcbr | qflush
    | mma | mmat | mmas | tdef | tdrop | mvs | svs | coll | gbar | hwait | htest | hcan | hpass | htake =>
    dsimp only [exec, execQbind, execQfree, execQpush, execQpop, execQpeek, execQstat, execQres, execQpub, execQwait, execLdq,
      execStq, execRrdq, execSubs, execDrainq, execLcbr, execQflush, execMma, execMmat, execMmas, execTdef, execTdrop,
      execMvs, execSvs, execColl, execGbar, execHwait, execHtest, execHcan, execHpass, execHtake, matrixOp]
    exact issue_goesOn ..
  -- Counters and debug (R510 to R519).
  | cntsel | cntrd | cntsnap | rcinc | rcsnap | wpset | bpset | dmbox | dstep =>
    dsimp only [exec, execCntsel, execCntrd, execCntsnap, execRcinc, execRcsnap, execWpset, execBpset, execDmbox, execDstep]
    exact issue_goesOn ..
  -- Forms that choose between two shapes of issue.
  | cvt | dot4 | dot8 =>
    dsimp only [exec, execCvt, execDot4, execDot8, convO6, conv, dot]
    split <;> exact issue_goesOn ..
  | _ => cases hi

/-! ## Events that hand over to other events -/

/-- The element of RRDQ that has no data faults the handle, which is a next state too. -/
theorem execRrdqElementArrival_goesOn (h : Nat) (data : Option (BitVec 128)) (s : State) :
    GoesOn (execRrdqElementArrival h data s) := by
  cases data <;> dsimp only [execRrdqElementArrival, Option.elim] <;> repeat' split
  all_goals exact ⟨_, rfl⟩

theorem execDoorbellWrite_goesOn (q : Nat) (tail : Word) (s : State) : GoesOn (execDoorbellWrite q tail s) := by
  dsimp only [execDoorbellWrite]
  repeat' split
  all_goals exact ⟨_, rfl⟩

theorem execWinnowEnqueue_goesOn (core q : Nat) (packet : List Byte) (s : State) : GoesOn (execWinnowEnqueue core q packet s) := by
  dsimp only [execWinnowEnqueue]
  split
  · exact ⟨_, rfl⟩
  · split
    · exact ⟨_, rfl⟩
    · exact execDoorbellWrite_goesOn ..

/-- A queue command. -/
theorem command_goesOn (s : State) (op : Nat) : GoesOn (s.command op) := by
  dsimp only [State.command]
  split <;> exact ⟨_, rfl⟩

/-- A command to the Husk. -/
theorem huskCommand_goesOn (s : State) : GoesOn s.huskCommand := by
  dsimp only [State.huskCommand]
  split <;> exact ⟨_, rfl⟩

/-- A command to the compute die. -/
theorem dieCommand_goesOn (s : State) (c : BitVec 2) : GoesOn (s.dieCommand c) := by
  dsimp only [State.dieCommand]
  repeat' split
  all_goals exact ⟨_, rfl⟩

theorem execMcMailboxRequest_goesOn (part : BitVec 6) (c : BitVec 2) (s : State) : GoesOn (execMcMailboxRequest part c s) := by
  dsimp only [execMcMailboxRequest]
  split
  · exact ⟨_, rfl⟩
  · exact dieCommand_goesOn ..

/-- A register write is a command, a doorbell, or a next state of its own. -/
theorem regWrite_goesOn (s : State) (r : Reg) (master addr size : Nat) (v : Dword) : GoesOn (s.regWrite r master addr size v) := by
  cases r <;> dsimp only [State.regWrite]
  case wqcmd =>
    split
    · exact command_goesOn ..
    · exact ⟨_, rfl⟩
  case door =>
    split
    · exact execDoorbellWrite_goesOn ..
    · exact ⟨_, rfl⟩
  case acornst => split <;> exact ⟨_, rfl⟩
  case huskcmd => exact huskCommand_goesOn s
  case diecmd => exact dieCommand_goesOn ..
  all_goals exact ⟨_, rfl⟩

theorem execRegisterWrite_goesOn (master addr size : Nat) (v : Dword) (s : State) :
    GoesOn (execRegisterWrite master addr size v s) := by
  dsimp only [execRegisterWrite]
  split
  · exact ⟨_, rfl⟩
  · split
    · exact ⟨_, rfl⟩
    · split
      · exact ⟨_, rfl⟩
      · exact regWrite_goesOn ..

/-! ## Events: whatever an event finds of what it names, it answers a next state -/

theorem event_goesOn (i : Instr) (hi : i.isEvent = true) (s : State) : GoesOn (exec i s) := by
  cases i with
  -- Events whose meaning is a next state outright.
  | unassignedOpcode | waitfTimeout | sleepExpiry | holdtTimeReached | loopCountPoll | spinDemotionEnd | peerAcknowledgement
    | queueMappingQuantum | l2Eviction | saveTeam | abortTeam | resumeContext | discardContext | wqcmdReserved
    | acornstTermClear | xlinvPage | xlinvAsn | xlinvAll | xlinvReserved | xlinvComplete | capmWrite | accessTableWrite
    | accessTableUpdateDone | esctailWrite | huskToH1 | huskToH0 | huskH0ToH1 | huskToH2 | huskToH3 | huskReset
    | huskPowerApplied | huskPowerLost | packageReset | firmwareVerify | attestationRequest | diePowerOn | computeDieReset
    | dieResetRelease | diePowerOff | agentHeartbeat | watchdogExpiry | dieHoldExpiry | timeBaseSync | linkNoProgressTimeout
    | linkTrainingComplete | lstateBroadcastReceive | uePortsUp | responseArrival | e2eResendTimeout | writeReachesHome
    | counterMmioClear =>
    exact ⟨_, rfl⟩
  -- Events of pods: results, ends of waits, scheduling.
  | trapEntry | classTResultWrite | loadDataReturn | ldqSlotFill | handleWaitPark | podSwap | podPromotion | queueDeadlock
    | peerRefusalArrival | mcIssueHold =>
    dsimp only [exec, execTrapEntry, execClassTResultWrite, execLoadDataReturn, execLdqSlotFill, execHandleWaitPark,
      execPodSwap, execPodPromotion, execQueueDeadlock, execPeerRefusalArrival, execMcIssueHold]
    repeat' split
    all_goals exact ⟨_, rfl⟩
  -- Events of engines.
  | copyPiece | copyComplete | tiercpPage | matrixOpFire | matrixGroup | matrixOpComplete | mvsFire | stackEngineOutputRun
    | subsTilePush | drainqElementWrite | collInstanceComplete | gbarComplete | tredInstanceDelivery =>
    dsimp only [exec, execCopyPiece, execCopyComplete, execTiercpPage, execMatrixOpFire, execMatrixGroup,
      execMatrixOpComplete, execMvsFire, execStackEngineOutputRun, execSubsTilePush, execDrainqElementWrite,
      execCollInstanceComplete, execGbarComplete, execTredInstanceDelivery]
    repeat' split
    all_goals exact ⟨_, rfl⟩
  -- Events of phases, teams and grids.
  | podExit | phaseEnd | placementTimeout | shadowComparison | teamExit | gridRetirement | packetTake | teamPlacement
    | startTimeReached | fetchwMailboxFill | savePreemption | contextRecordWrite | phaseAbort | clusterTokenPass
    | escalationNotify | contextRestore =>
    dsimp only [exec, execPodExit, execPhaseEnd, execPlacementTimeout, execShadowComparison, execTeamExit, execGridRetirement,
      execPacketTake, execTeamPlacement, execStartTimeReached, execFetchwMailboxFill, execSavePreemption,
      execContextRecordWrite, execPhaseAbort, execClusterTokenPass, execEscalationNotify, execContextRestore]
    repeat' split
    all_goals exact ⟨_, rfl⟩
  -- Events of the distributor, of memory, of the registers and of the fabric.
  | pageWalk | memoryScrub | dieTokenPass | wqEnable | wqDisable | dbgoutPop | winnowPlacementTimeout | winnowResultProcess
    | flitReceive | starvationGrant | linkRetryLimit | messageArrival | detourRelay | bouncedMessageReturn | uePacketReceive
    | hostComplexAccess | flitSlotGrant =>
    dsimp only [exec, execPageWalk, execMemoryScrub, execDieTokenPass, execWqEnable, execWqDisable, execDbgoutPop,
      execWinnowPlacementTimeout, execWinnowResultProcess, execFlitReceive, execStarvationGrant, execLinkRetryLimit,
      execMessageArrival, execDetourRelay, execBouncedMessageReturn, execUePacketReceive, execHostComplexAccess,
      execFlitSlotGrant]
    repeat' split
    all_goals exact ⟨_, rfl⟩
  | rrdqElementArrival => exact execRrdqElementArrival_goesOn ..
  | doorbellWrite => exact execDoorbellWrite_goesOn ..
  | winnowEnqueue core q packet => exact execWinnowEnqueue_goesOn core q packet s
  | registerWrite => exact execRegisterWrite_goesOn ..
  | mcMailboxRequest => exact execMcMailboxRequest_goesOn ..
  | _ => cases hi

/-! ## Steps -/

theorem exec_goesOn (i : Instr) (s : State) : GoesOn (exec i s) := by
  cases hi : i.isEvent
  · exact instruction_goesOn i hi s
  · exact event_goesOn i hi s

theorem issueNext_goesOn (s : State) : GoesOn s.issueNext := by
  dsimp only [State.issueNext]
  split
  · exact ⟨_, rfl⟩
  · split
    · exact ⟨_, rfl⟩
    · exact ⟨_, rfl⟩
    · split <;> exact exec_goesOn ..

/-- Every move of the package is an issue or an event. -/
theorem step_goesOn (s : State) : GoesOn (step s) := by
  dsimp only [step]
  split
  · split
    · exact exec_goesOn ..
    · exact ⟨_, rfl⟩
  · split
    · exact ⟨_, rfl⟩
    · exact issueNext_goesOn _
    · exact exec_goesOn ..
    · exact exec_goesOn (.teamPlacement _ _) _
    · exact exec_goesOn (.contextRestore _ _) _
    · exact exec_goesOn (.agentHeartbeat _) _
    · exact exec_goesOn (.messageArrival _) _

end Sys2Proof.Machine

/-- Settles O58: an instruction is one issue (`issue_goesOn`), every branch of an event is a next state, and a step is one of the two. -/
theorem everyStepGoesOn : Obligations.EveryStepGoesOn :=
  ⟨Sys2Proof.Machine.exec_goesOn, Sys2Proof.Machine.step_goesOn⟩

/-! SUPPORT. Pods by identity: what a change of one pod, of every pod, or of the issuing pod gives when a pod is looked up; and what the
events of a pod that waits do. -/
namespace Sys2Proof.Machine

open Claims

/-! ## Looking a pod up -/

theorem State.findPod_id {s : State} {p : PodId} {q : Pod} (hq : s.findPod p = some q) : q.id = p := by
  simpa using List.find?_some hq

/-- A change of every pod that keeps identities changes the pod that is found. -/
theorem State.findPod_mapPods (s : State) (f : Pod → Pod) (hf : ∀ x, (f x).id = x.id) (p : PodId) :
    (s.mapPods f).findPod p = (s.findPod p).map f := by
  have hid : (fun x : Pod => decide (x.id = p)) ∘ f = fun x => decide (x.id = p) := by funext x; simp [hf]
  simp only [State.findPod, State.allPods, State.mapPods_pod, State.mapPods_pods, ← List.map_cons, List.find?_map, hid]

/-- A change of one pod that keeps its identity changes no other. -/
theorem State.onlyPod_onPod {s : State} {p : PodId} {q q' : Pod} {f : Pod → Pod} (hq : s.findPod p = some q)
    (hf : ∀ x, (f x).id = x.id) (hfq : f q = q') : OnlyPod s (s.onPod p f) p q' := by
  have hid : ∀ x : Pod, (if x.id = p then f x else x).id = x.id := by
    intro x; split
    · exact hf x
    · rfl
  refine ⟨?_, fun r hr => ?_⟩
  · rw [State.onPod, State.findPod_mapPods _ _ hid, hq, Option.map_some, if_pos (State.findPod_id hq), hfq]
  · rw [State.onPod, State.findPod_mapPods _ _ hid]
    cases hx : s.findPod r with
    | none => rfl
    | some x => rw [Option.map_some, if_neg (State.findPod_id hx ▸ hr)]

/-- A pod that exists is the issuing one after a switch to it. -/
theorem State.switchTo_pod {s : State} {p : PodId} {q : Pod} (hq : s.findPod p = some q) : (s.switchTo p).pod = q := by
  simp only [State.switchTo, hq]
  split <;> rfl

/-! ## Due traps (R38, R266) -/

theorem State.trapReady_of_complete {s : State} {q : Pod} {r : TrapReq} {n : Nat} (hr : q.raised = some (r, n))
    (hp : ∀ x ∈ q.pend, x.serial ≠ n) (ho : ∀ o ∈ s.ops, o.pod = q.id → o.serial = n → o.state ≠ .running) : s.trapReady q = true := by
  simp only [State.trapReady, hr, Bool.and_eq_true, List.all_eq_true, bne_iff_ne, Bool.not_eq_true', Bool.and_eq_false_imp,
    beq_eq_false_iff_ne, beq_iff_eq]
  exact ⟨hp, fun o h ⟨hpod, hserial⟩ => ho o h hpod hserial⟩

/-- R38, R266: the entry that was put off takes place once it is ready. -/
theorem trapsComeDue : TheTrapsComeDue := by
  intro s p q r n hq hr hp ho u
  refine ⟨?_, ?_⟩
  · show execTrapEntry p s = _
    simp only [execTrapEntry, hq, State.trapReady_of_complete hr hp ho, hr, Bool.not_true, Bool.false_eq_true, if_false, u]
  · show { (s.switchTo p).pod with raised := none } = _
    rw [State.switchTo_pod hq]

/-! ## The ends of waits (R239, R245) -/

/-- A pod whose wait has come to its end notes it, and no other pod changes. -/
theorem State.onlyPod_wakeWait {s : State} {p : PodId} {q : Pod} {w : Wait} {u now : Nat} {k : WaitKind} (hq : s.findPod p = some q)
    (hw : q.wait = some w) (hu : w.until_ = some u) (h0 : u ≠ 0) (hk : w.kind = k) (hn : u ≤ now) :
    OnlyPod s (s.wakeWait p k now) p { q with wait := some { w with until_ := some 0 } } := by
  have hover : q.waitOver k now = true := by simp [Pod.waitOver, hw, hu, h0, hk, hn]
  refine State.onlyPod_onPod hq (fun x => ?_) ?_
  · split <;> rfl
  · simp only [hover, if_true, hw, Option.map_some]

theorem waitsEnd : TheWaitsEnd := by
  intro s p q w u hq hw hu h0
  refine ⟨?_, ?_, ?_, ?_⟩ <;> exact fun hk hn => ⟨_, rfl, State.onlyPod_wakeWait hq hw hu h0 hk hn⟩

/-! ## Scheduling (R12, R54 to R56) -/

theorem execPodSwap_of_due {s : State} {p : PodId} {q : Pod} {c : Nat} (hq : s.findPod p = some q) (hc : s.coreOfPod p = some c)
    (hd : s.swapDue q = true) : execPodSwap p s = .next (s.swapOut p c) := by
  simp only [execPodSwap, hq, hc, hd, if_true]

theorem execPodPromotion_of_due {s : State} {p : PodId} {q o : Pod} {c : Nat} (hq : s.findPod p = some q) (hc : s.coreOfPod p = some c)
    (hd : s.promotionDue q = true) (ho : leastRecent (s.activeSet c p.slice) = some o) :
    execPodPromotion p s = .next (s.exchange c p.slice o.id p) := by
  simp only [execPodPromotion, hq, hc, hd, ho, Bool.not_true, Bool.false_eq_true, if_false]

theorem execSpinDemotionEnd_of_due {s : State} {p : PodId} {q : Pod} {u : Nat} (hq : s.findPod p = some q)
    (hd : q.sched.demoted = some u) (hu : u ≤ s.cycle) : ∃ t, execSpinDemotionEnd p s = .next t ∧
      OnlyPod s t p { q with sched := { q.sched with demoted := none } } := by
  refine ⟨_, rfl, State.onlyPod_onPod hq (fun x => ?_) ?_⟩
  · repeat' split
    all_goals rfl
  · simp only [hd, hu, if_true]

/-- R56: a pod whose wait, demotion and time in the pending set do not count an issue hold of some cycles. -/
def Pod.heldFor (n : Nat) (p : Pod) : Pod :=
  { p with
    wait := p.wait.map fun w => { w with since := w.since + n }
    sched := { p.sched with demoted := p.sched.demoted.map (· + n), pending := p.sched.pending + n } }

/-- R12, R56: what an issue hold sets, and that it holds every pod. -/
theorem execMcIssueHold_holds (s : State) (n : Nat) : ∃ t, execMcIssueHold n s = .next t ∧ t.hold = max s.hold s.cycle + n ∧
    t.cycle = s.cycle ∧ ∀ p, t.findPod p = (s.findPod p).map (Pod.heldFor n) :=
  ⟨_, rfl, rfl, rfl, State.findPod_mapPods s (Pod.heldFor n) fun _ => rfl⟩

/-- R12: under an issue hold no pod can issue. -/
theorem State.canIssue_of_hold {s : State} (h : s.cycle < s.hold) (t : Team) (p : Pod) : s.canIssue t p = false := by
  have hh : decide (s.hold ≤ s.cycle) = false := decide_eq_false (by omega)
  simp only [State.canIssue, hh, Bool.and_false, Bool.false_and]

theorem scheduling : TheScheduling := by
  intro s p q hq
  refine ⟨fun c hc hd => execPodSwap_of_due hq hc hd, fun c o hc hd ho => execPodPromotion_of_due hq hc hd ho,
    fun u hd hu => execSpinDemotionEnd_of_due hq hd hu, fun n => ?_⟩
  obtain ⟨t, he, hh, hc, hp⟩ := execMcIssueHold_holds s n
  refine ⟨t, he, hh, hc, fun u T r hu hlt => State.canIssue_of_hold (hu ▸ hlt) T r, ?_⟩
  rw [hp, hq]
  rfl

/-! ## Ring deadlock (R383) -/

theorem ringDeadlock : TheRingDeadlock := by
  intro s tid x hx hd u ring
  show execQueueDeadlock tid s = _
  simp only [execQueueDeadlock, hx, hd, Bool.not_true, Bool.false_eq_true, if_false]
  refine congrArg Host.Outcome.next (congrArg (fun f => List.foldl f u _) ?_)
  funext s q
  rcases hw : q.wait with _ | ⟨k, since, until_, seen⟩
  · simp only [ring, hw]
  · cases k <;> simp only [ring, hw]

end Sys2Proof.Machine

/-- Settles O43: a due trap enters, the end of a wait is noted, the scheduler's exchanges take place, and a deadlock of rings is raised. -/
theorem podsWaitAndGoOn : Obligations.PodsWaitAndGoOn :=
  ⟨Sys2Proof.Machine.trapsComeDue, Sys2Proof.Machine.waitsEnd, Sys2Proof.Machine.scheduling, Sys2Proof.Machine.ringDeadlock⟩

/-! SUPPORT. A word that decodes is put together again from its fields, and the decoder and the encoder undo each other. -/
namespace Sys2Proof

/-! ## A word from its fields -/

/-- Two ranges of a word that meet. -/
theorem extract_append {k : Nat} (w : BitVec k) {s s' m n : Nat} (h : s' = s + n) :
    w.extractLsb' s' m ++ w.extractLsb' s n = w.extractLsb' s (m + n) := by
  subst h
  ext i hi
  simp only [BitVec.getElem_append, BitVec.getElem_extractLsb']
  split
  · rfl
  · congr 1; omega

/-- A bit of a word as a range of it. -/
theorem ofBool_getLsbD {k : Nat} (w : BitVec k) (i : Nat) : BitVec.ofBool (w.getLsbD i) = w.extractLsb' i 1 := by
  ext j hj
  obtain rfl : j = 0 := by omega
  simp

/-- R64: the opcode, the guard, the hints and the 61 bits between them are the whole word. -/
theorem encWord_fields (w : IWord) : encWord w.op w.head (w.extractLsb' 20 61) = w := by
  simp only [encWord, IWord.op, IWord.head, ofBool_getLsbD]
  repeat rw [extract_append _ (by rfl)]
  exact extract_all w

section
variable {w : IWord} {op : BitVec 10}

/-- A form whose fields cover the 61 bits gives the word back. -/
theorem encWord_of_body {b : BitVec 61} (h : w.op = op) (hb : b = w.extractLsb' 20 61) : encWord op w.head b = w := by
  rw [← h, hb, encWord_fields]

@[simp] theorem encR_fields (h : w.op = op) : encR op w.head w.formR = w := encWord_of_body h <| by
  simp only [IWord.formR]
  repeat rw [extract_append _ (by rfl)]

@[simp] theorem encI_fields (h : w.op = op) : encI op w.head w.formI = w := encWord_of_body h <| by
  simp only [IWord.formI]
  repeat rw [extract_append _ (by rfl)]

@[simp] theorem encM_fields (h : w.op = op) : encM op w.head w.formM = w := encWord_of_body h <| by
  simp only [IWord.formM, ofBool_getLsbD]
  repeat rw [extract_append _ (by rfl)]

@[simp] theorem encQ_fields (h : w.op = op) : encQ op w.head w.formQ = w := encWord_of_body h <| by
  simp only [IWord.formQ]
  repeat rw [extract_append _ (by rfl)]

@[simp] theorem encB_fields (h : w.op = op) : encB op w.head w.formB = w := encWord_of_body h <| by
  simp only [IWord.formB]
  repeat rw [extract_append _ (by rfl)]

@[simp] theorem encRI_fields (h : w.op = op) : encRI op w.head w.formRI = w := by
  unfold IWord.formRI
  split
  · exact encI_fields h
  · exact encR_fields h

end

/-! ## The opcode map, read backwards -/

/-- The word of the instruction is `w`, and the hints of `w` keep their rule (R64) if the instruction is well-formed. -/
def Spells (w : IWord) (i : Instr) : Prop := encode i = w ∧ (WellFormed i = true → w.head.wf = true)

/-- Whatever a group of the opcode map gives for the word of an opcode `k` above the group's first one has that word (R99). -/
def GroupSpells (base : Nat) (group : IWord → Head → Nat → Option Instr) : Prop :=
  ∀ (w : IWord) (k : Nat) (i : Instr), w.op = BitVec.ofNat 10 (base + k) → group w w.head k = some i → Spells w i

/-! Opcode by opcode: the form that the opcode has spells the word (`encR_fields` to `encRI_fields`), and the rule of the hints is part of
`WellFormed`. -/

theorem groupA_spells : GroupSpells 0x000 decodeGroupA := fun w k i ho hd => by
  unfold decodeGroupA at hd
  split at hd <;> cases hd <;> simp +contextual [Spells, encode, WellFormed, ho]

theorem groupB_spells : GroupSpells 0x040 decodeGroupB := fun w k i ho hd => by
  unfold decodeGroupB at hd
  split at hd <;> cases hd <;> simp +contextual [Spells, encode, WellFormed, ho]

theorem groupC_spells : GroupSpells 0x0C0 decodeGroupC := fun w k i ho hd => by
  unfold decodeGroupC at hd
  split at hd <;> cases hd <;> simp +contextual [Spells, encode, WellFormed, ho]

theorem groupD_spells : GroupSpells 0x180 decodeGroupD := fun w k i ho hd => by
  unfold decodeGroupD at hd
  split at hd <;> cases hd <;> simp +contextual [Spells, encode, WellFormed, ho]

theorem groupE_spells : GroupSpells 0x1C0 decodeGroupE := fun w k i ho hd => by
  unfold decodeGroupE at hd
  split at hd <;> cases hd <;> simp +contextual [Spells, encode, WellFormed, ho]

theorem groupF_spells : GroupSpells 0x240 decodeGroupF := fun w k i ho hd => by
  unfold decodeGroupF at hd
  split at hd <;> cases hd <;> simp +contextual [Spells, encode, WellFormed, ho]

theorem groupG_spells : GroupSpells 0x280 decodeGroupG := fun w k i ho hd => by
  unfold decodeGroupG at hd
  split at hd <;> cases hd <;> simp +contextual [Spells, encode, WellFormed, ho]

theorem groupH_spells : GroupSpells 0x2C0 decodeGroupH := fun w k i ho hd => by
  unfold decodeGroupH at hd
  split at hd <;> cases hd <;> simp +contextual [Spells, encode, WellFormed, ho]

section
variable {w : IWord} {i : Instr}

theorem GroupSpells.of_op {base : Nat} {group : IWord → Head → Nat → Option Instr} (g : GroupSpells base group)
    (hb : base ≤ w.op.toNat) (hd : group w w.head (w.op.toNat - base) = some i) : Spells w i :=
  g w _ i (by rw [Nat.add_sub_cancel' hb, BitVec.ofNat_toNat, BitVec.setWidth_eq]) hd

/-- What the opcode map gives for a word has that word (R99). -/
theorem spells_of_decodeOp (hd : decodeOp w = some i) : Spells w i := by
  simp only [decodeOp] at hd
  split at hd
  · exact groupA_spells.of_op (Nat.zero_le _) hd
  split at hd
  · exact groupB_spells.of_op (by omega) hd
  split at hd
  · exact groupC_spells.of_op (by omega) hd
  split at hd
  · exact groupD_spells.of_op (by omega) hd
  split at hd
  · exact groupE_spells.of_op (by omega) hd
  split at hd
  · exact groupF_spells.of_op (by omega) hd
  split at hd
  · exact groupG_spells.of_op (by omega) hd
  split at hd
  · exact groupH_spells.of_op (by omega) hd
  · cases hd

end

namespace Laws.Encodes

/-- An instruction that keeps its rules is what the opcode map gives for its word: the laws of this namespace, together. -/
theorem decodeOp_encode (i : Instr) (hw : WellFormed i = true) (hl : i.legal = true) : decodeOp (encode i) = some i := by
  cases i with
  | nop => exact nop _ _ hw rfl | bra => exact bra _ _ hw rfl | brx => exact brx _ _ hw rfl | call => exact call _ _ hw rfl
  | callx => exact callx _ _ hw rfl | ret => exact ret _ _ hw rfl | exitT => exact exitT _ _ hw rfl | loop => exact loop _ _ hw rfl
  | loopc => exact loopc _ _ hw rfl | leave => exact leave _ _ hw rfl | phase => exact phase _ _ hw rfl | sync => exact sync _ _ hw rfl
  | waitf => exact waitf _ _ hw rfl | yield => exact yield _ _ hw rfl | sleep => exact sleep _ _ hw rfl | holdt => exact holdt _ _ hw rfl
  | trap => exact trap _ _ hw rfl | brk => exact brk _ _ hw rfl | rtt => exact rtt _ _ hw rfl | clrc => exact clrc _ _ hw rfl
  | setc => exact setc _ _ hw rfl | rdsr => exact rdsr _ _ hw rfl | wrsr => exact wrsr _ _ hw rfl | launch => exact launch _ _ hw rfl
  | waitch => exact waitch _ _ hw rfl | fetchw => exact fetchw _ _ hw rfl | time => exact time _ _ hw rfl
  | icinv => exact icinv _ _ hw rfl | prio => exact prio _ _ hw rfl | halt => exact halt _ _ hw rfl | resume => exact resume _ _ hw rfl
  | abortp => exact abortp _ _ hw rfl | acorn => exact acorn _ _ hw rfl | iadd => exact iadd _ _ hw rfl | isub => exact isub _ _ hw rfl
  | iaddc => exact iaddc _ _ hw rfl | isubb => exact isubb _ _ hw rfl | imul => exact imul _ _ hw rfl | imulh => exact imulh _ _ hw rfl
  | imad => exact imad _ _ hw rfl | idiv => exact idiv _ _ hw rfl | irem => exact irem _ _ hw rfl | ineg => exact ineg _ _ hw rfl
  | iabs => exact iabs _ _ hw rfl | imin => exact imin _ _ hw rfl | imax => exact imax _ _ hw rfl | iclamp => exact iclamp _ _ hw rfl
  | isad => exact isad _ _ hw rfl | shl => exact shl _ _ hw rfl | shr => exact shr _ _ hw rfl | shra => exact shra _ _ hw rfl
  | rotl => exact rotl _ _ hw rfl | shfd => exact shfd _ _ hw rfl | andB => exact andB _ _ hw rfl | orB => exact orB _ _ hw rfl
  | xorB => exact xorB _ _ hw rfl | andn => exact andn _ _ hw rfl | notB => exact notB _ _ hw rfl | lop3 => exact lop3 _ _ hw rfl
  | bfe => exact bfe _ _ hw rfl | bfi => exact bfi _ _ hw rfl | brev => exact brev _ _ hw rfl | popc => exact popc _ _ hw rfl
  | clz => exact clz _ _ hw rfl | ctz => exact ctz _ _ hw rfl | bytep => exact bytep _ _ hw rfl | isetp => exact isetp _ _ hw rfl
  | isel => exact isel _ _ hw rfl | plop => exact plop _ _ hw rfl | ptov => exact ptov _ _ hw rfl | vtop => exact vtop _ _ hw rfl
  | mov => exact mov _ _ hw rfl | movi => exact movi _ _ hw rfl | kget => exact kget _ _ hw rfl | lea => exact lea _ _ hw rfl
  | tagOp => exact tagOp _ _ hw rfl | fadd => exact fadd _ _ hw rfl | fsub => exact fsub _ _ hw rfl | fmul => exact fmul _ _ hw rfl
  | ffma => exact ffma _ _ hw rfl | fmin => exact fmin _ _ hw rfl | fmax => exact fmax _ _ hw rfl | fminn => exact fminn _ _ hw rfl
  | fmaxn => exact fmaxn _ _ hw rfl | fabs => exact fabs _ _ hw rfl | fneg => exact fneg _ _ hw rfl | fsgn => exact fsgn _ _ hw rfl
  | fsetp => exact fsetp _ _ hw rfl | fclass => exact fclass _ _ hw rfl | frcp => exact frcp _ _ hw rfl | frsq => exact frsq _ _ hw rfl
  | fsqrt => exact fsqrt _ _ hw rfl | fdiv => exact fdiv _ _ hw rfl | fexp2 => exact fexp2 _ _ hw rfl | flog2 => exact flog2 _ _ hw rfl
  | fsin => exact fsin _ _ hw rfl | fcos => exact fcos _ _ hw rfl | ftanh => exact ftanh _ _ hw rfl | frnd => exact frnd _ _ hw rfl
  | ffrc => exact ffrc _ _ hw rfl | fscale => exact fscale _ _ hw rfl | fgetx => exact fgetx _ _ hw rfl | hadd2 => exact hadd2 _ _ hw rfl
  | hmul2 => exact hmul2 _ _ hw rfl | hfma2 => exact hfma2 _ _ hw rfl | hmin2 => exact hmin2 _ _ hw rfl | hmax2 => exact hmax2 _ _ hw rfl
  | cvt => exact cvt _ _ hw rfl | cvti => exact cvti _ _ hw rfl | cvtf => exact cvtf _ _ hw rfl | pack => exact pack _ _ hw rfl
  | unpk => exact unpk _ _ hw rfl | pk6 => exact pk6 _ _ hw rfl | upk6 => exact upk6 _ _ hw rfl | dot2 => exact dot2 _ _ hw rfl
  | dot4 => exact dot4 _ _ hw rfl | dot8 => exact dot8 _ _ hw rfl | dott => exact dott _ _ hw rfl | rdfl => exact rdfl _ _ hw rfl
  | clfl => exact clfl _ _ hw rfl | shfl => exact shfl _ _ hw rfl | perm => exact perm _ _ hw rfl | votea => exact votea _ _ hw rfl
  | voten => exact voten _ _ hw rfl | ballot => exact ballot _ _ hw rfl | matchOp => exact matchOp _ _ hw rfl
  | elect => exact elect _ _ hw rfl | part => exact part _ _ hw rfl | gmask => exact gmask _ _ hw rfl | amask => exact amask _ _ hw rfl
  | gred => exact gred _ _ hw rfl | gscan => exact gscan _ _ hw rfl | gbcast => exact gbcast _ _ hw rfl | gsort => exact gsort _ _ hw rfl
  | tred => exact tred _ _ hw rfl | tscan => exact tscan _ _ hw rfl | ld => exact ld _ _ hw rfl | st => exact st _ _ hw rfl
  | lds => exact lds _ _ hw rfl | sts => exact sts _ _ hw rfl | ldc => exact ldc _ _ hw rfl | prf => exact prf _ _ hw rfl
  | atom => exact atom _ _ hw rfl | red => exact red _ _ hw rfl | atoms => exact atoms _ _ hw rfl | reds => exact reds _ _ hw rfl
  | txb => exact txb _ _ hw rfl | txe => exact txe _ _ hw rfl | txa => exact txa _ _ hw rfl | txst => exact txst _ _ hw rfl
  | fence => exact fence _ _ hw rfl | ofence => exact ofence _ _ hw rfl | cpy => exact cpy _ _ hw rfl | tagwa => exact tagwa _ _ hw rfl
  | tagwn => exact tagwn _ _ hw rfl | tagff => exact tagff _ _ hw rfl | wrq => exact wrq _ _ hw rfl | smap => exact smap _ _ hw rfl
  | sdrop => exact sdrop _ _ hw rfl | spub => exact spub _ _ hw rfl | cctl => exact cctl _ _ hw rfl | tiercp => exact tiercp _ _ hw rfl
  | qbind => exact qbind _ _ hw rfl | qfree => exact qfree _ _ hw rfl | qpush => exact qpush _ _ hw rfl | qpop => exact qpop _ _ hw rfl
  | qpeek => exact qpeek _ _ hw rfl | qstat => exact qstat _ _ hw rfl | qres => exact qres _ _ hw rfl | qpub => exact qpub _ _ hw rfl
  | qwait => exact qwait _ _ hw rfl | ldq => exact ldq _ _ hw rfl | stq => exact stq _ _ hw rfl | rrdq => exact rrdq _ _ hw rfl
  | subs => exact subs _ _ hw rfl | drainq => exact drainq _ _ hw rfl | lcbr => exact lcbr _ _ hw rfl | qflush => exact qflush _ _ hw rfl
  | mma => exact mma _ _ hw rfl | mmat => exact mmat _ _ hw rfl | mmas => exact mmas _ _ hw rfl | tdef => exact tdef _ _ hw rfl
  | tdrop => exact tdrop _ _ hw rfl | mvs => exact mvs _ _ hw rfl | svs => exact svs _ _ hw rfl | coll => exact coll _ _ hw rfl
  | gbar => exact gbar _ _ hw rfl | hwait => exact hwait _ _ hw rfl | htest => exact htest _ _ hw rfl | hcan => exact hcan _ _ hw rfl
  | hpass => exact hpass _ _ hw rfl | htake => exact htake _ _ hw rfl | cntsel => exact cntsel _ _ hw rfl
  | cntrd => exact cntrd _ _ hw rfl | cntsnap => exact cntsnap _ _ hw rfl | rcinc => exact rcinc _ _ hw rfl
  | rcsnap => exact rcsnap _ _ hw rfl | wpset => exact wpset _ _ hw rfl | bpset => exact bpset _ _ hw rfl
  | dmbox => exact dmbox _ _ hw rfl | dstep => exact dstep _ _ hw rfl
  -- An event is not legal.
  | _ => cases hl

end Laws.Encodes

/-! ## Decoding -/

/-- A word decodes to what the opcode map gives, unless a rule of the hints, of its form or of its opcode is broken (R84). -/
theorem decode_eq_ok {w : IWord} {i : Instr} :
    decode w = .ok i ↔ decodeOp w = some i ∧ w.head.wf = true ∧ WellFormed i = true ∧ i.legal = true := by
  unfold decode
  cases hd : decodeOp w with
  | none => simp
  | some j =>
    constructor
    · intro h
      dsimp only at h
      split at h
      · cases h
      split at h
      · cases h
      split at h
      · cases h
      obtain rfl : j = i := Except.ok.inj h
      rename_i hh hw hl
      exact ⟨rfl, by simpa using hh, by simpa using hw, by simpa using hl⟩
    · rintro ⟨hj, hh, hw, hl⟩
      obtain rfl : j = i := Option.some.inj hj
      simp [hh, hw, hl]

end Sys2Proof

/-- Settles O55: the fields of an assembled word are the ones it was assembled from, and the fields of a word assemble to it. -/
theorem decodeAndEncodeAgree : Obligations.DecodeAndEncodeAgree := by
  refine ⟨fun i hw hl => ?_, fun w i h => ?_⟩
  · have hd := Sys2Proof.Laws.Encodes.decodeOp_encode i hw hl
    exact Sys2Proof.decode_eq_ok.mpr ⟨hd, (Sys2Proof.spells_of_decodeOp hd).2 hw, hw, hl⟩
  · obtain ⟨hd, -, hw, hl⟩ := Sys2Proof.decode_eq_ok.mp h
    exact ⟨(Sys2Proof.spells_of_decodeOp hd).1, hw, hl⟩

/-! SUPPORT. Words whose opcode lies above the opcode map. -/
namespace Sys2Proof

/-- R84, R99: the opcode map ends at 0x2DF. -/
theorem decode_of_op_ge {w : IWord} (h : 0x2E0 ≤ w.op.toNat) : decode w = .error .unassigned := by
  have hd : decodeOp w = none := by
    simp only [decodeOp]
    repeat rw [if_neg (by omega)]
  rw [decode, hd]

end Sys2Proof

/-- Settles O56: the words are evaluated, and `decode_of_op_ge` says that the map ends. -/
theorem wordsOfTheManual : Obligations.WordsOfTheManual := by
  unfold Obligations.WordsOfTheManual
  intro h
  refine ⟨?_, ?_, ?_, ?_, ?_, ?_, ?_, ?_, ?_, ?_, ?_, fun w hw => Sys2Proof.decode_of_op_ge hw⟩ <;> rfl

/-! SUPPORT. New operations, the reads of old handles, and copies. -/
namespace Sys2Proof.Machine

open Claims

/-! ## Flags that operations hold (R66) -/

theorem Pod.nameFlag_frame (p : Pod) (f : BitVec 4) (n : Nat) : p.nameFlag f n = { p with flags := (p.nameFlag f n).flags } := by
  unfold Pod.nameFlag; split <;> rfl

theorem Pod.dropFlag_frame (p : Pod) (f : BitVec 4) : p.dropFlag f = { p with flags := (p.dropFlag f).flags } := by
  unfold Pod.dropFlag; split <;> rfl

theorem Pod.nameFlag_flags (p : Pod) (f : BitVec 4) (n : Nat) {g : Nat} (hg : g < 12) :
    (p.nameFlag f n).flags.get g = p.flags.get g + if f.toNat = g then BitVec.ofNat 16 n else 0 := by
  by_cases hf : f.toNat = g
  · rw [nameFlag_eq _ _ _ (hf ▸ hg)]; simp [hf]
  · unfold Pod.nameFlag
    split <;> simp [Ne.symm hf]

/-! ## A new operation (R400) -/

theorem operationsStart : TheOperationsStart := by
  intro c reg setb k s
  have hp : (c.issueOp reg setb k s).2.pod =
      { s.pod with h := (c.issueOp reg setb k s).2.pod.h, flags := ((s.pod.nameFlag c.head.seta 1).nameFlag setb 1).flags } := by
    have h1 := Pod.nameFlag_frame s.pod c.head.seta 1
    have h2 := Pod.nameFlag_frame (s.pod.nameFlag c.head.seta 1) setb 1
    cases reg <;> simp only [Ctx.issueOp, State.setPod] <;> rw [h2, h1]
  have hf : (c.issueOp reg setb k s).2.pod.flags = ((s.pod.nameFlag c.head.seta 1).nameFlag setb 1).flags := by rw [hp]
  refine ⟨rfl, rfl, rfl, rfl, rfl, rfl, rfl, rfl, ?_, fun r => ?_, fun f hlt => ?_⟩
  · rw [hf]; exact hp
  · have hh : ((s.pod.nameFlag c.head.seta 1).nameFlag setb 1).h = s.pod.h := by rw [Pod.nameFlag_frame, Pod.nameFlag_frame]
    cases reg with
    | none => exact congrArg (·.get r) hh
    | some q => simp [Ctx.issueOp, State.setPod, hh, eq_comm]
  · rw [hf, Pod.nameFlag_flags _ _ _ hlt, Pod.nameFlag_flags _ _ _ hlt]
    rfl

/-! ## What the debugger has set (R258, R519) -/

/-- The debugger steps and has halted the pod `q` as it does `p`. -/
def SameDebug (p q : Pod) : Prop := q.stepping = p.stepping ∧ q.halted = p.halted

theorem SameDebug.trans {p q r : Pod} (a : SameDebug p q) (b : SameDebug q r) : SameDebug p r :=
  ⟨b.1.trans a.1, b.2.trans a.2⟩

theorem sameDebug_nameFlag (p : Pod) (f : BitVec 4) (n : Nat) : SameDebug p (p.nameFlag f n) := by
  rw [Pod.nameFlag_frame]; exact ⟨rfl, rfl⟩

theorem sameDebug_dropFlag (p : Pod) (f : BitVec 4) : SameDebug p (p.dropFlag f) := by
  rw [Pod.dropFlag_frame]; exact ⟨rfl, rfl⟩

theorem sameDebug_conditions (rs : List (Nat × LaneRes)) (p : Pod) : SameDebug p (Machine.conditions rs p) := by
  rw [conditions_frame]; exact ⟨rfl, rfl⟩

theorem sameDebug_write (c : Ctx) (rs : List (Nat × LaneRes)) (s : State) : SameDebug s.pod (c.write rs s).pod := by
  rw [(Ctx.write_local c rs s).pod]; exact ⟨rfl, rfl⟩

theorem sameDebug_issueOp (c : Ctx) (reg : Option Nat) (setb : BitVec 4) (k : OpKind) (s : State) :
    SameDebug s.pod (c.issueOp reg setb k s).2.pod := by
  obtain ⟨-, -, -, -, -, -, -, -, hp, -⟩ := operationsStart c reg setb k s
  rw [hp]; exact ⟨rfl, rfl⟩

/-- The start of a copy: its tag is clear, the count of spins starts again, and its operation is new. -/
theorem sameDebug_start (c : Ctx) (reg : Option Nat) (k : OpKind) (x : Team) :
    SameDebug c.s.pod (c.issueOp reg 15 k (c.s.setTeam x).noteStore).2.pod := sameDebug_issueOp c reg 15 k _

theorem sameDebug_outstanding (c : Ctx) (kind : PendKind) (rs : List (Nat × LaneRes)) (s : State) :
    SameDebug s.pod (c.outstanding kind rs s).pod := by
  have later : ∀ l, SameDebug s.pod { (Machine.conditions (rs.map fun x => (x.1, { x.2 with fl := 0 })) s.pod).nameFlag
      c.head.seta rs.length with pend := l } :=
    fun l => (sameDebug_conditions _ _).trans (sameDebug_nameFlag _ _ _)
  have now : SameDebug s.pod (Machine.conditions rs (c.write rs s).pod) :=
    (sameDebug_write c rs s).trans (sameDebug_conditions _ _)
  unfold Ctx.outstanding
  dsimp only
  split
  · exact now
  · split
    · exact later _
    · exact later _
    · exact now

theorem sameDebug_onPod (s : State) (p : PodId) (f : Pod → Pod) (hf : ∀ q, SameDebug q (f q)) : SameDebug s.pod (s.onPod p f).pod := by
  show SameDebug s.pod (if s.pod.id = p then f s.pod else s.pod)
  split
  · exact hf _
  · exact ⟨rfl, rfl⟩

theorem State.detach_pod (s : State) (o : Op) : (s.detach o).pod = s.pod := by
  unfold State.detach; split <;> rfl

theorem sameDebug_completeOp (s : State) (o : Op) : SameDebug s.pod (s.completeOp o).pod := by
  show SameDebug s.pod ((s.detach o).dropFlags o).pod
  rw [← State.detach_pod s o]
  exact sameDebug_onPod _ _ _ fun q => (sameDebug_dropFlag q o.seta).trans (sameDebug_dropFlag _ o.setb)

theorem sameDebug_finishTier (s : State) (o : Op) (n : Nat) : SameDebug s.pod (s.finishTier o n).pod := sameDebug_completeOp ..

/-- An instruction whose meaning completes and leaves the debugger's settings alone does what its completion says. -/
theorem does_retires {i : Instr} {h : Head} {sp : State → Spec} {pre : Ctx → Prop} {body : Ctx → Eff} {u : Ctx → State}
    (he : ∀ s, exec i s = issue i h (sp s) body s) (hb : ∀ c, pre c → body c = .done (u c) 0)
    (hd : ∀ c, SameDebug c.s.pod (u c).pod) : Does i h sp pre fun c t => Retires c 0 (u c) t :=
  does_of he hb (fun c => (hd c).1) (fun c => (hd c).2) fun _ _ r => r

/-! ## The old handle of a register (R402) -/

/-- A handle register that names no operation is free for a new one. -/
theorem Ctx.afterOld_of_free {c : Ctx} {dst : Code} (h : HandleFree c dst) (go : State → Eff) :
    c.afterOld (classOf dst).2 go = go c.s := by
  unfold HandleFree at h
  unfold Ctx.afterOld
  dsimp only
  split
  · rfl
  · simp only [State.readHandle, h]

/-! ## CPY (R366, R367) -/

theorem CopyPart.bounds_eq_none {x : CopyPart} {t : Team} {sd ss : Bool} (hd : sd = true → t.sharedOk x.dst.toNat x.len = true)
    (hs : ss = true → t.sharedOk x.src.toNat x.len = true) : x.bounds t sd ss = none := by
  unfold CopyPart.bounds
  rw [if_neg (by simpa using hd), if_neg (by simpa using hs)]

/-- Shared operands that all keep R304 leave no thread to trap. -/
theorem Ctx.noBounds {c : Ctx} {sd ss : Bool}
    (h : ∀ t ∈ c.lanes, (sd = true → c.s.team.sharedOk (c.copyPart t).dst.toNat (c.copyPart t).len = true) ∧
      (ss = true → c.s.team.sharedOk (c.copyPart t).src.toNat (c.copyPart t).len = true)) :
    (c.lanes.filterMap fun t => ((c.copyPart t).bounds c.s.team sd ss).map fun a => (t, a)) = [] := by
  rw [List.filterMap_eq_nil_iff]
  intro t ht
  rw [CopyPart.bounds_eq_none (h t ht).1 (h t ht).2, Option.map_none]

/-! ## Waits on copy tags (R368) -/

section
variable {c : Ctx} {ready : Dword → Dword → Bool} {value : Dword → Nat}

/-- A wait on copy tags that no deferred fault meets is over when its mask is empty or its tags are as it asks. -/
theorem Ctx.awaitTags_done (hf : c.s.pod.tagFaults (c.addr 0 0) = [])
    (hr : c.addr 0 0 = 0 ∨ ready (c.addr 0 0) (c.addr 0 0 &&& c.s.team.ctag) = true) :
    c.awaitTags ready value =
      .done (c.outstanding .load [(c.lanes.headD 0, { val := value (c.addr 0 0 &&& c.s.team.ctag) })] c.s) 0 := by
  unfold Ctx.addr at hf hr ⊢
  simp only [Ctx.awaitTags, hf]
  rw [if_pos (by simpa using hr)]

/-- It goes on while they are not. -/
theorem Ctx.awaitTags_hold (hf : c.s.pod.tagFaults (c.addr 0 0) = []) (hm : c.addr 0 0 ≠ 0)
    (hr : ready (c.addr 0 0) (c.addr 0 0 &&& c.s.team.ctag) = false) : c.awaitTags ready value = .hold .tag c.s := by
  unfold Ctx.addr at hf hm hr
  simp only [Ctx.awaitTags, hf]
  rw [if_neg (by rw [hr, Bool.or_false]; exact fun e => hm (of_decide_eq_true e))]

end

theorem copies : TheCopies := by
  intro h
  refine ⟨fun f => ⟨?_, ?_, ?_⟩, fun f => ?_, fun f => ⟨?_, ?_, ?_⟩, fun f => ?_⟩
  -- CPY starts its copy, waits for its tag, and traps.
  · refine does_retires (fun s => execCpy.eq_1 h f s) (fun c ⟨htx, hn, hfit, hirr⟩ => ?_) fun c => sameDebug_start ..
    rw [outsideTx_of c _ htx]
    dsimp only
    rw [if_neg (by rw [hn]; exact Bool.false_ne_true), Ctx.noBounds hfit]
    exact if_neg (by simpa using hirr)
  · refine waits_of (fun s => execCpy.eq_1 h f s) fun c ⟨htx, hn⟩ => ?_
    rw [outsideTx_of c _ htx]
    exact if_pos hn
  · refine traps_of (fun s => execCpy.eq_1 h f s) fun c ⟨htx, hn, hfit, hsd, hb⟩ => ?_
    rw [outsideTx_of c _ htx]
    dsimp only
    rw [if_neg (by rw [hn]; exact Bool.false_ne_true), Ctx.noBounds hfit]
    exact if_pos (by rw [hsd, hb]; rfl)
  -- TIERCP starts its copy, or is complete at once when it has no page to copy.
  · refine does_retires (fun s => execTiercp.eq_1 h f s) (fun c ⟨htx, hd, hs, hb, hn, hfree⟩ => ?_) fun c => ?_
    · rw [outsideTx_of c _ htx]
      simp only [Ctx.addr] at hd hs
      simp only [hd, hs, hb, hn, Ctx.afterOld_of_free hfree, ne_eq, not_true_eq_false, if_false, Bool.false_eq_true]
      rfl
    · dsimp only
      split
      · exact (sameDebug_start ..).trans (sameDebug_finishTier ..)
      · exact sameDebug_start ..
  -- TAGWA and TAGWN complete; TAGWA waits.
  · refine does_retires (fun s => execTagwa.eq_1 h f s) (fun c ⟨htx, hf, hs⟩ => ?_) fun c => sameDebug_outstanding ..
    rw [outsideTx_of c _ htx]
    exact Ctx.awaitTags_done hf (.inr (decide_eq_true hs))
  · refine does_retires (fun s => execTagwn.eq_1 h f s) (fun c ⟨htx, hf, hs⟩ => ?_) fun c => sameDebug_outstanding ..
    rw [outsideTx_of c _ htx]
    exact Ctx.awaitTags_done hf (hs.imp_right fun x => decide_eq_true x)
  · refine waits_of (fun s => execTagwa.eq_1 h f s) fun c ⟨htx, hf, hs⟩ => ?_
    rw [outsideTx_of c _ htx]
    exact Ctx.awaitTags_hold hf (fun h0 => hs (by dsimp only; rw [h0]; exact BitVec.zero_and)) (decide_eq_false hs)
  -- TAGFF.
  · refine does_retires (fun s => execTagff.eq_1 h f s) (fun c ⟨htx, hf⟩ => ?_) fun c => sameDebug_outstanding ..
    rw [outsideTx_of c _ htx]
    exact Ctx.awaitTags_done hf (.inr rfl)

end Sys2Proof.Machine

/-- Settles O33: a new operation is what `issueOp` adds, and each copy instruction ends its issue in the branch that its condition picks. -/
theorem copies : Obligations.Copies := ⟨Sys2Proof.Machine.operationsStart, Sys2Proof.Machine.copies⟩

/-! SUPPORT. How an issue ends that raises, stops before its instruction, or completes; and the registers that retirement keeps. -/
namespace Sys2Proof.Machine

open Claims

/-! ## The end of an issue -/

/-- An issue that does not wait ends in what its effect makes of the state, but for the event counters (R511). -/
theorem issue_ends {i : Instr} {h : Head} {sp : Spec} {s : State} (r : Ready i h sp s) {body : Ctx → Eff} {e : Eff} {v : State}
    (hb : body (issueCtx s h sp) = e) (hn : e.holds = false) (hv : s.begin.finish (issueCtx s h sp) e = v) :
    ∃ t, issue i h sp body s = .next t ∧ t = { v with ecnt := t.ecnt, free := t.free } ∧ Counted s v t := by
  rw [issue_of_ready r, hb, hn, if_neg Bool.false_ne_true, hv]
  have ho := State.countIssue_only v s.core (issueCtx s h sp).uni ((issueCtx s h sp).laneUse i e)
  refine ⟨_, rfl, ho.1, fun h0 => ?_, ho.2⟩
  rw [State.countIssue_off _ _ _ _ h0]
  exact ⟨rfl, rfl⟩

/-- A boundary at which the debugger stops nothing (R260). -/
theorem State.boundary_eq {s : State} (hs : s.pod.stepping = false) (hh : s.pod.halted = false) : s.boundary = s := by
  simp only [State.boundary, hs, hh, Bool.false_eq_true, if_false]

/-- An instruction that sets the control state itself, and whose pod the debugger does not stop (R248, R260). -/
theorem issue_stays {i : Instr} {h : Head} {sp : Spec} {s : State} (r : Ready i h sp s) {body : Ctx → Eff} {v : State}
    (hb : body (issueCtx s h sp) = .stay v) (hs : v.pod.stepping = false) (hh : v.pod.halted = false) :
    ∃ t, issue i h sp body s = .next t ∧ t = { v with ecnt := t.ecnt, free := t.free } ∧ Counted s v t :=
  issue_ends r hb rfl (State.boundary_eq hs hh)

/-- An instruction whose meaning brings the state to `u` and then raises a cause does what the trap says. -/
theorem trapsFrom_of {i : Instr} {h : Head} {sp : State → Spec} {pre : Ctx → Prop} {u : Ctx → State} {r : Ctx → TrapReq}
    {body : Ctx → Eff} (he : ∀ s, exec i s = issue i h (sp s) body s) (hb : ∀ c, pre c → body c = .raise (r c) (u c)) :
    TrapsFrom i h sp pre u r := by
  intro s rd hpre
  rw [he]
  exact issue_ends rd (hb _ hpre) rfl rfl

/-- An instruction that completes where its pod can issue it does what its completion says; its meaning may read the state before. -/
theorem does_of_issue {i : Instr} {h : Head} {sp : State → Spec} {pre : Ctx → Prop} {post : Ctx → State → Prop}
    {body : State → Ctx → Eff} {u : Ctx → State} (he : ∀ s, exec i s = issue i h (sp s) (body s) s)
    (hb : ∀ s, Ready i h (sp s) s → pre (issueCtx s h (sp s)) →
      body s (issueCtx s h (sp s)) = .done (u (issueCtx s h (sp s))) 0)
    (hd : ∀ c, SameDebug c.s.pod (u c).pod)
    (hp : ∀ s t, Ready i h (sp s) s → Retires (issueCtx s h (sp s)) 0 (u (issueCtx s h (sp s))) t → post (issueCtx s h (sp s)) t) :
    Does i h sp pre post := by
  intro s r hpre
  rw [he]
  obtain ⟨t, ht, hr⟩ := issue_done r (hb s r hpre) ((hd _).1.trans r.unstepped) ((hd _).2.trans r.unhalted)
  exact ⟨t, ht, hp s t r hr⟩

/-- An issue whose late check fails raises the cause and has no other effect (R38, R85). -/
theorem issue_late {i : Instr} {h : Head} {sp : Spec} {s : State} (body : Ctx → Eff) {x : Cause} {n : Nat} {a : Dword}
    (hw : s.pod.waitsOn h = false) (hd : s.pod.dueFaults h.wait = []) (hp : s.podCheck i h sp = none)
    (hl : sp.late = some (x, n, a)) : issue i h sp body s = .next (s.begin.raise (s.pod.before x n 0 a)) := by
  have h1 : s.begin.pod.waitsOn h = false := hw
  have h2 : s.begin.pod.dueFaults h.wait = [] := hd
  have h3 : s.begin.podCheck i h sp = none := hp
  simp only [issue, h1, h2, h3, hl, Bool.false_eq_true, if_false]
  rfl

/-- An issue that fails a whole-pod check raises the cause and has no other effect (R38, R85). -/
theorem issue_checked {i : Instr} {h : Head} {sp : Spec} {s : State} (body : Ctx → Eff) {x : Cause} {n : Nat}
    (hw : s.pod.waitsOn h = false) (hd : s.pod.dueFaults h.wait = []) (hp : s.podCheck i h sp = some (x, n)) :
    issue i h sp body s = .next (s.begin.raise (s.pod.before x n 0 0)) := by
  have h1 : s.begin.pod.waitsOn h = false := hw
  have h2 : s.begin.pod.dueFaults h.wait = [] := hd
  have h3 : s.begin.podCheck i h sp = some (x, n) := hp
  simp only [issue, h1, h2, h3, Bool.false_eq_true, if_false]
  rfl

/-- A rule of its own that an operand breaks is the first check that fails (R85). -/
theorem State.podCheck_of_bad {s : State} {i : Instr} {h : Head} {sp : Spec} (hi : sp.illegal = false) (hm : i.badModifier = false)
    (hb : sp.bad = true) : s.podCheck i h sp = some (.illegalOperand, 0) := by
  simp only [State.podCheck, hi, hm, hb, Bool.false_eq_true, if_false, Bool.or_true, if_true]

theorem stopsOperand_of {i : Instr} {h : Head} {sp : State → Spec} {body : State → Ctx → Eff}
    (he : ∀ s, exec i s = issue i h (sp s) (body s) s) : StopsOperand i h sp := by
  intro s hw hd hi hm hb
  rw [he]
  exact issue_checked _ hw hd (State.podCheck_of_bad hi hm hb)

theorem stopsLate_of {i : Instr} {h : Head} {sp : State → Spec} {body : State → Ctx → Eff} {when_ : State → Prop} {x : Cause}
    (he : ∀ s, exec i s = issue i h (sp s) (body s) s) (hl : ∀ s, when_ s → (sp s).late = some (x, 0, 0)) :
    StopsLate i h sp when_ x := by
  intro s hw hd hp hwhen
  rw [he]
  exact issue_late _ hw hd hp (hl s hwhen)

/-! ## What retirement keeps -/

section
variable {c : Ctx} {m : Mask} {u t : State} (r : Retires c m u t)
include r

theorem pod_of_retires : ∃ us ls tr tl tx sc,
    t.pod = { u.pod with user := us, loops := ls, trap := tr, trapLoops := tl, tx := tx, sched := sc
                         resumeAt := none, bpPass := none, wait := none, inside := false } := by
  have hp := congrArg State.pod r.state
  dsimp only at hp
  rw [retired, Pod.gone_frame] at hp
  exact ⟨_, _, _, _, _, _, hp⟩

theorem ops_of_retires : t.ops = u.ops := by rw [r.state]

theorem sameRegs_of_retires : SameRegs u t := by
  obtain ⟨_, _, _, _, _, _, hp⟩ := pod_of_retires r
  have ht : t.team = u.team := by rw [r.state]
  constructor <;> first | rw [hp] | rw [ht]

theorem p_of_retires : t.pod.p = u.pod.p := by
  obtain ⟨_, _, _, _, _, _, hp⟩ := pod_of_retires r
  rw [hp]

theorem seed_of_retires : t.pod.seed = u.pod.seed := by
  obtain ⟨_, _, _, _, _, _, hp⟩ := pod_of_retires r
  rw [hp]

end

theorem SameRegs.rdK {s t : State} (e : SameRegs s t) (r : Nat) : t.pod.rdK r = s.pod.rdK r := by
  simp only [Pod.rdK, e.k, e.bank, e.trapLevel]

/-- What an instruction puts in a uniform register of 32 bits is read there (R78). -/
theorem Ctx.put_rdK {c : Ctx} {d : Dst} {n : Nat} (hd : c.sp.dst = some d) (hc : classOf d.code = (.k, n)) (h1 : d.regs = 1)
    (x : Nat) (s : State) : (c.put x s).pod.rdK n = BitVec.ofNat 32 x := by
  simp only [Ctx.put, Ctx.write, hd, hc, h1, State.setPod_pod, Pod.rdK_wrKRun]
  simp

end Sys2Proof.Machine

/-! SUPPORT. Reading, testing, cancelling and passing handles. -/
namespace Sys2Proof.Machine

open Claims

/-! ## What a read of a handle answers (R335, R401) -/

section
variable {s : State} {tok : Word} {o : Op} (ho : s.opOf tok = some o)
include ho

theorem State.readHandle_complete (hs : o.state = .complete) (hl : o.isGbar = true → s.pod.loading = false) :
    s.readHandle tok = .ok (seenOp s o) := by
  simp only [State.readHandle, ho, hs]
  exact if_neg (by simpa using hl)

theorem State.readHandle_loading (hs : o.state = .complete) (hg : o.isGbar = true) (hl : s.pod.loading = true) :
    s.readHandle tok = .wait s := by
  simp only [State.readHandle, ho, hs]
  exact if_pos (by simp [hg, hl])

theorem State.readHandle_running (hs : o.state = .running) (hk : ∀ a x, o.kind ≠ .rcsnap a x) :
    s.readHandle tok = .wait (s.onOp o.token fun o => { o with readAt := some (o.readAt.getD s.cycle) }) := by
  have hw : s.rcWrite o = s := by
    unfold State.rcWrite
    split
    · exact absurd ‹_› (hk _ _)
    · rfl
  simp only [State.readHandle, ho, hs, hw, Option.elim]
  exact if_neg nofun

theorem State.readHandle_faulted (hs : o.state = .faulted) {x : Cause} {a : Dword} (hf : o.fault = some (x, a)) :
    s.readHandle tok = .fault x a (heldOp s o) := by
  simp only [State.readHandle, ho, hs, hf]
  rfl

end

theorem State.readHandle_none {s : State} {tok : Word} (ho : s.opOf tok = none) : s.readHandle tok = .invalid := by
  simp only [State.readHandle, ho]

theorem opOf_of_opAt {c : Ctx} {reg : Code} {x : Option Op} (hx : Ctx.opAt c reg = x) :
    c.s.opOf (c.s.pod.h.get (classOf reg).2) = x := hx

/-! ## HWAIT (R406) -/

theorem handleReads : TheHandleReads := by
  intro h f o
  refine ⟨?_, ?_, ?_, fun x a => ?_, ?_⟩
  -- A complete operation, a GBAR whose pod still loads, a running operation, a faulted one, and none.
  · refine does_retires (fun s => execHwait.eq_1 h f s) (fun c ⟨ho, hs, hl⟩ => ?_) fun _ => ⟨rfl, rfl⟩
    simp only [State.readHandle_complete ho hs hl]
  · refine waits_of (fun s => execHwait.eq_1 h f s) fun c ⟨ho, hs, hg, hl⟩ => ?_
    simp only [State.readHandle_loading ho hs hg hl]
  · refine waits_of (fun s => execHwait.eq_1 h f s) fun c ⟨ho, hs, hk⟩ => ?_
    simp only [State.readHandle_running ho hs hk]
  · refine trapsFrom_of (fun s => execHwait.eq_1 h f s) fun c ⟨ho, hs, hf⟩ => ?_
    simp only [State.readHandle_faulted ho hs hf, opOf_of_opAt ho]
    rfl
  · refine traps_of (fun s => execHwait.eq_1 h f s) fun c ho => ?_
    simp only [State.readHandle_none ho]
    rfl

/-! ## HTEST, HCAN, HPASS and HTAKE (R406, R407) -/

/-- A discarded operation is gone. -/
theorem State.token_ne_of_discardOp {s : State} {o x : Op} (hx : x ∈ (s.discardOp o).ops) : x.token ≠ o.token := by
  simpa using (List.mem_filter.mp hx).2

theorem State.clearHandle_ops (s : State) (reg : Nat) : (s.clearHandle reg).ops = s.ops := rfl

theorem sameDebug_clearHandle (s : State) (reg : Nat) : SameDebug s.pod (s.clearHandle reg).pod := ⟨rfl, rfl⟩

theorem sameDebug_discardOp (s : State) (o : Op) : SameDebug s.pod (s.discardOp o).pod := by
  have hflags := sameDebug_onPod (s.detach o) o.pod _ fun q => (sameDebug_dropFlag q o.seta).trans (sameDebug_dropFlag _ o.setb)
  rw [State.detach_pod] at hflags
  have hfaults := sameDebug_onPod ((s.detach o).dropFlags o) o.pod
    (fun p => { p with deferred := p.deferred.filter fun d => d.op ≠ some o.token }) fun _ => ⟨rfl, rfl⟩
  exact (hflags.trans hfaults).trans (sameDebug_onPod _ o.pod (fun p => p.raiseFl o.cond) fun _ => ⟨rfl, rfl⟩)

theorem sameDebug_put (c : Ctx) (x : Nat) (s : State) : SameDebug s.pod (c.put x s).pod := sameDebug_write c _ s

/-- Marking the first read of a complete operation leaves the pods alone. -/
theorem pod_ite_seenOp (p : Prop) [Decidable p] (s : State) (o : Op) : (if p then seenOp s o else s).pod = s.pod := by
  split <;> rfl

/-- HTEST into a uniform register. -/
theorem htest_uniform (h : Head) (f : FormR) (o : Op) {n : Nat} (hn : classOf f.dst = (.k, n)) :
    let shows := fun c : Ctx => if o.state = .complete && o.isGbar && c.s.pod.loading then OpState.running else o.state
    let seen := fun c : Ctx => if shows c = .complete then seenOp c.s o else c.s
    Does (.htest h f) h (fun _ => { pod := true, srcs := [hSrc f.a], dst := some { code := f.dst, acc := [.p, .k] } })
      (fun c => Ctx.opAt c f.a = some o) (fun c t => Retires c 0 (c.put (shows c).code (seen c)) t ∧
        t.pod.rdK n = BitVec.ofNat 32 (shows c).code) := by
  intro shows seen
  refine does_of_issue (u := fun c => c.put (shows c).code (seen c)) (fun s => execHtest.eq_1 h f s) (fun s _ ho => ?_)
    (fun c => ?_) fun s t _ ret => ⟨ret, ((sameRegs_of_retires ret).rdK n).trans (Ctx.put_rdK rfl hn rfl _ _)⟩
  · simp only [opOf_of_opAt ho, hn]
    rfl
  · exact pod_ite_seenOp (shows c = .complete) c.s o ▸ sameDebug_put c _ (seen c)

/-- HCAN discards an operation that is not complete, where it may at once. -/
theorem hcan_discards (h : Head) (f : FormR) (o : Op) :
    Does (.hcan h f) h (fun _ => { pod := true, srcs := [hSrc f.a] })
      (fun c => Ctx.opAt c f.a = some o ∧ o.state ≠ .complete ∧ (o.state = .running → Discards o))
      (fun c t => Retires c 0 ((c.s.discardOp o).clearHandle (classOf f.a).2) t ∧ ∀ x ∈ t.ops, x.token ≠ o.token) := by
  refine does_of_issue (u := fun c => (c.s.discardOp o).clearHandle (classOf f.a).2) (fun s => execHcan.eq_1 h f s)
    (fun s _ ⟨ho, hs, hd⟩ => ?_) (fun c => (sameDebug_discardOp c.s o).trans (sameDebug_clearHandle _ _))
    fun s t _ ret => ⟨ret, fun x hx => ?_⟩
  · simp only [opOf_of_opAt ho]
    split
    next hst => exact absurd hst hs
    next hst hk => exact absurd (hd hst) (by simp [Discards, hk])
    next hst hk => exact absurd (hd hst) (by simp [Discards, hk])
    next hst hk => exact if_pos (by simpa only [Discards, hk] using hd hst)
    next => rfl
  · rw [ops_of_retires ret, State.clearHandle_ops] at hx
    exact State.token_ne_of_discardOp hx

theorem handleInstructions : TheHandleInstructions := by
  intro h f o
  refine ⟨fun n hn => ?_, fun n hn => htest_uniform h f o hn, ?_, ?_, hcan_discards h f o, ?_, fun n a b l i j => ?_, ?_, ?_, ?_,
    stopsOperand_of fun s => execHpass.eq_1 h f s, stopsOperand_of fun s => execHtake.eq_1 h f s, ?_, fun x => ?_, ?_⟩
  -- HTEST into a predicate, and of no operation.
  · refine does_retires (fun s => execHtest.eq_1 h f s) (fun c ho => ?_) fun c => ?_
    · simp only [opOf_of_opAt ho, hn]
      rfl
    · dsimp only
      rw [State.setPod_pod, Pod.wrPred_p, pod_ite_seenOp]
      exact ⟨rfl, rfl⟩
  · refine traps_of (fun s => execHtest.eq_1 h f s) fun c ho => ?_
    simp only [opOf_of_opAt ho]
    rfl
  -- HCAN of a complete operation, of a collective, of a page that has begun, and of no operation.
  · refine does_retires (fun s => execHcan.eq_1 h f s) (fun c ⟨ho, hs⟩ => ?_) fun c => ⟨rfl, rfl⟩
    simp only [opOf_of_opAt ho, hs]
    rfl
  · refine waits_of (fun s => execHcan.eq_1 h f s) fun c ⟨ho, hs, n, hk⟩ => ?_
    simp only [opOf_of_opAt ho, hs]
    rcases hk with hk | hk <;> rw [hk]
  · refine waits_of (fun s => execHcan.eq_1 h f s) fun c ⟨ho, hs, hk, hd⟩ => ?_
    simp only [opOf_of_opAt ho, hs, hk]
    exact if_neg (by simpa only [Discards, hk] using hd)
  · refine traps_of (fun s => execHcan.eq_1 h f s) fun c ho => ?_
    simp only [opOf_of_opAt ho]
    rfl
  -- HPASS into a free slot, of no operation, and into a taken slot.
  · refine does_retires (fun s => execHpass.eq_1 h f s) (fun c ⟨ho, hx⟩ => ?_) fun c => ⟨rfl, rfl⟩
    dsimp only
    rw [opOf_of_opAt ho, if_neg (by simp),
      if_neg fun e => by obtain ⟨x, hm, he⟩ := List.any_eq_true.mp e; exact hx x hm (of_decide_eq_true he)]
    rfl
  · refine traps_of (fun s => execHpass.eq_1 h f s) fun c ho => ?_
    dsimp only
    rw [opOf_of_opAt ho]
    rfl
  · refine waits_of (fun s => execHpass.eq_1 h f s) fun c ⟨ho, hx⟩ => ?_
    dsimp only
    rw [opOf_of_opAt ho, if_neg (by simp), if_pos (by simpa using hx)]
  -- HTAKE from a slot that holds a handle, and from a free one.
  · refine does_retires (fun s => execHtake.eq_1 h f s) (fun c ⟨hfree, hx⟩ => ?_) fun c => ⟨rfl, rfl⟩
    simp only [Ctx.afterOld_of_free hfree, hx]
  · refine waits_of (fun s => execHtake.eq_1 h f s) fun c ⟨hfree, hx⟩ => ?_
    have hnone : c.s.team.xchg.find? (fun y => decide (y.1 = c.val 0 0)) = none := List.find?_eq_none.mpr (by simpa using hx)
    simp only [Ctx.afterOld_of_free hfree, hnone]

end Sys2Proof.Machine

/-- Settles O36: each handle instruction ends its issue in the branch that the state of the operation picks. -/
theorem handles : Obligations.Handles := ⟨Sys2Proof.Machine.handleReads, Sys2Proof.Machine.handleInstructions⟩

/-! SUPPORT. Traps by instruction, the return from a trap, the cause register, and the special registers that instructions write. -/
namespace Sys2Proof.Machine

open Claims

/-! ## TRAP and BRK (R247) -/

theorem trapInstructions : TheTrapInstructions := fun h f =>
  ⟨traps_of (fun s => execTrap.eq_1 h f s) fun _ _ => rfl, traps_of (fun s => execBrk.eq_1 h f s) fun _ _ => rfl⟩

/-! ## RTT (R248, R268) -/

theorem pendingCauses_eq_nil {c : Dword} (h : ∀ i, i < 64 → c.getLsbD i = false) : pendingCauses c = [] := by
  rw [pendingCauses, List.map_eq_nil_iff, List.filter_eq_nil_iff]
  intro i hi
  rw [h i (List.mem_range.mp hi)]
  exact Bool.false_ne_true

theorem pendingCauses_ne_nil {c : Dword} (h : c ≠ 0) : pendingCauses c ≠ [] := by
  intro hn
  rw [pendingCauses, List.map_eq_nil_iff, List.filter_eq_nil_iff] at hn
  refine h (BitVec.eq_of_getLsbD_eq fun i hi => ?_)
  simpa using hn i (List.mem_range.mpr hi)

/-- The issuing pod as it is once it has left trap level, no thread moved yet (R248). -/
def Pod.leaveTrap (p : Pod) : Pod :=
  { p with trapLevel := false, handlers := 0, trap := [], trapLoops := [], bank := [], inside := false }

/-- The pod that resumes at user level: its active threads go on at %tpc, or after it with .skip (R248). -/
def Pod.resume (p : Pod) (skip : Bool) : Pod :=
  if skip then { p.leaveTrap.goto p.leaveTrap.active (p.tpc + 12) with resumeAt := none }.popEmpty.leaveTx
  else (p.leaveTrap.goto p.leaveTrap.active p.tpc).stopAt p.tpc p.tix

theorem State.returnFromTrap_of_nil {s : State} (h : pendingCauses s.pod.cause = []) (skip : Bool) :
    s.returnFromTrap skip = (s.setPod (s.pod.resume skip)).tickle := by
  simp only [State.returnFromTrap, h]
  cases skip <;> rfl

theorem State.returnFromTrap_of_ne_nil {s : State} (h : pendingCauses s.pod.cause ≠ []) (skip : Bool) :
    s.returnFromTrap skip =
      (s.setPod s.pod.leaveTrap).enterTrap (s.pod.leaveTrap.reenter (pendingCauses s.pod.cause) s.tick) := by
  cases hc : pendingCauses s.pod.cause with
  | nil => exact absurd hc h
  | cons x xs => simp only [State.returnFromTrap, hc]; rfl

theorem sameDebug_resume (p : Pod) (skip : Bool) : SameDebug p (p.resume skip) := by
  have hg : ∀ (q : Pod) (m : Mask) (a : Dword), SameDebug q (q.goto m a) := fun q m a => by
    have h := Pod.goto_ctl q m a
    unfold CtlOnly at h
    rw [h]; exact ⟨rfl, rfl⟩
  cases skip with
  | false => exact hg p.leaveTrap p.leaveTrap.active p.tpc
  | true =>
    refine (hg p.leaveTrap p.leaveTrap.active (p.tpc + 12)).trans ?_
    show SameDebug _ (Pod.leaveTx _)
    rw [Pod.leaveTx_frame, Pod.popEmpty, Pod.setLoops_frame]
    exact ⟨rfl, rfl⟩

theorem returnFromTrap : TheReturnFromTrap := by
  intro h f
  refine ⟨fun s r hc => ?_, fun s r hc hs hh => ?_, ?_, ?_⟩
  · have hd := sameDebug_resume s.begin.pod (f.flags.getLsbD 0)
    obtain ⟨t, ht, hst, hn⟩ := issue_stays (body := fun c => .stay (c.s.returnFromTrap (f.flags.getLsbD 0))) r
      (congrArg Eff.stay (State.returnFromTrap_of_nil (s := s.begin) (pendingCauses_eq_nil hc) _))
      (hd.1.trans r.unstepped) (hd.2.trans r.unhalted)
    have hpod : t.pod = s.begin.pod.resume (f.flags.getLsbD 0) := by rw [hst]; rfl
    exact ⟨t, ht, by rw [hpod]; exact hst, ⟨hn.off, hn.others⟩, hpod⟩
  · exact issue_stays (body := fun c => .stay (c.s.returnFromTrap (f.flags.getLsbD 0))) r
      (congrArg Eff.stay (State.returnFromTrap_of_ne_nil (s := s.begin) (pendingCauses_ne_nil hc) _)) hs hh
  · refine stopsLate_of (fun s => execRtt.eq_1 h f s) fun s hl => ?_
    simp only [hl]; rfl
  · refine stopsLate_of (fun s => execRtt.eq_1 h f s) fun s ⟨hl, ha⟩ => ?_
    simp only [hl, Bool.not_true, Bool.false_eq_true, if_false]
    exact if_pos ha

/-! ## CLRC and SETC (R249) -/

/-- A pod that passes its checks has sound sources (R85). -/
theorem srcOk_of_ready {i : Instr} {h : Head} {sp : Spec} {s : State} (r : Ready i h sp s) {o : Src} (ho : o ∈ sp.srcs) :
    s.srcOk o = true := by
  have hp := r.passes
  cases hk : s.srcOk o with
  | true => rfl
  | false =>
    have hall : sp.srcs.all s.srcOk = false := List.all_eq_false.mpr ⟨o, ho, by rw [hk]; exact Bool.false_ne_true⟩
    unfold State.podCheck at hp
    simp only [hall, Bool.not_false, Bool.true_or, if_true] at hp
    split at hp
    · cases hp
    · split at hp <;> cases hp

/-- An issue reads in its mask operand the value that its checks have looked at. -/
theorem maskVal_eq_val {i : Instr} {h : Head} {sp : Spec} {s : State} (f : FormRI) (r : Ready i h sp s) (hs : sp.srcs = [maskSrc f]) :
    BitVec.ofNat 64 ((issueCtx s h sp).val 0 0) = s.maskVal f := by
  have hok : s.srcOk (maskSrc f) = true := srcOk_of_ready r (by simp [hs])
  have hsrc : (issueCtx s h sp).sp.srcs[0]? = some (maskSrc f) := by
    show sp.srcs[0]? = _
    rw [hs]; rfl
  unfold Ctx.val State.maskVal
  rw [hsrc]
  cases ha : f.argB 64 with
  | imm x => simp only [maskSrc, ha]
  | code cd =>
    obtain ⟨cl, n, hcl⟩ : ∃ cl n, classOf cd = (cl, n) := ⟨_, _, rfl⟩
    simp only [State.srcOk, maskSrc, ha, hcl, Bool.and_eq_true] at hok
    obtain rfl : cl = .k := by simpa using hok.1
    simp only [maskSrc, ha, hcl]
    rfl

/-- The state in which the causes of a mask are set. -/
def State.setCauses (s : State) (m : Dword) : State := s.setPod { s.pod with cause := s.pod.cause ||| m }

/-- What SETC does with a mask: at user level its new causes are raised after it (R249). -/
def Ctx.setcEffect (c : Ctx) (m : Dword) : Eff :=
  if c.s.pod.trapLevel || m &&& ~~~c.s.pod.cause = 0 then .done (c.s.setCauses m) 0
  else .after (pendingCauses (m &&& ~~~c.s.pod.cause)) (c.s.setCauses m)

theorem Ctx.setcEffect_done {c : Ctx} {m : Dword} (h : c.s.pod.trapLevel = true ∨ m &&& ~~~c.s.pod.cause = 0) :
    c.setcEffect m = .done (c.s.setCauses m) 0 := if_pos (by simpa using h)

theorem Ctx.setcEffect_after {c : Ctx} {m : Dword} (hl : c.s.pod.trapLevel = false) (hn : m &&& ~~~c.s.pod.cause ≠ 0) :
    c.setcEffect m = .after (pendingCauses (m &&& ~~~c.s.pod.cause)) (c.s.setCauses m) := if_neg (by simpa using And.intro hl hn)

/-- What SETC asks of its operand and of its level (R249). -/
def setcSpec (f : FormRI) (s : State) : Spec :=
  { pod := true, srcs := [maskSrc f], bad := s.maskVal f &&& 0x0000_FFFF_8000_0000 != 0
    priv := !s.pod.trapLevel && s.maskVal f &&& 0x7FFF_FFFF != 0 }

theorem exec_setc (h : Head) (f : FormRI) (s : State) :
    exec (.setc h f) s = issue (.setc h f) h (setcSpec f s) (fun c => c.setcEffect (s.maskVal f)) s := rfl

/-- Causes that an instruction raises at the boundary after it, where the debugger does not step its pod (R249). -/
theorem State.finish_after (s : State) {u : State} (c : Ctx) {cs : List Cause} (hs : u.pod.stepping = false) (hc : cs ≠ []) :
    s.finish c (.after cs u) = (u.complete c.this s.pod.depth c.act 0).raise
      { (u.complete c.this s.pod.depth c.act 0).pod.before .illegalOp 0 0 0 with causes := cs } := by
  have hu : u.setPod { u.pod with stepping := false } = u := by rw [← hs]; rfl
  cases cs with
  | nil => exact absurd rfl hc
  | cons x xs => simp only [State.finish, hu, hs, Bool.false_eq_true, if_false, List.nil_append]

theorem causeRegister : TheCauseRegister := by
  intro h f
  refine ⟨?_, ?_, fun s r hl hnew => ?_⟩
  · exact does_retires (fun s => execClrc.eq_1 h f s) (fun c _ => rfl) fun _ => ⟨rfl, rfl⟩
  · exact does_of_issue (u := fun c => c.s.setCauses (BitVec.ofNat 64 (c.val 0 0))) (exec_setc h f)
      (fun s r hpre => (congrArg (Ctx.setcEffect _) (maskVal_eq_val f r rfl).symm).trans (Ctx.setcEffect_done hpre))
      (fun c => ⟨rfl, rfl⟩) fun s t _ ret => ret
  · exact issue_ends (body := fun c => c.setcEffect (s.maskVal f)) r
      ((congrArg (Ctx.setcEffect _) (maskVal_eq_val f r rfl).symm).trans (Ctx.setcEffect_after hl hnew)) rfl
      (State.finish_after _ _ r.unstepped (pendingCauses_ne_nil hnew))

/-! ## WRSR (R114, R251) -/

/-- %seed of a thread is what a write of %seed gives it, with 1 for 0; that of any other thread is as before (R114). -/
theorem Pod.setSeeds_get (v : Nat → Nat) (ts : List Nat) (p : Pod) (u : Nat) : (p.setSeeds (ts.map fun t => (t, v t))).seed.get u =
    if u ∈ ts then (if BitVec.ofNat 32 (v u) = 0 then 1 else BitVec.ofNat 32 (v u)) else p.seed.get u := by
  induction ts generalizing p with
  | nil => rfl
  | cons t ts ih =>
    refine (ih _).trans ?_
    rw [Cells.get_set]
    by_cases hu : u ∈ ts
    · rw [if_pos hu, if_pos (List.mem_cons_of_mem _ hu)]
    · rw [if_neg hu]
      by_cases ht : u = t
      · subst ht
        rw [if_pos rfl, if_pos List.mem_cons_self]
      · rw [if_neg ht, if_neg (by simpa using And.intro ht hu)]

theorem Pod.setSeeds_frame (ts : List (Nat × Nat)) (p : Pod) : p.setSeeds ts = { p with seed := (p.setSeeds ts).seed } := by
  induction ts generalizing p with
  | nil => rfl
  | cons t ts ih => exact ih _

/-- %prio takes the smaller of a value and the greatest that the launch allows (R114). -/
theorem Pod.setPrio_eq {p : Pod} {m : BitVec 2} (hm : p.prioMax = m) (x : Nat) :
    p.setPrio x = { p with prio := BitVec.ofNat 2 (min x m.toNat) } := by
  subst hm
  unfold Pod.setPrio
  split
  next hlt => rw [Nat.min_eq_right (Nat.le_of_lt hlt), BitVec.ofNat_toNat, BitVec.setWidth_eq]
  next hge => rw [Nat.min_eq_left (Nat.le_of_not_lt hge)]

/-- What WRSR does with the special register `r`. -/
def Ctx.wrsrEffect (c : Ctx) (r : Nat) : Eff :=
  let p := c.s.pod
  let x := c.val 0 (c.eff.getLastD 0)
  match r with
  | 22 => .done (c.s.setPod { p with tix := min (x % 2 ^ 32) (p.width - 1) }) 0
  | 23 =>
    if (p.newTpc x).toNat % 12 ≠ 0 then c.stop .pcMisalign
    else .done (c.s.setPod { p with tpc := p.newTpc x }) 0
  | 26 => .done (c.s.setPod (p.setSeeds (c.eff.map fun t => (t, c.val 0 t)))) 0
  | _ => .done (c.s.setPod (p.setPrio x)) 0

/-- What WRSR asks of its operands, its guard and its level (R251). -/
def wrsrSpec (h : Head) (f : FormRI) (s : State) : Spec :=
  let r := (classOf f.dst).2
  let fromV := match f.argB 32 with
    | .code c => (classOf c).1 == .v
    | .imm _ => false
  { srcs := [wrsrSrc f], smod := f.smod, mtgt := f.mtgt
    bad := (classOf f.dst).1 != .special || !([22, 23, 26, 27].contains r) || (fromV && r != 26) || guardBad true h
    priv := !s.pod.trapLevel && (r == 22 || r == 23) }

theorem exec_wrsr (h : Head) (f : FormRI) (s : State) :
    exec (.wrsr h f) s = issue (.wrsr h f) h (wrsrSpec h f s) (fun c => c.wrsrEffect (classOf f.dst).2) s := rfl

/-! ## TIME (R252) -/

theorem time_reads (h : Head) (f : FormR) (s : State) :
    let sp : Spec := { dst := some { code := f.dst, acc := [.v, .k], regs := 2, tag := 6 } }
    let c := issueCtx s h sp
    Ready (.time h f) h sp s → Fed c → (f.flags.getLsbD 0 = true → c.s.pod.pend = [] ∧ c.s.redsAway c.s.pod.id.team = false ∧
      ∀ o ∈ c.s.ops, o.pod = c.s.pod.id → o.state ≠ .running) → ∃ t, exec (.time h f) s = .next t ∧
      LaneEffect c (results c fun _ => { val := s.time.toNat }) [] (fun _ _ => false) t := by
  intro sp c r hf hq
  show ∃ t, execTime h f s = .next t ∧ _
  unfold execTime
  refine issue_lane false [] (fun _ _ => false) (fun _ _ => { val := s.time.toNat }) r
    (goodDst_of_ready r fun d hd => by cases hd; exact ⟨by simp, by simp, by simp⟩) hf (if_neg ?_)
  intro hb
  obtain ⟨hfence, hbusy⟩ := Bool.and_eq_true_iff.mp hb
  obtain ⟨hp, hr, ho⟩ := hq hfence
  have hops : (c.s.ops.any fun o => o.pod == c.s.pod.id && o.state == .running) = false := by
    rw [List.any_eq_false]
    intro o hm
    simpa using ho o hm
  exact absurd hbusy (by rw [hp, hr, hops]; exact Bool.false_ne_true)

/-! ## PRIO (R253) -/

/-- Results in no v register and no predicate leave those of their threads alone as well. -/
theorem keptRegs_nil {c : Ctx} {n : Nat} {ts : List Nat} {t : State} (hv : ∀ r, inDst c .v r = false) (hp : ∀ r, inDst c .p r = false)
    (k : KeptRegs c n ts [] t) : KeptRegs c n [] [] t :=
  ⟨fun u r hr _ => k.v u r hr (.inr (hv r)), fun r _ => k.tags r (.inr (hv r)), k.k, k.bank, k.hidden,
    fun n u _ => k.p n u (.inr ⟨hp n, List.not_mem_nil⟩), k.g, k.rings,
    fun i _ hi => k.bad i (fun _ _ r hr => absurd hr (by rw [hv]; exact Bool.false_ne_true)) hi⟩

/-- A destination that has passed its check is of a class that the instruction accepts (R85). -/
theorem dstClass_of_ready {i : Instr} {h : Head} {sp : Spec} {s : State} (r : Ready i h sp s) {d : Dst} (hd : sp.dst = some d) :
    d.acc.contains (classOf d.code).1 = true := (Bool.and_eq_true_iff.mp (dstOk_of_ready r hd)).1

/-- What an instruction whose destination is a uniform register puts there, and what it leaves alone (R78). -/
theorem put_effect {i : Instr} {h : Head} {sp : Spec} {s : State} (r : Ready i h sp s) {code : Code} (hd : sp.dst = some (kDst code))
    (x : Nat) :
    let c := issueCtx s h sp
    Wrote c 0 (onceRes c x) (c.put x c.s) ∧ KeptRegs c 0 [] [] (c.put x c.s) := by
  intro c
  have gd : GoodDst sp := goodDst_of_ready r fun d he => by
    rw [hd] at he; cases he; exact ⟨by simp [kDst], by simp [kDst], by simp [kDst]⟩
  have w := write_effect c 0 c.s rfl (fun m => by cases c.s.team.ring m <;> simp [Ring.pop_zero]) (onceRes c x) (by simp [onceRes])
    (by simpa [onceRes] using lanes_headD_lt c (issueCtx_eff_lt s h sp)) gd.regs gd.p0 gd.pOne gd.gSome rfl (apart_of_ready r)
  have hk : (classOf code).1 = .k ∨ (classOf code).1 = .zero := by simpa [kDst] using dstClass_of_ready r hd
  have hin : ∀ cl, cl ≠ .k → cl ≠ .zero → ∀ r, inDst c cl r = false := by
    intro cl h1 h2 r
    have hcd : c.sp.dst = some (kDst code) := hd
    have hne : (classOf code).1 ≠ cl := by rintro rfl; exact hk.elim h1 h2
    simp [inDst, dstIn, hcd, kDst, hne]
  exact ⟨w.wrote, keptRegs_nil (hin .v nofun nofun) (hin .p nofun nofun) w.kept⟩

/-- The state in which PRIO has written the old priority and taken the new one (R253). -/
def Ctx.exchangePrio (c : Ctx) : State :=
  let s := c.put c.s.pod.prio.toNat c.s
  withPod s { s.pod with prio := BitVec.ofNat 2 (min (c.val 0 0) c.s.pod.prioMax.toNat) }

theorem Ctx.put_prioMax (c : Ctx) (x : Nat) (s : State) : (c.put x s).pod.prioMax = s.pod.prioMax := by
  rw [Ctx.put, (Ctx.write_local c _ s).pod]

theorem sameRegs_exchangePrio (c : Ctx) : SameRegs (c.put c.s.pod.prio.toNat c.s) c.exchangePrio :=
  ⟨rfl, rfl, rfl, rfl, rfl, rfl, rfl, rfl, rfl⟩

theorem SameRegs.trans {s t u : State} (a : SameRegs s t) (b : SameRegs t u) : SameRegs s u :=
  ⟨b.v.trans a.v, b.tags.trans a.tags, b.k.trans a.k, b.bank.trans a.bank, b.g.trans a.g, b.width.trans a.width,
    b.trapLevel.trans a.trapLevel, b.rings.trans a.rings, b.bad.trans a.bad⟩

theorem prio_exchanges (h : Head) (f : FormRI) :
    Does (.prio h f) h (fun _ => { pod := true, dst := some (kDst f.dst), srcs := [uniSrc 2 (f.argB 32)] }) (fun _ => True) fun c t =>
      Retires c 0 c.exchangePrio t ∧ Wrote c 0 (onceRes c c.s.pod.prio.toNat) t ∧ KeptRegs c 0 [] [] t := by
  refine does_of_issue (u := Ctx.exchangePrio) (fun s => execPrio.eq_1 h f s) (fun s _ _ => ?_)
    (fun c => sameDebug_put c _ c.s) fun s t r ret => ?_
  · exact congrArg (fun p => Eff.done (State.setPod _ p) 0) (Pod.setPrio_eq (Ctx.put_prioMax ..) _)
  · obtain ⟨hw, hk⟩ := put_effect r rfl (issueCtx s h _).s.pod.prio.toNat
    have same := (sameRegs_exchangePrio _).trans (sameRegs_of_retires ret)
    have hp := p_of_retires ret
    exact ⟨ret, wrote_of_same _ _ _ same (.inr hp) hw, keptRegs_of_same _ _ _ _ same hp hk⟩

theorem specialRegisters : TheSpecialRegisters := by
  intro h
  refine ⟨fun f => ⟨fun hr => ?_, fun hr => ?_, fun hr => ?_, fun hr => ?_⟩, time_reads h, prio_exchanges h⟩
  -- WRSR of %tix, %tpc, %seed and %prio.
  · refine does_retires (exec_wrsr h f) (fun c _ => ?_) fun _ => ⟨rfl, rfl⟩
    rw [hr]; rfl
  · refine does_retires (exec_wrsr h f) (fun c ht => ?_) fun _ => ⟨rfl, rfl⟩
    rw [hr]; exact if_neg (not_not_intro ht)
  · refine does_of_issue (u := fun c => withPod c.s { c.s.pod with seed := (c.s.pod.setSeeds (c.eff.map fun t => (t, c.val 0 t))).seed })
      (exec_wrsr h f) (fun s _ _ => ?_) (fun _ => ⟨rfl, rfl⟩) fun s t _ ret => ⟨ret, fun u hu => ?_⟩
    · rw [hr]
      exact congrArg (fun p => Eff.done (State.setPod _ p) 0) (Pod.setSeeds_frame _ _)
    · rw [seed_of_retires ret]
      exact (Pod.setSeeds_get _ _ _ u).trans (if_pos hu)
  · refine does_retires (exec_wrsr h f) (fun c _ => ?_) fun _ => ⟨rfl, rfl⟩
    rw [hr]
    exact congrArg (fun p => Eff.done (State.setPod _ p) 0) (Pod.setPrio_eq rfl _)

end Sys2Proof.Machine

/-- Settles O21: each instruction ends its issue in the branch that its condition picks; RTT by the causes that are left, SETC by those that
are new. -/
theorem trapsAndSpecialRegisters : Obligations.TrapsAndSpecialRegisters :=
  ⟨Sys2Proof.Machine.trapInstructions, Sys2Proof.Machine.returnFromTrap, Sys2Proof.Machine.causeRegister,
    Sys2Proof.Machine.specialRegisters⟩

/-! SUPPORT. The shapes that integer and logic instructions share, as lane instructions; Get, Put and Fit. -/
namespace Sys2Proof.Machine

open Claims

/-! ## The shapes of integer instructions: what the operation of each computes, in every thread (R32, R159 to R166) -/

section Shapes

variable {i : Instr} {h : Head}

/-- A lane instruction with one destination, of a width that fits. -/
theorem laneDoes_of_dst {sp : State → Spec} {d : State → Dst} {res : Ctx → Nat → LaneRes}
    (he : ∀ s, exec i s = issue i h (sp s) (fun c => c.lane (res c) noMore) s) (hd : ∀ s, (sp s).dst = some (d s))
    (hf : ∀ s, dstFits (d s)) : LaneDoes i h sp res :=
  laneDoes_of he fun s _ e => Option.some.inj ((hd s).symm.trans e) ▸ hf s

theorem laneDoes_congr {sp : State → Spec} {res res' : Ctx → Nat → LaneRes} (hd : LaneDoes i h sp res)
    (e : ∀ c t, res c t = res' c t) : LaneDoes i h sp res' := (funext fun c => funext (e c)) ▸ hd

theorem laneTDoes_congr {sp : State → Spec} {res res' : Ctx → Nat → LaneRes} (hd : LaneTDoes i h sp res)
    (e : ∀ c t, res c t = res' c t) : LaneTDoes i h sp res' := (funext fun c => funext (e c)) ▸ hd

theorem int2_does {f : FormRI} {sat : Bool} {cls : Option Nat} (op : Int → Int → Int) (he : ∀ s, exec i s = int2 i h f sat cls op s) :
    LaneDoes i h (fun _ => specAB f cls) fun c t => fitInt f.ty sat (op (getInt f.ty (c.val 0 t)) (getInt f.ty (c.val 1 t))) :=
  laneDoes_of_dst he (fun _ => rfl) fun _ => fits_int ..

theorem int3_does {f : FormRI} {sat : Bool} {cls : Option Nat} (op : Int → Int → Int → Int)
    (he : ∀ s, exec i s = int3 i h f sat cls op s) :
    LaneDoes i h (fun _ => specABC f cls) fun c t =>
      fitInt f.ty sat (op (getInt f.ty (c.val 0 t)) (getInt f.ty (c.val 1 t)) (getInt f.ty (c.val 2 t))) :=
  laneDoes_of_dst he (fun _ => rfl) fun _ => fits_int ..

theorem int1_does {f : FormR} {sat : Bool} (op : Int → Int) (he : ∀ s, exec i s = int1 i h f sat op s) :
    LaneDoes i h (fun _ => specR f [intSrc 1 (.code f.a) f.ty] (intDst f.dst f.ty)) fun c t =>
      fitInt f.ty sat (op (getInt f.ty (c.val 0 t))) :=
  laneDoes_of_dst he (fun _ => rfl) fun _ => fits_int ..

theorem intShift_does {f : FormRI} (op : Nat → Nat → Nat → Nat) (he : ∀ s, exec i s = intShift i h f op s) :
    LaneDoes i h (fun _ => specACnt f) fun c t =>
      { val := putInt f.ty (op (tyWidth f.ty) (c.val 0 t % 2 ^ tyWidth f.ty) (c.val 1 t)) } :=
  laneDoes_of_dst he (fun _ => rfl) fun _ => fits_int ..

/-- An instruction of A, a count B and C that puts one value (R162, R164). -/
theorem specACntC_does {f : FormRI} (res : Ctx → Nat → Nat)
    (he : ∀ s, exec i s = issue i h (specACntC f) (fun c => c.lane (fun t => { val := putInt f.ty (res c t) }) noMore) s) :
    LaneDoes i h (fun _ => specACntC f) fun c t => { val := putInt f.ty (res c t) } :=
  laneDoes_of_dst he (fun _ => rfl) fun _ => fits_int ..

theorem logic2_does {f : FormRI} (op : Nat → Nat → Nat) (he : ∀ s, exec i s = logic2 i h f op s) :
    LaneDoes i h (specBitsAB f) fun c t => { val := op (c.val 0 t) (c.val 1 t) % 2 ^ (32 * wRegs f.low) } :=
  laneDoes_of_dst he (fun _ => rfl) fun _ => fits_w ..

theorem logic1_does {f : FormR} {small : Bool} (op : Nat → Nat → Nat) (he : ∀ s, exec i s = logic1 i h f small op s) :
    LaneDoes i h (specBitsA f small) fun c t => { val := op (32 * wRegs f.low) (c.val 0 t) } :=
  laneDoes_of_dst he (fun _ => rfl) fun _ => by
    cases small
    · exact fits_w ..
    · exact fits_1 ..

end Shapes

/-! ## Arithmetic (R159) -/

theorem integerArithmetic : TheIntegerArithmetic := fun _ =>
  ⟨fun _ => int2_does (fun a b => a + b) fun _ => rfl,
    fun _ => int2_does (fun a b => a - b) fun _ => rfl,
    fun _ => int2_does (fun a b => a * b) fun _ => rfl,
    fun f => int2_does (fun a b => Int.fdiv (a * b) (2 ^ tyWidth f.ty : Nat)) fun _ => rfl,
    fun _ => int3_does (fun a b c => a * b + c) fun _ => rfl,
    fun _ => int2_does (fun a b => min a b) fun _ => rfl,
    fun _ => int2_does (fun a b => max a b) fun _ => rfl,
    fun _ => int3_does (fun a b c => min (max a b) c) fun _ => rfl,
    fun _ => int3_does (fun a b c => ((a - b).natAbs : Int) + c) fun _ => rfl,
    fun _ => int1_does (fun a => -a) fun _ => rfl,
    fun _ => int1_does (fun a => (a.natAbs : Int)) fun _ => rfl⟩

/-! ## Get, Put and Fit (R154) -/

/-- The two's-complement reading of the `w` low bits is the balanced residue. -/
theorem signed_eq_bmod (w v : Nat) : signed w v = Int.bmod v (2 ^ w) := by
  unfold signed
  dsimp only
  rw [Int.bmod_def, ← Int.natCast_emod]
  split <;> split <;> omega

theorem wrap_cast (w : Nat) (x : Int) : (wrap w x : Int) = x % (2 ^ w : Nat) :=
  Int.toNat_of_nonneg (Int.emod_nonneg _ (Int.ofNat_ne_zero.mpr (Nat.ne_of_gt (Nat.two_pow_pos w))))

theorem tyWidth_cases (ty : BitVec 3) : tyWidth ty = 8 ∨ tyWidth ty = 16 ∨ tyWidth ty = 32 ∨ tyWidth ty = 64 := by
  unfold tyWidth; split <;> decide

/-- Get of an integer cut to the type's width: the balanced residue for a signed type, the residue for an unsigned one. -/
theorem getInt_eq (ty : BitVec 3) (n : Nat) :
    getInt ty n = if tySigned ty then Int.bmod n (2 ^ tyWidth ty) else n % (2 ^ tyWidth ty : Nat) := by
  unfold getInt; rw [signed_eq_bmod]; rfl

theorem getInt_emod (ty : BitVec 3) (n : Nat) : getInt ty n % (2 ^ tyWidth ty : Nat) = n % (2 ^ tyWidth ty : Nat) := by
  rw [getInt_eq]; split
  · exact Int.bmod_emod
  · exact Int.emod_emod ..

theorem getInt_congr {ty : BitVec 3} {m n : Nat} (h : m % 2 ^ tyWidth ty = n % 2 ^ tyWidth ty) : getInt ty m = getInt ty n := by
  unfold getInt signed; rw [h]

theorem two_pow_tyWidth (ty : BitVec 3) : (2 ^ tyWidth ty : Nat) = 2 * 2 ^ (tyWidth ty - 1) := by
  have h0 : 1 ≤ tyWidth ty := by rcases tyWidth_cases ty with h | h | h | h <;> omega
  rw [← Nat.pow_succ', Nat.succ_eq_add_one, Nat.sub_add_cancel h0]

theorem tyRange_of_signed {ty : BitVec 3} (h : tySigned ty = true) :
    tyRange ty = (-((2 ^ (tyWidth ty - 1) : Nat) : Int), ((2 ^ (tyWidth ty - 1) : Nat) : Int) - 1) := if_pos h

theorem tyRange_of_unsigned {ty : BitVec 3} (h : ¬ tySigned ty = true) : tyRange ty = (0, ((2 ^ tyWidth ty : Nat) : Int) - 1) :=
  if_neg h

theorem getInt_range (ty : BitVec 3) (n : Nat) : (tyRange ty).1 ≤ getInt ty n ∧ getInt ty n ≤ (tyRange ty).2 := by
  have hw := two_pow_tyWidth ty
  have hpos := Nat.two_pow_pos (tyWidth ty)
  rw [getInt_eq]
  split
  · have h1 := Int.le_bmod (x := n) hpos
    have h2 := Int.bmod_lt (x := n) hpos
    rw [tyRange_of_signed ‹_›]; dsimp only; omega
  · have h1 := Int.emod_nonneg (n : Int) (b := ((2 ^ tyWidth ty : Nat) : Int)) (by omega)
    have h2 := Int.emod_lt_of_pos (n : Int) (b := ((2 ^ tyWidth ty : Nat) : Int)) (by omega)
    rw [tyRange_of_unsigned ‹_›]; dsimp only; omega

/-- A value that the type can hold is read back from its residue. -/
theorem getInt_wrap_of_range {ty : BitVec 3} {x : Int} (h1 : (tyRange ty).1 ≤ x) (h2 : x ≤ (tyRange ty).2) :
    getInt ty (wrap (tyWidth ty) x) = x := by
  have hw := two_pow_tyWidth ty
  rw [getInt_eq, wrap_cast]
  split
  · rw [tyRange_of_signed ‹_›] at h1 h2
    dsimp only at h1 h2
    rw [Int.emod_bmod]
    exact Int.bmod_eq_of_le (by omega) (by omega)
  · rw [tyRange_of_unsigned ‹_›] at h1 h2
    dsimp only at h1 h2
    rw [Int.emod_emod]
    exact Int.emod_eq_of_lt h1 (by omega)

/-- Put keeps the bits of the type's width: the sign extension of a narrow type lies above them. -/
theorem putInt_mod (ty : BitVec 3) (y : Nat) : putInt ty y % 2 ^ tyWidth ty = y % 2 ^ tyWidth ty := by
  unfold putInt
  split
  · rename_i hs
    have hw : tyWidth ty ≤ 32 := by
      simp only [Bool.and_eq_true, decide_eq_true_eq] at hs; omega
    have hd : ((2 ^ tyWidth ty : Nat) : Int) ∣ ((2 ^ 32 : Nat) : Int) := Int.natCast_dvd_natCast.mpr (Nat.pow_dvd_pow 2 hw)
    have e : ((wrap 32 (signed (tyWidth ty) y) % 2 ^ tyWidth ty : Nat) : Int) = ((y % 2 ^ tyWidth ty : Nat) : Int) := by
      rw [Int.natCast_emod, wrap_cast, Int.emod_emod_of_dvd _ hd, signed_eq_bmod, Int.bmod_emod, Int.natCast_emod]
    exact Int.ofNat_inj.mp e
  · exact Nat.mod_mod ..

/-- Get of a fit reads the residue that was put: Put's sign extension lies above it. -/
theorem getInt_fitInt (ty : BitVec 3) (sat : Bool) (x : Int) : getInt ty (fitInt ty sat x).val =
    getInt ty (wrap (tyWidth ty) (if sat then max (tyRange ty).1 (min (tyRange ty).2 x) else x)) :=
  getInt_congr (putInt_mod ..)

theorem fitInt_false_fl (ty : BitVec 3) (x : Int) : (fitInt ty false x).fl = 0 := if_pos rfl

theorem tyRange_le (ty : BitVec 3) : (tyRange ty).1 ≤ (tyRange ty).2 := Int.le_trans (getInt_range ty 0).1 (getInt_range ty 0).2

/-- A clamp changes nothing exactly in the range. -/
theorem clamp_eq_self {lo hi x : Int} (h : lo ≤ hi) : max lo (min hi x) = x ↔ lo ≤ x ∧ x ≤ hi := by omega

theorem fitWrapsOrClamps : TheFitWrapsOrClamps := by
  intro ty x
  have hle := tyRange_le ty
  refine ⟨fitInt_false_fl ty x, ?_, ?_, ?_, ?_, ?_⟩
  · rw [getInt_fitInt, getInt_emod, wrap_cast]
    exact Int.emod_emod ..
  · exact (getInt_range ty _).1
  · exact (getInt_range ty _).2
  · rw [getInt_fitInt]
    exact getInt_wrap_of_range (by simp only [if_true]; omega) (by simp only [if_true]; omega)
  · show (if max (tyRange ty).1 (min (tyRange ty).2 x) = x then (0 : BitVec 6) else condSat) = _
    simp only [clamp_eq_self hle]

end Sys2Proof.Machine

/-- Settles O1: each instruction is an exact operation under Fit; Fit keeps the residue, which Get reads back, and clamps into the range. -/
theorem integerArithmetic : Obligations.IntegerArithmetic :=
  ⟨Sys2Proof.Machine.integerArithmetic, Sys2Proof.Machine.fitWrapsOrClamps⟩

/-! SUPPORT. Carries, division and shifts: each operation of the model as the exact one of the manual. -/
namespace Sys2Proof.Machine

open Claims

/-! ## Carries (R160) -/

theorem intCarry_does {i : Instr} {h : Head} {f : FormRI} (op : Int → Int → Int → Int) (he : ∀ s, exec i s = intCarry i h f op s) :
    LaneDoesWith false [f.low.toNat] (fun _ x => x.pred) i h
      (fun _ => specRI f [intSrc 1 (.code f.a) f.ty, intSrc 2 (FormRI.argTy f f.ty) f.ty, predSrc 5 (768 + f.low.setWidth 10)]
        (intDst f.dst f.ty))
      fun c t =>
        let x := op (getInt f.ty (c.val 0 t)) (getInt f.ty (c.val 1 t)) (c.val 2 t)
        { val := wrap (tyWidth f.ty) x, pred := decide (x < 0) || decide ((2 ^ tyWidth f.ty : Nat) ≤ x) } :=
  laneDoesWith_of he fun _ _ hd => Option.some.inj hd ▸ fits_int ..

/-! ## Division (R161) -/

/-- One result of a division: Fit of the quotient or of what a zero divisor gives, and DZ in that case alone. -/
theorem divRes_eq (ty : BitVec 3) (b x z : Int) :
    (if b = 0 then { fitInt ty false z with fl := condDz } else fitInt ty false x) =
      ({ val := (fitInt ty false (if b = 0 then z else x)).val, fl := if b = 0 then condDz else 0 } : LaneRes) := by
  split
  · rfl
  · exact congrArg (fun fl => ({ val := (fitInt ty false x).val, fl := fl } : LaneRes)) (fitInt_false_fl ty x)

theorem intDivRem_does {i : Instr} {h : Head} {f : FormRI} (op zero : Int → Int → Int)
    (he : ∀ s, exec i s = intDivRem i h f op zero s) :
    LaneTDoes i h (fun _ => specAB f (divCls f.ty)) fun c t =>
      let a := getInt f.ty (c.val 0 t)
      let b := getInt f.ty (c.val 1 t)
      { val := (fitInt f.ty false (if b = 0 then zero a b else op a b)).val, fl := if b = 0 then condDz else 0 } :=
  laneTDoes_congr (laneTDoes_of he fun _ _ hd => Option.some.inj hd ▸ fits_int ..) fun _ _ => divRes_eq ..

/-! ## Shifts (R162) -/

theorem shlBits_eq (w a n : Nat) : shlBits w a n = a * 2 ^ n % 2 ^ w := by
  unfold shlBits
  split
  · next h => exact (Nat.mod_eq_zero_of_dvd (Nat.dvd_trans (Nat.pow_dvd_pow 2 h) (Nat.dvd_mul_left ..))).symm
  · rfl

theorem shrBits_eq {w a : Nat} (n : Nat) (ha : a < 2 ^ w) : shrBits w a n = a / 2 ^ n := by
  unfold shrBits
  split
  · next h => exact (Nat.div_eq_of_lt (Nat.lt_of_lt_of_le ha (Nat.pow_le_pow_right (by omega) h))).symm
  · rfl

/-- A value of `w` bits shifted right by the width is its sign alone, and so a greater count gives the same. -/
theorem fdiv_two_pow_min {w : Nat} {x : Int} (n : Nat) (h1 : -(2 ^ w : Nat) ≤ x) (h2 : x < (2 ^ w : Nat)) :
    Int.fdiv x (2 ^ min n w : Nat) = Int.fdiv x (2 ^ n : Nat) := by
  rcases Nat.le_total n w with h | h
  · rw [Nat.min_eq_left h]
  · have hp : (2 ^ w : Nat) ≤ 2 ^ n := Nat.pow_le_pow_right (by omega) h
    rw [Nat.min_eq_right h, Int.fdiv_eq_ediv_of_nonneg _ (Int.natCast_nonneg _),
      Int.fdiv_eq_ediv_of_nonneg _ (Int.natCast_nonneg _)]
    rcases Int.lt_or_le x 0 with hx | hx
    · rw [Int.ediv_eq_neg_one_of_neg_of_le hx (by omega), Int.ediv_eq_neg_one_of_neg_of_le hx (by omega)]
    · rw [Int.ediv_eq_zero_of_lt hx h2, Int.ediv_eq_zero_of_lt hx (by omega)]

theorem signed_bounds (w v : Nat) : -(2 ^ w : Nat) ≤ signed w v ∧ signed w v < (2 ^ w : Nat) := by
  have hpos := Nat.two_pow_pos w
  have h1 := Int.le_bmod (x := v) hpos
  have h2 := Int.bmod_lt (x := v) hpos
  rw [signed_eq_bmod]
  omega

theorem shraBits_eq (w a n : Nat) : shraBits w a n = wrap w (Int.fdiv (signed w a) (2 ^ n : Nat)) := by
  unfold shraBits
  rw [fdiv_two_pow_min n (signed_bounds w a).1 (signed_bounds w a).2]

end Sys2Proof.Machine

/-- Settles O2: the predicate that [22:20] names receives what the exact result carries or borrows. -/
theorem carriesAndBorrows : Obligations.CarriesAndBorrows := fun _ _ =>
  ⟨Sys2Proof.Machine.intCarry_does (fun a b c => a + b + c) fun _ => rfl,
    Sys2Proof.Machine.intCarry_does (fun a b c => a - b - c) fun _ => rfl⟩

/-- Settles O3: a result of class T is the fit of the truncated quotient or remainder, or of what a zero divisor gives, with DZ. -/
theorem division : Obligations.Division := fun _ f =>
  ⟨Sys2Proof.Machine.intDivRem_does Int.tdiv
      (fun a _ => if a < 0 then (Sys2Proof.Machine.tyRange f.ty).1 else (Sys2Proof.Machine.tyRange f.ty).2) fun _ => rfl,
    Sys2Proof.Machine.intDivRem_does Int.tmod (fun a _ => a) fun _ => rfl⟩

open Sys2Proof.Machine in
/-- Settles O4: a count of the width or more, which the model takes apart, agrees with the shift by any count. -/
theorem shifts : Obligations.Shifts := fun h f =>
  ⟨laneDoes_congr (intShift_does shlBits fun _ => rfl) fun c t => by rw [shlBits_eq],
    laneDoes_congr (intShift_does shrBits fun _ => rfl) fun c t => by rw [shrBits_eq _ (Nat.mod_lt _ (Nat.two_pow_pos _))],
    laneDoes_congr (intShift_does shraBits fun _ => rfl) fun c t => by rw [shraBits_eq],
    intShift_does rotlBits fun _ => rfl,
    specACntC_does _ fun _ => rfl⟩

/-! SUPPORT. Bitwise logic and bit fields: which bit of a result comes from which bits of the operands. -/
namespace Sys2Proof.Machine

open Claims

/-! ## Logic (R163) -/

/-- The row of a truth table that bit `i` of three operands selects. -/
def lop3Row (a b c i : Nat) : Nat := (if bit a i then 4 else 0) + (if bit b i then 2 else 0) + (if bit c i then 1 else 0)

theorem lop3Bits_succ (tt a b c w : Nat) :
    lop3Bits tt a b c (w + 1) = lop3Bits tt a b c w + (if bit tt (lop3Row a b c w) then 2 ^ w else 0) := rfl

theorem lop3Bits_lt (tt a b c w : Nat) : lop3Bits tt a b c w < 2 ^ w := by
  induction w with
  | zero => exact Nat.one_pos
  | succ w ih =>
    rw [lop3Bits_succ, Nat.pow_succ]
    split <;> omega

/-- Each bit of the result is the bit of the truth table in the row that the operands select there. -/
theorem bit_lop3Bits (tt a b c : Nat) {w i : Nat} (hi : i < w) : bit (lop3Bits tt a b c w) i = bit tt (lop3Row a b c i) := by
  induction w with
  | zero => omega
  | succ w ih =>
    have hlt := Nat.testBit_lt_two_pow (lop3Bits_lt tt a b c w)
    rw [lop3Bits_succ]
    rcases Nat.lt_succ_iff_lt_or_eq.mp hi with h | rfl
    · rw [← ih h]
      split
      · rw [Nat.add_comm]; exact Nat.testBit_two_pow_add_gt h _
      · rfl
    · cases bit tt (lop3Row a b c i) with
      | false => exact hlt
      | true =>
        rw [if_pos rfl, Nat.add_comm, bit, Nat.testBit_two_pow_add_eq, hlt]
        rfl

theorem bitwiseLogic : TheBitwiseLogic := fun _ =>
  ⟨fun _ => logic2_does (fun a b => a &&& b) fun _ => rfl,
    fun _ => logic2_does (fun a b => a ||| b) fun _ => rfl,
    fun _ => logic2_does (fun a b => a ^^^ b) fun _ => rfl,
    fun _ => logic2_does (fun a b => a - (a &&& b)) fun _ => rfl,
    fun _ => logic1_does (fun w a => 2 ^ w - 1 - a % 2 ^ w) fun _ => rfl,
    fun _ => laneDoes_of_dst (fun _ => rfl) (fun _ => rfl) fun _ => fits_w ..,
    fun tt a b c _ _ hi => bit_lop3Bits tt a b c hi⟩

/-! ## Bit fields (R164 to R166) -/

/-- The reversal of the `k` lowest of `w` bits. -/
def revLow (w a k : Nat) : Nat := (List.range k).foldl (fun y i => if bit a i then y + 2 ^ (w - 1 - i) else y) 0

theorem revLow_succ (w a k : Nat) : revLow w a (k + 1) = if bit a k then revLow w a k + 2 ^ (w - 1 - k) else revLow w a k := by
  simp only [revLow, List.range_succ, List.foldl_append, List.foldl_cons, List.foldl_nil]

/-- The reversal of the lowest bits fills the highest places alone. -/
theorem two_pow_dvd_revLow (w a : Nat) {k : Nat} (hk : k ≤ w) : 2 ^ (w - k) ∣ revLow w a k := by
  induction k with
  | zero => exact Nat.dvd_zero _
  | succ k ih =>
    have hd : 2 ^ (w - (k + 1)) ∣ revLow w a k := Nat.dvd_trans (Nat.pow_dvd_pow 2 (by omega)) (ih (by omega))
    rw [revLow_succ]
    split
    · exact Nat.dvd_add hd (Nat.pow_dvd_pow 2 (by omega))
    · exact hd

theorem bit_revLow {w a k i : Nat} (hk : k ≤ w) (hi : i < k) : bit (revLow w a k) (w - 1 - i) = bit a i := by
  induction k with
  | zero => omega
  | succ k ih =>
    obtain ⟨q, hq⟩ := two_pow_dvd_revLow w a (k := k) (by omega)
    rw [revLow_succ]
    rcases Nat.lt_succ_iff_lt_or_eq.mp hi with h | rfl
    · rw [← ih (by omega) h]
      split
      · rw [hq, bit, bit, Nat.testBit_two_pow_mul_add q (Nat.pow_lt_pow_right (by omega) (by omega)), if_neg (by omega),
          Nat.testBit_two_pow_mul, decide_eq_true (by omega : w - 1 - i ≥ w - k), Bool.true_and]
      · rfl
    · split
      · next hb =>
        rw [hq, hb, bit, Nat.testBit_two_pow_mul_add q (Nat.pow_lt_pow_right (by omega) (by omega)), if_pos (by omega)]
        exact Nat.testBit_two_pow_self
      · next hb =>
        rw [Bool.not_eq_true] at hb
        rw [hq, hb, bit, Nat.testBit_two_pow_mul, decide_eq_false (by omega), Bool.false_and]

theorem revBits_eq_revLow (w a : Nat) : revBits w a = revLow w a w := rfl

theorem bit_revBits {w i : Nat} (a : Nat) (hi : i < w) : bit (revBits w a) (w - 1 - i) = bit a i := by
  rw [revBits_eq_revLow, bit_revLow (Nat.le_refl _) hi]

theorem bit_mod_two_pow {w i : Nat} (a : Nat) (hi : i < w) : bit (a % 2 ^ w) i = bit a i := by
  rw [bit, bit, Nat.testBit_mod_two_pow, decide_eq_true hi, Bool.true_and]

/-- CLZ counts zero bits, and the bit below them is one. -/
theorem clzBits_spec (w a : Nat) : clzBits w a ≤ w ∧ (∀ i, w - clzBits w a ≤ i → i < w → bit a i = false) ∧
    (clzBits w a < w → bit a (w - 1 - clzBits w a) = true) := by
  unfold clzBits
  by_cases h0 : a % 2 ^ w = 0
  · rw [if_pos h0]
    refine ⟨Nat.le_refl _, fun i _ hi => ?_, fun h => absurd h (Nat.lt_irrefl w)⟩
    rw [← bit_mod_two_pow a hi, h0]
    exact Nat.zero_testBit i
  · rw [if_neg h0]
    have hl : Nat.log2 (a % 2 ^ w) < w := (Nat.log2_lt h0).mpr (Nat.mod_lt _ (Nat.two_pow_pos _))
    refine ⟨by omega, fun i h hi => ?_, fun _ => ?_⟩
    · rw [← bit_mod_two_pow a hi]
      exact Nat.testBit_lt_two_pow (Nat.lt_of_lt_of_le Nat.lt_log2_self (Nat.pow_le_pow_right (by omega) (by omega)))
    · rw [show w - 1 - (w - 1 - Nat.log2 (a % 2 ^ w)) = Nat.log2 (a % 2 ^ w) by omega, ← bit_mod_two_pow a hl]
      exact Nat.testBit_log2 h0

theorem bfe_does (h : Head) (f : FormRI) : LaneDoes (.bfe h f) h (fun _ => specACnt f)
    fun c t => { val := putInt f.ty (bfeBits f.ty (getInt f.ty (c.val 0 t)) (c.val 1 t)) } :=
  laneDoes_of_dst (fun _ => rfl) (fun _ => rfl) fun _ => fits_int ..

theorem bitFields : TheBitFields := fun h =>
  ⟨fun f => laneDoes_congr (bfe_does h f) fun _ _ => by simp only [bfeBits, Bool.and_eq_true, decide_eq_true_eq],
    fun _ => specACntC_does _ fun _ => rfl,
    fun _ => logic1_does revBits fun _ => rfl,
    fun _ => logic1_does popBits fun _ => rfl,
    fun _ => logic1_does clzBits fun _ => rfl,
    fun _ => logic1_does ctzBits fun _ => rfl,
    fun _ => laneDoes_of_dst (fun _ => rfl) (fun _ => rfl) fun _ => fits_1 ..,
    fun _ a _ hi => bit_revBits a hi,
    clzBits_spec⟩

end Sys2Proof.Machine

/-- Settles O5: bit by bit for LOP3 and BREV, and by the highest one bit for CLZ. -/
theorem logicAndBitFields : Obligations.LogicAndBitFields := ⟨Sys2Proof.Machine.bitwiseLogic, Sys2Proof.Machine.bitFields⟩

/-! SUPPORT. Comparisons, predicate operations and VTOP; the widths of the destinations of moves. -/
namespace Sys2Proof.Machine

open Claims

/-! ## Predicates and selects (R167 to R170) -/

theorem condHolds_eq (n : Nat) (a b : Int) : condHolds n a b = match n with
    | 0 => decide (a = b)
    | 1 => decide (a ≠ b)
    | 2 => decide (a < b)
    | 3 => decide (a ≤ b)
    | 4 => decide (a > b)
    | _ => decide (a ≥ b) :=
  match n with
  | 0 | 2 | 3 | 4 | _ + 5 => rfl
  | 1 => decide_not.symm

theorem plopOp_eq (n : Nat) (a b : Bool) : plopOp n a b = match n with
    | 0 => a && b
    | 1 => a || b
    | 2 => a ^^ b
    | 3 => a && !b
    | 4 => a || !b
    | 5 => !(a && b)
    | 6 => !(a || b)
    | _ => !(a ^^ b) :=
  match n with
  | 0 | 1 | 2 | 3 | 4 | 5 | 6 => rfl
  | _ + 7 => (Bool.not_not _).symm

theorem isetp_does (h : Head) (f : FormRI) :
    LaneDoes (.isetp h f) h (fun _ => specRI f [intSrc 1 (.code f.a) f.ty, intSrc 2 (FormRI.argTy f f.ty) f.ty] (predDst f.dst))
      fun c t => { pred := condHolds f.low.toNat (getInt f.ty (c.val 0 t)) (getInt f.ty (c.val 1 t)) } :=
  laneDoes_of_dst (fun _ => rfl) (fun _ => rfl) fun _ => fits_p ..

theorem plop_does (h : Head) (f : FormR) :
    LaneDoes (.plop h f) h (fun _ => specR f [predSrc 1 f.a, predSrc 2 f.b] (predDst f.dst))
      fun c t => { pred := plopOp f.low.toNat (c.val 0 t == 1) (c.val 1 t == 1) } :=
  laneDoes_of_dst (fun _ => rfl) (fun _ => rfl) fun _ => fits_p ..

/-- VTOP writes one predicate, its destination, or with .all every predicate of each thread (R170). -/
theorem vtop_does (h : Head) (f : FormR) :
    LaneDoesWith true (if f.low.getLsbD 2 then List.range 16 else []) (fun n x => bit x.val n) (.vtop h f) h
      (fun _ => specR f [bitsSrc 1 (.code f.a) 1] { code := f.dst, acc := if f.low.getLsbD 2 then [.zero] else [.p] })
      fun c t => { val := c.val 0 t, pred := decide (c.val 0 t ≠ 0) } := by
  refine laneDoesWith_of (fun s => ?_) fun _ _ hd => Option.some.inj hd ▸ fits_1 ..
  show execVtop h f s = _
  unfold execVtop
  refine congrArg (fun body => issue (.vtop h f) h _ body s) (funext fun c => ?_)
  have hres : (fun t => ({ val := c.val 0 t, pred := c.val 0 t != 0 } : LaneRes)) = fun t =>
      { val := c.val 0 t, pred := decide (c.val 0 t ≠ 0) } :=
    funext fun t => congrArg (fun p => ({ val := c.val 0 t, pred := p } : LaneRes)) decide_not.symm
  cases f.low.getLsbD 2 with
  | false => exact congrArg (fun res => Ctx.lane { c with uni := false } res noMore) hres
  | true => exact congrArg (fun res => Ctx.lane { c with uni := false } res (alsoPreds (List.range 16) fun n x => bit x.val n)) hres

/-! ## Moves (R171 to R175) -/

/-- A destination that accepts no predicate fits when it spans from 1 to 384 registers. -/
theorem dstFits_of_regs {d : Dst} (h : d.regs ≤ 384) (h0 : 0 < d.regs) (hp : d.acc.contains .p = false) : dstFits d :=
  ⟨h, fun _ => h0, fun e => absurd e (by rw [hp]; exact Bool.false_ne_true)⟩

theorem groupRegs_bounds (n : Nat) : 0 < groupRegs n ∧ groupRegs n ≤ 4 := by
  unfold groupRegs; repeat' (first | omega | split)

end Sys2Proof.Machine

open Sys2Proof.Machine in
/-- Settles O6: each instruction is one lane computation; VTOP with .all writes p1 to p15 besides. -/
theorem predicatesAndSelects : Obligations.PredicatesAndSelects := fun h =>
  ⟨fun _ => laneDoes_congr (isetp_does h _) fun _ _ => congrArg (fun p => ({ pred := p } : LaneRes)) (condHolds_eq ..),
    fun _ => laneDoes_of_dst (fun _ => rfl) (fun _ => rfl) fun _ => fits_w ..,
    fun _ => laneDoes_congr (plop_does h _) fun _ _ => congrArg (fun p => ({ pred := p } : LaneRes)) (plopOp_eq ..),
    fun _ => laneDoes_of_dst (fun _ => rfl) (fun _ => rfl) fun _ => fits_1 ..,
    vtop_does h⟩

open Sys2Proof.Machine in
/-- Settles O7: each instruction is one lane computation whose destination spans the registers of its width. -/
theorem moves : Obligations.Moves := by
  refine fun h => ⟨fun f => ?_, fun f => ?_, fun f => ?_, fun f => ?_, fun f => ?_, fun f => ?_⟩
  -- MOV, MOVI and LEA.
  · exact laneDoes_of_dst (fun _ => rfl) (fun _ => rfl) fun _ =>
      dstFits_of_regs (Nat.le_trans (wRegs_le f.low).1 (by decide)) (wRegs_le f.low).2 rfl
  · exact laneDoes_of_dst (fun _ => rfl) (fun _ => rfl) fun _ =>
      dstFits_of_regs (Nat.le_trans (tyRegs_le f.ty).1 (by decide)) (tyRegs_le f.ty).2 rfl
  · cases f <;> exact laneDoes_of_dst (fun _ => rfl) (fun _ => rfl) fun _ =>
      dstFits_of_regs (show 2 ≤ 384 by decide) (show 0 < 2 by decide) rfl
  -- TAG, RDFL and RDSR.
  · exact laneDoes_of_dst (fun _ => rfl) (fun _ => rfl) fun _ =>
      dstFits_of_regs (Nat.le_trans (groupRegs_bounds _).2 (by decide)) (groupRegs_bounds _).1 rfl
  · exact laneDoes_of_dst (fun _ => rfl) (fun _ => rfl) fun _ => fits_1 ..
  · exact laneDoes_of_dst (fun _ => rfl) (fun _ => rfl) fun _ =>
      dstFits_of_regs (by dsimp only; split <;> decide) (by dsimp only; split <;> decide) rfl

/-! SUPPORT. Groups of threads, uniform reads, and the results that threads receive from other threads. -/
namespace Sys2Proof.Machine

open Claims

/-! ## Groups (R209) -/

theorem groupLo_le (g : Mask) (t : Nat) : groupLo g t ≤ t := by
  induction t with
  | zero => exact Nat.le_refl _
  | succ t ih => rw [groupLo]; split <;> omega

theorem groupLo_starts (g : Mask) (t : Nat) : groupLo g t = 0 ∨ g.getLsbD (groupLo g t) = true := by
  induction t with
  | zero => exact .inl rfl
  | succ t ih =>
    rw [groupLo]; split
    · exact .inr ‹_›
    · exact ih

/-- No group starts between a thread's start bit and the thread. -/
theorem no_start_of_groupLo_lt {g : Mask} {t u : Nat} (h : groupLo g t < u) (hu : u ≤ t) : g.getLsbD u = false := by
  induction t with
  | zero => omega
  | succ t ih =>
    rw [groupLo] at h
    split at h
    · omega
    · next hb =>
      rcases Nat.le_succ_iff.mp hu with hu | rfl
      · exact ih h hu
      · exact Bool.eq_false_iff.mpr hb

/-- Threads with no start bit between them are of one group. -/
theorem groupLo_eq_of_no_start {g : Mask} {t v : Nat} (htv : t ≤ v) (h : ∀ u, t < u → u ≤ v → g.getLsbD u = false) :
    groupLo g v = groupLo g t := by
  induction htv with
  | refl => rfl
  | @step v hv ih =>
    have hv : t ≤ v := hv
    rw [groupLo, if_neg (by rw [h (v + 1) (by omega) (Nat.le_refl _)]; exact Bool.false_ne_true)]
    exact ih fun u h1 h2 => h u h1 (by omega)

/-- The end of a group is the first start bit from a thread on, within `n` threads. -/
theorem groupEnd_spec (g : Mask) (n t : Nat) : t ≤ groupEnd g n t ∧ groupEnd g n t ≤ t + n ∧
    (∀ u, t ≤ u → u < groupEnd g n t → g.getLsbD u = false) ∧ (groupEnd g n t < t + n → g.getLsbD (groupEnd g n t) = true) := by
  induction n generalizing t with
  | zero => exact ⟨Nat.le_refl _, Nat.le_refl _, fun u h1 h2 => absurd h2 (Nat.not_lt.mpr h1), fun h => absurd h (Nat.lt_irrefl t)⟩
  | succ n ih =>
    rw [groupEnd]
    split
    · next hb => exact ⟨Nat.le_refl _, by omega, fun u h1 h2 => absurd h2 (Nat.not_lt.mpr h1), fun _ => hb⟩
    · next hb =>
      obtain ⟨h1, h2, h3, h4⟩ := ih (t + 1)
      refine ⟨by omega, by omega, fun u hu hlt => ?_, fun h => h4 (by omega)⟩
      rcases Nat.eq_or_lt_of_le hu with rfl | hu
      · exact Bool.eq_false_iff.mpr hb
      · exact h3 u hu hlt

theorem groupsOfThreads : TheGroupsOfThreads := by
  intro g w t htw
  obtain ⟨h1, h2, h3, h4⟩ := groupEnd_spec g (w - (t + 1)) (t + 1)
  have hlo := groupLo_le g t
  rw [show t + 1 + (w - (t + 1)) = w by omega] at h2 h4
  refine ⟨hlo, groupLo_starts g t, fun u => no_start_of_groupLo_lt, h1, h2, fun u hu => h3 u hu, h4,
    fun u huw => ⟨fun e => ⟨e ▸ groupLo_le g u, ?_⟩, fun ⟨hl, he⟩ => ?_⟩⟩
  · refine Nat.lt_of_not_le fun hn => ?_
    have hstart := h4 (by omega)
    have hno := no_start_of_groupLo_lt (g := g) (t := u) (u := groupEnd g (w - (t + 1)) (t + 1)) (by omega) (by omega)
    exact Bool.false_ne_true (hno.symm.trans hstart)
  · rcases Nat.le_total u t with hut | htu
    · exact (groupLo_eq_of_no_start hut fun v hv => no_start_of_groupLo_lt (by omega)).symm
    · exact groupLo_eq_of_no_start htu fun v hv hvu => h3 v hv (by omega)

/-! ## Uniform reads (R173, R205) -/

theorem uniformReads : TheUniformReads := by
  refine fun h => ⟨fun f => ?_, fun f => ?_⟩
  -- KGET: what it does where the register passes its check is to deliver one uniform result.
  · refine gatherDoesIf_of (fun s => execKget.eq_1 h f s) (fun _ _ hd => ?_) (fun _ c hc => ?_) (fun _ _ => ?_) fun c hlt x hx => ?_
    · exact Option.some.inj hd ▸ dstFits_of_regs (Nat.le_trans (wRegs_le f.low).1 (by decide)) (wRegs_le f.low).2 rfl
    · rw [deliver_onceRes]
      exact if_neg (by rw [hc]; exact Bool.false_ne_true)
    · exact List.nodup_cons.mpr ⟨List.not_mem_nil, List.nodup_nil⟩
    · rw [List.mem_singleton.mp hx]
      exact lanes_headD_lt c hlt
  -- CLFL.
  · refine does_of (body := fun c => .done (c.s.setPod { c.s.pod with fl := c.s.pod.fl &&& ~~~(BitVec.ofNat 6 (c.val 0 0)) }) 0)
      (fun _ => ?_) (fun _ _ => rfl) (fun _ => rfl) (fun _ => rfl) fun _ _ r => r
    cases f <;> rfl

/-! ## Shuffles and broadcasts (R215 to R217) -/

/-- A cross-thread instruction that gives every effective thread a result. -/
theorem gatherDoes_of_map {i : Instr} {h : Head} {sp : State → Spec} (res : Ctx → Nat → LaneRes)
    (he : ∀ s, exec i s = issue i h (sp s) (fun c => .done (c.deliver (c.eff.map fun t => (t, res c t)) c.s) 0) s)
    (hd : ∀ s d, (sp s).dst = some d → dstFits d) : GatherDoes i h sp fun c => c.eff.map fun t => (t, res c t) := by
  refine gatherDoesIf_of he hd (fun _ _ _ => rfl) (fun _ => nodup_map_self fun _ => rfl) fun c hlt x hx => ?_
  obtain ⟨t, ht, rfl⟩ := List.mem_map.mp hx
  exact hlt t ht

theorem gatherDoes_map_congr {i : Instr} {h : Head} {sp : State → Spec} {res res' : Ctx → Nat → LaneRes}
    (hd : GatherDoes i h sp fun c => c.eff.map fun t => (t, res c t)) (e : ∀ c t, res c t = res' c t) :
    GatherDoes i h sp fun c => c.eff.map fun t => (t, res' c t) := (funext fun c => funext (e c)) ▸ hd

/-- The threads that receive a result are among those of the list. -/
theorem received_sublist {α : Type} (l : List Nat) (from_ : Nat → Option Nat) (res : Nat → α) :
    ((l.filterMap fun u => (from_ u).map fun t => (u, res t)).map (·.1)).Sublist l := by
  induction l with
  | nil => exact .slnil
  | cons u l ih =>
    cases hu : from_ u with
    | none => rw [List.filterMap_cons_none (by rw [hu]; rfl)]; exact ih.cons u
    | some t => rw [List.filterMap_cons_some (b := (u, res t)) (by rw [hu]; rfl)]; exact ih.cons_cons u

theorem fits_pair (c : Code) (wide : Bool) (tag : BitVec 5) : dstFits (vDst c (if wide then 2 else 1) tag) :=
  fits_v c _ tag (by split <;> decide)

/-- SHFL's source thread by mode; .up stays in the segment (R215). -/
theorem shflThread_eq (mode seg t b : Nat) : shflThread mode seg t b =
    match mode with
    | 0 => t - t % seg + b % seg
    | 1 => if t - t % seg + b ≤ t then t - b else t
    | 2 => if t + b < t - t % seg + seg then t + b else t
    | _ => t - t % seg + ((t - (t - t % seg)) ^^^ (b % seg)) :=
  match mode with
  | 0 | 2 | _ + 3 => rfl
  | 1 => ite_congr (propext (by omega)) (fun _ => rfl) fun _ => rfl

theorem shfl_does (h : Head) (f : FormRI) :
    let n := if f.flags.getLsbD 0 then 2 else 1
    let a := xvSrc 1 f.a n []
    GatherDoes (.shfl h f) h
      (fun s => { gathers [a, { field := 2, arg := f.argB 32, acc := valAcc, tags := [1, 2] }] (vDst f.dst n (s.commonTag [a])) with
        smod := f.smod, mtgt := f.mtgt })
      fun c => c.eff.map fun t =>
        (t, { val := c.val 0 (shflThread (bits f.flags.toNat 1 2) (min (2 ^ f.ty.toNat) c.s.pod.width) t (c.val 1 t)) }) :=
  gatherDoes_of_map _ (fun _ => rfl) fun _ _ hd => Option.some.inj hd ▸ fits_pair ..

theorem exchanges : TheExchanges := by
  refine fun h => ⟨fun f => ?_, fun f => ?_, fun f => ?_⟩
  · exact gatherDoes_map_congr (shfl_does h f) fun c _ => congrArg (fun u => ({ val := c.val 0 u } : LaneRes)) (shflThread_eq ..)
  -- PERM: the highest sender of a thread is the last one of the ascending list (R216).
  · refine gatherDoesIf_of (fun s => execPerm.eq_1 h f s) (fun _ _ hd => Option.some.inj hd ▸ fits_pair ..)
      (fun _ c _ => ?_) (fun c hn => (received_sublist ..).nodup hn) fun c hlt x hx => ?_
    · refine congrArg (fun g => Eff.done (c.deliver (c.eff.filterMap g) c.s) 0) (funext fun u => ?_)
      rw [List.getLast?_filter]
      cases c.eff.reverse.find? fun t => decide (c.val 1 t % c.s.pod.width = u) <;> rfl
    · exact hlt _ ((received_sublist ..).subset (List.mem_map_of_mem hx))
  · exact gatherDoes_of_map _ (fun _ => rfl) fun _ _ hd => Option.some.inj hd ▸ fits_pair ..

end Sys2Proof.Machine

/-- Settles O14: the ends of a group by the start bits around it, and each exchange as the delivery of what it gathers. -/
theorem exchanges : Obligations.Exchanges :=
  ⟨Sys2Proof.Machine.groupsOfThreads, Sys2Proof.Machine.uniformReads, Sys2Proof.Machine.exchanges⟩

/-! SUPPORT. The shapes of scalar float instructions, as lane instructions; minima and maxima, and the sign bit. -/
namespace Sys2Proof.Machine

open Claims

/-! ## Scalar floats (R184 to R188) -/

theorem specF1_does {i : Instr} {h : Head} {f : FormR} (res : Ctx → Nat → LaneRes)
    (he : ∀ s, exec i s = issue i h (specF1 f none) (fun c => c.lane (res c) noMore) s) :
    LaneDoes i h (fun _ => specF1 f none) res :=
  laneDoes_of_dst he (fun _ => rfl) fun _ => fits_flt ..

theorem fltMinMax_does {i : Instr} {h : Head} {f : FormRI} (max number : Bool) (he : ∀ s, exec i s = fltMinMax i h f max number s) :
    LaneDoes i h (fun _ => specF2 f none) fun c t =>
      { val := (minMax (scalarFmt (faWide f.flags)) max number (c.val 0 t) (c.val 1 t)).1
        fl := sigInv (scalarFmt (faWide f.flags)) [c.val 0 t, c.val 1 t] } :=
  laneDoes_of_dst he (fun _ => rfl) fun _ => fits_flt ..

/-! ## Minima, maxima and signs (R185, R187) -/

theorem minMax_of_nan_left {F : Fmt} {x : Nat} (max number : Bool) (y : Nat) (hx : F.decode x = .nan) :
    (minMax F max number x y).1 = if number && F.decode y != .nan then y else F.canon := if_pos hx

theorem minMax_of_nan_right {F : Fmt} {x y : Nat} (max number : Bool) (hx : F.decode x ≠ .nan) (hy : F.decode y = .nan) :
    (minMax F max number x y).1 = if number then x else F.canon := (if_neg hx).trans (if_pos hy)

theorem minMax_of_numbers {F : Fmt} {x y : Nat} (max number : Bool) (hx : F.decode x ≠ .nan) (hy : F.decode y ≠ .nan) :
    (minMax F max number x y).1 = if max then (if lesser (F.decode x) (F.decode y) then y else x)
      else (if lesser (F.decode y) (F.decode x) then y else x) := (if_neg hx).trans (if_neg hy)

theorem minimumAndMaximum : TheMinimumAndMaximum := by
  refine fun F max number x y => ⟨fun hx hy => ?_, fun hx hy => ?_, minMax_of_nan_right max number, minMax_of_numbers max number⟩
  · rw [minMax_of_nan_left max number y hx, hy, bne_self_eq_false, Bool.and_false]
    exact if_neg Bool.false_ne_true
  · rw [minMax_of_nan_left max number y hx, bne_iff_ne.mpr hy, Bool.and_true]

theorem withSign_eq (F : Fmt) (s : Bool) (x : Nat) :
    F.withSign s x = x % 2 ^ (F.width - 1) + (if s then 2 ^ (F.width - 1) else 0) := Nat.add_comm ..

/-! ## Comparisons and signs (R184 to R188) -/

theorem floatCompareAndSign : TheFloatCompareAndSign := fun _ =>
  -- FRND, FFRC and FGETX (R184).
  ⟨fun _ => specF1_does _ fun _ => rfl,
    fun _ => specF1_does _ fun _ => rfl,
    fun _ => laneDoes_of_dst (fun _ => rfl) (fun _ => rfl) fun _ => fits_1 ..,
    -- FMIN, FMAX, FMINN and FMAXN (R185); FSETP (R186); FCLASS (R188).
    fun _ => ⟨fltMinMax_does false false fun _ => rfl, fltMinMax_does true false fun _ => rfl,
      fltMinMax_does false true fun _ => rfl, fltMinMax_does true true fun _ => rfl⟩,
    fun _ => laneDoes_of_dst (fun _ => rfl) (fun _ => rfl) fun _ => fits_p ..,
    fun _ => laneDoes_of_dst (fun _ => rfl) (fun _ => rfl) fun _ => fits_1 ..,
    -- FABS, FNEG and FSGN (R187).
    fun _ => specF1_does _ fun _ => rfl,
    fun _ => specF1_does _ fun _ => rfl,
    fun _ => laneDoes_of_dst (fun _ => rfl) (fun _ => rfl) fun _ => fits_flt ..,
    fun wide => withSign_eq (scalarFmt wide)⟩

end Sys2Proof.Machine

/-- Settles O10: each instruction is one lane computation; a minimum or maximum is the branch that the NaNs among its operands pick. -/
theorem floatCompareAndSign : Obligations.FloatCompareAndSign :=
  ⟨Sys2Proof.Machine.floatCompareAndSign, Sys2Proof.Machine.minimumAndMaximum⟩

/-! SUPPORT. The shapes of packed-half instructions (R191). -/
namespace Sys2Proof.Machine

open Claims

theorem half3_does {i : Instr} {h : Head} {f : FormRI} {three : Bool} (op : Num → Num → Num → Num × BitVec 6)
    (he : ∀ s, exec i s = half3 i h f three op s) :
    LaneDoes i h (fun _ => specH f three (hfmaCls (f.flags.getLsbD 5))) fun c t =>
      bothHalves (faRnd f.flags) (c.s.pod.seed.get t) fun e seed =>
        let F := halfFmt (f.flags.getLsbD 5)
        let x := half (c.val 0 t) e
        let y := half (c.val 1 t) e
        let z := if three then half (c.val 2 t) e else 0
        let v := op (F.decode x) (F.decode y) (F.decode z)
        let r := F.round v.1 (faRnd f.flags) (faSat f.flags) false seed
        { r with fl := r.fl ||| v.2 ||| sigInv F [x, y, z] } :=
  laneDoes_of_dst he (fun _ => rfl) fun _ => fits_1 ..

theorem halfMinMax_does {i : Instr} {h : Head} {f : FormRI} (max : Bool) (he : ∀ s, exec i s = halfMinMax i h f max s) :
    LaneDoes i h (fun _ => specH f false none) fun c t =>
      bothHalves 0 0 fun e seed =>
        let r := minMax (halfFmt (f.flags.getLsbD 5)) max (f.flags.getLsbD 4) (half (c.val 0 t) e) (half (c.val 1 t) e)
        ⟨r.1, r.2, seed⟩ :=
  laneDoes_of_dst he (fun _ => rfl) fun _ => fits_1 ..

end Sys2Proof.Machine

open Sys2Proof.Machine in
/-- Settles O11: each instruction is one operation on the elements of its operands; HADD2 and HMUL2 take 0 for a third one. -/
theorem packedHalves : Obligations.PackedHalves := fun _ f =>
  ⟨half3_does (fun a b _ => a.add b (isDown f.flags)) fun _ => rfl,
    half3_does (fun a b _ => a.mul b) fun _ => rfl,
    half3_does (fun a b c => fma a b c (isDown f.flags)) fun _ => rfl,
    halfMinMax_does false fun _ => rfl,
    halfMinMax_does true fun _ => rfl⟩

/-! SUPPORT. The widths of elements, and how many registers a run of them takes. -/
namespace Sys2Proof.Machine

open Claims

/-! ## Runs of units (R194) -/

/-- An element takes at least two bits. -/
theorem elemOf_width (tag : Nat) : 2 ≤ (elemOf tag).width := by
  unfold elemOf
  split <;> decide

theorem unitRegs_le (tag : Nat) : unitRegs tag ≤ 2 := by
  unfold unitRegs
  split <;> decide

/-- At most 32 elements fill a unit. -/
theorem perUnit_le (tag : Nat) : (elemOf tag).perUnit tag ≤ 32 := by
  have hu := unitRegs_le tag
  calc 32 * unitRegs tag / (elemOf tag).width
      ≤ 32 * unitRegs tag / 2 := Nat.div_le_div_left (elemOf_width tag) (by decide)
    _ ≤ 32 := by omega

/-- The destination run of CVT, CVTI and CVTF takes at most 64 registers. -/
theorem convRegs_le (st dt : Nat) :
    unitRegs dt * (max ((elemOf st).perUnit st) ((elemOf dt).perUnit dt) / (elemOf dt).perUnit dt) ≤ 384 := by
  have hn := Nat.max_le.mpr ⟨perUnit_le st, perUnit_le dt⟩
  calc _ ≤ 2 * 32 := Nat.mul_le_mul (unitRegs_le dt) (Nat.le_trans (Nat.div_le_self ..) hn)
    _ ≤ 384 := by decide

/-- UNPK writes a register for each element of a register. -/
theorem unpkRegs_le (w : Nat) : 1 * (32 / w) ≤ 384 := by
  have hn := Nat.div_le_self 32 w
  omega

/-! ## Conversions (R192 to R200) -/

/-- A run accepts no predicate and no group mask. -/
theorem fits_run {d : Dst} (h : d.regs ≤ 384) (ha : d.acc = runAcc) : dstFits d :=
  ⟨h, fun e => absurd e (by rw [ha]; decide), fun e => absurd e (by rw [ha]; decide)⟩

theorem convSpec_does {i : Instr} {h : Head} {f : FormQ} {su sn st du dn dt : Nat} {scl narrow access : Bool}
    (res : Ctx → Nat → LaneRes) (hn : du * dn ≤ 384)
    (he : ∀ s, exec i s = issue i h (convSpec f su sn st du dn dt scl narrow access) (fun c => c.lane (res c) noMore) s) :
    LaneDoes i h (fun _ => convSpec f su sn st du dn dt scl narrow access) res :=
  laneDoes_of_dst he (fun _ => rfl) fun _ => fits_run hn rfl

theorem conv_does {i : Instr} {h : Head} {f : FormQ} (he : ∀ s, exec i s = conv i h f s) :
    let a := elemOf f.stag
    let d := elemOf f.dtag
    let n := max (a.perUnit f.stag) (d.perUnit f.dtag)
    let sn := n / a.perUnit f.stag
    LaneDoes i h (fun _ => convSpec f (unitRegs f.stag) sn f.stag (unitRegs f.dtag) (n / d.perUnit f.dtag) f.dtag f.scl
        (a.narrow || d.narrow) true) fun c t =>
      convert a d n (isZeroCode f.a) (c.runVal (32 * unitRegs f.stag) t sn) (if f.scl then signed 32 (c.val sn t) else 0) f.rnd
        f.sat f.ftz (c.s.pod.seed.get t) :=
  convSpec_does _ (convRegs_le ..) he

theorem exec_cvt {f : FormQ} (h : Head) (ho : f.o6 = false) (s : State) : exec (.cvt h f) s = conv (.cvt h f) h f s :=
  if_neg (Bool.eq_false_iff.mp ho)

theorem exec_cvt_o6 {f : FormQ} (h : Head) (ho : f.o6 = true) (s : State) : exec (.cvt h f) s = convO6 h f s := if_pos ho

theorem o6Regs_le (b : Bool) : 1 * (if b then 16 else 6) ≤ 384 := by cases b <;> decide

end Sys2Proof.Machine

open Sys2Proof.Machine in
/-- Settles O12: each conversion is one lane computation whose destination run is short; .o6 picks the shape of CVT. -/
theorem conversions : Obligations.Conversions := fun h _ =>
  ⟨fun ho => conv_does (exec_cvt h ho),
    fun ho => convSpec_does _ (o6Regs_le _) (exec_cvt_o6 h ho),
    conv_does fun _ => rfl,
    conv_does fun _ => rfl,
    convSpec_does _ (by decide) fun _ => rfl,
    convSpec_does _ (unpkRegs_le _) fun _ => rfl,
    convSpec_does _ (by decide) fun _ => rfl,
    convSpec_does _ (by decide) fun _ => rfl⟩

/-! SUPPORT. The shape of dot products; DOT4 by its family and DOT8 by its format. -/
namespace Sys2Proof.Machine

open Claims

/-! ## Dot products (R203) -/

theorem bits_low (v n : Nat) : bits v 0 n = v % 2 ^ n := by rw [bits, Nat.pow_zero, Nat.div_one]

/-- The two scales of a scaled dot product are the low bytes of the register after C. -/
theorem dot_does {i : Instr} {h : Head} {f : FormR} {tags : List (BitVec 5)} {default : BitVec 5} {scaled intDst : Bool} {cls : Nat}
    (he : ∀ s, exec i s = dot i h f tags default scaled intDst cls s) :
    LaneDoes i h (fun _ => dotSpec f tags scaled intDst cls) fun c t =>
      let ka := elemOf (dotTag c.s f.a f.b default).toNat
      dotOne ka (elemOf (dotTag c.s f.b f.a default).toNat) (isZeroCode f.a) (isZeroCode f.b) (32 / ka.width) (c.val 0 t)
        (c.val 1 t) (c.val 2 t) (if scaled then some (c.val 3 t % 2 ^ 8, c.val 3 t / 2 ^ 8 % 2 ^ 8) else none) intDst
        (dtRnd f.flags) (dtSat f.flags) (c.s.pod.seed.get t) := by
  refine laneDoes_congr (laneDoes_of_dst he (fun _ => rfl) fun _ => fits_1 ..) fun c t => ?_
  rw [dotRes, bits_low]
  rfl

/-! ## The shapes of DOT4 and DOT8 -/

theorem exec_dot4_float {h : Head} {f : FormR} (hf : f.fam.toNat = 0) (s : State) :
    exec (.dot4 h f) s = dot (.dot4 h f) h f [9, 10, 11] 9 false false 15 s := by
  simp only [exec, execDot4, hf]

theorem exec_dot4_int {h : Head} {f : FormR} (hf : f.fam.toNat = 1) (s : State) :
    exec (.dot4 h f) s = dot (.dot4 h f) h f [12, 13] 12 false true 16 s := by
  simp only [exec, execDot4, hf]

theorem exec_dot4_lg8 {h : Head} {f : FormR} (hf : f.fam.toNat = 2) (s : State) :
    exec (.dot4 h f) s = dot (.dot4 h f) h f [20] 20 false false 17 s := by
  simp only [exec, execDot4, hf]

theorem exec_dot4_scaled {h : Head} {f : FormR} (hf : 2 < f.fam.toNat) (s : State) :
    exec (.dot4 h f) s = dot (.dot4 h f) h f [9, 10, 11] 9 true false 15 s := by
  obtain ⟨n, hn⟩ := Nat.exists_eq_add_of_lt hf
  rw [show 2 + n + 1 = n + 3 by omega] at hn
  simp only [exec, execDot4, hn]

theorem exec_dot8_int {h : Head} {f : FormR} (hf : f.flags.getLsbD 5 = true) (s : State) :
    exec (.dot8 h f) s = dot (.dot8 h f) h f [15, 16] 15 (f.flags.getLsbD 6) (!f.flags.getLsbD 6) 19 s := if_pos hf

theorem exec_dot8_float {h : Head} {f : FormR} (hf : f.flags.getLsbD 5 = false) (s : State) :
    exec (.dot8 h f) s = dot (.dot8 h f) h f [14] 14 (f.flags.getLsbD 6) false 18 s := if_neg (Bool.eq_false_iff.mp hf)

end Sys2Proof.Machine

open Sys2Proof.Machine in
/-- Settles O13: each instruction is a dot product of one shape; the family picks that of DOT4, the type bit that of DOT8. -/
theorem dotProducts : Obligations.DotProducts := fun _ _ =>
  ⟨dot_does fun _ => rfl,
    fun hf => dot_does (exec_dot4_float hf),
    fun hf => dot_does (exec_dot4_int hf),
    fun hf => dot_does (exec_dot4_lg8 hf),
    fun hf => dot_does (exec_dot4_scaled hf),
    fun hf => dot_does (exec_dot8_int hf),
    fun hf => dot_does (exec_dot8_float hf),
    dot_does fun _ => rfl⟩
